-- ==== Sys2Proof/Word.lean ====
section
/-!
DEFINITION. The words of the Dziolaran (00 R9, 02 R22) and the numbers that name its registers and parts.
-/
namespace Sys2Proof

/-- A 64-bit word: a scalar register, an address, a control register (02 R22, R42). -/
abbrev Word := BitVec 64
/-- One byte of memory (00 R9). -/
abbrev Byte := BitVec 8
/-- A scalar register s0 to s31 (02 R22). -/
abbrev SReg := Fin 32
/-- A vector register v0 to v31 (02 R30). -/
abbrev VReg := Fin 32
/-- A mask register m0 to m7 (02 R31). -/
abbrev MReg := Fin 8
/-- A topology register t0 to t7 (02 R32). -/
abbrev TReg := Fin 8
/-- A condition bit c0 to c7 (02 R24). -/
abbrev CBit := Fin 8
/-- A stream handle h0 to h15 (02 R34). -/
abbrev HReg := Fin 16
/-- A compute die (00 R1). -/
abbrev DieNo := Fin 4
/-- A cell of a die (00 R1). -/
abbrev CellNo := Fin 48
/-- A context slot of a cell (00 R3). -/
abbrev SlotNo := Fin 32

/-- A vector or topology register: 256 lanes of 256 bits, lane i in bits [256i + 255 : 256i] (02 R26, R27, R32). -/
abbrev VWord := BitVec 65536
/-- A mask register: bit e governs element e (02 R31). -/
abbrev MWord := BitVec 16384
/-- A 64-byte block, byte n in bits [8n + 7 : 8n] (08 R181). -/
abbrev Block := BitVec 512

end Sys2Proof
end

