-- ==== Sys2Proof/Syntax.lean ====
section
/-!
DEFINITION. The instructions of the Dziolaran and its events: one constructor of `Instr` per row of
spec/opcode_table.json (03 R55 to R84 for the encoded rows, 95 for the events).
-/
namespace Sys2Proof

/-! ## Codes shared by instructions (03 R61 to R63) -/

/-- The integer class of the 4-bit type code (03 R62, 08 R169). -/
inductive IntTy where
  | i8 | i16 | i32 | i64 | n8 | n16 | n32 | n64 | i4 | i6
  deriving DecidableEq, Repr

/-- The floating types of majors 0x18 and 0x22 (03 R64). -/
inductive VFltTy where
  | f16 | bf16 | f32 | f64
  deriving DecidableEq, Repr

/-- The floating class of the 4-bit type code without the block codes (03 R62, 08 R170). -/
inductive FltTy where
  | f16 | bf16 | f32 | f64 | e4m3 | e5m2 | e2m1
  deriving DecidableEq, Repr

/-- The types of scalar floating arithmetic (03 R67). -/
inductive SFltTy where
  | f32 | f64
  deriving DecidableEq, Repr

/-- An element type of either class (03 R62). -/
inductive ElemTy where
  | int (t : IntTy)
  | flt (t : FltTy)
  deriving DecidableEq, Repr

/-- The value types of the tree instructions (03 R79). -/
inductive TreeTy where
  | f32 | i32 | n32
  deriving DecidableEq, Repr

/-- The combinations of tup and tdn (03 R79). -/
inductive TreeComb where
  | add | addSat | max | min | or
  deriving DecidableEq, Repr

/-- The relation codes (03 R63). -/
inductive Rel where
  | eq | ne | lt | ge | gt | le
  deriving DecidableEq, Repr

/-- The scope codes (03 R61). -/
inductive Scope where
  | h | co | ce | d | p | sy
  deriving DecidableEq, Repr

/-- The access sizes of 1, 2, 4 and 8 bytes (03 R71). -/
inductive Size where
  | b1 | b2 | b4 | b8
  deriving DecidableEq, Repr

/-- The sizes of atomics (03 R68). -/
inductive ASize where
  | w32 | w64
  deriving DecidableEq, Repr

/-- The element width codes of VEW (02 R46). -/
inductive Width where
  | w8 | w16 | w32 | w64 | w4 | w6
  deriving DecidableEq, Repr

/-- The rounding of a vcvt: by FRM or encoded (03 R77). -/
inductive CvtMode where
  | dyn | rne | rtz | rdn | rup
  deriving DecidableEq, Repr

/-- The mantissa widths 2 to 8 of block floating point, held as the width less 2 (03 R62). -/
abbrev BfpW := Fin 7

/-- The source of mmov: a mask register or msm (03 R58). -/
inductive MaskSrc where
  | m (r : MReg)
  | msm
  deriving DecidableEq, Repr

/-- The operation of tl.ew (18 R358). -/
inductive EwOp where
  | add | sub | mul | max | min
  deriving DecidableEq, Repr

/-- The operation of tl.red (18 R358). -/
inductive RedOp where
  | sum | max | min
  deriving DecidableEq, Repr

/-! ## What events carry -/

/-- Where a soft error in register storage lies (16 R335). -/
inductive SoftErrorPlace where
  | scalar (r : SReg)
  | vector (r : VReg) (lane : Fin 256)
  | topology (r : TReg) (lane : Fin 256)
  | mask (r : MReg) (lane : Fin 256)
  | storeBuffer (entry : Fin 8)
  deriving DecidableEq, Repr

/-- What an error of register storage comes to (16 R335): corrected; a mark and a report; or a mark alone, where an
instruction that reads the lane as active meets it, whose fault 0x60 is the report. -/
inductive SoftErrorKind where
  | corrected | reported | met
  deriving DecidableEq, Repr

/-- What makes firmware throttle: the junction temperature, and the islands it lowers with their new steps (22 R441). -/
structure Throttle where
  temp : BitVec 8
  lower : List (Fin 512 × BitVec 16)
  deriving DecidableEq, Repr

/-- The header of a host message (22 R429). -/
structure MsgHdr where
  ver : BitVec 8
  unitsM1 : BitVec 10
  mseq : BitVec 32
  jobid : BitVec 32
  /-- The bits the header table calls zero are zero. -/
  zeroOk : Bool
  deriving DecidableEq, Repr

/-- What a LAUNCH message holds after its header (22 R430). -/
structure LaunchBody where
  asid : BitVec 16
  ceil : BitVec 4
  gatebase : Word
  cont : Word
  die : DieNo
  cell : BitVec 6
  /-- The bits the message's layout calls zero are zero. -/
  zeroOk : Bool
  /-- N, which the message states. -/
  count : BitVec 16
  /-- The task records of units 1 to N, each a 64-byte unit (15 R288). -/
  records : List Block
  deriving DecidableEq, Repr

/-- The tag of a collective flit (22 R432). -/
structure HopTag where
  gtag : BitVec 24
  rev : BitVec 32
  att : BitVec 32
  deriving DecidableEq, Repr

/-- What a hop's data is: a partial sum that a ring member or a child sends up, to which the receiver adds its own
elements, or a finished piece (20 R392, R393). -/
inductive HopKind where
  | ringSum | leftSum | rightSum | piece
  deriving DecidableEq, Repr

/-- A hop of a collective's data phase: bytes for a place of the receiving member's staging (20 R392, R393). -/
structure Hop where
  tag : HopTag
  kind : HopKind
  offset : Nat
  bytes : List Byte
  deriving DecidableEq, Repr

/-- A spawn.x packet (15 R309, R312; 22 R433). -/
structure SpawnPacket where
  srcNode : BitVec 19
  number : Nat
  job : BitVec 32
  any : Bool
  die : DieNo
  cell : BitVec 6
  record : Block
  deriving DecidableEq, Repr

/-- How a die's start-up goes (22 R435): what the checks come to that the model does not make, the cause reported if one
fails, the bytes of the configuration record, and firmware's placements. -/
structure BootPlan where
  /-- Stages 1, 2, 4, 5, 6 (the die-to-die links, the UCIe link) and 7 succeed. -/
  selfTest : Bool
  firmware : Bool
  identity : Bool
  training : Bool
  dieLinks : Bool
  hostLink : Bool
  memory : Bool
  cause : BitVec 8
  record : List Byte
  directory : BitVec 52
  defaultVector : Word
  saveAreas : BitVec 52
  supervisorQueues : BitVec 52
  taskRings : BitVec 52
  deriving DecidableEq, Repr

/-! ## Instructions and events -/

/-- One constructor per row of spec/opcode_table.json. The order puts the instructions of the vector queue among the
first 245: compiled code cannot build a constructor with arguments beyond that place. -/
inductive Instr where
  -- Major 0x01 (03 R65, 04 R86, R87)
  | add (d a b : SReg) (ea eb : Bool)
  | sub (d a b : SReg) (ea eb : Bool)
  | and (d a b : SReg) (ea eb : Bool)
  | or (d a b : SReg) (ea eb : Bool)
  | xor (d a b : SReg) (ea eb : Bool)
  | sll (d a b : SReg) (ea eb : Bool)
  | srl (d a b : SReg) (ea eb : Bool)
  | sra (d a b : SReg) (ea eb : Bool)
  | mul (d a b : SReg) (ea eb : Bool)
  | mulh (d a b : SReg) (ea eb : Bool)
  | mulhN (d a b : SReg) (ea eb : Bool)
  | div (d a b : SReg) (ea eb : Bool)
  | divN (d a b : SReg) (ea eb : Bool)
  | rem (d a b : SReg) (ea eb : Bool)
  | remN (d a b : SReg) (ea eb : Bool)
  | min (d a b : SReg) (ea eb : Bool)
  | max (d a b : SReg) (ea eb : Bool)
  | minN (d a b : SReg) (ea eb : Bool)
  | maxN (d a b : SReg) (ea eb : Bool)
  | add32 (d a b : SReg) (ea eb : Bool)
  | sub32 (d a b : SReg) (ea eb : Bool)
  -- Majors 0x02 to 0x09 (04 R88 to R91)
  | addi (d a : SReg) (imm : BitVec 15) (ea : Bool)
  | andi (d a : SReg) (imm : BitVec 15) (ea : Bool)
  | ori (d a : SReg) (imm : BitVec 15) (ea : Bool)
  | xori (d a : SReg) (imm : BitVec 15) (ea : Bool)
  | slli (d a : SReg) (n : BitVec 6) (ea : Bool)
  | srli (d a : SReg) (n : BitVec 6) (ea : Bool)
  | srai (d a : SReg) (n : BitVec 6) (ea : Bool)
  | slli32 (d a : SReg) (n : BitVec 5) (ea : Bool)
  | srli32 (d a : SReg) (n : BitVec 5) (ea : Bool)
  | srai32 (d a : SReg) (n : BitVec 5) (ea : Bool)
  | cmpi (c : CBit) (a : SReg) (rel : Rel) (imm : BitVec 11) (ea : Bool)
  | cmpiN (c : CBit) (a : SReg) (rel : Rel) (imm : BitVec 11) (ea : Bool)
  | ldhi (d : SReg) (imm : BitVec 21)
  | addpc (d : SReg) (imm : BitVec 21)
  -- Major 0x0A (03 R67, 04 R98)
  | fadd (d a b : SReg) (ty : SFltTy) (ea eb : Bool)
  | fsub (d a b : SReg) (ty : SFltTy) (ea eb : Bool)
  | fmul (d a b : SReg) (ty : SFltTy) (ea eb : Bool)
  | fdiv (d a b : SReg) (ty : SFltTy) (ea eb : Bool)
  | fsqrt (d a : SReg) (ty : SFltTy) (ea : Bool)
  | fmin (d a b : SReg) (ty : SFltTy) (ea eb : Bool)
  | fmax (d a b : SReg) (ty : SFltTy) (ea eb : Bool)
  | fma (d a b : SReg) (ty : SFltTy) (ea eb : Bool)
  | fcopys (d a b : SReg) (ty : SFltTy) (ea eb : Bool)
  | fcopyn (d a b : SReg) (ty : SFltTy) (ea eb : Bool)
  | fxors (d a b : SReg) (ty : SFltTy) (ea eb : Bool)
  | fcvti (d a : SReg) (ty : SFltTy) (ea : Bool)
  | fcvtn (d a : SReg) (ty : SFltTy) (ea : Bool)
  | icvtf (d a : SReg) (ty : SFltTy) (ea : Bool)
  | ncvtf (d a : SReg) (ty : SFltTy) (ea : Bool)
  | fcvtf (d a : SReg) (ty : SFltTy) (ea : Bool)
  -- Majors 0x0B and 0x0C (03 R71, 04 R101)
  | ld (d a : SReg) (disp : BitVec 12) (size : Size) (signed : Bool) (ea : Bool)
  | st (d a : SReg) (disp : BitVec 12) (size : Size) (ea : Bool)
  -- Majors 0x0D and 0x0E (03 R68, 04 R106 to R112)
  | ldAcq (d a : SReg) (size : Size) (scope : Scope) (ea : Bool)
  | stRel (a b : SReg) (size : Size) (scope : Scope) (ea eb : Bool)
  | amoSwap (d a b : SReg) (size : ASize) (scope : Scope) (ea eb : Bool)
  | amoAdd (d a b : SReg) (size : ASize) (scope : Scope) (ea eb : Bool)
  | amoAnd (d a b : SReg) (size : ASize) (scope : Scope) (ea eb : Bool)
  | amoOr (d a b : SReg) (size : ASize) (scope : Scope) (ea eb : Bool)
  | amoXor (d a b : SReg) (size : ASize) (scope : Scope) (ea eb : Bool)
  | amoMin (d a b : SReg) (size : ASize) (scope : Scope) (ea eb : Bool)
  | amoMax (d a b : SReg) (size : ASize) (scope : Scope) (ea eb : Bool)
  | amoMinN (d a b : SReg) (size : ASize) (scope : Scope) (ea eb : Bool)
  | amoMaxN (d a b : SReg) (size : ASize) (scope : Scope) (ea eb : Bool)
  | cas (d a b : SReg) (size : ASize) (scope : Scope) (ea eb : Bool)
  | fence (scope : Scope)
  | fenceLd (scope : Scope)
  | fenceSt (scope : Scope)
  | fenceEng (scope : Scope)
  -- Major 0x0F (03 R69, 04 R91, R92)
  | cmp (c : CBit) (a b : SReg) (rel : Rel) (ea eb : Bool)
  | cmpN (c : CBit) (a b : SReg) (rel : Rel) (ea eb : Bool)
  | fcmp (c : CBit) (a b : SReg) (rel : Rel) (ty : SFltTy) (ea eb : Bool)
  | cand (d a b : CBit)
  | cor (d a b : CBit)
  | cxor (d a b : CBit)
  | candn (d a b : CBit)
  | cnot (d a : CBit)
  | cget (d : SReg) (a : CBit)
  | cput (d : CBit) (a : SReg) (ea : Bool)
  -- Majors 0x10 to 0x14 (04 R93, R94; 02 R54)
  | br (c : CBit) (disp : BitVec 22)
  | brn (c : CBit) (disp : BitVec 22)
  | jmp (disp : BitVec 26)
  | call (disp : BitVec 26)
  | jmpr (a : SReg)
  | callr (a : SReg)
  | ret
  | gret
  | gate (n : Fin 1024)
  -- Major 0x15 (03 R70, 16 R324 to R343)
  | trap (n : BitVec 8)
  | tret
  | crd (d : SReg) (n : BitVec 12)
  | cwr (a : SReg) (n : BitVec 12)
  | cwrVl (a : SReg)
  | cwrLpart (a : SReg)
  | cwrPrio (a : SReg)
  | cwrStripmax (a : SReg)
  | cwrPriv (a : SReg)
  | cwrAsid (a : SReg)
  | cwrTcause (a : SReg)
  | cwrHctl (a : SReg)
  | tlbInv (a b : SReg) (scope : Scope)
  | tlbPrb (d b : SReg)
  | cacheWb (a b : SReg) (scope : Scope)
  | cacheInv (a b : SReg) (scope : Scope)
  | halt
  | wfe (a : SReg)
  | evt (a : SReg)
  -- Major 0x16 (03 R72, 05 R118 to R121)
  | setvl (d a : SReg) (w : Width) (ea : Bool)
  | setvlDb (d a : SReg) (w : Width) (n : Fin 64) (ea : Bool)
  | setvlDbNb (d a : SReg) (w : Width) (n : Fin 64) (ea : Bool)
  -- Major 0x17 (03 R73, 05 R122, R123)
  | vadd (d a b : VReg) (ty : IntTy) (ea eb : Bool)
  | vsub (d a b : VReg) (ty : IntTy) (ea eb : Bool)
  | vmul (d a b : VReg) (ty : IntTy) (ea eb : Bool)
  | vmin (d a b : VReg) (ty : IntTy) (ea eb : Bool)
  | vmax (d a b : VReg) (ty : IntTy) (ea eb : Bool)
  | vand (d a b : VReg) (ty : IntTy) (ea eb : Bool)
  | vor (d a b : VReg) (ty : IntTy) (ea eb : Bool)
  | vxor (d a b : VReg) (ty : IntTy) (ea eb : Bool)
  | vmulh (d a b : VReg) (ty : IntTy) (ea eb : Bool)
  | vdiv (d a b : VReg) (ty : IntTy) (ea eb : Bool)
  | vrem (d a b : VReg) (ty : IntTy) (ea eb : Bool)
  | vsll (d a b : VReg) (ty : IntTy) (ea eb : Bool)
  | vsrl (d a b : VReg) (ty : IntTy) (ea eb : Bool)
  | vsra (d a b : VReg) (ty : IntTy) (ea eb : Bool)
  | vaddSat (d a b : VReg) (ty : IntTy) (ea eb : Bool)
  | vsubSat (d a b : VReg) (ty : IntTy) (ea eb : Bool)
  | vabs (d a : VReg) (ty : IntTy) (ea : Bool)
  | vneg (d a : VReg) (ty : IntTy) (ea : Bool)
  | vmadd (d a b : VReg) (ty : IntTy) (ea eb : Bool)
  | vmv (d a : VReg) (ty : IntTy) (ea : Bool)
  -- Major 0x18 (03 R73, 05 R124)
  | vfadd (d a b : VReg) (ty : VFltTy) (ea eb : Bool)
  | vfsub (d a b : VReg) (ty : VFltTy) (ea eb : Bool)
  | vfmul (d a b : VReg) (ty : VFltTy) (ea eb : Bool)
  | vfdiv (d a b : VReg) (ty : VFltTy) (ea eb : Bool)
  | vfmin (d a b : VReg) (ty : VFltTy) (ea eb : Bool)
  | vfmax (d a b : VReg) (ty : VFltTy) (ea eb : Bool)
  | vfma (d a b : VReg) (ty : VFltTy) (ea eb : Bool)
  | vfnma (d a b : VReg) (ty : VFltTy) (ea eb : Bool)
  | vfms (d a b : VReg) (ty : VFltTy) (ea eb : Bool)
  | vfnms (d a b : VReg) (ty : VFltTy) (ea eb : Bool)
  | vfcopys (d a b : VReg) (ty : VFltTy) (ea eb : Bool)
  | vfcopyn (d a b : VReg) (ty : VFltTy) (ea eb : Bool)
  | vfxors (d a b : VReg) (ty : VFltTy) (ea eb : Bool)
  | vfabs (d a : VReg) (ty : VFltTy) (ea : Bool)
  | vfneg (d a : VReg) (ty : VFltTy) (ea : Bool)
  | vfmv (d a : VReg) (ty : VFltTy) (ea : Bool)
  -- Major 0x19 (03 R74, 05 R127)
  | vwfma (d a b : VReg) (ty : FltTy) (ea eb : Bool)
  | vwfms (d a b : VReg) (ty : FltTy) (ea eb : Bool)
  | vwmul (d a b : VReg) (ty : FltTy) (ea eb : Bool)
  | vwmadd (d a b : VReg) (ty : IntTy) (ea eb : Bool)
  | vwimul (d a b : VReg) (ty : IntTy) (ea eb : Bool)
  -- Majors 0x1A and 0x1B (05 R132, R133)
  | vcmp (d : MReg) (a b : VReg) (rel : Rel) (ty : ElemTy) (ea eb : Bool)
  | mand (d a b : MReg)
  | mor (d a b : MReg)
  | mxor (d a b : MReg)
  | mandn (d a b : MReg)
  | mnot (d a : MReg)
  | mmov (d : MReg) (a : MaskSrc)
  | mcpop (d : SReg) (a : MReg)
  | mfirst (d : SReg) (a : MReg)
  -- Major 0x1C (03 R75, 05 R135 to R141)
  | vpush (d a b : VReg) (ty : ElemTy) (ea eb : Bool)
  | vpushAdd (d a b : VReg) (ty : ElemTy) (ea eb : Bool)
  | vpull (d a b : VReg) (ty : ElemTy) (ea eb : Bool)
  | vcmpr (d a : VReg) (ty : ElemTy) (ea : Bool)
  | vcmprTh (d a : VReg) (b : SReg) (ty : ElemTy) (ea eb : Bool)
  | vexpand (d a : VReg) (ty : ElemTy) (ea : Bool)
  | vslideUp (d a : VReg) (b : SReg) (ty : ElemTy) (ea eb : Bool)
  | vslideDn (d a : VReg) (b : SReg) (ty : ElemTy) (ea eb : Bool)
  | vbcast (d a : VReg) (b : SReg) (ty : ElemTy) (ea eb : Bool)
  | vext (d : SReg) (a : VReg) (b : SReg) (ty : ElemTy) (ea eb : Bool)
  | vrsum (d : SReg) (a : VReg) (b : SReg) (ty : ElemTy) (ea eb : Bool)
  | vrmax (d : SReg) (a : VReg) (b : SReg) (ty : ElemTy) (ea eb : Bool)
  | vrmin (d : SReg) (a : VReg) (b : SReg) (ty : ElemTy) (ea eb : Bool)
  -- Major 0x1D (05 R134)
  | vidx (d : VReg) (start : BitVec 11) (stp : BitVec 10)
  -- Majors 0x1E to 0x20 (10 R197 to R203)
  | vld (d : VReg) (a : SReg) (disp : BitVec 12) (size : Size) (ea : Bool)
  | vlds (d : VReg) (a : SReg) (disp : BitVec 12) (size : Size) (ea : Bool)
  | vst (d : VReg) (a : SReg) (disp : BitVec 12) (size : Size) (ea : Bool)
  | vsts (d : VReg) (a : SReg) (disp : BitVec 12) (size : Size) (ea : Bool)
  | vldx (d : VReg) (a : SReg) (b : VReg) (size : Size) (ea eb : Bool)
  | vstx (d : VReg) (a : SReg) (b : VReg) (size : Size) (ea eb : Bool)
  | vsaddInt (d : VReg) (a : SReg) (b : VReg) (size : Size) (ea eb : Bool)
  | vsaddFloat (d : VReg) (a : SReg) (b : VReg) (ty : VFltTy) (ea eb : Bool)
  | vconf (d a : VReg) (b : MReg) (size : Size) (ea : Bool)
  | vgth (d : VReg) (a : SReg) (b : VReg) (scope : Scope) (size : Size) (ea eb : Bool)
  -- Major 0x21 (03 R77, 05 R128 to R131)
  | vexp2 (d a : VReg) (ea : Bool)
  | vlog2 (d a : VReg) (ea : Bool)
  | vrcp (d a : VReg) (ea : Bool)
  | vrsqrt (d a : VReg) (ea : Bool)
  | vfsqrt (d a : VReg) (ea : Bool)
  | vcvtToFloat (d a : VReg) (src : ElemTy) (mode : CvtMode) (ty : FltTy) (ea : Bool)
  | vcvtToInt (d a : VReg) (src : ElemTy) (mode : CvtMode) (ty : IntTy) (ea : Bool)
  | vpackBfp (d a : VReg) (w : BfpW) (ea : Bool)
  | vunpackBfp (d a : VReg) (w : BfpW) (ea : Bool)
  -- Major 0x22 (03 R78, 05 R126)
  | vaddVs (d a : VReg) (b : SReg) (ty : IntTy) (ea eb : Bool)
  | vsubVs (d a : VReg) (b : SReg) (ty : IntTy) (ea eb : Bool)
  | vmulVs (d a : VReg) (b : SReg) (ty : IntTy) (ea eb : Bool)
  | vminVs (d a : VReg) (b : SReg) (ty : IntTy) (ea eb : Bool)
  | vmaxVs (d a : VReg) (b : SReg) (ty : IntTy) (ea eb : Bool)
  | vandVs (d a : VReg) (b : SReg) (ty : IntTy) (ea eb : Bool)
  | vorVs (d a : VReg) (b : SReg) (ty : IntTy) (ea eb : Bool)
  | vxorVs (d a : VReg) (b : SReg) (ty : IntTy) (ea eb : Bool)
  | vfaddVs (d a : VReg) (b : SReg) (ty : VFltTy) (ea eb : Bool)
  | vfsubVs (d a : VReg) (b : SReg) (ty : VFltTy) (ea eb : Bool)
  | vfmulVs (d a : VReg) (b : SReg) (ty : VFltTy) (ea eb : Bool)
  | vfdivVs (d a : VReg) (b : SReg) (ty : VFltTy) (ea eb : Bool)
  | vfminVs (d a : VReg) (b : SReg) (ty : VFltTy) (ea eb : Bool)
  | vfmaxVs (d a : VReg) (b : SReg) (ty : VFltTy) (ea eb : Bool)
  | vfmaVs (d a : VReg) (b : SReg) (ty : VFltTy) (ea eb : Bool)
  | vfnmaVs (d a : VReg) (b : SReg) (ty : VFltTy) (ea eb : Bool)
  | vcmpVs (d : MReg) (a : VReg) (b : SReg) (rel : Rel) (ty : ElemTy) (ea eb : Bool)
  -- Majors 0x23 and 0x24 (03 R79, 06 R153, R154)
  | tmov (d : VReg) (t : TReg) (ty : TreeTy)
  | tmovToTopo (a : VReg) (t : TReg) (ty : TreeTy) (ea : Bool)
  | tup (d a : VReg) (t : TReg) (comb : TreeComb) (ty : TreeTy) (ea : Bool)
  | tdn (d a : VReg) (t : TReg) (comb : TreeComb) (ty : TreeTy) (ea : Bool)
  | tbc (d a : VReg) (t : TReg) (m : MReg) (ty : TreeTy) (ea : Bool)
  | tdep (d : VReg) (t : TReg)
  | tancK (d : VReg) (t : TReg) (k : Fin 32)
  | tancM (d : VReg) (t : TReg) (m : MReg) (ty : TreeTy)
  | tisanc (d : MReg) (t : TReg) (b : VReg) (eb : Bool)
  | troot (d : VReg) (t : TReg)
  | tdeg (d : VReg) (t : TReg)
  | tchk (d : VReg) (t : TReg) (ty : TreeTy)
  | tctr (d a : VReg) (t : TReg) (ty : TreeTy) (ea : Bool)
  | tld (t : TReg) (a : SReg) (disp : BitVec 12) (ea : Bool)
  | tst (t : TReg) (a : SReg) (disp : BitVec 12) (ea : Bool)
  -- Majors 0x27 and 0x28 (11 R226 to R233)
  | anvOp (a b : SReg)
  | anvZero (a : SReg)
  | vrsumBfp (d : SReg) (v : VReg) (b : SReg)
  | accLd (v : VReg) (b : SReg)
  | accSt (v : VReg) (b : SReg)
  | accMem (a b : SReg) (load : Bool)
  | wbLoad (a b : SReg)
  -- Majors 0x25 and 0x26 (10 R213, R217, R219)
  | bwDef (a : SReg) (n : HReg)
  | bwBind (v : Option VReg) (n : HReg)
  | bwFree (n : HReg)
  | bwPop (d : SReg) (n : HReg)
  | bwPopNb (d : SReg) (n : HReg)
  | bwPush (a : SReg) (n : HReg)
  | bwWait (n : HReg)
  | bwStat (d : SReg) (n : HReg)
  | dbPub (a b : SReg) (n : Fin 64)
  | dbRd (d : SReg) (n : Fin 64)
  | abInit (a b : SReg) (n : Fin 64)
  | abArrive (a : SReg) (n : Fin 64)
  | abWait (n : Fin 64)
  | abWaitNb (n : Fin 64)
  | bar
  -- Major 0x29 (18 R357 to R373)
  | tlLd (d a b : SReg)
  | tlMm (d a b : SReg)
  | tlEw (d a b : SReg) (op : EwOp)
  | tlMap (d a b : SReg)
  | tlRed (d a : SReg) (op : RedOp) (col : Bool)
  | tlCvt (d a b : SReg)
  | tlForce (a b : SReg)
  | tlSt (a b r : SReg)
  | tlPin (a : SReg)
  | tlDrop (a : SReg)
  | tlStat (d a b : SReg)
  | tlSync (pin clr : Bool)
  -- Majors 0x2A to 0x2D (11 R242, 20 R386, 15 R310, 10 R206)
  | jobSub (a b : SReg)
  | jobWait (a : SReg)
  | jobPoll (a b : SReg)
  | jobCancel (a : SReg)
  | tmOpen (a : SReg) (n : Fin 16)
  | tmPut (a b : SReg) (n : Fin 16)
  | tmMark (a : SReg) (n : Fin 16)
  | tmCommit (n : Fin 16)
  | tmPoll (d b : SReg) (n : Fin 16)
  | tmAbort (n : Fin 16)
  | spawn (a b : SReg)
  | spawnX (a b : SReg)
  | join (a : SReg)
  | waitJ (a : SReg)
  | forkL (a d : SReg)
  | joinL
  | yield
  | exit
  | prio (a : SReg)
  | coach (d : SReg)
  | quench
  | sabort
  -- Major 0x3F (03 R81, 16 R324)
  | brk (bits : BitVec 26)
  -- Events (95): steps of the part that no instruction word names
  | producerWriteback
  | vectorEntryExecute
  | anvilQueueExecute (die : DieNo) (cell : CellNo)
  | registerSoftError (place : SoftErrorPlace) (kind : SoftErrorKind)
  | streamFetch (n : HReg)
  | taskDispatch (die : DieNo) (cell : CellNo)
  | stripBudgetExpiry
  | cancelBudgetExpiry
  | wfeTimeout
  | engineJobStart (die : DieNo) (card : Nat)
  | deliveryArrival (die : DieNo) (card : Nat)
  | engineJobComplete (die : DieNo) (card : Nat)
  | watchdogExpiry (die : DieNo) (card : Nat)
  | codecRowPublish (die : DieNo) (card : Nat) (rows : Nat)
  | temperPhaseTwo (die : DieNo) (slot : Fin 16)
  | collectiveHop (die : DieNo) (card : Nat) (hop : Hop)
  | collectiveCommit (die : DieNo) (card : Nat) (tag : HopTag)
  | collectiveAbort (die : DieNo) (card : Nat) (tag : HopTag)
  | spawnXReceive (die : DieNo) (packet : SpawnPacket)
  | spawnXAck (number : Nat) (node : BitVec 19) (refusal : Option (BitVec 8))
  | spawnXAckTimeout (number : Nat)
  | flitReceive (die : DieNo) (port : Fin 8) (flit : Block) (trailer : Word)
  | portFail (die : DieNo) (port : Fin 8)
  | linkUp (die : DieNo) (hostMax : Option (BitVec 8))
  | launch (link : DieNo) (hdr : MsgHdr) (body : LaunchBody)
  | cancel (link : DieNo) (hdr : MsgHdr)
  | windowOpen (link : DieNo) (hdr : MsgHdr) (window : BitVec 6) (base len : Word)
  | windowClose (link : DieNo) (hdr : MsgHdr) (window : BitVec 6)
  | slotRelease (link : DieNo) (hdr : MsgHdr) (die : DieNo) (cell : BitVec 6) (slot : SlotNo)
  | quote (link : DieNo) (hdr : MsgHdr) (nonce : BitVec 256)
  | island (link : DieNo) (hdr : MsgHdr) (number : BitVec 9) (voltage frequency : BitVec 8)
  | islandChangeComplete (number : Fin 512)
  | qgo (die : DieNo) (nonce : BitVec 256)
  | thermalThrottle (die : DieNo) (why : Throttle)
  | thermalTrip (die : DieNo) (temp : BitVec 8)
  | dieReset (die : DieNo)
  | startUp (die : DieNo) (plan : BootPlan)
  | notAnInstruction (word : BitVec 32) (cause : BitVec 8)
  | instructionFetchFault (cause : BitVec 8)
  | outputStreamPerform (n : HReg)
  | ewetricLinkUp (die : DieNo) (port : Fin 8) (generation : Fin 4)
  deriving DecidableEq, Repr

end Sys2Proof
end

