-- ==== Sys2Proof/WellFormed.lean ====
section
/-!
DEFINITION. Which instructions an encoding admits: types permitted for the instruction (03 R62, R74, R77, 05 R135),
aligned register groups (03 R60, R82 step 3; 10 R199), and the control-register numbers that have rows of their own.
-/
namespace Sys2Proof

/-- The width of an integer type in bits (08 R169). -/
def IntTy.bits : IntTy → Nat
  | .i8 | .n8 => 8
  | .i16 | .n16 => 16
  | .i32 | .n32 => 32
  | .i64 | .n64 => 64
  | .i4 => 4
  | .i6 => 6

/-- The width of a floating type in bits (08 R170). -/
def FltTy.bits : FltTy → Nat
  | .f16 | .bf16 => 16
  | .f32 => 32
  | .f64 => 64
  | .e4m3 | .e5m2 => 8
  | .e2m1 => 4

/-- The width of a vector floating type in bits. -/
def VFltTy.bits : VFltTy → Nat
  | .f16 | .bf16 => 16
  | .f32 => 32
  | .f64 => 64

/-- The width of an element type in bits. -/
def ElemTy.bits : ElemTy → Nat
  | .int t => t.bits
  | .flt t => t.bits

/-- The elements of a lane slice at a width (02 R27): 40 at 6 bits, otherwise 256 / width. -/
def perSlice (bits : Nat) : Nat := 256 / bits - (if bits = 6 then 2 else 0)

/-- The registers of a widening group by the float source type (03 R74); 0 for a type not listed. -/
def FltTy.widening : FltTy → Nat
  | .f16 | .bf16 => 2
  | .e4m3 | .e5m2 => 4
  | .e2m1 => 8
  | .f32 | .f64 => 0

/-- The registers of a widening group by the integer source type (03 R74); 0 for a type not listed. -/
def IntTy.widening : IntTy → Nat
  | .i16 | .n16 => 2
  | .i8 | .n8 => 4
  | .i4 => 8
  | _ => 0

/-- A type a float operation of two operands takes: f16, bf16, f32, f64 (05 R135). -/
def FltTy.arithmetic : FltTy → Bool
  | .f16 | .bf16 | .f32 | .f64 => true
  | _ => false

/-- Types of vpush.add and the reductions (05 R135). -/
def ElemTy.summable : ElemTy → Bool
  | .int _ => true
  | .flt t => t.arithmetic

/-- Types of vcmpr.th (05 R135). -/
def ElemTy.thresholds : ElemTy → Bool
  | .int .i4 | .int .i6 => false
  | .int _ => true
  | .flt t => t.arithmetic

/-- The registers of the wide side of a conversion: the least power of two n with n times the wide side's elements per
slice not below the narrow side's (05 R129). -/
def cvtGroup (src dst : Nat) : Nat :=
  let p := perSlice (min src dst)
  let q := perSlice (max src dst)
  if p ≤ q then 1 else if p ≤ 2 * q then 2 else if p ≤ 4 * q then 4 else if p ≤ 8 * q then 8 else 16

/-- The group base of a conversion is aligned: the wide side is vd when the result is wider (05 R129). -/
def cvtAligned (d a : VReg) (src dst : Nat) : Bool :=
  (if src ≤ dst then d.val else a.val) % cvtGroup src dst == 0

/-- The control registers whose cwr is a row of its own (03 R70, 02 R42). -/
def ownCwrRow (n : Nat) : Bool :=
  n == 0x000 || n == 0x006 || n == 0x040 || n == 0x047 || n == 0x180 || n == 0x182 || n == 0x101 || n == 0x020

/-- An encoded instruction whose word passes steps 1 to 3 of 03 R82; true of every event. -/
def Instr.wellFormed : Instr → Bool
  | .ld _ _ _ size signed _ => !(size == .b8 && signed)
  | .slli32 .. | .srli32 .. | .srai32 .. => true
  | .cwr _ n => !ownCwrRow n.toNat
  | .vwfma d _ _ ty _ _ | .vwfms d _ _ ty _ _ | .vwmul d _ _ ty _ _ => ty.widening != 0 && d.val % ty.widening == 0
  | .vwmadd d _ _ ty _ _ | .vwimul d _ _ ty _ _ => ty.widening != 0 && d.val % ty.widening == 0
  | .vpushAdd _ _ _ ty _ _ => ty.summable
  | .vcmprTh d _ _ ty _ _ => ty.thresholds && d.val % 2 == 0
  | .vrsum _ _ _ ty _ _ | .vrmax _ _ _ ty _ _ | .vrmin _ _ _ ty _ _ => ty.summable
  | .vldx _ a _ _ _ _ | .vstx _ a _ _ _ _ | .vsaddInt _ a _ _ _ _ | .vsaddFloat _ a _ _ _ _ => a.val % 2 == 0
  | .vgth _ a _ _ _ _ _ => a.val % 2 == 0
  | .vcvtToFloat d a src _ ty _ => cvtGroup src.bits ty.bits ≤ 8 && cvtAligned d a src.bits ty.bits
  | .vcvtToInt d a src _ ty _ => cvtGroup src.bits ty.bits ≤ 8 && cvtAligned d a src.bits ty.bits
  | .tup _ _ _ comb ty _ | .tdn _ _ _ comb ty _ => !(ty == .f32 && (comb == .addSat || comb == .or))
  | _ => true

end Sys2Proof
end

