-- ==== Sys2Proof/Machine/Flags.lean ====
section
/-!
DEFINITION. Numbers to the last bit (08 R169 to R180): formats, exact values, the one rounding, and the flags each
operation raises (08 R177).
-/
namespace Sys2Proof.Machine

/-! ## Flags and modes -/

/-- FFLAGS bits (02 R48). -/
abbrev FFlags := BitVec 5
def fNV : FFlags := 0b00001
def fDZ : FFlags := 0b00010
def fOF : FFlags := 0b00100
def fUF : FFlags := 0b01000
def fNX : FFlags := 0b10000
def nvIf (b : Bool) : FFlags := if b then fNV else 0

/-- Rounding modes (08 R173). -/
inductive RMode where
  | rne | rdn | rup | rtz
  deriving DecidableEq, Repr

/-- FRM.RM (02 R48). -/
def RMode.ofFrm (f : BitVec 2) : RMode :=
  match f.toNat with
  | 0 => .rne | 1 => .rdn | 2 => .rup | _ => .rtz

/-! ## Formats (08 R170) -/

/-- How a format uses its top exponent: IEEE infinities and NaNs, e4m3's one NaN, or neither. -/
inductive FmtKind where
  | ieee | oneNan | finite
  deriving DecidableEq, Repr

structure Fmt where
  ebits : Nat
  fbits : Nat
  kind : FmtKind
  deriving DecidableEq, Repr

def Fmt.bias (f : Fmt) : Nat := 2 ^ (f.ebits - 1) - 1
def Fmt.bits (f : Fmt) : Nat := 1 + f.ebits + f.fbits
/-- The exponent of the smallest quantum, 1 − b − f. -/
def Fmt.emin (f : Fmt) : Int := 1 - (f.bias : Int) - (f.fbits : Int)

def fmtF64 : Fmt := ⟨11, 52, .ieee⟩
def fmtF32 : Fmt := ⟨8, 23, .ieee⟩
def fmtF16 : Fmt := ⟨5, 10, .ieee⟩
def fmtBF16 : Fmt := ⟨8, 7, .ieee⟩
def fmtE5M2 : Fmt := ⟨5, 2, .ieee⟩
def fmtE4M3 : Fmt := ⟨4, 3, .oneNan⟩
def fmtE2M1 : Fmt := ⟨2, 1, .finite⟩

def fltFmt : FltTy → Fmt
  | .f16 => fmtF16 | .bf16 => fmtBF16 | .f32 => fmtF32 | .f64 => fmtF64
  | .e4m3 => fmtE4M3 | .e5m2 => fmtE5M2 | .e2m1 => fmtE2M1
def vfltFmt : VFltTy → Fmt
  | .f16 => fmtF16 | .bf16 => fmtBF16 | .f32 => fmtF32 | .f64 => fmtF64
def sfltFmt : SFltTy → Fmt
  | .f32 => fmtF32 | .f64 => fmtF64

/-- An exact value: a NaN, an infinity, or ± m × 2^e. -/
inductive FVal where
  | nan (signalling : Bool)
  | inf (neg : Bool)
  | fin (neg : Bool) (m : Nat) (e : Int)
  deriving DecidableEq, Repr

/-- The value of a pattern (08 R171, R172). -/
def unpack (f : Fmt) (x : Nat) : FVal :=
  let neg := x / 2 ^ (f.ebits + f.fbits) % 2 == 1
  let ex := x / 2 ^ f.fbits % 2 ^ f.ebits
  let fr := x % 2 ^ f.fbits
  let top := ex == 2 ^ f.ebits - 1
  match f.kind with
  | .ieee =>
    if top then (if fr = 0 then .inf neg else .nan (fr / 2 ^ (f.fbits - 1) == 0))
    else if ex = 0 then .fin neg fr f.emin
    else .fin neg (2 ^ f.fbits + fr) ((ex : Int) - f.bias - f.fbits)
  | .oneNan =>
    if top && fr == 2 ^ f.fbits - 1 then .nan false
    else if ex = 0 then .fin neg fr f.emin
    else .fin neg (2 ^ f.fbits + fr) ((ex : Int) - f.bias - f.fbits)
  | .finite =>
    if ex = 0 then .fin neg fr f.emin
    else .fin neg (2 ^ f.fbits + fr) ((ex : Int) - f.bias - f.fbits)

/-- The sign bit of a pattern. -/
def signOf (f : Fmt) (x : Nat) : Bool := x / 2 ^ (f.ebits + f.fbits) % 2 == 1
/-- A pattern with a given sign bit. -/
def withSign (f : Fmt) (neg : Bool) (x : Nat) : Nat :=
  x % 2 ^ (f.ebits + f.fbits) + (if neg then 2 ^ (f.ebits + f.fbits) else 0)

/-- The canonical NaN (08 R170); +0 for the format without one (05 R129). -/
def canonicalNan (f : Fmt) : Nat :=
  match f.kind with
  | .ieee => (2 ^ f.ebits - 1) * 2 ^ f.fbits + 2 ^ (f.fbits - 1)
  | .oneNan => 2 ^ (f.ebits + f.fbits) - 1
  | .finite => 0

/-- The pattern of the largest finite magnitude. -/
def maxPattern (f : Fmt) : Nat :=
  match f.kind with
  | .ieee => (2 ^ f.ebits - 1) * 2 ^ f.fbits - 1
  | .oneNan => 2 ^ (f.ebits + f.fbits) - 2
  | .finite => 2 ^ (f.ebits + f.fbits) - 1

/-- The pattern of an infinity, in formats that have them. -/
def infPattern (f : Fmt) : Nat := (2 ^ f.ebits - 1) * 2 ^ f.fbits

/-- n / 2^sh rounded to an integer in a mode, for a value of sign `neg`. -/
def roundShift (mode : RMode) (neg : Bool) (n sh : Nat) : Nat :=
  let q := n / 2 ^ sh
  let r := n % 2 ^ sh
  if r = 0 then q
  else
    match mode with
    | .rtz => q
    | .rdn => if neg then q + 1 else q
    | .rup => if neg then q else q + 1
    | .rne => if 2 * r > 2 ^ sh ∨ (2 * r = 2 ^ sh ∧ q % 2 = 1) then q + 1 else q

/-- What an overflow delivers (08 R173). -/
def overflowPattern (f : Fmt) (mode : RMode) (neg : Bool) : Nat :=
  let toInf := f.kind == .ieee &&
    (mode == .rne || (mode == .rup && !neg) || (mode == .rdn && neg))
  withSign f neg (if toInf then infPattern f else maxPattern f)

/-- ROUND_F of ± m × 2^e, m not 0 (08 R173): the pattern and the flags. -/
def roundFin (f : Fmt) (mode : RMode) (neg : Bool) (m : Nat) (e : Int) : Nat × FFlags :=
  let q := max (e + (Nat.log2 m + 1 : Nat) - (f.fbits + 1 : Nat)) f.emin
  let n := if q ≤ e then m * 2 ^ (e - q).toNat else roundShift mode neg m (q - e).toNat
  let exact := decide (q ≤ e) || m % 2 ^ (q - e).toNat == 0
  let big := n ≥ 2 ^ (f.fbits + 1)
  let n' := if big then n / 2 else n
  let q' := if big then q + 1 else q
  let sub := n' < 2 ^ f.fbits
  let ex := (q' - f.emin).toNat + 1
  let pat := if sub then n' else ex * 2 ^ f.fbits + (n' - 2 ^ f.fbits)
  if pat > maxPattern f then (overflowPattern f mode neg, fOF ||| fNX)
  else (withSign f neg pat, (if exact then 0 else fNX) ||| (if !exact && sub then fUF else 0))

/-- ROUND_F (08 R173), with the flags of the rounding; a NaN's own flag is its operation's. A NaN turned into a format
without one raises NV (05 R129). -/
def roundF (f : Fmt) (mode : RMode) : FVal → Nat × FFlags
  | .nan _ => (canonicalNan f, nvIf (f.kind == .finite))
  | .inf neg =>
    if f.kind = .ieee then (withSign f neg (infPattern f), 0) else (withSign f neg (maxPattern f), fOF ||| fNX)
  | .fin neg 0 _ => (withSign f neg 0, 0)
  | .fin neg (m + 1) e => roundFin f mode neg (m + 1) e

/-! ## Exact operations -/

def FVal.isNan : FVal → Bool
  | .nan _ => true
  | _ => false
def FVal.isSnan : FVal → Bool
  | .nan s => s
  | _ => false
def FVal.neg : FVal → FVal
  | .nan s => .nan s
  | .inf n => .inf (!n)
  | .fin n m e => .fin (!n) m e
def FVal.isZero : FVal → Bool
  | .fin _ 0 _ => true
  | _ => false
def FVal.isFinite : FVal → Bool
  | .fin .. => true
  | _ => false
/-- The sign, false for a NaN. -/
def FVal.sign : FVal → Bool
  | .nan _ => false
  | .inf n => n
  | .fin n _ _ => n

/-- ± m as an integer multiple of 2^lo. -/
def scaled (neg : Bool) (m : Nat) (e lo : Int) : Int :=
  let x : Int := m * 2 ^ (e - lo).toNat
  if neg then -x else x

/-- A value from an integer multiple of 2^e. -/
def ofScaled (x e : Int) : FVal := .fin (x < 0) x.natAbs e

/-- The exact product, with NV for 0 × ∞ or a signalling NaN (08 R177). -/
def mulX (x y : FVal) : FVal × FFlags :=
  match x, y with
  | .nan s, b => (.nan false, nvIf (s || b.isSnan))
  | _, .nan s => (.nan false, nvIf s)
  | .inf n, b => if b.isZero then (.nan false, fNV) else (.inf (n != b.sign), 0)
  | a, .inf n => if a.isZero then (.nan false, fNV) else (.inf (a.sign != n), 0)
  | .fin n m e, .fin n' m' e' => (.fin (n != n') (m * m') (e + e'), 0)

/-- The exact sum under a mode, which decides the sign of an exact zero (08 R173), with NV for ∞ − ∞ or a signalling
NaN. -/
def addX (mode : RMode) (x y : FVal) : FVal × FFlags :=
  match x, y with
  | .nan s, b => (.nan false, nvIf (s || b.isSnan))
  | _, .nan s => (.nan false, nvIf s)
  | .inf n, .inf n' => if n = n' then (.inf n, 0) else (.nan false, fNV)
  | .inf n, _ => (.inf n, 0)
  | _, .inf n => (.inf n, 0)
  | .fin n m e, .fin n' m' e' =>
    let lo := min e e'
    let t := scaled n m e lo + scaled n' m' e' lo
    if t = 0 then
      (.fin (if m = 0 ∧ m' = 0 ∧ n = n' then n else decide (mode = .rdn)) 0 lo, 0)
    else (ofScaled t lo, 0)

/-- The exact sum of a list, rounded by its caller (00 R13 EXACTSUM, 06 R157): NaN for a NaN or infinities of both
signs; a zero sum has the sign its zero addends share, and otherwise is −0 under RDN and +0 in the other modes (08 R173).
DEDUCED (log 81): so a set of +0 alone sums to +0 under RDN too, where 06 R157's own words give −0. -/
def exactSum (mode : RMode) (l : List FVal) : FVal × FFlags :=
  let nv := l.any FVal.isSnan
  let infP := l.any fun v => v == .inf false
  let infN := l.any fun v => v == .inf true
  if l.any FVal.isNan ∨ (infP ∧ infN) then (.nan false, nvIf (nv || (infP && infN)))
  else if infP then (.inf false, 0)
  else if infN then (.inf true, 0)
  else
    let fins := l.filterMap fun v =>
      match v with
      | .fin n m e => some (n, m, e)
      | _ => none
    let lo := fins.foldl (fun a p => min a p.2.2) 0
    let t := fins.foldl (fun (a : Int) p => a + scaled p.1 p.2.1 p.2.2 lo) 0
    if t = 0 then
      let allNegZero := !fins.isEmpty && fins.all fun p => p.1 && p.2.1 == 0
      let allPosZero := fins.all fun p => !p.1 && p.2.1 == 0
      (.fin (if allNegZero then true else if allPosZero then false else decide (mode = .rdn)) 0 lo, 0)
    else (ofScaled t lo, 0)

/-- Arithmetic of one format: sum, difference, product, fused forms (04 R98, R99; 05 R124). -/
def fpAdd (f : Fmt) (mode : RMode) (x y : Nat) : Nat × FFlags :=
  let (v, g) := addX mode (unpack f x) (unpack f y)
  let (r, h) := roundF f mode v
  (r, g ||| h)
def fpSub (f : Fmt) (mode : RMode) (x y : Nat) : Nat × FFlags :=
  let (v, g) := addX mode (unpack f x) (unpack f y).neg
  let (r, h) := roundF f mode v
  (r, g ||| h)
def fpMul (f : Fmt) (mode : RMode) (x y : Nat) : Nat × FFlags :=
  let (v, g) := mulX (unpack f x) (unpack f y)
  let (r, h) := roundF f mode v
  (r, g ||| h)

/-- ± a × b ± d of values, rounded once to a format. -/
def fusedX (f : Fmt) (mode : RMode) (negP negD : Bool) (a b d : FVal) : Nat × FFlags :=
  let (p, g) := mulX a b
  let (v, g') := addX mode (if negP then p.neg else p) (if negD then d.neg else d)
  let (r, h) := roundF f mode v
  (r, g ||| g' ||| h)
def fpFused (f : Fmt) (mode : RMode) (negP negD : Bool) (x y z : Nat) : Nat × FFlags :=
  fusedX f mode negP negD (unpack f x) (unpack f y) (unpack f z)

/-- The exact quotient, or one with a last bit that stands for what lies below it, enough for one rounding to f bits. -/
def quotX (f : Fmt) (x y : FVal) : FVal × FFlags :=
  match x, y with
  | .nan s, b => (.nan false, nvIf (s || b.isSnan))
  | _, .nan s => (.nan false, nvIf s)
  | .inf n, b => if b.isFinite then (.inf (n != b.sign), 0) else (.nan false, fNV)
  | .fin n _ _, .inf n' => (.fin (n != n') 0 0, 0)
  | .fin n m e, .fin n' m' e' =>
    if m' = 0 then (if m = 0 then (.nan false, fNV) else (.inf (n != n'), fDZ))
    else
      let k := f.fbits + 4 + Nat.log2 m'
      let q := m * 2 ^ k / m'
      let r := m * 2 ^ k % m'
      (.fin (n != n') (2 * q + (if r = 0 then 0 else 1)) (e - e' - k - 1), 0)
def fpDiv (f : Fmt) (mode : RMode) (x y : Nat) : Nat × FFlags :=
  let (v, g) := quotX f (unpack f x) (unpack f y)
  let (r, h) := roundF f mode v
  (r, g ||| h)

/-- The integer square root of n, by its bits from 2^k down. -/
def isqrtFrom (n : Nat) : Nat → Nat → Nat
  | 0, r => if (r + 1) * (r + 1) ≤ n then r + 1 else r
  | k + 1, r => isqrtFrom n k (if (r + 2 ^ (k + 1)) * (r + 2 ^ (k + 1)) ≤ n then r + 2 ^ (k + 1) else r)
def isqrt (n : Nat) : Nat := isqrtFrom n (Nat.log2 n / 2 + 1) 0

/-- The exact square root, or one with a last bit for what lies below it. -/
def sqrtX (f : Fmt) (x : FVal) : FVal × FFlags :=
  match x with
  | .nan s => (.nan false, nvIf s)
  | .inf n => if n then (.nan false, fNV) else (.inf false, 0)
  | .fin n 0 e => (.fin n 0 e, 0)
  | .fin n (m + 1) e =>
    if n then (.nan false, fNV)
    else
      let odd := e % 2 != 0
      let m0 := if odd then 2 * (m + 1) else m + 1
      let e0 := if odd then e - 1 else e
      let k := f.fbits + 4
      let t := m0 * 2 ^ (2 * k)
      let r := isqrt t
      (.fin false (2 * r + (if r * r = t then 0 else 1)) (e0 / 2 - k - 1), 0)
def fpSqrt (f : Fmt) (mode : RMode) (x : Nat) : Nat × FFlags :=
  let (v, g) := sqrtX f (unpack f x)
  let (r, h) := roundF f mode v
  (r, g ||| h)

/-! ## Comparisons, minimum and maximum -/

/-- The order of two values that are no NaN; −0 equals +0. -/
def cmpVal : FVal → FVal → Ordering
  | .inf n, .inf n' => compare (if n then 0 else 1) (if n' then 0 else 1 : Nat)
  | .inf n, _ => if n then .lt else .gt
  | _, .inf n => if n then .gt else .lt
  | .fin n m e, .fin n' m' e' =>
    let lo := min e e'
    compare (scaled n m e lo) (scaled n' m' e' lo)
  | _, _ => .eq

/-- A relation on an order. -/
def relOrd (r : Rel) (o : Ordering) : Bool :=
  match r, o with
  | .eq, .eq | .ge, .eq | .le, .eq => true
  | .ne, .lt | .ne, .gt => true
  | .lt, .lt | .le, .lt => true
  | .gt, .gt | .ge, .gt => true
  | _, _ => false

/-- A floating compare (03 R63, 04 R91): with a NaN true for ne alone; NV for a signalling NaN, and for a quiet one in
lt, ge, gt, le. -/
def fpRel (f : Fmt) (r : Rel) (x y : Nat) : Bool × FFlags :=
  let a := unpack f x
  let b := unpack f y
  if a.isNan || b.isNan then
    (r == .ne, nvIf (a.isSnan || b.isSnan || !(r == .eq || r == .ne)))
  else (relOrd r (cmpVal a b), 0)

/-- x is the smaller, −0 below +0 (04 R99). -/
def fpBelow (f : Fmt) (x y : Nat) : Bool :=
  match cmpVal (unpack f x) (unpack f y) with
  | .lt => true
  | .gt => false
  | .eq => signOf f x && !signOf f y

/-- fmin and fmax (04 R99). -/
def fpMinMax (f : Fmt) (isMax : Bool) (x y : Nat) : Nat × FFlags :=
  let a := unpack f x
  let b := unpack f y
  let g := nvIf (a.isSnan || b.isSnan)
  match a.isNan, b.isNan with
  | true, true => (canonicalNan f, g)
  | true, false => (y, g)
  | false, true => (x, g)
  | false, false => (if isMax then (if fpBelow f x y then y else x) else (if fpBelow f y x then y else x), g)

/-! ## Integers -/

/-- The signed value of an n-bit pattern. -/
def toSigned (n x : Nat) : Int := if x % 2 ^ n < 2 ^ (n - 1) then (x % 2 ^ n : Nat) else ((x % 2 ^ n : Nat) : Int) - 2 ^ n
/-- An integer reduced modulo 2^n. -/
def wrapTo (n : Nat) (z : Int) : Nat := (z % (2 ^ n : Nat)).toNat

/-- A value rounded to an integer in a mode; 0 for what is no finite value. -/
def roundInt (mode : RMode) : FVal → Int × Bool
  | .fin neg m e =>
    let q : Nat := if 0 ≤ e then m * 2 ^ e.toNat else roundShift mode neg m (-e).toNat
    (if neg then -(q : Int) else q, decide (0 ≤ e) || m % 2 ^ (-e).toNat == 0)
  | _ => (0, true)

/-- The least and greatest value of an integer range of n bits. -/
def intLo (signed : Bool) (n : Nat) : Int := if signed then -(2 ^ (n - 1) : Nat) else 0
def intHi (signed : Bool) (n : Nat) : Int := if signed then (2 ^ (n - 1) : Nat) - 1 else (2 ^ n : Nat) - 1

/-- SAT (00 R13). -/
def saturate (x lo hi : Int) : Int := if x < lo then lo else if hi < x then hi else x

/-- Float to integer (04 R100, 05 R129): the integer and the flags. -/
def fpToInt (signed : Bool) (n : Nat) (mode : RMode) (v : FVal) : Int × FFlags :=
  match v with
  | .nan _ => (intHi signed n, fNV)
  | .inf neg => (if neg then intLo signed n else intHi signed n, fNV)
  | _ =>
    let (z, exact) := roundInt mode v
    if z < intLo signed n ∨ intHi signed n < z then (saturate z (intLo signed n) (intHi signed n), fNV)
    else (z, if exact then 0 else fNX)

/-- An integer as an exact value; zero is +0 (08 R179). -/
def ofInt (z : Int) : FVal := .fin (z < 0) z.natAbs 0

/-! ## Transcendentals (05 R128, 08 R178) -/

/-- Bits of the fixed-point fractions below. Any non-integer power of two and any logarithm of another number than a
power of two is irrational, so the exact value is never a rounding boundary; 256 bits settle every f32 (log 14). -/
def fxBits : Nat := 256

/-- Σ z^(2k+1) / (2k+1) for a fixed-point z: atanh z from below. -/
def atanhSum (z2 : Nat) : Nat → Nat → Nat → Nat → Nat
  | 0, _, _, acc => acc
  | n + 1, k, p, acc => atanhSum z2 n (k + 2) (p * z2 / 2 ^ fxBits) (acc + p / k)
/-- atanh of num / den, den above num. -/
def atanhFx (num den : Nat) : Nat :=
  let z := num * 2 ^ fxBits / den
  atanhSum (z * z / 2 ^ fxBits) 170 1 z 0
/-- ln 2. -/
def ln2Fx : Nat := 2 * atanhFx 1 3

/-- Σ y^k / k! for a fixed-point y below 1. -/
def expSum (y : Nat) : Nat → Nat → Nat → Nat → Nat
  | 0, _, _, acc => acc
  | n + 1, k, t, acc => expSum y n (k + 1) (t * y / 2 ^ fxBits / k) (acc + t)
/-- 2^fr for a fixed-point fraction fr below 1. -/
def exp2Fx (fr : Nat) : Nat := expSum (fr * ln2Fx / 2 ^ fxBits) 70 1 (2 ^ fxBits) 0

/-- 2^a for a finite a: exact for an integer; otherwise the fixed-point value with a last bit for what lies below. -/
def exp2X (neg : Bool) (m : Nat) (e : Int) : FVal :=
  -- a magnitude of 2^20 and more over- or underflows whatever its fraction
  if 20 ≤ e + (Nat.log2 m : Nat) ∧ m ≠ 0 then .fin false 1 (if neg then -100000 else 100000)
  else
    let fr := if 0 ≤ e then 0 else m % 2 ^ (-e).toNat
    let whole : Int := if 0 ≤ e then m * 2 ^ e.toNat else (m / 2 ^ (-e).toNat : Nat)
    let ip : Int := if neg then (if fr = 0 then -whole else -whole - 1) else whole
    if fr = 0 then .fin false 1 ip
    else
      let frp := if neg then 2 ^ (-e).toNat - fr else fr
      let fx := frp * 2 ^ fxBits / 2 ^ (-e).toNat
      .fin false (2 * exp2Fx fx + 1) (ip - fxBits - 1)

/-- vexp2 of an f32 pattern. -/
def fpExp2 (x : Nat) : Nat × FFlags :=
  match unpack fmtF32 x with
  | .nan s => (canonicalNan fmtF32, nvIf s)
  | .inf n => if n then (0, 0) else (infPattern fmtF32, 0)
  | .fin neg m e => roundF fmtF32 .rne (exp2X neg m e)

/-- vlog2 of an f32 pattern. -/
def fpLog2 (x : Nat) : Nat × FFlags :=
  match unpack fmtF32 x with
  | .nan s => (canonicalNan fmtF32, nvIf s)
  | .inf n => if n then (canonicalNan fmtF32, fNV) else (infPattern fmtF32, 0)
  | .fin neg m e =>
    if m = 0 then (withSign fmtF32 true (infPattern fmtF32), fDZ)
    else if neg then (canonicalNan fmtF32, fNV)
    else
      let k := Nat.log2 m
      let ip : Int := e + k
      if m = 2 ^ k then roundF fmtF32 .rne (ofInt ip)
      else
        let fr := 2 * atanhFx (m - 2 ^ k) (m + 2 ^ k) * 2 ^ fxBits / ln2Fx
        let t : Int := ip * 2 ^ fxBits + fr
        roundF fmtF32 .rne (ofScaled (2 * t + 1) (-(fxBits : Int) - 1))

/-- vrcp of an f32 pattern. -/
def fpRcp (x : Nat) : Nat × FFlags := fpDiv fmtF32 .rne 0x3F800000 x

/-- vrsqrt of an f32 pattern. -/
def fpRsqrt (x : Nat) : Nat × FFlags :=
  match unpack fmtF32 x with
  | .nan s => (canonicalNan fmtF32, nvIf s)
  | .inf n => if n then (canonicalNan fmtF32, fNV) else (0, 0)
  | .fin neg 0 _ => (withSign fmtF32 neg (infPattern fmtF32), fDZ)
  | .fin neg (m + 1) e =>
    if neg then (canonicalNan fmtF32, fNV)
    else
      let odd := e % 2 != 0
      let m0 := if odd then 2 * (m + 1) else m + 1
      let e0 := if odd then e - 1 else e
      let k : Nat := 60
      let r := isqrt (2 ^ (2 * k) / m0)
      roundF fmtF32 .rne (.fin false (2 * r + (if r * r * m0 = 2 ^ (2 * k) then 0 else 1)) (-(e0 / 2) - k - 1))

end Sys2Proof.Machine
end

