-- ==== Sys2Proof/Config.lean ====
section
/-!
DEFINITION. What the spec leaves open: the free values, constants without a body, and the constants of the model.
-/
namespace Sys2Proof.Config

/-- DESIGN CHOICE (log 3): how many local cycles the n-th observed stretch of time took, less one (00 R14, 02 R49).
Free. -/
opaque elapsed : Nat → Nat

/-- DESIGN CHOICE (log 4): the public identity key of a die, 32 bytes (22 R435 stage 4). Free. -/
opaque identityKey : Nat → BitVec 256

/-- DESIGN CHOICE (log 4): the SHA-512 digest of the firmware of a die (22 R435). Free. -/
opaque firmwareDigest : Nat → BitVec 512

/-- DESIGN CHOICE (log 4): a die's Ed25519 signature over a SHA-512 digest, under its identity key (22 R436). Free. -/
opaque signature : Nat → BitVec 512 → BitVec 512

/-- DESIGN CHOICE (log 4): SIG is the Ed25519 signature over a SHA-512 digest under the key in ROM (22 R435 stage 3,
R436). Free. -/
opaque recordSigned : BitVec 512 → BitVec 512 → Bool

/-- DESIGN CHOICE (log 4): the routes that a die finds in the routing table's bytes, by node and port; none for a
malformed table (22 R433, R436). Free. -/
opaque routingTable : Nat → List (BitVec 8) → Option (List (BitVec 19 × Fin 8))

/-- DESIGN CHOICE (log 5): what an AV1 or VVC unit holds, as its codec's own specification decides it (20 R397), given
the card's 128 bytes followed by the picture descriptor's 64 and the bytes the codec reads. How many luma rows are
written before the unit is found to break it; none for a unit that does not (R399). Free. -/
opaque codecCorrupt : List (BitVec 8) → Option Nat

/-- The unit shows a picture (20 R398; log 5). Free. -/
opaque codecShows : List (BitVec 8) → Bool

/-- The picture's sample in a plane (luma, Cb, Cr) at a row and column (20 R398; log 5). Free. -/
opaque codecSample : List (BitVec 8) → Nat → Nat → Nat → BitVec 10

/-- The context area after the unit, from its first byte on (20 R398; log 5). Free. -/
opaque codecContext : List (BitVec 8) → List (BitVec 8)

/-- The bitstream an encoding engine produces (20 R397, R398; log 5). Free. -/
opaque codecStream : List (BitVec 8) → List (BitVec 8)

/-- DESIGN CHOICE (log 43): the payload bytes of the n-th flit that the spec gives no meaning (22 R432). Free. -/
opaque flitFill : Nat → BitVec 384

/-- DESIGN CHOICE (log 43): the payloads of a spawn.x packet's flits, given the job, ANY, DIE, CELL and the record
(22 R432). Free. -/
opaque spawnPayloads : BitVec 32 → Bool → Nat → BitVec 6 → BitVec 512 → List (BitVec 448)

/-- DESIGN CHOICE (log 6): a value the spec leaves undefined, the n-th one the model draws. Free. -/
opaque freeWord : Nat → BitVec 64

/-- DESIGN CHOICE (log 38): the ticket that the n-th draw gives a job, where it may (11 R243). Free. -/
opaque ticket : Nat → BitVec 64

/-- DESIGN CHOICE (log 28): the block of a paged stream's token, and the token's row in it, where the descriptor gives
a block no tokens (10 R211 divides by BTOK). Free. -/
opaque blockOfNone : Nat → Nat × Nat

/-- DESIGN CHOICE (log 17): the bytes of the n-th context image, which only the device reads back (16 R328). Free. -/
opaque contextImage : Nat → List (BitVec 8)

/-- DESIGN CHOICE (log 13): the 64 bytes that stand for the n-th resume entry in a queue's ring (15 R292). Free. -/
opaque resumeImage : Nat → BitVec 512

/-- DESIGN CHOICE (log 15): the mask that a reserved MSEL selector selects, by MSEL (02 R44; it can arrive by gret or
tret from PMSEL). Free. -/
opaque reservedMask : BitVec 5 → BitVec 16384

/-- The entries a cell's translation cache holds (16 R337). -/
def tlbSize : Nat := 4096
/-- The most cards a die's engine scheduler holds (11 R241). -/
def maxCards : Nat := 256
/-- The most tickets of a hart that are not retired (11 R243). -/
def maxTickets : Nat := 64
/-- The vector queue's entries (02 R38). -/
def vectorQueueSize : Nat := 32
/-- The synchronising read queue's entries (02 R40). -/
def readQueueSize : Nat := 8
/-- The anvil queue's operations (11 R222). -/
def anvilQueueSize : Nat := 16
/-- The strip store buffer's entries (10 R204). -/
def storeBufferSize : Nat := 8
/-- The records of a queue that its cell caches, and with the 4,096 of its ring all it holds (15 R292). -/
def taskCache : Nat := 8
def taskQueueSize : Nat := taskCache + 4096
/-- Entries of a supervisor queue's ring (16 R330). -/
def supervisorRing : Nat := 4096
/-- A cell's scalar cores (00 R3). -/
def cores : Nat := 8
/-- A cell's bellows channels (00 R3). -/
def channels : Nat := 16
/-- The skip count at which a record becomes blocking (15 R294). -/
def blockingSkips : Nat := 16
/-- The flits a sender keeps unacknowledged (22 R434). -/
def keptFlits : Nat := 2048
/-- The retries that fail a port (22 R434). -/
def maxRetries : Nat := 16
/-- The local cycles within which a spawn.x packet is to be acknowledged (22 R434). -/
def ackCycles : Nat := 1300000000
/-- The most local cycles an island's change takes (22 R440). -/
def islandCycles : Nat := 2600
/-- The credits of each virtual channel at link-up (22 R434). -/
def linkCredits : Nat := 64

end Sys2Proof.Config
end

