-- ==== Sys2Proof/Machine/Memory.lean ====
section
/-!
DEFINITION. Sparse data in one canonical form: the memory, the accumulator stores and the weight buffers.
-/
namespace Sys2Proof.Machine

/-- Pairs of a place and a value, places strictly rising, none with the value an unlisted place reads as. -/
abbrev Sparse (α : Type) := List (Nat × α)

/-- The value at a place; an unlisted place reads as `dflt`. -/
def sparseGet {α : Type} (dflt : α) : Sparse α → Nat → α
  | [], _ => dflt
  | (k, v) :: r, a => if a = k then v else if a < k then dflt else sparseGet dflt r a

/-- The data with a new value at a place. -/
def sparseSet {α : Type} [DecidableEq α] (dflt : α) : Sparse α → Nat → α → Sparse α
  | [], a, x => if x = dflt then [] else [(a, x)]
  | (k, v) :: r, a, x =>
    if a < k then (if x = dflt then (k, v) :: r else (a, x) :: (k, v) :: r)
    else if a = k then (if x = dflt then r else (a, x) :: r)
    else (k, v) :: sparseSet dflt r a x

/-- The canonical form from a place upward. -/
def sparseWfFrom {α : Type} [DecidableEq α] (dflt : α) : Nat → Sparse α → Bool
  | _, [] => true
  | lo, (k, v) :: r => decide (lo ≤ k) && decide (v ≠ dflt) && sparseWfFrom dflt (k + 1) r

/-- The canonical form: places strictly rising, no value equal to what an unlisted place reads as. -/
def sparseWf {α : Type} [DecidableEq α] (dflt : α) (m : Sparse α) : Bool := sparseWfFrom dflt 0 m

/-- A vector with every element changed. -/
def vmap {α β : Type} {n : Nat} (f : α → β) (v : Vector α n) : Vector β n := Vector.ofFn fun i => f v[i]

/-- Put an element into a sorted list, after those it does not precede. -/
def insertBy {α : Type} (le : α → α → Bool) (x : α) : List α → List α
  | [] => [x]
  | y :: r => if le y x then y :: insertBy le x r else x :: y :: r

/-- A list sorted by an order; equals keep their places. -/
def sortBy {α : Type} (le : α → α → Bool) (l : List α) : List α := l.foldl (fun acc x => insertBy le x acc) []

/-- Physical memory: the bytes of 10 R195 at their 52-bit addresses, and behind the host windows the host's own
bytes at 2^52 plus the host address (22 R427). -/
abbrev Memory := List Host.Cell

/-- What a byte that nothing has written reads as. DESIGN CHOICE (log 1): 0; the spec gives memory no contents at
power-on. -/
def Memory.unwritten : Byte := 0

/-- The byte at a physical address. -/
def Memory.read (m : Memory) (a : Nat) : Byte := sparseGet Memory.unwritten m a
/-- The memory with one byte written. -/
def Memory.write (m : Memory) (a : Nat) (x : Byte) : Memory := sparseSet Memory.unwritten m a x
/-- The canonical form of memory. -/
def Memory.wf (m : Memory) : Bool := sparseWf Memory.unwritten m

/-- The little-endian number of the n bytes from a on (00 R9). -/
def Memory.readLe (m : Memory) (a : Nat) : Nat → Nat
  | 0 => 0
  | n + 1 => (m.read a).toNat + 256 * m.readLe (a + 1) n

/-- The n bytes from a on. -/
def Memory.readBytes (m : Memory) (a : Nat) : Nat → List Byte
  | 0 => []
  | n + 1 => m.read a :: m.readBytes (a + 1) n

/-- The memory with a list of bytes stored at their addresses, in order. -/
def Memory.writeAll (m : Memory) (l : List (Nat × Byte)) : Memory := l.foldl (fun m p => m.write p.1 p.2) m

/-- The n low bytes of x, least significant first. -/
def leBytes : Nat → Nat → List Byte
  | 0, _ => []
  | n + 1, x => BitVec.ofNat 8 x :: leBytes n (x / 256)

/-- The little-endian number of a list of bytes. -/
def leNat : List Byte → Nat
  | [] => 0
  | b :: r => b.toNat + 256 * leNat r

/-- A list of bytes with consecutive addresses from a on. -/
def placeBytes (a : Nat) : List Byte → List (Nat × Byte)
  | [] => []
  | b :: r => (a, b) :: placeBytes (a + 1) r

end Sys2Proof.Machine
end

