-- ==== Sys2Proof/Machine/State.lean ====
section
/-!
DEFINITION. The state of one DZL-960 module: its harts, cells, dies, package and memory, all the spec names, with
reset. Rules are cited as chapter and number.
-/
namespace Sys2Proof.Machine

/-! ## Instructions in the lanes -/

/-- An entry of the vector queue with what it captured (02 R38, R39; 06 R145; 16 R340). DEDUCED (log 7): the level is
captured with the address space. -/
structure VEntry where
  instr : Instr
  pc : Word
  vl : Nat
  vew : Width
  msel : BitVec 5
  vstr : Word
  frm : BitVec 2
  actl : BitVec 17
  tgrp : BitVec 4
  tctl : BitVec 32
  asid : BitVec 16
  level : BitVec 2
  /-- The scalar sources, in the order of the instruction's operands. -/
  xa : Word := 0
  xb : Word := 0
  xc : Word := 0
  /-- Set while the operation stands in the cell's anvil queue (11 R222). -/
  inAnvil : Bool := false
  /-- Elements a stopped load has already obtained (10 R198, 16 R323). -/
  got : List (Nat × Nat) := []
  deriving DecidableEq, Repr

/-- Where an outstanding producer writes (02 R35). -/
inductive PDest where
  | scalar (r : SReg) (x : Word)
  | vector (regs : List (VReg × VWord))
  deriving DecidableEq, Repr

/-- A result on its way: its destination stays empty until it is written (02 R35, R37). `queued` marks one that holds
a place of the synchronising read queue; it returns after the results that `behind` entries of the vector queue still
owe (02 R40). -/
structure Producer where
  dest : PDest
  queued : Bool := false
  behind : Nat := 0
  deriving DecidableEq, Repr

/-- What a trap held back in the vector queue, with the next pc (16 R318); `late` are the results that follow one of
these entries into the same register (02 R37, R40). -/
structure Replay where
  entries : List VEntry
  rpc : Word
  late : List Producer := []
  deriving DecidableEq, Repr

/-- The type and rounding of a scatter-add (10 R201). -/
inductive AddKind where
  | int (bits : Nat)
  | flt (t : VFltTy) (mode : BitVec 2)
  deriving DecidableEq, Repr

/-- An entry of the strip store buffer, held under its issue translation (10 R197, R198, R201, R204): bytes at their
places in element order, or the updates of a scatter-add. -/
inductive SEntry where
  | store (bytes : List (Nat × Byte))
  /-- Each update: virtual address, place, merged addend. -/
  | adds (kind : AddKind) (updates : List (Word × Nat × Nat))
  deriving DecidableEq, Repr

/-- A slot of the strip store buffer; `bad` is an uncorrectable error in it (16 R327, R335). -/
structure SSlot where
  entry : SEntry
  bad : Bool := false
  deriving DecidableEq, Repr

/-! ## Streams -/

/-- The checked fields of a stream descriptor (10 R210, R211). -/
structure StreamDesc where
  addr : Word
  paged : Bool
  output : Bool
  dbv : Bool
  db : Fin 64
  /-- The element width in bits. -/
  width : Nat
  signed : Bool
  /-- The mantissa width of a block stream. -/
  block : Option BfpW
  ndim : Nat
  seq : BitVec 16
  base : Word
  /-- Words 2 to 5. -/
  words : List Word
  total : Nat
  deriving DecidableEq, Repr

/-- A stream handle (02 R34, 10 R210 to R215). -/
structure Handle where
  desc : Option StreamDesc := none
  bound : Bool := false
  pos : Nat := 0
  /-- The checkpoint of the last quench (10 R206). -/
  ckpt : Nat := 0
  reg : Option VReg := none
  /-- Elements fetched beyond POS (input), held and not yet released (output). -/
  held : List Nat := []
  /-- Output elements released and not yet performed (10 R206, R212). -/
  released : List Nat := []
  /-- The index of the first released element not yet performed, and the last position published (10 R212). -/
  done : Nat := 0
  pub : Nat := 0
  /-- A fault held at the first element not fetched or not performed: cause, subcode and address (10 R214). -/
  fault : Option (BitVec 8 × BitVec 8 × Word) := none
  /-- The block address a paged stream read for its current block (10 R212). -/
  blk : Option (Nat × Word) := none
  deriving DecidableEq, Repr

/-! ## The hearth -/

/-- The states of a node slot other than free (18 R353). -/
inductive NodeState where
  | suspended | partly | materialised | dropped
  deriving DecidableEq, Repr

/-- The operation of a node (18 R352). -/
inductive NodeOp where
  | leaf | mm | ew (op : EwOp) | map (indirect : Bool) | red (op : RedOp) (col : Bool) | cvt
  deriving DecidableEq, Repr

/-- A node of the hearth (18 R351, R352). `nid` and the inputs' `nid`s keep a freed slot's successor apart from it. -/
structure Node where
  nid : Nat
  state : NodeState
  op : NodeOp
  ty : BitVec 8
  rows : Nat
  cols : Nat
  in0 : Word
  in1 : Word
  param : Word
  i0 : Option Nat
  i1 : Option Nat
  cpc : Word
  frm : BitVec 2
  rm : Bool
  /-- The allocation's offset in 64-byte units (18 R354). -/
  alloc : Option Nat := none
  /-- Bit 256 i + j: element (i, j) is materialised, or read for a leaf. -/
  made : VWord := 0
  /-- Of a block leaf: the header word each element (256 i + j) was read with, latest first (18 R359). -/
  heads : List (Nat × BitVec 32) := []
  /-- Of a leaf: raw elements read before any force demanded them, by element (13 R269, 18 R370). -/
  early : List (Nat × Nat) := []
  deriving DecidableEq, Repr

/-- The hearth of a hart context (18 R351). `ghosts` are victims of auto-forces whose allocation is kept (18 R361). -/
structure Hearth where
  slots : Vector (Option Node) 64 := Vector.replicate 64 none
  ghosts : List (Node × Nat) := []
  nextNid : Nat := 0
  snaps : Nat := 0
  autof : Nat := 0
  deriving DecidableEq, Repr

/-! ## Harts -/

/-- What a hart context does (15 R296, 16 R334). -/
inductive HStatus where
  | free | running | runnable | waiting | haltedDouble
  deriving DecidableEq, Repr

/-- What a wait has already done, kept with the waiting instruction (05 R121, 10 R220, 15 R291, 16 R343, 20 R388). -/
inductive WaitMark where
  | none
  | drawbar (changed : Bool)
  | arrived (generation : Nat)
  -- A spawn held by a full queue: its record, the queue's cell and the record's partition (15 R291, R292)
  | spawning (record : Block) (die : DieNo) (cell : CellNo) (part : Option (BitVec 5))
  -- A tm.commit: its slot, and which of the slot's rounds it closes
  | committed (slot : Fin 16) (opens : Nat)
  -- A wfe with a limit: its die's CYC when the wait began, and the limit (16 R343)
  | limit (start cycles : Word)
  | timedOut
  deriving DecidableEq, Repr

/-- TCAUSE (16 R319). -/
structure TCause where
  pmsel : BitVec 5 := 0
  rh : Bool := false
  plv : BitVec 2 := 0
  done : Bool := false
  hnd : BitVec 4 := 0
  sub : BitVec 8 := 0
  cause : BitVec 8 := 0
  deriving DecidableEq, Repr

/-- The trap registers but the counters (16 R319). -/
structure TrapRegs where
  tvec : Word := 0
  tcause : TCause := {}
  tpc : Word := 0
  tqpos : BitVec 6 := 0
  taddr : Word := 0
  tnode : BitVec 7 := 0
  tnpc : Word := 0
  tscr : Word := 0
  deriving DecidableEq, Repr

/-- PRIV (02 R51). -/
structure Priv where
  ga : Bool := false
  ppl : BitVec 2 := 0
  pmsel : BitVec 5 := 0
  cur : BitVec 2 := 0
  deriving DecidableEq, Repr

/-- A child of a forked family (15 R304, R305): its identity and, once it has ended, the carriages held for it. -/
structure Child where
  hid : Nat
  ended : Option (BitVec 32) := none
  deriving DecidableEq, Repr

/-- A hart context: everything that is saved and restored with it (02, 15 R301, 16 R328). `hid` and `task` are the
model's names for the hart and its task. Every register holds a value; reset values are in `Hart.vacant`. -/
structure Hart where
  hid : Nat
  task : Nat
  status : HStatus
  mark : WaitMark
  die : DieNo
  cell : CellNo
  slot : SlotNo
  pc : Word
  /-- s0 to s31 (02 R22); which of them an outstanding producer leaves empty is read off the producers (R35). -/
  sreg : Vector Word 32
  spoison : Vector Bool 32
  /-- c0 to c7 (02 R24). -/
  cbit : Vector Bool 8
  /-- v0 to v31 (02 R30), t0 to t7 (R32), m0 to m7 (R31) and msm, by the hart's own lane numbers (R26). -/
  vreg : Vector VWord 32
  treg : Vector VWord 8
  mreg : Vector MWord 8
  msm : MWord
  /-- Poison marks per lane (16 R335). -/
  vpoison : Vector (BitVec 256) 32
  tpoison : Vector (BitVec 256) 8
  mpoison : Vector (BitVec 256) 8
  /-- VL, MSEL, VSTR, VGRANT.CARR, VEW, GRANTNEXT, LPART.PART, FRM, FFLAGS (02 R42 to R48). -/
  vl : Nat
  msel : BitVec 5
  vstr : Word
  grant : BitVec 32
  vew : Width
  nextCarr : BitVec 32
  nextPend : Bool
  part : BitVec 5
  frm : BitVec 2
  fflags : BitVec 5
  /-- TSTAT, TGRP, TCTL (06 R144, R149, R150), ACTL (11 R223), HCTL (17 R347). -/
  tstat : BitVec 48
  tgrp : BitVec 4
  tctl : BitVec 32
  actl : BitVec 17
  hctl : Word
  /-- QSTAT.IMPL and DISC (10 R205). -/
  qimpl : Nat
  qdisc : Nat
  /-- PRIO (02 R49), JOBID, STRIPMAX. -/
  prio : BitVec 4
  ceil : BitVec 4
  job : BitVec 32
  stripmax : BitVec 32
  trap : TrapRegs
  /-- TCNT0 to TCNT31 (16 R319). -/
  tcnt : Vector (BitVec 32) 32
  priv : Priv
  gatebase : Word
  asid : BitVec 16
  /-- SBASE and SPREV (16 R320). -/
  sbase : BitVec 48
  sprev : Nat
  /-- EVF (16 R343), a pending cancel (16 R332). -/
  evf : Bool
  cancel : Bool
  handles : Vector Handle 16
  /-- The vector queue, oldest entry first (02 R38). -/
  vq : List VEntry
  /-- The outstanding producers, oldest first (02 R35). -/
  producers : List Producer
  /-- The strip store buffer, oldest entry first (10 R204). -/
  buffer : List SSlot
  replay : Option Replay
  hearth : Hearth
  /-- The family (15 R304): the parent's identity and the children, latest last. -/
  parent : Option Nat
  children : List Child
  /-- The member's INDEX in its coach (15 R297). -/
  index : BitVec 6
  /-- Reservations in 256-byte units: first and length (15 R290). -/
  reservations : List (Nat × Nat)
  /-- Channels held for handles the task has not yet bound (15 R293). -/
  heldChannels : List HReg
  /-- The order of its first start (15 R299). -/
  order : Nat
  /-- The order of its becoming runnable (15 R296). -/
  since : Nat
  /-- While the strip budget of a reclaim runs, its die's CYC when it began (15 R301); and its die's CYC when its pending
  cancel arrived (16 R332). -/
  budget : Option Word
  cancelAt : Word
  deriving DecidableEq, Repr

/-- A context no task has entered. The values of 02 R42 and R50 where they name one; DESIGN CHOICE (log 2) 0 for pc,
PRIO, CEIL, JOBID, PRIV, GATEBASE and ASID, which a task's entry writes. -/
def Hart.vacant : Hart where
  hid := 0
  task := 0
  status := .free
  mark := .none
  die := 0
  cell := 0
  slot := 0
  pc := 0
  sreg := Vector.replicate 32 0
  spoison := Vector.replicate 32 false
  cbit := Vector.replicate 8 false
  vreg := Vector.replicate 32 0
  treg := Vector.replicate 8 0
  mreg := Vector.replicate 8 0
  msm := 0
  vpoison := Vector.replicate 32 0
  tpoison := Vector.replicate 8 0
  mpoison := Vector.replicate 8 0
  vl := 0
  msel := 0x0F
  vstr := 0
  grant := 0
  vew := .w32
  nextCarr := 0
  nextPend := false
  part := 0
  frm := 0
  fflags := 0
  tstat := 0
  tgrp := 1
  tctl := 0
  actl := 0
  hctl := 0
  qimpl := 0
  qdisc := 0
  prio := 0
  ceil := 0
  job := 0
  stripmax := 65536
  trap := {}
  tcnt := Vector.replicate 32 0
  priv := {}
  gatebase := 0
  asid := 0
  sbase := 0
  sprev := 0
  evf := false
  cancel := false
  handles := Vector.replicate 16 {}
  vq := []
  producers := []
  buffer := []
  replay := none
  hearth := {}
  parent := none
  children := []
  index := 0
  reservations := []
  heldChannels := []
  order := 0
  since := 0
  budget := none
  cancelAt := 0

/-! ## Cells -/

/-- An operation in the cell's anvil queue: one of a hart, at the head of its vector queue, or a card's follow-on
(11 R222, R238). -/
inductive AnvilOp where
  | hart (hid : Nat)
  | followOn (card : Nat)
  deriving DecidableEq, Repr

/-- An entry of a cell's translation cache (16 R336, R337): the address space it was filled under, the first virtual
page of the range it covers, the range's size in 4 KiB pages as a power of two, and the table entry. -/
structure TlbEntry where
  asid : BitVec 16
  vpage : Nat
  log : Nat
  entry : Word
  deriving DecidableEq, Repr

/-- A task record in a queue (15 R288, R292 to R294). `part` is set when it uses that partition instead of FLAGS.PART,
`prio` is the queued copy's priority. -/
structure TaskRec where
  qid : Nat
  block : Block
  job : BitVec 32
  prio : BitVec 4
  part : Option (BitVec 5)
  skips : Nat := 0
  deriving DecidableEq, Repr

/-- Saved contexts that resume together: a hart, a coach or a family (15 R298, R301, R304). -/
structure Saved where
  qid : Nat
  prio : BitVec 4
  /-- The partition in which the entry waits, in the cell of its queue (15 R294). -/
  part : BitVec 5 := 0
  harts : List Hart
  /-- The members that a yield saved, whose c6 becomes 1 on resumption (15 R314). -/
  yielded : List Nat := []
  skips : Nat := 0
  deriving DecidableEq, Repr

/-- An entry of a task queue (15 R292). -/
inductive QEntry where
  | task (r : TaskRec)
  | resume (g : Saved)
  deriving DecidableEq, Repr

/-- A carriage taken from a hart and reserved for a queue entry (15 R299), or with no entry (`qid` 0) owed back to the
hart once it is free (15 R303); the latest first. -/
structure Claim where
  carriage : Fin 32
  qid : Nat
  victim : Nat
  deriving DecidableEq, Repr

/-- A cell (00 R3). Accumulator element (r, c) is place 256 r + c. Placements are firmware's (22 R435): DESIGN CHOICE
(log 2) 0 before start-up. -/
structure Cell where
  start : BitVec 32 := 1
  acc : Sparse (BitVec 32) := []
  wb : Sparse Block := []
  accError : List Nat := []
  anvil : List AnvilOp := []
  tlb : List TlbEntry := []
  queues : Vector (List QEntry) 16 := Vector.replicate 16 []
  claims : List Claim := []
  defaultVector : Word := 0
  saveArea : Nat := 0
  sqbase : Word := 0
  taskRing : Nat := 0
  corrected : Nat := 0
  deriving DecidableEq, Repr

/-! ## Dies -/

/-- A drawbar (10 R216). -/
structure Drawbar where
  hw : BitVec 48 := 0
  seq : BitVec 16 := 0
  deriving DecidableEq, Repr

/-- An arrival barrier (10 R218). -/
structure Arrival where
  xb : Nat := 0
  xa : Nat := 0
  cb : Nat := 0
  ca : Nat := 0
  armed : Bool := false
  deriving DecidableEq, Repr

/-- What a card does (11 R238). -/
inductive CardState where
  | queued | running | worked | followOn | done
  deriving DecidableEq, Repr

/-- What a collective card read of its group descriptor at acceptance (20 R391, R393). -/
structure Group where
  tag : HopTag
  rank : Nat
  nmem : Nat
  staging : Word
  putw : Word
  members : List Word
  /-- The bytes received in hops of this attempt (20 R393). -/
  received : Nat := 0
  /-- Sums of children held until every child's has come: of the left child, offset, bytes. -/
  sums : List (Bool × Nat × List Byte) := []
  deriving DecidableEq, Repr

/-- A card the die's scheduler holds (11 R234 to R243, 20) and its ticket's record, which is its owner's, by `hid`,
until it is retired. Ranges are physical: first address and length. -/
structure Card where
  no : Nat
  owner : Nat
  ticket : Word
  job : BitVec 32
  asid : BitVec 16
  level : BitVec 2
  cell : CellNo
  addr : Word
  words : List Word
  rd : List (Nat × Nat)
  wr : List (Nat × Nat)
  /-- The follow-on's A blocks as translated at acceptance, in the order of 11 R228: physical address, BLK. -/
  follow : List (Nat × Bool)
  cmpl : Option Nat
  state : CardState
  /-- Earlier cards that are not done and have an edge to this one; true for read-after-write (11 R241). -/
  deps : List (Nat × Bool) := []
  /-- A card it reads after has failed. -/
  broken : Bool := false
  /-- The source bytes, read at the start (11 R237, 20 R396). -/
  data : List Byte := []
  cause : BitVec 8 := 0
  sub : BitVec 8 := 0
  replayed : Bool := false
  cancelled : Bool := false
  retired : Bool := false
  /-- Destinations whose delivery has been made, and those whose arrival has been counted (11 R238, 20 R400). -/
  delivered : List Nat := []
  arrived : List Nat := []
  group : Option Group := none
  /-- The die's CYC from which the watchdog counts (20 R394, R400). -/
  start : Word := 0
  /-- The luma rows a decoding engine has written, and those its last row publish named (20 R398). -/
  rows : Nat := 0
  published : Nat := 0
  deriving DecidableEq, Repr

/-- A contributor of a merge slot (20 R384). -/
structure Contributor where
  marked : Bool := false
  dcnt : Nat := 0
  sq : BitVec 64 := 0
  bad : Bool := false
  sc : BitVec 32 := 0
  /-- Who placed its marker: the hart's name, and the address after its tm.mark (19 R381; log 84). -/
  marker : Option (Nat × Word) := none
  deriving DecidableEq, Repr

/-- The states of a merge slot (20 R384). -/
inductive MergeState where
  | idle | opened | committed | aborted
  deriving DecidableEq, Repr

/-- A merge slot of the temper unit (19 R376, R378; 20 R384). -/
structure MergeSlot where
  state : MergeState := .idle
  round : BitVec 32 := 0
  ncon : Nat := 0
  arrival : Bool := false
  limit : BitVec 32 := 0
  nelem : Nat := 0
  /-- TOTAL and STAGE with their pages: virtual page number and place of its first byte (20 R388). -/
  total : Word := 0
  stage : Word := 0
  totalMap : List (Nat × Nat) := []
  stageMap : List (Nat × Nat) := []
  job : BitVec 32 := 0
  nmark : Nat := 0
  cmt : BitVec 64 := 0
  rej : BitVec 64 := 0
  miss : BitVec 64 := 0
  contributors : Vector Contributor 64 := Vector.replicate 64 {}
  next : Nat := 0
  /-- Unrejected contributors that phase two will add, in order (20 R385). -/
  pending : List Nat := []
  closing : Bool := false
  /-- The model's numbers: how often the slot has been opened, and at which of these its last commit was (20 R388). -/
  opens : Nat := 0
  commits : Nat := 0
  deriving DecidableEq, Repr

/-- A die's UCIe link (22 R425, R429, R431). -/
structure HostLink where
  up : Bool := false
  hostMax : BitVec 8 := 0
  version : BitVec 8 := 0
  rxSeq : BitVec 32 := 0
  txSeq : BitVec 32 := 0
  nonce : BitVec 256 := 0
  qdone : Bool := false
  qreply : List Block := []
  deriving DecidableEq, Repr

/-- A flit a sender keeps until it is acknowledged (22 R434). -/
structure KeptFlit where
  fseq : BitVec 12
  flit : Block
  tries : Nat := 0
  deriving DecidableEq, Repr

/-- An Ewetric port (22 R432 to R434). -/
structure Port where
  up : Bool := false
  failed : Bool := false
  generation : BitVec 2 := 0
  txSeq : BitVec 12 := 0
  rxSeq : BitVec 12 := 0
  kept : List KeptFlit := []
  credits : Vector Nat 4 := Vector.replicate 4 0
  /-- Flits waiting for a credit or for room among the kept ones. -/
  waiting : List Block := []
  /-- Flits on the wire to the peer with their trailers, oldest first. -/
  wire : List (Block × Word) := []
  /-- Set from the first discard until the expected flit arrives (22 R434). -/
  discarding : Bool := false
  deriving DecidableEq, Repr

/-- What members of a collective send each other (20 R393, R394). -/
inductive MemberMsg where
  | hop (h : Hop)
  | commit (tag : HopTag)
  | abort (tag : HopTag)
  deriving DecidableEq, Repr

/-- A message on its way to a member on a die of this module: its rank, and the message. -/
structure Transit where
  die : DieNo
  rank : Nat
  msg : MemberMsg
  deriving DecidableEq, Repr

/-- A compute die (00 R1). The directory base is firmware's (22 R435): DESIGN CHOICE (log 2) 0 before start-up. -/
structure Die where
  cyc : Word := 0
  db : Vector Drawbar 64 := Vector.replicate 64 {}
  ab : Vector Arrival 64 := Vector.replicate 64 {}
  cards : List Card := []
  nextCard : Nat := 0
  slots : Vector MergeSlot 16 := Vector.replicate 16 {}
  directory : Nat := 0
  link : HostLink := {}
  ports : Vector Port 8 := Vector.replicate 8 {}
  stage : BitVec 8 := 0
  cause : BitVec 8 := 0
  stopped : Bool := false
  routes : List (BitVec 19 × Fin 8) := []
  /-- Flits that have arrived for this die, oldest first (22 R432). -/
  inbox : List Block := []
  /-- The configuration record its firmware has read (22 R436). -/
  recordBytes : List Byte := []
  deriving DecidableEq, Repr

/-! ## The package -/

/-- A task that has started: a record's members as one unit of account (15 R297, R307, R308; 10 R220). -/
structure Task where
  tid : Nat
  job : BitVec 32
  level : BitVec 2
  join : Word
  die : DieNo
  cell : CellNo
  part : BitVec 5
  size : Nat
  live : Nat
  generation : Nat := 0
  arrivals : List Nat := []
  cancelled : Bool := false
  failed : Bool := false
  deriving DecidableEq, Repr

/-- A job (15 R308, 22 R426, R430). -/
structure Job where
  job : BitVec 32
  asid : BitVec 16
  gatebase : Word
  ceil : BitVec 4
  cont : Word
  die : DieNo
  cell : CellNo
  link : DieNo
  trusted : Bool
  count : Nat
  contDone : Bool := false
  cancelled : Bool := false
  /-- No counter is left, but engines still work for it: the completion event waits (13 R271). -/
  draining : Bool := false
  deriving DecidableEq, Repr

/-- A host window (22 R427). -/
structure Window where
  opened : Bool := false
  base : Nat := 0
  len : Nat := 0
  deriving DecidableEq, Repr

/-- The messages the device sends (22 R430). -/
inductive HostMsg where
  | completion (job : BitVec 32)
  | failure (job : BitVec 32) (kind cause sub : BitVec 8) (save : Word) (die : DieNo) (cell : CellNo) (slot : SlotNo)
  | refusal (job : BitVec 32) (type cause : BitVec 8) (mseq : BitVec 32) (node : Option (BitVec 19))
  | ack (job : BitVec 32) (mseq : BitVec 32)
  | quoteReply (job : BitVec 32) (nonce : BitVec 256) (units : List Block)
  | joinError (job : BitVec 32) (block : Word) (cause : BitVec 8) (decrement : Bool)
  | thermal (die : DieNo) (temperature : BitVec 8) (trip : Bool)
  deriving DecidableEq, Repr

/-- A message sent to the host on a die's link with its number there (22 R429). -/
structure SentMsg where
  link : DieNo
  mseq : BitVec 32
  msg : HostMsg
  deriving DecidableEq, Repr

/-- A spawn.x packet in flight (15 R309, 22 R434): the die that sent it, and that die's CYC then. -/
structure InFlight where
  number : Nat
  src : DieNo
  start : Word
  job : BitVec 32
  node : BitVec 19
  packet : SpawnPacket
  deriving DecidableEq, Repr

/-- What the firmware's configuration record says (22 R436). DESIGN CHOICE (log 2): every cell enabled, node 0, no
trusted link before start-up. -/
structure Record where
  cells : Vector (BitVec 48) 4 := Vector.replicate 4 (BitVec.allOnes 48)
  nodeid : BitVec 19 := 0
  trust : BitVec 4 := 0
  farch : Word := 0
  isl : Vector (BitVec 16) 512 := Vector.replicate 512 0
  deriving DecidableEq, Repr

/-- An island request that waits for a change in progress (22 R440). -/
structure IslandReq where
  number : Fin 512
  step : BitVec 16
  /-- Its die's CYC when the change began. -/
  start : Word := 0
  deriving DecidableEq, Repr

/-- The module's modes (22 R438). -/
inductive Mode where
  | starting | normal | minimal
  deriving DecidableEq, Repr

/-- What comes next, chosen from outside the model: an event, the current hart's next instruction although work of its
own is outstanding, another hart's turn, the reading of a leaf's element (18 R370), a message's units on a link (22
R429), a write of a sideband register (R431), another sending of a spawn.x packet (R434), firmware's change of an island
(R440), or a context save that falls during tile instructions (18 R374). -/
inductive Act where
  | event (i : Instr)
  | issue
  | focus (hid : Nat)
  -- The element (i, j) of the current hart's leaf in a slot is read
  | leafRead (slot : Fin 64) (i j : Nat)
  | message (link : DieNo) (units : List Block)
  | sideband (die : DieNo) (offset : Nat) (wide : Bool) (value : Word)
  | resendSpawn (number : Nat)
  | firmwareIsland (number : Fin 512) (step : BitVec 16)
  -- A save made by an event, or by the current hart's next instruction, falls during tile instructions: of each hart, by
  -- its name, the elements its instruction has made, by node name, row and column
  | saveDuring (parts : List (Nat × List (Nat × Nat × Nat))) (event : Option Instr)
  deriving DecidableEq, Repr

/-- The state of the module. `hart` is the context whose turn it is, `harts` are the other contexts that hold a hart.
`agenda` and `fresh` are the model's own: the acts chosen from outside, and the counter of free values. -/
structure State where
  mem : Memory
  /-- Bytes the memory system marked poisoned, and bytes with an uncorrectable error (04 R102, R103). -/
  poisoned : List Nat
  uncorrectable : List Nat
  hart : Hart
  harts : List Hart
  cells : Vector Cell 192
  dies : Vector Die 4
  tasks : List Task
  jobs : List Job
  windows : Vector Window 64
  sent : List SentMsg
  record : Record
  mode : Mode
  fails : BitVec 6
  islands : Vector (BitVec 16) 512
  changing : List IslandReq
  waitingIslands : List IslandReq
  inFlight : List InFlight
  accepted : List (BitVec 19 × Nat)
  /-- Messages between collective members of this module, oldest first (20 R393). -/
  transit : List Transit
  nextPacket : Nat
  /-- The model's names for harts, tasks, queue entries, and the order of dispatches. -/
  nextHid : Nat
  nextTid : Nat
  nextQid : Nat
  nextOrder : Nat
  agenda : List Act
  fresh : Nat
  deriving DecidableEq, Repr

/-- Reasons a step can stop with a fault. -/
inductive Fault where
  /-- The module takes no further part: raised by `step` when a die has tripped (22 R441) and nothing else can run.
  Safe: the hardware does nothing either. -/
  | stopped
  deriving DecidableEq, Repr

/-- Reasons an instruction has no meaning. -/
inductive Refusal where
  /-- The arm of an instruction not modelled yet, by its mnemonic: raised by `exec` alone. Safe. -/
  | notModelled (mnemonic : String)
  deriving DecidableEq, Repr

/-- The module right after reset (22 R435, R442): no hart is resident, memory lists nothing. -/
def State.reset : State where
  mem := []
  poisoned := []
  uncorrectable := []
  hart := Hart.vacant
  harts := []
  cells := Vector.replicate 192 {}
  dies := Vector.replicate 4 {}
  tasks := []
  jobs := []
  windows := Vector.replicate 64 {}
  sent := []
  record := {}
  mode := .starting
  fails := 0
  islands := Vector.replicate 512 0
  changing := []
  waitingIslands := []
  inFlight := []
  accepted := []
  transit := []
  nextPacket := 0
  nextHid := 1
  nextTid := 1
  nextQid := 1
  nextOrder := 1
  agenda := []
  fresh := 0

end Sys2Proof.Machine
end

