-- ==== Sys2Proof/Machine/Translate.lean ====
section
/-!
DEFINITION. Virtual to physical addresses: the attributes, the physical map, the walk and the cell's cache
(10 R193 to R195, 16 R336, R337; 22 R427), and the bytes an access finds.
-/
namespace Sys2Proof.Machine

/-- The cell's place among the module's 192. -/
def cellIx (d : DieNo) (c : CellNo) : Fin 192 := ⟨48 * d.val + c.val, by omega⟩

def State.cellOf (s : State) (d : DieNo) (c : CellNo) : Cell := s.cells[cellIx d c]
def State.setCell (s : State) (d : DieNo) (c : CellNo) (x : Cell) : State :=
  { s with cells := s.cells.set (cellIx d c) x }
def State.dieOf (s : State) (d : DieNo) : Die := s.dies[d]
def State.setDie (s : State) (d : DieNo) (x : Die) : State := { s with dies := s.dies.set d x }

/-- Bits [hi:lo] of a word as a number. -/
def bitsOf (w : Word) (hi lo : Nat) : Nat := w.toNat / 2 ^ lo % 2 ^ (hi + 1 - lo)

/-- Bits [63:57] equal bit 56 (10 R193). -/
def canonical (va : Word) : Bool := bitsOf va 63 56 == 0 || bitsOf va 63 56 == 255

/-! ## Translation entries (10 R193, 16 R336) -/

def teV (e : Word) : Bool := e.getLsbD 0
def teR (e : Word) : Bool := e.getLsbD 1
def teW (e : Word) : Bool := e.getLsbD 2
def teX (e : Word) : Bool := e.getLsbD 3
def teBlk (e : Word) : Bool := e.getLsbD 6
def teSync (e : Word) : Bool := e.getLsbD 7
def tePlace (e : Word) : Bool := e.getLsbD 8
def teHome (e : Word) : Nat := bitsOf e 11 9
def tePpn (e : Word) : Nat := bitsOf e 51 12
def teC64 (e : Word) : Bool := e.getLsbD 60
def teG (e : Word) : Bool := e.getLsbD 61
def teMinl (e : Word) : Nat := bitsOf e 63 62

/-- An entry that R193, R194 and R336 call invalid whatever it maps: a HOME of 6 or 7, reserved bits, BLK with SYNC. -/
def teMalformed (e : Word) : Bool :=
  teHome e ≥ 6 || bitsOf e 5 4 != 0 || bitsOf e 59 52 != 0 || (teBlk e && teSync e)

/-- What a physical address is (10 R195). -/
inductive Region where
  | near (d : DieNo)
  | far
  | store (d : DieNo) (c : CellNo)
  | localStore (offset : Nat)
  | window (i : Fin 64) (offset : Nat)
  | nothing
  deriving DecidableEq, Repr

/-- The first physical address of a cell's store (10 R195). -/
def storeBase (d : DieNo) (c : CellNo) : Nat := 0x40000000000 + d.val * 0x10000000 + c.val * 0x400000

/-- The physical map (10 R195). Far memory is off in minimal mode (22 R437). -/
def regionOf (s : State) (pa : Nat) : Region :=
  if pa < 0x4000000000 then
    if pa % 0x1000000000 < 0xC00000000 then .near (Fin.ofNat 4 (pa / 0x1000000000)) else .nothing
  else if 0x10000000000 ≤ pa ∧ pa < 0x30000000000 then (if s.mode = .minimal then .nothing else .far)
  else if 0x40000000000 ≤ pa ∧ pa < 0x40040000000 then
    let o := pa - 0x40000000000
    if o % 0x10000000 / 0x400000 < 48 then
      .store (Fin.ofNat 4 (o / 0x10000000)) (Fin.ofNat 48 (o % 0x10000000 / 0x400000))
    else .nothing
  else if 0x50000000000 ≤ pa ∧ pa < 0x50000400000 then .localStore (pa - 0x50000000000)
  else if 0x80000000000 ≤ pa ∧ pa < 0x100000000000 then
    .window (Fin.ofNat 64 ((pa - 0x80000000000) / 0x2000000000)) ((pa - 0x80000000000) % 0x2000000000)
  else .nothing

/-- The PLACE a region's entries carry: true for FAR (10 R195). -/
def regionFar : Region → Bool
  | .far | .window .. => true
  | _ => false

/-- Who accesses: a die, the cell for a hart (none for an engine, the temper unit or the scheduler), the address space
and the privilege level. -/
structure Agent where
  die : DieNo
  cell : Option CellNo
  asid : BitVec 16
  level : BitVec 2
  deriving DecidableEq, Repr

/-- Kinds of access (16 R336, 04 R108). -/
inductive Access where
  | read | write | both | fetch
  deriving DecidableEq, Repr

/-- An entry permits a kind of access. -/
def permits (e : Word) : Access → Bool
  | .read => teR e
  | .write => teW e
  | .both => teR e && teW e
  | .fetch => teX e

/-- A leaf found for an address: the entry, the size of its range in pages as a power of two, and whether it came from
the cache. -/
structure Leaf where
  entry : Word
  log : Nat
  cached : Bool
  deriving DecidableEq, Repr

/-- The cache entry that holds an address for an address space, or a global one (16 R336, R337). -/
def tlbFind (l : List TlbEntry) (asid : BitVec 16) (va : Word) : Option TlbEntry :=
  l.find? fun t => (t.asid == asid || teG t.entry) && bitsOf va 56 12 / 2 ^ t.log == t.vpage / 2 ^ t.log

/-- The pages of a leaf at a level, as a power of two. -/
def leafLog (e : Word) (lvl : Nat) : Nat := if teC64 e then 4 else 9 * lvl

/-- The checks of a leaf (16 R336): levels 0 to 2, the entry itself, C64 at level 0 with its own position, the frame's
alignment. -/
def leafOk (e : Word) (lvl : Nat) (va : Word) : Bool :=
  lvl ≤ 2 && !teMalformed e && !(teC64 e && lvl != 0) && !(teC64 e && tePpn e % 16 != bitsOf va 15 12) &&
    tePpn e % 2 ^ (9 * lvl) == 0

/-- One level of the walk (16 R336): the leaf, the cause, or the next table's part by `down`. -/
def walkStep (m : Memory) (va : Word) (tbl lvl : Nat) (down : Nat → Except (BitVec 8) Leaf) : Except (BitVec 8) Leaf :=
  let e : Word := BitVec.ofNat 64 (m.readLe (tbl * 4096 + 8 * bitsOf va (9 * lvl + 20) (9 * lvl + 12)) 8)
  if !teV e then .error 0x10
  else if !teR e && !teW e && !teX e then down (tePpn e)
  else if leafOk e lvl va then .ok { entry := e, log := leafLog e lvl, cached := false } else .error 0x11

/-- The walk from a table at a level downward (16 R336); a pointer at level 0 is malformed. -/
def walkFrom (m : Memory) (va : Word) : Nat → Nat → Except (BitVec 8) Leaf
  | 0, tbl => walkStep m va tbl 0 fun _ => .error 0x11
  | lvl + 1, tbl => walkStep m va tbl (lvl + 1) fun t => walkFrom m va lvl t

/-- The walk through a die's directory (16 R336). -/
def walk (s : State) (d : DieNo) (asid : BitVec 16) (va : Word) : Except (BitVec 8) Leaf :=
  let dir : Word := BitVec.ofNat 64 (s.mem.readLe ((s.dieOf d).directory + 8 * asid.toNat) 8)
  if !teV (dir >>> 63) then .error 0x10 else walkFrom s.mem va 4 (tePpn dir)

/-- The leaf of an address: from the cell's cache, else by a walk. An engine has no cache. -/
def findLeaf (s : State) (g : Agent) (va : Word) : Except (BitVec 8) Leaf :=
  if !canonical va then .error 0x11
  else
    match g.cell with
    | none => walk s g.die g.asid va
    | some c =>
      match tlbFind (s.cellOf g.die c).tlb g.asid va with
      | some t => .ok { entry := t.entry, log := t.log, cached := true }
      | none => walk s g.die g.asid va

/-- The physical address a leaf gives (16 R336, R337). -/
def leafAddr (l : Leaf) (va : Word) : Nat :=
  tePpn l.entry / 2 ^ l.log * 2 ^ l.log * 4096 + va.toNat % 2 ^ (12 + l.log)

/-- The die whose link leads to the windows: a die's own, else the lowest-numbered one's that is up (22 R427). -/
def windowRoute (s : State) (d : DieNo) : Option DieNo :=
  if (s.dieOf d).link.up then some d else (List.finRange 4).find? fun k => (s.dieOf k).link.up

/-- Where a physical address leads an agent: the place of its bytes in memory, or cause 0x11 (10 R194, R195; 22 R427).
DESIGN CHOICE (log 8): without any link a window is refused like an unmapped address. -/
def resolve (s : State) (g : Agent) (e : Word) (pa : Nat) : Except (BitVec 8) Nat :=
  let r := regionOf s pa
  if regionFar r != tePlace e then .error 0x11
  else
    match r with
    | .nothing => .error 0x11
    | .localStore o =>
      match g.cell with
      | some c => .ok (storeBase g.die c + o)
      | none => .error 0x11
    | .window i o =>
      if s.windows[i].opened && o < s.windows[i].len && (windowRoute s g.die).isSome then
        .ok (2 ^ 52 + s.windows[i].base + o)
      else .error 0x11
    | _ => .ok pa

/-- A permitted access: where its first byte lies, and the leaf that led there. -/
structure Place where
  pa : Nat
  leaf : Leaf
  deriving DecidableEq, Repr

/-- Translate an address for a kind of access (16 R336): the place, or cause 0x10 or 0x11. -/
def translate (s : State) (g : Agent) (k : Access) (va : Word) : Except (BitVec 8) Place :=
  match findLeaf s g va with
  | .error c => .error c
  | .ok l =>
    if g.level.toNat < teMinl l.entry || !permits l.entry k then .error 0x11
    else
      match resolve s g l.entry (leafAddr l va) with
      | .error c => .error c
      | .ok pa => .ok { pa := pa, leaf := l }

/-- The cell's cache after an access that used a leaf (16 R336). DESIGN CHOICE (log 9): a full cache drops its oldest
entry. -/
def tlbFill (s : State) (g : Agent) (va : Word) (l : Leaf) : State :=
  match g.cell with
  | none => s
  | some c =>
    if l.cached then s
    else
      let x := s.cellOf g.die c
      let t : TlbEntry := { asid := g.asid, vpage := bitsOf va 56 12 / 2 ^ l.log * 2 ^ l.log, log := l.log, entry := l.entry }
      let kept := if x.tlb.length < Config.tlbSize then x.tlb else x.tlb.drop 1
      if (tlbFind x.tlb g.asid va).isSome then s else s.setCell g.die c { x with tlb := kept ++ [t] }

/-- Fill the cache with the pages of several addresses, as one instruction that translated each page once (10 R196). -/
def tlbFillAll (s : State) (g : Agent) (l : List (Word × Leaf)) : State := l.foldl (fun s p => tlbFill s g p.1 p.2) s

/-! ## Bytes and their marks (04 R102, R103) -/

/-- Reading n bytes meets poison (0x14) or an uncorrectable error (0x61). -/
def readFault (s : State) (pa n : Nat) : Option (BitVec 8) :=
  if s.poisoned.any (fun a => pa ≤ a && a < pa + n) then some 0x14
  else if s.uncorrectable.any (fun a => pa ≤ a && a < pa + n) then some 0x61
  else none

/-- Store bytes at physical places. DESIGN CHOICE (log 10): a written byte loses its poison and error marks. -/
def State.storeBytes (s : State) (l : List (Nat × Byte)) : State :=
  { s with
    mem := s.mem.writeAll l
    poisoned := s.poisoned.filter fun a => !l.any (fun p => p.1 == a)
    uncorrectable := s.uncorrectable.filter fun a => !l.any (fun p => p.1 == a) }

/-- Store the n low bytes of x, little-endian. -/
def State.storeLe (s : State) (pa n x : Nat) : State := s.storeBytes (placeBytes pa (leBytes n x))

/-- Word k of a block (15 R288, 16 R331). -/
def blockWord (b : Block) (k : Nat) : Word := b.extractLsb' (64 * k) 64

/-- The block of 64 bytes at a physical place. -/
def readBlock (m : Memory) (pa : Nat) : Block := BitVec.ofNat 512 (m.readLe pa 64)

end Sys2Proof.Machine
end

