-- ==== Sys2Proof/Machine/Merge.lean ====
section
/-!
DEFINITION. Merge slots: where their elements lie, phase two of a contributor, and the abort of a slot (08 R189; 19 R376;
20 R384, R385, R388).
-/
namespace Sys2Proof.Machine

/-! ## Slots -/

def State.mergeSlot (s : State) (d : DieNo) (n : Fin 16) : MergeSlot := (s.dieOf d).slots[n]
def State.setSlot (s : State) (d : DieNo) (n : Fin 16) (m : MergeSlot) : State :=
  let x := s.dieOf d
  s.setDie d { x with slots := x.slots.set n m }

/-- The contributor's accumulator size G (19 R376). -/
def MergeSlot.stride (m : MergeSlot) : Nat := (m.nelem * 4 + 63) / 64 * 64

/-- Where an address lies by the pages translated at tm.open; addresses wrap at 2^64. -/
def placeIn (l : List (Nat × Nat)) (va : Word) : Nat :=
  ((l.find? fun p => p.1 == va.toNat / 4096).map (·.2)).getD 0 + va.toNat % 4096

/-- The places of staging element i of contributor c, and of total element i. -/
def MergeSlot.stagePlace (m : MergeSlot) (c i : Nat) : Nat :=
  placeIn m.stageMap (m.stage + BitVec.ofNat 64 (c * m.stride + 4 * i))
def MergeSlot.totalPlace (m : MergeSlot) (i : Nat) : Nat :=
  placeIn m.totalMap (m.total + BitVec.ofNat 64 (4 * i))

/-- Contributor c, and the slot with it changed. -/
def MergeSlot.con (m : MergeSlot) (c : Nat) : Contributor := m.contributors.toList.getD c {}
def MergeSlot.setCon (m : MergeSlot) (c : Nat) (x : Contributor) : MergeSlot :=
  { m with contributors := m.contributors.setIfInBounds c x }

/-- One bit of a mask. -/
def conBit (c : Nat) : BitVec 64 := 1#64 <<< c

/-! ## Phase two (08 R189, 20 R385) -/

/-- Element i of a contributor is added to the total (08 R189): one indivisible read-add-write. DESIGN CHOICE (log 37):
the unit takes staged and total bytes as they stand, marked or not. -/
def addElement (m : MergeSlot) (c : Nat) (s : State) (i : Nat) : State :=
  let x := s.mem.readLe (m.stagePlace c i) 4
  let p := m.totalPlace i
  let scaled := (fpMul fmtF32 .rne x (m.con c).sc.toNat).1
  s.storeLe p 4 (roundF fmtF32 .rne
    (exactSum .rne [unpack fmtF32 (s.mem.readLe p 4), unpack fmtF32 scaled]).1).1

/-- All of contributor c's phase two: every element in order. -/
def State.addContributor (s : State) (m : MergeSlot) (c : Nat) : State :=
  let t := (List.range m.nelem).foldl (addElement m c) s
  { s with mem := t.mem, poisoned := t.poisoned, uncorrectable := t.uncorrectable }

/-- The slot once contributor c, the next handed over, has been added. -/
def MergeSlot.added (m : MergeSlot) (c : Nat) : MergeSlot := { m with pending := m.pending.drop 1, cmt := m.cmt ||| conBit c }

/-- The abort of a slot (20 R388): the contributor now in phase two, which is the next one handed over, is added whole
(20 R389), and nothing after it. -/
def State.abortSlot (s : State) (d : DieNo) (n : Fin 16) : State :=
  let m := s.mergeSlot d n
  match m.pending with
  | [] => s.setSlot d n { m with state := .aborted }
  | c :: _ => (s.addContributor m c).setSlot d n { m.added c with state := .aborted, pending := [] }

/-- The open merge slots of a job. -/
def State.openSlots (s : State) (j : BitVec 32) : List (DieNo × Fin 16) :=
  (List.finRange 4).flatMap fun d =>
    ((List.finRange 16).filter fun n => (s.mergeSlot d n).state == .opened && (s.mergeSlot d n).job == j).map fun n => (d, n)

/-- Abort every open merge slot of a job that ends (20 R388). -/
def State.abortSlots (s : State) (j : BitVec 32) : State :=
  let t := (s.openSlots j).foldl (fun s p => s.abortSlot p.1 p.2) s
  { s with mem := t.mem, poisoned := t.poisoned, uncorrectable := t.uncorrectable, dies := t.dies }

end Sys2Proof.Machine
end

