-- ==== Sys2Proof/Machine/Accounts.lean ====
section
/-!
DEFINITION. Records, queues, joins and jobs (15 R288 to R292, R306 to R308), messages to the host (22 R429, R430), the
supervisor queue and the failure record (16 R328 to R331), and time (02 R49).
-/
namespace Sys2Proof.Machine

/-! ## Time -/

/-- The state after a stretch of time that the model observes: every die's CYC has advanced by a free amount of at
least one local cycle (02 R49, 00 R14; log 3). -/
def State.observeTime (s : State) : State :=
  { s with
    dies := s.dies |> vmap fun d => { d with cyc := d.cyc + BitVec.ofNat 64 (Config.elapsed s.fresh + 1) }
    fresh := s.fresh + 1 }

/-- Time runs on until at least `cycles` local cycles have passed on a die since its CYC was `start`. -/
def State.waitUntil (s : State) (d : DieNo) (start cycles : Word) : State :=
  let gone := (s.dieOf d).cyc - start
  let more := if gone < cycles then cycles - gone else 0
  State.observeTime { s with dies := s.dies |> vmap fun x => { x with cyc := x.cyc + more } }

/-- One local cycle passes (log 49). -/
def State.tick (s : State) : State := { s with dies := s.dies |> vmap fun x => { x with cyc := x.cyc + 1 } }

/-! ## Messages to the host -/

/-- Send a message on a die's link; each direction numbers its messages by itself (22 R429). DESIGN CHOICE (log 11): a
message due while the link is down is numbered and kept like any other. -/
def State.send (s : State) (link : DieNo) (m : HostMsg) : State :=
  let d := s.dieOf link
  { s.setDie link { d with link := { d.link with txSeq := d.link.txSeq + 1 } } with
    sent := s.sent ++ [{ link := link, mseq := d.link.txSeq, msg := m }] }

def State.findJob (s : State) (j : BitVec 32) : Option Job := s.jobs.find? fun x => x.job == j
def State.setJob (s : State) (x : Job) : State :=
  { s with jobs := s.jobs.map fun y => if y.job = x.job then x else y }

/-- The link on which a job's messages go: the one it was launched on (22 R430), die 0's for no job. -/
def State.linkOf (s : State) (j : BitVec 32) : DieNo := ((s.findJob j).map (·.link)).getD 0

def State.findTask (s : State) (t : Nat) : Option Task := s.tasks.find? fun x => x.tid == t
def State.setTask (s : State) (x : Task) : State :=
  { s with tasks := s.tasks.map fun y => if y.tid = x.tid then x else y }

/-! ## Task records (15 R288 to R291) -/

structure Flags where
  part : BitVec 5
  nin : Nat
  nrsv : Nat
  lreq : Nat
  coach : Nat
  level : BitVec 2
  prio : BitVec 4
  deriving DecidableEq, Repr

def recEntry (b : Block) : Word := blockWord b 0
def recFrame (b : Block) : Word := blockWord b 1
def recJoin (b : Block) : Word := blockWord b 2
def recDesc (b : Block) : Word := blockWord b 6
def recFlags (b : Block) : Flags :=
  let w := blockWord b 3
  { part := BitVec.ofNat 5 (bitsOf w 36 32), nin := bitsOf w 26 24, nrsv := bitsOf w 23 22, lreq := bitsOf w 21 16,
    coach := bitsOf w 14 8, level := BitVec.ofNat 2 (bitsOf w 5 4), prio := BitVec.ofNat 4 (bitsOf w 3 0) }
/-- Entry i of STRM (15 R290). -/
def recStrm (b : Block) (i : Nat) : Nat := bitsOf (blockWord b 4) (16 * i + 15) (16 * i)
/-- Entry j of RSV (15 R290). -/
def recRsv (b : Block) (j : Nat) : Nat := bitsOf (blockWord b 5) (32 * j + 31) (32 * j)
/-- The handles of the record's inputs. -/
def recHandles (b : Block) : List HReg :=
  (List.range (min (recFlags b).nin 4)).map fun i => Fin.ofNat 16 (recStrm b i / 2048)
/-- The record's reservations: first and length in 256-byte units. -/
def recReservations (b : Block) : List (Nat × Nat) :=
  (List.range (min (recFlags b).nrsv 2)).map fun j => (recRsv b j / 65536 % 32768, recRsv b j % 32768)

/-- A list names one thing twice. -/
def hasTwice {α : Type} [DecidableEq α] : List α → Bool
  | [] => false
  | x :: r => r.contains x || hasTwice r

/-- Step 2 of R291: a reserved bit, a STRM or RSV entry against R290, or one handle twice. -/
def recReserved (b : Block) : Bool :=
  let f := blockWord b 3
  bitsOf f 63 37 != 0 || bitsOf f 31 27 != 0 || bitsOf f 15 15 != 0 || bitsOf f 7 6 != 0 || blockWord b 7 != 0 ||
  (List.range 4).any (fun i =>
    if i < (recFlags b).nin then !(recStrm b i / 32768 == 1 && recStrm b i % 2048 == 0) else recStrm b i != 0) ||
  (List.range 2).any (fun j =>
    if j < (recFlags b).nrsv then !(recRsv b j / 2 ^ 31 == 1 && recRsv b j / 32768 % 2 == 0) else recRsv b j != 0) ||
  hasTwice (recHandles b)

/-- Step 3 of R291. -/
def recRange (b : Block) : Bool :=
  let f := recFlags b
  f.coach == 0 || f.coach > 64 || f.lreq > 32 || f.nin > 4 || f.nrsv > 2 ||
  (recReservations b).any fun r => r.2 == 0 || r.1 + r.2 > 16384

/-- Steps 2 to 5 of R291 for a spawner's level: the cause, or none. -/
def recCheck (b : Block) (level : BitVec 2) : Option (BitVec 8) :=
  if recReserved b then some 0x02
  else if recRange b then some 0x12
  else if bitsOf (recEntry b) 1 0 != 0 || bitsOf (recJoin b) 3 0 != 0 || bitsOf (recDesc b) 5 0 != 0 then some 0x05
  else if level < (recFlags b).level then some 0x03
  else none

/-- Read the 64 bytes of a record and check it (15 R291): the record, or the cause. -/
def readRecord (s : State) (g : Agent) (addr : Word) (limit : BitVec 2) : Except (BitVec 8) (Block × State) :=
  if bitsOf addr 5 0 != 0 then .error 0x05
  else
    match translate s g .read addr with
    | .error c => .error c
    | .ok p =>
      match readFault s p.pa 64 with
      | some c => .error c
      | none =>
        let b := readBlock s.mem p.pa
        match recCheck b limit with
        | some c => .error c
        | none => .ok (b, tlbFill s g addr p.leaf)

/-! ## Queues (15 R292) -/

def QEntry.prio : QEntry → BitVec 4
  | .task r => r.prio
  | .resume g => g.prio

/-- The records and resume entries of a cell's queue of one priority. -/
def State.queueOf (s : State) (d : DieNo) (c : CellNo) (p : BitVec 4) : List QEntry :=
  (s.cellOf d c).queues[p.toNat]'(by omega)

/-- The 64 bytes of an entry in its queue's ring. -/
def QEntry.image : QEntry → Block
  | .task r => r.block
  | .resume g => Config.resumeImage g.qid

/-- The entries beyond a queue's cache as its ring in near memory holds them (15 R292). DESIGN CHOICE (log 13): a cell's
16 rings follow one another by priority, and each holds its records in order from its first place. -/
def ringBytes (base : Nat) (p : BitVec 4) (l : List QEntry) : List (Nat × Byte) :=
  placeBytes (base + 0x40000 * p.toNat) ((l.drop Config.taskCache).flatMap fun e => leBytes 64 e.image.toNat)

/-- A cell's queue of one priority with new contents; what its cache does not hold stands in its ring. -/
def State.setQueue (s : State) (d : DieNo) (c : CellNo) (p : BitVec 4) (l : List QEntry) : State :=
  let x := s.cellOf d c
  let s1 := s.setCell d c { x with queues := x.queues.set p.toNat l (by omega) }
  if l.length ≤ Config.taskCache then s1 else s1.storeBytes (ringBytes x.taskRing p l)

/-- A queue whose cache and ring are both full (15 R292). -/
def State.queueFull (s : State) (d : DieNo) (c : CellNo) (p : BitVec 4) : Bool :=
  (s.queueOf d c p).length ≥ Config.taskQueueSize

/-- Charge a job's counter by one (15 R308). -/
def State.charge (s : State) (j : BitVec 32) : State :=
  match s.findJob j with
  | some x => s.setJob { x with count := x.count + 1 }
  | none => s

/-- The job's ceiling, above which PRIO is carried as CEIL (15 R291). -/
def State.ceilOf (s : State) (j : BitVec 32) : BitVec 4 := ((s.findJob j).map (·.ceil)).getD 15

/-- Charge the job and queue a record at its queue's tail, as spawn does (15 R308, R311). -/
def State.enqueue (s : State) (d : DieNo) (c : CellNo) (j : BitVec 32) (part : Option (BitVec 5)) (b : Block) : State :=
  let ceil := s.ceilOf j
  let p := if ceil < (recFlags b).prio then ceil else (recFlags b).prio
  let r : TaskRec := { qid := s.nextQid, block := b, job := j, prio := p, part := part }
  let s' := s.charge j
  { s'.setQueue d c p (s'.queueOf d c p ++ [.task r]) with nextQid := s.nextQid + 1 }

/-! ## Jobs and joins (15 R306 to R308) -/

/-- The level at which a job's completion continuation is read (11 R443). -/
def Job.contLevel (x : Job) : BitVec 2 := if x.trusted then 2 else 0

/-- An engine still has work of a job. -/
def State.engineWork (s : State) (j : BitVec 32) : Bool :=
  s.dies.toList.any fun d => d.cards.any fun c => c.job == j && c.state != .done

/-- The job has ended: its open merge slots are aborted, and the completion event is sent once no engine works for it
any more (15 R308, 20 R388; 22 R428, 13 R271). -/
def State.endJob (s : State) (x : Job) : State :=
  let s1 := s.abortSlots x.job
  if s.engineWork x.job then s1.setJob { x with draining := true }
  else ({ s1 with jobs := s1.jobs.filter fun y => y.job != x.job }).send x.link (.completion x.job)

/-- What happens when a job's counter has reached zero (15 R308): its continuation is queued once, otherwise the host
gets the completion event. DEDUCED (log 12): that of a cancelled job is queued too, after its cancellation. -/
def State.atZero (s : State) (x : Job) : State :=
  if x.cont = 0 ∨ x.contDone then s.endJob x
  else
    let g : Agent := { die := x.die, cell := none, asid := x.asid, level := x.contLevel }
    let s := s.setJob { x with contDone := true }
    match readRecord s g x.cont x.contLevel with
    | .ok (b, s') => s'.enqueue x.die x.cell x.job none b
    | .error c => (s.send x.link (.joinError x.job 0 c false)).endJob x

/-- Discharge a job by n (15 R308). -/
def State.discharge (s : State) (j : BitVec 32) (n : Nat) : State :=
  match s.findJob j with
  | none => s
  | some x =>
    let y := { x with count := x.count - n }
    if y.count = 0 then (s.setJob y).atZero y else s.setJob y

/-- Status carried by a decrement (15 R307). -/
inductive EndStatus where
  | ok | cancelled | failed
  deriving DecidableEq, Repr

/-- The join word after a decrement that found COUNT above 0 (15 R306, R307). -/
def joinDec (old : Word) (st : EndStatus) : Word :=
  let new := old - 1
  match st with
  | .ok => new
  | .cancelled => new ||| (1 <<< 63)
  | .failed => new ||| (1 <<< 62)

def joinCount (w : Word) : Nat := bitsOf w 47 0

/-- DEC (15 R307) on a block already translated at `pa` for an agent whose record limit is its level; the continuation
goes to a cell and partition. -/
def State.decAt (s : State) (g : Agent) (d : DieNo) (c : CellNo) (part : BitVec 5) (j : BitVec 32) (addr : Word)
    (pa : Nat) (st : EndStatus) : State :=
  let old : Word := BitVec.ofNat 64 (s.mem.readLe pa 8)
  if joinCount old = 0 then s.storeLe pa 8 (old ||| (1 <<< 61)).toNat
  else
    let new := joinDec old st
    let s1 := s.storeLe pa 8 new.toNat
    let cont : Word := BitVec.ofNat 64 (s.mem.readLe (pa + 8) 8)
    if joinCount new = 0 ∧ bitsOf new 63 62 = 0 ∧ cont ≠ 0 then
      match readRecord s1 g cont g.level with
      | .ok (b, s2) => s2.enqueue d c j (some part) b
      | .error e =>
        (s1.storeLe pa 8 (new ||| (1 <<< 60)).toNat).send (s.linkOf j) (.joinError j addr e false)
    else s1

/-- The access of a decrement: 8 bytes, read and written at once (15 R307, R313). -/
def decPlace (s : State) (g : Agent) (addr : Word) : Except (BitVec 8) Place :=
  if bitsOf addr 3 0 != 0 then .error 0x05
  else
    match translate s g .both addr with
    | .error c => .error c
    | .ok p => if s.uncorrectable.any (fun a => p.pa ≤ a && a < p.pa + 8) then .error 0x61
      else if s.poisoned.any (fun a => p.pa ≤ a && a < p.pa + 8) then .error 0x14 else .ok p

/-- The end of a task (15 R307, R308): its join decrement by the ending hart's cell and partition at the level of the
task's record (11 R443), then its job's discharge. A decrement that faults writes nothing and is reported. -/
def State.endTask (s : State) (t : Task) (asid : BitVec 16) (d : DieNo) (c : CellNo) (part : BitVec 5)
    (st : EndStatus) : State :=
  let g : Agent := { die := d, cell := some c, asid := asid, level := t.level }
  let s1 :=
    if t.join = 0 then s
    else
      match decPlace s g t.join with
      | .ok p => (tlbFill s g t.join p.leaf).decAt g d c part t.job t.join p.pa st
      | .error e => s.send (s.linkOf t.job) (.joinError t.job t.join e true)
  { s1 with tasks := s1.tasks.filter fun y => y.tid != t.tid }.discharge t.job 1

/-! ## Failure records and the supervisor queue (16 R328 to R331) -/

/-- The word of TCAUSE (16 R319). -/
def TCause.word (t : TCause) : Word :=
  BitVec.ofNat 64 (t.cause.toNat + t.sub.toNat * 2 ^ 8 + t.hnd.toNat * 2 ^ 16 + (if t.done then 2 ^ 29 else 0) +
    t.plv.toNat * 2 ^ 30 + (if t.rh then 2 ^ 32 else 0) + t.pmsel.toNat * 2 ^ 33)

/-- DIE, CELL and SLOT as a number with fields at [25:24], [21:16] and [4:0]. -/
def whereWord (d : DieNo) (c : CellNo) (k : SlotNo) : Nat := d.val * 2 ^ 24 + c.val * 2 ^ 16 + k.val

/-- The address of a context slot's save area. DESIGN CHOICE (log 13): firmware's placement is one base per cell, the
slots' areas 1 MiB apart. -/
def saveAreaOf (s : State) (h : Hart) : Nat := (s.cellOf h.die h.cell).saveArea + h.slot.val * 0x100000

/-- A context's image is written behind its save area's failure record (16 R328, R334; 15 R301). -/
def State.dumpContext (s : State) (h : Hart) : State :=
  { s.storeBytes (placeBytes (saveAreaOf s h + 256) ((Config.contextImage s.fresh).take (0x100000 - 256))) with
    fresh := s.fresh + 1 }

/-- The 256 bytes of a failure record (16 R328), with the TCAUSE it reports. -/
def failureRecord (h : Hart) (kind : Nat) (tc : TCause) : List Byte :=
  leBytes 8 tc.word.toNat ++ leBytes 8 h.trap.tpc.toNat ++ leBytes 8 h.trap.tqpos.toNat ++
  leBytes 8 h.trap.taddr.toNat ++ leBytes 8 h.trap.tnode.toNat ++ leBytes 8 h.trap.tnpc.toNat ++
  leBytes 8 (kind * 2 ^ 56 + h.sbase.toNat) ++
  leBytes 8 (h.job.toNat * 2 ^ 32 + whereWord h.die h.cell h.slot) ++
  (h.tcnt.toList.flatMap fun c => leBytes 4 c.toNat) ++ List.replicate 64 0

/-- All contexts that hold a hart. -/
def State.allHarts (s : State) : List Hart := s.hart :: s.harts

def Hart.resident (h : Hart) : Bool :=
  match h.status with
  | .running | .runnable | .waiting => true
  | _ => false

/-- Change every context. -/
def State.mapHarts (s : State) (f : Hart → Hart) : State := { s with hart := f s.hart, harts := s.harts.map f }

/-- Post an entry of eight words on a cell's supervisor queue (16 R330). -/
def State.post (s : State) (d : DieNo) (c : CellNo) (w0 w1 w2 : Nat) : State :=
  let s := s.observeTime
  let q := (s.cellOf d c).sqbase.toNat
  let prod := s.mem.readLe q 8
  let cons := s.mem.readLe (q + 8) 8
  if (prod + 2 ^ 64 - cons) % 2 ^ 64 ≥ Config.supervisorRing then s.storeLe (q + 16) 8 (s.mem.readLe (q + 16) 8 + 1)
  else
    let e := leBytes 8 w0 ++ leBytes 8 w1 ++ leBytes 8 w2 ++ leBytes 8 (s.dieOf d).cyc.toNat ++ List.replicate 32 0
    let s1 := s.storeBytes (placeBytes (q + 64 + 64 * (prod % Config.supervisorRing)) e)
    let s2 := s1.storeLe q 8 (prod + 1)
    let w3 := s2.mem.readLe (q + 24) 8
    if w3 / 2 ^ 15 % 2 = 1 then
      s2.mapHarts fun h =>
        if h.resident && h.die == d && h.cell == c && h.slot.val == w3 % 32 then { h with evf := true } else h
    else s2

/-- Write a failure record and post it, on the supervisor queue and to the host (16 R328, R329). `cause` and `sub` are
those the entry and the message carry (R331). -/
def State.reportFailure (s : State) (h : Hart) (kind : Nat) (tc : TCause) (cause sub : BitVec 8) : State :=
  let a := saveAreaOf s h
  let s1 := s.storeBytes (placeBytes a (failureRecord h kind tc))
  let s2 := s1.post h.die h.cell
    (kind * 2 ^ 56 + cause.toNat * 2 ^ 48 + sub.toNat * 2 ^ 40 + whereWord h.die h.cell h.slot) h.job.toNat a
  s2.send (s2.linkOf h.job) (.failure h.job (BitVec.ofNat 8 kind) cause sub (BitVec.ofNat 64 a) h.die h.cell h.slot)

end Sys2Proof.Machine
end

