-- ==== Sys2Proof/Machine/Operands.lean ====
section
/-!
DEFINITION. Operands: scalar registers with their full and poison marks (02 R22, R35, R36), elements, masks and
topology entries (02 R26 to R32), and what an entry of the vector queue reads and writes.
-/
namespace Sys2Proof.Machine

/-! ## Traps and stops -/

/-- What a trap reports (16 R318, R321): `counts` are TCNT by physical carriage. -/
structure Trap where
  cause : BitVec 8
  sub : BitVec 8 := 0
  addr : Word := 0
  hnd : BitVec 4 := 0
  done : Bool := false
  node : BitVec 7 := 0
  npc : Word := 0
  counts : List Nat := []
  /-- The fault of stream `hnd`: its element is fetched again when the instruction is restarted (10 R214). -/
  stream : Bool := false
  deriving DecidableEq, Repr

/-- Why an instruction does not complete now: it traps, it waits with no effect, or the hart takes its cancel (16 R332). -/
inductive Stop where
  | trap (t : Trap)
  | stall
  | cancel
  deriving DecidableEq, Repr

/-- A trap by its cause and TADDR. -/
def trapAt {α : Type} (cause : BitVec 8) (addr : Word) : Except Stop α := .error (.trap { cause := cause, addr := addr })

/-! ## The vector queue's classes -/

/-- The scalar destination of a vector instruction (02 R35, R40). -/
def scalarResult : Instr → Option SReg
  | .mcpop d _ | .mfirst d _ | .vext d .. | .vrsum d .. | .vrmax d .. | .vrmin d .. | .vrsumBfp d .. => some d
  | _ => none

/-- A vector instruction that reads or writes memory (04 R105). -/
def vectorMemory : Instr → Bool
  | .vld .. | .vlds .. | .vst .. | .vsts .. | .vldx .. | .vstx .. | .vsaddInt .. | .vsaddFloat .. | .vgth .. |
    .tld .. | .tst .. | .anvOp .. | .accMem .. | .wbLoad .. => true
  | _ => false

/-- A vector instruction after which nothing is sent until it has completed (02 R41). -/
def synchronising : Instr → Bool
  | .vcmprTh .. | .tctr .. => true
  | _ => false

/-! ## Full and empty, poison (02 R35 to R37, 16 R335) -/

/-- Scalar register r is empty (02 R35). -/
def Hart.emptyS (h : Hart) (r : SReg) : Bool :=
  r != 0 && (h.producers.any (fun p =>
    match p.dest with
    | .scalar q _ => q == r
    | .vector _ => false) || h.vq.any (fun e => (scalarResult e.instr) == some r))

/-- Vector register r is empty (02 R36). -/
def Hart.emptyV (h : Hart) (r : VReg) : Bool :=
  h.producers.any fun p =>
    match p.dest with
    | .scalar .. => false
    | .vector l => l.any fun q => q.1 == r

/-- Scalar source r under an empty-action bit (02 R36): its value, a wait or a trap. -/
def Hart.src (h : Hart) (r : SReg) (ea : Bool) : Except Stop Word :=
  if r = 0 then .ok 0
  else if h.emptyS r then (if ea then trapAt 0x04 (BitVec.ofNat 64 r.val) else .error .stall)
  else if h.spoison[r] then trapAt 0x60 (BitVec.ofNat 64 r.val)
  else .ok h.sreg[r]

/-- Scalar register r with a new value; s0 discards it (02 R22). A whole write clears poison (16 R335). -/
def Hart.setS (h : Hart) (r : SReg) (x : Word) : Hart :=
  if r = 0 then h else { h with sreg := h.sreg.set r x, spoison := h.spoison.set r false }

/-- An instruction whose scalar destination is empty waits (02 R37). -/
def Hart.destReady (h : Hart) (r : SReg) : Except Stop Unit := if h.emptyS r then .error .stall else .ok ()

/-- The hart after an instruction that does not jump. -/
def Hart.advance (h : Hart) : Hart := { h with pc := h.pc + 4 }

/-- The hart after writing a result at once. -/
def Hart.result (h : Hart) (d : SReg) (x : Word) : Hart := (h.setS d x).advance

/-- A condition bit with a new value. -/
def Hart.setC (h : Hart) (c : CBit) (x : Bool) : Hart := { h with cbit := h.cbit.set c x }

/-- The hart with flags raised (02 R48). -/
def Hart.raise (h : Hart) (g : FFlags) : Hart := { h with fflags := h.fflags ||| g }

/-- A load or an atomic marks its destination empty (02 R35); a result for s0 is discarded (R22). -/
def Hart.produce (h : Hart) (d : SReg) (x : Word) : Hart :=
  if d = 0 then h else { h with producers := h.producers ++ [{ dest := .scalar d x }] }

/-- The entries of a list that return a scalar result. -/
def owing (l : List VEntry) : Nat := (l.filter fun e => (scalarResult e.instr).isSome).length

/-- The results outstanding in the synchronising read queue (02 R40). -/
def Hart.reads (h : Hart) : Nat := (h.producers.filter (·.queued)).length + owing h.vq

/-- A result lands in its destination (02 R35). -/
def Hart.land (h : Hart) (p : Producer) : Hart :=
  match p.dest with
  | .scalar d x => h.setS d x
  | .vector l => { h with vreg := l.foldl (fun v q => v.set q.1 q.2) h.vreg }

/-- Write the oldest outstanding result whose turn it is (02 R35, R37, R40). -/
def Hart.writeback (h : Hart) : Hart :=
  let due (p : Producer) : Bool := p.behind == 0
  match h.producers.dropWhile fun p => !due p with
  | [] => h
  | p :: r => Hart.land { h with producers := h.producers.takeWhile (fun p => !due p) ++ r } p

/-- Write every outstanding result of a list, in order (15 R301, 16 R334). -/
def Hart.landAll (h : Hart) (l : List Producer) : Hart := l.foldl Hart.land h
def Hart.writebackAll (h : Hart) : Hart := Hart.landAll { h with producers := [] } h.producers

/-- Write every outstanding result whose turn it is; those that follow an entry of the vector queue stay (15 R301). -/
def Hart.writebackDue (h : Hart) : Hart :=
  Hart.landAll { h with producers := h.producers.filter fun p => p.behind != 0 } (h.producers.filter fun p => p.behind == 0)

/-- Sending a vector instruction (02 R38, R40, R41): room in the queue, and for a scalar result a place in the read
queue. -/
def Hart.mayEnqueue (h : Hart) (i : Instr) : Bool :=
  h.vq.length < Config.vectorQueueSize && ((scalarResult i).isNone || h.reads < Config.readQueueSize)

/-- A result that returns through the synchronising read queue, in program order (02 R40). -/
def Hart.queuedResult (h : Hart) (d : SReg) (x : Word) : Except Stop Hart :=
  if Config.readQueueSize ≤ h.reads then .error .stall
  else if d = 0 then .ok h.advance
  else
    let p : Producer := { dest := .scalar d x, queued := true, behind := owing h.vq }
    .ok (Hart.advance { h with producers := h.producers ++ [p] })

/-- A scalar result of the lanes joins the read queue ahead of the results that waited for it (02 R40). -/
def Hart.laneResult (h : Hart) (d : SReg) (x : Word) : Hart :=
  let new : List Producer := if d = 0 then [] else [{ dest := .scalar d x, queued := true }]
  { h with
    producers := h.producers.takeWhile (fun p => p.behind == 0) ++ new ++
      (h.producers.dropWhile fun p => p.behind == 0).map fun (p : Producer) => { p with behind := p.behind - 1 } }

/-- The entry of an instruction with what it captures (02 R39). -/
def Hart.capture (h : Hart) (i : Instr) (xa xb xc : Word) : VEntry where
  instr := i
  pc := h.pc
  vl := h.vl
  vew := h.vew
  msel := h.msel
  vstr := h.vstr
  frm := h.frm
  actl := h.actl
  tgrp := h.tgrp
  tctl := h.tctl
  asid := h.asid
  level := h.priv.cur
  xa := xa
  xb := xb
  xc := xc

/-- Send an instruction to the vector queue, or wait for room. -/
def Hart.send (h : Hart) (i : Instr) (xa xb xc : Word) : Except Stop Hart :=
  if h.mayEnqueue i then .ok { h with vq := h.vq ++ [h.capture i xa xb xc] }.advance else .error .stall

/-- The output elements that quenches released have been performed, or one of them is held at its fault; a refused
publication (cause 0x41) holds none back (10 R206, R212). DESIGN CHOICE (log 19): a fault at which an element is held lets
later releases, acquires, atomics and fences go on (04 R109). -/
def Handle.settled (x : Handle) : Bool := !x.bound || x.released == [] || x.fault.any fun f => f.1 != 0x41
def Hart.outputsSettled (h : Hart) : Bool := h.handles.toList.all Handle.settled

/-- Earlier vector memory instructions have issued their addresses (04 R105) and no element that an earlier quench
released is outstanding (10 R207, 13 R253). -/
def Hart.memReady (h : Hart) : Bool := !(h.vq.any fun e => vectorMemory e.instr) && h.outputsSettled

/-- The hart's own accesses: its cell, address space and level. -/
def Hart.agent (h : Hart) : Agent := { die := h.die, cell := some h.cell, asid := h.asid, level := h.priv.cur }

/-! ## Lanes and elements (02 R26 to R28) -/

/-- The granted carriages, ascending. -/
def carriages (grant : BitVec 32) : List Nat := (List.range 32).filter fun c => grant.getLsbD c

/-- The granted lanes L. -/
def Hart.lanes (h : Hart) : Nat := 8 * (carriages h.grant).length

/-- VLMAX at a width in bits (02 R27). -/
def Hart.vlmax (h : Hart) (w : Nat) : Nat := perSlice w * h.lanes

/-- EVL of an entry at a width (05 R114). -/
def evlOf (h : Hart) (e : VEntry) (w : Nat) : Nat := min e.vl (h.vlmax w)

/-- The bits of an element width. -/
def widthBits : Width → Nat
  | .w8 => 8 | .w16 => 16 | .w32 => 32 | .w64 => 64 | .w4 => 4 | .w6 => 6

/-- The bytes of an access size. -/
def sizeBytes : Size → Nat
  | .b1 => 1 | .b2 => 2 | .b4 => 4 | .b8 => 8

/-- The lane of element e at a width. -/
def elemLane (w e : Nat) : Nat := e / perSlice w
/-- The lowest bit of element e in a register (02 R26 to R28). -/
def elemBit (w e : Nat) : Nat := 256 * (e / perSlice w) + w * (e % perSlice w)

/-- Element e of a register's contents. -/
def vElem (v : VWord) (w e : Nat) : Nat := v.toNat / 2 ^ elemBit w e % 2 ^ w
/-- The contents with element e replaced. -/
def vSetElem (v : VWord) (w e x : Nat) : VWord :=
  (v &&& ~~~(BitVec.ofNat 65536 (2 ^ w - 1) <<< elemBit w e)) ||| (BitVec.ofNat 65536 (x % 2 ^ w) <<< elemBit w e)

/-- Lanes of which every element of a width is among those listed. -/
def fullLanes (w : Nat) (l : List Nat) : List Nat :=
  (l.map (elemLane w)).eraseDups.filter fun i => (l.eraseDups.filter fun e => elemLane w e == i).length == perSlice w

/-- Poison marks after the elements listed are written at a width (16 R335). -/
def unpoison (p : BitVec 256) (w : Nat) (l : List Nat) : BitVec 256 :=
  if p = 0 then p else (fullLanes w l).foldl (fun q i => q &&& ~~~(1#256 <<< i)) p

/-- Contents with a list of elements written, the later ones last. -/
def vWrite (v : VWord) (w : Nat) (l : List (Nat × Nat)) : VWord := l.foldl (fun v p => vSetElem v w p.1 p.2) v

/-- Write elements of a vector register. -/
def Hart.setV (h : Hart) (r : VReg) (w : Nat) (l : List (Nat × Nat)) : Hart :=
  { h with
    vreg := h.vreg.set r (vWrite h.vreg[r] w l)
    vpoison := h.vpoison.set r (unpoison h.vpoison[r] w (l.map (·.1))) }

/-- Write elements of a vector register as a producer does: the register is empty until they arrive (02 R35). -/
def Hart.produceV (h : Hart) (r : VReg) (w : Nat) (l : List (Nat × Nat)) : Hart :=
  { h with
    producers := h.producers ++ [{ dest := .vector [(r, vWrite h.vreg[r] w l)] }]
    vpoison := h.vpoison.set r (unpoison h.vpoison[r] w (l.map (·.1))) }

/-- Register i of a group (02 R29). -/
def groupReg (base : VReg) (i : Nat) : VReg := Fin.ofNat 32 (base.val + i)

/-- Entry e of a topology register (02 R32). -/
def tElem (v : VWord) (e : Nat) : Nat := vElem v 16 e

/-! ## Masks (02 R31, R44) -/

/-- The active mask that MSEL selects (02 R44). -/
def maskOf (h : Hart) (msel : BitVec 5) : MWord :=
  let sel := msel.toNat % 16
  let m : MWord :=
    if sel < 8 then h.mreg[sel]! else if sel = 15 then BitVec.allOnes 16384 else Config.reservedMask msel
  if msel.getLsbD 4 then ~~~m else m

/-- The active elements below a bound, ascending (00 R13). -/
def activeBelow (h : Hart) (e : VEntry) (n : Nat) : List Nat :=
  let m := maskOf h e.msel
  (List.range n).filter fun i => m.getLsbD i

/-- Mask bits written where listed; poison as for elements of a width. -/
def Hart.setM (h : Hart) (r : MReg) (w : Nat) (l : List (Nat × Bool)) : Hart :=
  let one (m : MWord) (p : Nat × Bool) : MWord :=
    if p.2 then m ||| (1#16384 <<< p.1) else m &&& ~~~(1#16384 <<< p.1)
  { h with
    mreg := h.mreg.set r (l.foldl one h.mreg[r])
    mpoison := h.mpoison.set r (unpoison h.mpoison[r] w (l.map (·.1))) }

/-- An element listed lies in a poisoned lane. -/
def meetsPoison (p : BitVec 256) (w : Nat) (l : List Nat) : Bool := p != 0 && l.any fun e => p.getLsbD (elemLane w e)

/-- TADDR of a vector register, and of a mask register (16 R321). -/
def vAddr (r : VReg) : Word := BitVec.ofNat 64 (32 + r.val)
def mAddr (r : Nat) : Word := BitVec.ofNat 64 (64 + r)

/-- The active mask's own bits below a bound are sound (05 R115, 16 R335). -/
def checkMask (h : Hart) (e : VEntry) (w n : Nat) : Except Stop Unit :=
  let sel := e.msel.toNat % 16
  if sel < 8 ∧ meetsPoison (h.mpoison[sel]!) w (List.range n) then trapAt 0x60 (mAddr sel) else .ok ()

/-- Vector sources with their empty-action bits (02 R36): none empty. DESIGN CHOICE (log 74): they are judged in operand
order, so the first empty source decides between waiting and trapping. -/
def checkFull (h : Hart) : List (VReg × Bool) → Except Stop Unit
  | [] => .ok ()
  | (r, ea) :: rest => if h.emptyV r then (if ea then trapAt 0x04 (vAddr r) else .error .stall) else checkFull h rest

/-- The elements read of each source are sound (05 R115). -/
def checkSound (h : Hart) (w : Nat) (l : List Nat) : List VReg → Except Stop Unit
  | [] => .ok ()
  | r :: rest => if meetsPoison h.vpoison[r] w l then trapAt 0x60 (vAddr r) else checkSound h w l rest

/-! ## Tasks' partitions (02 R47) -/

/-- START as the cell uses it: bit 0 reads 1. -/
def startOf (x : BitVec 32) : BitVec 32 := x ||| 1
/-- The partition of a carriage. -/
def partitionOf (start : BitVec 32) (c : Nat) : Nat :=
  ((List.range (c + 1)).filter fun i => (startOf start).getLsbD i).length - 1
/-- The partition exists. -/
def partitionExists (start : BitVec 32) (n : Nat) : Bool :=
  n < ((List.range 32).filter fun i => (startOf start).getLsbD i).length

end Sys2Proof.Machine
end

