-- ==== Sys2Proof/Machine/Output.lean ====
section
/-!
DEFINITION. The hart's own addresses with its materialisation area (04 R102; 18 R355), where the elements of streams lie
(10 R210, R211), and how output streams perform and publish what a quench has released (10 R206, R212).
-/
namespace Sys2Proof.Machine

/-! ## Address checks (04 R102, 18 R355) -/

/-- The nodes in slots, ascending, with their numbers. -/
def Hearth.inSlots (t : Hearth) : List (Node × Nat) :=
  (List.range 64).filterMap fun k => (t.slots.toList.getD k none).map fun n => (n, k)
/-- All nodes with an allocation or a slot: those in slots and kept victims (18 R361). -/
def Hearth.nodes (t : Hearth) : List (Node × Nat) := t.inSlots ++ t.ghosts

def areaBase (h : Hart) : Word := h.hctl &&& ~~~0xFFF
def areaBytes (h : Hart) : Nat := bitsOf h.hctl 11 4 * 4096

/-- A slot holds an allocation and the bytes touch the area (18 R355). -/
def areaTouched (h : Hart) (va : Word) (n : Nat) : Bool :=
  h.hearth.nodes.any (fun p => p.1.alloc.isSome) &&
    (va.toNat < (areaBase h).toNat + areaBytes h && (areaBase h).toNat < va.toNat + n)

/-- Check and translate an access of the current hart of n bytes, n the size it is aligned to. -/
def ownPlace (s : State) (g : Agent) (k : Access) (va : Word) (n : Nat) : Except (BitVec 8) Place :=
  if va.toNat % n ≠ 0 then .error 0x05
  else if areaTouched s.hart va n then .error 0x11
  else translate s g k va

/-! ## Streams: descriptors and places (10 R210, R211) -/

/-- COUNT and STRIDE of dimension k. -/
def dimCount (d : StreamDesc) (k : Nat) : Nat := bitsOf (d.words.getD k 0) 63 32
def dimStride (d : StreamDesc) (k : Nat) : Int := toSigned 32 (bitsOf (d.words.getD k 0) 31 0)

/-- Σ digit × stride from dimension k on, in bits (10 R211). -/
def affineBits (d : StreamDesc) : Nat → Nat → Nat → Int
  | 0, _, _ => 0
  | dims + 1, k, n =>
    let stride := if k = 0 ∧ dimStride d 0 = 0 then (d.width : Int) else dimStride d k
    ((if dims = 0 then n else n % dimCount d k : Nat) : Int) * stride + affineBits d dims (k + 1) (n / dimCount d k)

/-- Tokens per block and elements per token of a paged stream (10 R211). -/
def pagedBtok (d : StreamDesc) : Nat := bitsOf (d.words.getD 0 0) 63 32
def pagedDe (d : StreamDesc) : Nat := bitsOf (d.words.getD 0 0) 31 0

/-- The block index of element n and the address of its table entry. -/
def pagedBlock (d : StreamDesc) (n : Nat) : Nat :=
  if pagedBtok d = 0 then (Config.blockOfNone (n / pagedDe d)).1 else n / pagedDe d / pagedBtok d
/-- The row of a token in its block. -/
def pagedRow (d : StreamDesc) (tok : Nat) : Nat :=
  if pagedBtok d = 0 then (Config.blockOfNone tok).2 else tok % pagedBtok d
def pagedEntry (d : StreamDesc) (n : Nat) : Word := d.base + BitVec.ofNat 64 (8 * pagedBlock d n)

/-- The bit address of element n as a byte address and a bit within it; `blk` is the block's address of a paged stream. -/
def elementAt (d : StreamDesc) (blk : Word) (n : Nat) : Word × Nat :=
  if d.paged then
    let tok := n / pagedDe d
    let w3 := d.words.getD 1 0
    let head := bitsOf (d.words.getD 2 0) 63 48
    let bits : Int := toSigned 32 (bitsOf w3 63 32) * (pagedRow d tok : Nat) * 8 +
      toSigned 32 (bitsOf w3 31 0) * head * 8 + (n % pagedDe d * d.width : Nat)
    (blk + BitVec.ofInt 64 (bits / 8), (bits % 8).toNat)
  else
    let bits := affineBits d d.ndim 0 n
    (d.base + BitVec.ofInt 64 (bits / 8), (bits % 8).toNat)

/-- The bytes that hold an element of a width from a bit on. -/
def elementBytes (width bit : Nat) : Nat := (bit + width + 7) / 8

/-- Fault of an element: cause, subcode, address. -/
abbrev ElemFault := BitVec 8 × BitVec 8 × Word

/-- A fault of 04 R102 in a stream's access (10 R214). -/
def streamFault (c : BitVec 8) (va : Word) : ElemFault := (0x40, c, va)

/-- The places of an element's bytes for a kind of access: aligned elements at once, others byte by byte. -/
def elementPlaces (s : State) (k : Access) (width : Nat) (va : Word) (bit : Nat) : Except ElemFault (List (Word × Place)) :=
  if 8 ≤ width then
    match ownPlace s s.hart.agent k va (width / 8) with
    | .ok p => .ok [(va, p)]
    | .error c => .error (streamFault c va)
  else
    ((List.range (elementBytes width bit)).mapM fun (i : Nat) =>
      let a := va + BitVec.ofNat 64 i
      match ownPlace s s.hart.agent k a 1 with
      | .ok p => .ok (a, p)
      | .error c => .error (streamFault c a))

/-- The block address for element n: kept for the current block, else the table entry read now (10 R212). -/
def blockOf (s : State) (x : Handle) (d : StreamDesc) (n : Nat) : Except ElemFault (Word × State) :=
  if !d.paged then .ok (0, s)
  else
    match x.blk with
    | some (b, a) => if b = pagedBlock d n then .ok (a, s) else readEntry
    | none => readEntry
where
  readEntry : Except ElemFault (Word × State) :=
    let va := pagedEntry d n
    match ownPlace s s.hart.agent .read va 8 with
    | .error c => .error (streamFault c va)
    | .ok p =>
      match readFault s p.pa 8 with
      | some c => .error (streamFault c va)
      | none => .ok (BitVec.ofNat 64 (s.mem.readLe p.pa 8), tlbFill s s.hart.agent va p.leaf)

/-- The drawbar's word as db.rd reads it (10 R217). -/
def Drawbar.word (x : Drawbar) : Word := BitVec.ofNat 64 (x.seq.toNat * 2 ^ 48 + x.hw.toNat)
def State.drawbar (s : State) (d : DieNo) (n : Fin 64) : Drawbar := (s.dieOf d).db[n]

/-- Change a handle of the current hart. -/
def State.setHandle (s : State) (n : HReg) (x : Handle) : State :=
  { s with hart := { s.hart with handles := s.hart.handles.set n x } }

/-! ## Output elements (10 R206, R212) -/

/-- Check that element n of an output stream can be stored: its places. -/
def writePlaces (s : State) (x : Handle) (d : StreamDesc) (n : Nat) : Except ElemFault (List (Word × Place) × Nat × State) :=
  match blockOf s x d n with
  | .error f => .error f
  | .ok (blk, s1) =>
    let (va, bit) := elementAt d blk n
    match elementPlaces s1 .write d.width va bit with
    | .error f => .error f
    | .ok ps => .ok (ps, bit, s1)

/-- The fault an output stream would meet in its released and held elements. -/
def outputFault (s : State) (x : Handle) : Option ElemFault :=
  match x.desc with
  | none => none
  | some d =>
    if !(x.bound && d.output) then none
    else
      match x.fault with
      | some f => some f
      | none => (List.range (x.released.length + x.held.length)).findSome? fun i =>
          match writePlaces s { x with blk := none } d (x.done + i) with
          | .ok _ => none
          | .error f => some f

/-- The first fault of the hart's output streams, by handle. -/
def outputFaults (s : State) : Option (HReg × ElemFault) :=
  (List.finRange 16).findSome? fun n => (outputFault s s.hart.handles[n]).map fun f => (n, f)

/-- Publish a position on a drawbar with the effect of db.pub (10 R217): none when it would trap. -/
def publish (s : State) (d : DieNo) (n : Fin 64) (hw : BitVec 48) (seq : BitVec 16) : Option State :=
  let x := s.dieOf d
  let b := x.db[n]
  if b.seq = seq ∧ hw < b.hw then none else some (s.setDie d { x with db := x.db.set n { hw := hw, seq := seq } })

/-- An output stream performs an element (10 R212): a plain store in stream order, its fault held where it meets one. -/
def performElement (s : State) (n : HReg) (d : StreamDesc) (v : Nat) : State :=
  let x := s.hart.handles[n]
  match writePlaces s x d x.done with
  | .error f => s.setHandle n { x with fault := some f }
  | .ok (ps, bit, s1) =>
    let size := if 8 ≤ d.width then d.width / 8 else 1
    let old := ps.foldr (fun p acc => s1.mem.readLe p.2.pa size + 256 ^ size * acc) 0
    let new := old - old / 2 ^ bit % 2 ^ d.width * 2 ^ bit + v % 2 ^ d.width * 2 ^ bit
    let all := leBytes (size * ps.length) new
    let bytes := (List.range ps.length).flatMap fun i =>
      match ps[i]? with
      | some p => placeBytes p.2.pa ((all.drop (size * i)).take size)
      | none => []
    ((tlbFillAll s1 s.hart.agent (ps.map fun p => (p.1, p.2.leaf))).storeBytes bytes).setHandle n
      { x with released := x.released.drop 1, done := x.done + 1 }

/-- A linked output stream publishes the next position it has reached (10 R212); one that db.pub would refuse is held as
a fault, and published again after its trap. -/
def publishNext (s : State) (n : HReg) (d : StreamDesc) : State :=
  let x := s.hart.handles[n]
  match publish s s.hart.die d.db (BitVec.ofNat 48 (x.pub + 1)) d.seq with
  | some t => t.setHandle n { x with pub := x.pub + 1 }
  | none => s.setHandle n { x with fault := some (0x41, 0, (s.drawbar s.hart.die d.db).word) }

/-- A linked output stream has positions to publish. -/
def Handle.unpublished (x : Handle) : Bool := (x.desc.any fun d => d.output && d.dbv) && x.pub < x.done

/-- The next thing an output stream does by itself (10 R212): it publishes a position reached, or performs its first
released element. None when nothing is left to do, or a held fault stops it. -/
def outputStep (s : State) (n : HReg) : Option State :=
  let x := s.hart.handles[n]
  match x.desc, x.released with
  | some d, l =>
    if !(x.bound && d.output) then none
    else if x.unpublished && x.fault.isNone then some (publishNext s n d)
    else if x.settled then none
    else some (performElement s n d (l.headD 0))
  | none, _ => none

/-- An output stream goes on until nothing is left to do or a fault is held. -/
def drainHandle (n : HReg) : Nat → State → State
  | 0, s => s
  | k + 1, s =>
    match outputStep s n with
    | none => s
    | some t => drainHandle n k t

/-- Every output stream of the hart goes on until nothing is left to do or a fault is held. -/
def State.drainOutputs (s : State) : State :=
  (List.finRange 16).foldl (fun s n =>
    let x := s.hart.handles[n]
    drainHandle n (2 * x.released.length + (x.done - x.pub) + 1) s) s

end Sys2Proof.Machine
end

