-- ==== Sys2Proof/Machine/Ops.lean ====
section
/-!
DEFINITION. The operations that meanings share: taking an exception and returning from one (16 R318, R324, R334), how a
hart and its task end (16 R325, R332; 15 R307), turns and cores (15 R296), and how a meaning answers a step.
-/
namespace Sys2Proof.Machine

/-! ## Turns and cores -/

/-- The running harts of a cell, each of which holds a scalar core. -/
def State.running (s : State) (d : DieNo) (c : CellNo) : List Hart :=
  s.allHarts.filter fun h => h.status == .running && h.die == d && h.cell == c

/-- A scalar core of a cell is free (15 R293). -/
def State.coreFree (s : State) (d : DieNo) (c : CellNo) : Bool := (s.running d c).length < Config.cores

/-- A hart becomes runnable (15 R296). -/
def State.makeRunnable (s : State) (h : Hart) : State × Hart :=
  ({ s with nextOrder := s.nextOrder + 1 }, { h with status := .runnable, since := s.nextOrder })

/-- A hart that waited goes on: it holds a core again if one is free that no runnable hart takes, and is runnable
otherwise (15 R296). -/
def State.wake (s : State) : State :=
  let h := { s.hart with mark := .none }
  if h.status = .waiting then
    if s.coreFree h.die h.cell && !s.harts.any (fun g => g.status == .runnable && g.die == h.die && g.cell == h.cell) then
      { s with hart := { h with status := .running } }
    else
      let r := s.makeRunnable h
      { r.1 with hart := r.2 }
  else { s with hart := h }

/-- The hart waits at its instruction and holds no core (15 R296). -/
def State.park (s : State) (m : WaitMark) : State := { s with hart := { s.hart with status := .waiting, mark := m } }

/-- The next context's turn. -/
def State.rotate (s : State) : State :=
  match s.harts with
  | [] => s
  | g :: r => { s with hart := g, harts := if s.hart.status = .free then r else r ++ [s.hart] }

/-! ## The end of a hart (15 R307, 16 R325) -/

/-- A cancel arrives at a hart (16 R332); one that is pending stays as it is. -/
def Hart.pendCancel (h : Hart) (now : Word) : Hart := if h.cancel then h else { h with cancel := true, cancelAt := now }

/-- Ask the scheduler to end cards (11 R246). -/
def State.cancelCards (s : State) (d : DieNo) (p : Card → Bool) : State :=
  let x := s.dieOf d
  s.setDie d { x with
    cards := x.cards.map fun c => if p c && c.state != .done && !c.retired then { c with cancelled := true } else c }

/-- Cards whose tickets are retired (11 R243); a done card without a ticket is forgotten. -/
def State.retireCards (s : State) (d : DieNo) (p : Card → Bool) : State :=
  let x := s.dieOf d
  s.setDie d { x with
    cards := (x.cards.map fun c => if p c then { c with retired := true } else c).filter fun c =>
      !(c.retired && c.state == .done) }

/-- Take the hart's operations out of its cell's anvil queue (15 R301, 16 R332). -/
def State.dropAnvil (s : State) (h : Hart) : State :=
  let x := s.cellOf h.die h.cell
  s.setCell h.die h.cell { x with anvil := x.anvil.filter fun a => a != .hart h.hid }

/-- The contexts saved in a cell's queues. -/
def savedHarts (s : State) : List Hart :=
  s.cells.toList.flatMap fun c => c.queues.toList.flatMap fun q => q.flatMap fun e =>
    match e with
    | .task _ => []
    | .resume g => g.harts

/-- The coach barrier after an arrival or an end (10 R220): when every live member has arrived, the generation ends. -/
def barrierCheck (t : Task) : Task :=
  if t.live ≠ 0 ∧ t.live ≤ t.arrivals.length then { t with generation := t.generation + 1, arrivals := [] } else t

/-- The task's status when its last member has ended (15 R307, 16 R325). -/
def taskStatus (t : Task) : EndStatus := if t.failed then .failed else if t.cancelled then .cancelled else .ok

/-- A hart that no longer stands among the contexts has ended with a status (15 R307, 16 R325): its parent learns of it
with the carriages it leaves (R305), a fatal end cancels the other members, and the last one ends the task. -/
def State.endMember (s : State) (h : Hart) (st : EndStatus) (left : BitVec 32) : State :=
  match s.findTask h.task with
  | none => s
  | some t =>
    let t1 : Task := { t with
      live := if h.parent.isSome then t.live else t.live - 1
      arrivals := t.arrivals.filter fun x => x != h.hid
      failed := t.failed || st == .failed
      cancelled := t.cancelled || st == .cancelled }
    let ended (g : Hart) : Hart :=
      { g with children := g.children.map fun c => if c.hid = h.hid then { c with ended := some left } else c }
    let s1 := (s.setTask (barrierCheck t1)).mapHarts fun g => if h.parent = some g.hid then ended g else g
    let s2 := if st = .ok then s1 else s1.mapHarts fun g =>
        if g.task = t.tid then g.pendCancel (s1.dieOf g.die).cyc else g
    if s2.allHarts.any (fun g => g.task == t.tid && g.resident) || (savedHarts s2).any (fun g => g.task == t.tid) then s2
    else s2.endTask t1 h.asid h.die h.cell h.part (taskStatus t1)

/-- Saturating counters of QSTAT (10 R205). -/
def satInc (n hi : Nat) : Nat := if n < hi then n + 1 else n

/-- The strip is discarded (16 R325, 10 R206): the buffer, held output elements; DISC counts. -/
def Hart.discardStrip (h : Hart) : Hart :=
  { h with
    buffer := []
    qdisc := satInc h.qdisc 0xFFFF
    handles := h.handles |> vmap fun x =>
      if (x.desc.map (·.output)).getD false then { x with held := [] } else x }

/-- The current hart's context is given up. -/
def State.vacate (s : State) : State := { s with hart := Hart.vacant }

/-- The fatal end of the current hart (16 R325, R329, R332), from the discarding of what its queue holds, after the stores
that earlier quenches released: KIND 1 for halt, 3 for a cancel, with the TCAUSE its failure record reports. -/
def State.fatalEnd (s : State) (kind : Nat) (tc : TCause) (st : EndStatus) : State :=
  let s0 := s.drainOutputs
  let h := { s0.hart.writebackAll.discardStrip with vq := [], replay := none }
  let s1 := (s0.dropAnvil h).cancelCards h.die fun c => c.owner == h.hid
  let s2 := { s1 with hart := h }.reportFailure h kind tc tc.cause tc.sub
  ((s2.retireCards h.die fun c => c.owner == h.hid).vacate).endMember h st 0

/-- halt, once the vector queue is empty (16 R325). DEDUCED (log 16): the record of a halt shows RH 0, since the replay
record is discarded before it is written. -/
def State.haltNow (s : State) : State := s.fatalEnd 1 { s.hart.trap.tcause with rh := false } .failed

/-- The hart takes its cancel (16 R332). DEDUCED (log 16): the record's TCAUSE has CAUSE 0x70 and SUB 0. -/
def State.takeCancel (s : State) : State :=
  s.fatalEnd 3 { s.hart.trap.tcause with rh := false, cause := 0x70, sub := 0 } .cancelled

/-- A double fault (16 R334): the first cause stays, SUB is the second; the context stays in its slot with its
reservations, and its image is written. DEDUCED (log 16): its unretired jobs are cancelled as halt cancels them (R325:
'ends it the same way'). -/
def State.doubleFault (s : State) (second : BitVec 8) : State :=
  let s0 := s.drainOutputs
  let h0 := s0.hart.writebackAll
  let tc := { h0.trap.tcause with sub := second }
  let h := { h0 with trap := { h0.trap with tcause := tc } }
  let s1 := ((s0.dumpContext h).dropAnvil h).cancelCards h.die fun c => c.owner == h.hid
  let s2 := { s1 with hart := h }.reportFailure h 2 tc 0x80 second
  let s3 := s2.retireCards h.die fun c => c.owner == h.hid
  let kept := { s3.hart with
    status := .haltedDouble
    mark := .none
    task := 0
    grant := 0
    nextPend := false
    cancel := false
    budget := none
    handles := s3.hart.handles |> vmap fun x => { x with bound := false }
    heldChannels := [] }
  { s3 with hart := kept }.endMember h .failed 0

/-! ## Taking a trap (16 R318) -/

/-- A stream whose held fault a trap reports: what it fetched beyond POS is fetched again, and what it could not perform
or publish is tried again (10 R212, R214). -/
def refetch (x : Handle) : Handle :=
  if (x.desc.map (·.output)).getD false then { x with fault := none } else { x with held := [], fault := none, blk := none }

/-- The hart at its handler's first instruction, with the trap recorded. What a wait kept with its instruction goes.
DESIGN CHOICE (log 71): so does a change of grant that a waiting or resumed setvl.db had noted. -/
def Hart.enterTrap (h : Hart) (t : Trap) (tpc : Word) (qpos : Nat) (rh : Bool) (vec : Word) : Hart :=
  { h with
    pc := vec
    msel := 0x0F
    mark := .none
    handles := if t.stream then h.handles.set t.hnd.toNat (refetch h.handles[t.hnd.toNat]) else h.handles
    priv := { h.priv with cur := if h.priv.cur < 2 then 2 else h.priv.cur }
    trap := { h.trap with
      tcause := { pmsel := h.msel, rh := rh, plv := h.priv.cur, done := t.done, hnd := t.hnd, sub := t.sub, cause := t.cause }
      tpc := tpc &&& ~~~3
      tqpos := BitVec.ofNat 6 qpos
      taddr := t.addr
      tnode := t.node
      tnpc := t.npc &&& ~~~3 }
    tcnt := Vector.ofFn fun c : Fin 32 => BitVec.ofNat 32 (t.counts.getD c.val 0) }

/-- The handler's address: TVEC, or the cell's default vector (16 R318). DESIGN CHOICE (log 13): the vector is what start-up
has named, bits [1:0] included, and the fetch judges it. -/
def handlerOf (s : State) (h : Hart) : Word :=
  if h.trap.tvec ≠ 0 then h.trap.tvec else (s.cellOf h.die h.cell).defaultVector

/-- Fetch the word at a hart's pc: its place, or the cause (16 R336; 04 R95). -/
def fetchPlace (s : State) (h : Hart) : Except (BitVec 8) Place :=
  if bitsOf h.pc 1 0 != 0 then .error 0x05
  else
    match translate s h.agent .fetch h.pc with
    | .error c => .error c
    | .ok p =>
      match readFault s p.pa 4 with
      | some c => .error c
      | none => .ok p

/-- The current hart is entering a handler: a fault in the fetch of its first instruction is a double fault (16 R318,
R334). -/
def State.atHandler (s : State) : State :=
  match fetchPlace s s.hart with
  | .ok _ => s
  | .error c => s.doubleFault c

/-- Take a trap that did not arise in a vector-queue entry (16 R318). A replay record that is held is kept. -/
def State.takeTrap (s : State) (t : Trap) : State :=
  let s1 := s.wake
  let h := s1.hart
  { s1 with hart := h.enterTrap t h.pc 0 false (handlerOf s1 h) }.atHandler

/-- Take a trap in the entry at the head of the vector queue (16 R318): the queue becomes the replay record. A fault
while a record is held is a double fault (R334). -/
def State.takeVectorTrap (s : State) (t : Trap) : State :=
  let s1 := s.wake
  let h := s1.hart
  match h.replay with
  | some _ => s1.doubleFault t.cause
  | none =>
    let ents := h.vq.map fun e => { e with inAnvil := false }
    let tpc := (h.vq.head?.map (·.pc)).getD h.pc
    let late (p : Producer) : Bool := p.behind != 0 && h.vq.any fun e =>
      match p.dest, scalarResult e.instr with
      | .scalar d _, some r => d == r
      | _, _ => false
    let h1 := { h with
      vq := []
      producers := (h.producers.filter fun p => !late p).map fun p => { p with behind := 0 }
      replay := some { entries := ents, rpc := h.pc, late := h.producers.filter late } }
    let s2 := s1.dropAnvil h1
    { s2 with hart := h1.enterTrap t tpc ents.length true (handlerOf s2 h1) }.atHandler

/-- The entries that a return sends again (16 R324): the one that trapped is left out where the trap completed it. -/
def replayed (done : Bool) (r : Replay) : List VEntry := if done then r.entries.drop 1 else r.entries

/-- The queues have room for what a return sends again (02 R38, R40). -/
def Hart.mayReplay (h : Hart) : Bool :=
  match h.replay with
  | none => true
  | some r =>
    !h.trap.tcause.rh ||
      (h.vq.length + (replayed h.trap.tcause.done r).length ≤ Config.vectorQueueSize &&
        h.reads + owing (replayed h.trap.tcause.done r) + r.late.length ≤ Config.readQueueSize)

/-- The return from a trap (16 R324), once its level check has passed. -/
def Hart.returnFromTrap (h : Hart) : Hart :=
  let tc := h.trap.tcause
  let h1 := { h with priv := { h.priv with cur := tc.plv }, msel := tc.pmsel }
  if tc.rh then
    match h.replay with
    | some r =>
      let gone := owing r.entries - owing (replayed tc.done r)
      { h1 with
        vq := h1.vq ++ replayed tc.done r
        producers := h1.producers ++ r.late.map fun p => { p with behind := owing h1.vq + (p.behind - gone) }
        pc := r.rpc
        replay := none
        trap := { h1.trap with tcause := { tc with rh := false } } }
    | none => { h1 with pc := if tc.done then h.trap.tpc + 4 else h.trap.tpc }
  else { h1 with pc := if tc.done then h.trap.tpc + 4 else h.trap.tpc }

/-! ## How a meaning answers a step -/

/-- The outcome of an instruction: its effect, its trap, a wait for a later turn, or the hart's cancel. -/
def finish (s : State) : Except Stop State → Host.Outcome State Fault Refusal
  | .ok s' => .next s'
  | .error (.trap t) => .next (s.takeTrap t)
  | .error .stall => .next s
  | .error .cancel => .next s.takeCancel

/-- An instruction that changes nothing but its hart. -/
def onHart (s : State) (f : Hart → Except Stop Hart) : Host.Outcome State Fault Refusal :=
  finish s ((f s.hart).map fun h => { s with hart := h })

/-- An instruction with one scalar source whose result is written at once (02 R35 to R37). -/
def unary (d a : SReg) (ea : Bool) (f : Hart → Word → Word × FFlags) (s : State) : Host.Outcome State Fault Refusal :=
  onHart s fun h => do
    let x ← h.src a ea
    h.destReady d
    let r := f h x
    .ok ((h.raise r.2).result d r.1)

/-- An instruction with two scalar sources whose result is written at once. -/
def binary (d a b : SReg) (ea eb : Bool) (f : Hart → Word → Word → Word × FFlags) (s : State) :
    Host.Outcome State Fault Refusal :=
  onHart s fun h => do
    let x ← h.src a ea
    let y ← h.src b eb
    h.destReady d
    let r := f h x y
    .ok ((h.raise r.2).result d r.1)

/-- An instruction whose one result is a condition bit. -/
def intoC (c : CBit) (f : Hart → Except Stop (Bool × FFlags)) (s : State) : Host.Outcome State Fault Refusal :=
  onHart s fun h => do
    let r ← f h
    .ok ((h.raise r.2).setC c r.1).advance

/-- A vector instruction without scalar sources enters the queue (02 R38). -/
def sendV (i : Instr) (s : State) : Host.Outcome State Fault Refusal := onHart s fun h => h.send i 0 0 0

/-- A vector instruction with one scalar source (02 R36, R39). -/
def sendV1 (i : Instr) (a : SReg) (ea : Bool) (s : State) : Host.Outcome State Fault Refusal :=
  onHart s fun h => do
    let x ← h.src a ea
    h.send i x 0 0

/-- A vector instruction with two scalar sources. -/
def sendV2 (i : Instr) (a b : SReg) (ea eb : Bool) (s : State) : Host.Outcome State Fault Refusal :=
  onHart s fun h => do
    let x ← h.src a ea
    let y ← h.src b eb
    h.send i x y 0

/-- An event: it happens, or, where it cannot happen now, nothing does. -/
def happen (s : State) (r : Option State) : Host.Outcome State Fault Refusal := .next (r.getD s)

end Sys2Proof.Machine
end

