-- ==== Sys2Proof/Machine/Sha512.lean ====
section
/-!
DEFINITION. SHA-512, which start-up and quotes use by name (22 R430, R435, R436). PRESUMED (log 4): as FIPS 180-4 gives it.
-/
namespace Sys2Proof.Machine

/-- The initial hash value. -/
def shaStart : List Word :=
  [0x6A09E667F3BCC908, 0xBB67AE8584CAA73B, 0x3C6EF372FE94F82B, 0xA54FF53A5F1D36F1,
   0x510E527FADE682D1, 0x9B05688C2B3E6C1F, 0x1F83D9ABFB41BD6B, 0x5BE0CD19137E2179]

/-- The constants of rounds 0 to 15. -/
def shaKeys0 : List Word :=
  [0x428A2F98D728AE22, 0x7137449123EF65CD, 0xB5C0FBCFEC4D3B2F, 0xE9B5DBA58189DBBC,
   0x3956C25BF348B538, 0x59F111F1B605D019, 0x923F82A4AF194F9B, 0xAB1C5ED5DA6D8118,
   0xD807AA98A3030242, 0x12835B0145706FBE, 0x243185BE4EE4B28C, 0x550C7DC3D5FFB4E2,
   0x72BE5D74F27B896F, 0x80DEB1FE3B1696B1, 0x9BDC06A725C71235, 0xC19BF174CF692694]

/-- The constants of rounds 16 to 31. -/
def shaKeys1 : List Word :=
  [0xE49B69C19EF14AD2, 0xEFBE4786384F25E3, 0x0FC19DC68B8CD5B5, 0x240CA1CC77AC9C65,
   0x2DE92C6F592B0275, 0x4A7484AA6EA6E483, 0x5CB0A9DCBD41FBD4, 0x76F988DA831153B5,
   0x983E5152EE66DFAB, 0xA831C66D2DB43210, 0xB00327C898FB213F, 0xBF597FC7BEEF0EE4,
   0xC6E00BF33DA88FC2, 0xD5A79147930AA725, 0x06CA6351E003826F, 0x142929670A0E6E70]

/-- The constants of rounds 32 to 47. -/
def shaKeys2 : List Word :=
  [0x27B70A8546D22FFC, 0x2E1B21385C26C926, 0x4D2C6DFC5AC42AED, 0x53380D139D95B3DF,
   0x650A73548BAF63DE, 0x766A0ABB3C77B2A8, 0x81C2C92E47EDAEE6, 0x92722C851482353B,
   0xA2BFE8A14CF10364, 0xA81A664BBC423001, 0xC24B8B70D0F89791, 0xC76C51A30654BE30,
   0xD192E819D6EF5218, 0xD69906245565A910, 0xF40E35855771202A, 0x106AA07032BBD1B8]

/-- The constants of rounds 48 to 63. -/
def shaKeys3 : List Word :=
  [0x19A4C116B8D2D0C8, 0x1E376C085141AB53, 0x2748774CDF8EEB99, 0x34B0BCB5E19B48A8,
   0x391C0CB3C5C95A63, 0x4ED8AA4AE3418ACB, 0x5B9CCA4F7763E373, 0x682E6FF3D6B2B8A3,
   0x748F82EE5DEFB2FC, 0x78A5636F43172F60, 0x84C87814A1F0AB72, 0x8CC702081A6439EC,
   0x90BEFFFA23631E28, 0xA4506CEBDE82BDE9, 0xBEF9A3F7B2C67915, 0xC67178F2E372532B]

/-- The constants of rounds 64 to 79. -/
def shaKeys4 : List Word :=
  [0xCA273ECEEA26619C, 0xD186B8C721C0C207, 0xEADA7DD6CDE0EB1E, 0xF57D4F7FEE6ED178,
   0x06F067AA72176FBA, 0x0A637DC5A2C898A6, 0x113F9804BEF90DAE, 0x1B710B35131C471B,
   0x28DB77F523047D84, 0x32CAAB7B40C72493, 0x3C9EBE0A15C9BEBC, 0x431D67C49C100D4C,
   0x4CC5D4BECB3E42B6, 0x597F299CFC657E2A, 0x5FCB6FAB3AD6FAEC, 0x6C44198C4A475817]

/-- The constants of the 80 rounds. -/
def shaKeys : List Word := shaKeys0 ++ shaKeys1 ++ shaKeys2 ++ shaKeys3 ++ shaKeys4

/-- A word of bytes, most significant first. -/
def wordOfBytes (l : List Byte) : Word := l.foldl (fun w b => (w <<< 8) ||| b.zeroExtend 64) 0

/-- The message and its padding: a one bit, zeros, and its length in bits as 16 bytes, to a multiple of 128 bytes. -/
def shaPadded (l : List Byte) : List Byte :=
  l ++ 0x80 :: List.replicate ((239 - l.length % 128) % 128) 0 ++ (leBytes 16 (8 * l.length)).reverse

/-- The 16 words of a block. -/
def shaWords : Nat → List Byte → List Word
  | 0, _ => []
  | n + 1, l => wordOfBytes (l.take 8) :: shaWords n (l.drop 8)

/-- The next word of the message schedule, from the 16 before it, the oldest first. -/
def shaNext (w : List Word) : Word :=
  let x := w.getD 1 0
  let y := w.getD 14 0
  w.getD 0 0 + (x.rotateRight 1 ^^^ x.rotateRight 8 ^^^ (x >>> 7)) + w.getD 9 0 +
    (y.rotateRight 19 ^^^ y.rotateRight 61 ^^^ (y >>> 6))

/-- One round on the eight working variables, with its constant and its word of the schedule. -/
def shaRound (v : List Word) (k w : Word) : List Word :=
  match v with
  | [a, b, c, d, e, f, g, h] =>
    let t := h + (e.rotateRight 14 ^^^ e.rotateRight 18 ^^^ e.rotateRight 41) + ((e &&& f) ^^^ (~~~e &&& g)) + k + w
    [t + (a.rotateRight 28 ^^^ a.rotateRight 34 ^^^ a.rotateRight 39) + ((a &&& b) ^^^ (a &&& c) ^^^ (b &&& c)),
     a, b, c, d + t, e, f, g]
  | _ => v

/-- The rounds with the constants left, over the 16 words of the schedule from the current one on. -/
def shaRounds : List Word → List Word → List Word → List Word
  | [], _, v => v
  | k :: rest, w, v => shaRounds rest (w.drop 1 ++ [shaNext w]) (shaRound v k (w.getD 0 0))

/-- The hash value after a block. -/
def shaBlock (v : List Word) (block : List Byte) : List Word :=
  List.zipWith (· + ·) v (shaRounds shaKeys (shaWords 16 block) v)

/-- The hash value after a number of blocks of a padded message. -/
def shaBlocks : Nat → List Byte → List Word → List Word
  | 0, _, v => v
  | n + 1, l, v => shaBlocks n (l.drop 128) (shaBlock v (l.take 128))

/-- The 64 bytes of the digest of a message, its first byte in bits [7:0]. -/
def sha512 (l : List Byte) : BitVec 512 :=
  let p := shaPadded l
  BitVec.ofNat 512 (leNat ((shaBlocks (p.length / 128) p shaStart).flatMap fun w => (leBytes 8 w.toNat).reverse))

end Sys2Proof.Machine
end

