-- ==== Sys2Proof/Machine/Boot.lean ====
section
/-!
DEFINITION. A die's reset (02 R49, 10 R216, R218, 11 R442, 20 R384) and start-up (22 R435 to R438).
-/
namespace Sys2Proof.Machine

/-- A cell after its die's reset: the accumulator store and the weight buffer. -/
def Cell.cleared (x : Cell) : Cell := { x with acc := [], wb := [], accError := [] }

/-- Change every cell of a die. -/
def State.mapCells (s : State) (d : DieNo) (f : CellNo → Cell → Cell) : State :=
  (List.finRange 48).foldl (fun s c => s.setCell d c (f c (s.cellOf d c))) s

/-- A merge slot after its die's reset: idle, with only the model's numbers of its rounds kept. -/
def MergeSlot.cleared (m : MergeSlot) : MergeSlot := { opens := m.opens, commits := m.commits }

/-- A die's reset. DESIGN CHOICE (log 48): what the rules do not name of the die stays. -/
def execDieReset (die : DieNo) (s : State) : Host.Outcome State Fault Refusal :=
  let x := s.dieOf die
  let y := { x with
    cyc := 0, db := Vector.replicate 64 {}, ab := Vector.replicate 64 {}, slots := x.slots |> vmap MergeSlot.cleared, stage := 0,
    cause := 0, stopped := false }
  .next { (s.setDie die y).mapCells die fun _ c => c.cleared with mode := .starting }

/-- Firmware's placements in a cell (22 R435 stage 7). DESIGN CHOICE (log 13): a base for each die, the cells' areas at
equal distances; any default vector, aligned or not. -/
def Cell.placed (p : BootPlan) (c : CellNo) (x : Cell) : Cell :=
  { x with
    defaultVector := p.defaultVector
    saveArea := p.saveAreas.toNat + c.val * 0x2000000
    sqbase := BitVec.ofNat 64 (p.supervisorQueues.toNat + c.val * 0x41000)
    taskRing := p.taskRings.toNat + c.val * 0x400000 }

/-! ## The configuration record (22 R436) -/

/-- A number of n bytes of a record, little-endian. -/
def recordLe (b : List Byte) (o n : Nat) : Nat := leNat ((b.drop o).take n)

/-- The bytes of a record before SIG, and SIG. -/
def recordSigned (b : List Byte) : List Byte := b.take (b.length - 64)
def recordSig (b : List Byte) : BitVec 512 := BitVec.ofNat 512 (leNat (b.drop (b.length - 64)))

/-- The routes of a record's table, for a die; none for a malformed record: too short, a table that does not start after
ISL and before SIG, or one that is no table. -/
def recordRoutes (d : DieNo) (b : List Byte) : Option (List (BitVec 19 × Fin 8)) :=
  let o := recordLe b 56 8
  if b.length < 1088 + 64 ∨ o < 1088 ∨ b.length - 64 < o then none
  else Config.routingTable d.val ((recordSigned b).drop o)

/-- A record's fields. -/
def recordOf (b : List Byte) : Record :=
  { cells := Vector.ofFn fun d : Fin 4 => BitVec.ofNat 48 (recordLe b (8 * d.val) 8)
    nodeid := BitVec.ofNat 19 (recordLe b 32 8)
    trust := BitVec.ofNat 4 (recordLe b 40 8)
    farch := BitVec.ofNat 64 (recordLe b 48 8)
    isl := Vector.ofFn fun i : Fin 512 => BitVec.ofNat 16 (recordLe b (64 + 2 * i.val) 2) }

/-! ## The stages (22 R435, R437) -/

/-- The record that stage 3 reads is good: its signature, and its form. -/
def recordGood (d : DieNo) (p : BootPlan) : Bool :=
  Config.recordSigned (sha512 (recordSigned p.record)) (recordSig p.record) && (recordRoutes d p.record).isSome

/-- The stage a die's start ends at: the first that fails, or 8. -/
def stageReached (d : DieNo) (p : BootPlan) : BitVec 8 :=
  if !p.selfTest then 1
  else if !p.firmware then 2
  else if !recordGood d p then 3
  else if !p.identity then 4
  else if !p.training then 5
  else if !p.dieLinks || !p.hostLink then 6
  else if !p.memory then 7
  else 8

/-- Another die has failed in this start. -/
def failedBefore (s : State) (d : DieNo) : Bool :=
  (List.finRange 4).any fun k => k != d && (s.dieOf k).stage != 0 && (s.dieOf k).stage.toNat < 8

/-- The fabric off: every port down (22 R437). -/
def State.portsOff (s : State) : State :=
  { s with dies := s.dies |> vmap fun x => { x with ports := Vector.replicate 8 {} } }

/-- The module starts: normal, or minimal after three failed starts (22 R437). -/
def State.started (s : State) : State :=
  if 3 ≤ s.fails.toNat then { s.portsOff with mode := .minimal, fails := 0 } else { s with mode := .normal, fails := 0 }

/-- The module's mode and count of failed starts after a die's stages (22 R437). -/
def State.afterStart (s : State) (d : DieNo) : State :=
  if (s.dieOf d).stage.toNat < 8 then
    if failedBefore s d then s else { s with fails := if s.fails = 63 then 63 else s.fails + 1 }
  else if s.dies.toList.all fun x => x.stage == 8 then s.started
  else s

/-- Stage 3: the die's firmware has read the record. -/
def State.readRecord (s : State) (d : DieNo) (b : List Byte) : State :=
  let r := recordOf b
  { s.setDie d { s.dieOf d with recordBytes := b, routes := (recordRoutes d b).getD [] } with record := r, islands := r.isl }

/-- A die that has been reset runs its stages in order, up to the first that fails: stage 3 reads the record, stage 7
makes the placements. A failure reports a cause. -/
def execStartUp (die : DieNo) (plan : BootPlan) (s : State) : Host.Outcome State Fault Refusal :=
  let stage := stageReached die plan
  if (s.dieOf die).stage ≠ 0 ∨ (stage ≠ 8 ∧ plan.cause = 0) then .next s
  else
    let x := s.dieOf die
    let s1 := s.setDie die { x with stage := stage, cause := if stage = 8 then 0 else plan.cause }
    let s2 := if stage.toNat < 4 then s1 else s1.readRecord die plan.record
    let s3 := if stage.toNat < 8 then s2
      else (s2.setDie die { s2.dieOf die with directory := plan.directory.toNat }).mapCells die (Cell.placed plan)
    .next (s3.afterStart die)

end Sys2Proof.Machine
end

