-- ==== Sys2Proof/Machine/Blocks.lean ====
section
/-!
DEFINITION. 64-byte blocks: layout, format codes, classes, checks, compressed blocks (08 R181 to R186) and packing
(05 R130).
-/
namespace Sys2Proof.Machine

/-! ## Layout (08 R181 to R184) -/

/-- Payload or header bits of a block: n bits from bit i of the block on. -/
def blkBits (b : Block) (i n : Nat) : Nat := b.toNat / 2 ^ i % 2 ^ n
def blkCode (b : Block) : Nat := blkBits b 0 8
def blkPoison (b : Block) : Bool := blkBits b 15 1 == 1
def blkScale (b : Block) : Nat := blkBits b 16 16
/-- n payload bits from payload bit i on. -/
def blkPayload (b : Block) (i n : Nat) : Nat := blkBits b (32 + i) n

/-- The elements of a block of mantissa width w (08 R183). -/
def bfpK (w : Nat) : Nat := 480 / w

/-- The classes of blocks (08 R184); code 0x20 belongs to every class. -/
inductive BlkClass where
  | bfp (w : Nat)
  | e4 | e5 | e2
  deriving DecidableEq, Repr

/-- The class of a code, and whether the code is compressed (08 R183). -/
def classOf (code : Nat) : Option (BlkClass × Bool) :=
  if 0x02 ≤ code ∧ code ≤ 0x08 then some (.bfp code, false)
  else if 0x12 ≤ code ∧ code ≤ 0x18 then some (.bfp (code - 0x10), true)
  else if code = 0x30 then some (.e4, false)
  else if code = 0x31 then some (.e5, false)
  else if code = 0x32 then some (.e2, false)
  else none

/-- Elements of a class (08 R183). -/
def BlkClass.k : BlkClass → Nat
  | .bfp w => bfpK w
  | .e4 | .e5 => 60
  | .e2 => 120

/-- Mantissa i of a block of width w. -/
def mantissa (b : Block) (w i : Nat) : Int := toSigned w (blkPayload b (w * i) w)

/-- The unscaled value of element i in a class (08 R183, R188). -/
def BlkClass.value (c : BlkClass) (b : Block) (i : Nat) : FVal :=
  match c with
  | .bfp w => ofInt (mantissa b w i)
  | .e4 => unpack fmtE4M3 (blkPayload b (8 * i) 8)
  | .e5 => unpack fmtE5M2 (blkPayload b (8 * i) 8)
  | .e2 => unpack fmtE2M1 (blkPayload b (4 * i) 4)

/-- The scale's value. -/
def scaleVal (scale : Nat) : FVal := unpack fmtBF16 scale

/-- Element i of a sound block of width w as an exact value: +0 of code 0x20 and for a zero mantissa (08 R183). -/
def bfpValue (b : Block) (w i : Nat) : FVal :=
  if blkCode b = 0x20 ∨ mantissa b w i = 0 then .fin false 0 0
  else (mulX (ofInt (mantissa b w i)) (scaleVal (blkScale b))).1

/-! ## Checks (08 R185) -/

/-- Group size and number of groups of a compressed span of width w (08 R186). -/
def spanGs (w : Nat) : Nat := (2 * bfpK w + 63) / 64
def spanNg (w : Nat) : Nat := (2 * bfpK w + spanGs w - 1) / spanGs w

/-- The mantissas of a compressed block from span element i on, `pos` the next stored bit (08 R186); none for a failed
check. -/
def expandFrom (b : Block) (w : Nat) : Nat → Nat → Nat → List Nat → Option (List Nat)
  | 0, _, pos, acc => if blkPayload b pos (480 - pos) = 0 then some acc.reverse else none
  | n + 1, i, pos, acc =>
    if blkPayload b (i / spanGs w) 1 = 1 then
      (if 480 < pos + w then none else expandFrom b w n (i + 1) (pos + w) (blkPayload b pos w :: acc))
    else expandFrom b w n (i + 1) pos (0 :: acc)

/-- The mantissas of a compressed block's span (08 R186). -/
def expandSpan (b : Block) (w : Nat) : Option (List Nat) :=
  if blkPayload b (spanNg w) (64 - spanNg w) ≠ 0 then none else expandFrom b w (2 * bfpK w) 0 64 []

/-- A block from its header's code and scale and the patterns of its elements of width w, low bit first (08 R182). -/
def makeBlock (code scale w : Nat) (elems : List Nat) : Block :=
  let payload := elems.foldr (fun x acc => x % 2 ^ w + 2 ^ w * acc) 0
  BitVec.ofNat 512 (code + scale * 2 ^ 16 + payload * 2 ^ 32)

/-- The checks 1 to 6 of 08 R185 for a consumer that accepts some codes: none when sound, else the cause. -/
def checkBlock (b : Block) (accept : Nat → Bool) : Option (BitVec 8) :=
  if blkPoison b then some 0x14
  else if blkCode b = 0x20 then none
  else
    match classOf (blkCode b) with
    | none => some 0x13
    | some (c, cmp) =>
      if !accept (blkCode b) then some 0x13
      else if blkBits b 8 1 != (if cmp then 1 else 0) || blkBits b 9 6 != 0 then some 0x13
      else if !(scaleVal (blkScale b)).isFinite then some 0x13
      else
        match c, cmp with
        | .bfp w, true => if (expandSpan b w).isNone then some 0x13 else none
        | _, _ => none

/-- The blocks a sound source block stands for in the weight buffer (08 R186, 11 R226). -/
def expandBlock (b : Block) : List Block :=
  match classOf (blkCode b) with
  | some (.bfp w, true) =>
    match expandSpan b w with
    | some ms => [makeBlock w (blkScale b) w (ms.take (bfpK w)), makeBlock w (blkScale b) w (ms.drop (bfpK w))]
    | none => []
  | _ => [b]

/-! ## Packing (05 R130) -/

/-- The exponent of a group's largest magnitude, floor(log2 |a|); none for zero. -/
def topExp : FVal → Option Int
  | .fin _ 0 _ => none
  | .fin _ m e => some (e + (Nat.log2 m : Nat))
  | _ => none

/-- The exponent E of a group that is finite and not all zero, and its mantissas with their exactness (05 R130). -/
def packScale (w : Nat) (vals : List FVal) : Option Int :=
  let tops := vals.filterMap topExp
  match tops with
  | [] => none
  | t :: r => some (saturate (r.foldl max t - ((w : Int) - 2)) (-133) 127)

/-- One mantissa and whether it is exact. -/
def packMantissa (w : Nat) (e : Int) (v : FVal) : Int × Bool :=
  match v with
  | .fin n m x =>
    let r := roundInt .rne (.fin n m (x - e))
    let c := saturate r.1 (-2 ^ (w - 1)) (2 ^ (w - 1) - 1)
    (c, r.2 && c == r.1)
  | _ => (0, true)

/-- Pack a group of exact values, +0 for elements outside the group, into a block of width w (05 R130). -/
def packBlock (w : Nat) (vals : List FVal) : Block × FFlags :=
  if vals.any (fun v => !v.isFinite) then (0, fNV)
  else
    match packScale w vals with
    | none => (makeBlock 0x20 0 w [], 0)
    | some e =>
      let ms := vals.map (packMantissa w e)
      (makeBlock w (roundF fmtBF16 .rne (.fin false 1 e)).1 w (ms.map fun m => wrapTo w m.1),
        if ms.all (·.2) then 0 else fNX)

end Sys2Proof.Machine
end

