-- ==== Sys2Proof/Machine/Scalar.lean ====
section
/-!
DEFINITION. Integer arithmetic, immediates, compares and condition bits (04 R86 to R92).
-/
namespace Sys2Proof.Machine

/-! ## Values (04 R86, R87) -/

/-- The low 32 bits, sign-extended. -/
def sext32 (x : Word) : Word := (x.truncate 32).signExtend 64

/-- The low half of a product of two 64-bit numbers, shifted down by 64. -/
def mulHigh (x y : Int) : Word := BitVec.ofInt 64 (x * y / 2 ^ 64)

/-- Signed quotient at a width, truncated toward zero, with the cases of 04 R87 and 05 R123. -/
def divS (n : Nat) (x y : Int) : Int :=
  if y = 0 then (if 0 ≤ x then 2 ^ (n - 1) - 1 else -2 ^ (n - 1))
  else if x = -2 ^ (n - 1) ∧ y = -1 then 2 ^ (n - 1) - 1
  else x.tdiv y
/-- Unsigned quotient at a width. -/
def divU (n : Nat) (x y : Nat) : Nat := if y = 0 then 2 ^ n - 1 else x / y
/-- Signed remainder: of the sign of the dividend; the dividend by zero. -/
def remS (x y : Int) : Int := if y = 0 then x else x.tmod y
/-- Unsigned remainder. -/
def remU (x y : Nat) : Nat := if y = 0 then x else x % y

/-! ## Major 0x01 (04 R86) -/

/-- A result that raises no flag. -/
def quiet (f : Word → Word → Word) : Hart → Word → Word → Word × FFlags := fun _ x y => (f x y, 0)
def quiet1 (f : Word → Word) : Hart → Word → Word × FFlags := fun _ x => (f x, 0)

def execAdd (d a b : SReg) (ea eb : Bool) (s : State) := binary d a b ea eb (quiet fun x y => x + y) s
def execSub (d a b : SReg) (ea eb : Bool) (s : State) := binary d a b ea eb (quiet fun x y => x - y) s
def execAnd (d a b : SReg) (ea eb : Bool) (s : State) := binary d a b ea eb (quiet fun x y => x &&& y) s
def execOr (d a b : SReg) (ea eb : Bool) (s : State) := binary d a b ea eb (quiet fun x y => x ||| y) s
def execXor (d a b : SReg) (ea eb : Bool) (s : State) := binary d a b ea eb (quiet fun x y => x ^^^ y) s
/-- The shift amount is the low six bits (04 R86). -/
def execSll (d a b : SReg) (ea eb : Bool) (s : State) := binary d a b ea eb (quiet fun x y => x <<< (y.toNat % 64)) s
def execSrl (d a b : SReg) (ea eb : Bool) (s : State) := binary d a b ea eb (quiet fun x y => x >>> (y.toNat % 64)) s
def execSra (d a b : SReg) (ea eb : Bool) (s : State) :=
  binary d a b ea eb (quiet fun x y => x.sshiftRight (y.toNat % 64)) s
def execMul (d a b : SReg) (ea eb : Bool) (s : State) := binary d a b ea eb (quiet fun x y => x * y) s
def execMulh (d a b : SReg) (ea eb : Bool) (s : State) :=
  binary d a b ea eb (quiet fun x y => mulHigh x.toInt y.toInt) s
def execMulhN (d a b : SReg) (ea eb : Bool) (s : State) :=
  binary d a b ea eb (quiet fun x y => mulHigh x.toNat y.toNat) s
def execDiv (d a b : SReg) (ea eb : Bool) (s : State) :=
  binary d a b ea eb (quiet fun x y => BitVec.ofInt 64 (divS 64 x.toInt y.toInt)) s
def execDivN (d a b : SReg) (ea eb : Bool) (s : State) :=
  binary d a b ea eb (quiet fun x y => BitVec.ofNat 64 (divU 64 x.toNat y.toNat)) s
def execRem (d a b : SReg) (ea eb : Bool) (s : State) :=
  binary d a b ea eb (quiet fun x y => BitVec.ofInt 64 (remS x.toInt y.toInt)) s
def execRemN (d a b : SReg) (ea eb : Bool) (s : State) :=
  binary d a b ea eb (quiet fun x y => BitVec.ofNat 64 (remU x.toNat y.toNat)) s
def execMin (d a b : SReg) (ea eb : Bool) (s : State) :=
  binary d a b ea eb (quiet fun x y => if y.toInt < x.toInt then y else x) s
def execMax (d a b : SReg) (ea eb : Bool) (s : State) :=
  binary d a b ea eb (quiet fun x y => if x.toInt < y.toInt then y else x) s
def execMinN (d a b : SReg) (ea eb : Bool) (s : State) :=
  binary d a b ea eb (quiet fun x y => if y.toNat < x.toNat then y else x) s
def execMaxN (d a b : SReg) (ea eb : Bool) (s : State) :=
  binary d a b ea eb (quiet fun x y => if x.toNat < y.toNat then y else x) s
def execAdd32 (d a b : SReg) (ea eb : Bool) (s : State) := binary d a b ea eb (quiet fun x y => sext32 (x + y)) s
def execSub32 (d a b : SReg) (ea eb : Bool) (s : State) := binary d a b ea eb (quiet fun x y => sext32 (x - y)) s

/-! ## Immediates and constants (04 R88 to R90) -/

def execAddi (d a : SReg) (imm : BitVec 15) (ea : Bool) (s : State) :=
  unary d a ea (quiet1 fun x => x + imm.signExtend 64) s
def execAndi (d a : SReg) (imm : BitVec 15) (ea : Bool) (s : State) :=
  unary d a ea (quiet1 fun x => x &&& imm.signExtend 64) s
def execOri (d a : SReg) (imm : BitVec 15) (ea : Bool) (s : State) :=
  unary d a ea (quiet1 fun x => x ||| imm.zeroExtend 64) s
def execXori (d a : SReg) (imm : BitVec 15) (ea : Bool) (s : State) :=
  unary d a ea (quiet1 fun x => x ^^^ imm.zeroExtend 64) s
def execSlli (d a : SReg) (n : BitVec 6) (ea : Bool) (s : State) := unary d a ea (quiet1 fun x => x <<< n.toNat) s
def execSrli (d a : SReg) (n : BitVec 6) (ea : Bool) (s : State) := unary d a ea (quiet1 fun x => x >>> n.toNat) s
def execSrai (d a : SReg) (n : BitVec 6) (ea : Bool) (s : State) :=
  unary d a ea (quiet1 fun x => x.sshiftRight n.toNat) s
def execSlli32 (d a : SReg) (n : BitVec 5) (ea : Bool) (s : State) :=
  unary d a ea (quiet1 fun x => ((x.truncate 32) <<< n.toNat).signExtend 64) s
def execSrli32 (d a : SReg) (n : BitVec 5) (ea : Bool) (s : State) :=
  unary d a ea (quiet1 fun x => ((x.truncate 32) >>> n.toNat).signExtend 64) s
def execSrai32 (d a : SReg) (n : BitVec 5) (ea : Bool) (s : State) :=
  unary d a ea (quiet1 fun x => ((x.truncate 32).sshiftRight n.toNat).signExtend 64) s

/-- An instruction without sources whose result is written at once. -/
def constant (d : SReg) (f : Hart → Word) (s : State) : Host.Outcome State Fault Refusal :=
  onHart s fun h => do
    h.destReady d
    .ok (h.result d (f h))

def execLdhi (d : SReg) (imm : BitVec 21) (s : State) := constant d (fun _ => imm.signExtend 64 <<< 15) s
def execAddpc (d : SReg) (imm : BitVec 21) (s : State) := constant d (fun h => h.pc + (imm.signExtend 64 <<< 2)) s

/-! ## Compares (04 R91, 03 R63) -/

/-- A relation between integers. -/
def relInt (r : Rel) (x y : Int) : Bool := relOrd r (compare x y)

def execCmpi (c : CBit) (a : SReg) (rel : Rel) (imm : BitVec 11) (ea : Bool) (s : State) :=
  intoC c (fun h => do
    let x ← h.src a ea
    .ok (relInt rel x.toInt imm.toInt, 0)) s
def execCmpiN (c : CBit) (a : SReg) (rel : Rel) (imm : BitVec 11) (ea : Bool) (s : State) :=
  intoC c (fun h => do
    let x ← h.src a ea
    .ok (relInt rel x.toNat imm.toNat, 0)) s
def execCmp (c : CBit) (a b : SReg) (rel : Rel) (ea eb : Bool) (s : State) :=
  intoC c (fun h => do
    let x ← h.src a ea
    let y ← h.src b eb
    .ok (relInt rel x.toInt y.toInt, 0)) s
def execCmpN (c : CBit) (a b : SReg) (rel : Rel) (ea eb : Bool) (s : State) :=
  intoC c (fun h => do
    let x ← h.src a ea
    let y ← h.src b eb
    .ok (relInt rel x.toNat y.toNat, 0)) s

/-- The bits of a scalar register that a floating type reads (04 R96). -/
def fBits (ty : SFltTy) (x : Word) : Nat := x.toNat % 2 ^ (sfltFmt ty).bits

def execFcmp (c : CBit) (a b : SReg) (rel : Rel) (ty : SFltTy) (ea eb : Bool) (s : State) :=
  intoC c (fun h => do
    let x ← h.src a ea
    let y ← h.src b eb
    .ok (fpRel (sfltFmt ty) rel (fBits ty x) (fBits ty y))) s

/-! ## Condition bits (04 R92) -/

/-- A condition bit from two others. -/
def combineC (d a b : CBit) (f : Bool → Bool → Bool) (s : State) : Host.Outcome State Fault Refusal :=
  intoC d (fun h => .ok (f h.cbit[a] h.cbit[b], 0)) s

def execCand (d a b : CBit) (s : State) := combineC d a b (fun x y => x && y) s
def execCor (d a b : CBit) (s : State) := combineC d a b (fun x y => x || y) s
def execCxor (d a b : CBit) (s : State) := combineC d a b (fun x y => x != y) s
def execCandn (d a b : CBit) (s : State) := combineC d a b (fun x y => x && !y) s
def execCnot (d a : CBit) (s : State) := combineC d a a (fun x _ => !x) s
def execCget (d : SReg) (a : CBit) (s : State) := constant d (fun h => if h.cbit[a] then 1 else 0) s
def execCput (d : CBit) (a : SReg) (ea : Bool) (s : State) :=
  intoC d (fun h => do
    let x ← h.src a ea
    .ok (x.getLsbD 0, 0)) s

end Sys2Proof.Machine
end

