-- ==== Sys2Proof/Machine/ScalarFloat.lean ====
section
/-!
DEFINITION. Scalar floating point (04 R96 to R100).
-/
namespace Sys2Proof.Machine

/-- The mode FRM holds (04 R97). -/
def Hart.mode (h : Hart) : RMode := RMode.ofFrm h.frm

/-- A floating result in a scalar register: f32 with the upper bits zero (04 R96). -/
def fResult (r : Nat × FFlags) : Word × FFlags := (BitVec.ofNat 64 r.1, r.2)

/-- An operation of two floating sources. -/
def float2 (d a b : SReg) (ty : SFltTy) (ea eb : Bool) (f : Fmt → RMode → Nat → Nat → Nat × FFlags) (s : State) :
    Host.Outcome State Fault Refusal :=
  binary d a b ea eb (fun h x y => fResult (f (sfltFmt ty) h.mode (fBits ty x) (fBits ty y))) s

def execFadd (d a b : SReg) (ty : SFltTy) (ea eb : Bool) (s : State) := float2 d a b ty ea eb fpAdd s
def execFsub (d a b : SReg) (ty : SFltTy) (ea eb : Bool) (s : State) := float2 d a b ty ea eb fpSub s
def execFmul (d a b : SReg) (ty : SFltTy) (ea eb : Bool) (s : State) := float2 d a b ty ea eb fpMul s
def execFdiv (d a b : SReg) (ty : SFltTy) (ea eb : Bool) (s : State) := float2 d a b ty ea eb fpDiv s
def execFsqrt (d a : SReg) (ty : SFltTy) (ea : Bool) (s : State) :=
  unary d a ea (fun h x => fResult (fpSqrt (sfltFmt ty) h.mode (fBits ty x))) s
def execFmin (d a b : SReg) (ty : SFltTy) (ea eb : Bool) (s : State) :=
  float2 d a b ty ea eb (fun f _ => fpMinMax f false) s
def execFmax (d a b : SReg) (ty : SFltTy) (ea eb : Bool) (s : State) :=
  float2 d a b ty ea eb (fun f _ => fpMinMax f true) s

/-- fma also reads s[d], which no ea bit covers (04 R98). -/
def execFma (d a b : SReg) (ty : SFltTy) (ea eb : Bool) (s : State) :=
  onHart s fun h => do
    let x ← h.src a ea
    let y ← h.src b eb
    let z ← h.src d false
    let r := fResult (fpFused (sfltFmt ty) h.mode false false (fBits ty x) (fBits ty y) (fBits ty z))
    .ok ((h.raise r.2).result d r.1)

/-- Sign injection copies bits and raises no flag (04 R98). -/
def signInject (f : Fmt) (g : Bool → Bool → Bool) (x y : Nat) : Nat × FFlags := (withSign f (g (signOf f x) (signOf f y)) x, 0)

def execFcopys (d a b : SReg) (ty : SFltTy) (ea eb : Bool) (s : State) :=
  float2 d a b ty ea eb (fun f _ => signInject f fun _ y => y) s
def execFcopyn (d a b : SReg) (ty : SFltTy) (ea eb : Bool) (s : State) :=
  float2 d a b ty ea eb (fun f _ => signInject f fun _ y => !y) s
def execFxors (d a b : SReg) (ty : SFltTy) (ea eb : Bool) (s : State) :=
  float2 d a b ty ea eb (fun f _ => signInject f fun x y => x != y) s

/-- Float to a 64-bit integer (04 R100). -/
def floatToWord (signed : Bool) (ty : SFltTy) (mode : RMode) (x : Word) : Word × FFlags :=
  let r := fpToInt signed 64 mode (unpack (sfltFmt ty) (fBits ty x))
  (BitVec.ofInt 64 r.1, r.2)

def execFcvti (d a : SReg) (ty : SFltTy) (ea : Bool) (s : State) :=
  unary d a ea (fun h x => floatToWord true ty h.mode x) s
def execFcvtn (d a : SReg) (ty : SFltTy) (ea : Bool) (s : State) :=
  unary d a ea (fun h x => floatToWord false ty h.mode x) s
def execIcvtf (d a : SReg) (ty : SFltTy) (ea : Bool) (s : State) :=
  unary d a ea (fun h x => fResult (roundF (sfltFmt ty) h.mode (ofInt x.toInt))) s
def execNcvtf (d a : SReg) (ty : SFltTy) (ea : Bool) (s : State) :=
  unary d a ea (fun h x => fResult (roundF (sfltFmt ty) h.mode (ofInt x.toNat))) s

/-- The other of the two scalar types. -/
def otherTy : SFltTy → SFltTy
  | .f32 => .f64
  | .f64 => .f32

/-- A value of one format rounded to another, NV for a signalling NaN (04 R100, 05 R129). -/
def fpConvert (src dst : Fmt) (mode : RMode) (x : Nat) : Nat × FFlags :=
  let v := unpack src x
  let r := roundF dst mode v
  (r.1, r.2 ||| nvIf v.isSnan)

def execFcvtf (d a : SReg) (ty : SFltTy) (ea : Bool) (s : State) :=
  unary d a ea (fun h x => fResult (fpConvert (sfltFmt (otherTy ty)) (sfltFmt ty) h.mode (fBits (otherTy ty) x))) s

end Sys2Proof.Machine
end

