-- ==== Sys2Proof/Machine/Tiles.lean ====
section
/-!
DEFINITION. The hearth at work: nodes, the materialisation area, demand, force and snapshots (17 R347, R348;
18 R351 to R368).
-/
namespace Sys2Proof.Machine

/-! ## Sets of elements: bit 256 i + j stands for element (i, j) -/

structure Rect where
  r0 : Nat
  r1 : Nat
  c0 : Nat
  c1 : Nat
  deriving DecidableEq, Repr

def cellIdx (i j : Nat) : Nat := 256 * i + j

/-- The elements of a rectangle. -/
def rectCells (q : Rect) : VWord :=
  (List.range (q.r1 + 1 - q.r0)).foldl
    (fun b i => b ||| (BitVec.ofNat 65536 (2 ^ (q.c1 + 1 - q.c0) - 1) <<< cellIdx (q.r0 + i) q.c0)) 0

/-- The elements of a set within a shape, row by row. -/
def cellsOf (b : VWord) (rows cols : Nat) : List (Nat × Nat) :=
  (List.range rows).flatMap fun i => ((List.range cols).filter fun j => b.getLsbD (cellIdx i j)).map fun j => (i, j)

/-- The bounding rectangle of some elements. -/
def bounds : List (Nat × Nat) → Option Rect
  | [] => none
  | (i, j) :: l =>
    some (l.foldl (fun q p => { r0 := min q.r0 p.1, r1 := max q.r1 p.1, c0 := min q.c0 p.2, c1 := max q.c1 p.2 })
      { r0 := i, r1 := i, c0 := j, c1 := j })

/-- A set as one rectangle, or element by element (18 R363). -/
def rectsOf (l : List (Nat × Nat)) : List Rect :=
  match bounds l with
  | none => []
  | some q =>
    if l.length = (q.r1 + 1 - q.r0) * (q.c1 + 1 - q.c0) then [q]
    else l.map fun p => { r0 := p.1, r1 := p.1, c0 := p.2, c1 := p.2 }

/-! ## Nodes (18 R351 to R353) -/

/-- The format of a type code that is no block type (17 R347). -/
def tileFmt (ty : BitVec 8) : Option Fmt := if ty = 0x80 then some fmtF32 else if ty = 0x81 then some fmtBF16 else none
/-- The bytes of an element, 64 for block types. -/
def tileUnit (ty : BitVec 8) : Nat := if ty = 0x80 then 4 else if ty = 0x81 then 2 else 64
/-- Types that a leaf or a conversion may have (18 R358). -/
def tileType (ty : Nat) : Bool := (0x02 ≤ ty && ty ≤ 0x08) || ty == 0x80 || ty == 0x81
/-- The bytes of one row (18 R354, R357). -/
def rowBytes (ty : BitVec 8) (cols : Nat) : Nat :=
  if tileUnit ty = 64 then (cols + bfpK ty.toNat - 1) / bfpK ty.toNat * 64 else cols * tileUnit ty
/-- The allocation of a node in 64-byte units (18 R354). -/
def Node.units (n : Node) : Nat := (n.rows * rowBytes n.ty n.cols + 63) / 64

def Node.full (n : Node) : VWord := rectCells { r0 := 0, r1 := n.rows - 1, c0 := 0, c1 := n.cols - 1 }
/-- Elements materialised, or read for a leaf. -/
def Node.count (n : Node) : Nat := (cellsOf n.made n.rows n.cols).length
/-- The row stride of a leaf (17 R347). -/
def Node.stride (n : Node) : Nat := bitsOf n.in1 47 24

/-- A consumer in state suspended or partly materialised (18 R351). -/
def Node.waits (n : Node) : Bool := n.state == .suspended || n.state == .partly
def Node.reads (n : Node) (nid : Nat) : Bool := n.i0 == some nid || n.i1 == some nid

def Hearth.find (t : Hearth) (nid : Nat) : Option (Node × Nat) := t.nodes.find? fun p => p.1.nid == nid
/-- Change a node. -/
def Hearth.update (t : Hearth) (nid : Nat) (f : Node → Node) : Hearth :=
  { t with
    slots := t.slots |> vmap fun o => o.map fun n => if n.nid = nid then f n else n
    ghosts := t.ghosts.map fun p => if p.1.nid = nid then (f p.1, p.2) else p }

/-- Every element of the node is materialised. -/
def Node.whole (n : Node) : Bool := n.count == n.rows * n.cols

/-- A node's state after elements of it were materialised (18 R353). -/
def settle (n : Node) : Node :=
  if n.state = .dropped then n
  else { n with state := if n.whole then .materialised else if n.count = 0 then .suspended else .partly }

/-- A dropped node has a consumer that may still be demanded. -/
def Hearth.wanted (t : Hearth) (nid : Nat) : Bool := t.nodes.any fun c => c.1.state == .dropped && c.1.reads nid

/-- Free the dropped nodes without a suspended consumer, once (18 R353). DESIGN CHOICE (log 36): a freed node that a
dropped consumer may still demand is kept without slot and allocation, to be made anew. -/
def Hearth.sweep (t : Hearth) : Hearth :=
  let l := t.inSlots
  if l.any fun p => p.1.state == .dropped then
    let gone := l.filter fun p => p.1.state == .dropped && !l.any fun c => c.1.waits && c.1.reads p.1.nid
    { t with
      slots := t.slots |> vmap fun o =>
        match o with
        | some n => if gone.any (fun p => p.1.nid == n.nid) then none else some n
        | none => none
      ghosts := t.ghosts ++ (gone.filter fun p => t.wanted p.1.nid).map fun p =>
        ({ p.1 with alloc := none, made := 0, heads := [] }, p.2) }
  else t

/-- Forget the nodes without a slot that no consumer reads (18 R361): none in a slot, and none of these nodes that may
itself still be made (18 R364). -/
def Hearth.forget (t : Hearth) : Hearth :=
  { t with ghosts := t.ghosts.filter fun g =>
      t.inSlots.any (fun c => c.1.reads g.1.nid) || t.ghosts.any fun c => !c.1.whole && c.1.reads g.1.nid }

/-- Free them until none is left, and release the allocation of victims without a consumer (18 R353, R361). -/
def Hearth.tidy (t : Hearth) : Hearth :=
  if t.ghosts = [] ∧ !t.inSlots.any (fun p => p.1.state == .dropped) then t
  else (List.range 64).foldl (fun t _ => t.sweep.forget) t

def Hart.withHearth (h : Hart) (f : Hearth → Hearth) : Hart := { h with hearth := f h.hearth }
def State.withHearth (s : State) (f : Hearth → Hearth) : State := { s with hart := s.hart.withHearth f }

/-- Exit and halt free every slot (18 R374). -/
def Hearth.cleared (t : Hearth) : Hearth := { t with slots := Vector.replicate 64 none, ghosts := [] }

/-! ## The area (18 R354, R355) -/

/-- Allocations in ascending order: offset and units. -/
def Hearth.allocations (t : Hearth) : List (Nat × Nat) :=
  sortBy (fun a b => a.1 ≤ b.1) (t.nodes.filterMap fun p => p.1.alloc.map fun o => (o, p.1.units))

/-- The lowest offset at which some units fit (18 R354). -/
def fitFrom (units : Nat) : Nat → List (Nat × Nat) → Nat
  | lo, [] => lo
  | lo, (o, n) :: r => if lo + units ≤ o then lo else fitFrom units (max lo (o + n)) r

/-- Work on the hearth: a trap keeps the state given with it. -/
abbrev TileM (α : Type) := Except (Trap × State) α

/-- A late fault (17 R348). -/
def lateTrap (slot : Nat) (n : Node) (i j : Nat) (sub : BitVec 8) : Trap :=
  { cause := 0x31, sub := sub, addr := BitVec.ofNat 64 i, node := BitVec.ofNat 7 (64 + slot % 64), npc := n.cpc,
    counts := [j] }

/-- Give a node its allocation (18 R354): cause 0x30 when it does not fit. -/
def allocate (s : State) (nid : Nat) : Except Trap State :=
  match s.hart.hearth.find nid with
  | none => .ok s
  | some (n, k) =>
    if n.alloc.isSome then .ok s
    else
      let o := fitFrom n.units 0 s.hart.hearth.allocations
      if 64 * (o + n.units) ≤ areaBytes s.hart then .ok (s.withHearth fun t => t.update nid fun m => { m with alloc := some o })
      else .error { cause := 0x30, node := BitVec.ofNat 7 (64 + k) }

/-- The address of element (i, j) in the area, or of its block. DESIGN CHOICE (log 18): rows of elements or blocks one
after the other, in the types' own formats. -/
def areaAddr (h : Hart) (n : Node) (i j : Nat) : Word :=
  areaBase h + BitVec.ofNat 64 (64 * n.alloc.getD 0 + i * rowBytes n.ty n.cols +
    (if tileUnit n.ty = 64 then j / bfpK n.ty.toNat * 64 else j * tileUnit n.ty))

/-- The raw form of an element: its bits, or for a block its header word and above it its mantissa's pattern. -/
def blockRaw (b : Nat) (w j : Nat) : Nat := b % 2 ^ 32 + 2 ^ 32 * (b / 2 ^ (32 + w * (j % bfpK w)) % 2 ^ w)

/-- The bytes of a block that hold its element j: first and number. -/
def mantissaBytes (w j : Nat) : Nat × Nat :=
  let lo := w * (j % bfpK w)
  (4 + lo / 8, (lo + w - 1) / 8 - lo / 8 + 1)

/-- Read element (i, j) from the area. -/
def areaRead (s : State) (n : Node) (i j : Nat) : Except (BitVec 8) Nat :=
  let unit := tileUnit n.ty
  match translate s s.hart.agent .read (areaAddr s.hart n i j) with
  | .error c => .error c
  | .ok p =>
    match readFault s p.pa unit with
    | some c => .error c
    | none =>
      let x := s.mem.readLe p.pa unit
      if unit ≠ 64 then .ok x
      else
        let w := n.ty.toNat
        let g := j / bfpK w
        let last := n.heads.find? fun q => q.1 / 256 == i && q.1 % 256 / bfpK w == g
        match n.heads.find? (fun q => q.1 == cellIdx i j), last with
        | some q, some l =>
          if l.2.toNat = x % 2 ^ 32 then .ok (blockRaw (x / 2 ^ 32 * 2 ^ 32 + q.2.toNat) w j) else .ok (blockRaw x w j)
        | _, _ => .ok (blockRaw x w j)

/-- Write element (i, j) to the area: the state's memory, and the node's note of the header. -/
def areaWrite (s : State) (n : Node) (i j raw : Nat) : Except (BitVec 8) State :=
  let unit := tileUnit n.ty
  let va := areaAddr s.hart n i j
  match translate s s.hart.agent .write va with
  | .error c => .error c
  | .ok p =>
    let s1 := tlbFill s s.hart.agent va p.leaf
    if unit ≠ 64 then .ok (s1.storeLe p.pa unit raw)
    else
      let w := n.ty.toNat
      let pos := 32 + w * (j % bfpK w)
      let x := s.mem.readLe p.pa 64
      let y := x - x % 2 ^ 32 - x / 2 ^ pos % 2 ^ w * 2 ^ pos + raw % 2 ^ 32 + raw / 2 ^ 32 * 2 ^ pos
      let s2 := s1.storeLe p.pa 64 y
      .ok (if n.op = .leaf then
        s2.withHearth fun t => t.update n.nid fun m =>
          { m with heads := (cellIdx i j, BitVec.ofNat 32 raw) :: m.heads.filter fun q => q.1 != cellIdx i j }
      else s2)

/-! ## Element values (18 R359, R360) -/

/-- The value of a raw element of a type; an invalid block gives cause 0x13 (18 R367). -/
def tileVal (ty : BitVec 8) (raw : Nat) : Except (BitVec 8) FVal :=
  match tileFmt ty with
  | some f => .ok (unpack f raw)
  | none =>
    let code := raw % 256
    let m := toSigned ty.toNat (raw / 2 ^ 32)
    if code = 0x20 then .ok (.fin false 0 0)
    else if code ≠ ty.toNat then .error 0x13
    else .ok (if m = 0 then .fin false 0 0 else (mulX (ofInt m) (scaleVal (raw / 2 ^ 16 % 2 ^ 16))).1)

/-- The largest or smallest of some values, NaNs set aside, −0 below +0 (04 R99, 06 R157). -/
def pickVal (isMax : Bool) (l : List FVal) : FVal × FFlags :=
  let g := nvIf (l.any FVal.isSnan)
  let below (x y : FVal) : Bool :=
    match cmpVal x y with
    | .lt => true
    | .gt => false
    | .eq => x.sign && !y.sign
  match l.filter (fun v => !v.isNan) with
  | [] => (.nan false, g)
  | v :: r => (r.foldl (fun a x => if isMax then (if below a x then x else a) else (if below x a then x else a)) v, g)

/-- A value rounded to a type with the flags of the operation before it. -/
def roundWith (f : Fmt) (mode : RMode) (r : FVal × FFlags) : Nat × FFlags :=
  let q := roundF f mode r.1
  (q.1, q.2 ||| r.2)

/-- Read a leaf's element from memory (18 R359). -/
def leafAccess (s : State) (n : Node) (i j : Nat) : Except (BitVec 8) (Nat × State) :=
  let row := n.in0 + BitVec.ofNat 64 (i * n.stride)
  let unit := tileUnit n.ty
  let w := n.ty.toNat
  let va := row + BitVec.ofNat 64 (if unit = 64 then 64 * (j / bfpK w) else unit * j)
  match translate s s.hart.agent .read va with
  | .error c => .error c
  | .ok p =>
    let s1 := tlbFill s s.hart.agent va p.leaf
    if unit ≠ 64 then
      match readFault s p.pa unit with
      | some c => .error c
      | none => .ok (s.mem.readLe p.pa unit, s1)
    else
      let b := readBlock s.mem p.pa
      match readFault s p.pa 4 with
      | some c => .error c
      | none =>
        match checkBlock b (fun c => c == w) with
        | some c => .error c
        | none =>
          let mb := mantissaBytes w j
          if blkCode b = 0x20 then .ok (0x20, s1)
          else
            match readFault s (p.pa + mb.1) mb.2 with
            | some c => .error c
            | none => .ok (blockRaw b.toNat w j, s1)

/-- A leaf's element: as a reading before the force has found it, or read now (13 R269; 18 R370). -/
def leafRead (s : State) (n : Node) (i j : Nat) : Except (BitVec 8) (Nat × State) :=
  match n.early.find? fun q => q.1 == cellIdx i j with
  | some q => .ok (q.2, s)
  | none => leafAccess s n i j

/-- What a force has made so far: raw elements by node and element. -/
abbrev Made := List (Nat × List (Nat × Nat))

def madeGet (m : Made) (nid idx : Nat) : Option Nat :=
  match m.find? (fun p => p.1 == nid) with
  | none => none
  | some p => (p.2.find? fun q => q.1 == idx).map (·.2)
def madePut (m : Made) (nid idx x : Nat) : Made :=
  if m.any (fun p => p.1 == nid) then m.map fun p => if p.1 = nid then (nid, (idx, x) :: p.2) else p
  else (nid, [(idx, x)]) :: m

/-- A fault met, with the node's number, the element and the node (17 R348). -/
structure TileFault where
  slot : Nat
  i : Nat
  j : Nat
  node : Node
  cause : BitVec 8
  deriving DecidableEq, Repr

/-- Why an element could not be computed: causes of its own, and faults at elements it reads from the area (18 R355);
none where inputs could not be made. -/
structure Missing where
  own : List (BitVec 8) := []
  reads : List TileFault := []
  deriving DecidableEq, Repr

/-- A cause of the element's own. -/
def Missing.cause (c : BitVec 8) : Missing := { own := [c] }

/-- Two inputs: what is missing of both is missing (17 R348). -/
def bothOf {α β : Type} : Except Missing α → Except Missing β → Except Missing (α × β)
  | .ok x, .ok y => .ok (x, y)
  | .error a, .error b => .error { own := a.own ++ b.own, reads := a.reads ++ b.reads }
  | .error a, _ | _, .error a => .error a

/-- Several inputs: what is missing of any is missing. -/
def allOf {α : Type} : List (Except Missing α) → Except Missing (List α)
  | [] => .ok []
  | x :: r => (bothOf x (allOf r)).map fun p => p.1 :: p.2

/-- An input's raw element: made by this force, or materialised before and read from the area. -/
def inputRaw (s : State) (m : Made) (n : Node × Nat) (i j : Nat) : Except Missing Nat :=
  match madeGet m n.1.nid (cellIdx i j) with
  | some x => .ok x
  | none =>
    if n.1.made.getLsbD (cellIdx i j) then
      match areaRead s n.1 i j with
      | .ok x => .ok x
      | .error c => .error { reads := [{ slot := n.2, i := i, j := j, node := n.1, cause := c }] }
    else .error {}

def inputVal (s : State) (m : Made) (n : Node × Nat) (i j : Nat) : Except Missing FVal := do
  let x ← inputRaw s m n i j
  match tileVal n.1.ty x with
  | .ok v => .ok v
  | .error c => .error (.cause c)

/-- The affine map's image of (i, j) (17 R347). -/
def affine (w : Word) (i j : Nat) : Int × Int :=
  let f (hi lo : Nat) : Int := toSigned (hi + 1 - lo) (bitsOf w hi lo)
  (f 19 16 * i + f 23 20 * j + f 40 32, f 27 24 * i + f 31 28 * j + f 49 41)

/-- A value as an index below a bound (18 R362). -/
def asIndex (v : FVal) (bound : Nat) : Option Nat :=
  match v with
  | .fin n m e =>
    let z := roundInt .rtz (.fin n m e)
    if z.2 ∧ 0 ≤ z.1 ∧ z.1 < bound then some z.1.toNat else none
  | _ => none

/-- tl.mm's element (18 R360): the products of each block of K are summed to a term, the terms are accumulated. -/
def mmElement (s : State) (m : Made) (n : Node) (a b : Node × Nat) (i j : Nat) : Except Missing Nat := do
  let kw := bfpK a.1.ty.toNat
  let ps ← allOf ((List.range a.1.cols).map fun k => bothOf (inputVal s m a i k) (inputVal s m b k j))
  let mode : RMode := if n.rm then .rtz else .rne
  .ok ((List.range ((a.1.cols + kw - 1) / kw)).foldl (fun acc kb =>
    let products := ((ps.drop (kb * kw)).take kw).map fun p => (mulX p.1 p.2).1
    let term := (roundF fmtF32 .rne (exactSum .rne products).1).1
    (roundF fmtF32 mode (exactSum mode [unpack fmtF32 acc, unpack fmtF32 term]).1).1) 0)

/-- The element of an input that a map names (18 R360, R362). -/
def mapSource (s : State) (m : Made) (n : Node) (a : Node × Nat) (index : Option (Node × Nat)) (i j : Nat) :
    Except Missing (Nat × Nat) :=
  match index with
  | none =>
    let q := affine n.param i j
    .ok (q.1.toNat, q.2.toNat)
  | some x => do
    let v ← inputVal s m x i 0
    match asIndex v a.1.rows with
    | some r => .ok (r, j)
    | none => .error (.cause 0x32)

/-- The raw element (i, j) of a computed node and its flags (18 R360). -/
def computeElement (s : State) (m : Made) (n : Node) (i j : Nat) : Except Missing (Nat × FFlags) :=
  let t := s.hart.hearth
  let inp (o : Option Nat) : Except Missing (Node × Nat) :=
    match o.bind t.find with
    | some p => .ok p
    | none => .error {}
  let mode := RMode.ofFrm n.frm
  match n.op with
  | .leaf => .error {}
  | .mm => do
    let a ← inp n.i0
    let b ← inp n.i1
    let x ← mmElement s m n a b i j
    .ok (x, 0)
  | .ew op => do
    let a ← inp n.i0
    let b ← inp n.i1
    let (x, y) ← bothOf (inputVal s m a i j) (inputVal s m b i j)
    .ok (roundWith fmtF32 mode
      (match op with
       | .add => addX mode x y
       | .sub => addX mode x y.neg
       | .mul => mulX x y
       | .max => pickVal true [x, y]
       | .min => pickVal false [x, y]))
  | .map indirect => do
    let a ← inp n.i0
    let index ← (if indirect then (inp n.i1).map some else .ok none)
    let (r, c) ← mapSource s m n a index i j
    match tileFmt a.1.ty with
    | some _ => do
      let x ← inputRaw s m a r c
      .ok (x, 0)
    | none => do
      let v ← inputVal s m a r c
      let q := roundF fmtF32 mode v
      .ok (q.1, if q.2 &&& fOF = 0 then 0 else q.2)
  | .red op col => do
    let a ← inp n.i0
    let l ← allOf (if col then (List.range a.1.rows).map fun r => inputVal s m a r j
      else (List.range a.1.cols).map fun c => inputVal s m a i c)
    let picked (r : FVal × FFlags) : Nat × FFlags := ((roundF fmtF32 mode r.1).1, r.2)
    .ok (match op with
      | .sum => roundWith fmtF32 mode (exactSum mode l)
      | .max => picked (pickVal true l)
      | .min => picked (pickVal false l))
  | .cvt => do
    let a ← inp n.i0
    match tileFmt n.ty with
    | some f => do
      let v ← inputVal s m a i j
      .ok (roundWith f mode (v, nvIf v.isSnan))
    | none => do
      let k := bfpK n.ty.toNat
      let lo := j / k * k
      let l ← allOf ((List.range (min k (n.cols - lo))).map fun c => inputVal s m a i (lo + c))
      let b := packBlock n.ty.toNat l
      .ok (blockRaw b.1.toNat n.ty.toNat j, b.2)

/-! ## Demand (18 R363) -/

/-- The demand a rectangle passes to the inputs: first (false) or second (true). An indirect map's is made apart. -/
def passOn (t : Hearth) (n : Node) (q : Rect) : List (Nat × VWord) :=
  let inp (o : Option Nat) (f : Node → Rect) : List (Nat × VWord) :=
    match o.bind t.find with
    | some p => [(p.1.nid, rectCells (f p.1))]
    | none => []
  match n.op with
  | .leaf => []
  | .mm => inp n.i0 (fun a => { r0 := q.r0, r1 := q.r1, c0 := 0, c1 := a.cols - 1 }) ++
    inp n.i1 (fun b => { r0 := 0, r1 := b.rows - 1, c0 := q.c0, c1 := q.c1 })
  | .ew _ => inp n.i0 (fun _ => q) ++ inp n.i1 (fun _ => q)
  | .map false =>
    let ps := [affine n.param q.r0 q.c0, affine n.param q.r0 q.c1, affine n.param q.r1 q.c0, affine n.param q.r1 q.c1]
    match bounds (ps.map fun p => (p.1.toNat, p.2.toNat)) with
    | some b => inp n.i0 (fun _ => b)
    | none => []
  | .map true => []
  | .red _ false => inp n.i0 (fun a => { r0 := q.r0, r1 := q.r1, c0 := 0, c1 := a.cols - 1 })
  | .red _ true => inp n.i0 (fun a => { r0 := 0, r1 := a.rows - 1, c0 := q.c0, c1 := q.c1 })
  | .cvt => inp n.i0 (fun _ => q)

/-- Whole column groups for a conversion to blocks (18 R363). -/
def widen (n : Node) (b : VWord) : VWord :=
  if n.op = .cvt ∧ (tileFmt n.ty).isNone then
    let k := bfpK n.ty.toNat
    ((cellsOf b n.rows n.cols).map fun p => (p.1, p.2 / k)).eraseDups.foldl (fun b p =>
      b ||| rectCells { r0 := p.1, r1 := p.1, c0 := k * p.2, c1 := min (k * p.2 + k) n.cols - 1 }) b
  else b

/-- A demand on each of some nodes. -/
abbrev Demand := List (Nat × VWord)
def demandAdd (d : Demand) (p : Nat × VWord) : Demand :=
  if d.any (fun q => q.1 == p.1) then d.map fun q => if q.1 = p.1 then (q.1, q.2 ||| p.2) else q else p :: d

/-- The rows of a set, with the elements of each. -/
def rowsOf (b : VWord) (rows cols : Nat) : List (Nat × VWord) :=
  (List.range rows).filterMap fun i =>
    let r := b &&& rectCells { r0 := i, r1 := i, c0 := 0, c1 := cols - 1 }
    if r = 0 then none else some (i, r)

/-- A row of elements as the same columns of another row. -/
def moveRow (b : VWord) (i r : Nat) : VWord := b >>> (256 * i) <<< (256 * r)

/-- The demand an indirect map passes on (18 R363): the index elements of the rows demanded, and in the input the rows
that they name. `m` holds index elements made for this; a row whose index cannot be had passes nothing on, and its
elements fault when they are computed. -/
def passIndirect (s : State) (m : Made) (a x : Node × Nat) (rows : List (Nat × VWord)) : Demand :=
  rows.flatMap fun q =>
    (x.1.nid, rectCells { r0 := q.1, r1 := q.1, c0 := 0, c1 := 0 }) ::
      (match inputVal s m x q.1 0 with
       | .error _ => []
       | .ok v =>
         match asIndex v a.1.rows with
         | none => []
         | some r => [(a.1.nid, moveRow q.2 q.1 r)])

/-- One node's turn: its own demand without what is materialised, and what it passes on. `eval` makes elements of the
index node of an indirect map, which come first (18 R363). -/
def demandNode (eval : Nat → VWord → Made) (s : State) (d : Demand) (nid : Nat) : Demand :=
  match d.find? (fun q => q.1 == nid), s.hart.hearth.find nid with
  | some q, some (n, _) =>
    let b := widen n q.2 &&& ~~~n.made
    let d := d.map fun q => if q.1 = nid then (nid, b) else q
    let more := match n.op with
      | .map true =>
        match n.i0.bind s.hart.hearth.find, n.i1.bind s.hart.hearth.find with
        | some a, some x =>
          let rows := rowsOf b n.rows n.cols
          let cells := rows.foldl (fun c (r : Nat × VWord) => c ||| rectCells { r0 := r.1, r1 := r.1, c0 := 0, c1 := 0 }) 0
          passIndirect s (eval x.1.nid cells) a x rows
        | _, _ => []
      | _ => (rectsOf (cellsOf b n.rows n.cols)).flatMap fun q => passOn s.hart.hearth n q
    more.foldl demandAdd d
  | _, _ => d

/-- The nodes' identities, latest appended first: consumers come before their inputs. -/
def Hearth.order (t : Hearth) : List Nat := sortBy (fun a b => b ≤ a) (t.nodes.map fun p => p.1.nid)

/-- Everything some demands reach, without what is materialised: nodes with their numbers and elements, inputs first. -/
def reached (eval : Nat → VWord → Made) (s : State) (roots : Demand) : List (Node × Nat × VWord) :=
  let order := s.hart.hearth.order
  let d := order.foldl (demandNode eval s) roots
  (order.reverse.filterMap s.hart.hearth.find).filterMap fun p =>
    (d.find? fun q => q.1 == p.1.nid && q.2 != 0).map fun q => (p.1, p.2, q.2)

/-! ## Force (18 R364) -/

/-- The fault that is reported (17 R348): the lowest node, row and column. -/
def firstFault : List TileFault → Option TileFault
  | [] => none
  | f :: r =>
    match firstFault r with
    | none => some f
    | some g => if 65536 * f.slot + cellIdx f.i f.j ≤ 65536 * g.slot + cellIdx g.i g.j then some f else some g

/-- The trap of a fault. -/
def TileFault.trap (f : TileFault) : Trap := lateTrap f.slot f.node f.i f.j f.cause

/-- What a force has found: what it made, its faults and flags; `at'` is the state, whose translation cache alone has
changed. -/
structure Making where
  at' : State
  made : Made := []
  faults : List TileFault := []
  flags : FFlags := 0
  deriving DecidableEq, Repr

/-- Read the demanded elements of a leaf. -/
def readLeaf (x : Making) (p : Node × Nat × VWord) : Making :=
  (cellsOf p.2.2 p.1.rows p.1.cols).foldl (fun x c =>
    match leafRead x.at' p.1 c.1 c.2 with
    | .error e => { x with faults := { slot := p.2.1, i := c.1, j := c.2, node := p.1, cause := e } :: x.faults }
    | .ok (v, s) => { x with at' := s, made := madePut x.made p.1.nid (cellIdx c.1 c.2) v }) x

/-- Compute the demanded elements of a node. -/
def computeNode (x : Making) (p : Node × Nat × VWord) : Making :=
  (cellsOf p.2.2 p.1.rows p.1.cols).foldl (fun x c =>
    match computeElement x.at' x.made p.1 c.1 c.2 with
    | .ok (v, g) => { x with made := madePut x.made p.1.nid (cellIdx c.1 c.2) v, flags := x.flags ||| g }
    | .error e =>
      let own := e.own.map fun k => { slot := p.2.1, i := c.1, j := c.2, node := p.1, cause := k : TileFault }
      { x with faults := own ++ e.reads ++ x.faults }) x

/-- Read every leaf element demanded, and compute the others after their inputs. -/
def makeAll (s : State) (l : List (Node × Nat × VWord)) : Making :=
  let isLeaf (p : Node × Nat × VWord) : Bool := p.1.op == .leaf
  (l.filter fun p => !isLeaf p).foldl computeNode ((l.filter isLeaf).foldl readLeaf { at' := s })

/-- Elements made without being kept: an indirect map's indices, nested as deep as the chain of such maps. -/
def evalCells : Nat → State → Nat → VWord → Made
  | 0, _, _, _ => []
  | k + 1, s, nid, cells => (makeAll s (reached (evalCells k s) s [(nid, cells)])).made

/-- What some demands reach. -/
def demandsOf (s : State) (roots : Demand) : List (Node × Nat × VWord) :=
  reached (evalCells (s.hart.hearth.nodes.length + 1) s) s roots

/-- Allocate for every node listed, ascending by slot (18 R354). -/
def allocateAll (s : State) (l : List (Node × Nat × VWord)) : TileM State :=
  match (sortBy (fun a b => a.2.1 ≤ b.2.1) l).foldlM (fun s p => allocate s p.1.nid) s with
  | .ok t => .ok t
  | .error t => .error (t, s)

/-- Place the elements of a node that were made in the area; what could not be written faults (18 R355). -/
def placeNode (m : Made) (acc : State × List TileFault) (p : Node × Nat × VWord) : State × List TileFault :=
  (cellsOf p.2.2 p.1.rows p.1.cols).foldl (fun acc c =>
    match madeGet m p.1.nid (cellIdx c.1 c.2), acc.1.hart.hearth.find p.1.nid with
    | some v, some n =>
      match areaWrite acc.1 n.1 c.1 c.2 v with
      | .error e => (acc.1, { slot := p.2.1, i := c.1, j := c.2, node := p.1, cause := e } :: acc.2)
      | .ok s => (s.withHearth fun t => t.update p.1.nid fun y =>
          { y with made := y.made ||| (1#65536 <<< cellIdx c.1 c.2) }, acc.2)
    | _, _ => acc) acc

/-- The nodes' states after a force. -/
def State.settled (s : State) (l : List (Node × Nat × VWord)) : State :=
  (s.withHearth fun t => l.foldl (fun t p => t.update p.1.nid settle) t).withHearth Hearth.tidy

/-- What a force leaves: everything it made, or, should its instruction trap later, its leaf reads and allocations alone
(18 R364, R367); and how many of the leaves were snapshotted. -/
structure Forced where
  done : State
  kept : State
  snaps : Nat
  deriving DecidableEq, Repr

/-- The elements of leaves that are read after what a force demands, each leaf whole (18 R368). -/
def leavesAfter (s : State) (d : List (Node × Nat × VWord)) (leaves : List Nat) : List (Node × Nat × VWord) :=
  (leaves.filterMap s.hart.hearth.find).filterMap fun p =>
    let taken := ((d.find? fun q => q.1.nid == p.1.nid).map (·.2.2)).getD 0
    let rest := p.1.full &&& ~~~(p.1.made ||| taken)
    if rest = 0 then none else some (p.1, p.2, rest)

/-- A force (18 R364): allocate for all that is demanded, read and compute it, then read `leaves` whole, one leaf after
the other until one faults (18 R369, R373); place it in the area. A fault keeps the leaf elements read, and the
allocations. -/
def force (s : State) (roots : Demand) (leaves : List Nat) : TileM Forced := do
  let d := demandsOf s roots
  let late := leavesAfter s d leaves
  let s1 ← allocateAll s (d ++ late)
  let x := makeAll s1 d
  let y := late.foldl (fun x p => if x.faults = [] then readLeaf x p else x) x
  let all := d ++ late
  let isLeaf (p : Node × Nat × VWord) : Bool := p.1.op == .leaf
  let kept := (all.filter isLeaf).foldl (placeNode y.made) (y.at', y.faults)
  match firstFault kept.2 with
  | some f => .error (f.trap, kept.1.settled all)
  | none =>
    let full := (d.filter fun p => !isLeaf p).foldl (placeNode y.made) (kept.1, [])
    match firstFault full.2 with
    | some f => .error (f.trap, kept.1.settled all)
    | none =>
      let t := full.1.settled all
      .ok { done := { t with hart := t.hart.raise y.flags }, kept := kept.1.settled all, snaps := late.length }

/-- Work of a tile instruction on the hearth: the elements it demands, and the leaves it reads whole after them. -/
structure TileWork where
  roots : Demand := []
  leaves : List Nat := []
  deriving DecidableEq, Repr

/-- The elements among some reached that a list names, by node, row and column. -/
def chosenCells (all : List (Node × Nat × VWord)) (l : List (Nat × Nat × Nat)) : Demand :=
  all.map fun p =>
    (p.1.nid, (l.foldl (fun (b : VWord) q => if q.1 = p.1.nid then b ||| (1#65536 <<< cellIdx q.2.1 q.2.2) else b) 0) &&& p.2.2)

/-- Allocations that no element fills and that an earlier hearth had not are released. -/
def Hearth.releaseIdle (t old : Hearth) : Hearth :=
  let f (n : Node) : Node :=
    if n.made = 0 ∧ !(old.find n.nid).any (fun p => p.1.alloc.isSome) then { n with alloc := none } else n
  { t with slots := t.slots |> vmap (fun o => o.map f), ghosts := t.ghosts.map fun p => (f p.1, p.2) }

/-- A tile instruction is abandoned after it has made some elements (18 R374): `l` names them, and what they need is made
before them. They are kept as a force keeps them; DEDUCED (log 85): allocations made for others are released. None where
the instruction has no room for what it demands, or one of these elements faults. -/
def abandonTile (s : State) (w : TileWork) (l : List (Nat × Nat × Nat)) : Option State :=
  let reach := demandsOf s w.roots
  let all := reach ++ leavesAfter s reach w.leaves
  match allocateAll s all with
  | .error _ => none
  | .ok s1 =>
    let d := demandsOf s1 (chosenCells all l)
    let x := makeAll s1 d
    let full := d.foldl (placeNode x.made) (x.at', x.faults)
    if full.2 ≠ [] then none
    else
      let t := (full.1.settled d).withHearth fun t => t.releaseIdle s.hart.hearth
      some { t with hart := t.hart.raise x.flags }

/-- Force some elements of a node. -/
def forceCells (s : State) (nid : Nat) (cells : VWord) : TileM State := (force s [(nid, cells)] []).map (·.done)

/-- A leaf's element is read before it is demanded, at a moment chosen from outside (13 R269; 18 R370): none where it is
read already, is no element of a leaf, or cannot be read. -/
def readEarly (s : State) (k i j : Nat) : Option State :=
  match s.hart.hearth.slots.toList.getD k none with
  | none => none
  | some n =>
    if n.op != .leaf || n.rows ≤ i || n.cols ≤ j || n.made.getLsbD (cellIdx i j) ||
        n.early.any (fun q => q.1 == cellIdx i j) then none
    else
      match leafAccess s n i j with
      | .error _ => none
      | .ok (v, t) => some (t.withHearth fun h => h.update n.nid fun m => { m with early := (cellIdx i j, v) :: m.early })

/-! ## Footprints and snapshots (18 R357, R368) -/

/-- A leaf that is live: its slot is not free and an element is not yet read. -/
def Node.live (n : Node) : Bool := n.op == .leaf && !n.whole

/-- The rows of a leaf's footprint: first address and length (18 R357). -/
def Node.rowsAt (n : Node) : List (Word × Nat) :=
  (List.range n.rows).map fun i => (n.in0 + BitVec.ofNat 64 (i * n.stride), rowBytes n.ty n.cols)

/-- The pieces of a range of n bytes within 4 KiB pages: each with its first address and length. -/
def pagePieces : Nat → Word → Nat → List (Word × Nat)
  | 0, _, _ => []
  | fuel + 1, va, n =>
    if n = 0 then []
    else
      let k := min n (4096 - va.toNat % 4096)
      (va, k) :: pagePieces fuel (va + BitVec.ofNat 64 k) (n - k)

/-- The pieces of a range. -/
def pagesOf (va : Word) (n : Nat) : List (Word × Nat) := pagePieces (n / 4096 + 2) va n

/-- The physical footprint of a leaf; a page that is not mapped holds nothing a store could reach. -/
def Node.footprint (s : State) (n : Node) : List (Nat × Nat) :=
  n.rowsAt.flatMap fun r => (pagesOf r.1 r.2).filterMap fun p =>
    match findLeaf s s.hart.agent p.1 with
    | .error _ => none
    | .ok l =>
      match resolve s s.hart.agent l.entry (leafAddr l p.1) with
      | .error _ => none
      | .ok pa => some (pa, p.2)

def rangesMeet (a b : Nat × Nat) : Bool := a.1 < b.1 + b.2 && b.1 < a.1 + a.2

/-- The live leaves that some physical ranges overlap (18 R368). -/
def overlapped (s : State) (l : List (Nat × Nat)) : List Nat :=
  (s.hart.hearth.inSlots.filter fun p => p.1.live && (p.1.footprint s).any fun r => l.any fun q => rangesMeet r q).map
    fun p => p.1.nid

/-- SNAPS counts the leaves snapshotted (18 R356, R368). -/
def State.countSnaps (s : State) (n : Nat) : State := s.withHearth fun t => { t with snaps := t.snaps + n }

/-- Before a store of the hart to some physical ranges: snapshot every live leaf that it overlaps (18 R368). -/
def snapshots (s : State) (l : List (Nat × Nat)) : TileM State :=
  match overlapped s l with
  | [] => .ok s
  | leaves => (force s [] leaves).map fun x => x.done.countSnaps x.snaps

end Sys2Proof.Machine
end

