-- ==== Sys2Proof/Machine/Strip.lean ====
section
/-!
DEFINITION. The hart's own accesses (04 R102 to R105), the strip store buffer with its quench (10 R204 to R209), and
streams (10 R210 to R215).
-/
namespace Sys2Proof.Machine

/-! ## Reads merged with the buffer (10 R208) -/

/-- The latest buffered byte at a place (10 R208). -/
def bufferedByte (l : List SSlot) (pa : Nat) : Option Byte :=
  l.foldl (fun acc x =>
    match x.entry with
    | .store bs => bs.foldl (fun acc p => if p.1 = pa then some p.2 else acc) acc
    | .adds .. => acc) none

/-- The bytes an add kind updates at a place. -/
def AddKind.bytes : AddKind → Nat
  | .int b => b / 8
  | .flt t _ => t.bits / 8

/-- A range overlaps a buffered store, or a buffered update (04 R105, 10 R201). -/
def meetsStores (l : List SSlot) (pa n : Nat) : Bool :=
  l.any fun x =>
    match x.entry with
    | .store bs => bs.any fun p => pa ≤ p.1 && p.1 < pa + n
    | .adds .. => false
def meetsAdds (l : List SSlot) (pa n : Nat) : Bool :=
  l.any fun x =>
    match x.entry with
    | .store _ => false
    | .adds k us => us.any fun u => rangesMeet (u.2.1, k.bytes) (pa, n)
def meetsBuffer (l : List SSlot) (pa n : Nat) : Bool := meetsStores l pa n || meetsAdds l pa n

/-- Read n bytes with the hart's buffered stores merged in (10 R208): the number, or the cause of a bad byte of memory
among those read from it. -/
def mergedRead (s : State) (l : List SSlot) (pa : Nat) : Nat → Except (BitVec 8) Nat
  | 0 => .ok 0
  | n + 1 =>
    match bufferedByte l pa with
    | some b =>
      match mergedRead s l (pa + 1) n with
      | .ok r => .ok (b.toNat + 256 * r)
      | .error c => .error c
    | none =>
      match mergedRead s l (pa + 1) n with
      | .ok r =>
        match readFault s pa 1 with
        | none => .ok ((s.mem.read pa).toNat + 256 * r)
        | some c => .error c
      | .error c =>
        match readFault s pa 1 with
        | some 0x14 => .error 0x14
        | _ => .error c

/-! ## Input elements (10 R212 to R215) -/

/-- The check of a block stream's header (10 R214): check 1 of 08 R185, and the class of TY. DEDUCED (log 88): no other check
of 08 R185, so a compressed block is taken by its class. -/
def headerFault (s : State) (d : StreamDesc) (va : Word) (pa : Nat) : Option ElemFault :=
  match d.block with
  | none => none
  | some w =>
    let b := readBlock s.mem (pa / 64 * 64)
    let at' := va &&& ~~~63
    if blkPoison b then some (0x14, 0, at')
    else if blkCode b = 0x20 ∨ blkCode b = w.val + 2 ∨ blkCode b = w.val + 0x12 then none
    else some (0x13, 0, at')

/-- The next element an input stream fetches: beyond POS and what it holds. -/
def Handle.next (x : Handle) : Nat := x.pos + x.held.length

/-- An input stream may fetch its next element now (10 R212): bound, below the total, no fault held, and the drawbar
above it or of another tag. -/
def mayFetch (s : State) (n : HReg) : Bool :=
  let x := s.hart.handles[n]
  match x.desc with
  | none => false
  | some d =>
    x.bound && !d.output && x.fault.isNone && x.next < d.total &&
      (!d.dbv || (let b := s.drawbar s.hart.die d.db; b.seq != d.seq || x.next < b.hw.toNat))

/-- Read one element of a stream (10 R211, R212, R214). -/
def readElement (s : State) (x : Handle) (d : StreamDesc) (n : Nat) : Except ElemFault (Nat × Option (Nat × Word) × State) :=
  let b := s.drawbar s.hart.die d.db
  if d.dbv ∧ b.seq ≠ d.seq then .error (0x41, 0, b.word)
  else
    match blockOf s x d n with
    | .error f => .error f
    | .ok (blk, s1) =>
      let (va, bit) := elementAt d blk n
      match elementPlaces s1 .read d.width va bit with
      | .error f => .error f
      | .ok ps =>
        let size := if 8 ≤ d.width then d.width / 8 else 1
        match ps.findSome? fun p => (readFault s1 p.2.pa size).map fun c => streamFault c p.1 with
        | some f => .error f
        | none =>
          match ps.head?.bind fun p => headerFault s1 d va p.2.pa with
          | some f => .error f
          | none =>
            let bytes := ps.foldr (fun p acc => s1.mem.readLe p.2.pa size + 256 ^ size * acc) 0
            .ok (bytes / 2 ^ bit % 2 ^ d.width, if d.paged then some (pagedBlock d n, blk) else none,
              tlbFillAll s1 s.hart.agent (ps.map fun p => (p.1, p.2.leaf)))

/-- An input stream fetches its next element, or holds the fault it met (10 R212, R214). DESIGN CHOICE (log 82): the tag
of a linked stream's drawbar is compared at this fetch, and a difference found is held as 0x41 with the word read then;
the spec says which instruction traps, not when the tag is compared. -/
def fetchNext (s : State) (n : HReg) : State :=
  let x := s.hart.handles[n]
  match x.desc with
  | none => s
  | some d =>
    match readElement s x d x.next with
    | .ok (v, blk, s1) => s1.setHandle n { x with held := x.held ++ [v], blk := blk }
    | .error f => s.setHandle n { x with fault := some f }

/-- A trap for a misuse of stream n, which leaves the handle as it is. -/
def streamTrap (n : HReg) (cause sub : BitVec 8) (va : Word) : Stop :=
  .trap { cause := cause, sub := sub, addr := va, hnd := BitVec.ofNat 4 n.val }

/-- A trap for a fault that stream n met: what it concerns is tried again once the trap has been taken (10 R214). -/
def heldTrap (n : HReg) (f : ElemFault) : Stop :=
  .trap { cause := f.1, sub := f.2.1, addr := f.2.2, hnd := BitVec.ofNat 4 n.val, stream := true }

/-- The next elements of an input stream (10 R213 to R215): there, or at the first missing one the total, its fault, or
a wait. -/
def needElements (x : Handle) (n : HReg) (total count : Nat) : Except Stop (List Nat) :=
  if count ≤ x.held.length then .ok (x.held.take count)
  else if total ≤ x.next then .error (streamTrap n 0x40 0x12 0)
  else
    match x.fault with
    | some f => .error (heldTrap n f)
    | none => .error .stall

/-- A handle after some of its elements were taken. -/
def Handle.take (x : Handle) (count : Nat) : Handle := { x with held := x.held.drop count, pos := x.pos + count }

/-! ## Quench and sabort (10 R206) -/

/-- One update of a scatter-add as an indivisible step (10 R201): the state and the flags. -/
def applyAdd (k : AddKind) (acc : State × FFlags) (u : Word × Nat × Nat) : State × FFlags :=
  let s := acc.1
  let n := k.bytes
  let old := s.mem.readLe u.2.1 n
  match k with
  | .int b => (s.storeLe u.2.1 n ((old + u.2.2) % 2 ^ b), acc.2)
  | .flt t m =>
    let r := fpAdd (vfltFmt t) (RMode.ofFrm m) old u.2.2
    (s.storeLe u.2.1 n r.1, acc.2 ||| r.2)

/-- Commit the entries in program order (10 R206, R207). -/
def commitEntries (s : State) (l : List SSlot) : State × FFlags :=
  l.foldl (fun acc x =>
    match x.entry with
    | .store bs => (acc.1.storeBytes bs, acc.2)
    | .adds k us => us.foldl (applyAdd k) acc) (s, 0)

/-- The first update whose location cannot be read (16 R333). -/
def addsFault (s : State) (l : List SSlot) : Option (BitVec 8 × Word) :=
  l.findSome? fun x =>
    match x.entry with
    | .store _ => none
    | .adds k us => us.findSome? fun u => (readFault s u.2.1 k.bytes).map fun c => (c, u.1)

/-- A handle at a quench: the held elements of an output stream are released, POS is checkpointed. -/
def Handle.quenched (x : Handle) : Handle :=
  if x.bound then
    { x with
      released := if (x.desc.map (·.output)).getD false then x.released ++ x.held else x.released
      held := if (x.desc.map (·.output)).getD false then [] else x.held
      ckpt := x.pos }
  else x

/-- What a quench does once nothing stops it, after the elements an earlier one released (10 R206, R207). DESIGN CHOICE
(log 19): the entries are one step; the elements that a quench instruction releases are performed one by one in later
steps, before any later access of the hart, those of an implicit quench at once. -/
def State.commit (s : State) (implicit : Bool) : State :=
  let s0 := s.drainOutputs
  let r := commitEntries s0 s0.hart.buffer
  let h := r.1.hart
  let t := { r.1 with hart := { h.raise r.2 with
      buffer := []
      handles := vmap Handle.quenched h.handles
      qimpl := if implicit then satInc h.qimpl 0xFFFFFFFF else h.qimpl } }
  if implicit then t.drainOutputs else t

/-- The faults that stop a quench, having committed nothing (16 R327, R333; 10 R214). -/
def quenchFault (s : State) : Except Stop Unit :=
  if s.hart.buffer.any (·.bad) then .error (.trap { cause := 0x60, sub := 0x01 })
  else
    match addsFault s s.hart.buffer with
    | some f => trapAt f.1 f.2
    | none =>
      match outputFaults s with
      | some (n, f) => .error (heldTrap n f)
      | none => .ok ()

/-- A quench, explicit or implicit (10 R204, R206): its faults come before a pending cancel (16 R333). -/
def quenchNow (s : State) (implicit : Bool) : Except Stop State := do
  quenchFault s
  if s.hart.cancel then .error .cancel
  .ok (s.commit implicit)

/-- An implicit quench of an instruction of the scalar core: like quench it waits until every earlier vector instruction
has executed (10 R204, R206). -/
def quenchBefore (s : State) : Except Stop State := do
  if s.hart.vq ≠ [] then .error .stall
  quenchNow s true

/-- The effect of sabort (10 R206): POS returns to the last checkpoint. -/
def Hart.abortStrip (h : Hart) : Hart :=
  { h.discardStrip with
    handles := h.handles |> vmap fun x =>
      if x.bound then
        if (x.desc.map (·.output)).getD false then { x with held := [], pos := x.ckpt }
        else if x.pos = x.ckpt then x
        else { x with held := [], pos := x.ckpt, fault := none, blk := none }
      else x }

/-! ## Loads and stores of the hart (04 R102, R105) -/

/-- Turn a cause into a trap with its address. -/
def atAddr {α : Type} (va : Word) : Except (BitVec 8) α → Except Stop α
  | .ok x => .ok x
  | .error c => trapAt c va

/-- Work of the hearth inside an instruction; the trap's state is handled by `keeping`. -/
abbrev KeepM (α : Type) := Except (Stop × State) α

def fromTile {α : Type} : TileM α → KeepM α
  | .ok x => .ok x
  | .error (t, s) => .error (.trap t, s)

/-- A check that leaves the state as it was when it stops. -/
def keeping {α : Type} (s : State) : Except Stop α → KeepM α
  | .ok x => .ok x
  | .error e => .error (e, s)

/-- The outcome of an instruction that may keep part of its work when it stops (18 R364). -/
def finishKeeping (s : State) : KeepM State → Host.Outcome State Fault Refusal
  | .ok s' => .next s'
  | .error (.stall, _) => finish s (.error .stall)
  | .error (e, k) => finish k (.error e)

/-- A scalar load of n bytes at an address (04 R102, R105): a buffered update that overlaps is committed first, and stays
so where the read then faults. -/
def loadValue (s : State) (va : Word) (n : Nat) : KeepM (Nat × State) := do
  let p ← keeping s (atAddr va (ownPlace s s.hart.agent .read va n))
  let s1 ← keeping s (if meetsAdds s.hart.buffer p.pa n then quenchBefore s else .ok s)
  let x ← keeping s1 (atAddr va (mergedRead s1 s1.hart.buffer p.pa n))
  .ok (x, tlbFill s1 s.hart.agent va p.leaf)

/-- Before a store that does not enter the buffer: live leaves are snapshotted, an overlapping buffered store is committed
by `quench` (04 R105, 18 R368). DESIGN CHOICE (log 77): in that order, so the snapshot's faults come first. -/
def preludeWith (quench : State → Except Stop State) (s : State) (l : List (Nat × Nat)) : KeepM State := do
  let s1 ← fromTile (snapshots s l)
  keeping s1 (if l.any (fun r => meetsBuffer s1.hart.buffer r.1 r.2) then quench s1 else .ok s1)

/-- Before a scalar store or atomic. -/
def storePrelude (s : State) (l : List (Nat × Nat)) : KeepM State := preludeWith quenchBefore s l

/-- Before a store of an entry of the vector queue, all earlier ones having executed. -/
def lanePrelude (s : State) (l : List (Nat × Nat)) : KeepM State := preludeWith (fun s => quenchNow s true) s l

/-- A scalar store of n bytes (04 R102, R105). -/
def storeValue (s : State) (va : Word) (n x : Nat) : KeepM State := do
  let p ← keeping s (atAddr va (ownPlace s s.hart.agent .write va n))
  let s1 ← storePrelude s [(p.pa, n)]
  .ok ((tlbFill s1 s.hart.agent va p.leaf).storeLe p.pa n x)

end Sys2Proof.Machine
end

