-- ==== Sys2Proof/Machine/Control.lean ====
section
/-!
DEFINITION. Control transfer and gates (04 R93, R94; 02 R51 to R54).
-/
namespace Sys2Proof.Machine

/-- A signed count of words as a distance. -/
def wordDisp {n : Nat} (x : BitVec n) : Word := x.signExtend 64 <<< 2

/-- The link register (02 R23). -/
def linkReg : SReg := 31

/-- A conditional branch (04 R93). -/
def branch (c : CBit) (sense : Bool) (disp : BitVec 22) (s : State) : Host.Outcome State Fault Refusal :=
  onHart s fun h => .ok (if h.cbit[c] = sense then { h with pc := h.pc + wordDisp disp } else h.advance)

def execBr (c : CBit) (disp : BitVec 22) (s : State) := branch c true disp s
def execBrn (c : CBit) (disp : BitVec 22) (s : State) := branch c false disp s
def execJmp (disp : BitVec 26) (s : State) : Host.Outcome State Fault Refusal :=
  onHart s fun h => .ok { h with pc := h.pc + wordDisp disp }
def execCall (disp : BitVec 26) (s : State) : Host.Outcome State Fault Refusal :=
  onHart s fun h => do
    h.destReady linkReg
    .ok { h.setS linkReg (h.pc + 4) with pc := h.pc + wordDisp disp }

/-- The checks of a target (04 R94). -/
def checkTarget (t : Word) : Except Stop Unit :=
  if bitsOf t 1 0 != 0 then trapAt 0x05 t else if !canonical t then trapAt 0x11 t else .ok ()

def execJmpr (a : SReg) (s : State) : Host.Outcome State Fault Refusal :=
  onHart s fun h => do
    let t ← h.src a false
    checkTarget t
    .ok { h with pc := t }
def execCallr (a : SReg) (s : State) : Host.Outcome State Fault Refusal :=
  onHart s fun h => do
    let t ← h.src a false
    checkTarget t
    h.destReady linkReg
    .ok { h.setS linkReg (h.pc + 4) with pc := t }
def execRet (s : State) : Host.Outcome State Fault Refusal :=
  onHart s fun h => do
    let t ← h.src linkReg false
    checkTarget t
    .ok { h with pc := t }

/-- The instruction words of gret, tret and gate (04 R93, 16 R324). -/
def gretWord : Word := 0x4C000300
def tretWord : Word := 0x54000100

/-- gret (02 R54). -/
def execGret (s : State) : Host.Outcome State Fault Refusal :=
  onHart s fun h => do
    if !h.priv.ga then trapAt 0x03 gretWord
    let t ← h.src linkReg false
    checkTarget t
    .ok { h with
      msel := h.priv.pmsel
      priv := { h.priv with cur := h.priv.ppl, ga := false }
      pc := t }

/-- The hart through a gate entry of 16 bytes, read by a gate of an index (02 R53). -/
def Hart.throughGate (h : Hart) (idx : Word) (x : Nat) : Except Stop Hart := do
  let target : Word := BitVec.ofNat 64 x
  let hi := x / 2 ^ 64
  let level := BitVec.ofNat 2 hi
  if hi / 8 % 2 = 0 ∨ level < h.priv.cur ∨ hi / 16 ≠ 0 then trapAt 0x03 idx
  if bitsOf target 1 0 != 0 then trapAt 0x05 target
  h.destReady linkReg
  .ok { h.setS linkReg (h.pc + 4) with
    priv := { ga := true, ppl := h.priv.cur, pmsel := h.msel, cur := level }
    msel := if hi / 4 % 2 = 1 then 0x0F else h.msel
    pc := target }

/-- gate (02 R52 to R54). TADDR is the index for cause 0x03 (16 R321), the entry's address for a fault of its read and
DEDUCED (log 20) the misaligned TARGET for cause 0x05. -/
def execGate (n : Fin 1024) (s : State) : Host.Outcome State Fault Refusal :=
  finishKeeping s do
    let h := s.hart
    let idx : Word := BitVec.ofNat 64 n.val
    keeping s (if bitsOf h.gatebase 10 0 ≤ n.val then trapAt 0x03 idx else .ok ())
    keeping s (if h.memReady then .ok () else .error .stall)
    let (x, s1) ← loadValue s ((h.gatebase &&& ~~~0xFFF) + BitVec.ofNat 64 (16 * n.val)) 16
    keeping s1 ((s1.hart.throughGate idx x).map fun h => { s1 with hart := h })

end Sys2Proof.Machine
end

