-- ==== Sys2Proof/Machine/Lanes.lean ====
section
/-!
DEFINITION. What the lanes do with an entry of the vector queue: its sources with their empty bits, streams and poison,
its destinations, and how a result is delivered (02 R35 to R37; 05 R114 to R117; 10 R215).
-/
namespace Sys2Proof.Machine

/-- A vector source: its register, its element width in bits, its empty-action bit and the elements it reads. -/
structure Src where
  reg : VReg
  w : Nat
  ea : Bool
  elems : List Nat
  deriving DecidableEq, Repr

/-! ## Streams bound to operands (10 R213 to R215) -/

/-- The handle that binds a register to an input or an output stream. -/
def boundTo (h : Hart) (r : VReg) (output : Bool) : Option HReg :=
  (List.finRange 16).find? fun n =>
    h.handles[n].bound && h.handles[n].reg == some r && (h.handles[n].desc.map (·.output)) == some output

/-- The elements by which a bound register advances its stream: EVL at its width. -/
def strideOf (h : Hart) (e : VEntry) (w : Nat) : Nat := min e.vl (h.vlmax w)

/-- Registers with their widths, each of which that is bound has its stream's width W (10 R214). DEDUCED (log 54): at EVL 0
the width is not judged (05 R116). -/
def checkWidths (h : Hart) (e : VEntry) (output : Bool) : List (VReg × Nat) → Except Stop Unit
  | [] => .ok ()
  | (r, w) :: rest =>
    match boundTo h r output with
    | none => checkWidths h e output rest
    | some n =>
      if strideOf h e w ≠ 0 ∧ (h.handles[n].desc.map (·.width)) ≠ some w then .error (streamTrap n 0x40 0x01 0)
      else checkWidths h e output rest

/-- Fill an input-bound register with its stream's next elements. -/
def fillOne (h : Hart) (e : VEntry) (r : VReg) (w : Nat) : Except Stop Hart :=
  match boundTo h r false with
  | none => .ok h
  | some n => do
    let x := h.handles[n]
    let l ← needElements x n ((x.desc.map (·.total)).getD 0) (strideOf h e w)
    .ok (({ h with handles := h.handles.set n (x.take l.length) }).setV r w ((List.range l.length).zip l))

/-- Fill the bound registers, each once however often it is named. -/
def fillAll (h : Hart) (e : VEntry) : List (VReg × Nat) → Except Stop Hart
  | [] => .ok h
  | (r, w) :: rest =>
    if rest.any (fun p => p.1 == r) then fillAll h e rest
    else do
      let h1 ← fillOne h e r w
      fillAll h1 e rest

/-- The contents a register has once every outstanding producer has written it. -/
def settledV (h : Hart) (r : VReg) : VWord :=
  h.producers.foldl (fun v p =>
    match p.dest with
    | .scalar .. => v
    | .vector l => l.foldl (fun v q => if q.1 = r then q.2 else v) v) h.vreg[r]

/-- The elements a channel holds (10 R212). -/
def channelRoom (h : Hart) : Nat := 2 * h.vlmax 32

/-- A destination bound to an output stream that the elements of an instruction, if it appends any (05 R116), would fill
beyond its channel (10 R212). -/
def crowded (h : Hart) (e : VEntry) (dsts : List (VReg × Nat)) : Bool :=
  dsts.any fun p =>
    match boundTo h p.1 true with
    | some n => strideOf h e p.2 != 0 && channelRoom h < h.handles[n].held.length + strideOf h e p.2
    | none => false

/-- An append beyond the stream's total. DEDUCED (log 24): cause 0x40 with 0x12, as for an element needed there. -/
def checkTotals (h : Hart) (e : VEntry) : List (VReg × Nat) → Except Stop Unit
  | [] => .ok ()
  | (r, w) :: rest =>
    match boundTo h r true with
    | none => checkTotals h e rest
    | some n =>
      if strideOf h e w ≠ 0 ∧ ((h.handles[n].desc.map (·.total)).getD 0) < h.handles[n].pos + strideOf h e w then
        .error (streamTrap n 0x40 0x12 0)
      else checkTotals h e rest

/-- Elements appended to an output stream (10 R213, R215). -/
def State.append (s : State) (n : HReg) (l : List Nat) : State :=
  let x := s.hart.handles[n]
  s.setHandle n { x with held := x.held ++ l, pos := x.pos + l.length }

/-- Append elements to an output stream, with an implicit quench whenever its channel is full; an instruction writes at
most four times what a channel holds. DESIGN CHOICE (log 75): a write that alone exceeds the channel fills it, and the
rest follows an implicit quench. -/
def appendTo (n : HReg) : Nat → List Nat → State → Except Stop State
  | 0, l, s => .ok (s.append n l)
  | k + 1, l, s =>
    let room := channelRoom s.hart - s.hart.handles[n].held.length
    if l.length ≤ room then .ok (s.append n l)
    else do
      let s1 ← quenchNow (s.append n (l.take room)) true
      appendTo n k (l.drop room) s1

/-- Append elements 0 to EVL − 1 of the output-bound destinations to their streams. -/
def appendAll (e : VEntry) : List (VReg × Nat) → State → Except Stop State
  | [], s => .ok s
  | (r, w) :: rest, s =>
    match boundTo s.hart r true with
    | none => appendAll e rest s
    | some n => do
      let s1 ← appendTo n 4 ((List.range (strideOf s.hart e w)).map (vElem (settledV s.hart r) w)) s
      appendAll e rest s1

/-! ## An entry at work -/

/-- The elements read of each source are sound (05 R115). -/
def checkSrcs (h : Hart) : List Src → Except Stop Unit
  | [] => .ok ()
  | x :: rest => if meetsPoison h.vpoison[x.reg] x.w x.elems then trapAt 0x60 (vAddr x.reg) else checkSrcs h rest

/-- An entry with vector sources and destinations: its sources are full, filled from their streams and sound, its
destinations are full; `f` gives the hart after the effect, told whether a stream fed a source, which makes the
instruction a producer (02 R35). One that stops has quenched nothing (10 R214). -/
def lane (s : State) (e : VEntry) (srcs : List Src) (dsts : List (VReg × Nat)) (f : Hart → Bool → Except Stop Hart) :
    KeepM State := do
  let regs := srcs.map fun x => (x.reg, x.w)
  keeping s (checkFull s.hart (srcs.map fun x => (x.reg, x.ea)))
  keeping s (checkFull s.hart (dsts.map fun p => (p.1, false)))
  keeping s (checkWidths s.hart e false regs)
  keeping s (checkWidths s.hart e true dsts)
  keeping s (checkTotals s.hart e dsts)
  let s1 ← keeping s (if crowded s.hart e dsts then quenchNow s true else .ok s)
  let h1 ← keeping s (fillAll s1.hart e regs)
  keeping s (checkSrcs h1 srcs)
  let h2 ← keeping s (f h1 (regs.any fun p => (boundTo s1.hart p.1 false).isSome))
  keeping s (appendAll e dsts { s1 with hart := h2 })

/-- Deliver elements to a vector register: at once, or as a producer's. -/
def Hart.deliver (h : Hart) (late : Bool) (r : VReg) (w : Nat) (l : List (Nat × Nat)) : Hart :=
  if l = [] then h else if late then h.produceV r w l else h.setV r w l

/-- Flags of several elements. -/
def flagsOf {α : Type} (l : List (α × Nat × FFlags)) : FFlags := l.foldl (fun g p => g ||| p.2.2) 0
def valuesOf {α : Type} (l : List (α × Nat × FFlags)) : List (α × Nat) := l.map fun p => (p.1, p.2.1)

/-- An entry that gives each active element of d a value from the same elements of its sources, all of one width. -/
def laneMap (s : State) (e : VEntry) (w : Nat) (d : VReg) (srcs : List (VReg × Bool)) (late : Bool)
    (f : List Nat → Nat × FFlags) : KeepM State :=
  let n := evlOf s.hart e w
  let act := activeBelow s.hart e n
  lane s e (srcs.map fun p => { reg := p.1, w := w, ea := p.2, elems := act }) [(d, w)] fun h fed => do
    checkMask h e w n
    let out := act.map fun i => (i, f (srcs.map fun p => vElem h.vreg[p.1] w i))
    .ok ((h.raise (flagsOf out)).deliver (late || fed) d w (valuesOf out))

/-- The end of an entry: it leaves the head of the queue (02 R38). -/
def State.dropHead (s : State) : State := { s with hart := { s.hart with vq := s.hart.vq.drop 1 } }

/-- The entry at the head of the queue with something changed, as when it has stopped. -/
def Hart.setHead (h : Hart) (e : VEntry) : Hart := { h with vq := e :: h.vq.drop 1 }

/-- What a step of the lanes comes to: the entry has completed, traps, takes the hart's cancel at a quench (16 R318,
R332), or waits. -/
def laneOutcome (s : State) : KeepM State → Host.Outcome State Fault Refusal
  | .ok t => .next t.dropHead
  | .error (.trap x, t) => .next (t.takeVectorTrap x)
  | .error (.stall, _) => .next s
  | .error (.cancel, t) => .next t.takeCancel

end Sys2Proof.Machine
end

