-- ==== Sys2Proof/Machine/LaneArith.lean ====
section
/-!
DEFINITION. Elementwise work of the lanes: integer and floating arithmetic, vector-scalar and widening forms,
transcendentals and conversions, blocks, compares, mask logic and vidx (05 R122 to R134).
-/
namespace Sys2Proof.Machine

/-! ## Integers (05 R122, R123) -/

/-- The i types of the integer class (08 R169). -/
def isSigned : IntTy → Bool
  | .i8 | .i16 | .i32 | .i64 | .i4 | .i6 => true
  | _ => false

/-- An element's value by type. -/
def intVal (t : IntTy) (x : Nat) : Int := if isSigned t then toSigned t.bits x else x

/-- An operation on values, reduced modulo 2^n. -/
def byValue (f : Int → Int → Int) (t : IntTy) (x y : Nat) : Nat := wrapTo t.bits (f (intVal t x) (intVal t y))

def opAdd := byValue fun x y => x + y
def opSub := byValue fun x y => x - y
def opMul := byValue fun x y => x * y
def opMin := byValue fun x y => if y < x then y else x
def opMax := byValue fun x y => if x < y then y else x
def opAnd (_ : IntTy) (x y : Nat) : Nat := x &&& y
def opOr (_ : IntTy) (x y : Nat) : Nat := x ||| y
def opXor (_ : IntTy) (x y : Nat) : Nat := x ^^^ y
def opMulh (t : IntTy) : Nat → Nat → Nat := byValue (fun x y => x * y / (2 ^ t.bits : Nat)) t
def opDiv (t : IntTy) (x y : Nat) : Nat :=
  if isSigned t then wrapTo t.bits (divS t.bits (intVal t x) (intVal t y)) else divU t.bits x y
def opRem (t : IntTy) (x y : Nat) : Nat :=
  if isSigned t then wrapTo t.bits (remS (intVal t x) (intVal t y)) else remU x y
def opSll (t : IntTy) (x y : Nat) : Nat := if y < t.bits then x * 2 ^ y % 2 ^ t.bits else 0
def opSrl (t : IntTy) (x y : Nat) : Nat := if y < t.bits then x / 2 ^ y else 0
def opSra (t : IntTy) (x y : Nat) : Nat := wrapTo t.bits (toSigned t.bits x / (2 ^ min y t.bits : Nat))
def opSat (f : Int → Int → Int) (t : IntTy) : Nat → Nat → Nat :=
  byValue (fun x y => saturate (f x y) (intLo (isSigned t) t.bits) (intHi (isSigned t) t.bits)) t
def opAbs (t : IntTy) (x : Nat) : Nat := wrapTo t.bits (intVal t x).natAbs
def opNeg (t : IntTy) (x : Nat) : Nat := wrapTo t.bits (-intVal t x)

/-- An integer operation of two vectors. -/
def laneInt (s : State) (e : VEntry) (d a b : VReg) (t : IntTy) (ea eb : Bool) (f : IntTy → Nat → Nat → Nat) : KeepM State :=
  laneMap s e t.bits d [(a, ea), (b, eb)] false fun l => (f t (l.getD 0 0) (l.getD 1 0), 0)
/-- An integer operation of one vector. -/
def laneInt1 (s : State) (e : VEntry) (d a : VReg) (t : IntTy) (ea : Bool) (f : IntTy → Nat → Nat) : KeepM State :=
  laneMap s e t.bits d [(a, ea)] false fun l => (f t (l.getD 0 0), 0)
/-- An integer operation of a vector and the low bits of a scalar (05 R126). -/
def laneIntS (s : State) (e : VEntry) (d a : VReg) (t : IntTy) (ea : Bool) (f : IntTy → Nat → Nat → Nat) : KeepM State :=
  laneMap s e t.bits d [(a, ea)] false fun l => (f t (l.getD 0 0) (e.xa.toNat % 2 ^ t.bits), 0)
/-- vmadd, which also reads vd (05 R122). -/
def laneMadd (s : State) (e : VEntry) (d a b : VReg) (t : IntTy) (ea eb : Bool) : KeepM State :=
  laneMap s e t.bits d [(a, ea), (b, eb), (d, false)] false fun l =>
    (wrapTo t.bits ((l.getD 2 0 + l.getD 0 0 * l.getD 1 0 : Nat) : Int), 0)

/-! ## Floats (05 R124 to R126) -/

/-- A floating operation of two vectors. -/
def laneFlt (s : State) (e : VEntry) (d a b : VReg) (t : VFltTy) (ea eb : Bool)
    (f : Fmt → RMode → Nat → Nat → Nat × FFlags) : KeepM State :=
  laneMap s e t.bits d [(a, ea), (b, eb)] false fun l => f (vfltFmt t) (RMode.ofFrm e.frm) (l.getD 0 0) (l.getD 1 0)
/-- A fused operation, which also reads vd. -/
def laneFused (s : State) (e : VEntry) (d a b : VReg) (t : VFltTy) (ea eb : Bool) (negP negD : Bool) : KeepM State :=
  laneMap s e t.bits d [(a, ea), (b, eb), (d, false)] false fun l =>
    fpFused (vfltFmt t) (RMode.ofFrm e.frm) negP negD (l.getD 0 0) (l.getD 1 0) (l.getD 2 0)
/-- An operation on the sign of one vector. -/
def laneSign (s : State) (e : VEntry) (d a : VReg) (t : VFltTy) (ea : Bool) (f : Bool → Bool) : KeepM State :=
  laneMap s e t.bits d [(a, ea)] false fun l =>
    let x := l.getD 0 0
    (withSign (vfltFmt t) (f (signOf (vfltFmt t) x)) x, 0)
/-- A floating operation of a vector and a scalar. -/
def laneFltS (s : State) (e : VEntry) (d a : VReg) (t : VFltTy) (ea : Bool) (f : Fmt → RMode → Nat → Nat → Nat × FFlags) :
    KeepM State :=
  laneMap s e t.bits d [(a, ea)] false fun l =>
    f (vfltFmt t) (RMode.ofFrm e.frm) (l.getD 0 0) (e.xa.toNat % 2 ^ t.bits)
/-- A fused operation of a vector, a scalar and vd. -/
def laneFusedS (s : State) (e : VEntry) (d a : VReg) (t : VFltTy) (ea : Bool) (negP : Bool) : KeepM State :=
  laneMap s e t.bits d [(a, ea), (d, false)] false fun l =>
    fpFused (vfltFmt t) (RMode.ofFrm e.frm) negP false (l.getD 0 0) (e.xa.toNat % 2 ^ t.bits) (l.getD 1 0)

/-! ## Groups (02 R29; 05 R127, R129) -/

/-- The register of a group and the element in it that pair with element i at p elements per slice, for q elements per
slice of the group's width. -/
def groupPlace (p q i : Nat) : Nat × Nat := (i % p / q, i / p * q + i % p % q)

/-- Write elements of a group, listed as (register, element) with their values. -/
def deliverGroup (h : Hart) (late : Bool) (d : VReg) (w n : Nat) (l : List ((Nat × Nat) × Nat)) : Hart :=
  (List.range n).foldl (fun h k => h.deliver late (groupReg d k) w
    ((l.filter fun p => p.1.1 == k).map fun p => (p.1.2, p.2))) h

/-- The elements of register k of a group that a list of elements reaches. -/
def groupElems (p q k : Nat) (act : List Nat) : List Nat :=
  ((act.map (groupPlace p q)).filter fun x => x.1 == k).map (·.2)

/-- The registers of a group as sources. -/
def groupSrcs (base : VReg) (w p n : Nat) (ea : Bool) (act : List Nat) : List Src :=
  (List.range n).map fun k => { reg := groupReg base k, w := w, ea := ea, elems := groupElems p (perSlice w) k act }

/-- A widening operation into a group of n registers of 32-bit elements; `f x y z` with z the old result. -/
def laneWiden (s : State) (e : VEntry) (d a b : VReg) (w n : Nat) (ea eb acc : Bool) (f : Nat → Nat → Nat → Nat × FFlags) :
    KeepM State :=
  let m := evlOf s.hart e w
  let act := activeBelow s.hart e m
  let p := perSlice w
  lane s e
    ([{ reg := a, w := w, ea := ea, elems := act }, { reg := b, w := w, ea := eb, elems := act }] ++
      (if acc then groupSrcs d 32 p n false act else []))
    ((List.range n).map fun k => (groupReg d k, 32)) fun h fed => do
    checkMask h e w m
    let out := act.map fun i =>
      let g := groupPlace p 8 i
      (g, f (vElem h.vreg[a] w i) (vElem h.vreg[b] w i) (vElem h.vreg[groupReg d g.1] 32 g.2))
    .ok (deliverGroup (h.raise (flagsOf out)) fed d 32 n (valuesOf out))

/-- vwfma, vwfms and vwmul (05 R127). -/
def laneWidenFlt (s : State) (e : VEntry) (d a b : VReg) (t : FltTy) (ea eb acc negD : Bool) : KeepM State :=
  laneWiden s e d a b t.bits t.widening ea eb acc fun x y z =>
    let u := unpack (fltFmt t) x
    let v := unpack (fltFmt t) y
    if acc then fusedX fmtF32 (RMode.ofFrm e.frm) false negD u v (unpack fmtF32 z)
    else
      let r := mulX u v
      let q := roundF fmtF32 (RMode.ofFrm e.frm) r.1
      (q.1, q.2 ||| r.2)
/-- vwmadd and vwimul (05 R127). -/
def laneWidenInt (s : State) (e : VEntry) (d a b : VReg) (t : IntTy) (ea eb acc : Bool) : KeepM State :=
  laneWiden s e d a b t.bits t.widening ea eb acc fun x y z =>
    (wrapTo 32 ((if acc then (z : Int) else 0) + intVal t x * intVal t y), 0)

/-! ## Transcendentals and conversions (05 R128, R129) -/

/-- A transcendental: a producer (02 R35). -/
def laneTrans (s : State) (e : VEntry) (d a : VReg) (ea : Bool) (f : Nat → Nat × FFlags) : KeepM State :=
  laneMap s e 32 d [(a, ea)] true fun l => f (l.getD 0 0)

/-- The rounding of a conversion (05 R129). -/
def cvtMode (m : CvtMode) (frm : BitVec 2) : RMode :=
  match m with
  | .dyn => RMode.ofFrm frm
  | .rne => .rne
  | .rtz => .rtz
  | .rdn => .rdn
  | .rup => .rup

/-- An element of one type as another (05 R129). -/
def convertTo (mode : RMode) (src dst : ElemTy) (x : Nat) : Nat × FFlags :=
  match src, dst with
  | .flt f, .flt g => fpConvert (fltFmt f) (fltFmt g) mode x
  | .int t, .flt g => roundF (fltFmt g) mode (ofInt (intVal t x))
  | .flt f, .int u =>
    let r := fpToInt (isSigned u) u.bits mode (unpack (fltFmt f) x)
    (wrapTo u.bits r.1, r.2)
  | .int t, .int u => (wrapTo u.bits (saturate (intVal t x) (intLo (isSigned u) u.bits) (intHi (isSigned u) u.bits)), 0)

/-- The members of the wide group that a narrow slice's positions reach (05 R129). -/
def cvtReached (src dst : ElemTy) : Nat :=
  (perSlice (min src.bits dst.bits) + perSlice (max src.bits dst.bits) - 1) / perSlice (max src.bits dst.bits)

/-- A conversion between a narrow register and a group on the wide side (05 R129); members of the group that no position
reaches are no operands. -/
def laneCvt (s : State) (e : VEntry) (d a : VReg) (src dst : ElemTy) (mode : CvtMode) (ea : Bool) : KeepM State :=
  let wn := min src.bits dst.bits
  let m := evlOf s.hart e wn
  let act := activeBelow s.hart e m
  let p := perSlice wn
  let n := cvtReached src dst
  let up := src.bits ≤ dst.bits
  lane s e
    (if up then [{ reg := a, w := src.bits, ea := ea, elems := act }] else groupSrcs a src.bits p n ea act)
    (if up then (List.range n).map fun k => (groupReg d k, dst.bits) else [(d, dst.bits)]) fun h fed => do
    checkMask h e wn m
    let md := cvtMode mode e.frm
    let out := act.map fun i =>
      let g := groupPlace p (perSlice (max src.bits dst.bits)) i
      if up then (g, convertTo md src dst (vElem h.vreg[a] src.bits i))
      else ((0, i), convertTo md src dst (vElem h.vreg[groupReg a g.1] src.bits g.2))
    .ok (deliverGroup (h.raise (flagsOf out)) fed d dst.bits (if up then n else 1) (valuesOf out))

/-! ## Blocks in registers (05 R130, R131) -/

/-- The mantissa width of a bfp code. -/
def bfpBits (w : BfpW) : Nat := w.val + 2

/-- Block g of a register's contents: its elements 16 g to 16 g + 15. -/
def regBlock (v : VWord) (g : Nat) : Block := v.extractLsb' (512 * g) 512

/-- vpack.bfp (05 R130): every block is written whole; elements outside the group count as zero. -/
def lanePack (s : State) (e : VEntry) (d a : VReg) (w : BfpW) (ea : Bool) : KeepM State :=
  let k := bfpK (bfpBits w)
  let n := evlOf s.hart e 32
  let act := activeBelow s.hart e n
  lane s e [{ reg := a, w := 32, ea := ea, elems := act }] [(d, 32)] fun h fed => do
    checkMask h e 32 n
    let blocks := (List.range ((n + k - 1) / k)).map fun g =>
      packBlock (bfpBits w) ((List.range (min k (n - g * k))).map fun j =>
        if act.contains (g * k + j) then unpack fmtF32 (vElem h.vreg[a] 32 (g * k + j)) else .fin false 0 0)
    let out := (List.range (16 * blocks.length)).map fun i =>
      (i, blkBits ((blocks.map (·.1)).getD (i / 16) 0) (32 * (i % 16)) 32)
    .ok ((h.raise (blocks.foldl (fun g b => g ||| b.2) 0)).deliver fed d 32 out)

/-- The checks of a register's block for an element (05 R131, 16 R335): its header word sound, the block good, and the
words of the element's mantissa sound, which a block of code 0x20 does not read. -/
def checkPacked (h : Hart) (a : VReg) (bits : Nat) (i : Nat) : Except Stop Unit := do
  let k := bfpK bits
  let lo := 32 + bits * (i % k)
  let b := regBlock h.vreg[a] (i / k)
  checkSound h 32 [16 * (i / k)] [a]
  match checkBlock b fun c => c == bits with
  | some c => trapAt c (BitVec.ofNat 64 (i / k))
  | none =>
    if blkCode b = 0x20 then .ok ()
    else checkSound h 32 [16 * (i / k) + lo / 32, 16 * (i / k) + (lo + bits - 1) / 32] [a]

/-- vunpack.bfp (05 R131): each active element is checked in ascending order. -/
def laneUnpack (s : State) (e : VEntry) (d a : VReg) (w : BfpW) (ea : Bool) : KeepM State :=
  let k := bfpK (bfpBits w)
  let n := evlOf s.hart e 32
  let act := activeBelow s.hart e n
  lane s e [{ reg := a, w := 32, ea := ea, elems := [] }] [(d, 32)] fun h fed => do
    checkMask h e 32 n
    act.forM (checkPacked h a (bfpBits w))
    let out := act.map fun i =>
      (i, roundF fmtF32 .rne (bfpValue (regBlock h.vreg[a] (i / k)) (bfpBits w) (i % k)))
    .ok ((h.raise (flagsOf out)).deliver fed d 32 (valuesOf out))

/-! ## Compares, mask logic, vidx (05 R132 to R134) -/

/-- A relation between elements of a type. -/
def relElem (t : ElemTy) (r : Rel) (x y : Nat) : Bool × FFlags :=
  match t with
  | .int t => (relInt r (intVal t x) (intVal t y), 0)
  | .flt t => fpRel (fltFmt t) r x y

/-- vcmp of vectors (05 R132). -/
def laneCmp (s : State) (e : VEntry) (d : MReg) (srcs : List (VReg × Bool)) (r : Rel) (t : ElemTy)
    (f : List Nat → Nat × Nat) : KeepM State :=
  let w := t.bits
  let n := evlOf s.hart e w
  let act := activeBelow s.hart e n
  lane s e (srcs.map fun p => { reg := p.1, w := w, ea := p.2, elems := act }) [] fun h _ => do
    checkMask h e w n
    let out := act.map fun i =>
      let q := f (srcs.map fun p => vElem h.vreg[p.1] w i)
      (i, relElem t r q.1 q.2)
    .ok ((h.raise (out.foldl (fun g p => g ||| p.2.2) 0)).setM d w (out.map fun p => (p.1, p.2.1)))

/-- The elements mask logic runs over: 0 to VL − 1 within the mask's bits (05 R133). DESIGN CHOICE (log 75): whatever the
grant; where a hart's grant is empty while VL is above 0 the spec does not say which mask bits exist. -/
def maskBound (e : VEntry) : Nat := min e.vl 16384

/-- The width that decides which lane holds a mask bit. DESIGN CHOICE (log 25): mask logic has no element width; the
model takes VEW as captured. -/
def maskWidth (e : VEntry) : Nat := widthBits e.vew

/-- The mask registers an instruction reads are sound (05 R115). DESIGN CHOICE (log 78): bit n of a tree instruction's
mask lies where element n would, also for a node n beyond one register's elements; a register has no such lane, so poison
is not met there. -/
def checkMasks (h : Hart) (w : Nat) (l : List Nat) : List MReg → Except Stop Unit
  | [] => .ok ()
  | r :: rest => if meetsPoison h.mpoison[r] w l then trapAt 0x60 (mAddr r.val) else checkMasks h w l rest

/-- Mask logic into a mask register (05 R133). -/
def laneMask (s : State) (e : VEntry) (d : MReg) (srcs : List MReg) (f : Hart → Nat → Bool) : KeepM State :=
  let act := activeBelow s.hart e (maskBound e)
  lane s e [] [] fun h _ => do
    checkMask h e (maskWidth e) (maskBound e)
    checkMasks h (maskWidth e) act srcs
    .ok (h.setM d (maskWidth e) (act.map fun i => (i, f h i)))

/-- Mask logic with a scalar result. -/
def laneMaskOut (s : State) (e : VEntry) (d : SReg) (a : MReg) (f : List Nat → Word) : KeepM State :=
  let act := activeBelow s.hart e (maskBound e)
  lane s e [] [] fun h _ => do
    checkMask h e (maskWidth e) (maskBound e)
    checkMasks h (maskWidth e) act [a]
    .ok (h.laneResult d (f (act.filter fun i => h.mreg[a].getLsbD i)))

/-- vidx (05 R134). -/
def laneVidx (s : State) (e : VEntry) (d : VReg) (start : BitVec 11) (stp : BitVec 10) : KeepM State :=
  let w := widthBits e.vew
  let n := evlOf s.hart e w
  lane s e [] [(d, w)] fun h _ => do
    checkMask h e w n
    .ok (h.deliver false d w ((activeBelow h e n).map fun i => (i, wrapTo w (start.toInt + i * stp.toInt))))

end Sys2Proof.Machine
end

