-- ==== Sys2Proof/Machine/LaneMemory.lean ====
section
/-!
DEFINITION. Vector memory work of the lanes: contiguous, strided and indexed loads and stores, scatter-adds, conflict
detection and scoped gathers (10 R197 to R204).
-/
namespace Sys2Proof.Machine

/-- The agent of an entry: the address space and level it captured. -/
def entryAgent (h : Hart) (e : VEntry) : Agent := { die := h.die, cell := some h.cell, asid := e.asid, level := e.level }

/-- The physical carriage that holds an element (02 R26), of whichever register of its group. -/
def elemCarriage (h : Hart) (w i : Nat) : Nat := (carriages h.grant).getD (elemLane w i % h.lanes / 8) 0

/-- Each carriage works through its own elements in ascending order up to its first fault: the carriages that have
stopped with their elements and causes, and the elements completed (10 R198). DESIGN CHOICE (log 26): every carriage
goes on to its own first fault or its end. -/
structure Stops where
  stopped : List (Nat × Nat × Word × BitVec 8) := []
  done : List Nat := []
  deriving DecidableEq, Repr

def stopsOf (h : Hart) (w : Nat) (l : List (Nat × Word × Option (BitVec 8))) : Stops :=
  l.foldl (fun q x =>
    let c := elemCarriage h w x.1
    if q.stopped.any (fun p => p.1 == c) then q
    else
      match x.2.2 with
      | some k => { q with stopped := q.stopped ++ [(c, x.1, x.2.1, k)] }
      | none => { q with done := q.done ++ [x.1] }) {}

/-- TCNT by physical carriage (16 R323). -/
def countsOf (h : Hart) (f : Nat → Nat) : List Nat := (List.range 32).map fun c => if h.grant.getLsbD c then f c else 0

/-- The trap of the lowest element found faulting, none when no carriage has stopped. -/
def stopTrap (h : Hart) (w : Nat) (q : Stops) : Option Trap :=
  match sortBy (fun a b => a.2.1 ≤ b.2.1) q.stopped with
  | [] => none
  | (_, _, va, k) :: _ => some
      { cause := k, addr := va
        counts := countsOf h fun c => (q.done.filter fun i => elemCarriage h w i == c).length }

/-- The cause of a place, none when there is one. -/
def placeFault (p : Except (BitVec 8) Place) : Option (BitVec 8) :=
  match p with
  | .ok _ => none
  | .error c => some c

/-- Check and translate the elements listed with their addresses. -/
def elemPlaces (s : State) (e : VEntry) (k : Access) (size : Nat) (l : List (Nat × Word)) :
    List (Nat × Word × Except (BitVec 8) Place) :=
  l.map fun x => (x.1, x.2, ownPlace s (entryAgent s.hart e) k x.2 size)

/-- The faults of places, in the form `stopsOf` takes. -/
def placeFaults (l : List (Nat × Word × Except (BitVec 8) Place)) : List (Nat × Word × Option (BitVec 8)) :=
  l.map fun x => (x.1, x.2.1, placeFault x.2.2)

/-- The places found, with their elements and addresses. -/
def placesOf (l : List (Nat × Word × Except (BitVec 8) Place)) : List (Nat × Word × Place) :=
  l.filterMap fun x =>
    match x.2.2 with
    | .ok p => some (x.1, x.2.1, p)
    | .error _ => none

/-- The range trap of 10 R200, taken after the instruction has completed. -/
def rangeTrap (h : Hart) (w : Nat) (out : List Nat) : Option Trap :=
  match out with
  | [] => none
  | i :: _ => some
      { cause := 0x12, addr := BitVec.ofNat 64 i, done := true
        counts := countsOf h fun c => ((out.find? fun i => elemCarriage h w i == c).map (· + 1)).getD 0 }

/-- An entry's completion, with the range trap if an index was out of range. -/
def withRange (h : Hart) (w : Nat) (out : List Nat) (m : KeepM State) : KeepM State := do
  let s ← m
  match rangeTrap h w out with
  | none => .ok s
  | some t => .error (.trap t, s)

/-- The scope does not cover a page's HOME (10 R194): co and ce do not cover each other. -/
def homeMissed (scope : Nat) (home : Nat) : Bool :=
  scope < home || (scope == 2 && home == 1)

/-- Read the elements of a load, keeping what a stopped one has obtained (10 R197, R198; 16 R323). `miss` picks the
elements of a scoped gather that are not read. The values, the missed elements, and the state. -/
def readElems (s : State) (e : VEntry) (w : Nat) (l : List (Nat × Word)) (miss : Word → Bool) :
    KeepM (List (Nat × Nat) × List Nat × State) :=
  let size := w / 8
  let h := s.hart
  let ps := elemPlaces s e .read size (l.filter fun x => !e.got.any fun g => g.1 == x.1)
  let found := placesOf ps
  let missed := (found.filter fun x => miss x.2.2.leaf.entry).map (·.1)
  let reads := found.filter fun x => !miss x.2.2.leaf.entry
  do
    -- a buffered scatter-add update that a read overlaps is committed first (10 R201); what the address checks stop
    -- reads nothing, but for the elements that a translation miss leaves standing (R198; DEDUCED, log 50)
    let q0 := stopsOf h w (placeFaults ps)
    let stands := (stopTrap h w q0).all fun t => t.cause == 0x10
    let meets := reads.any fun x => stands && q0.done.contains x.1 && meetsAdds h.buffer x.2.2.pa size
    let s1 ← keeping s (if meets then quenchNow s true else .ok s)
    let vals := reads.map fun x => (x.1, x.2.1, mergedRead s1 s1.hart.buffer x.2.2.pa size)
    let fault (i : Nat) : Option (BitVec 8) :=
      match vals.find? fun v => v.1 == i with
      | some (_, _, .error c) => some c
      | _ => none
    let q := stopsOf h w (l.map fun x =>
      (x.1, x.2,
        match ps.find? fun p => p.1 == x.1 with
        | none => none
        | some p =>
          match p.2.2 with
          | .error c => some c
          | .ok _ => fault x.1))
    let got := e.got ++ vals.filterMap fun v =>
      match v.2.2 with
      | .ok y => if q.done.contains v.1 then some (v.1, y) else none
      | .error _ => none
    let s2 := tlbFillAll s1 (entryAgent h e)
      ((found.filter fun x => q.done.contains x.1).map fun x => (x.2.1, x.2.2.leaf))
    match stopTrap h w q with
    | some t =>
      -- a translation miss keeps what is held for the restarted instruction; any other fault undoes the quench too,
      -- which has raised flags and counted (05 R115)
      if t.cause = 0x10 then .error (.trap t, { s2 with hart := s2.hart.setHead { e with got := got } })
      else .error (.trap t, s)
    | none => .ok (got, missed, s2)

/-- The addresses of a contiguous or strided entry (10 R197). -/
def lineAddrs (e : VEntry) (disp : BitVec 12) (w : Nat) (strided : Bool) (act : List Nat) : List (Nat × Word) :=
  let base := e.xa + disp.signExtend 64 * BitVec.ofNat 64 (w / 8)
  act.map fun i => (i, base + BitVec.ofNat 64 i * (if strided then e.vstr else BitVec.ofNat 64 (w / 8)))

/-- The hart as an entry reads it: its mask and sources checked, its sources filled from their streams. The streams
advance when the entry completes (10 R215). -/
def laneFilled (s : State) (e : VEntry) (w : Nat) (srcs : List Src) : KeepM Hart := do
  let s1 ← lane s e srcs [] fun h _ => .ok h
  keeping s (checkMask s.hart e w (evlOf s.hart e w))
  .ok s1.hart

/-- The completion of an entry whose work is done: its streams advance. -/
def laneDone (s : State) (e : VEntry) (srcs : List Src) : KeepM State := lane s e srcs [] fun h _ => .ok h

/-- A load of elements into a vector register; `after` adds what else the entry writes, given the elements missed. -/
def laneLoadInto (s : State) (e : VEntry) (d : VReg) (w : Nat) (srcs : List Src) (l : List (Nat × Word)) (miss : Word → Bool)
    (after : Hart → List Nat → Hart) : KeepM State := do
  keeping s (checkFull s.hart [(d, false)])
  keeping s (checkWidths s.hart e true [(d, w)])
  keeping s (checkTotals s.hart e [(d, w)])
  let (vals, missed, s1) ← readElems s e w l miss
  lane s1 e srcs [(d, w)] fun h _ => .ok (after (h.deliver true d w vals) missed)

/-- vld and vlds. -/
def laneLoad (s : State) (e : VEntry) (d : VReg) (disp : BitVec 12) (w : Nat) (strided : Bool) : KeepM State := do
  let act := activeBelow s.hart e (evlOf s.hart e w)
  let _ ← laneFilled s e w []
  laneLoadInto s e d w [] (lineAddrs e disp w strided act) (fun _ => false) fun h _ => h

/-- Put entries into the strip store buffer, which is committed first wherever it is full (10 R204). -/
def bufferEach : List SEntry → State → Except Stop State
  | [], s => .ok s
  | x :: rest, s => do
    let s1 ← (if Config.storeBufferSize ≤ s.hart.buffer.length then quenchNow s true else .ok s)
    bufferEach rest { s1 with hart := { s1.hart with buffer := s1.hart.buffer ++ [{ entry := x }] } }

/-- Put a store's entry into the strip store buffer; live leaves it overlaps are snapshotted first (18 R368). -/
def buffer (s : State) (x : SEntry) (l : List (Nat × Nat)) : KeepM State := do
  let s1 ← fromTile (snapshots s l)
  keeping s1 (bufferEach [x] s1)

/-- The places of a store's elements, or its fault. -/
def storeElems (s : State) (e : VEntry) (w : Nat) (k : Access) (l : List (Nat × Word)) :
    KeepM (List (Nat × Word × Place) × State) :=
  let ps := elemPlaces s e k (w / 8) l
  match stopTrap s.hart w (stopsOf s.hart w (placeFaults ps)) with
  | some t => .error (.trap t, s)
  | none => .ok (placesOf ps, tlbFillAll s (entryAgent s.hart e) ((placesOf ps).map fun x => (x.2.1, x.2.2.leaf)))

/-- A store of the elements listed of contents v. An empty mask takes no entry; an entry whose elements are all out of
range takes one (10 R197, R200). -/
def storeInto (s : State) (e : VEntry) (v : VWord) (w : Nat) (l : List (Nat × Word)) (act : List Nat) : KeepM State := do
  let (ps, s1) ← storeElems s e w .write l
  let bytes := ps.flatMap fun x => placeBytes x.2.2.pa (leBytes (w / 8) (vElem v w x.1))
  if act = [] then .ok s1 else buffer s1 (.store bytes) (ps.map fun x => (x.2.2.pa, w / 8))

/-- vst and vsts (10 R197). -/
def laneStore (s : State) (e : VEntry) (d : VReg) (disp : BitVec 12) (w : Nat) (strided ea : Bool) : KeepM State := do
  let act := activeBelow s.hart e (evlOf s.hart e w)
  let srcs : List Src := [{ reg := d, w := w, ea := ea, elems := act }]
  let h ← laneFilled s e w srcs
  let s1 ← storeInto s e h.vreg[d] w (lineAddrs e disp w strided act) act
  laneDone s1 e srcs

/-- The active elements of an indexed entry with their addresses, and those out of range (10 R199, R200). -/
def indexed (h : Hart) (e : VEntry) (b : VReg) (w : Nat) (act : List Nat) : List (Nat × Word) × List Nat :=
  let ix (i : Nat) : Nat := vElem h.vreg[b] w i
  let inside := act.filter fun i => ix i < e.xb.toNat
  (inside.map fun i => (i, e.xa + BitVec.ofNat 64 (ix i * (w / 8))), act.filter fun i => !(ix i < e.xb.toNat))

/-- vldx (10 R199). -/
def laneLoadX (s : State) (e : VEntry) (d b : VReg) (w : Nat) (eb : Bool) : KeepM State := do
  let act := activeBelow s.hart e (evlOf s.hart e w)
  let srcs : List Src := [{ reg := b, w := w, ea := eb, elems := act }]
  let h ← laneFilled s e w srcs
  let x := indexed h e b w act
  withRange s.hart w x.2 (laneLoadInto s e d w srcs x.1 (fun _ => false) fun h _ => h)

/-- vgth (10 R203): msm records the scope misses. -/
def laneGather (s : State) (e : VEntry) (d b : VReg) (scope : Nat) (w : Nat) (eb : Bool) : KeepM State := do
  let act := activeBelow s.hart e (evlOf s.hart e w)
  let srcs : List Src := [{ reg := b, w := w, ea := eb, elems := act }]
  let h ← laneFilled s e w srcs
  let x := indexed h e b w act
  let put (m : MWord) (i : Nat) (v : Bool) : MWord := if v then m ||| (1#16384 <<< i) else m &&& ~~~(1#16384 <<< i)
  withRange s.hart w x.2 (laneLoadInto s e d w srcs x.1 (fun t => teSync t && homeMissed scope (teHome t))
    fun h missed => { h with msm := act.foldl (fun m i => put m i (missed.contains i)) h.msm })

/-- vstx (10 R199). -/
def laneStoreX (s : State) (e : VEntry) (d b : VReg) (w : Nat) (eb : Bool) : KeepM State := do
  let act := activeBelow s.hart e (evlOf s.hart e w)
  let srcs : List Src :=
    [{ reg := b, w := w, ea := eb, elems := act }, { reg := d, w := w, ea := false, elems := act }]
  let h ← laneFilled s e w srcs
  let x := indexed h e b w act
  withRange s.hart w x.2 (do
    let s1 ← storeInto s e h.vreg[d] w x.1 act
    laneDone s1 e srcs)

/-- The combining network (10 R201): one update for each distinct address, addends merged in ascending element order;
the flags it raises. -/
def combine (k : AddKind) (v : VWord) (w : Nat) (l : List (Nat × Word × Place)) : List (Word × Nat × Nat) × FFlags :=
  l.foldl (fun acc x =>
    let y := vElem v w x.1
    match acc.1.find? fun u => u.1 == x.2.1 with
    | none => (acc.1 ++ [(x.2.1, x.2.2.pa, y)], acc.2)
    | some u =>
      let r := match k with
        | .int b => ((u.2.2 + y) % 2 ^ b, (0 : FFlags))
        | .flt t m => fpAdd (vfltFmt t) (RMode.ofFrm m) u.2.2 y
      (acc.1.map fun z => if z.1 = x.2.1 then (z.1, z.2.1, r.1) else z, acc.2 ||| r.2)) ([], 0)

/-- vsadd (10 R201). -/
def laneScatterAdd (s : State) (e : VEntry) (d b : VReg) (w : Nat) (k : AddKind) (eb : Bool) : KeepM State := do
  let act := activeBelow s.hart e (evlOf s.hart e w)
  let srcs : List Src :=
    [{ reg := b, w := w, ea := eb, elems := act }, { reg := d, w := w, ea := false, elems := act }]
  let h ← laneFilled s e w srcs
  let x := indexed h e b w act
  withRange s.hart w x.2 (do
    let (ps, s1) ← storeElems s e w .both x.1
    let r := combine k h.vreg[d] w ps
    let s2 ← (if act = [] then .ok s1 else buffer s1 (.adds k r.1) (ps.map fun x => (x.2.2.pa, w / 8)))
    laneDone { s2 with hart := s2.hart.raise r.2 } e srcs)

/-- The least active element with the same pattern as element i. -/
def leaderOf (v : VWord) (w : Nat) (act : List Nat) (i : Nat) : Nat :=
  (act.find? fun j => vElem v w j == vElem v w i).getD i

/-- vconf (10 R202). -/
def laneConflict (s : State) (e : VEntry) (d a : VReg) (m : MReg) (w : Nat) (ea : Bool) : KeepM State :=
  let n := evlOf s.hart e w
  let act := activeBelow s.hart e n
  lane s e [{ reg := a, w := w, ea := ea, elems := act }] [(d, w)] fun h fed => do
    checkMask h e w n
    let out := act.map fun i => (i, leaderOf h.vreg[a] w act i)
    .ok ((h.deliver fed d w out).setM m w (out.map fun p => (p.1, p.2 < p.1)))

end Sys2Proof.Machine
end

