-- ==== Sys2Proof/Machine/LaneAnvil.lean ====
section
/-!
DEFINITION. The anvil: its operands, the accumulation, the accumulator store and the weight buffer (11 R222 to R233,
R442; 08 R188).
-/
namespace Sys2Proof.Machine

/-! ## The stores (11 R222, R442) -/

/-- The place of accumulator element (r, c). -/
def accIx (r c : Nat) : Nat := 256 * r + c
def Cell.accAt (x : Cell) (r c : Nat) : BitVec 32 := sparseGet 0 x.acc (accIx r c)
/-- An accumulator element with a new value; its error mark goes (log 10). -/
def Cell.setAcc (x : Cell) (r c : Nat) (v : BitVec 32) : Cell :=
  { x with acc := sparseSet 0 x.acc (accIx r c) v, accError := x.accError.filter fun i => i != accIx r c }
def Cell.wbAt (x : Cell) (i : Nat) : Block := sparseGet 0 x.wb i
def Cell.setWb (x : Cell) (i : Nat) (b : Block) : Cell := { x with wb := sparseSet 0 x.wb i b }

/-- A rectangle of accumulator elements. -/
structure AccRect where
  r0 : Nat
  c0 : Nat
  m : Nat
  n : Nat
  deriving DecidableEq, Repr

/-- ACTL's fields (11 R223). -/
def actlRm (x : BitVec 17) : RMode := if x.getLsbD 16 then .rtz else .rne
def actlRbase (x : BitVec 17) : Nat := x.toNat / 256 % 256
def actlCbase (x : BitVec 17) : Nat := x.toNat % 256

/-- ROW0, COL0, MM1 and NM1 of an operand word, with ACTL's bases (11 R227). -/
def accRect (x : Word) (actl : BitVec 17) : AccRect where
  r0 := actlRbase actl + bitsOf x 31 24
  c0 := actlCbase actl + bitsOf x 23 16
  m := bitsOf x 15 10 + 1
  n := bitsOf x 9 4 + 1

/-- The elements of a rectangle, rows ascending and columns ascending within them. -/
def AccRect.cells (q : AccRect) : List (Nat × Nat) :=
  (List.range q.m).flatMap fun i => (List.range q.n).map fun j => (q.r0 + i, q.c0 + j)

/-- TADDR of an accumulator element (11 R224). -/
def accAddr (r c : Nat) : Word := BitVec.ofNat 64 (r * 65536 + c)

/-- No row or column above 255 (11 R224). -/
def AccRect.check (q : AccRect) : Except Stop Unit :=
  match q.cells.find? fun p => 255 < p.1 || 255 < p.2 with
  | some p => trapAt 0x12 (accAddr p.1 p.2)
  | none => .ok ()

/-- No uncorrectable error among the elements an operation reads, in order (11 R224). -/
def Cell.checkErrors (x : Cell) (l : List (Nat × Nat)) : Except Stop Unit :=
  match l.find? fun p => x.accError.contains (accIx p.1 p.2) with
  | some p => trapAt 0x61 (accAddr p.1 p.2)
  | none => .ok ()

/-! ## Blocks from memory (11 R226, R229) -/

/-- The places of blocks at some addresses, on BLK pages, in order. -/
def blockPlaces (s : State) (g : Agent) : List Word → Except Stop (List (Word × Place))
  | [] => .ok []
  | va :: rest => do
    let p ← atAddr va (ownPlace s g .read va 64)
    if !teBlk p.leaf.entry then trapAt 0x13 va
    let l ← blockPlaces s g rest
    .ok ((va, p) :: l)

/-- The blocks at some places, with memory errors in order. -/
def blocksAt (s : State) : List (Word × Place) → Except Stop (List Block)
  | [] => .ok []
  | (va, p) :: rest => do
    match readFault s p.pa 64 with
    | some c => trapAt c va
    | none => do
      let l ← blocksAt s rest
      .ok (readBlock s.mem p.pa :: l)

/-- The check of blocks for a consumer (08 R185), with the first offender's address. -/
def checkBlocks (accept : Nat → Bool) : List (Word × Block) → Except Stop Unit
  | [] => .ok ()
  | (va, b) :: rest =>
    match checkBlock b accept with
    | some c => trapAt c va
    | none => checkBlocks accept rest

/-- Read an operation's blocks; buffered bytes among them are committed first (11 R229). -/
def readBlocks (s : State) (e : VEntry) (l : List Word) : KeepM (List (Word × Block) × State) := do
  let g := entryAgent s.hart e
  let ps ← keeping s (blockPlaces s g l)
  let s1 ← keeping s (if ps.any (fun p => meetsBuffer s.hart.buffer p.2.pa 64) then quenchNow s true else .ok s)
  let bs ← keeping s1 (blocksAt s1 ps)
  .ok (l.zip bs, tlbFillAll s1 g (ps.map fun p => (p.1, p.2.leaf)))

/-- The blocks of a wb.load in order (11 R226): each is read and checked, and given its places in the buffer; the
leaves used come with them. -/
def loadBlocks (s : State) (e : VEntry) (dst : Nat) : List Word → KeepM (List (Nat × Block) × List (Word × Leaf) × State)
  | [] => .ok ([], [], s)
  | va :: rest => do
    let ps ← keeping s (blockPlaces s (entryAgent s.hart e) [va])
    let s1 ← keeping s (if ps.any (fun p => meetsBuffer s.hart.buffer p.2.pa 64) then quenchNow s true else .ok s)
    let bs ← keeping s1 (blocksAt s1 ps)
    keeping s1 (checkBlocks (fun _ => true) ([va].zip bs))
    let out := bs.flatMap expandBlock
    keeping s1 (if 65536 < dst + out.length then trapAt 0x12 (BitVec.ofNat 64 (max dst 65536)) else .ok ())
    let (l, ls, s2) ← loadBlocks s1 e (dst + out.length) rest
    .ok (((List.range out.length).map (dst + ·)).zip out ++ l, ps.map (fun p => (p.1, p.2.leaf)) ++ ls, s2)

/-- wb.load: no block is written before every one is checked. -/
def laneWbLoad (s : State) (e : VEntry) : KeepM State := do
  let nb := bitsOf e.xb 16 0
  keeping s (if bitsOf e.xb 63 48 ≠ 0 ∨ bitsOf e.xb 31 17 ≠ 0 ∨ nb = 0 ∨ 65536 < nb then trapAt 0x02 e.xb else .ok ())
  keeping s (if bitsOf e.xa 5 0 ≠ 0 then trapAt 0x05 e.xa else .ok ())
  let (out, leaves, s1) ← loadBlocks s e (bitsOf e.xb 47 32) ((List.range nb).map fun i => e.xa + BitVec.ofNat 64 (64 * i))
  let s2 := tlbFillAll s1 (entryAgent s.hart e) leaves
  .ok (s2.setCell s.hart.die s.hart.cell
    (out.foldl (fun x p => x.setWb p.1 p.2) (s2.cellOf s.hart.die s.hart.cell)))

/-! ## anv.op (11 R227, R228; 08 R188) -/

/-- An operation's command (11 R227). -/
structure AnvCmd where
  rect : AccRect
  kb : Nat
  woff : Nat
  strided : Bool
  deriving DecidableEq, Repr

def anvCmd (x : Word) (actl : BitVec 17) : AnvCmd where
  rect := accRect x actl
  kb := bitsOf x 59 48 + 1
  woff := bitsOf x 47 32
  strided := x.getLsbD 61

/-- The checks of a command before its operands are read (11 R228). -/
def checkCmd (x a : Word) (rs : Word) (c : AnvCmd) : Except Stop Unit := do
  if bitsOf x 63 62 ≠ 0 ∨ x.getLsbD 60 ∨ bitsOf x 3 0 ≠ 0 then trapAt 0x02 x
  c.rect.check
  if 65536 < c.woff + c.rect.n * c.kb then trapAt 0x12 (BitVec.ofNat 64 (c.woff + c.rect.n * c.kb - 1))
  if bitsOf a 5 0 ≠ 0 ∨ bitsOf rs 5 0 ≠ 0 then trapAt 0x05 a

/-- The A blocks' addresses, in order of kb, then row. -/
def AnvCmd.addrs (c : AnvCmd) (a rs : Word) : List Word :=
  (List.range c.kb).flatMap fun k => (List.range c.rect.m).map fun i =>
    a + BitVec.ofNat 64 i * rs + BitVec.ofNat 64 (64 * k)

/-- The class of a code: none for 0x20, which belongs to every class; an error for a code of no class or compressed. -/
def plainClass (b : Block) : Except Unit (Option BlkClass) :=
  if blkCode b = 0x20 then .ok none
  else
    match classOf (blkCode b) with
    | some (c, false) => .ok (some c)
    | _ => .error ()

/-- One class for a run of blocks after a class found so far (08 R184). -/
def joinClass (c : Option BlkClass) (b : Block) : Except Unit (Option BlkClass) := do
  let d ← plainClass b
  match c, d with
  | some x, some y => if x = y then .ok c else .error ()
  | none, d => .ok d
  | c, none => .ok c

/-- The class of an operation's blocks; the A block of the first pair that breaks it gives TADDR (11 R228). -/
def opClass (c : AnvCmd) (x : Cell) (a : List (Word × Block)) : Except Stop (Option BlkClass) :=
  ((List.range c.kb).flatMap fun k => (List.range c.rect.m).map fun i => (k, i)).foldlM (fun (cls : Option BlkClass) p =>
    let ab := a.getD (p.1 * c.rect.m + p.2) (0, 0)
    match (List.range c.rect.n).foldlM (fun cls j => do
        let d ← joinClass cls ab.2
        joinClass d (x.wbAt (c.woff + j * c.kb + p.1))) cls with
    | .ok d => .ok d
    | .error () => trapAt 0x13 ab.1) none

/-- The term of a pair of blocks of a class (08 R188). -/
def pairTerm (cls : Option BlkClass) (a b : Block) : Nat :=
  if blkCode a = 0x20 ∨ blkCode b = 0x20 then 0
  else
    match cls with
    | none => 0
    | some c =>
      let sum := (exactSum .rne ((List.range c.k).map fun t => (mulX (c.value a t) (c.value b t)).1)).1
      if sum.isZero then 0
      else (roundF fmtF32 .rne (mulX (mulX sum (scaleVal (blkScale a))).1 (scaleVal (blkScale b))).1).1

/-- An accumulation step (08 R188). -/
def accStep (mode : RMode) (acc term : Nat) : Nat :=
  (roundF fmtF32 mode (exactSum mode [unpack fmtF32 acc, unpack fmtF32 term]).1).1

/-- An operation on a cell, its A blocks read: checks of blocks and classes, then the accumulation. -/
def anvilRun (x : Cell) (mode : RMode) (c : AnvCmd) (a : List (Word × Block)) : Except Stop Cell := do
  checkBlocks (fun code => match classOf code with
    | some (_, cmp) => !cmp
    | none => false) a
  let cls ← opClass c x a
  x.checkErrors c.rect.cells
  .ok (c.rect.cells.foldl (fun y p =>
    let i := p.1 - c.rect.r0
    let j := p.2 - c.rect.c0
    let v := (List.range c.kb).foldl (fun acc k =>
      accStep mode acc (pairTerm cls (a.getD (k * c.rect.m + i) (0, 0)).2 (x.wbAt (c.woff + j * c.kb + k))))
      (x.accAt p.1 p.2).toNat
    y.setAcc p.1 p.2 (BitVec.ofNat 32 v)) x)

/-- anv.op. -/
def laneAnvOp (s : State) (e : VEntry) : KeepM State := do
  let c := anvCmd e.xa e.actl
  let rs := if c.strided then e.vstr else BitVec.ofNat 64 (64 * c.kb)
  keeping s (checkCmd e.xa e.xb rs c)
  let (a, s1) ← readBlocks s e (c.addrs e.xb rs)
  let x ← keeping s1 (anvilRun (s1.cellOf s.hart.die s.hart.cell) (actlRm e.actl) c a)
  .ok (s1.setCell s.hart.die s.hart.cell x)

/-! ## Clearing and copying (11 R230 to R232) -/

/-- anv.zero. -/
def laneAnvZero (s : State) (e : VEntry) : KeepM State := do
  keeping s (if bitsOf e.xa 63 32 ≠ 0 ∨ bitsOf e.xa 3 0 ≠ 0 then trapAt 0x02 e.xa else .ok ())
  let q := accRect e.xa e.actl
  keeping s q.check
  let x := s.cellOf s.hart.die s.hart.cell
  .ok (s.setCell s.hart.die s.hart.cell (q.cells.foldl (fun x p => x.setAcc p.1 p.2 0) x))

/-- A position word's reserved bits, checked at every VL (11 R231). -/
def checkPosition (e : VEntry) : Except Stop Unit := if bitsOf e.xa 63 17 ≠ 0 then trapAt 0x02 e.xa else .ok ()

/-- The linear index from which a position word counts, and its direction (11 R231): the base is checked whatever the
mask. DEDUCED (log 60): not at EVL 0. -/
def accBase (e : VEntry) : Except Stop (Nat × Bool) := do
  checkPosition e
  let r := actlRbase e.actl + bitsOf e.xa 15 8
  let c := actlCbase e.actl + bitsOf e.xa 7 0
  let down := e.xa.getLsbD 16
  AccRect.check { r0 := r, c0 := c, m := 1, n := 1 }
  .ok (if down then c * 256 + r else r * 256 + c, down)

/-- The accumulator elements of the active elements (11 R231). -/
def accElems (e : VEntry) (act : List Nat) : Except Stop (List (Nat × Nat × Nat)) := do
  let (base, down) ← accBase e
  match act.find? fun i => 65535 < base + i with
  | some i => trapAt 0x12 (BitVec.ofNat 64 i)
  | none =>
    .ok (act.map fun i =>
      let l := base + i
      if down then (i, l % 256, l / 256) else (i, l / 256, l % 256))

/-- acc.ld. -/
def laneAccLd (s : State) (e : VEntry) (d : VReg) : KeepM State :=
  let n := evlOf s.hart e 32
  if n = 0 then keeping s ((checkPosition e).map fun _ => s)
  else
    lane s e [] [(d, 32)] fun h _ => do
      checkMask h e 32 n
      let l ← accElems e (activeBelow h e n)
      let x := s.cellOf h.die h.cell
      x.checkErrors (l.map (·.2))
      .ok (h.deliver true d 32 (l.map fun p => (p.1, (x.accAt p.2.1 p.2.2).toNat)))

/-- acc.st. -/
def laneAccSt (s : State) (e : VEntry) (a : VReg) : KeepM State := do
  let n := evlOf s.hart e 32
  if n = 0 then keeping s ((checkPosition e).map fun _ => s)
  else do
    let act := activeBelow s.hart e n
    let srcs : List Src := [{ reg := a, w := 32, ea := false, elems := act }]
    let h ← laneFilled s e 32 srcs
    let l ← keeping s (accElems e act)
    let s1 ← laneDone s e srcs
    let x := s1.cellOf h.die h.cell
    .ok (s1.setCell h.die h.cell
      (l.foldl (fun x p => x.setAcc p.2.1 p.2.2 (BitVec.ofNat 32 (vElem h.vreg[a] 32 p.1))) x))

/-- The address of an element of acc.mem's rectangle (11 R232). -/
def accMemAddr (e : VEntry) (q : AccRect) (p : Nat × Nat) : Word :=
  let stride := if bitsOf e.xb 63 32 = 0 then 4 * q.n else bitsOf e.xb 63 32
  e.xa + BitVec.ofNat 64 ((p.1 - q.r0) * stride + 4 * (p.2 - q.c0))

/-- The places of acc.mem's elements. -/
def accPlaces (s : State) (g : Agent) (k : Access) : List ((Nat × Nat) × Word) → Except Stop (List ((Nat × Nat) × Word × Place))
  | [] => .ok []
  | (c, va) :: rest => do
    let p ← atAddr va (ownPlace s g k va 4)
    let l ← accPlaces s g k rest
    .ok ((c, va, p) :: l)

/-- acc.mem (11 R232). -/
def laneAccMem (s : State) (e : VEntry) (load : Bool) : KeepM State := do
  let h := s.hart
  keeping s (if bitsOf e.xb 3 0 ≠ 0 then trapAt 0x02 e.xb else .ok ())
  let q := accRect e.xb e.actl
  keeping s q.check
  keeping s (if bitsOf e.xa 1 0 ≠ 0 ∨ bitsOf e.xb 33 32 ≠ 0 then trapAt 0x05 e.xa else .ok ())
  let g := entryAgent h e
  let ps ← keeping s (accPlaces s g (if load then .read else .write) (q.cells.map fun p => (p, accMemAddr e q p)))
  let leaves := ps.map fun p => (p.2.1, p.2.2.leaf)
  if load then do
    let s1 ← keeping s (if ps.any (fun p => meetsBuffer h.buffer p.2.2.pa 4) then quenchNow s true else .ok s)
    match ps.findSome? fun p => (readFault s1 p.2.2.pa 4).map fun c => (c, p.2.1) with
    | some f => .error (.trap { cause := f.1, addr := f.2 }, s1)
    | none =>
      let s2 := tlbFillAll s1 g leaves
      .ok (s2.setCell h.die h.cell (ps.foldl (fun x p =>
        x.setAcc p.1.1 p.1.2 (BitVec.ofNat 32 (s1.mem.readLe p.2.2.pa 4))) (s2.cellOf h.die h.cell)))
  else do
    let x := s.cellOf h.die h.cell
    keeping s (x.checkErrors q.cells)
    let s1 ← lanePrelude s (ps.map fun p => (p.2.2.pa, 4))
    .ok (ps.foldl (fun s p => s.storeLe p.2.2.pa 4 (x.accAt p.1.1 p.1.2).toNat) (tlbFillAll s1 g leaves))

/-! ## vrsum.bfp (11 R233) -/

/-- One group's contribution. -/
def bfpGroup (mode : RMode) (acc : Nat) (vals : List FVal) : Nat :=
  if vals.any (fun v => !v.isFinite) then 0x7FC00000
  else if vals.all FVal.isZero then acc
  else
    let b := (packBlock 8 vals).1
    let sum : Int := ((List.range 60).map (mantissa b 8)).foldl (· + ·) 0
    let term := if sum = 0 then 0 else (roundF fmtF32 .rne (mulX (ofInt sum) (scaleVal (blkScale b))).1).1
    accStep mode acc term

/-- vrsum.bfp. -/
def laneSumBfp (s : State) (e : VEntry) (d : SReg) (a : VReg) : KeepM State :=
  let n := evlOf s.hart e 32
  let act := activeBelow s.hart e n
  lane s e [{ reg := a, w := 32, ea := false, elems := act }] [] fun h _ => do
    checkMask h e 32 n
    let acc := (List.range ((n + 59) / 60)).foldl (fun acc g =>
      bfpGroup (actlRm e.actl) acc (((List.range (min 60 (n - g * 60))).map (g * 60 + ·)).map fun i =>
        if act.contains i then unpack fmtF32 (vElem h.vreg[a] 32 i) else .fin false 0 0)) (e.xa.toNat % 2 ^ 32)
    .ok (h.laneResult d (BitVec.ofNat 64 acc))

end Sys2Proof.Machine
end

