-- ==== Sys2Proof/Decode.lean ====
section
/-!
DEFINITION. From instruction words to instructions, total on any word, and back (03 R55 to R82). Words are natural
numbers below 2^32; a field [h:l] is w / 2^l % 2^(h - l + 1).
-/
namespace Sys2Proof

/-! Compiled code cannot build a constructor with arguments that stands beyond the 245th of its type, and `Instr` has
more: the definitions below that build one are for the kernel only. -/

noncomputable section

/-- What the hart finds in a word (03 R82): an instruction, or the first cause of steps 1 to 3 that applies. -/
inductive Decoded where
  | ok (i : Instr)
  /-- Step 1, cause 0x01. -/
  | illegal
  /-- Step 2, cause 0x02. -/
  | reserved
  /-- Step 3, cause 0x07. -/
  | misaligned
  deriving DecidableEq, Repr

/-- Steps 2 and 3 of 03 R82 for a word that passed step 1. -/
def checked (res mis : Bool) (i : Instr) : Decoded :=
  if res then .reserved else if mis then .misaligned else .ok i

/-! ## Fields (03 R56) -/

def wMajor (w : Nat) : Nat := w / 67108864 % 64
def wD (w : Nat) : Nat := w / 2097152 % 32
def wA (w : Nat) : Nat := w / 65536 % 32
def wB (w : Nat) : Nat := w / 2048 % 32
def wFunc9 (w : Nat) : Nat := w / 4 % 512
def wFunc8 (w : Nat) : Nat := w / 256 % 256
def wImm8 (w : Nat) : Nat := w % 256
def wEa (w : Nat) : Bool := w / 2 % 2 == 1
def wEb (w : Nat) : Bool := w % 2 == 1
/-- ea of formats I and M, bit 0. -/
def wE0 (w : Nat) : Bool := w % 2 == 1

def toS (x : Nat) : SReg := Fin.ofNat 32 x
def toV (x : Nat) : VReg := Fin.ofNat 32 x
def toM (x : Nat) : MReg := Fin.ofNat 8 x
def toT (x : Nat) : TReg := Fin.ofNat 8 x
def toC (x : Nat) : CBit := Fin.ofNat 8 x

/-- A 5-bit field that names a member of a file of eight has nonzero upper bits (03 R58). -/
def high (x : Nat) : Bool := x / 8 != 0
def bit (b : Bool) : Nat := if b then 1 else 0

/-! ## Codes (03 R61 to R63) -/

def IntTy.ofCode : Nat → Option IntTy
  | 0 => some .i8 | 1 => some .i16 | 2 => some .i32 | 3 => some .i64
  | 4 => some .n8 | 5 => some .n16 | 6 => some .n32 | 7 => some .n64
  | 8 => some .i4 | 9 => some .i6 | _ => none
def IntTy.code : IntTy → Nat
  | .i8 => 0 | .i16 => 1 | .i32 => 2 | .i64 => 3 | .n8 => 4 | .n16 => 5 | .n32 => 6 | .n64 => 7 | .i4 => 8 | .i6 => 9

def FltTy.ofCode : Nat → Option FltTy
  | 0 => some .f16 | 1 => some .bf16 | 2 => some .f32 | 3 => some .f64
  | 4 => some .e4m3 | 5 => some .e5m2 | 6 => some .e2m1 | _ => none
def FltTy.code : FltTy → Nat
  | .f16 => 0 | .bf16 => 1 | .f32 => 2 | .f64 => 3 | .e4m3 => 4 | .e5m2 => 5 | .e2m1 => 6

def VFltTy.ofCode : Nat → Option VFltTy
  | 0 => some .f16 | 1 => some .bf16 | 2 => some .f32 | 3 => some .f64 | _ => none
def VFltTy.code : VFltTy → Nat
  | .f16 => 0 | .bf16 => 1 | .f32 => 2 | .f64 => 3

def SFltTy.ofCode : Nat → Option SFltTy
  | 2 => some .f32 | 3 => some .f64 | _ => none
def SFltTy.code : SFltTy → Nat
  | .f32 => 2 | .f64 => 3

/-- An element type by its class bit and ty4. -/
def ElemTy.ofCode (cls ty4 : Nat) : Option ElemTy :=
  if cls = 0 then (IntTy.ofCode ty4).map .int else (FltTy.ofCode ty4).map .flt
def ElemTy.cls : ElemTy → Nat
  | .int _ => 0 | .flt _ => 1
def ElemTy.code : ElemTy → Nat
  | .int t => t.code | .flt t => t.code

def Rel.ofCode : Nat → Option Rel
  | 0 => some .eq | 1 => some .ne | 2 => some .lt | 3 => some .ge | 4 => some .gt | 5 => some .le | _ => none
def Rel.code : Rel → Nat
  | .eq => 0 | .ne => 1 | .lt => 2 | .ge => 3 | .gt => 4 | .le => 5

def Scope.ofCode : Nat → Option Scope
  | 0 => some .h | 1 => some .co | 2 => some .ce | 3 => some .d | 4 => some .p | 5 => some .sy | _ => none
def Scope.code : Scope → Nat
  | .h => 0 | .co => 1 | .ce => 2 | .d => 3 | .p => 4 | .sy => 5

def Width.ofCode : Nat → Option Width
  | 0 => some .w8 | 1 => some .w16 | 2 => some .w32 | 3 => some .w64 | 4 => some .w4 | 5 => some .w6 | _ => none
def Width.code : Width → Nat
  | .w8 => 0 | .w16 => 1 | .w32 => 2 | .w64 => 3 | .w4 => 4 | .w6 => 5

def Size.ofCode : Nat → Size
  | 0 => .b1 | 1 => .b2 | 2 => .b4 | _ => .b8
def Size.code : Size → Nat
  | .b1 => 0 | .b2 => 1 | .b4 => 2 | .b8 => 3

def ASize.ofCode : Nat → Option ASize
  | 2 => some .w32 | 3 => some .w64 | _ => none
def ASize.code : ASize → Nat
  | .w32 => 2 | .w64 => 3

def TreeTy.ofCode : Nat → Option TreeTy
  | 0 => some .f32 | 1 => some .i32 | 2 => some .n32 | _ => none
def TreeTy.code : TreeTy → Nat
  | .f32 => 0 | .i32 => 1 | .n32 => 2

def TreeComb.ofCode : Nat → Option TreeComb
  | 0 => some .add | 1 => some .addSat | 2 => some .max | 3 => some .min | 4 => some .or | _ => none
def TreeComb.code : TreeComb → Nat
  | .add => 0 | .addSat => 1 | .max => 2 | .min => 3 | .or => 4

def EwOp.ofCode : Nat → Option EwOp
  | 0 => some .add | 1 => some .sub | 2 => some .mul | 3 => some .max | 4 => some .min | _ => none
def EwOp.code : EwOp → Nat
  | .add => 0 | .sub => 1 | .mul => 2 | .max => 3 | .min => 4

def RedOp.ofCode : Nat → Option RedOp
  | 0 => some .sum | 1 => some .max | 2 => some .min | _ => none
def RedOp.code : RedOp → Nat
  | .sum => 0 | .max => 1 | .min => 2

def CvtMode.ofCode : Nat → CvtMode
  | 0 => .dyn | 1 => .rne | 2 => .rtz | 3 => .rdn | _ => .rup
def CvtMode.code : CvtMode → Nat
  | .dyn => 0 | .rne => 1 | .rtz => 2 | .rdn => 3 | .rup => 4

/-- The mantissa width of a bfp code 0x8 to 0xE (03 R62). -/
def bfpOfCode (c : Nat) : Option BfpW := if 8 ≤ c ∧ c ≤ 14 then some (Fin.ofNat 7 (c - 8)) else none
def bfpCode (b : BfpW) : Nat := 8 + b.val

/-! ## Scalar majors 0x01 to 0x16 -/

/-- Major 0x01 (03 R65). -/
def dec01 (w : Nat) : Decoded :=
  let d := toS (wD w); let a := toS (wA w); let b := toS (wB w); let x := wEa w; let y := wEb w
  match wFunc9 w with
  | 0x000 => .ok (.add d a b x y) | 0x001 => .ok (.sub d a b x y) | 0x002 => .ok (.and d a b x y)
  | 0x003 => .ok (.or d a b x y) | 0x004 => .ok (.xor d a b x y) | 0x005 => .ok (.sll d a b x y)
  | 0x006 => .ok (.srl d a b x y) | 0x007 => .ok (.sra d a b x y) | 0x008 => .ok (.mul d a b x y)
  | 0x009 => .ok (.mulh d a b x y) | 0x00A => .ok (.mulhN d a b x y) | 0x00B => .ok (.div d a b x y)
  | 0x00C => .ok (.divN d a b x y) | 0x00D => .ok (.rem d a b x y) | 0x00E => .ok (.remN d a b x y)
  | 0x00F => .ok (.min d a b x y) | 0x010 => .ok (.max d a b x y) | 0x011 => .ok (.minN d a b x y)
  | 0x012 => .ok (.maxN d a b x y) | 0x013 => .ok (.add32 d a b x y) | 0x014 => .ok (.sub32 d a b x y)
  | _ => .illegal

/-- Majors 0x02 to 0x05: the 15-bit immediate of format I. -/
def wImm15 (w : Nat) : BitVec 15 := BitVec.ofNat 15 (w / 2)
def dec02 (w : Nat) : Decoded := .ok (.addi (toS (wD w)) (toS (wA w)) (wImm15 w) (wE0 w))
def dec03 (w : Nat) : Decoded := .ok (.andi (toS (wD w)) (toS (wA w)) (wImm15 w) (wE0 w))
def dec04 (w : Nat) : Decoded := .ok (.ori (toS (wD w)) (toS (wA w)) (wImm15 w) (wE0 w))
def dec05 (w : Nat) : Decoded := .ok (.xori (toS (wD w)) (toS (wA w)) (wImm15 w) (wE0 w))

/-- Major 0x06 (03 R66). -/
def dec06 (w : Nat) : Decoded :=
  let d := toS (wD w); let a := toS (wA w); let n := w / 2 % 64; let wide := w / 8192 % 2 == 0; let x := wE0 w
  let res := w / 128 % 64 != 0 || (!wide && n / 32 != 0)
  match w / 16384 % 4 with
  | 0 => checked res false (if wide then .slli d a (BitVec.ofNat 6 n) x else .slli32 d a (BitVec.ofNat 5 n) x)
  | 1 => checked res false (if wide then .srli d a (BitVec.ofNat 6 n) x else .srli32 d a (BitVec.ofNat 5 n) x)
  | 2 => checked res false (if wide then .srai d a (BitVec.ofNat 6 n) x else .srai32 d a (BitVec.ofNat 5 n) x)
  | _ => .illegal

/-- Major 0x07 (03 R64). -/
def dec07 (w : Nat) : Decoded :=
  match Rel.ofCode (w / 8192 % 8) with
  | none => .illegal
  | some rel =>
    let c := toC (w / 2097152 % 8); let a := toS (wA w); let imm := BitVec.ofNat 11 (w / 2)
    checked (w / 16777216 % 4 != 0) false
      (if w / 4096 % 2 = 0 then .cmpi c a rel imm (wE0 w) else .cmpiN c a rel imm (wE0 w))

def dec08 (w : Nat) : Decoded := .ok (.ldhi (toS (wD w)) (BitVec.ofNat 21 w))
def dec09 (w : Nat) : Decoded := .ok (.addpc (toS (wD w)) (BitVec.ofNat 21 w))

/-- Major 0x0A (03 R67). -/
def dec0A (w : Nat) : Decoded :=
  let d := toS (wD w); let a := toS (wA w); let b := toS (wB w); let x := wEa w; let y := wEb w
  let res := wB w != 0 || y
  match SFltTy.ofCode (w / 4 % 16) with
  | none => .illegal
  | some t =>
    match w / 64 % 32 with
    | 0 => .ok (.fadd d a b t x y) | 1 => .ok (.fsub d a b t x y) | 2 => .ok (.fmul d a b t x y)
    | 3 => .ok (.fdiv d a b t x y) | 4 => checked res false (.fsqrt d a t x)
    | 5 => .ok (.fmin d a b t x y) | 6 => .ok (.fmax d a b t x y) | 7 => .ok (.fma d a b t x y)
    | 8 => .ok (.fcopys d a b t x y) | 9 => .ok (.fcopyn d a b t x y) | 10 => .ok (.fxors d a b t x y)
    | 11 => checked res false (.fcvti d a t x) | 12 => checked res false (.fcvtn d a t x)
    | 13 => checked res false (.icvtf d a t x) | 14 => checked res false (.ncvtf d a t x)
    | 15 => checked res false (.fcvtf d a t x)
    | _ => .illegal

/-- The displacement, size and ord of format M (03 R56, R71). -/
def wDisp (w : Nat) : BitVec 12 := BitVec.ofNat 12 (w / 16)
def wSize (w : Nat) : Size := Size.ofCode (w / 4 % 4)
def wOrd (w : Nat) : Bool := w / 2 % 2 == 1

def dec0B (w : Nat) : Decoded :=
  if wOrd w && wSize w == .b8 then .illegal
  else .ok (.ld (toS (wD w)) (toS (wA w)) (wDisp w) (wSize w) (wOrd w) (wE0 w))
def dec0C (w : Nat) : Decoded :=
  checked (wOrd w) false (.st (toS (wD w)) (toS (wA w)) (wDisp w) (wSize w) (wE0 w))

/-- Major 0x0D (03 R68). -/
def dec0D (w : Nat) : Decoded :=
  let d := toS (wD w); let a := toS (wA w); let b := toS (wB w); let x := wEa w; let y := wEb w
  match Scope.ofCode (w / 4 % 8) with
  | none => .illegal
  | some sc =>
    match w / 128 % 16 with
    | 0 => checked (wB w != 0 || y) false (.ldAcq d a (Size.ofCode (w / 32 % 4)) sc x)
    | 1 => checked (wD w != 0) false (.stRel a b (Size.ofCode (w / 32 % 4)) sc x y)
    | op =>
      match ASize.ofCode (w / 32 % 4) with
      | none => .illegal
      | some z =>
        match op with
        | 2 => .ok (.amoSwap d a b z sc x y) | 3 => .ok (.amoAdd d a b z sc x y) | 4 => .ok (.amoAnd d a b z sc x y)
        | 5 => .ok (.amoOr d a b z sc x y) | 6 => .ok (.amoXor d a b z sc x y) | 7 => .ok (.amoMin d a b z sc x y)
        | 8 => .ok (.amoMax d a b z sc x y) | 9 => .ok (.amoMinN d a b z sc x y)
        | 10 => .ok (.amoMaxN d a b z sc x y) | 11 => .ok (.cas d a b z sc x y)
        | _ => .illegal

/-- Major 0x0E (03 R64, 04 R111). -/
def dec0E (w : Nat) : Decoded :=
  let res := wD w != 0 || wA w != 0 || wImm8 w / 8 != 0
  match Scope.ofCode (wImm8 w % 8) with
  | none => .illegal
  | some sc =>
    match w / 256 % 256 with
    | 0 => checked res false (.fence sc) | 1 => checked res false (.fenceLd sc)
    | 2 => checked res false (.fenceSt sc) | 3 => checked res false (.fenceEng sc)
    | _ => .illegal

/-- Major 0x0F (03 R69, 04 R91, R92). -/
def dec0F (w : Nat) : Decoded :=
  let a := toS (wA w); let b := toS (wB w); let x := wEa w; let y := wEb w
  let cd := toC (wD w); let ca := toC (wA w); let cb := toC (wB w)
  let res3 := high (wD w) || high (wA w) || high (wB w) || x || y
  match w / 256 % 8 with
  | 0 =>
    match Rel.ofCode (w / 32 % 8) with
    | none => .illegal
    | some rel => checked (high (wD w) || w / 4 % 4 != 0) false
        (if w / 16 % 2 = 0 then .cmp cd a b rel x y else .cmpN cd a b rel x y)
  | 1 =>
    match Rel.ofCode (w / 32 % 8) with
    | none => .illegal
    | some rel => checked (high (wD w) || w / 4 % 4 != 0) false
        (.fcmp cd a b rel (if w / 16 % 2 = 0 then .f32 else .f64) x y)
  | 2 =>
    match w / 4 % 64 with
    | 0 => checked res3 false (.cand cd ca cb) | 1 => checked res3 false (.cor cd ca cb)
    | 2 => checked res3 false (.cxor cd ca cb) | 3 => checked res3 false (.candn cd ca cb)
    | 4 => checked (high (wD w) || high (wA w) || wB w != 0 || x || y) false (.cnot cd ca)
    | 5 => checked (high (wA w) || wB w != 0 || x || y) false (.cget (toS (wD w)) ca)
    | 6 => checked (high (wD w) || wB w != 0 || y) false (.cput cd a x)
    | _ => .illegal
  | _ => .illegal

/-- Majors 0x10 to 0x14 (03 R64, 04 R93). -/
def dec10 (w : Nat) : Decoded :=
  let c := toC (w / 8388608 % 8); let disp := BitVec.ofNat 22 w
  .ok (if w / 4194304 % 2 = 1 then .br c disp else .brn c disp)
def dec11 (w : Nat) : Decoded := .ok (.jmp (BitVec.ofNat 26 w))
def dec12 (w : Nat) : Decoded := .ok (.call (BitVec.ofNat 26 w))
def dec13 (w : Nat) : Decoded :=
  let res := wA w != 0 || wImm8 w != 0; let all := res || wD w != 0
  match wFunc8 w with
  | 0 => checked res false (.jmpr (toS (wD w))) | 1 => checked res false (.callr (toS (wD w)))
  | 2 => checked all false .ret | 3 => checked all false .gret
  | _ => .illegal
def dec14 (w : Nat) : Decoded := checked (w % 65536 != 0) false (.gate (Fin.ofNat 1024 (w / 65536)))

/-- A cwr: the rows of the table for single registers, or the general one. -/
def cwrOf (a : SReg) (n : Nat) : Instr :=
  match n with
  | 0x000 => .cwrVl a | 0x006 => .cwrLpart a | 0x040 => .cwrPrio a | 0x047 => .cwrStripmax a
  | 0x180 => .cwrPriv a | 0x182 => .cwrAsid a | 0x101 => .cwrTcause a | 0x020 => .cwrHctl a
  | _ => .cwr a (BitVec.ofNat 12 n)

/-- Major 0x15 (03 R70, 16 R324 to R343). -/
def dec15 (w : Nat) : Decoded :=
  let sa := toS (wD w); let sb := toS (wA w); let i8 := wImm8 w
  let none3 := wD w != 0 || wA w != 0 || i8 != 0
  let n := wA w % 16 * 256 + i8
  match wFunc8 w with
  | 0x00 => checked (wD w != 0 || wA w != 0) false (.trap (BitVec.ofNat 8 i8))
  | 0x01 => checked none3 false .tret
  | 0x02 => checked (wA w / 16 != 0) false (.crd sa (BitVec.ofNat 12 n))
  | 0x03 => checked (wA w / 16 != 0) false (cwrOf sa n)
  | 0x04 => match Scope.ofCode (i8 % 8) with
      | none => .illegal
      | some sc => checked (i8 / 8 != 0) false (.tlbInv sa sb sc)
  | 0x05 => checked (i8 != 0) false (.tlbPrb sa sb)
  | 0x06 => match Scope.ofCode (i8 % 8) with
      | none => .illegal
      | some sc => checked (i8 / 8 != 0) false (.cacheWb sa sb sc)
  | 0x07 => match Scope.ofCode (i8 % 8) with
      | none => .illegal
      | some sc => checked (i8 / 8 != 0) false (.cacheInv sa sb sc)
  | 0x08 => checked none3 false .halt
  | 0x09 => checked (wA w != 0 || i8 != 0) false (.wfe sa)
  | 0x0A => checked (wA w != 0 || i8 != 0) false (.evt sa)
  | _ => .illegal

/-- Major 0x16 (03 R72). -/
def dec16 (w : Nat) : Decoded :=
  let d := toS (wD w); let a := toS (wA w); let n : Fin 64 := Fin.ofNat 64 (w / 8); let res := w / 2 % 4 != 0
  match Width.ofCode (w / 512 % 8) with
  | none => .illegal
  | some z =>
    match w / 4096 % 16 with
    | 0 => checked (res || w / 8 % 64 != 0) false (.setvl d a z (wE0 w))
    | 1 => checked res false (.setvlDb d a z n (wE0 w))
    | 2 => checked res false (.setvlDbNb d a z n (wE0 w))
    | _ => .illegal

/-! ## Vector majors 0x17 to 0x22 -/

/-- Major 0x17 (03 R73). -/
def dec17 (w : Nat) : Decoded :=
  let d := toV (wD w); let a := toV (wA w); let b := toV (wB w); let x := wEa w; let y := wEb w
  let res := wB w != 0 || y
  match IntTy.ofCode (w / 4 % 16) with
  | none => .illegal
  | some t =>
    match w / 64 % 32 with
    | 0 => .ok (.vadd d a b t x y) | 1 => .ok (.vsub d a b t x y) | 2 => .ok (.vmul d a b t x y)
    | 3 => .ok (.vmin d a b t x y) | 4 => .ok (.vmax d a b t x y) | 5 => .ok (.vand d a b t x y)
    | 6 => .ok (.vor d a b t x y) | 7 => .ok (.vxor d a b t x y) | 8 => .ok (.vmulh d a b t x y)
    | 9 => .ok (.vdiv d a b t x y) | 10 => .ok (.vrem d a b t x y) | 11 => .ok (.vsll d a b t x y)
    | 12 => .ok (.vsrl d a b t x y) | 13 => .ok (.vsra d a b t x y) | 14 => .ok (.vaddSat d a b t x y)
    | 15 => .ok (.vsubSat d a b t x y) | 16 => checked res false (.vabs d a t x)
    | 17 => checked res false (.vneg d a t x) | 18 => .ok (.vmadd d a b t x y)
    | 19 => checked res false (.vmv d a t x)
    | _ => .illegal

/-- Major 0x18 (03 R73). -/
def dec18 (w : Nat) : Decoded :=
  let d := toV (wD w); let a := toV (wA w); let b := toV (wB w); let x := wEa w; let y := wEb w
  let res := wB w != 0 || y
  match VFltTy.ofCode (w / 4 % 16) with
  | none => .illegal
  | some t =>
    match w / 64 % 32 with
    | 0 => .ok (.vfadd d a b t x y) | 1 => .ok (.vfsub d a b t x y) | 2 => .ok (.vfmul d a b t x y)
    | 3 => .ok (.vfdiv d a b t x y) | 4 => .ok (.vfmin d a b t x y) | 5 => .ok (.vfmax d a b t x y)
    | 6 => .ok (.vfma d a b t x y) | 7 => .ok (.vfnma d a b t x y) | 8 => .ok (.vfms d a b t x y)
    | 9 => .ok (.vfnms d a b t x y) | 10 => .ok (.vfcopys d a b t x y) | 11 => .ok (.vfcopyn d a b t x y)
    | 12 => .ok (.vfxors d a b t x y) | 13 => checked res false (.vfabs d a t x)
    | 14 => checked res false (.vfneg d a t x) | 15 => checked res false (.vfmv d a t x)
    | _ => .illegal

/-- A base that is not a multiple of its group's size (03 R60). -/
def offGroup (d n : Nat) : Bool := d % n != 0

/-- Major 0x19 (03 R74). -/
def dec19 (w : Nat) : Decoded :=
  let d := toV (wD w); let a := toV (wA w); let b := toV (wB w); let x := wEa w; let y := wEb w
  let flt (f : FltTy → Instr) : Decoded :=
    match FltTy.ofCode (w / 4 % 16) with
    | none => .illegal
    | some t => if t.widening = 0 then .illegal else checked false (offGroup (wD w) t.widening) (f t)
  let int (f : IntTy → Instr) : Decoded :=
    match IntTy.ofCode (w / 4 % 16) with
    | none => .illegal
    | some t => if t.widening = 0 then .illegal else checked false (offGroup (wD w) t.widening) (f t)
  match w / 64 % 32 with
  | 0 => flt fun t => .vwfma d a b t x y
  | 1 => flt fun t => .vwfms d a b t x y
  | 2 => flt fun t => .vwmul d a b t x y
  | 16 => int fun t => .vwmadd d a b t x y
  | 17 => int fun t => .vwimul d a b t x y
  | _ => .illegal

/-- Major 0x1A (03 R64, 05 R132). -/
def dec1A (w : Nat) : Decoded :=
  match Rel.ofCode (w / 128 % 8), ElemTy.ofCode (w / 1024 % 2) (w / 4 % 16) with
  | some rel, some t =>
    checked (high (wD w) || w / 64 % 2 != 0) false (.vcmp (toM (wD w)) (toV (wA w)) (toV (wB w)) rel t (wEa w) (wEb w))
  | _, _ => .illegal

/-- Major 0x1B (03 R75, 05 R133). -/
def dec1B (w : Nat) : Decoded :=
  let d := toM (wD w); let a := toM (wA w); let b := toM (wB w); let e := wEa w || wEb w
  let res3 := high (wD w) || high (wA w) || high (wB w) || e
  match wFunc9 w with
  | 0 => checked res3 false (.mand d a b) | 1 => checked res3 false (.mor d a b)
  | 2 => checked res3 false (.mxor d a b) | 3 => checked res3 false (.mandn d a b)
  | 4 => checked (high (wD w) || high (wA w) || wB w != 0 || e) false (.mnot d a)
  | 5 => checked (high (wD w) || (high (wA w) && wA w != 8) || wB w != 0 || e) false
      (.mmov d (if wA w = 8 then .msm else .m a))
  | 6 => checked (high (wA w) || wB w != 0 || e) false (.mcpop (toS (wD w)) a)
  | 7 => checked (high (wA w) || wB w != 0 || e) false (.mfirst (toS (wD w)) a)
  | _ => .illegal

/-- Major 0x1C (03 R75, 05 R135). -/
def dec1C (w : Nat) : Decoded :=
  let d := toV (wD w); let a := toV (wA w); let b := toV (wB w); let sd := toS (wD w); let sb := toS (wB w)
  let x := wEa w; let y := wEb w; let res := wB w != 0 || y
  match ElemTy.ofCode (w / 64 % 2) (w / 4 % 16) with
  | none => .illegal
  | some t =>
    match w / 128 % 16 with
    | 0 => .ok (.vpush d a b t x y)
    | 1 => if t.summable then .ok (.vpushAdd d a b t x y) else .illegal
    | 2 => .ok (.vpull d a b t x y)
    | 3 => checked res false (.vcmpr d a t x)
    | 4 => if t.thresholds then checked false (offGroup (wD w) 2) (.vcmprTh d a sb t x y) else .illegal
    | 5 => checked res false (.vexpand d a t x)
    | 6 => .ok (.vslideUp d a sb t x y)
    | 7 => .ok (.vslideDn d a sb t x y)
    | 8 => .ok (.vbcast d a sb t x y)
    | 9 => .ok (.vext sd a sb t x y)
    | 10 => if t.summable then .ok (.vrsum sd a sb t x y) else .illegal
    | 11 => if t.summable then .ok (.vrmax sd a sb t x y) else .illegal
    | 12 => if t.summable then .ok (.vrmin sd a sb t x y) else .illegal
    | _ => .illegal

/-- Major 0x1D (03 R56, 05 R134). -/
def dec1D (w : Nat) : Decoded := .ok (.vidx (toV (wD w)) (BitVec.ofNat 11 (w / 1024)) (BitVec.ofNat 10 w))

/-- Majors 0x1E and 0x1F (03 R71). -/
def dec1E (w : Nat) : Decoded :=
  let d := toV (wD w); let a := toS (wA w)
  .ok (if wOrd w then .vlds d a (wDisp w) (wSize w) (wE0 w) else .vld d a (wDisp w) (wSize w) (wE0 w))
def dec1F (w : Nat) : Decoded :=
  let d := toV (wD w); let a := toS (wA w)
  .ok (if wOrd w then .vsts d a (wDisp w) (wSize w) (wE0 w) else .vst d a (wDisp w) (wSize w) (wE0 w))

/-- Major 0x20 (03 R76; 10 R199, R202, R203). -/
def dec20 (w : Nat) : Decoded :=
  let d := toV (wD w); let a := toS (wA w); let b := toV (wB w); let z := wSize w; let x := wEa w; let y := wEb w
  let sc := w / 32 % 8; let z4 := w / 16 % 2 != 0; let res := sc != 0 || z4; let odd := wA w % 2 != 0
  match w / 256 % 8 with
  | 0 => checked res odd (.vldx d a b z x y)
  | 1 => checked res odd (.vstx d a b z x y)
  | 2 => checked res odd (.vsaddInt d a b z x y)
  | 3 => match VFltTy.ofCode (w / 4 % 4) with
      | none => .illegal
      | some t => checked res odd (.vsaddFloat d a b t x y)
  | 4 => checked (res || high (wB w) || y) false (.vconf d (toV (wA w)) (toM (wB w)) z x)
  | 5 => match Scope.ofCode sc with
      | none => .illegal
      | some s => checked z4 odd (.vgth d a b s z x y)
  | _ => .illegal

/-- Major 0x21 (03 R77; 05 R129). -/
def dec21 (w : Nat) : Decoded :=
  let d := toV (wD w); let a := toV (wA w); let x := wEa w; let y := wEb w; let ty := w / 4 % 16; let bf := wB w
  let one (i : Instr) : Decoded := if ty = 2 then checked (bf != 0 || y) false i else .illegal
  let src := ElemTy.ofCode (bf / 16) (bf % 16)
  match w / 64 % 32 with
  | 0 => one (.vexp2 d a x) | 1 => one (.vlog2 d a x) | 2 => one (.vrcp d a x) | 3 => one (.vrsqrt d a x)
  | 4 => one (.vfsqrt d a x)
  | 24 => match bfpOfCode ty with
      | none => .illegal
      | some k => if bf = 18 then checked y false (.vpackBfp d a k x) else .illegal
  | 25 => match bfpOfCode (bf % 16) with
      | none => .illegal
      | some k => if ty = 2 ∧ bf / 16 = 1 then checked y false (.vunpackBfp d a k x) else .illegal
  | op =>
    if 8 ≤ op ∧ op ≤ 12 then
      match src, FltTy.ofCode ty with
      | some s, some t =>
        if cvtGroup s.bits t.bits ≤ 8 then
          checked y (!cvtAligned d a s.bits t.bits) (.vcvtToFloat d a s (CvtMode.ofCode (op - 8)) t x)
        else .illegal
      | _, _ => .illegal
    else if 16 ≤ op ∧ op ≤ 20 then
      match src, IntTy.ofCode ty with
      | some s, some t =>
        if cvtGroup s.bits t.bits ≤ 8 then
          checked y (!cvtAligned d a s.bits t.bits) (.vcvtToInt d a s (CvtMode.ofCode (op - 16)) t x)
        else .illegal
      | _, _ => .illegal
    else .illegal

/-- Major 0x22 (03 R78). -/
def dec22 (w : Nat) : Decoded :=
  let d := toV (wD w); let a := toV (wA w); let b := toS (wB w); let x := wEa w; let y := wEb w
  let ty := w / 4 % 16; let op := w / 64 % 8
  let cmp (t : Option ElemTy) : Decoded :=
    match Rel.ofCode op, t with
    | some rel, some t => checked (high (wD w)) false (.vcmpVs (toM (wD w)) a b rel t x y)
    | _, _ => .illegal
  match w / 512 % 4 with
  | 0 =>
    match IntTy.ofCode ty with
    | none => .illegal
    | some t =>
      match op with
      | 0 => .ok (.vaddVs d a b t x y) | 1 => .ok (.vsubVs d a b t x y)
      | 2 => .ok (.vmulVs d a b t x y) | 3 => .ok (.vminVs d a b t x y) | 4 => .ok (.vmaxVs d a b t x y)
      | 5 => .ok (.vandVs d a b t x y) | 6 => .ok (.vorVs d a b t x y) | _ => .ok (.vxorVs d a b t x y)
  | 1 =>
    match VFltTy.ofCode ty with
    | none => .illegal
    | some t =>
      match op with
      | 0 => .ok (.vfaddVs d a b t x y) | 1 => .ok (.vfsubVs d a b t x y)
      | 2 => .ok (.vfmulVs d a b t x y) | 3 => .ok (.vfdivVs d a b t x y) | 4 => .ok (.vfminVs d a b t x y)
      | 5 => .ok (.vfmaxVs d a b t x y) | 6 => .ok (.vfmaVs d a b t x y) | _ => .ok (.vfnmaVs d a b t x y)
  | 2 => cmp ((IntTy.ofCode ty).map .int)
  | _ => cmp ((FltTy.ofCode ty).map .flt)

/-! ## Tree, stream, anvil, tile, job, temper and task majors 0x23 to 0x2D -/

/-- Major 0x23 (03 R79, 06 R153). -/
def dec23 (w : Nat) : Decoded :=
  let d := toV (wD w); let a := toV (wA w); let t := toT (w / 8192 % 8); let k := w / 256 % 32
  let x := wEa w; let y := wEb w; let ty := w / 4 % 4
  let noA := wA w != 0 || x
  match TreeTy.ofCode ty with
  | none => .illegal
  | some z =>
    match w / 16 % 16 with
    | 0 => match k with
        | 0 => checked (noA || y) false (.tmov d t z)
        | 1 => checked (wD w != 0 || y) false (.tmovToTopo a t z x)
        | _ => .illegal
    | 1 => match TreeComb.ofCode k with
        | none => .illegal
        | some c => if z == .f32 && (c == .addSat || c == .or) then .illegal else checked y false (.tup d a t c z x)
    | 2 => match TreeComb.ofCode k with
        | none => .illegal
        | some c => if z == .f32 && (c == .addSat || c == .or) then .illegal else checked y false (.tdn d a t c z x)
    | 3 => checked (high k || y) false (.tbc d a t (toM k) z x)
    | 4 => if z = .n32 then checked (noA || k != 0 || y) false (.tdep d t) else .illegal
    | 5 => if z = .n32 then checked (noA || y) false (.tancK d t (Fin.ofNat 32 k)) else .illegal
    | 6 => checked (noA || high k || y) false (.tancM d t (toM k) z)
    | 7 => if z = .n32 then checked (high (wD w) || noA) false (.tisanc (toM (wD w)) t (toV k) y) else .illegal
    | 8 => if z = .n32 then checked (noA || k != 0 || y) false (.troot d t) else .illegal
    | 9 => if z = .n32 then checked (noA || k != 0 || y) false (.tdeg d t) else .illegal
    | 10 => checked (noA || k != 0 || y) false (.tchk d t z)
    | 11 => checked (k != 0 || y) false (.tctr d a t z x)
    | _ => .illegal

/-- Major 0x24 (03 R71, 06 R154). -/
def dec24 (w : Nat) : Decoded :=
  let t := toT (w / 2097152 % 8); let a := toS (wA w)
  if w / 4 % 4 ≠ 1 then .illegal
  else checked (w / 16777216 % 4 != 0) false
    (if wOrd w then .tst t a (wDisp w) (wE0 w) else .tld t a (wDisp w) (wE0 w))

/-- Major 0x25 (10 R213). -/
def dec25 (w : Nat) : Decoded :=
  let sa := toS (wD w); let n : HReg := Fin.ofNat 16 (w % 16)
  let hi := w / 16 % 16 != 0; let noB := wA w != 0; let noA := wD w != 0
  match wFunc8 w with
  | 0 => checked (hi || noB) false (.bwDef sa n)
  | 1 => checked (w / 16 % 8 != 0 || noB || (w / 128 % 2 == 0 && noA)) false
      (.bwBind (if w / 128 % 2 = 1 then some (toV (wD w)) else none) n)
  | 2 => checked (hi || noB || noA) false (.bwFree n)
  | 3 => checked (hi || noB) false (.bwPop sa n)
  | 4 => checked (hi || noB) false (.bwPopNb sa n)
  | 5 => checked (hi || noB) false (.bwPush sa n)
  | 6 => checked (hi || noB || noA) false (.bwWait n)
  | 7 => checked (hi || noB) false (.bwStat sa n)
  | _ => .illegal

/-- Major 0x26 (10 R217, R219). -/
def dec26 (w : Nat) : Decoded :=
  let sa := toS (wD w); let sb := toS (wA w); let n : Fin 64 := Fin.ofNat 64 (w % 64)
  let hi := w / 64 % 4 != 0; let noB := wA w != 0; let noA := wD w != 0
  match wFunc8 w with
  | 0 => checked hi false (.dbPub sa sb n)
  | 1 => checked (hi || noB) false (.dbRd sa n)
  | 2 => checked hi false (.abInit sa sb n)
  | 3 => checked (hi || noB) false (.abArrive sa n)
  | 4 => checked (hi || noB || noA) false (.abWait n)
  | 5 => checked (hi || noB || noA) false (.abWaitNb n)
  | 6 => checked (wImm8 w != 0 || noB || noA) false .bar
  | _ => .illegal

/-- Major 0x27 (11 R227, R230, R233). -/
def dec27 (w : Nat) : Decoded :=
  let sa := toS (wD w); let sb := toS (wA w); let i8 := wImm8 w
  match wFunc8 w with
  | 0 => checked (i8 != 0) false (.anvOp sa sb)
  | 1 => checked (i8 != 0 || wA w != 0) false (.anvZero sa)
  | 2 => checked (i8 / 32 != 0) false (.vrsumBfp sa (toV (wA w)) (toS (i8 % 32)))
  | _ => .illegal

/-- Major 0x28 (11 R226, R231, R232). -/
def dec28 (w : Nat) : Decoded :=
  let sa := toS (wD w); let sb := toS (wA w); let i8 := wImm8 w
  match wFunc8 w with
  | 0 => checked (i8 != 0) false (.accLd (toV (wD w)) sb)
  | 1 => checked (i8 != 0) false (.accSt (toV (wD w)) sb)
  | 2 => checked (i8 / 2 != 0) false (.accMem sa sb (i8 % 2 == 1))
  | 3 => checked (i8 != 0) false (.wbLoad sa sb)
  | _ => .illegal

/-- Major 0x29 (18 R358, R365 to R373). -/
def dec29 (w : Nat) : Decoded :=
  let sa := toS (wD w); let sb := toS (wA w); let i8 := wImm8 w; let d := toS (i8 % 32); let hi := i8 / 32
  let noB := wA w != 0; let noA := wD w != 0
  match wFunc8 w with
  | 0 => checked (hi != 0) false (.tlLd d sa sb)
  | 1 => checked (hi != 0) false (.tlMm d sa sb)
  | 2 => match EwOp.ofCode hi with
      | none => .illegal
      | some o => .ok (.tlEw d sa sb o)
  | 3 => checked (hi != 0) false (.tlMap d sa sb)
  | 4 => match RedOp.ofCode (hi % 4) with
      | none => .illegal
      | some o => checked noB false (.tlRed d sa o (hi / 4 == 1))
  | 5 => checked (hi != 0) false (.tlCvt d sa sb)
  | 6 => checked (i8 != 0) false (.tlForce sa sb)
  | 7 => checked (hi != 0) false (.tlSt sa sb d)
  | 8 => checked (i8 != 0 || noB) false (.tlPin sa)
  | 9 => checked (i8 != 0 || noB) false (.tlDrop sa)
  | 10 => checked (hi != 0) false (.tlStat d sa sb)
  | 11 => checked (i8 / 4 != 0 || noB || noA) false (.tlSync (i8 % 2 == 1) (i8 / 2 % 2 == 1))
  | _ => .illegal

/-- Major 0x2A (11 R242). -/
def dec2A (w : Nat) : Decoded :=
  let sa := toS (wD w); let sb := toS (wA w); let i8 := wImm8 w != 0; let noB := wA w != 0
  match wFunc8 w with
  | 0 => checked i8 false (.jobSub sa sb)
  | 1 => checked (i8 || noB) false (.jobWait sa)
  | 2 => checked i8 false (.jobPoll sa sb)
  | 3 => checked (i8 || noB) false (.jobCancel sa)
  | _ => .illegal

/-- Major 0x2B (20 R386). -/
def dec2B (w : Nat) : Decoded :=
  let sa := toS (wD w); let sb := toS (wA w); let n : Fin 16 := Fin.ofNat 16 (w % 16)
  let hi := w / 16 % 16 != 0; let noB := wA w != 0; let noA := wD w != 0
  match wFunc8 w with
  | 0 => checked (hi || noB) false (.tmOpen sa n)
  | 1 => checked hi false (.tmPut sa sb n)
  | 2 => checked (hi || noB) false (.tmMark sa n)
  | 3 => checked (hi || noB || noA) false (.tmCommit n)
  | 4 => checked hi false (.tmPoll sa sb n)
  | 5 => checked (hi || noB || noA) false (.tmAbort n)
  | _ => .illegal

/-- Major 0x2C (15 R310). -/
def dec2C (w : Nat) : Decoded :=
  let sa := toS (wD w); let sb := toS (wA w); let i8 := wImm8 w != 0; let noB := wA w != 0; let noA := wD w != 0
  match wFunc8 w with
  | 0 => checked i8 false (.spawn sa sb)
  | 1 => checked i8 false (.spawnX sa sb)
  | 2 => checked (i8 || noB) false (.join sa)
  | 3 => checked (i8 || noB) false (.waitJ sa)
  | 4 => checked i8 false (.forkL sa sb)
  | 5 => checked (i8 || noB || noA) false .joinL
  | 6 => checked (i8 || noB || noA) false .yield
  | 7 => checked (i8 || noB || noA) false .exit
  | 8 => checked (i8 || noB) false (.prio sa)
  | 9 => checked (i8 || noB) false (.coach sa)
  | _ => .illegal

/-- Major 0x2D (10 R206). -/
def dec2D (w : Nat) : Decoded :=
  let res := wImm8 w != 0 || wA w != 0 || wD w != 0
  match wFunc8 w with
  | 0 => checked res false .quench
  | 1 => checked res false .sabort
  | _ => .illegal

/-- Steps 1 to 3 of 03 R82 on a word. Total: majors 0x00 and 0x2E to 0x3E hold no instruction. -/
def decode (w : Nat) : Decoded :=
  match wMajor w with
  | 0x01 => dec01 w | 0x02 => dec02 w | 0x03 => dec03 w | 0x04 => dec04 w | 0x05 => dec05 w | 0x06 => dec06 w
  | 0x07 => dec07 w | 0x08 => dec08 w | 0x09 => dec09 w | 0x0A => dec0A w | 0x0B => dec0B w | 0x0C => dec0C w
  | 0x0D => dec0D w | 0x0E => dec0E w | 0x0F => dec0F w | 0x10 => dec10 w | 0x11 => dec11 w | 0x12 => dec12 w
  | 0x13 => dec13 w | 0x14 => dec14 w | 0x15 => dec15 w | 0x16 => dec16 w | 0x17 => dec17 w | 0x18 => dec18 w
  | 0x19 => dec19 w | 0x1A => dec1A w | 0x1B => dec1B w | 0x1C => dec1C w | 0x1D => dec1D w | 0x1E => dec1E w
  | 0x1F => dec1F w | 0x20 => dec20 w | 0x21 => dec21 w | 0x22 => dec22 w | 0x23 => dec23 w | 0x24 => dec24 w
  | 0x25 => dec25 w | 0x26 => dec26 w | 0x27 => dec27 w | 0x28 => dec28 w | 0x29 => dec29 w | 0x2A => dec2A w
  | 0x2B => dec2B w | 0x2C => dec2C w | 0x2D => dec2D w | 0x3F => .ok (.brk (BitVec.ofNat 26 w))
  | _ => .illegal

/-! ## The encoder -/

/-- Format A. -/
def encA (maj d a b func9 : Nat) (ea eb : Bool) : Nat :=
  maj * 67108864 + d * 2097152 + a * 65536 + b * 2048 + func9 * 4 + bit ea * 2 + bit eb
/-- Format I: the 15 bits above ea. -/
def encI (maj d a imm : Nat) (ea : Bool) : Nat := maj * 67108864 + d * 2097152 + a * 65536 + imm * 2 + bit ea
/-- Formats U and X: the 21 low bits; format B, J and G: all 26. -/
def encU (maj d low : Nat) : Nat := maj * 67108864 + d * 2097152 + low
def encJ (maj low : Nat) : Nat := maj * 67108864 + low
/-- Format M. -/
def encM (maj d a disp size : Nat) (ord ea : Bool) : Nat :=
  maj * 67108864 + d * 2097152 + a * 65536 + disp * 16 + size * 4 + bit ord * 2 + bit ea
/-- Format T. -/
def encT (vd va t k op ty : Nat) (ea eb : Bool) : Nat :=
  0x23 * 67108864 + vd * 2097152 + va * 65536 + t * 8192 + k * 256 + op * 16 + ty * 4 + bit ea * 2 + bit eb
/-- Format E. -/
def encE (maj sa sb func8 imm8 : Nat) : Nat := maj * 67108864 + sa * 2097152 + sb * 65536 + func8 * 256 + imm8

/-- A cwr or crd with its register number (03 R70). -/
def encCr (sa func8 n : Nat) : Nat := encE 0x15 sa (n / 256) func8 (n % 256)

/-- Operations of majors 0x0A, 0x17, 0x18, 0x19, 0x21: op in [10:6], ty4 in [5:2]. -/
def encOp (maj d a b op ty : Nat) (ea eb : Bool) : Nat := encA maj d a b (op * 16 + ty) ea eb
/-- Major 0x0D: op [10:7], size [6:5], scope [4:2]. -/
def encAt (d a b op size sc : Nat) (ea eb : Bool) : Nat := encA 0x0D d a b (op * 32 + size * 8 + sc) ea eb
/-- Major 0x1C: op [10:7], class [6], ty4 [5:2]. -/
def encX (d a b op cls ty : Nat) (ea eb : Bool) : Nat := encA 0x1C d a b (op * 32 + cls * 16 + ty) ea eb
/-- Major 0x20: op [10:8], scope [7:5], width [3:2]. -/
def encG (d a b op sc size : Nat) (ea eb : Bool) : Nat := encA 0x20 d a b (op * 64 + sc * 8 + size) ea eb
/-- Major 0x22: mirror [10:9], op [8:6], ty4 [5:2]. -/
def encV (d a b mirror op ty : Nat) (ea eb : Bool) : Nat := encA 0x22 d a b (mirror * 128 + op * 16 + ty) ea eb

def maskSrcCode : MaskSrc → Nat
  | .m r => r.val
  | .msm => 8

/-- The word of an instruction; none for an event, which no word names. -/
def encode : Instr → Option Nat
  | .add d a b x y => some (encA 0x01 d a b 0x000 x y)
  | .sub d a b x y => some (encA 0x01 d a b 0x001 x y)
  | .and d a b x y => some (encA 0x01 d a b 0x002 x y)
  | .or d a b x y => some (encA 0x01 d a b 0x003 x y)
  | .xor d a b x y => some (encA 0x01 d a b 0x004 x y)
  | .sll d a b x y => some (encA 0x01 d a b 0x005 x y)
  | .srl d a b x y => some (encA 0x01 d a b 0x006 x y)
  | .sra d a b x y => some (encA 0x01 d a b 0x007 x y)
  | .mul d a b x y => some (encA 0x01 d a b 0x008 x y)
  | .mulh d a b x y => some (encA 0x01 d a b 0x009 x y)
  | .mulhN d a b x y => some (encA 0x01 d a b 0x00A x y)
  | .div d a b x y => some (encA 0x01 d a b 0x00B x y)
  | .divN d a b x y => some (encA 0x01 d a b 0x00C x y)
  | .rem d a b x y => some (encA 0x01 d a b 0x00D x y)
  | .remN d a b x y => some (encA 0x01 d a b 0x00E x y)
  | .min d a b x y => some (encA 0x01 d a b 0x00F x y)
  | .max d a b x y => some (encA 0x01 d a b 0x010 x y)
  | .minN d a b x y => some (encA 0x01 d a b 0x011 x y)
  | .maxN d a b x y => some (encA 0x01 d a b 0x012 x y)
  | .add32 d a b x y => some (encA 0x01 d a b 0x013 x y)
  | .sub32 d a b x y => some (encA 0x01 d a b 0x014 x y)
  | .addi d a i x => some (encI 0x02 d a i.toNat x)
  | .andi d a i x => some (encI 0x03 d a i.toNat x)
  | .ori d a i x => some (encI 0x04 d a i.toNat x)
  | .xori d a i x => some (encI 0x05 d a i.toNat x)
  | .slli d a n x => some (encI 0x06 d a n.toNat x)
  | .srli d a n x => some (encI 0x06 d a (8192 + n.toNat) x)
  | .srai d a n x => some (encI 0x06 d a (16384 + n.toNat) x)
  | .slli32 d a n x => some (encI 0x06 d a (4096 + n.toNat) x)
  | .srli32 d a n x => some (encI 0x06 d a (8192 + 4096 + n.toNat) x)
  | .srai32 d a n x => some (encI 0x06 d a (16384 + 4096 + n.toNat) x)
  | .cmpi c a rel i x => some (encI 0x07 c a (rel.code * 4096 + i.toNat) x)
  | .cmpiN c a rel i x => some (encI 0x07 c a (rel.code * 4096 + 2048 + i.toNat) x)
  | .ldhi d i => some (encU 0x08 d i.toNat)
  | .addpc d i => some (encU 0x09 d i.toNat)
  | .fadd d a b t x y => some (encOp 0x0A d a b 0 t.code x y)
  | .fsub d a b t x y => some (encOp 0x0A d a b 1 t.code x y)
  | .fmul d a b t x y => some (encOp 0x0A d a b 2 t.code x y)
  | .fdiv d a b t x y => some (encOp 0x0A d a b 3 t.code x y)
  | .fsqrt d a t x => some (encOp 0x0A d a 0 4 t.code x false)
  | .fmin d a b t x y => some (encOp 0x0A d a b 5 t.code x y)
  | .fmax d a b t x y => some (encOp 0x0A d a b 6 t.code x y)
  | .fma d a b t x y => some (encOp 0x0A d a b 7 t.code x y)
  | .fcopys d a b t x y => some (encOp 0x0A d a b 8 t.code x y)
  | .fcopyn d a b t x y => some (encOp 0x0A d a b 9 t.code x y)
  | .fxors d a b t x y => some (encOp 0x0A d a b 10 t.code x y)
  | .fcvti d a t x => some (encOp 0x0A d a 0 11 t.code x false)
  | .fcvtn d a t x => some (encOp 0x0A d a 0 12 t.code x false)
  | .icvtf d a t x => some (encOp 0x0A d a 0 13 t.code x false)
  | .ncvtf d a t x => some (encOp 0x0A d a 0 14 t.code x false)
  | .fcvtf d a t x => some (encOp 0x0A d a 0 15 t.code x false)
  | .ld d a disp z sg x => some (encM 0x0B d a disp.toNat z.code sg x)
  | .st d a disp z x => some (encM 0x0C d a disp.toNat z.code false x)
  | .ldAcq d a z sc x => some (encAt d a 0 0 z.code sc.code x false)
  | .stRel a b z sc x y => some (encAt 0 a b 1 z.code sc.code x y)
  | .amoSwap d a b z sc x y => some (encAt d a b 2 z.code sc.code x y)
  | .amoAdd d a b z sc x y => some (encAt d a b 3 z.code sc.code x y)
  | .amoAnd d a b z sc x y => some (encAt d a b 4 z.code sc.code x y)
  | .amoOr d a b z sc x y => some (encAt d a b 5 z.code sc.code x y)
  | .amoXor d a b z sc x y => some (encAt d a b 6 z.code sc.code x y)
  | .amoMin d a b z sc x y => some (encAt d a b 7 z.code sc.code x y)
  | .amoMax d a b z sc x y => some (encAt d a b 8 z.code sc.code x y)
  | .amoMinN d a b z sc x y => some (encAt d a b 9 z.code sc.code x y)
  | .amoMaxN d a b z sc x y => some (encAt d a b 10 z.code sc.code x y)
  | .cas d a b z sc x y => some (encAt d a b 11 z.code sc.code x y)
  | .fence sc => some (encE 0x0E 0 0 0 sc.code)
  | .fenceLd sc => some (encE 0x0E 0 0 1 sc.code)
  | .fenceSt sc => some (encE 0x0E 0 0 2 sc.code)
  | .fenceEng sc => some (encE 0x0E 0 0 3 sc.code)
  | .cmp c a b rel x y => some (encA 0x0F c a b (rel.code * 8) x y)
  | .cmpN c a b rel x y => some (encA 0x0F c a b (rel.code * 8 + 4) x y)
  | .fcmp c a b rel t x y => some (encA 0x0F c a b (64 + rel.code * 8 + (t.code - 2) * 4) x y)
  | .cand d a b => some (encA 0x0F d a b (128 + 0) false false)
  | .cor d a b => some (encA 0x0F d a b (128 + 1) false false)
  | .cxor d a b => some (encA 0x0F d a b (128 + 2) false false)
  | .candn d a b => some (encA 0x0F d a b (128 + 3) false false)
  | .cnot d a => some (encA 0x0F d a 0 (128 + 4) false false)
  | .cget d a => some (encA 0x0F d a 0 (128 + 5) false false)
  | .cput d a x => some (encA 0x0F d a 0 (128 + 6) x false)
  | .br c disp => some (encJ 0x10 (c.val * 8388608 + 4194304 + disp.toNat))
  | .brn c disp => some (encJ 0x10 (c.val * 8388608 + disp.toNat))
  | .jmp disp => some (encJ 0x11 disp.toNat)
  | .call disp => some (encJ 0x12 disp.toNat)
  | .jmpr a => some (encE 0x13 a 0 0 0)
  | .callr a => some (encE 0x13 a 0 1 0)
  | .ret => some (encE 0x13 0 0 2 0)
  | .gret => some (encE 0x13 0 0 3 0)
  | .gate n => some (encJ 0x14 (n.val * 65536))
  | .trap n => some (encE 0x15 0 0 0x00 n.toNat)
  | .tret => some (encE 0x15 0 0 0x01 0)
  | .crd d n => some (encCr d 0x02 n.toNat)
  | .cwr a n => some (encCr a 0x03 n.toNat)
  | .cwrVl a => some (encCr a 0x03 0x000)
  | .cwrLpart a => some (encCr a 0x03 0x006)
  | .cwrPrio a => some (encCr a 0x03 0x040)
  | .cwrStripmax a => some (encCr a 0x03 0x047)
  | .cwrPriv a => some (encCr a 0x03 0x180)
  | .cwrAsid a => some (encCr a 0x03 0x182)
  | .cwrTcause a => some (encCr a 0x03 0x101)
  | .cwrHctl a => some (encCr a 0x03 0x020)
  | .tlbInv a b sc => some (encE 0x15 a b 0x04 sc.code)
  | .tlbPrb d b => some (encE 0x15 d b 0x05 0)
  | .cacheWb a b sc => some (encE 0x15 a b 0x06 sc.code)
  | .cacheInv a b sc => some (encE 0x15 a b 0x07 sc.code)
  | .halt => some (encE 0x15 0 0 0x08 0)
  | .wfe a => some (encE 0x15 a 0 0x09 0)
  | .evt a => some (encE 0x15 a 0 0x0A 0)
  | .setvl d a z x => some (encI 0x16 d a (z.code * 256) x)
  | .setvlDb d a z n x => some (encI 0x16 d a (2048 + z.code * 256 + n.val * 4) x)
  | .setvlDbNb d a z n x => some (encI 0x16 d a (4096 + z.code * 256 + n.val * 4) x)
  | .vadd d a b t x y => some (encOp 0x17 d a b 0 t.code x y)
  | .vsub d a b t x y => some (encOp 0x17 d a b 1 t.code x y)
  | .vmul d a b t x y => some (encOp 0x17 d a b 2 t.code x y)
  | .vmin d a b t x y => some (encOp 0x17 d a b 3 t.code x y)
  | .vmax d a b t x y => some (encOp 0x17 d a b 4 t.code x y)
  | .vand d a b t x y => some (encOp 0x17 d a b 5 t.code x y)
  | .vor d a b t x y => some (encOp 0x17 d a b 6 t.code x y)
  | .vxor d a b t x y => some (encOp 0x17 d a b 7 t.code x y)
  | .vmulh d a b t x y => some (encOp 0x17 d a b 8 t.code x y)
  | .vdiv d a b t x y => some (encOp 0x17 d a b 9 t.code x y)
  | .vrem d a b t x y => some (encOp 0x17 d a b 10 t.code x y)
  | .vsll d a b t x y => some (encOp 0x17 d a b 11 t.code x y)
  | .vsrl d a b t x y => some (encOp 0x17 d a b 12 t.code x y)
  | .vsra d a b t x y => some (encOp 0x17 d a b 13 t.code x y)
  | .vaddSat d a b t x y => some (encOp 0x17 d a b 14 t.code x y)
  | .vsubSat d a b t x y => some (encOp 0x17 d a b 15 t.code x y)
  | .vabs d a t x => some (encOp 0x17 d a 0 16 t.code x false)
  | .vneg d a t x => some (encOp 0x17 d a 0 17 t.code x false)
  | .vmadd d a b t x y => some (encOp 0x17 d a b 18 t.code x y)
  | .vmv d a t x => some (encOp 0x17 d a 0 19 t.code x false)
  | .vfadd d a b t x y => some (encOp 0x18 d a b 0 t.code x y)
  | .vfsub d a b t x y => some (encOp 0x18 d a b 1 t.code x y)
  | .vfmul d a b t x y => some (encOp 0x18 d a b 2 t.code x y)
  | .vfdiv d a b t x y => some (encOp 0x18 d a b 3 t.code x y)
  | .vfmin d a b t x y => some (encOp 0x18 d a b 4 t.code x y)
  | .vfmax d a b t x y => some (encOp 0x18 d a b 5 t.code x y)
  | .vfma d a b t x y => some (encOp 0x18 d a b 6 t.code x y)
  | .vfnma d a b t x y => some (encOp 0x18 d a b 7 t.code x y)
  | .vfms d a b t x y => some (encOp 0x18 d a b 8 t.code x y)
  | .vfnms d a b t x y => some (encOp 0x18 d a b 9 t.code x y)
  | .vfcopys d a b t x y => some (encOp 0x18 d a b 10 t.code x y)
  | .vfcopyn d a b t x y => some (encOp 0x18 d a b 11 t.code x y)
  | .vfxors d a b t x y => some (encOp 0x18 d a b 12 t.code x y)
  | .vfabs d a t x => some (encOp 0x18 d a 0 13 t.code x false)
  | .vfneg d a t x => some (encOp 0x18 d a 0 14 t.code x false)
  | .vfmv d a t x => some (encOp 0x18 d a 0 15 t.code x false)
  | .vwfma d a b t x y => some (encOp 0x19 d a b 0 t.code x y)
  | .vwfms d a b t x y => some (encOp 0x19 d a b 1 t.code x y)
  | .vwmul d a b t x y => some (encOp 0x19 d a b 2 t.code x y)
  | .vwmadd d a b t x y => some (encOp 0x19 d a b 16 t.code x y)
  | .vwimul d a b t x y => some (encOp 0x19 d a b 17 t.code x y)
  | .vcmp d a b rel t x y => some (encA 0x1A d a b (t.cls * 256 + rel.code * 32 + t.code) x y)
  | .mand d a b => some (encA 0x1B d a b 0 false false)
  | .mor d a b => some (encA 0x1B d a b 1 false false)
  | .mxor d a b => some (encA 0x1B d a b 2 false false)
  | .mandn d a b => some (encA 0x1B d a b 3 false false)
  | .mnot d a => some (encA 0x1B d a 0 4 false false)
  | .mmov d a => some (encA 0x1B d (maskSrcCode a) 0 5 false false)
  | .mcpop d a => some (encA 0x1B d a 0 6 false false)
  | .mfirst d a => some (encA 0x1B d a 0 7 false false)
  | .vpush d a b t x y => some (encX d a b 0 t.cls t.code x y)
  | .vpushAdd d a b t x y => some (encX d a b 1 t.cls t.code x y)
  | .vpull d a b t x y => some (encX d a b 2 t.cls t.code x y)
  | .vcmpr d a t x => some (encX d a 0 3 t.cls t.code x false)
  | .vcmprTh d a b t x y => some (encX d a b 4 t.cls t.code x y)
  | .vexpand d a t x => some (encX d a 0 5 t.cls t.code x false)
  | .vslideUp d a b t x y => some (encX d a b 6 t.cls t.code x y)
  | .vslideDn d a b t x y => some (encX d a b 7 t.cls t.code x y)
  | .vbcast d a b t x y => some (encX d a b 8 t.cls t.code x y)
  | .vext d a b t x y => some (encX d a b 9 t.cls t.code x y)
  | .vrsum d a b t x y => some (encX d a b 10 t.cls t.code x y)
  | .vrmax d a b t x y => some (encX d a b 11 t.cls t.code x y)
  | .vrmin d a b t x y => some (encX d a b 12 t.cls t.code x y)
  | .vidx d st sp => some (encU 0x1D d (st.toNat * 1024 + sp.toNat))
  | .vld d a disp z x => some (encM 0x1E d a disp.toNat z.code false x)
  | .vlds d a disp z x => some (encM 0x1E d a disp.toNat z.code true x)
  | .vst d a disp z x => some (encM 0x1F d a disp.toNat z.code false x)
  | .vsts d a disp z x => some (encM 0x1F d a disp.toNat z.code true x)
  | .vldx d a b z x y => some (encG d a b 0 0 z.code x y)
  | .vstx d a b z x y => some (encG d a b 1 0 z.code x y)
  | .vsaddInt d a b z x y => some (encG d a b 2 0 z.code x y)
  | .vsaddFloat d a b t x y => some (encG d a b 3 0 t.code x y)
  | .vconf d a b z x => some (encG d a b 4 0 z.code x false)
  | .vgth d a b sc z x y => some (encG d a b 5 sc.code z.code x y)
  | .vexp2 d a x => some (encOp 0x21 d a 0 0 2 x false)
  | .vlog2 d a x => some (encOp 0x21 d a 0 1 2 x false)
  | .vrcp d a x => some (encOp 0x21 d a 0 2 2 x false)
  | .vrsqrt d a x => some (encOp 0x21 d a 0 3 2 x false)
  | .vfsqrt d a x => some (encOp 0x21 d a 0 4 2 x false)
  | .vcvtToFloat d a s m t x => some (encOp 0x21 d a (s.cls * 16 + s.code) (8 + m.code) t.code x false)
  | .vcvtToInt d a s m t x => some (encOp 0x21 d a (s.cls * 16 + s.code) (16 + m.code) t.code x false)
  | .vpackBfp d a k x => some (encOp 0x21 d a 18 24 (bfpCode k) x false)
  | .vunpackBfp d a k x => some (encOp 0x21 d a (16 + bfpCode k) 25 2 x false)
  | .vaddVs d a b t x y => some (encV d a b 0 0 t.code x y)
  | .vsubVs d a b t x y => some (encV d a b 0 1 t.code x y)
  | .vmulVs d a b t x y => some (encV d a b 0 2 t.code x y)
  | .vminVs d a b t x y => some (encV d a b 0 3 t.code x y)
  | .vmaxVs d a b t x y => some (encV d a b 0 4 t.code x y)
  | .vandVs d a b t x y => some (encV d a b 0 5 t.code x y)
  | .vorVs d a b t x y => some (encV d a b 0 6 t.code x y)
  | .vxorVs d a b t x y => some (encV d a b 0 7 t.code x y)
  | .vfaddVs d a b t x y => some (encV d a b 1 0 t.code x y)
  | .vfsubVs d a b t x y => some (encV d a b 1 1 t.code x y)
  | .vfmulVs d a b t x y => some (encV d a b 1 2 t.code x y)
  | .vfdivVs d a b t x y => some (encV d a b 1 3 t.code x y)
  | .vfminVs d a b t x y => some (encV d a b 1 4 t.code x y)
  | .vfmaxVs d a b t x y => some (encV d a b 1 5 t.code x y)
  | .vfmaVs d a b t x y => some (encV d a b 1 6 t.code x y)
  | .vfnmaVs d a b t x y => some (encV d a b 1 7 t.code x y)
  | .vcmpVs d a b rel t x y => some (encV d a b (2 + t.cls) rel.code t.code x y)
  | .tmov d t z => some (encT d 0 t 0 0 z.code false false)
  | .tmovToTopo a t z x => some (encT 0 a t 1 0 z.code x false)
  | .tup d a t c z x => some (encT d a t c.code 1 z.code x false)
  | .tdn d a t c z x => some (encT d a t c.code 2 z.code x false)
  | .tbc d a t m z x => some (encT d a t m 3 z.code x false)
  | .tdep d t => some (encT d 0 t 0 4 2 false false)
  | .tancK d t k => some (encT d 0 t k 5 2 false false)
  | .tancM d t m z => some (encT d 0 t m 6 z.code false false)
  | .tisanc d t b y => some (encT d 0 t b 7 2 false y)
  | .troot d t => some (encT d 0 t 0 8 2 false false)
  | .tdeg d t => some (encT d 0 t 0 9 2 false false)
  | .tchk d t z => some (encT d 0 t 0 10 z.code false false)
  | .tctr d a t z x => some (encT d a t 0 11 z.code x false)
  | .tld t a disp x => some (encM 0x24 t a disp.toNat 1 false x)
  | .tst t a disp x => some (encM 0x24 t a disp.toNat 1 true x)
  | .bwDef a n => some (encE 0x25 a 0 0 n)
  | .bwBind v n => some (match v with
      | some r => encE 0x25 r 0 1 (128 + n.val)
      | none => encE 0x25 0 0 1 n)
  | .bwFree n => some (encE 0x25 0 0 2 n)
  | .bwPop d n => some (encE 0x25 d 0 3 n)
  | .bwPopNb d n => some (encE 0x25 d 0 4 n)
  | .bwPush a n => some (encE 0x25 a 0 5 n)
  | .bwWait n => some (encE 0x25 0 0 6 n)
  | .bwStat d n => some (encE 0x25 d 0 7 n)
  | .dbPub a b n => some (encE 0x26 a b 0 n)
  | .dbRd d n => some (encE 0x26 d 0 1 n)
  | .abInit a b n => some (encE 0x26 a b 2 n)
  | .abArrive a n => some (encE 0x26 a 0 3 n)
  | .abWait n => some (encE 0x26 0 0 4 n)
  | .abWaitNb n => some (encE 0x26 0 0 5 n)
  | .bar => some (encE 0x26 0 0 6 0)
  | .anvOp a b => some (encE 0x27 a b 0 0)
  | .anvZero a => some (encE 0x27 a 0 1 0)
  | .vrsumBfp d v s => some (encE 0x27 d v 2 s)
  | .accLd v b => some (encE 0x28 v b 0 0)
  | .accSt v b => some (encE 0x28 v b 1 0)
  | .accMem a b l => some (encE 0x28 a b 2 (bit l))
  | .wbLoad a b => some (encE 0x28 a b 3 0)
  | .tlLd d a b => some (encE 0x29 a b 0 d)
  | .tlMm d a b => some (encE 0x29 a b 1 d)
  | .tlEw d a b o => some (encE 0x29 a b 2 (o.code * 32 + d.val))
  | .tlMap d a b => some (encE 0x29 a b 3 d)
  | .tlRed d a o c => some (encE 0x29 a 0 4 (bit c * 128 + o.code * 32 + d.val))
  | .tlCvt d a b => some (encE 0x29 a b 5 d)
  | .tlForce a b => some (encE 0x29 a b 6 0)
  | .tlSt a b r => some (encE 0x29 a b 7 r)
  | .tlPin a => some (encE 0x29 a 0 8 0)
  | .tlDrop a => some (encE 0x29 a 0 9 0)
  | .tlStat d a b => some (encE 0x29 a b 10 d)
  | .tlSync p c => some (encE 0x29 0 0 11 (bit c * 2 + bit p))
  | .jobSub a b => some (encE 0x2A a b 0 0)
  | .jobWait a => some (encE 0x2A a 0 1 0)
  | .jobPoll a b => some (encE 0x2A a b 2 0)
  | .jobCancel a => some (encE 0x2A a 0 3 0)
  | .tmOpen a n => some (encE 0x2B a 0 0 n)
  | .tmPut a b n => some (encE 0x2B a b 1 n)
  | .tmMark a n => some (encE 0x2B a 0 2 n)
  | .tmCommit n => some (encE 0x2B 0 0 3 n)
  | .tmPoll d b n => some (encE 0x2B d b 4 n)
  | .tmAbort n => some (encE 0x2B 0 0 5 n)
  | .spawn a b => some (encE 0x2C a b 0 0)
  | .spawnX a b => some (encE 0x2C a b 1 0)
  | .join a => some (encE 0x2C a 0 2 0)
  | .waitJ a => some (encE 0x2C a 0 3 0)
  | .forkL a d => some (encE 0x2C a d 4 0)
  | .joinL => some (encE 0x2C 0 0 5 0)
  | .yield => some (encE 0x2C 0 0 6 0)
  | .exit => some (encE 0x2C 0 0 7 0)
  | .prio a => some (encE 0x2C a 0 8 0)
  | .coach d => some (encE 0x2C d 0 9 0)
  | .quench => some (encE 0x2D 0 0 0 0)
  | .sabort => some (encE 0x2D 0 0 1 0)
  | .brk b => some (encJ 0x3F b.toNat)
  | _ => none

/-- The instruction the decoder reads from the table's bits: one 32-bit word, bit 0 the least significant; bits above
nbits are 0. -/
def decodeTableWord (nbits w : Nat) : Option Instr :=
  match decode (w % 2 ^ nbits % 4294967296) with
  | .ok i => some i
  | _ => none

end

end Sys2Proof
end

