-- ==== Sys2Proof/Machine/System.lean ====
section
/-!
DEFINITION. Control registers (02 R42 to R52, 10 R205, 16 R319, R341), translation-cache and cache instructions
(16 R338, R339, R342), waits and events (R343), traps (R324; 03 R82).
-/
namespace Sys2Proof.Machine

/-! ## Levels (02 R42, R51) -/

def levelU : BitVec 2 := 0
def levelL : BitVec 2 := 1
def levelS : BitVec 2 := 2
def levelM : BitVec 2 := 3

/-- The lowest level that may read a control register; none for a number not in the table (02 R42). -/
def readLevel (n : Nat) : Option (BitVec 2) :=
  if n ≤ 0x004 ∨ n = 0x008 ∨ n = 0x009 ∨ (0x010 ≤ n ∧ n ≤ 0x012) ∨ n = 0x018 ∨ n = 0x020 ∨ n = 0x021 ∨ n = 0x030 ∨
     (0x040 ≤ n ∧ n ≤ 0x047) ∨ n = 0x180 then some levelU
  else if n = 0x005 ∨ n = 0x006 ∨ (0x100 ≤ n ∧ n ≤ 0x107) ∨ (0x120 ≤ n ∧ n ≤ 0x13F) ∨ (0x181 ≤ n ∧ n ≤ 0x183) then
    some levelS
  else none

/-- The lowest level that may write it; none where the write column is "—" or the number is not in the table. -/
def writeLevel (n : Nat) : Option (BitVec 2) :=
  if n = 0x001 ∨ n = 0x002 ∨ n = 0x008 ∨ n = 0x009 ∨ (0x010 ≤ n ∧ n ≤ 0x012) ∨ n = 0x018 ∨ n = 0x020 ∨ n = 0x030 then
    some levelU
  else if n = 0x180 then some levelL
  else if n = 0x000 ∨ n = 0x004 ∨ n = 0x005 ∨ n = 0x006 ∨ n = 0x040 ∨ n = 0x047 ∨ (0x100 ≤ n ∧ n ≤ 0x107) ∨
     (0x120 ≤ n ∧ n ≤ 0x13F) ∨ n = 0x181 ∨ n = 0x182 then some levelS
  else if n = 0x183 then some levelM
  else none

/-- A number of two fields. -/
def fieldsWord (l : List (Nat × Nat)) : Word := BitVec.ofNat 64 (l.foldl (fun acc p => acc + p.1 * 2 ^ p.2) 0)

/-- QSTAT (10 R205). -/
def Hart.qstat (h : Hart) : Word := fieldsWord [(h.qimpl, 32), (h.qdisc, 16), (h.buffer.length, 0)]

/-- HSTAT (18 R356): its counters saturate. -/
def Hart.hstat (h : Hart) : Word :=
  fieldsWord [(min h.hearth.snaps 0xFFFF, 48), (min h.hearth.autof 0xFFFF, 32),
    (min ((h.hearth.nodes.filter fun p => p.1.alloc.isSome).foldl (fun a p => a + p.1.units) 0) 0xFFFF, 16),
    (h.hearth.inSlots.length, 0)]

def Priv.word (p : Priv) : Word :=
  fieldsWord [(if p.ga then 1 else 0, 15), (p.ppl.toNat, 13), (p.pmsel.toNat, 8), (p.cur.toNat, 0)]

/-- The code of an element width (02 R46). -/
def widthCode (w : Width) : Nat := w.code

/-- The value of a control register of the table (02 R42 to R52). -/
def readControl (s : State) (h : Hart) (n : Nat) : Word :=
  if n = 0x000 then BitVec.ofNat 64 h.vl
  else if n = 0x001 then h.msel.zeroExtend 64
  else if n = 0x002 then h.vstr
  else if n = 0x003 then fieldsWord [(h.grant.toNat, 32), ((carriages h.grant).length, 0)]
  else if n = 0x004 then BitVec.ofNat 64 (widthCode h.vew)
  else if n = 0x005 then fieldsWord [(h.nextCarr.toNat, 32), (if h.nextPend then 1 else 0, 31)]
  else if n = 0x006 then fieldsWord [(h.part.toNat, 32), ((startOf (s.cellOf h.die h.cell).start).toNat, 0)]
  else if n = 0x008 then h.frm.zeroExtend 64
  else if n = 0x009 then h.fflags.zeroExtend 64
  else if n = 0x010 then h.tstat.zeroExtend 64
  else if n = 0x011 then h.tgrp.zeroExtend 64
  else if n = 0x012 then h.tctl.zeroExtend 64
  else if n = 0x018 then h.actl.zeroExtend 64
  else if n = 0x020 then h.hctl
  else if n = 0x021 then h.hstat
  else if n = 0x030 then h.qstat
  else if n = 0x040 then fieldsWord [(h.ceil.toNat, 16), (h.prio.toNat, 0)]
  else if n = 0x041 then h.job.zeroExtend 64
  else if n = 0x042 then BitVec.ofNat 64 h.slot.val
  else if n = 0x043 then BitVec.ofNat 64 h.cell.val
  else if n = 0x044 then BitVec.ofNat 64 h.die.val
  else if n = 0x045 then s.record.nodeid.zeroExtend 64
  else if n = 0x046 then (s.dieOf h.die).cyc
  else if n = 0x047 then h.stripmax.zeroExtend 64
  else if n = 0x100 then h.trap.tvec
  else if n = 0x101 then h.trap.tcause.word
  else if n = 0x102 then h.trap.tpc
  else if n = 0x103 then h.trap.tqpos.zeroExtend 64
  else if n = 0x104 then h.trap.taddr
  else if n = 0x105 then h.trap.tnode.zeroExtend 64
  else if n = 0x106 then h.trap.tnpc
  else if n = 0x107 then h.trap.tscr
  else if 0x120 ≤ n ∧ n ≤ 0x13F then h.tcnt[n - 0x120]!.zeroExtend 64
  else if n = 0x180 then h.priv.word
  else if n = 0x181 then h.gatebase
  else if n = 0x182 then h.asid.zeroExtend 64
  else (s.cellOf h.die h.cell).sqbase

/-- Registers whose reading and writing waits for the vector queue (02 R41, 16 R341). -/
def queueRegister (n : Nat) : Bool :=
  n == 0x009 || n == 0x010 || n == 0x021 || n == 0x030 || (0x120 ≤ n && n ≤ 0x13F)
/-- Registers that vector-side instructions write: their crd returns through the read queue (02 R35). -/
def vectorSide (n : Nat) : Bool := queueRegister n || n == 0x000 || n == 0x011

/-- crd (16 R341, 02 R43). -/
def execCrd (d : SReg) (n : BitVec 12) (s : State) : Host.Outcome State Fault Refusal :=
  finish s do
    let word : Word := BitVec.ofNat 64 (encCr d.val 0x02 n.toNat)
    let n := n.toNat
    match readLevel n with
    | none => trapAt 0x01 word
    | some l =>
      if s.hart.priv.cur < l then trapAt 0x03 word
      else if queueRegister n ∧ s.hart.vq ≠ [] then .error .stall
      else
        let s1 := if n = 0x046 then s.observeTime else s
        let x := readControl s1 s1.hart n
        if vectorSide n then do
          let h ← s1.hart.queuedResult d x
          .ok { s1 with hart := h }
        else do
          s1.hart.destReady d
          .ok { s1 with hart := s1.hart.result d x }

/-! ## cwr (02 R43, 16 R341) -/

/-- The access check of a cwr: the value on cause 0x01, the word on cause 0x03 (16 R321). -/
def checkWrite (h : Hart) (a : SReg) (n : Nat) (v : Word) : Except Stop Unit :=
  match writeLevel n with
  | none => trapAt 0x01 v
  | some l => if h.priv.cur < l then trapAt 0x03 (BitVec.ofNat 64 (encCr a.val 0x03 n)) else .ok ()

/-- Bits [hi:lo] of a written value are reserved: cause 0x02 unless zero. -/
def reservedZero (v : Word) (hi lo : Nat) : Except Stop Unit := if bitsOf v hi lo ≠ 0 then trapAt 0x02 v else .ok ()

/-- Write a trap register (16 R319); the numbers are those of TVEC to TSCR without TCAUSE. -/
def writeTrapReg (t : TrapRegs) (n : Nat) (v : Word) : Except Stop TrapRegs :=
  if n = 0x100 then do reservedZero v 1 0; .ok { t with tvec := v }
  else if n = 0x102 then do reservedZero v 1 0; .ok { t with tpc := v }
  else if n = 0x103 then do reservedZero v 63 6; .ok t
  else if n = 0x104 then .ok { t with taddr := v }
  else if n = 0x105 then do reservedZero v 63 7; .ok { t with tnode := v.truncate 7 }
  else if n = 0x106 then do reservedZero v 1 0; .ok { t with tnpc := v }
  else .ok { t with tscr := v }

/-- Write a control register without a row of its own, its access being checked (02 R43 to R52; 06 R144, R149, R150;
10 R205; 11 R223; 16 R319). -/
def writeControl (h : Hart) (n : Nat) (v : Word) : Except Stop Hart :=
  if n = 0x001 then do
    reservedZero v 63 5
    if 8 ≤ bitsOf v 3 0 ∧ bitsOf v 3 0 ≤ 14 then trapAt 0x02 v
    .ok { h with msel := v.truncate 5 }
  else if n = 0x002 then .ok { h with vstr := v }
  else if n = 0x004 then
    match Width.ofCode v.toNat with
    | some w => .ok { h with vew := w }
    | none => trapAt 0x02 v
  else if n = 0x005 then do
    reservedZero v 30 0
    .ok { h with nextCarr := v.extractLsb' 32 32, nextPend := v.getLsbD 31 }
  else if n = 0x008 then do reservedZero v 63 2; .ok { h with frm := v.truncate 2 }
  else if n = 0x009 then do reservedZero v 63 5; .ok { h with fflags := v.truncate 5 }
  else if n = 0x010 then do reservedZero v 63 48; .ok { h with tstat := v.truncate 48 }
  else if n = 0x011 then do
    reservedZero v 63 4
    if v.toNat = 0 ∨ 8 < v.toNat then trapAt 0x02 v
    .ok { h with tgrp := v.truncate 4 }
  else if n = 0x012 then do reservedZero v 63 32; reservedZero v 15 3; .ok { h with tctl := v.truncate 32 }
  else if n = 0x018 then do reservedZero v 63 17; .ok { h with actl := v.truncate 17 }
  else if n = 0x030 then do reservedZero v 15 4; .ok { h with qimpl := bitsOf v 63 32, qdisc := bitsOf v 31 16 }
  else if 0x120 ≤ n ∧ n ≤ 0x13F then do
    reservedZero v 63 32
    .ok { h with tcnt := h.tcnt.setIfInBounds (n - 0x120) (v.truncate 32) }
  else if n = 0x181 then do
    reservedZero v 11 11
    if 1024 < bitsOf v 10 0 then trapAt 0x02 v
    .ok { h with gatebase := v }
  else do
    let t ← writeTrapReg h.trap n v
    .ok { h with trap := t }

/-- cwr of every register without a row of its own. DESIGN CHOICE (log 76): like every cwr, it reads its source before it
checks the access, so an empty source waits and a poisoned one traps 0x60 also where the access is refused. SQBASE is one
value for the cell: DESIGN CHOICE (log 21). -/
def execCwr (a : SReg) (n : BitVec 12) (s : State) : Host.Outcome State Fault Refusal :=
  finish s do
    let n := n.toNat
    let h := s.hart
    let v ← h.src a false
    checkWrite h a n v
    if queueRegister n ∧ n < 0x100 ∧ h.vq ≠ [] then .error .stall
    if n = 0x183 then
      let c := s.cellOf h.die h.cell
      .ok { s.setCell h.die h.cell { c with sqbase := v } with hart := h.advance }
    else do
      let h1 ← writeControl h n v
      .ok { s with hart := h1.advance }

/-- cwr of VL (02 R43). -/
def execCwrVl (a : SReg) (s : State) : Host.Outcome State Fault Refusal :=
  onHart s fun h => do
    let v ← h.src a false
    checkWrite h a 0x000 v
    .ok { h with vl := min v.toNat (h.vlmax (widthBits h.vew)) }.advance

/-- The carriages held in a cell: granted, or kept for the parent of an ended child (15 R305). -/
def heldCarriages (h : Hart) : BitVec 32 := h.children.foldl (fun g c => g ||| c.ended.getD 0) h.grant
def cellHarts (s : State) (d : DieNo) (c : CellNo) : List Hart :=
  s.allHarts.filter fun h => h.status != .free && h.die == d && h.cell == c

/-- cwr of LPART (02 R47). -/
def execCwrLpart (a : SReg) (s : State) : Host.Outcome State Fault Refusal :=
  finish s do
    let h := s.hart
    let v ← h.src a false
    checkWrite h a 0x006 v
    reservedZero v 63 37
    let start : BitVec 32 := v.truncate 32
    let part := bitsOf v 36 32
    let c := s.cellOf h.die h.cell
    if !partitionExists start part then trapAt 0x02 v
    let held := (cellHarts s h.die h.cell).foldl (fun g x => g ||| heldCarriages x) 0
    if (carriages held).any (fun i => partitionOf c.start i != partitionOf start i) then trapAt 0x11 v
    .ok { s.setCell h.die h.cell { c with start := startOf start } with
      hart := { h with part := BitVec.ofNat 5 part }.advance }

/-- cwr of PRIO (02 R49): a level above CEIL is written as CEIL. -/
def execCwrPrio (a : SReg) (s : State) : Host.Outcome State Fault Refusal :=
  onHart s fun h => do
    let v ← h.src a false
    checkWrite h a 0x040 v
    let l : BitVec 4 := v.truncate 4
    .ok { h with prio := if h.ceil < l then h.ceil else l }.advance

/-- cwr of STRIPMAX (02 R49). -/
def execCwrStripmax (a : SReg) (s : State) : Host.Outcome State Fault Refusal :=
  onHart s fun h => do
    let v ← h.src a false
    checkWrite h a 0x047 v
    .ok { h with stripmax := BitVec.ofNat 32 (max 4096 (bitsOf v 31 0)) }.advance

/-- cwr of PRIV (02 R51). DEDUCED (log 22): reserved bits are checked before a raise of CUR or PPL. -/
def execCwrPriv (a : SReg) (s : State) : Host.Outcome State Fault Refusal :=
  onHart s fun h => do
    let v ← h.src a false
    checkWrite h a 0x180 v
    reservedZero v 63 16
    reservedZero v 7 2
    let cur : BitVec 2 := v.truncate 2
    let ppl : BitVec 2 := v.extractLsb' 13 2
    if h.priv.cur < cur ∨ h.priv.cur < ppl then trapAt 0x03 (BitVec.ofNat 64 (encCr a.val 0x03 0x180))
    .ok { h with priv := { ga := v.getLsbD 15, ppl := ppl, pmsel := v.extractLsb' 8 5, cur := cur } }.advance

/-- cwr of ASID (16 R340). -/
def execCwrAsid (a : SReg) (s : State) : Host.Outcome State Fault Refusal :=
  onHart s fun h => do
    let v ← h.src a false
    checkWrite h a 0x182 v
    .ok { h with asid := v.truncate 16 }.advance

/-- cwr of TCAUSE (16 R319): RH is set only while a replay record is held. -/
def execCwrTcause (a : SReg) (s : State) : Host.Outcome State Fault Refusal :=
  onHart s fun h => do
    let v ← h.src a false
    checkWrite h a 0x101 v
    reservedZero v 63 38
    reservedZero v 28 20
    let tc : TCause :=
      { pmsel := v.extractLsb' 33 5, rh := v.getLsbD 32 && h.replay.isSome, plv := v.extractLsb' 30 2,
        done := v.getLsbD 29, hnd := v.extractLsb' 16 4, sub := v.extractLsb' 8 8, cause := v.truncate 8 }
    .ok { h with trap := { h.trap with tcause := tc } }.advance

/-- cwr of HCTL (17 R347, 18 R355). -/
def execCwrHctl (a : SReg) (s : State) : Host.Outcome State Fault Refusal :=
  onHart s fun h => do
    let v ← h.src a false
    checkWrite h a 0x020 v
    reservedZero v 3 1
    if bitsOf v 63 4 ≠ bitsOf h.hctl 63 4 ∧ h.hearth.inSlots ≠ [] then trapAt 0x11 v
    .ok { h with hctl := v }.advance

/-! ## Translation caches and caches (16 R338, R339, R342) -/

/-- Change the translation cache of every cell in scope (16 R338). -/
def mapTlbs (s : State) (d : DieNo) (c : CellNo) (scope : Scope) (f : List TlbEntry → List TlbEntry) : State :=
  { s with cells := Vector.ofFn fun i : Fin 192 =>
      let x := s.cells[i]
      let hit := match scope with
        | .h | .co | .ce => i == cellIx d c
        | .d => i.val / 48 == d.val
        | .p | .sy => true
      if hit then { x with tlb := f x.tlb } else x }

/-- The entry matches a tlb.inv (16 R338). -/
def tlbMatches (all av : Bool) (asid : BitVec 16) (va : Word) (t : TlbEntry) : Bool :=
  all || (bitsOf va 56 12 / 2 ^ t.log == t.vpage / 2 ^ t.log && (!av || (t.asid == asid && !teG t.entry)))

def execTlbInv (a b : SReg) (scope : Scope) (s : State) : Host.Outcome State Fault Refusal :=
  finish s do
    let h := s.hart
    if h.priv.cur < levelS then trapAt 0x03 (BitVec.ofNat 64 (encE 0x15 a.val b.val 0x04 scope.code))
    let va ← h.src a false
    let sel ← h.src b false
    reservedZero sel 61 16
    .ok { mapTlbs s h.die h.cell scope
      (fun l => l.filter fun t => !tlbMatches (sel.getLsbD 63) (sel.getLsbD 62) (sel.truncate 16) va t) with
      hart := h.advance }

/-- The page size code of tlb.prb (16 R339). -/
def sizeCode (log : Nat) : Nat := if log = 0 then 0 else if log = 4 then 1 else if log = 9 then 2 else 3

/-- The leaf that a read of an address by R336 uses, MINL and R apart: it leads to a place (10 R194, R195). -/
def probe (s : State) (g : Agent) (va : Word) : Except (BitVec 8) Leaf := do
  let l ← findLeaf s g va
  let _ ← resolve s g l.entry (leafAddr l va)
  .ok l

/-- tlb.prb (16 R339). -/
def execTlbPrb (d b : SReg) (s : State) : Host.Outcome State Fault Refusal :=
  finish s do
    let h := s.hart
    if h.priv.cur < levelS then trapAt 0x03 (BitVec.ofNat 64 (encE 0x15 d.val b.val 0x05 0))
    let va ← h.src b false
    h.destReady d
    match probe s h.agent va with
    | .error c => .ok { s with hart := h.result d (BitVec.ofNat 64 (2 ^ 63 + c.toNat)) }
    | .ok l =>
      let frame := leafAddr l va / 4096
      let e := l.entry.toNat
      let x := e / 2 ^ 54 * 2 ^ 54 + sizeCode l.log * 2 ^ 52 + frame * 2 ^ 12 + e % 2 ^ 12
      .ok { tlbFill s h.agent va l with hart := h.result d (BitVec.ofNat 64 x) }

/-- cache.wb and cache.inv (16 R342): the range is translated page by page; what caches hold is not visible. -/
def cacheRange (a b : SReg) (s : State) : Host.Outcome State Fault Refusal :=
  finish s do
    let h := s.hart
    let va ← h.src a false
    let len ← h.src b false
    if 0x100000 < len.toNat then trapAt 0x12 len
    let first := va &&& ~~~63
    let bytes := if len = 0 then 0 else (bitsOf va 5 0 + len.toNat + 63) / 64 * 64
    let leaves ← (pagesOf first bytes).mapM fun p => do
      let q ← atAddr p.1 (translate s h.agent .read p.1)
      .ok (p.1, q.leaf)
    .ok { tlbFillAll s h.agent leaves with hart := h.advance }

def execCacheWb (a b : SReg) (_scope : Scope) (s : State) := cacheRange a b s
/-- DESIGN CHOICE (log 23): the model fetches from memory at execution, so there is no copy to discard. -/
def execCacheInv (a b : SReg) (_scope : Scope) (s : State) := cacheRange a b s

/-! ## Waits and events (16 R343) -/

/-- One turn of a waiting instruction (15 R296, 16 R332): a pending cancel is taken on entry into the wait or at any
point of it; when the wait is over the instruction completes; otherwise the hart waits with a mark. -/
def waiting (s : State) (ready : Bool) (m : WaitMark) (complete : State → Except Stop State) : Except Stop State :=
  if s.hart.cancel ∧ (s.hart.status = .waiting ∨ !ready) then .error .cancel
  else if ready then complete s.wake
  else if s.hart.status = .waiting ∧ s.hart.mark = m then .error .stall
  else .ok (s.park m)

def execWfe (a : SReg) (s : State) : Host.Outcome State Fault Refusal :=
  finish s do
    let v ← s.hart.src a false
    let mark : WaitMark :=
      match s.hart.mark with
      | .limit start n => .limit start n
      | _ => if v = 0 then .none else .limit (s.dieOf s.hart.die).cyc v
    waiting s (s.hart.evf || s.hart.mark == .timedOut) mark fun s =>
      .ok { s with hart := { s.hart.setC 6 s.hart.evf with evf := false }.advance }

/-- The limit of a waiting wfe passes (16 R343): s[sa] local cycles of its die, s[sa] not 0. -/
def execWfeTimeout (s : State) : Host.Outcome State Fault Refusal :=
  match s.hart.status, s.hart.mark with
  | .waiting, .limit start n =>
    let s1 := s.waitUntil s.hart.die start n
    .next { s1 with hart := { s1.hart with mark := .timedOut } }
  | _, _ => .next s

def execEvt (a : SReg) (s : State) : Host.Outcome State Fault Refusal :=
  finish s do
    let v ← s.hart.src a false
    reservedZero v 63 16
    reservedZero v 14 14
    reservedZero v 7 5
    if 47 < bitsOf v 13 8 then trapAt 0x12 v
    if !s.hart.memReady then .error .stall
    let s1 := s.mapHarts fun g =>
      if g.resident && g.die == s.hart.die && g.cell.val == bitsOf v 13 8 &&
          (v.getLsbD 15 || g.slot.val == bitsOf v 4 0) && g.job == s.hart.job then { g with evf := true } else g
    .ok { s1 with hart := s1.hart.advance }

/-! ## Traps (16 R324, 03 R82, 04 R95) -/

def execTrap (n : BitVec 8) (s : State) : Host.Outcome State Fault Refusal :=
  finish s (.error (.trap { cause := 0x08, sub := n, done := true }))
def execBrk (bits : BitVec 26) (s : State) : Host.Outcome State Fault Refusal :=
  finish s (trapAt 0x09 (BitVec.ofNat 64 (0xFC000000 + bits.toNat)))
def execTret (s : State) : Host.Outcome State Fault Refusal :=
  onHart s fun h =>
    if h.priv.cur < levelS ∨ h.priv.cur < h.trap.tcause.plv then trapAt 0x03 tretWord
    else if h.mayReplay then .ok h.returnFromTrap
    else .error .stall

/-- A word that fails steps 1 to 3 of 03 R82, with the cause its decoding gives. -/
def execNotAnInstruction (word : BitVec 32) (cause : BitVec 8) (s : State) : Host.Outcome State Fault Refusal :=
  finish s (trapAt cause (word.zeroExtend 64))
/-- A fault in the fetch of the instruction at pc. -/
def execInstructionFetchFault (cause : BitVec 8) (s : State) : Host.Outcome State Fault Refusal :=
  finish s (trapAt cause s.hart.pc)

end Sys2Proof.Machine
end

