-- ==== Sys2Proof/Machine/Streams.lean ====
section
/-!
DEFINITION. quench and sabort (10 R206), the stream instructions (R210 to R214), drawbars and barriers (R216 to R220).
-/
namespace Sys2Proof.Machine

/-! ## quench and sabort -/

/-- Wait until every earlier vector instruction has executed, and what earlier quenches released is stored (10 R206,
R207). -/
def afterQueue (h : Hart) : Except Stop Unit := if h.vq = [] ∧ h.outputsSettled then .ok () else .error .stall

def execQuench (s : State) : Host.Outcome State Fault Refusal :=
  finish s do
    afterQueue s.hart
    let s1 ← quenchNow s false
    .ok { s1 with hart := s1.hart.advance }

def execSabort (s : State) : Host.Outcome State Fault Refusal :=
  onHart s fun h => do
    afterQueue h
    .ok h.abortStrip.advance

/-! ## Descriptors (10 R210, R211, R214) -/

/-- The element type of a descriptor: its width, sign and block width; none for an unallocated code. -/
def descType (cls ty : Nat) : Option (Nat × Bool × Option BfpW) :=
  if cls = 0 then (IntTy.ofCode ty).map fun t => (t.bits, isSigned t, none)
  else
    match bfpOfCode ty with
    | some w => some (32, false, some w)
    | none => (FltTy.ofCode ty).map fun t => (t.bits, false, none)

/-- The total of a pattern. -/
def descTotal (paged : Bool) (ndim : Nat) (words : List Word) : Nat :=
  if paged then bitsOf (words.getD 2 0) 47 0 * bitsOf (words.getD 0 0) 31 0
  else (List.range ndim).foldl (fun n k => n * bitsOf (words.getD k 0) 63 32) 1

/-- The strides of an affine pattern, in bits. -/
def descStrides (paged : Bool) (ndim : Nat) (words : List Word) : List Nat :=
  if paged then [] else (List.range ndim).map fun k => bitsOf (words.getD k 0) 31 0

/-- Read a descriptor from its 64 bytes: cause, or the descriptor with its POS (10 R210, R214). -/
def readDesc (addr : Word) (b : Block) : Except (BitVec 8 × BitVec 8) (StreamDesc × Nat) :=
  let w := blockWord b 0
  let paged := bitsOf w 63 62 == 1
  let ndim := bitsOf w 48 47 + 1
  let words := (List.range 4).map fun k => blockWord b (k + 2)
  let base := blockWord b 1
  let reserved := 1 < bitsOf w 63 62 || bitsOf w 46 16 != 0 || (paged && ndim != 1) || bitsOf (blockWord b 6) 63 48 != 0 ||
    blockWord b 7 != 0
  match descType (bitsOf w 53 53) (bitsOf w 52 49) with
  | none => .error (0x40, 0x02)
  | some (width, signed, block) =>
    if reserved ∨ 2 ^ 48 < descTotal paged ndim words then .error (0x40, 0x02)
    else if (descStrides paged ndim words).any (fun x => x % 8 != 0) then .error (0x06, 0)
    else if block.isSome ∧ (bitsOf base 5 0 ≠ 0 ∨ (descStrides paged ndim words).any (fun x => x % 512 != 0)) then
      .error (0x05, 0)
    else .ok ({ addr := addr, paged := paged, output := w.getLsbD 61, dbv := w.getLsbD 60, db := Fin.ofNat 64 (bitsOf w 59 54),
                width := width, signed := signed, block := block, ndim := ndim, seq := BitVec.ofNat 16 (bitsOf w 15 0),
                base := base, words := words, total := descTotal paged ndim words }, bitsOf (blockWord b 6) 47 0)

/-! ## Stream instructions (10 R213) -/

/-- The handle of an instruction that needs a bound one: of a direction, if one is asked (10 R214). -/
def boundHandle (h : Hart) (n : HReg) (dir : Option Bool) : Except Stop (Handle × StreamDesc) :=
  let x := h.handles[n]
  match x.desc with
  | some d => if x.bound && (dir == none || dir == some d.output) then .ok (x, d) else .error (streamTrap n 0x40 0x01 0)
  | none => .error (streamTrap n 0x40 0x01 0)

def execBwDef (a : SReg) (n : HReg) (s : State) : Host.Outcome State Fault Refusal :=
  finishKeeping s do
    let va ← keeping s (s.hart.src a false)
    keeping s (afterQueue s.hart)
    keeping s (if s.hart.handles[n].bound then .error (streamTrap n 0x40 0x01 0) else .ok ())
    let (x, s1) ← loadValue s va 64
    match readDesc va (BitVec.ofNat 512 x) with
    | .error c => .error (.trap { cause := c.1, sub := c.2, addr := va }, s1)
    | .ok (d, pos) =>
      let s2 := s1.setHandle n { desc := some d, pos := pos }
      .ok { s2 with hart := s2.hart.advance }

/-- The bellows channels of a cell in use: bound handles, and those held for handles not yet bound (00 R3, 15 R293). -/
def channelsUsed (s : State) (d : DieNo) (c : CellNo) : Nat :=
  ((cellHarts s d c).map fun h => (h.handles.toList.filter (·.bound)).length + h.heldChannels.length).foldl (· + ·) 0

/-- Bind a register to a handle, and to no other. -/
def bindReg (hs : Vector Handle 16) (n : HReg) (v : Option VReg) : Vector Handle 16 :=
  Vector.ofFn fun k : Fin 16 =>
    let x := hs[k]
    if k = n then { x with reg := v } else if v.isSome && x.reg == v then { x with reg := none } else x

/-- bw.bind. DEDUCED (log 29): a handle without a descriptor is misused, cause 0x40 with 0x01; c6 keeps its value where
the handle is already bound. -/
def execBwBind (v : Option VReg) (n : HReg) (s : State) : Host.Outcome State Fault Refusal :=
  onHart s fun h => do
    afterQueue h
    let x := h.handles[n]
    if x.desc.isNone then .error (streamTrap n 0x40 0x01 0)
    if x.bound then .ok { h with handles := bindReg h.handles n v }.advance
    else if !h.heldChannels.contains n ∧ Config.channels ≤ channelsUsed s h.die h.cell then .ok (h.setC 6 false).advance
    else
      let y : Handle :=
        { x with bound := true, ckpt := x.pos, held := [], released := [], done := x.pos, pub := x.pos, fault := none, blk := none }
      .ok ({ h with
        handles := bindReg (h.handles.set n y) n v
        heldChannels := h.heldChannels.filter fun k => k != n }.setC 6 true).advance

/-- What bw.wait waits for. DEDUCED (log 29): at the end of an input stream no element can arrive, so it does not
wait there. -/
def streamReady (x : Handle) (d : StreamDesc) (n : HReg) : Except Stop Unit :=
  if d.output then
    match x.fault with
    | some f => .error (heldTrap n f)
    | none => if x.released = [] ∧ !x.unpublished then .ok () else .error .stall
  else if x.held ≠ [] ∨ x.fault.isSome ∨ d.total ≤ x.pos then .ok () else .error .stall

def execBwWait (n : HReg) (s : State) : Host.Outcome State Fault Refusal :=
  onHart s fun h => do
    afterQueue h
    let (x, d) ← boundHandle h n none
    streamReady x d n
    .ok h.advance

/-- bw.free. DESIGN CHOICE (log 30): output elements that no quench has released are dropped. -/
def execBwFree (n : HReg) (s : State) : Host.Outcome State Fault Refusal :=
  finishKeeping s do
    keeping s (afterQueue s.hart)
    let (x, d) ← keeping s (boundHandle s.hart n none)
    keeping s (streamReady x d n)
    let s1 ← storeValue s (d.addr + 48) 8 x.pos
    let y := s1.hart.handles[n]
    let s2 := s1.setHandle n { desc := y.desc, pos := y.pos }
    .ok { s2 with hart := s2.hart.advance }

/-- An element as a scalar: sign-extended for i types. -/
def streamScalar (d : StreamDesc) (x : Nat) : Word :=
  if d.signed then BitVec.ofInt 64 (toSigned d.width x) else BitVec.ofNat 64 (x % 2 ^ d.width)

def execBwPop (d : SReg) (n : HReg) (s : State) : Host.Outcome State Fault Refusal :=
  onHart s fun h => do
    afterQueue h
    let (x, y) ← boundHandle h n (some false)
    let l ← needElements x n y.total 1
    { h with handles := h.handles.set n (x.take 1) }.queuedResult d (streamScalar y (l.getD 0 0))

/-- bw.pop.nb. DEDUCED (log 31): a fault at POS, or the total, is taken here as by every instruction that needs the
element. -/
def execBwPopNb (d : SReg) (n : HReg) (s : State) : Host.Outcome State Fault Refusal :=
  onHart s fun h => do
    afterQueue h
    let (x, y) ← boundHandle h n (some false)
    h.destReady d
    match needElements x n y.total 1 with
    | .ok l => .ok ({ h with handles := h.handles.set n (x.take 1) }.setC 6 true |>.result d (streamScalar y (l.getD 0 0)))
    | .error .stall => .ok (h.setC 6 false).advance
    | .error e => .error e

def execBwPush (a : SReg) (n : HReg) (s : State) : Host.Outcome State Fault Refusal :=
  finish s do
    let v ← s.hart.src a false
    afterQueue s.hart
    let (x, y) ← boundHandle s.hart n (some true)
    if y.total ≤ x.pos then .error (streamTrap n 0x40 0x12 0)
    let s1 ← (if channelRoom s.hart ≤ x.held.length then quenchNow s true else .ok s)
    let s2 := s1.append n [v.toNat % 2 ^ y.width]
    .ok { s2 with hart := s2.hart.advance }

/-- The word of bw.stat (10 R213). -/
def statWord (x : Handle) (d : StreamDesc) : Word :=
  fieldsWord [(1, 63), (if d.output then 1 else 0, 62), (if x.fault.isSome && (d.output || x.held == []) then 1 else 0, 61),
    (if x.pos = d.total then 1 else 0, 60), (if d.output then 0 else min x.held.length 255, 48), (x.pos % 2 ^ 48, 0)]

def execBwStat (d : SReg) (n : HReg) (s : State) : Host.Outcome State Fault Refusal :=
  onHart s fun h => do
    afterQueue h
    let (x, y) ← boundHandle h n none
    h.queuedResult d (statWord x y)

/-- A bellows channel fetches an input stream's next element (10 R212). -/
def execStreamFetch (n : HReg) (s : State) : Host.Outcome State Fault Refusal :=
  happen s (if mayFetch s n then some (fetchNext s n) else none)

/-- A bellows channel performs an output stream's first released element, or publishes the position reached (10 R212). -/
def execOutputStreamPerform (n : HReg) (s : State) : Host.Outcome State Fault Refusal := happen s (outputStep s n)

/-! ## Drawbars (10 R216, R217) -/

def execDbPub (a b : SReg) (n : Fin 64) (s : State) : Host.Outcome State Fault Refusal :=
  finish s do
    let x ← s.hart.src a false
    let y ← s.hart.src b false
    if !s.hart.memReady then .error .stall
    match publish s s.hart.die n (x.truncate 48) (y.truncate 16) with
    | none => trapAt 0x41 x
    | some s1 => .ok { s1 with hart := s1.hart.advance }

/-- db.rd; an earlier scoped gather is an acquire, so it comes first (13 R257). -/
def execDbRd (d : SReg) (n : Fin 64) (s : State) : Host.Outcome State Fault Refusal :=
  onHart s fun h => do
    if !h.memReady then .error .stall
    h.queuedResult d (s.drawbar h.die n).word

/-! ## Barriers (10 R218 to R220) -/

def State.arrival (s : State) (d : DieNo) (n : Fin 64) : Arrival := (s.dieOf d).ab[n]
def State.setArrival (s : State) (d : DieNo) (n : Fin 64) (x : Arrival) : State :=
  let y := s.dieOf d
  s.setDie d { y with ab := y.ab.set n x }

/-- A barrier is complete (10 R218). -/
def Arrival.complete (x : Arrival) : Bool := x.armed && x.xb ≤ x.cb && x.xa ≤ x.ca

/-- An arrival with a byte count; the counts saturate. -/
def Arrival.arrive (x : Arrival) (bytes : Nat) : Arrival :=
  { x with cb := min (x.cb + bytes) (2 ^ 40 - 1), ca := min (x.ca + 1) (2 ^ 16 - 1) }

def execAbInit (a b : SReg) (n : Fin 64) (s : State) : Host.Outcome State Fault Refusal :=
  finish s do
    let x ← s.hart.src a false
    let y ← s.hart.src b false
    if !s.hart.memReady then .error .stall
    let s1 := s.setArrival s.hart.die n { xb := bitsOf x 39 0, xa := bitsOf y 15 0, armed := true }
    .ok { s1 with hart := s1.hart.advance }

def execAbArrive (a : SReg) (n : Fin 64) (s : State) : Host.Outcome State Fault Refusal :=
  finish s do
    let x ← s.hart.src a false
    if !s.hart.memReady then .error .stall
    let s1 := s.setArrival s.hart.die n ((s.arrival s.hart.die n).arrive (bitsOf x 39 0))
    .ok { s1 with hart := s1.hart.advance }

def execAbWait (n : Fin 64) (s : State) : Host.Outcome State Fault Refusal :=
  finish s do
    if !s.hart.memReady then .error .stall
    waiting s (s.arrival s.hart.die n).complete .none fun s => .ok { s with hart := s.hart.advance }

def execAbWaitNb (n : Fin 64) (s : State) : Host.Outcome State Fault Refusal :=
  onHart s fun h => do
    if !h.memReady then .error .stall
    .ok (h.setC 6 (s.arrival h.die n).complete).advance

/-- bar (10 R220): a member that has arrived waits for the end of its generation. DEDUCED (log 63): a forked child is no
member, so it waits without arriving; the bar of a coach of one hart passes at once. -/
def execBar (s : State) : Host.Outcome State Fault Refusal :=
  finish s do
    let done (s : State) : Except Stop State := .ok { s with hart := s.hart.advance }
    match s.findTask s.hart.task, s.hart.mark with
    | none, _ => done s
    | some t, .arrived g => waiting s (t.generation != g) (.arrived g) done
    | some t, _ =>
      if !s.hart.memReady then .error .stall
      if t.size = 1 then done s else
      if s.hart.parent.isSome then waiting s false (.arrived t.generation) done else
      let t1 := barrierCheck { t with arrivals := s.hart.hid :: t.arrivals.filter fun x => x != s.hart.hid }
      waiting (s.setTask t1) (t1.generation != t.generation) (.arrived t.generation) done

end Sys2Proof.Machine
end

