-- ==== Sys2Proof/Machine/Setvl.lean ====
section
/-!
DEFINITION. The grant and the setvl forms (05 R118 to R121; 02 R33, R45; 15 R300; 16 R320).
-/
namespace Sys2Proof.Machine

/-! ## Settling the grant (05 R119) -/

/-- The vector state after a change of grant (02 R33): everything zero and full, no poison. -/
def Hart.clearVectors (h : Hart) : Hart :=
  { h.writebackAll with
    vreg := Vector.replicate 32 0
    treg := Vector.replicate 8 0
    mreg := Vector.replicate 8 0
    msm := 0
    vpoison := Vector.replicate 32 0
    tpoison := Vector.replicate 8 0
    mpoison := Vector.replicate 8 0 }

/-- The hart with a grant it has settled on; reading GRANTNEXT stops the strip budget (15 R301). -/
def Hart.settled (h : Hart) (g : BitVec 32) : Hart := { h with grant := g, nextPend := false, budget := none }

/-- The grant a hart would settle on now. -/
def Hart.pendingGrant (h : Hart) : BitVec 32 := if h.nextPend then h.nextCarr else h.grant

/-- Settle a pending GRANTNEXT (05 R119): a change quenches, by `quench`, and clears; tells whether the grant changed.
DESIGN CHOICE (log 75): the carriages named are granted as they stand, also where a cwr of GRANTNEXT at S named some that
another hart holds or that lie in another partition; the spec gives no outcome for it. -/
def settleWith (quench : State → Except Stop State) (s : State) : Except Stop (State × Bool) :=
  if s.hart.pendingGrant = s.hart.grant then .ok ({ s with hart := s.hart.settled s.hart.grant }, false)
  else do
    let s1 ← quench s
    .ok ({ s1 with hart := s1.hart.clearVectors.settled s.hart.pendingGrant }, true)

/-- Settle a pending GRANTNEXT, the implicit quench taking a pending cancel. -/
def settleGrant (s : State) : Except Stop (State × Bool) := settleWith (fun s => quenchNow s true) s

/-! ## Lengths -/

/-- The group of elements a width packs together in lengths (05 R119). -/
def lengthGroup : Width → Nat
  | .w6 => 4
  | .w4 => 2
  | _ => 1

/-- A length rounded up, and down, to whole groups. -/
def roundUp (w : Width) (n : Nat) : Nat := (n + lengthGroup w - 1) / lengthGroup w * lengthGroup w
def roundDown (w : Width) (n : Nat) : Nat := n / lengthGroup w * lengthGroup w

/-- What every setvl form writes: VL, VEW, c7, s[d], SBASE and SPREV (05 R118, 16 R320). -/
def Hart.setLength (h : Hart) (d : SReg) (w : Width) (n : Nat) (changed : Bool) (base : BitVec 48) : Hart :=
  let vl := min n (h.vlmax (widthBits w))
  { ((h.setS d (BitVec.ofNat 64 vl)).setC 7 changed).advance with
    vl := vl
    vew := w
    sbase := base
    sprev := vl }

/-- setvl. -/
def execSetvl (d a : SReg) (w : Width) (ea : Bool) (s : State) : Host.Outcome State Fault Refusal :=
  finish s do
    let n ← s.hart.src a ea
    afterQueue s.hart
    s.hart.destReady d
    let (s1, changed) ← settleGrant s
    let h := s1.hart
    .ok { s1 with hart := h.setLength d w (roundUp w n.toNat) changed (h.sbase + BitVec.ofNat 48 h.sprev) }

/-- Elements published beyond a position on a drawbar, in whole groups (05 R120). -/
def available (s : State) (n : Fin 64) (w : Width) (p : Word) : Nat :=
  roundDown w ((s.drawbar s.hart.die n).hw.toNat - p.toNat)

/-- setvl.db (05 R120, R121): a change of grant before or during the wait stays noted with it. -/
def execSetvlDb (d a : SReg) (w : Width) (n : Fin 64) (ea : Bool) (s : State) : Host.Outcome State Fault Refusal :=
  finish s do
    let p ← s.hart.src a ea
    afterQueue s.hart
    s.hart.destReady d
    if s.hart.cancel ∧ s.hart.status = .waiting then .error .cancel
    let (s1, changed) ← settleGrant s
    let noted := changed || s.hart.mark == .drawbar true
    let mark : WaitMark := .drawbar noted
    let avail := available s1 n w p
    if 0 < avail then
      let s2 := s1.wake
      .ok { s2 with hart := s2.hart.setLength d w avail noted (p.truncate 48) }
    else if s.hart.cancel then .error .cancel
    else if s.hart.status = .waiting ∧ s.hart.mark = mark ∧ !s.hart.nextPend ∧ s.hart.budget.isNone then .error .stall
    else .ok (s1.park mark)

/-- setvl.db.nb. -/
def execSetvlDbNb (d a : SReg) (w : Width) (n : Fin 64) (ea : Bool) (s : State) : Host.Outcome State Fault Refusal :=
  finish s do
    let p ← s.hart.src a ea
    afterQueue s.hart
    s.hart.destReady d
    let (s1, changed) ← settleGrant s
    let h := s1.hart.setLength d w (available s1 n w p) changed (p.truncate 48)
    .ok { s1 with hart := h.setC 6 (0 < h.vl) }

end Sys2Proof.Machine
end

