-- ==== Sys2Proof/Machine/Sched.lean ====
section
/-!
DEFINITION. The scheduler: placement and dispatch of records and resume entries, coaches, cores, lane reclaiming, saving
and resuming contexts, the return of carriages (15 R292 to R303).
-/
namespace Sys2Proof.Machine

/-! ## Contexts by name -/

/-- The state with a context's turn put first. -/
def State.focusOn (s : State) (hid : Nat) : Option State :=
  if s.hart.hid = hid then (if s.hart.status = .free then none else some s)
  else
    match s.harts.find? fun h => h.hid == hid with
    | none => none
    | some g =>
      let rest := s.harts.filter fun h => h.hid != hid
      some { s with hart := g, harts := if s.hart.status = .free then rest else rest ++ [s.hart] }

/-- Take contexts out of the machine. -/
def State.removeHarts (s : State) (p : Hart → Bool) : State :=
  { s with
    hart := if p s.hart then Hart.vacant else s.hart
    harts := s.harts.filter fun h => !p h }

/-- Add a context. -/
def State.addHart (s : State) (h : Hart) : State :=
  if s.hart.status = .free then { s with hart := h } else { s with harts := s.harts ++ [h] }

/-! ## Resources (15 R293) -/

/-- Carriages a hart holds or is about to be granted. -/
def boundCarriages (h : Hart) : BitVec 32 := heldCarriages h ||| (if h.nextPend then h.nextCarr else 0)

/-- The carriages of a cell's partition, ascending. -/
def partCarriages (x : Cell) (part : Nat) : List Nat :=
  if partitionExists x.start part then (List.range 32).filter fun c => partitionOf x.start c == part else []

/-- A carriage set with one more. -/
def withCarriage (g : BitVec 32) (c : Nat) : BitVec 32 := g ||| (1#32 <<< c)
def carriageSet (l : List Nat) : BitVec 32 := l.foldl withCarriage 0

/-- A place found for one hart of an entry. -/
structure Placed where
  cell : CellNo
  slot : SlotNo
  part : Nat
  lanes : List Nat
  channels : Nat
  rsvs : List (Nat × Nat)
  displaced : Option Nat
  deriving DecidableEq, Repr

/-- What one hart of an entry needs in a cell: in partition `part`, all of `lanes` carriages or as many as it has. -/
structure Need where
  cell : CellNo
  part : Nat
  lanes : Nat
  exact : Bool
  channels : Nat
  rsvs : List (Nat × Nat)
  deriving DecidableEq, Repr

/-- Of running harts, the one that gives way to priority p (15 R296): the lowest below it, the latest among equals. DESIGN
CHOICE (log 90): of harts dispatched together the first of the list. -/
def coreVictim (l : List Hart) (p : BitVec 4) : Option Hart :=
  (l.filter fun h => h.prio < p).foldl (fun best h =>
    match best with
    | none => some h
    | some b => if h.prio < b.prio ∨ (h.prio = b.prio ∧ b.order < h.order) then some h else some b) none

/-- The runnable harts of a cell: higher priority first, then in order of becoming runnable. -/
def runnableHarts (s : State) (d : DieNo) (c : CellNo) : List Hart :=
  sortBy (fun a b => b.prio < a.prio || (a.prio == b.prio && a.since ≤ b.since))
    (s.allHarts.filter fun h => h.status == .runnable && h.die == d && h.cell == c)

/-- A runnable hart of a cell can take a core, a free one or that of a running hart that gives way: it does so before any
record there is dispatched (15 R296). -/
def coreWanted (s : State) (d : DieNo) (c : CellNo) : Bool :=
  match runnableHarts s d c with
  | [] => false
  | h :: _ => s.coreFree d c || (coreVictim (s.running d c) h.prio).isSome

/-- The order of victims of a reclaim (15 R299): lowest priority first, latest dispatched first; of harts dispatched
together (log 90) the first of the list. -/
def victimOrder (l : List Hart) : List Hart :=
  sortBy (fun a b => a.prio < b.prio || (a.prio == b.prio && b.order ≤ a.order)) l

/-- The carriages a victim may lose (15 R299, R305), highest first. -/
def losable (h : Hart) (part : Nat) (x : Cell) : List Nat :=
  ((carriages (h.pendingGrant ||| h.children.foldl (fun g c => g ||| c.ended.getD 0) 0)).filter
    fun c => partitionOf x.start c == part).reverse

/-- The priority of the entry of a number in a die's queues. -/
def entryPrio (s : State) (d : DieNo) (qid : Nat) : BitVec 4 :=
  let all := (List.finRange 48).flatMap fun c => (s.cellOf d c).queues.toList.flatMap id
  ((all.find? fun e => (match e with | .task r => r.qid | .resume g => g.qid) == qid).map QEntry.prio).getD 0

/-- The carriages that an entry of priority p may take in a cell's partition, in order of choice: those reserved for it,
free ones, and, where `virt` counts the carriages of lower harts as free, those reserved for lower entries and those of
victims (15 R293, R299). -/
def choices (s : State) (d : DieNo) (c : CellNo) (part : Nat) (qid : Nat) (p : BitVec 4) (virt : Bool) : List Nat :=
  let x := s.cellOf d c
  let here := cellHarts s d c
  let all := partCarriages x part
  let held := here.foldl (fun g h => g ||| boundCarriages h) 0
  let claimer (i : Nat) := x.claims.find? fun k => k.carriage.val == i && k.qid != 0
  let own := all.filter fun i => (claimer i).any fun k => k.qid == qid
  let free := all.filter fun i => (claimer i).isNone && !held.getLsbD i
  if virt then
    let passing := all.filter fun i => (claimer i).any fun k => k.qid != qid && entryPrio s d k.qid < p
    let victims := (victimOrder (here.filter fun h => h.resident && h.prio < p)).flatMap fun h => losable h part x
    let taken := own ++ free ++ passing
    taken ++ (victims.filter fun i => all.contains i && !taken.contains i && (claimer i).isNone)
  else if own.any (fun i => held.getLsbD i) then []
  else own ++ free

/-- Find a place for one hart of an entry beside those placed already (15 R293). -/
def fitOne (s : State) (d : DieNo) (qid : Nat) (p : BitVec 4) (virt : Bool) (placed : List Placed) (n : Need) :
    Option Placed :=
  let x := s.cellOf d n.cell
  let near := placed.filter fun q => q.cell == n.cell
  let runners := (s.running d n.cell).filter fun h => !near.any fun q => q.displaced == some h.hid
  let used := (s.running d n.cell).length + (near.filter fun q => q.displaced.isNone).length
  let displaced := if used < Config.cores then none else coreVictim runners p
  let slots := (cellHarts s d n.cell).map (·.slot)
  let slot := (List.finRange 32).find? fun k => !slots.contains k && !near.any fun q => q.slot == k
  let rsvs := (cellHarts s d n.cell).flatMap (·.reservations) ++ near.flatMap (·.rsvs)
  let channels := channelsUsed s d n.cell + near.foldl (fun a q => a + q.channels) 0
  let all := partCarriages x n.part
  let want := if n.exact then n.lanes else min n.lanes all.length
  let pick := ((choices s d n.cell n.part qid p virt).filter fun i => !near.any fun q => q.lanes.contains i).take want
  match slot with
  | none => none
  | some k =>
    if coreWanted s d n.cell ∨ (Config.cores ≤ used ∧ displaced.isNone) ∨ all = [] ∨ pick.length < want ∨
        Config.channels < channels + n.channels ∨
        n.rsvs.any (fun a => rsvs.any fun b => rangesMeet a b) then none
    else
      some { cell := n.cell, slot := k, part := n.part, lanes := pick, channels := n.channels, rsvs := n.rsvs,
             displaced := displaced.map (·.hid) }

/-- Place as many of n equal harts as possible in one cell. -/
def fitMany (s : State) (d : DieNo) (qid : Nat) (p : BitVec 4) (virt : Bool) (need : Need) :
    Nat → List Placed → List Placed
  | 0, placed => placed
  | n + 1, placed =>
    match fitOne s d qid p virt placed need with
    | none => placed
    | some q => fitMany s d qid p virt need n (placed ++ [q])

/-! ## Inputs (15 R293) -/

/-- The condition of one input. DESIGN CHOICE (log 33): it does not hold while its descriptor cannot be read or is
malformed. -/
def inputHolds (s : State) (d : DieNo) (g : Agent) (desc : Word) (lreq i : Nat) : Bool :=
  let va := desc + BitVec.ofNat 64 (64 * i)
  match translate s g .read va with
  | .error _ => false
  | .ok q =>
    match readFault s q.pa 64 with
    | some _ => false
    | none =>
      match readDesc va (readBlock s.mem q.pa) with
      | .error _ => false
      | .ok (x, pos) =>
        let b := s.drawbar d x.db
        !x.dbv || (b.seq == x.seq &&
          min ((perSlice x.width * 8 * lreq : Nat) : Int) ((x.total : Int) - pos) ≤ (b.hw.toNat : Int) - pos)

def inputsHold (s : State) (d : DieNo) (r : TaskRec) : Bool :=
  let f := recFlags r.block
  let asid := ((s.findJob r.job).map (·.asid)).getD 0
  let g : Agent := { die := d, cell := none, asid := asid, level := f.level }
  (List.range f.nin).all fun i => inputHolds s d g (recDesc r.block) f.lreq i

/-! ## Placement of an entry (15 R293, R297, R298) -/

/-- A cell is enabled by the configuration record and, in minimal mode, is its die's lowest such (22 R436, R437). -/
def cellOn (s : State) (d : DieNo) (c : CellNo) : Bool :=
  s.record.cells[d].getLsbD c.val &&
    (s.mode != .minimal || (List.range c.val).all fun k => !s.record.cells[d].getLsbD k)

/-- A cell runs: its module has started, its die has not stopped, and it is on (22 R435, R437, R441). -/
def cellRuns (s : State) (d : DieNo) (c : CellNo) : Bool :=
  s.mode != .starting && !(s.dieOf d).stopped && cellOn s d c

/-- The partition a record uses in the cell of its queue (15 R293). -/
def TaskRec.partIn (r : TaskRec) : Nat := (r.part.getD (recFlags r.block).part).toNat

def recNeed (r : TaskRec) (c : CellNo) (part : Nat) : Need :=
  { cell := c, part := part, lanes := (recFlags r.block).lreq, exact := false,
    channels := (recFlags r.block).nin, rsvs := recReservations r.block }

def QEntry.skips : QEntry → Nat
  | .task r => r.skips
  | .resume g => g.skips
/-- The partition an entry waits in. -/
def QEntry.part : QEntry → Nat
  | .task r => r.partIn
  | .resume g => g.part.toNat

/-- An entry that is blocking: it has been passed over 16 times (15 R294). -/
def QEntry.blocking (e : QEntry) : Bool := Config.blockingSkips ≤ e.skips

/-- A blocking entry of a cell holds back records of a lower priority in its partition (15 R294). -/
def heldBack (s : State) (d : DieNo) (c : CellNo) (p : BitVec 4) (part : Nat) : Bool :=
  (s.cellOf d c).queues.toList.any fun q => q.any fun e => e.blocking && p < e.prio && e.part == part

/-- Place the members of a record: as many as possible in the cell of the queue, member 0 among them, the rest in the
other cells of the die, ascending (15 R297). A cell whose own blocking entries hold its priority back takes none. -/
def placeRecord (s : State) (d : DieNo) (c : CellNo) (virt : Bool) (r : TaskRec) : Option (List Placed) :=
  let n := (recFlags r.block).coach
  if !inputsHold s d r then none
  else
    match fitMany s d r.qid r.prio virt (recNeed r c r.partIn) n [] with
    | [] => none
    | first =>
      let others := (List.finRange 48).filter fun k =>
        k != c && cellOn s d k && !heldBack s d k r.prio (recFlags r.block).part.toNat
      let all := others.foldl (fun placed k =>
        fitMany s d r.qid r.prio virt (recNeed r k (recFlags r.block).part.toNat) (n - placed.length) placed) first
      if all.length = n then some all else none

/-- The channels a context holds. -/
def heldByHandles (h : Hart) : Nat := (h.handles.toList.filter (·.bound)).length + h.heldChannels.length

/-- Place saved contexts, all at once (15 R298, R301): each in its own cell with its own count of carriages. A cell other
than that of the queue takes none while its own blocking entries hold their priority back (R294). -/
def placeSaved (s : State) (d : DieNo) (c : CellNo) (virt : Bool) (g : Saved) : Option (List Placed) :=
  if g.harts.any fun h => h.cell != c && (!cellOn s d h.cell || heldBack s d h.cell g.prio h.part.toNat) then none
  else
    g.harts.foldlM (fun placed h =>
      (fitOne s d g.qid g.prio virt placed
        { cell := h.cell, part := h.part.toNat, lanes := (carriages (heldCarriages h)).length, exact := true,
          channels := heldByHandles h, rsvs := h.reservations }).map fun q => placed ++ [q]) []

def placeEntry (s : State) (d : DieNo) (c : CellNo) (virt : Bool) : QEntry → Option (List Placed)
  | .task r => placeRecord s d c virt r
  | .resume g => placeSaved s d c virt g

def QEntry.qid : QEntry → Nat
  | .task r => r.qid
  | .resume g => g.qid

/-! ## The choice of an entry (15 R294) -/

/-- What a walk over the queues has found: the entry and its places, or the partitions that blocking entries close. -/
structure Walk where
  found : Option (BitVec 4 × Nat × QEntry × List Placed) := none
  closed : List Nat := []
  deriving DecidableEq, Repr

/-- Walk a queue from its head: the first entry that has places, and whose partition no queue `above` closes; a blocking
one that is not dispatched closes the queue behind it, and its partition for the queues below. -/
def walkQueue (place : QEntry → Option (List Placed)) (above : List Nat) (p : BitVec 4) :
    Nat → List QEntry → Walk → Walk
  | _, [], w => w
  | i, e :: rest, w =>
    match if above.contains e.part then none else place e with
    | some l => { w with found := some (p, i, e, l) }
    | none =>
      if e.blocking then { w with closed := e.part :: w.closed } else walkQueue place above p (i + 1) rest w

/-- Walk a cell's queues from a priority level down. -/
def walkQueues (s : State) (d : DieNo) (c : CellNo) (place : QEntry → Option (List Placed)) : Nat → Walk → Walk
  | 0, w => w
  | n + 1, w =>
    if w.found.isSome then w
    else
      let p := BitVec.ofNat 4 n
      walkQueues s d c place n (walkQueue place w.closed p 0 (s.queueOf d c p) w)

/-- The first entry of a cell that has places. -/
def chooseEntry (s : State) (d : DieNo) (c : CellNo) (place : QEntry → Option (List Placed)) :
    Option (BitVec 4 × Nat × QEntry × List Placed) :=
  if (s.cellOf d c).queues.toList.all (· == []) then none else (walkQueues s d c place 16 {}).found

/-! ## Dispatch (15 R293, R297, R301) -/

/-- A hart gives up its core at an instruction boundary and becomes runnable (15 R296). -/
def State.displace (s : State) (hid : Nat) : State :=
  { s.mapHarts fun h => if h.hid = hid then { h with status := .runnable, since := s.nextOrder } else h with
    nextOrder := s.nextOrder + 1 }

/-- Reserved carriages of an entry that is gone are owed back to the harts they came from. -/
def State.dropClaims (s : State) (qid : Nat) : State :=
  { s with cells := s.cells |> vmap fun x =>
      if x.claims.any (fun k => k.qid == qid) then
        { x with claims := x.claims.map fun k => if k.qid = qid then { k with qid := 0 } else k }
      else x }

/-- A hart that is no longer resident is owed nothing (15 R303). -/
def State.dropOwed (s : State) (hid : Nat) : State :=
  { s with cells := s.cells |> vmap fun x =>
      if x.claims.any (fun k => k.victim == hid) then
        { x with claims := (x.claims.filter fun k => !(k.victim == hid && k.qid == 0)).map fun k =>
            if k.victim = hid then { k with victim := 0 } else k }
      else x }

/-- A member's state at task entry (02 R50, 15 R293). GATEBASE has the job's BASE, bit 11 clear and COUNT 0 (02 R52); DEDUCED
(log 83): the bits [11:0] of the word launched are of no effect. -/
def entryHart (s : State) (j : Job) (tid index : Nat) (d : DieNo) (r : TaskRec) (q : Placed) : Hart :=
  let f := recFlags r.block
  { Hart.vacant with
    hid := s.nextHid
    task := tid
    status := .running
    die := d
    cell := q.cell
    slot := q.slot
    pc := recEntry r.block
    sreg := Hart.vacant.sreg.set 29 (recFrame r.block)
    grant := carriageSet q.lanes
    part := BitVec.ofNat 5 q.part
    prio := r.prio
    ceil := j.ceil
    job := j.job
    priv := { cur := f.level }
    gatebase := j.gatebase &&& ~~~0xFFF
    asid := j.asid
    index := BitVec.ofNat 6 index
    reservations := recReservations r.block
    heldChannels := recHandles r.block
    order := s.nextOrder }

/-- Start a record's members (15 R293, R297). -/
def State.startTask (s : State) (d : DieNo) (c : CellNo) (r : TaskRec) (l : List Placed) : State :=
  match s.findJob r.job with
  | none => s
  | some j =>
    let tid := s.nextTid
    let n := l.length
    let t : Task :=
      { tid := tid, job := r.job, level := (recFlags r.block).level, join := recJoin r.block, die := d, cell := c,
        part := BitVec.ofNat 5 r.partIn, size := n, live := n }
    let s1 := ((List.range n).zip l).foldl (fun s p =>
      { s.addHart (entryHart s j tid p.1 d r p.2) with nextHid := s.nextHid + 1 }) s
    { s1 with tasks := s1.tasks ++ [t], nextTid := tid + 1, nextOrder := s1.nextOrder + 1 }

/-- Ended children keep the carriages they left, in new places (15 R301, R305). -/
def placeEnded : List Child → List Nat → List Child
  | [], _ => []
  | c :: rest, lanes =>
    match c.ended with
    | none => c :: placeEnded rest lanes
    | some g =>
      let n := (carriages g).length
      { c with ended := some (carriageSet (lanes.take n)) } :: placeEnded rest (lanes.drop n)

/-- A saved context as it resumes (15 R301, R314): every register as it was, in other carriages and another slot. -/
def resumedHart (g : Saved) (h : Hart) (q : Placed) : Hart :=
  let n := (carriages h.grant).length
  let h1 := { h with
    status := .running
    slot := q.slot
    grant := carriageSet (q.lanes.take n)
    children := placeEnded h.children (q.lanes.drop n)
    nextPend := false
    budget := none }
  if g.yielded.contains h.hid then h1.setC 6 true else h1

def State.resumeSaved (s : State) (g : Saved) (l : List Placed) : State :=
  (g.harts.zip l).foldl (fun s p => s.addHart (resumedHart g p.1 p.2)) s

/-- The entries of a queue after entry i has been dispatched: those before it are passed over once more (15 R294). -/
def passOver (i : Nat) (l : List QEntry) : List QEntry :=
  ((l.take i).map fun e =>
    match e with
    | .task r => .task { r with skips := r.skips + 1 }
    | .resume g => .resume { g with skips := g.skips + 1 }) ++ l.drop (i + 1)

/-- Dispatch the first entry that can be (15 R294). -/
def dispatchEntry (s : State) (d : DieNo) (c : CellNo) : Option State :=
  match chooseEntry s d c (placeEntry s d c false) with
  | none => none
  | some (p, i, e, l) =>
    let s1 := (s.setQueue d c p (passOver i (s.queueOf d c p))).dropClaims e.qid
    let s2 := l.foldl (fun s q =>
      match q.displaced with
      | some hid => s.displace hid
      | none => s) s1
    match e with
    | .task r => some (s2.startTask d c r l)
    | .resume g => some (s2.resumeSaved g l)

/-! ## Cores (15 R296) -/

/-- A runnable hart takes a core, a free one or that of the running hart that gives way. -/
def takeCore (s : State) (d : DieNo) (c : CellNo) : Option State :=
  match runnableHarts s d c with
  | [] => none
  | h :: _ =>
    let run (s : State) : State := s.mapHarts fun g => if g.hid = h.hid then { g with status := .running } else g
    if s.coreFree d c then some (run s) else (coreVictim (s.running d c) h.prio).map fun v => run (s.displace v.hid)

/-! ## Saving contexts (15 R298, R301) -/

/-- A context as it is saved: every register full, the entries kept in order, with the results that follow them. -/
def savedHart (h : Hart) : Hart :=
  let g := h.writebackDue
  { g with vq := g.vq.map fun e => { e with inAnvil := false } }

/-- The member whose priority is the group's queue: DESIGN CHOICE (log 89) the first by INDEX that no fork made. -/
def groupHead (l : List Hart) : Option Hart :=
  match sortBy (fun (a b : Hart) => a.index ≤ b.index) (l.filter fun h => h.parent.isNone) with
  | h :: _ => some h
  | [] => l.head?

/-- A saved context that is given up with status CANCELLED (16 R332): its cards are cancelled and its tickets retired. -/
def State.dropSaved (s : State) (l : List Hart) : State :=
  l.foldl (fun s h =>
    ((s.cancelCards h.die fun c => c.owner == h.hid).retireCards h.die fun c => c.owner == h.hid).endMember h .cancelled 0) s

/-- Contexts on their way out: what quenches released is stored, images are written; the contexts as saved. -/
def State.saveContexts (s : State) (l : List Hart) : State × List Hart :=
  l.foldl (fun acc h =>
    let t := State.drainOutputs { acc.1 with hart := h }
    ({ t with hart := acc.1.hart }.dumpContext t.hart, acc.2 ++ [savedHart t.hart])) (s, [])

/-- Save every resident hart of a task as one entry (15 R298, R301), at the head of the task's queue or, for a yield, at
its tail. DEDUCED (log 32): with a pending cancel the saved contexts are removed at once. -/
def State.saveTask (s : State) (tid : Nat) (tail : Bool) (yielded : List Nat) : State :=
  let mine := fun (h : Hart) => h.task == tid && h.resident
  let members := s.allHarts.filter mine
  match groupHead members with
  | none => s
  | some h =>
    let s1 := members.foldl (fun s g => (s.dropAnvil g).dropOwed g.hid) s
    let (s2, kept) := (s1.removeHarts mine).saveContexts members
    let (d, c) := ((s.findTask tid).map fun t => (t.die, t.cell)).getD (h.die, h.cell)
    if members.any (·.cancel) then s2.dropSaved kept
    else
      let part := (((groupHead (members.filter fun g => g.cell == c)).map (·.part)).getD h.part)
      let e : QEntry := .resume { qid := s.nextQid, prio := h.prio, part := part, harts := kept, yielded := yielded }
      let q := s2.queueOf d c h.prio
      { s2.setQueue d c h.prio (if tail then q ++ [e] else e :: q) with nextQid := s.nextQid + 1 }

/-! ## Lane reclaiming (15 R299 to R301) -/

/-- A waiting hart that a reclaim saves at once (15 R301): any wait but that of setvl.db. -/
def waitsAway (h : Hart) : Bool :=
  h.status == .waiting &&
    match h.mark with
    | .drawbar _ => false
    | _ => true

/-- Take carriages from a victim: GRANTNEXT is written and the strip budget starts (15 R299, R301). DESIGN CHOICE
(log 34): carriages that an ended child left are given up at once. -/
def takeFrom (now : Word) (taken : List Nat) (h : Hart) : Hart :=
  let mask := ~~~carriageSet taken
  let h1 := { h with children := h.children.map fun c => { c with ended := c.ended.map (· &&& mask) } }
  if h.pendingGrant &&& mask = h.pendingGrant then h1
  else { h1 with nextCarr := h.pendingGrant &&& mask, nextPend := true, budget := some (h.budget.getD now) }

/-- Reserve one hart's carriages for an entry: reservations of lower entries pass, victims give up the rest. -/
def reserveFor (d : DieNo) (qid : Nat) (p : BitVec 4) (s : State) (q : Placed) : State :=
  let x := s.cellOf d q.cell
  let mine := fun (k : Claim) => k.qid == qid && q.lanes.contains k.carriage.val
  let passed := x.claims.map fun k =>
    if k.qid ≠ 0 ∧ q.lanes.contains k.carriage.val then { k with qid := qid } else k
  let victims := (cellHarts s d q.cell).filter fun h => h.resident && h.prio < p
  let fresh := victims.flatMap fun h =>
    ((losable h q.part x).filter fun i => q.lanes.contains i && !passed.any fun k => mine k && k.carriage.val == i).map
      fun i => (h.hid, i)
  let claims := fresh.map (fun f => { carriage := Fin.ofNat 32 f.2, qid := qid, victim := f.1 : Claim }) ++ passed
  let s1 := s.setCell d q.cell { x with claims := claims }
  s1.mapHarts fun h =>
    match fresh.filter fun f => f.1 == h.hid with
    | [] => h
    | l => takeFrom (s.dieOf d).cyc (l.map (·.2)) h

/-- GRANTNEXT of a context was written between two states. -/
def grantWritten (before : State) (h : Hart) : Bool :=
  !before.allHarts.any fun g => g.hid == h.hid && g.nextPend == h.nextPend && g.nextCarr == h.nextCarr

/-- The victims of a reclaim that are saved at once: those that wait where GRANTNEXT is written (15 R301). -/
def saveWaiting (before s : State) : State :=
  (s.allHarts.filter fun h => waitsAway h && grantWritten before h).foldl (fun s h => s.saveTask h.task false []) s

/-- A reclaim runs for an entry: a carriage reserved for it is still held (15 R299). -/
def reclaimRuns (s : State) (d : DieNo) (qid : Nat) : Bool :=
  (List.finRange 48).any fun c =>
    let held := (cellHarts s d c).foldl (fun g h => g ||| boundCarriages h) 0
    (s.cellOf d c).claims.any fun k => k.qid == qid && held.getLsbD k.carriage.val

/-- Start a reclaim for the first entry that lacks only lanes (15 R299). -/
def reclaimLanes (s : State) (d : DieNo) (c : CellNo) : Option State :=
  let reserve (e : QEntry) (l : List Placed) : State := l.foldl (reserveFor d e.qid e.prio) s
  let place (e : QEntry) : Option (List Placed) :=
    if (placeEntry s d c false e).isSome || reclaimRuns s d e.qid then none
    else
      match placeEntry s d c true e with
      | none => none
      | some l => if (reserve e l).cells.toList == s.cells.toList then none else some l
  match chooseEntry s d c place with
  | none => none
  | some (_, _, e, l) => some (saveWaiting s (reserve e l))

/-! ## The return of carriages (15 R303) -/

/-- Free carriages of a cell that are owed to a resident hart above which nothing waits in its partition: the hart and
the carriages. -/
def owedTo (s : State) (d : DieNo) (c : CellNo) : Option (Nat × List Nat) :=
  let x := s.cellOf d c
  let here := cellHarts s d c
  let held := here.foldl (fun g h => g ||| boundCarriages h) 0
  let free := (List.range 32).filter fun i => !held.getLsbD i && !x.claims.any fun k => k.qid != 0 && k.carriage.val == i
  let creditor (i : Nat) : Option Nat :=
    match x.claims.find? fun k => k.carriage.val == i && here.any fun h => h.hid == k.victim && h.resident with
    | some k =>
      match here.find? fun h => h.hid == k.victim with
      | some h =>
        if partitionOf x.start i == h.part.toNat &&
            !x.queues.toList.any (fun q => q.any fun e => h.prio < e.prio && e.part == h.part.toNat)
        then some h.hid else none
      | none => none
    | none => none
  match free.findSome? creditor with
  | none => none
  | some hid => some (hid, free.filter fun i => creditor i == some hid)

/-- Return carriages to the hart they were taken from: GRANTNEXT is written. -/
def laneReturn (s : State) (d : DieNo) (c : CellNo) : Option State :=
  match owedTo s d c with
  | none => none
  | some (hid, l) =>
    let x := s.cellOf d c
    let s1 := s.setCell d c { x with claims := x.claims.filter fun k => !(k.victim == hid && l.contains k.carriage.val) }
    some (s1.mapHarts fun h =>
      if h.hid = hid then { h with nextCarr := h.pendingGrant ||| carriageSet l, nextPend := true } else h)

/-! ## The scheduler's steps -/

/-- One decision of a cell's scheduler: runnable harts take cores first, then entries are dispatched, then lanes are
reclaimed, and what nobody takes is returned. -/
def dispatchCell (s : State) (d : DieNo) (c : CellNo) : Option State :=
  if !cellRuns s d c then none
  else (takeCore s d c).orElse fun _ => (dispatchEntry s d c).orElse fun _ =>
    (reclaimLanes s d c).orElse fun _ => laneReturn s d c

def execTaskDispatch (die : DieNo) (cell : CellNo) (s : State) : Host.Outcome State Fault Refusal :=
  happen s (dispatchCell s die cell)

/-- The strip budget of the current hart runs out (15 R301). -/
def execStripBudgetExpiry (s : State) : Host.Outcome State Fault Refusal :=
  happen s (s.hart.budget.bind fun start =>
    if s.hart.resident then
      some ((s.waitUntil s.hart.die start (s.hart.stripmax.zeroExtend 64)).saveTask s.hart.task false [])
    else none)

/-- STRIPMAX local cycles after a cancel arrived the hart takes it (16 R332). -/
def execCancelBudgetExpiry (s : State) : Host.Outcome State Fault Refusal :=
  happen s (if s.hart.cancel ∧ s.hart.resident then
    some (s.waitUntil s.hart.die s.hart.cancelAt (s.hart.stripmax.zeroExtend 64)).takeCancel
  else none)

end Sys2Proof.Machine
end

