-- ==== Sys2Proof/Machine/LoadStore.lean ====
section
/-!
DEFINITION. Scalar loads and stores, ordered accesses, atomics and fences (04 R101 to R112). In the model's order every
access is performed when its instruction executes, so acquires, releases and fences order what is in order already; a
release waits until earlier vector instructions have issued their addresses.
-/
namespace Sys2Proof.Machine

/-- A number of n bits extended to 64 bits (04 R101). -/
def extend (signed : Bool) (bits x : Nat) : Word :=
  if signed then BitVec.ofInt 64 (toSigned bits x) else BitVec.ofNat 64 x

/-- The address of a displaced access (04 R102). -/
def dispAddr (base : Word) (disp : BitVec 12) (bytes : Nat) : Word := base + disp.signExtend 64 * BitVec.ofNat 64 bytes

/-- Wait until earlier vector memory instructions have left the queue and earlier quenches have stored all they released
(04 R105; 10 R207). -/
def afterVectors (h : Hart) : Except Stop Unit := if h.memReady then .ok () else .error .stall

/-- A load into a scalar register from an address already formed; it waits while its destination is empty (02 R37). -/
def loadInto (d : SReg) (va : Word) (bytes : Nat) (signed : Bool) (s : State) : KeepM State := do
  keeping s (afterVectors s.hart)
  keeping s (s.hart.destReady d)
  let (x, s1) ← loadValue s va bytes
  .ok { s1 with hart := (s1.hart.produce d (extend signed (8 * bytes) x)).advance }

def execLd (d a : SReg) (disp : BitVec 12) (size : Size) (signed : Bool) (ea : Bool) (s : State) :
    Host.Outcome State Fault Refusal :=
  finishKeeping s do
    let x ← keeping s (s.hart.src a ea)
    loadInto d (dispAddr x disp (sizeBytes size)) (sizeBytes size) signed s

/-- A store of a scalar register to an address already formed. -/
def storeFrom (va : Word) (bytes : Nat) (x : Word) (s : State) : KeepM State := do
  keeping s (afterVectors s.hart)
  let s1 ← storeValue s va bytes x.toNat
  .ok { s1 with hart := s1.hart.advance }

def execSt (d a : SReg) (disp : BitVec 12) (size : Size) (ea : Bool) (s : State) : Host.Outcome State Fault Refusal :=
  finishKeeping s do
    let x ← keeping s (s.hart.src a ea)
    let y ← keeping s (s.hart.src d ea)
    storeFrom (dispAddr x disp (sizeBytes size)) (sizeBytes size) y s

def execLdAcq (d a : SReg) (size : Size) (_scope : Scope) (ea : Bool) (s : State) : Host.Outcome State Fault Refusal :=
  finishKeeping s do
    let x ← keeping s (s.hart.src a ea)
    loadInto d x (sizeBytes size) false s

def execStRel (a b : SReg) (size : Size) (_scope : Scope) (ea eb : Bool) (s : State) :
    Host.Outcome State Fault Refusal :=
  finishKeeping s do
    let x ← keeping s (s.hart.src a ea)
    let y ← keeping s (s.hart.src b eb)
    storeFrom x (sizeBytes size) y s

/-- The bits of an atomic. -/
def atomicBits : ASize → Nat
  | .w32 => 32
  | .w64 => 64

/-- An atomic (04 R107, R108): `f old` is the value to write, or none to write nothing. A buffered store that it overlaps
is committed before its bytes are read (R105). -/
def atomic (d : SReg) (va : Word) (bits : Nat) (f : Nat → Option Nat) (s : State) : KeepM State := do
  keeping s (afterVectors s.hart)
  let n := bits / 8
  keeping s (s.hart.destReady d)
  let p ← keeping s (atAddr va (ownPlace s s.hart.agent .both va n))
  let s1 ← storePrelude s [(p.pa, n)]
  keeping s1 (match readFault s1 p.pa n with
    | some c => trapAt c va
    | none => .ok ())
  let old := s1.mem.readLe p.pa n
  let s2 := tlbFill s1 s.hart.agent va p.leaf
  let s3 := match f old with
    | some y => s2.storeLe p.pa n y
    | none => s2
  .ok { s3 with hart := (s3.hart.produce d (BitVec.ofNat 64 old)).advance }

/-- An atomic read-modify-write with s[b] (04 R107). -/
def amo (d a b : SReg) (size : ASize) (ea eb : Bool) (f : Nat → Nat → Nat → Nat) (s : State) :
    Host.Outcome State Fault Refusal :=
  finishKeeping s do
    let x ← keeping s (s.hart.src a ea)
    let y ← keeping s (s.hart.src b eb)
    atomic d x (atomicBits size) (fun old => some (f (atomicBits size) old (y.toNat % 2 ^ (atomicBits size)))) s

def execAmoSwap (d a b : SReg) (size : ASize) (_scope : Scope) (ea eb : Bool) (s : State) :=
  amo d a b size ea eb (fun _ _ y => y) s
def execAmoAdd (d a b : SReg) (size : ASize) (_scope : Scope) (ea eb : Bool) (s : State) :=
  amo d a b size ea eb (fun n x y => (x + y) % 2 ^ n) s
def execAmoAnd (d a b : SReg) (size : ASize) (_scope : Scope) (ea eb : Bool) (s : State) :=
  amo d a b size ea eb (fun _ x y => x &&& y) s
def execAmoOr (d a b : SReg) (size : ASize) (_scope : Scope) (ea eb : Bool) (s : State) :=
  amo d a b size ea eb (fun _ x y => x ||| y) s
def execAmoXor (d a b : SReg) (size : ASize) (_scope : Scope) (ea eb : Bool) (s : State) :=
  amo d a b size ea eb (fun _ x y => x ^^^ y) s
def execAmoMin (d a b : SReg) (size : ASize) (_scope : Scope) (ea eb : Bool) (s : State) :=
  amo d a b size ea eb (fun n x y => if toSigned n y < toSigned n x then y else x) s
def execAmoMax (d a b : SReg) (size : ASize) (_scope : Scope) (ea eb : Bool) (s : State) :=
  amo d a b size ea eb (fun n x y => if toSigned n x < toSigned n y then y else x) s
def execAmoMinN (d a b : SReg) (size : ASize) (_scope : Scope) (ea eb : Bool) (s : State) :=
  amo d a b size ea eb (fun _ x y => min x y) s
def execAmoMaxN (d a b : SReg) (size : ASize) (_scope : Scope) (ea eb : Bool) (s : State) :=
  amo d a b size ea eb (fun _ x y => max x y) s

/-- cas also reads s[d], which no ea bit covers; a failed comparison writes nothing (04 R106, R107). -/
def execCas (d a b : SReg) (size : ASize) (_scope : Scope) (ea eb : Bool) (s : State) : Host.Outcome State Fault Refusal :=
  finishKeeping s do
    let x ← keeping s (s.hart.src a ea)
    let y ← keeping s (s.hart.src b eb)
    let z ← keeping s (s.hart.src d false)
    atomic d x (atomicBits size)
      (fun old => if old = z.toNat % 2 ^ (atomicBits size) then some (y.toNat % 2 ^ (atomicBits size)) else none) s

/-- A fence (04 R111, R112): the accesses of earlier vector instructions are made first; all others have been. -/
def fence (s : State) : Host.Outcome State Fault Refusal :=
  onHart s fun h => do
    afterVectors h
    .ok h.advance

def execFence (_scope : Scope) (s : State) := fence s
def execFenceLd (_scope : Scope) (s : State) := fence s
def execFenceSt (_scope : Scope) (s : State) := fence s
def execFenceEng (_scope : Scope) (s : State) := fence s

end Sys2Proof.Machine
end

