-- ==== Sys2Proof/Machine/Temper.lean ====
section
/-!
DEFINITION. The temper unit (08 R189; 19 R376 to R379; 20 R384 to R389).
-/
namespace Sys2Proof.Machine

/-! ## Slots -/

/-- A refusal: cause and subcode. -/
abbrev Refused := BitVec 8 × BitVec 8

def refusedTrap (addr : Word) (r : Refused) : Stop := .trap { cause := r.1, sub := r.2, addr := addr }

/-- The slot check (20 R388): open, not closing, and of this job. -/
def MergeSlot.check (m : MergeSlot) (job : BitVec 32) : Option Refused :=
  if m.state ≠ .opened ∨ m.closing then some (0x50, 0x20)
  else if m.job ≠ job then some (0x50, 0x22)
  else none

/-! ## Deposits (19 R377, 20 R385) -/

def putCon (w : Word) : Nat := bitsOf w 61 56
def putOff (w : Word) : Nat := bitsOf w 52 32
def putCnt (w : Word) : Nat := bitsOf w 20 0
/-- A reserved bit of a put word is set. -/
def putReserved (w : Word) : Bool := bitsOf w 63 62 != 0 || bitsOf w 55 53 != 0 || bitsOf w 31 21 != 0

/-- The checks of a deposit before its address (20 R388). -/
def MergeSlot.checkPut (m : MergeSlot) (job : BitVec 32) (w : Word) : Option Refused :=
  match m.check job with
  | some r => some r
  | none =>
    if putReserved w then some (0x02, 0)
    else if m.ncon ≤ putCon w ∨ putCnt w = 0 ∨ m.nelem < putOff w + putCnt w then some (0x12, 0)
    else if (m.con (putCon w)).marked ∨ m.nelem < (m.con (putCon w)).dcnt + putCnt w then some (0x50, 0x26)
    else none

/-- Phase one over one value (08 R189). -/
def Contributor.take (x : Contributor) (v : Nat) : Contributor :=
  match unpack fmtF32 v with
  | .fin n m e =>
    let y : FVal := .fin n m e
    { x with
      sq := BitVec.ofNat 64
        (roundF fmtF64 .rne (exactSum .rne [unpack fmtF64 x.sq.toNat, (mulX y y).1]).1).1 }
  | _ => { x with bad := true }

/-- A deposit that has passed its checks: staging is written and phase one takes the values. -/
def State.deposit (s : State) (d : DieNo) (n : Fin 16) (w : Word) (vals : List Nat) : State :=
  let m := s.mergeSlot d n
  let c := putCon w
  let s1 := ((List.range vals.length).zip vals).foldl (fun s p => s.storeLe (m.stagePlace c (putOff w + p.1)) 4 p.2) s
  let x := vals.foldl Contributor.take (m.con c)
  s1.setSlot d n (m.setCon c { x with dcnt := x.dcnt + vals.length })

/-! ## Markers and phase two (08 R189, 20 R385) -/

/-- The scale of a contributor with a sum of squares (08 R189). -/
def mergeScale (limit : BitVec 32) (sq : BitVec 64) : BitVec 32 :=
  let norm := (roundF fmtF32 .rne (sqrtX fmtF32 (unpack fmtF64 sq.toNat)).1).1
  if norm = 0 then 0x3F800000
  else BitVec.ofNat 32 (fpMinMax fmtF32 false 0x3F800000 (fpDiv fmtF32 .rne limit.toNat norm).1).1

/-- In ORDERED mode NEXT moves on over contributors whose marker has been received, and over the others once the slot is
closing; `fuel` contributors at most. -/
def MergeSlot.moveOn : Nat → MergeSlot → MergeSlot
  | 0, m => m
  | fuel + 1, m =>
    if m.next < m.ncon ∧ ((m.con m.next).marked ∨ m.closing) then
      let add := (m.con m.next).marked && !(m.con m.next).bad
      MergeSlot.moveOn fuel { m with next := m.next + 1, pending := if add then m.pending ++ [m.next] else m.pending }
    else m

/-- Hand contributors to phase two in the mode's order; `c` is one just marked. -/
def MergeSlot.handOver (m : MergeSlot) (c : Option Nat) : MergeSlot :=
  if m.arrival then
    match c with
    | some c => if (m.con c).bad then m else { m with pending := m.pending ++ [c] }
    | none => m
  else m.moveOn 64

/-- The contributors without a marker. -/
def MergeSlot.unmarked (m : MergeSlot) : BitVec 64 :=
  ((List.range m.ncon).filter fun c => !(m.con c).marked).foldl (fun a c => a ||| conBit c) 0

/-- A closing slot with nothing left to add is committed, and MISS is fixed (20 R388). -/
def MergeSlot.finish (m : MergeSlot) : MergeSlot :=
  if m.closing ∧ m.pending = [] ∧ m.state = .opened then
    { m with state := .committed, miss := m.unmarked, commits := m.opens } else m

/-- The slot after a marker, which a hart has placed (20 R388). -/
def MergeSlot.mark (m : MergeSlot) (c : Nat) (by_ : Nat × Word) : MergeSlot :=
  let x := m.con c
  let y := { x with marked := true, marker := some by_, sc := if x.bad then x.sc else mergeScale m.limit x.sq }
  ({ m.setCon c y with
    nmark := m.nmark + 1
    rej := if x.bad then m.rej ||| conBit c else m.rej }).handOver (some c)

/-- The hart that placed a contributor's marker still stands behind its tm.mark, at most waiting at a barrier there.
DEDUCED (log 84): in 19 R381 nothing of a contributor is added before its hart has passed the bar that follows. -/
def Contributor.behind (x : Contributor) (s : State) : Bool :=
  (s.allHarts ++ savedHarts s).any fun h =>
    x.marker == some (h.hid, h.pc) &&
      match h.status, h.mark with
      | .waiting, .arrived _ => true
      | .waiting, _ => false
      | _, _ => true

/-- Phase two of the next contributor handed over: once its marker's hart has gone on, or the slot is closing. -/
def execTemperPhaseTwo (die : DieNo) (slot : Fin 16) (s : State) : Host.Outcome State Fault Refusal :=
  let m := s.mergeSlot die slot
  match m.state, m.pending with
  | .opened, c :: _ =>
    if !m.closing && (m.con c).behind s then .next s
    else .next ((s.addContributor m c).setSlot die slot (m.added c).finish)
  | _, _ => .next s

/-! ## The instructions (20 R386 to R388) -/

/-- Translate every page of a region at tm.open: pages of the local alias, and for staging pages not NEAR, are refused. -/
def mapPages (s : State) (near : Bool) : List (Word × Nat) → Except Stop (List (Nat × Nat) × List (Word × Leaf))
  | [] => .ok ([], [])
  | (va, _) :: rest => do
    let p ← atAddr va (translate s s.hart.agent .both va)
    match regionOf s (leafAddr p.leaf va) with
    | .localStore _ => trapAt 0x11 va
    | r =>
      if near ∧ regionFar r then trapAt 0x11 va
      else do
        let (l, ls) ← mapPages s near rest
        .ok ((va.toNat / 4096, p.pa - va.toNat % 4096) :: l, (va, p.leaf) :: ls)

/-- LIMIT as the slot uses it; none where 19 R376 does not allow it. -/
def limitOf (x : BitVec 32) : Option (BitVec 32) :=
  match unpack fmtF32 x.toNat with
  | .fin _ 0 _ => some 0
  | .fin false _ _ => some x
  | _ => none

/-- tm.open with its descriptor read from an address: the checks in order, then the slot is open. -/
def openSlot (va : Word) (b : Block) (n : Fin 16) (s : State) : Except Stop State := do
  let w := blockWord b
  if bitsOf (w 0) 31 24 ≠ 0 ∨ bitsOf (w 0) 15 1 ≠ 0 ∨ bitsOf (w 1) 63 32 ≠ 0 ∨ bitsOf (w 2) 63 21 ≠ 0 ∨ w 5 ≠ 0 ∨
      w 6 ≠ 0 ∨ w 7 ≠ 0 then trapAt 0x02 va
  let ncon := bitsOf (w 0) 23 16
  let nelem := bitsOf (w 2) 20 0
  if ncon = 0 ∨ 64 < ncon ∨ nelem = 0 ∨ 1048576 < nelem then trapAt 0x12 va
  match limitOf ((w 1).truncate 32) with
  | none => .error (refusedTrap va (0x50, 0x25))
  | some limit =>
    if (w 3).toNat % 64 ≠ 0 then trapAt 0x05 (w 3)
    if (w 4).toNat % 64 ≠ 0 then trapAt 0x05 (w 4)
    let g := (nelem * 4 + 63) / 64 * 64
    let (total, ls) ← mapPages s false (pagesOf (w 3) (4 * nelem))
    let (stage, ks) ← mapPages s true (pagesOf (w 4) (ncon * g))
    let old := s.mergeSlot s.hart.die n
    if old.state = .opened then .error (refusedTrap va (0x50, 0x21))
    let m : MergeSlot :=
      { state := .opened, round := (w 0).extractLsb' 32 32, ncon := ncon, arrival := (w 0).getLsbD 0, limit := limit,
        nelem := nelem, total := w 3, stage := w 4, totalMap := total, stageMap := stage, job := s.hart.job,
        opens := old.opens + 1, commits := old.commits }
    let s1 := (tlbFillAll s s.hart.agent (ls ++ ks)).setSlot s.hart.die n m
    .ok { s1 with hart := s1.hart.advance }

def execTmOpen (a : SReg) (n : Fin 16) (s : State) : Host.Outcome State Fault Refusal :=
  finishKeeping s do
    let va ← keeping s (s.hart.src a false)
    keeping s (afterVectors s.hart)
    let (x, s1) ← loadValue s va 64
    keeping s1 (openSlot va (BitVec.ofNat 512 x) n s1)

/-- The values of a deposit of a hart (19 R377): buffered bytes among them are committed first, and stay so where the
read then faults. -/
def putValues (s : State) (va : Word) (cnt : Nat) : KeepM (List Nat × State) := do
  let addrs := (List.range cnt).map fun i => va + BitVec.ofNat 64 (4 * i)
  let ps ← keeping s (addrs.mapM fun x => do
    let p ← atAddr x (ownPlace s s.hart.agent .read x 4)
    .ok (x, p))
  let s1 ← keeping s (if ps.any (fun p => meetsBuffer s.hart.buffer p.2.pa 4) then quenchBefore s else .ok s)
  let vals ← keeping s1 (ps.mapM fun p =>
    match readFault s1 p.2.pa 4 with
    | some c => trapAt c p.1
    | none => .ok (s1.mem.readLe p.2.pa 4))
  .ok (vals, tlbFillAll s1 s1.hart.agent (ps.map fun p => (p.1, p.2.leaf)))

/-- A refusal as a stop. -/
def orRefused (addr : Word) : Option Refused → Except Stop Unit
  | none => .ok ()
  | some r => .error (refusedTrap addr r)

def execTmPut (a b : SReg) (n : Fin 16) (s : State) : Host.Outcome State Fault Refusal :=
  finishKeeping s do
    let va ← keeping s (s.hart.src a false)
    let w ← keeping s (s.hart.src b false)
    keeping s (afterVectors s.hart)
    keeping s (orRefused w ((s.mergeSlot s.hart.die n).checkPut s.hart.job w))
    keeping s (if va.toNat % 4 ≠ 0 then trapAt 0x05 va else .ok ())
    let (vals, s1) ← putValues s va (putCnt w)
    let s2 := s1.deposit s.hart.die n w vals
    .ok { s2 with hart := s2.hart.advance }

/-- The checks of a marker (20 R388). -/
def MergeSlot.checkMark (m : MergeSlot) (job : BitVec 32) (w : Word) : Option Refused :=
  match m.check job with
  | some r => some r
  | none =>
    if bitsOf w 63 62 ≠ 0 ∨ bitsOf w 55 32 ≠ 0 then some (0x02, 0)
    else if m.ncon ≤ putCon w then some (0x12, 0)
    else if w.truncate 32 ≠ m.round then some (0x50, 0x23)
    else if (m.con (putCon w)).marked then some (0x50, 0x24)
    else if (m.con (putCon w)).dcnt < m.nelem then some (0x50, 0x27)
    else none

def execTmMark (a : SReg) (n : Fin 16) (s : State) : Host.Outcome State Fault Refusal :=
  finish s do
    let w ← s.hart.src a false
    afterVectors s.hart
    let m := s.mergeSlot s.hart.die n
    orRefused w (m.checkMark s.hart.job w)
    let s1 := s.setSlot s.hart.die n (m.mark (putCon w) (s.hart.hid, s.hart.pc + 4))
    .ok { s1 with hart := s1.hart.advance }

/-- The slot's round of a number, or a later one, has been committed. -/
def MergeSlot.committedSince (m : MergeSlot) (opens : Nat) : Bool :=
  opens ≤ m.commits && !(m.state == .opened && m.opens == opens)

/-- tm.commit: a commit already received waits for its round's end without closing the slot again (20 R388). -/
def execTmCommit (n : Fin 16) (s : State) : Host.Outcome State Fault Refusal :=
  finish s do
    let wait (s : State) (k : Nat) : Except Stop State :=
      waiting s ((s.mergeSlot s.hart.die n).committedSince k) (.committed n k) fun s => .ok { s with hart := s.hart.advance }
    let m := s.mergeSlot s.hart.die n
    match s.hart.mark with
    | .committed _ k => wait s k
    | _ =>
      afterVectors s.hart
      orRefused 0 (m.check s.hart.job)
      wait (s.setSlot s.hart.die n ({ m with closing := true }.handOver none).finish) m.opens

/-- A status word (19 R378). -/
def MergeSlot.status (m : MergeSlot) (k : Nat) : Word :=
  let code := match m.state with
    | .idle => 0 | .opened => 1 | .committed => 2 | .aborted => 3
  match k with
  | 0 => fieldsWord [(code, 62), (m.ncon, 40), (m.nmark, 32), (m.round.toNat, 0)]
  | 1 => m.cmt
  | 2 => m.rej
  | _ => m.miss

/-- tm.poll; an earlier scoped gather is an acquire, so it comes first (13 R257). -/
def execTmPoll (d b : SReg) (n : Fin 16) (s : State) : Host.Outcome State Fault Refusal :=
  onHart s fun h => do
    let k ← h.src b false
    afterVectors h
    h.destReady d
    if 3 < k.toNat then trapAt 0x12 k
    .ok (h.result d ((s.mergeSlot h.die n).status k.toNat))

/-- tm.abort. -/
def execTmAbort (n : Fin 16) (s : State) : Host.Outcome State Fault Refusal :=
  finish s do
    afterVectors s.hart
    orRefused 0 ((s.mergeSlot s.hart.die n).check s.hart.job)
    let s1 := s.abortSlot s.hart.die n
    .ok { s1 with hart := s1.hart.advance }

end Sys2Proof.Machine
end

