-- ==== Sys2Proof/Machine/Jobs.lean ====
section
/-!
DEFINITION. Job cards and the job instructions (11 R234 to R246, R443; 20 R390, R391, R395, R396, R398).
-/
namespace Sys2Proof.Machine

/-! ## Engine accesses (11 R236) -/

/-- A physical range lies within a list of ranges; `fuel` ranges at most. -/
def insideOf (allowed : List (Nat × Nat)) : Nat → Nat → Nat → Bool
  | 0, _, n => n == 0
  | fuel + 1, pa, n =>
    if n = 0 then true
    else
      match allowed.find? fun r => r.1 ≤ pa && pa < r.1 + r.2 with
      | none => false
      | some r => insideOf allowed fuel (r.1 + r.2) (n - (r.1 + r.2 - pa))

def inside (allowed : List (Nat × Nat)) (pa n : Nat) : Bool := insideOf allowed (allowed.length + 1) pa n

/-- The places of an engine access, in pieces within pages, each translated and compared with the footprints: cause and
subcode of the first failing piece. DESIGN CHOICE (log 40): a piece without a translation fails as such, also outside the
footprints. -/
def engineAccess (s : State) (g : Agent) (k : Access) (allowed : List (Nat × Nat)) (va : Word) (n : Nat) :
    Except Refused (List (Nat × Nat)) :=
  (pagesOf va n).mapM fun p =>
    match translate s g k p.1 with
    | .error c => .error (0x50, c)
    | .ok q => if inside allowed q.pa p.2 then .ok (q.pa, p.2) else .error (0x52, 0)

/-- An engine read of n bytes. -/
def engineRead (s : State) (g : Agent) (allowed : List (Nat × Nat)) (va : Word) (n : Nat) : Except Refused (List Byte) := do
  let ps ← engineAccess s g .read allowed va n
  match ps.findSome? fun p => readFault s p.1 p.2 with
  | some c => .error (0x50, c)
  | none => .ok (ps.flatMap fun p => s.mem.readBytes p.1 p.2)

/-- Bytes laid over pieces in order. -/
def spread : List (Nat × Nat) → List Byte → List (Nat × Byte)
  | [], _ => []
  | p :: r, l => placeBytes p.1 (l.take p.2) ++ spread r (l.drop p.2)

/-- An engine write. DESIGN CHOICE (log 39): every piece is checked before the first byte is written. -/
def engineWrite (s : State) (g : Agent) (allowed : List (Nat × Nat)) (va : Word) (l : List Byte) : Except Refused State := do
  let ps ← engineAccess s g .write allowed va l.length
  .ok (s.storeBytes (spread ps l))

/-! ## Cards (11 R234, R235) -/

def Card.w (c : Card) (k : Nat) : Word := c.words.getD k 0
def cardKind (w0 : Word) : Nat := bitsOf w0 63 60
def Card.kind (c : Card) : Nat := cardKind (c.w 0)
def Card.replayable (c : Card) : Bool := (c.w 0).getLsbD 59
def Card.follows (c : Card) : Bool := (c.w 0).getLsbD 58
def Card.publishes (c : Card) : Bool := (c.w 0).getLsbD 57
def Card.arrives (c : Card) : Bool := (c.w 0).getLsbD 56
def Card.drawbar (c : Card) : Fin 64 := Fin.ofNat 64 (bitsOf (c.w 0) 55 50)
def Card.barrier (c : Card) : Fin 64 := Fin.ofNat 64 (bitsOf (c.w 0) 49 44)
/-- BYTES, or N of a gather card. -/
def Card.bytes (c : Card) : Nat := bitsOf (c.w 4) 39 0
/-- TMV (20 R390, R395). -/
def Card.deposits (c : Card) : Bool := (c.w 4).getLsbD 54
def Card.agent (c : Card) (d : DieNo) : Agent := { die := d, cell := none, asid := c.asid, level := c.level }
def Card.allowed (c : Card) : List (Nat × Nat) := c.rd ++ c.wr
/-- The cells a copy's MCAST names (11 R237). -/
def mcastCells (w : List Word) : List Nat :=
  if cardKind (w.getD 0 0) = 0 then (List.range 64).filter fun c => (w.getD 5 0).getLsbD c else []
/-- FCTX.CELL (11 R234). -/
def Card.followCell (c : Card) : CellNo := Fin.ofNat 48 (bitsOf (c.w 14) 5 0)
/-- FCTX's RM, RBASE and CBASE in the places of ACTL (11 R223, R238). -/
def Card.followActl (c : Card) : BitVec 17 := (c.w 14).extractLsb' 8 17

/-- The fields every card has (11 R240, SUB 0x01). -/
def commonBad (s : State) (d : DieNo) (w : Nat → Word) : Bool :=
  bitsOf (w 0) 43 0 != 0 || 3 < cardKind (w 0) || bitsOf (w 1) 47 0 == 0 || bitsOf (w 1) 63 48 != 0 ||
  bitsOf (w 9) 62 40 != 0 || bitsOf (w 11) 62 40 != 0 || bitsOf (w 14) 63 25 != 0 || bitsOf (w 14) 7 6 != 0 || w 15 != 0 ||
  ((w 0).getLsbD 58 && (47 < bitsOf (w 14) 5 0 || !cellOn s d (Fin.ofNat 48 (bitsOf (w 14) 5 0))))

/-- A put word that no deposit takes (20 R395). -/
def putBad (w : Word) : Bool := putReserved w || putCnt w == 0

/-- A copy card's own fields (11 R237; 20 R395). DESIGN CHOICE (log 40): bits [63:55] and [49:40] of P2 are ignored. -/
def copyBad (s : State) (h : Hart) (w : Nat → Word) (cells : List Nat) : Bool :=
  let n := bitsOf (w 4) 39 0
  let mine := (s.allHarts.filter fun x => x.resident && x.task == h.task && x.die == h.die).map (·.cell.val)
  8 < cells.length || cells.any (fun c => !mine.contains c) || (!cells.isEmpty && 0x400000 < (w 3).toNat + n) ||
  if (w 4).getLsbD 54 then !cells.isEmpty || putCnt (w 3) * 4 != n || putBad (w 3) else bitsOf (w 4) 53 50 != 0

/-- A gather card's own fields (20 R396). DEDUCED (log 40): its P3 is SRC, so it has no MCAST. -/
def gatherBad (w : Nat → Word) : Bool :=
  let esz := bitsOf (w 4) 63 52
  esz == 0 || esz % 4 != 0 || bitsOf (w 4) 51 40 != 0 || bitsOf (w 4) 39 0 == 0 || bitsOf (w 2) 1 0 != 0

/-- A collective card's own fields (20 R390, R391). DESIGN CHOICE (log 41): an address that is not aligned as R390,
R391 and R398 say makes a card malformed. -/
def collectiveBad (w : Nat → Word) : Bool :=
  let n := bitsOf (w 4) 39 0
  3 < bitsOf (w 4) 63 60 || (bitsOf (w 4) 63 60 < 2 && 3 < bitsOf (w 4) 59 56) || bitsOf (w 4) 49 40 != 0 ||
  (!(w 4).getLsbD 54 && bitsOf (w 4) 53 50 != 0) || n == 0 || n % 64 != 0 || (w 0).getLsbD 59 ||
  bitsOf (w 2) 5 0 != 0 || bitsOf (w 3) 5 0 != 0 || bitsOf (w 5) 5 0 != 0

/-- A codec card's own fields (20 R398). -/
def codecBad (w : Nat → Word) : Bool :=
  1 < bitsOf (w 4) 63 62 || bitsOf (w 4) 60 40 != 0 || w 5 != 0 || bitsOf (w 3) 5 0 != 0

/-- The card is malformed as far as its own 128 bytes tell. -/
def cardBad (s : State) (h : Hart) (l : List Word) : Bool :=
  let w (k : Nat) : Word := l.getD k 0
  commonBad s h.die w ||
    match cardKind (w 0) with
    | 0 => copyBad s h w (mcastCells l)
    | 1 => gatherBad w
    | 2 => collectiveBad w
    | _ => codecBad w

/-! ## Acceptance (11 R236, R240, R241) -/

/-- A footprint region as physical ranges; none when SUB 0x03 holds of it. DEDUCED (log 40): a page without the
region's permission cannot be translated. DESIGN CHOICE (log 40): a CS region that reaches beyond a cell's store covers the
addresses that follow it. -/
def footprint (s : State) (g : Agent) (k : Access) (cells : List Nat) (base len : Word) : Option (List (Nat × Nat)) :=
  let n := bitsOf len 39 0
  if n = 0 then some []
  else if len.getLsbD 63 then some (cells.map fun c => (storeBase g.die (Fin.ofNat 48 c) + base.toNat, n))
  else
    (pagesOf base n).mapM fun p =>
      match translate s g k p.1 with
      | .ok q => some (q.pa, p.2)
      | .error _ => none

/-- The follow-on's command and its A blocks' addresses (11 R234, R238). -/
def Card.followCmd (c : Card) : AnvCmd := anvCmd (c.w 12) c.followActl
def AnvCmd.rowStep (c : AnvCmd) : Word := if c.strided then 0 else BitVec.ofNat 64 (64 * c.kb)

/-- The follow-on's blocks translated. -/
def followPlaces (s : State) (g : Agent) (c : Card) : Option (List (Nat × Bool)) :=
  if !c.follows then some []
  else
    (c.followCmd.addrs (c.w 13) c.followCmd.rowStep).mapM fun va =>
      match translate s g .read va with
      | .ok q => some (q.pa, teBlk q.leaf.entry)
      | .error _ => none

/-- The CMPL word's place. -/
def cmplPlace (s : State) (g : Agent) (va : Word) : Option Nat :=
  if va = 0 ∨ va.toNat % 8 ≠ 0 then none
  else
    match translate s g .write va with
    | .ok q => some q.pa
    | .error _ => none

/-- The output of a collective in bytes (20 R391). -/
def Card.outputBytes (c : Card) (nmem : Nat) : Nat :=
  match bitsOf (c.w 4) 63 60 with
  | 1 => c.bytes / nmem
  | 2 => nmem * c.bytes
  | _ => c.bytes

/-- The 8-byte words of a list of bytes. -/
def wordsOf : Nat → List Byte → List Word
  | 0, _ => []
  | n + 1, l => BitVec.ofNat 64 (leNat (l.take 8)) :: wordsOf n (l.drop 8)

/-- The member word of a die of this node (20 R391). -/
def memberWord (s : State) (d : DieNo) : Word := BitVec.ofNat 64 (d.val * 2 ^ 20 + s.record.nodeid.toNat)

/-- The descriptor breaks R391 for a card. -/
def groupBad (s : State) (d : DieNo) (c : Card) (w : List Word) (members : List Word) : Bool :=
  let w0 := w.getD 0 0
  let rank := bitsOf w0 39 20
  let nmem := bitsOf w0 19 0
  nmem < 2 || bitsOf (w.getD 2 0) 5 0 != 0 || (if c.deposits then putBad (w.getD 3 0) else w.getD 3 0 != 0) ||
  members.any (fun m => bitsOf m 63 22 != 0 || bitsOf m 19 19 != 0) || members[rank]? != some (memberWord s d) ||
  (bitsOf (c.w 4) 63 60 == 1 && c.bytes % (nmem * 64) != 0)

/-- Read a collective's group descriptor at acceptance (20 R391, R393). -/
def readGroup (s : State) (d : DieNo) (c : Card) : Except Refused Group := do
  let head ← engineRead s (c.agent d) c.allowed (c.w 5) 32
  let w := wordsOf 4 head
  let w0 := w.getD 0 0
  let nmem := bitsOf w0 19 0
  let list ← engineRead s (c.agent d) c.allowed (c.w 5 + 32) (8 * nmem)
  let members := wordsOf nmem list
  if groupBad s d c w members then .error (0x50, 0x01)
  else
    .ok { tag := { gtag := BitVec.ofNat 24 (bitsOf w0 63 40), rev := (w.getD 1 0).extractLsb' 0 32,
                   att := (w.getD 1 0).extractLsb' 32 32 },
          rank := bitsOf w0 39 20, nmem := nmem, staging := w.getD 2 0, putw := w.getD 3 0, members := members }

def overlap (a b : List (Nat × Nat)) : Bool := a.any fun x => b.any fun y => rangesMeet x y

/-- The card with its regions, its follow-on's and its CMPL word's places: or the subcode that ends it. DEDUCED
(log 40): SUB 0x01 is looked for first, then 0x03, then 0x02. -/
def acceptCard (s : State) (h : Hart) (c : Card) : Except Refused Card :=
  let g := c.agent h.die
  let cells := mcastCells c.words
  if cardBad s h c.words then .error (0x50, 0x01)
  else
    match footprint s g .read cells (c.w 8) (c.w 9), footprint s g .write cells (c.w 10) (c.w 11), followPlaces s g c with
    | some rd, some wr, some fl =>
      if c.w 7 ≠ 0 ∧ c.cmpl = none then .error (0x50, 0x03)
      else if c.replayable ∧ overlap rd wr then .error (0x50, 0x02)
      else
        let c1 := { c with rd := rd, wr := wr, follow := fl }
        if c.kind = 2 then
          match readGroup s h.die c1 with
          | .ok q => .ok { c1 with group := some q }
          | .error e => .error e
        else .ok c1
    | _, _, _ => .error (0x50, 0x03)

/-- The edges to a card from the earlier ones (11 R241). -/
def edges (l : List Card) (c : Card) : List (Nat × Bool) :=
  (l.filter fun e => e.state != .done && (overlap c.rd e.wr || overlap c.wr e.rd || overlap c.wr e.wr)).map fun e =>
    (e.no, overlap c.rd e.wr)

/-- The hart's ticket records (11 R243). -/
def State.ticketsOf (s : State) (h : Hart) : List Card :=
  (s.dieOf h.die).cards.filter fun c => c.owner == h.hid && !c.retired

/-- A ticket for the hart: a value free but for R243 (log 38). -/
def newTicket (s : State) (l : List Card) : Word :=
  let free (t : Word) : Bool := t != 0 && !l.any fun c => c.ticket == t
  let x := Config.ticket s.fresh
  if free x then x else (((List.range 66).map (BitVec.ofNat 64)).find? free).getD 0

/-- The card's words, read once as an engine reads; bytes with an error fail it (11 R240, R243). -/
def readCard (s : State) (pa qa : Nat) : Except (BitVec 8) (List Word) :=
  match readFault s pa 64, readFault s qa 64 with
  | some c, _ | none, some c => .error c
  | none, none => .ok (wordsOf 8 (s.mem.readBytes pa 64) ++ wordsOf 8 (s.mem.readBytes qa 64))

/-- The scheduler holds a card of the hart from now on, and the hart its ticket in s[b]. -/
def State.addCard (s : State) (b : SReg) (c : Card) : State :=
  let d := s.hart.die
  let x := s.dieOf d
  let s1 := { s.setDie d { x with cards := x.cards ++ [c], nextCard := x.nextCard + 1 } with fresh := s.fresh + 1 }.wake
  { s1 with hart := s1.hart.result b c.ticket }

/-- A card that fails at acceptance (11 R240). -/
def Card.failed (c : Card) (r : Refused) : Card := { c with state := .worked, cause := r.1, sub := r.2 }

/-- job.sub (11 R243). While the scheduler is full it stalls; 15 R296 and 16 R332 do not name that wait. -/
def execJobSub (a b : SReg) (s : State) : Host.Outcome State Fault Refusal :=
  finishKeeping s do
    let va ← keeping s (s.hart.src a false)
    keeping s (s.hart.destReady b)
    keeping s (if !s.hart.memReady then .error .stall else .ok ())
    keeping s (if va.toNat % 64 ≠ 0 then trapAt 0x05 va else .ok ())
    let h := s.hart
    let g : Agent := { h.agent with cell := none }
    let p ← keeping s (atAddr va (translate s g .read va))
    let q ← keeping s (atAddr (va + 64) (translate s g .read (va + 64)))
    let held := ((s.dieOf h.die).cards.filter fun c => c.state != .done).length
    if Config.maxCards ≤ held then keeping s (.error .stall)
    else do
      let mine := s.ticketsOf h
      keeping s (if Config.maxTickets ≤ mine.length then .error (refusedTrap va (0x50, 0x01)) else .ok ())
      let c0 : Card :=
        { no := (s.dieOf h.die).nextCard, owner := h.hid, ticket := newTicket s mine, job := h.job, asid := h.asid,
          level := h.priv.cur, cell := h.cell, addr := va, words := [], rd := [], wr := [], follow := [], cmpl := none,
          state := .queued }
      match readCard s p.pa q.pa with
      | .error e => .ok (s.addCard b (c0.failed (0x50, e)))
      | .ok words =>
        let c1 := { c0 with words := words, cmpl := cmplPlace s g (words.getD 7 0) }
        match acceptCard s h c1 with
        | .error r => .ok (s.addCard b (c1.failed r))
        | .ok c2 => do
          let s1 ← fromTile (snapshots s c2.wr)
          .ok (s1.addCard b { c2 with deps := edges (s1.dieOf h.die).cards c2 })

/-- The status word of a job (11 R239). -/
def Card.status (c : Card) : Word :=
  if c.state = .done then
    fieldsWord [(1, 63), (if c.cause = 0 then 0 else 1, 62), (if c.replayed then 1 else 0, 61), (c.cause.toNat, 48),
      (c.sub.toNat, 40)]
  else fieldsWord [(if c.replayed then 1 else 0, 61)]

/-- The first of some cards by ticket. -/
def lowestTicket (l : List Card) : Option Card := (sortBy (fun a b => a.ticket.toNat ≤ b.ticket.toNat) l).head?

/-- job.wait (11 R244): s0 names every job of the hart; a zero in another register names none. -/
def execJobWait (a : SReg) (s : State) : Host.Outcome State Fault Refusal :=
  finishKeeping s do
    let t ← keeping s (s.hart.src a false)
    let h := s.hart
    let named := fun (c : Card) => a == 0 || c.ticket == t
    let l := (s.ticketsOf h).filter named
    let ready := l.all fun c => c.state == .done
    let s1 ← keeping s (waiting s ready .none .ok)
    if !ready then .ok s1
    else
      let s2 := s1.retireCards h.die fun c => c.owner == h.hid && named c
      match lowestTicket (l.filter fun c => c.cause != 0 && c.cause != 0x70) with
      | some c => .error (.trap { cause := c.cause, sub := c.sub, addr := c.addr }, s2)
      | none => .ok { s2 with hart := s2.hart.advance }

/-- job.poll (11 R245). It reads the status, so it waits for earlier vector accesses (13 R253, R257). -/
def execJobPoll (a b : SReg) (s : State) : Host.Outcome State Fault Refusal :=
  finish s do
    let t ← s.hart.src a false
    afterVectors s.hart
    match (s.ticketsOf s.hart).find? fun c => c.ticket == t with
    | none => do
      let h ← s.hart.queuedResult b (1 <<< 60)
      .ok { s with hart := h }
    | some c => do
      let h ← s.hart.queuedResult b c.status
      let s1 : State := { s with hart := h }
      .ok (s1.retireCards h.die fun x => x.no == c.no && x.state == .done)

/-- job.cancel (11 R246). -/
def execJobCancel (a : SReg) (s : State) : Host.Outcome State Fault Refusal :=
  finish s do
    let t ← s.hart.src a false
    let s1 := s.cancelCards s.hart.die fun c => c.owner == s.hart.hid && c.ticket == t
    .ok { s1 with hart := s1.hart.advance }

end Sys2Proof.Machine
end

