-- ==== Sys2Proof/Machine/Links.lean ====
section
/-!
DEFINITION. Flits and their layout, what a port sends, and the routes (22 R432 to R434).
-/
namespace Sys2Proof.Machine

/-! ## Flits (22 R432) -/

/-- A header: NODE, DIE, VC, TAG. -/
def flitHeader (node : BitVec 19) (die : BitVec 2) (vc : BitVec 3) (tag : BitVec 40) : Word := node ++ die ++ vc ++ tag

/-- A flit of a header and 56 bytes of payload. -/
def flitOf (header : Word) (payload : BitVec 448) : Block := payload ++ header

def flitNode (flit : Block) : BitVec 19 := (blockWord flit 0).extractLsb' 45 19
def flitDie (flit : Block) : DieNo := Fin.ofNat 4 (bitsOf (blockWord flit 0) 44 43)
def flitVc (flit : Block) : Nat := bitsOf (blockWord flit 0) 42 40
def flitTag (flit : Block) : BitVec 40 := (blockWord flit 0).extractLsb' 0 40

/-- A collective's flit: GTAG and the low half of ATT in TAG, then REV, the whole of ATT, and 48 bytes. -/
def memberFlit (node : BitVec 19) (die : BitVec 2) (vc : BitVec 3) (t : HopTag) (data : BitVec 384) : Block :=
  flitOf (flitHeader node die vc (t.gtag ++ t.att.truncate 16)) (data ++ t.rev ++ t.att)

/-- The 88 bits by which a collective's flit is matched. -/
def flitHopTag (flit : Block) : HopTag :=
  { gtag := (flitTag flit).extractLsb' 16 24, rev := (blockWord flit 1).extractLsb' 32 32,
    att := (blockWord flit 1).extractLsb' 0 32 }

/-- The 48 bytes of a hop's data. -/
def flitData (flit : Block) : List Byte := (leBytes 64 flit.toNat).drop 16

/-- A hop's bytes in the payload; the bytes it leaves over are free (log 43). -/
def hopData (s : State) (l : List Byte) : BitVec 384 :=
  BitVec.ofNat 384 (leNat (l ++ (leBytes 48 (Config.flitFill s.fresh).toNat).drop l.length))

/-! ## The trailer (22 R434) -/

/-- One bit of CRC-32C, reflected. -/
def crcBit (c : Nat) : Nat := if c % 2 = 1 then (c / 2) ^^^ 0x82F63B78 else c / 2

/-- One byte of CRC-32C. -/
def crcByte (c : Nat) (b : Byte) : Nat :=
  crcBit (crcBit (crcBit (crcBit (crcBit (crcBit (crcBit (crcBit (c ^^^ b.toNat))))))))

/-- CRC-32C of RFC 3720. -/
def crc32c (l : List Byte) : Nat := l.foldl crcByte 0xFFFFFFFF ^^^ 0xFFFFFFFF

/-- The CRC of a flit and trailer bytes 0 to 3. -/
def flitCrc (flit : Block) (low : Nat) : Nat := crc32c (leBytes 64 flit.toNat ++ leBytes 4 low)

/-- The trailer with its CRC. -/
def trailer (flit : Block) (fseq ack : BitVec 12) (cvc cn kind : Nat) : Word :=
  let low := fseq.toNat * 2 ^ 20 + ack.toNat * 2 ^ 8 + cvc * 2 ^ 5 + cn * 2 ^ 2 + kind
  BitVec.ofNat 64 (flitCrc flit low * 2 ^ 32 + low)

/-- A trailer is good: its CRC, and no KIND 3. -/
def trailerGood (flit : Block) (t : Word) : Bool := flitCrc flit (bitsOf t 31 0) == bitsOf t 63 32 && bitsOf t 1 0 != 3

/-! ## Sending -/

/-- FSEQ of the last flit received in order. -/
def Port.lastGood (p : Port) : BitVec 12 := p.rxSeq - 1

/-- A data flit may go: a credit of its channel, and room among those kept. -/
def Port.maySend (p : Port) (flit : Block) : Bool :=
  p.kept.length < Config.keptFlits && 0 < p.credits.toList.getD (flitVc flit) 0

/-- Send a data flit and keep it until it is acknowledged. -/
def Port.sendNow (p : Port) (flit : Block) : Port :=
  let v := flitVc flit
  { p with
    txSeq := p.txSeq + 1
    kept := p.kept ++ [{ fseq := p.txSeq, flit := flit }]
    credits := p.credits.setIfInBounds v (p.credits.toList.getD v 0 - 1)
    wire := p.wire ++ [(flit, trailer flit p.txSeq p.lastGood 0 0 0)] }

/-- Send what waits and may go, oldest first within a channel; `fuel` flits at most. -/
def Port.drain : Nat → Port → Port
  | 0, p => p
  | fuel + 1, p =>
    match p.waiting.find? p.maySend with
    | none => p
    | some f => Port.drain fuel ({ p with waiting := p.waiting.erase f }.sendNow f)

/-- Hand a flit to a port. -/
def Port.push (p : Port) (flit : Block) : Port :=
  let q := { p with waiting := p.waiting ++ [flit] }
  q.drain q.waiting.length

/-- An idle flit, or a retry request, with its trailer: it returns `cn` credits of a channel. -/
def Port.idle (p : Port) (cvc cn kind : Nat) : Port :=
  { p with wire := p.wire ++ [(0, trailer 0 p.txSeq p.lastGood cvc cn kind)] }

/-! ## Routes (22 R433) -/

def State.port (s : State) (d : DieNo) (n : Fin 8) : Port := (s.dieOf d).ports[n]
def State.setPort (s : State) (d : DieNo) (n : Fin 8) (p : Port) : State :=
  let x := s.dieOf d
  s.setDie d { x with ports := x.ports.set n p }

/-- The port that a die's routes give a node (22 R433). -/
def routeTo (x : Die) (node : BitVec 19) : Option (Fin 8) := (x.routes.find? fun r => r.1 == node).map (·.2)

/-- A flit goes on its way from a die: into the inbox of the die it names on this module, or through the port to its
node. One without a route, on a port that is down or of a reserved channel is lost. -/
def State.sendFlit (s : State) (d : DieNo) (flit : Block) : State :=
  if 3 < flitVc flit then s
  else if flitNode flit = s.record.nodeid then
    let x := s.dieOf (flitDie flit)
    s.setDie (flitDie flit) { x with inbox := x.inbox ++ [flit] }
  else
    match routeTo (s.dieOf d) (flitNode flit) with
    | none => s
    | some n => if (s.port d n).up then s.setPort d n ((s.port d n).push flit) else s

/-- The first flit in a die's inbox of a kind is taken out. -/
def State.takeFlit (s : State) (d : DieNo) (p : Block → Bool) : Option State :=
  let x := s.dieOf d
  if x.inbox.any p then some (s.setDie d { x with inbox := x.inbox.eraseP p }) else none

/-- The flits of a spawn.x packet to a node (15 R309, 22 R432). -/
def State.sendPacket (s : State) (f : InFlight) : State :=
  let p := f.packet
  let header := flitHeader f.node (BitVec.ofFin p.die) 0 (BitVec.ofNat 40 p.number)
  (Config.spawnPayloads p.job p.any p.die.val p.cell p.record).foldl (fun s x => s.sendFlit f.src (flitOf header x)) s

end Sys2Proof.Machine
end

