-- ==== Sys2Proof/Machine/LaneCross.lean ====
section
/-!
DEFINITION. Cross-lane work: pushes and pulls, slides, packing, extraction and the reductions (05 R135 to R141).
-/
namespace Sys2Proof.Machine

/-- The sum of two elements of a type, rounded or modulo 2^n (05 R136). -/
def addElem (t : ElemTy) (mode : RMode) (x y : Nat) : Nat × FFlags :=
  match t with
  | .int t => (wrapTo t.bits ((x + y : Nat) : Int), 0)
  | .flt t => fpAdd (fltFmt t) mode x y

/-- A movement with the source a read at elements that depend on nothing but the entry: `from' act i` names the source
element of d's element i, or none for 0. -/
def laneMove (s : State) (e : VEntry) (d a : VReg) (w : Nat) (ea : Bool) (source : List Nat → Nat → Option Nat) : KeepM State :=
  let n := evlOf s.hart e w
  let act := activeBelow s.hart e n
  lane s e [{ reg := a, w := w, ea := ea, elems := act.filterMap (source act) }] [(d, w)] fun h fed => do
    checkMask h e w n
    .ok (h.deliver fed d w (act.map fun i =>
      (i, match source act i with
        | some j => vElem h.vreg[a] w j
        | none => 0)))

/-- vslide.up (05 R137). -/
def laneSlideUp (s : State) (e : VEntry) (d a : VReg) (w : Nat) (ea : Bool) : KeepM State :=
  laneMove s e d a w ea fun _ i => if e.xa.toNat ≤ i then some (i - e.xa.toNat) else none
/-- vslide.dn. -/
def laneSlideDn (s : State) (e : VEntry) (d a : VReg) (w : Nat) (ea : Bool) : KeepM State :=
  laneMove s e d a w ea fun _ i => if i + e.xa.toNat < evlOf s.hart e w then some (i + e.xa.toNat) else none
/-- vbcast. -/
def laneBcast (s : State) (e : VEntry) (d a : VReg) (w : Nat) (ea : Bool) : KeepM State :=
  laneMove s e d a w ea fun _ _ => if e.xa.toNat < evlOf s.hart e w then some e.xa.toNat else none
/-- vexpand (05 R138). -/
def laneExpand (s : State) (e : VEntry) (d a : VReg) (w : Nat) (ea : Bool) : KeepM State :=
  laneMove s e d a w ea fun act i => some (act.filter fun j => j < i).length

/-- vpull (05 R137): the sources it names, active or not. -/
def lanePull (s : State) (e : VEntry) (d a b : VReg) (w : Nat) (ea eb : Bool) : KeepM State :=
  let n := evlOf s.hart e w
  let act := activeBelow s.hart e n
  lane s e [{ reg := a, w := w, ea := ea, elems := [] }, { reg := b, w := w, ea := eb, elems := act }] [(d, w)]
    fun h fed => do
    checkMask h e w n
    let ix (i : Nat) : Nat := vElem h.vreg[b] w i
    checkSound h w ((act.map ix).filter fun j => j < n) [a]
    .ok (h.deliver fed d w (act.map fun i => (i, if ix i < n then vElem h.vreg[a] w (ix i) else 0)))

/-- vpush and vpush.add (05 R136): `f old x` is the value at a position that an element x is sent to. An element whose
index is out of range is not read. -/
def lanePush (s : State) (e : VEntry) (d a b : VReg) (w : Nat) (ea eb acc : Bool) (f : Nat → Nat → Nat × FFlags) :
    KeepM State :=
  let n := evlOf s.hart e w
  let act := activeBelow s.hart e n
  lane s e
    ([{ reg := a, w := w, ea := ea, elems := [] }, { reg := b, w := w, ea := eb, elems := act }] ++
      (if acc then [{ reg := d, w := w, ea := false, elems := [] }] else [])) [(d, w)] fun h fed => do
    checkMask h e w n
    let ix (i : Nat) : Nat := vElem h.vreg[b] w i
    let live := act.filter fun i => ix i < n
    checkSound h w live [a]
    if acc then checkSound h w (live.map ix) [d]
    let out := live.foldl (fun (p : List (Nat × Nat) × FFlags) i =>
      let old := ((p.1.find? fun q => q.1 == ix i).map (·.2)).getD (vElem h.vreg[d] w (ix i))
      let r := f old (vElem h.vreg[a] w i)
      ((ix i, r.1) :: p.1.filter (fun q => q.1 != ix i), p.2 ||| r.2)) ([], 0)
    .ok ((h.raise out.2).deliver fed d w out.1)

/-- vcmpr (05 R138). -/
def laneCompress (s : State) (e : VEntry) (d a : VReg) (w : Nat) (ea : Bool) : KeepM State :=
  let n := evlOf s.hart e w
  let act := activeBelow s.hart e n
  lane s e [{ reg := a, w := w, ea := ea, elems := act }] [(d, w)] fun h fed => do
    checkMask h e w n
    .ok (h.deliver fed d w ((List.range act.length).zip (act.map (vElem h.vreg[a] w))))

/-- vcmpr.th (05 R138): the kept values, their indices in the next register, and VL. -/
def laneThreshold (s : State) (e : VEntry) (d a : VReg) (t : ElemTy) (ea : Bool) : KeepM State :=
  let w := t.bits
  let n := evlOf s.hart e w
  let act := activeBelow s.hart e n
  let th := e.xa.toNat % 2 ^ w
  lane s e [{ reg := a, w := w, ea := ea, elems := act }] [(d, w), (groupReg d 1, w)] fun h fed => do
    checkMask h e w n
    let out := act.map fun i => (i, relElem t .ge (vElem h.vreg[a] w i) th)
    let kept := (out.filter fun p => p.2.1).map (·.1)
    let h1 := h.raise (out.foldl (fun g p => g ||| p.2.2) 0)
    let h2 := h1.deliver fed d w ((List.range kept.length).zip (kept.map (vElem h.vreg[a] w)))
    let h3 := h2.deliver fed (groupReg d 1) w ((List.range kept.length).zip kept)
    .ok { h3 with vl := kept.length }

/-- An element as a scalar result: sign-extended for i types, zero-extended otherwise (05 R137, R140). -/
def scalarOf (t : ElemTy) (x : Nat) : Word :=
  match t with
  | .int u => if isSigned u then BitVec.ofInt 64 (toSigned u.bits x) else BitVec.ofNat 64 x
  | .flt _ => BitVec.ofNat 64 x

/-- vext (05 R137): the mask plays no part. -/
def laneExt (s : State) (e : VEntry) (d : SReg) (a : VReg) (t : ElemTy) (ea : Bool) : KeepM State :=
  let w := t.bits
  let k := e.xa.toNat
  let there := k < evlOf s.hart e w
  lane s e [{ reg := a, w := w, ea := ea, elems := if there then [k] else [] }] [] fun h _ =>
    .ok (h.laneResult d (if there then scalarOf t (vElem h.vreg[a] w k) else 0))

/-! ## Reductions (05 R139, R140) -/

/-- Two partial sums; an empty one yields the other. -/
def addPart (f : Fmt) (mode : RMode) (x y : Option Nat) (g : FFlags) : Option Nat × FFlags :=
  match x, y with
  | some a, some b => let r := fpAdd f mode a b; (some r.1, g ||| r.2)
  | some a, none => (some a, g)
  | none, y => (y, g)

/-- One round over the partial sums: neighbours are added in pairs. -/
def pairRound (f : Fmt) (mode : RMode) : List (Option Nat) → FFlags → List (Option Nat) × FFlags
  | x :: y :: r, g =>
    let q := addPart f mode x y g
    let rest := pairRound f mode r q.2
    (q.1 :: rest.1, rest.2)
  | l, g => (l, g)

/-- Rounds until one sum is left; `fuel` bounds their number. -/
def pairAll (f : Fmt) (mode : RMode) : Nat → List (Option Nat) → FFlags → Option Nat × FFlags
  | fuel + 1, x :: y :: r, g =>
    let q := pairRound f mode (x :: y :: r) g
    pairAll f mode fuel q.1 q.2
  | _, x :: _, g => (x, g)
  | _, [], g => (none, g)

/-- The float sum in its fixed order (05 R139): within each lane, then over lanes in pairs, the seed last. -/
def floatSum (f : Fmt) (mode : RMode) (lanes : Nat) (w seed : Nat) (l : List (Nat × Nat)) : Nat × FFlags :=
  let parts := (List.range lanes).foldl (fun (p : List (Option Nat) × FFlags) i =>
    let q := ((l.filter fun x => elemLane w x.1 == i).map (·.2)).foldl (fun (a : Option Nat × FFlags) x =>
      addPart f mode a.1 (some x) a.2) (none, p.2)
    (q.1 :: p.1, q.2)) ([], 0)
  let r := pairAll f mode 9 parts.1.reverse parts.2
  match r.1 with
  | none => (seed, r.2)
  | some x => let q := fpAdd f mode seed x; (q.1, r.2 ||| q.2)

/-- The larger or smaller of two elements of a type (05 R139). -/
def pickElem (t : ElemTy) (isMax : Bool) (x y : Nat) : Nat × FFlags :=
  match t with
  | .int t => (if isMax then opMax t x y else opMin t x y, 0)
  | .flt t => fpMinMax (fltFmt t) isMax x y

/-- A fold with flags. -/
def foldFlags (f : Nat → Nat → Nat × FFlags) (seed : Nat) (l : List Nat) : Nat × FFlags :=
  l.foldl (fun p x => let r := f p.1 x; (r.1, p.2 ||| r.2)) (seed, 0)

/-- A reduction: `f lanes seed elements` (05 R139). -/
def laneReduce (s : State) (e : VEntry) (d : SReg) (a : VReg) (t : ElemTy) (ea : Bool)
    (f : Nat → List (Nat × Nat) → Nat × FFlags) : KeepM State :=
  let w := t.bits
  let n := evlOf s.hart e w
  let act := activeBelow s.hart e n
  lane s e [{ reg := a, w := w, ea := ea, elems := act }] [] fun h _ => do
    checkMask h e w n
    let r := f (e.xa.toNat % 2 ^ w) (act.map fun i => (i, vElem h.vreg[a] w i))
    .ok ((h.raise r.2).laneResult d (scalarOf t r.1))

/-- vrsum. -/
def laneSum (s : State) (e : VEntry) (d : SReg) (a : VReg) (t : ElemTy) (ea : Bool) : KeepM State :=
  laneReduce s e d a t ea fun seed l =>
    match t with
    | .int _ => foldFlags (addElem t .rne) seed (l.map (·.2))
    | .flt u => floatSum (fltFmt u) (RMode.ofFrm e.frm) s.hart.lanes u.bits seed l
/-- vrmax and vrmin. -/
def lanePick (s : State) (e : VEntry) (d : SReg) (a : VReg) (t : ElemTy) (ea isMax : Bool) : KeepM State :=
  laneReduce s e d a t ea fun seed l => foldFlags (pickElem t isMax) seed (l.map (·.2))

end Sys2Proof.Machine
end

