-- ==== Sys2Proof/Machine/LaneTree.lean ====
section
/-!
DEFINITION. Tree work of the lanes (06 R143 to R163): groups, cleaning, classification, accumulation, structure and
contraction, and the topology loads and stores.
-/
namespace Sys2Proof.Machine

/-! ## Nodes and groups (06 R143, R145) -/

/-- TL (06 R143). -/
def treeLen (h : Hart) (e : VEntry) : Nat :=
  if e.vl = 0 then 0 else (e.tgrp.toNat - 1) * h.vlmax 32 + min e.vl (h.vlmax 32)

/-- The least power of two not below a number up to 8. -/
def pow2Up (n : Nat) : Nat := if n ≤ 1 then 1 else if n ≤ 2 then 2 else if n ≤ 4 then 4 else 8

/-- The bases are multiples of what TGRP asks (06 R145): cause 0x07 with the instruction's word. -/
def checkGroups (e : VEntry) (word : Nat) (vals : List VReg) (t : TReg) : Except Stop Unit :=
  let g := e.tgrp.toNat
  if vals.any (fun r => r.val % pow2Up g != 0) || t.val % pow2Up ((g + 1) / 2) != 0 then trapAt 0x07 (BitVec.ofNat 64 word)
  else .ok ()

/-- Registers of a value group that nodes below TL reach. -/
def treeRegs (h : Hart) (e : VEntry) : Nat := (treeLen h e + h.vlmax 32 - 1) / h.vlmax 32

/-- A value group as sources, read at the nodes listed. -/
def treeSrcs (h : Hart) (e : VEntry) (base : VReg) (ea : Bool) (nodes : List Nat) : List Src :=
  let v := h.vlmax 32
  (List.range (treeRegs h e)).map fun k =>
    { reg := groupReg base k, w := 32, ea := ea, elems := (nodes.filter fun n => n / v == k).map (· % v) }
/-- A value group as destinations. -/
def treeDsts (h : Hart) (e : VEntry) (base : VReg) : List (VReg × Nat) :=
  (List.range (treeRegs h e)).map fun k => (groupReg base k, 32)

/-- The value of a node in a group. -/
def nodeVal (h : Hart) (base : VReg) (n : Nat) : Nat := vElem h.vreg[groupReg base (n / h.vlmax 32)] 32 (n % h.vlmax 32)

/-- The topology register and entry of a node (06 R143). -/
def topoReg (h : Hart) (t : TReg) (n : Nat) : TReg := Fin.ofNat 8 (t.val + n / (2 * h.vlmax 32))
def topoIx (h : Hart) (n : Nat) : Nat := n % (2 * h.vlmax 32)
def parentEntry (h : Hart) (t : TReg) (n : Nat) : Nat := tElem h.treg[topoReg h t n] (topoIx h n)

/-- Write values to nodes of a group. -/
def putNodes (h : Hart) (fed : Bool) (base : VReg) (k : Nat) (l : List (Nat × Nat)) : Hart :=
  let v := h.vlmax 32
  deliverGroup h fed base 32 k (l.map fun p => ((p.1 / v, p.1 % v), p.2))

/-- Write parent entries. -/
def putParents (h : Hart) (t : TReg) (l : List (Nat × Nat)) : Hart :=
  l.foldl (fun h p =>
    let r := topoReg h t p.1
    { h with treg := h.treg.set r (vSetElem h.treg[r] 16 (topoIx h p.1) p.2) }) h

/-- Poison marks of topology registers after entries of them are written. -/
def unpoisonTopo (h : Hart) (t : TReg) (nodes : List Nat) : Hart :=
  (List.finRange 8).foldl (fun h (r : TReg) =>
    { h with
      tpoison := h.tpoison.set r
        (unpoison h.tpoison[r] 16 ((nodes.filter fun n => topoReg h t n == r).map (topoIx h))) }) h

/-- A parent entry that is read lies in a poisoned slice (05 R115, 06 R151). The spec gives no number for a topology
register: TADDR is a free value (log 6). -/
def checkTopo (s : State) (t : TReg) (nodes : List Nat) : KeepM Unit :=
  if nodes.any fun n => s.hart.tpoison[topoReg s.hart t n].getLsbD (topoIx s.hart n / 16) then
    .error (.trap { cause := 0x60, addr := Config.freeWord s.fresh }, { s with fresh := s.fresh + 1 })
  else .ok ()

/-! ## Cleaning and classification (06 R146, R147) -/

/-- A forest as an instruction sees it. -/
structure Forest where
  len : Nat
  /-- The nodes that take part: the active ones, or all for tctr. -/
  nodes : List Nat
  entry : Nat → Nat
  /-- A parent index is followed. -/
  there : Nat → Bool

/-- P(n). -/
def Forest.parent (f : Forest) (n : Nat) : Option Nat :=
  let raw := f.entry n
  if 0xFFFE ≤ raw ∨ f.len ≤ raw ∨ !f.there raw then none else some raw
/-- The node is made a root by its parent entry, neither root nor cut. -/
def Forest.dangling (f : Forest) (n : Nat) : Bool :=
  let raw := f.entry n
  raw < 0xFFFE && (f.len ≤ raw || !f.there raw)
/-- Its parent entry lies beyond the forest. -/
def Forest.beyond (f : Forest) (n : Nat) : Bool := f.entry n < 0xFFFE && f.len ≤ f.entry n

/-- A node with its ancestors, nearest first; none for a cyclic node, whose chain never ends. -/
def Forest.pathFrom (f : Forest) : Nat → Nat → Option (List Nat)
  | 0, _ => none
  | fuel + 1, n =>
    match f.parent n with
    | none => some [n]
    | some p => (f.pathFrom fuel p).map (n :: ·)
def Forest.path (f : Forest) (n : Nat) : Option (List Nat) := f.pathFrom f.len n
def Forest.cyclic (f : Forest) (n : Nat) : Bool := (f.path n).isNone
def Forest.depth (f : Forest) (n : Nat) : Nat := ((f.path n).map fun l => l.length - 1).getD 0
/-- Rooted deeper than a limit that is not 0. -/
def Forest.deep (f : Forest) (dlim n : Nat) : Bool := dlim != 0 && !f.cyclic n && dlim < f.depth n

/-- The forest of an instruction: `all` for tctr, whose active mask only selects what is kept (06 R163). -/
def forestOf (h : Hart) (e : VEntry) (t : TReg) (all : Bool) : Forest :=
  let len := treeLen h e
  let act := activeBelow h e len
  { len := len
    nodes := if all then List.range len else act
    entry := parentEntry h t
    there := fun n => all || act.contains n }

/-! ## Counts and traps (06 R148 to R151) -/

/-- TCTL's fields. -/
def tctlDlim (c : BitVec 32) : Nat := (c.extractLsb' 16 16).toNat
def tctlCyt (c : BitVec 32) : Bool := c.getLsbD 0
def tctlDgt (c : BitVec 32) : Bool := c.getLsbD 1
def tctlDlt (c : BitVec 32) : Bool := c.getLsbD 2

/-- TSTAT with counts added, each field saturating (06 R149). -/
def addTstat (t : BitVec 48) (dovf dang cycles : Nat) : BitVec 48 :=
  let f (i n : Nat) : Nat := min (t.toNat / 2 ^ (16 * i) % 65536 + n) 0xFFFF * 2 ^ (16 * i)
  BitVec.ofNat 48 (f 2 dovf + f 1 dang + f 0 cycles)

/-- How an instruction counts and traps (06 R151). -/
inductive TreeMode where
  | full | countOnly | degree
  deriving DecidableEq, Repr

/-- The hart with an instruction's counts. -/
def counted (h : Hart) (e : VEntry) (f : Forest) (m : TreeMode) : Hart :=
  let dang := (f.nodes.filter f.dangling).length
  if m = .degree then { h with tstat := addTstat h.tstat 0 dang 0 }
  else
    { h with
      tstat := addTstat h.tstat (f.nodes.filter (f.deep (tctlDlim e.tctl))).length dang
        (f.nodes.filter f.cyclic).length }

/-- The TCTL trap, with the lowest offending node. -/
def treeTrap (e : VEntry) (f : Forest) (m : TreeMode) : Option Trap :=
  let first (p : Nat → Bool) (c : BitVec 8) : Option Trap :=
    (f.nodes.find? p).map fun n => { cause := c, addr := BitVec.ofNat 64 n }
  match m with
  | .countOnly => none
  | .degree => if tctlDgt e.tctl then first f.beyond 0x21 else none
  | .full =>
    (if tctlCyt e.tctl then first f.cyclic 0x20 else none).or
      (first (fun n => (tctlDgt e.tctl && f.beyond n) || (tctlDlt e.tctl && f.deep (tctlDlim e.tctl) n)) 0x21)

/-- A tree instruction over a forest: its group alignment, its sources, the parent entries it reads, counts and traps;
then `f` gives the hart after the effect. DESIGN CHOICE (log 79): one that 0x04 or 0x60 stops adds no counts, and the
masks it reads are judged after its value sources and before its parent entries, each register in operand order. -/
def laneTree (s : State) (e : VEntry) (word : Nat) (bases : List VReg) (t : TReg) (srcs : List Src)
    (dsts : List (VReg × Nat)) (marks : List MReg) (all : Bool) (m : TreeMode) (f : Hart → Bool → Forest → Hart) :
    KeepM State := do
  keeping s (checkGroups e word bases t)
  let len := treeLen s.hart e
  let _ ← lane s e srcs [] fun h _ => .ok h
  keeping s (checkMask s.hart e 32 len)
  keeping s (checkMasks s.hart 32 (activeBelow s.hart e len) marks)
  checkTopo s t (forestOf s.hart e t all).nodes
  let fo := forestOf s.hart e t all
  match treeTrap e fo m with
  | some x => .error (.trap x, { s with hart := counted s.hart e fo m })
  | none => lane s e srcs dsts fun h fed => .ok (f (counted h e fo m) fed fo)

/-- A tree instruction that gives each active node a value; `f h forest n` for a node that is not cyclic, `cyc` for one
that is. -/
def laneNodes (s : State) (e : VEntry) (word : Nat) (d : VReg) (a : Option (VReg × Bool)) (t : TReg) (marks : List MReg)
    (m : TreeMode) (cyc : Nat) (f : Hart → Forest → Nat → Nat × FFlags) : KeepM State :=
  let act := activeBelow s.hart e (treeLen s.hart e)
  laneTree s e word (d :: (a.map (·.1)).toList) t
    (match a with
      | some p => treeSrcs s.hart e p.1 p.2 act
      | none => []) (treeDsts s.hart e d) marks false m fun h fed fo =>
    let out := fo.nodes.map fun n => (n, if m != .degree && fo.cyclic n then (cyc, (0 : FFlags)) else f h fo n)
    putNodes (h.raise (flagsOf out)) fed d (treeRegs h e) (valuesOf out)

/-! ## Accumulation (06 R156, R157) -/

/-- COMB of a set of values. -/
def combine32 (ty : TreeTy) (c : TreeComb) (mode : RMode) (l : List Nat) : Nat × FFlags :=
  match ty with
  | .f32 =>
    let vs := l.map (unpack fmtF32)
    (match c with
     | .max => roundWith fmtF32 mode (pickVal true vs)
     | .min => roundWith fmtF32 mode (pickVal false vs)
     | _ => roundWith fmtF32 mode (exactSum mode vs))
  | _ =>
    let signed := ty == .i32
    let vs : List Int := l.map fun x => if signed then toSigned 32 x else x
    let pick (f : Int → Int → Int) : Int :=
      match vs with
      | [] => 0
      | v :: r => r.foldl f v
    let sum : Int := vs.foldl (· + ·) 0
    (match c with
     | .add => wrapTo 32 sum
     | .addSat => wrapTo 32 (saturate sum (intLo signed 32) (intHi signed 32))
     | .max => wrapTo 32 (pick max)
     | .min => wrapTo 32 (pick min)
     | .or => l.foldl (· ||| ·) 0, 0)

/-- What a cyclic node gets (06 R148). -/
def cyclicVal (ty : TreeTy) : Nat := if ty = .f32 then 0x7FC00000 else 0

/-- tdn: over a node and its ancestors. -/
def laneTdn (s : State) (e : VEntry) (word : Nat) (d a : VReg) (t : TReg) (c : TreeComb) (ty : TreeTy) (ea : Bool) : KeepM State :=
  laneNodes s e word d (some (a, ea)) t [] .full (cyclicVal ty) fun h fo n =>
    combine32 ty c (RMode.ofFrm e.frm) (((fo.path n).getD []).map (nodeVal h a))
/-- tup: over a node's subtree. -/
def laneTup (s : State) (e : VEntry) (word : Nat) (d a : VReg) (t : TReg) (c : TreeComb) (ty : TreeTy) (ea : Bool) : KeepM State :=
  laneNodes s e word d (some (a, ea)) t [] .full (cyclicVal ty) fun h fo n =>
    combine32 ty c (RMode.ofFrm e.frm)
      ((fo.nodes.filter fun m => ((fo.path m).getD []).contains n).map (nodeVal h a))

/-! ## Broadcast and structure (06 R158 to R162) -/

/-- The nearest node of a chain that a mask register marks. -/
def nearestMarked (h : Hart) (k : MReg) (l : List Nat) : Option Nat := l.find? fun n => h.mreg[k].getLsbD n

/-- tbc. -/
def laneTbc (s : State) (e : VEntry) (word : Nat) (d a : VReg) (t : TReg) (k : MReg) (ty : TreeTy) (ea : Bool) : KeepM State :=
  laneNodes s e word d (some (a, ea)) t [k] .full (cyclicVal ty) fun h fo n =>
    (nodeVal h a ((nearestMarked h k ((fo.path n).getD [])).getD n), 0)
/-- tdep. -/
def laneTdep (s : State) (e : VEntry) (word : Nat) (d : VReg) (t : TReg) : KeepM State :=
  laneNodes s e word d none t [] .full 0 fun _ fo n => (fo.depth n, 0)
/-- tanc.k: the k-th ancestor, or the root. -/
def laneTancK (s : State) (e : VEntry) (word : Nat) (d : VReg) (t : TReg) (k : Nat) : KeepM State :=
  laneNodes s e word d none t [] .full 0 fun _ fo n =>
    let l := (fo.path n).getD []
    (l.getD k (l.getLastD n), 0)
/-- tanc.m: the nearest marked node of the chain. -/
def laneTancM (s : State) (e : VEntry) (word : Nat) (d : VReg) (t : TReg) (k : MReg) : KeepM State :=
  laneNodes s e word d none t [k] .full 0 fun h fo n => ((nearestMarked h k ((fo.path n).getD [])).getD 0xFFFF, 0)
/-- troot. -/
def laneTroot (s : State) (e : VEntry) (word : Nat) (d : VReg) (t : TReg) : KeepM State :=
  laneNodes s e word d none t [] .full 0 fun _ fo n => (((fo.path n).getD []).getLastD n, 0)
/-- tdeg: it does not classify. -/
def laneTdeg (s : State) (e : VEntry) (word : Nat) (d : VReg) (t : TReg) : KeepM State :=
  laneNodes s e word d none t [] .degree 0 fun _ fo n => ((fo.nodes.filter fun m => fo.parent m == some n).length, 0)
/-- tchk: the class of each node. -/
def laneTchk (s : State) (e : VEntry) (word : Nat) (d : VReg) (t : TReg) : KeepM State :=
  laneNodes s e word d none t [] .countOnly 4 fun _ fo n =>
    (if fo.entry n = 0xFFFF then 1 else if fo.entry n = 0xFFFE then 2 else if fo.dangling n then 3
      else if fo.deep (tctlDlim e.tctl) n then 5 else 0, 0)
/-- tisanc. -/
def laneTisanc (s : State) (e : VEntry) (word : Nat) (d : MReg) (t : TReg) (b : VReg) (eb : Bool) : KeepM State :=
  let act := activeBelow s.hart e (treeLen s.hart e)
  laneTree s e word [b] t (treeSrcs s.hart e b eb act) [] [] false .full fun h _ fo =>
    h.setM d 32 (fo.nodes.map fun n =>
      (n, ((fo.path n).getD []).drop 1 |>.contains (nodeVal h b n)))

/-! ## tmov, tld, tst (06 R154, R155) -/

/-- tmov to a value group. -/
def laneTmov (s : State) (e : VEntry) (word : Nat) (d : VReg) (t : TReg) : KeepM State := do
  keeping s (checkGroups e word [d] t)
  let act := activeBelow s.hart e (treeLen s.hart e)
  keeping s (checkMask s.hart e 32 (treeLen s.hart e))
  checkTopo s t act
  lane s e [] (treeDsts s.hart e d) fun h _ =>
    .ok (putNodes h false d (treeRegs h e) (act.map fun n => (n, parentEntry h t n)))

/-- tmov to a topology group. DESIGN CHOICE (log 79): its mask is judged before its value sources. -/
def laneTmovTopo (s : State) (e : VEntry) (word : Nat) (a : VReg) (t : TReg) (ea : Bool) : KeepM State := do
  keeping s (checkGroups e word [a] t)
  let act := activeBelow s.hart e (treeLen s.hart e)
  keeping s (checkMask s.hart e 32 (treeLen s.hart e))
  lane s e (treeSrcs s.hart e a ea act) [] fun h _ =>
    .ok (unpoisonTopo (putParents h t (act.map fun n => (n, nodeVal h a n % 65536))) t act)

/-- The addresses of parent entries (06 R154). -/
def topoAddrs (e : VEntry) (disp : BitVec 12) (act : List Nat) : List (Nat × Word) :=
  let base := e.xa + disp.signExtend 64 * 2
  act.map fun n => (n, base + BitVec.ofNat 64 (2 * n))

/-- tld: its data is written at once, so a later tree instruction finds it. DESIGN CHOICE (log 26): the carriage of an
entry, for TCNT, is the one that holds it in its topology register. -/
def laneTld (s : State) (e : VEntry) (word : Nat) (t : TReg) (disp : BitVec 12) : KeepM State := do
  keeping s (checkGroups e word [] t)
  let act := activeBelow s.hart e (treeLen s.hart e)
  keeping s (checkMask s.hart e 32 (treeLen s.hart e))
  let (vals, _, s1) ← readElems s e 16 (topoAddrs e disp act) fun _ => false
  .ok { s1 with hart := unpoisonTopo (putParents s1.hart t vals) t act }

/-- The entries of a tst: one for each topology register of the group with an active node, in order (06 R154). -/
def topoEntries (h : Hart) (t : TReg) (l : List (Nat × Word × Place)) : List SEntry :=
  (List.range 4).filterMap fun k =>
    let mine := l.filter fun x => x.1 / (2 * h.vlmax 32) == k
    if mine = [] then none
    else some (.store (mine.flatMap fun x => placeBytes x.2.2.pa (leBytes 2 (parentEntry h t x.1))))

/-- tst: one that a fault stops leaves none of its entries. DESIGN CHOICE (log 80): an entry that finds the buffer full
quenches first, whichever entry of the tst it is; (log 77): live leaves are snapshotted before that quench; (log 79): a
poisoned entry that is active traps before the addresses are judged. -/
def laneTst (s : State) (e : VEntry) (word : Nat) (t : TReg) (disp : BitVec 12) : KeepM State := do
  keeping s (checkGroups e word [] t)
  let act := activeBelow s.hart e (treeLen s.hart e)
  keeping s (checkMask s.hart e 32 (treeLen s.hart e))
  checkTopo s t act
  let (ps, s1) ← storeElems s e 16 .write (topoAddrs e disp act)
  let s2 ← fromTile (snapshots s1 (ps.map fun x => (x.2.2.pa, 2)))
  keeping s2 (bufferEach (topoEntries s.hart t ps) s2)

/-! ## Contraction (06 R163) -/

/-- The new parent entry of a kept node. -/
def newParent (fo : Forest) (kept : List Nat) (n : Nat) : Nat :=
  match fo.path n with
  | none => 0xFFFF
  | some l =>
    match (l.drop 1).find? fun m => kept.contains m with
    | some m => (kept.filter fun x => x < m).length
    | none => if fo.entry (l.getLastD n) = 0xFFFE then 0xFFFE else 0xFFFF

/-- tctr. -/
def laneTctr (s : State) (e : VEntry) (word : Nat) (d a : VReg) (t : TReg) (ea : Bool) : KeepM State :=
  let kept := activeBelow s.hart e (treeLen s.hart e)
  laneTree s e word [d, a] t (treeSrcs s.hart e a ea kept) (treeDsts s.hart e d) [] true .full fun h fed fo =>
    let k := kept.length
    let vals := (List.range k).zip (kept.map (nodeVal h a))
    let pars := (List.range k).zip (kept.map (newParent fo kept))
    let h1 := putNodes h fed d (treeRegs h e) vals
    let h2 := unpoisonTopo (putParents h1 t pars) t (List.range k)
    let g := if k = 0 then 1 else (k + h.vlmax 32 - 1) / h.vlmax 32
    { h2 with tgrp := BitVec.ofNat 4 g, vl := k - (g - 1) * h.vlmax 32 }

end Sys2Proof.Machine
end

