-- ==== Sys2Proof/Machine/VectorQueue.lean ====
section
/-!
DEFINITION. The lanes execute the vector queue in order (02 R35 to R38); anvil instructions pass through the cell's
anvil queue (11 R222); soft errors in the registers (16 R335).
-/
namespace Sys2Proof.Machine

/-- The instruction word of an entry, for a trap that reports it (16 R321). -/
def wordOf (e : VEntry) : Nat := (encode e.instr).getD 0

/-- What the lanes do with an entry: the instruction's own effect (05 R114 to R141, 06 R143 to R163, 10 R197 to R203,
11 R226 to R233). Other instructions never enter the queue. -/
def laneEffect (s : State) (e : VEntry) : KeepM State :=
  match e.instr with
  | .vadd d a b t ea eb => laneInt s e d a b t ea eb opAdd
  | .vsub d a b t ea eb => laneInt s e d a b t ea eb opSub
  | .vmul d a b t ea eb => laneInt s e d a b t ea eb opMul
  | .vmin d a b t ea eb => laneInt s e d a b t ea eb opMin
  | .vmax d a b t ea eb => laneInt s e d a b t ea eb opMax
  | .vand d a b t ea eb => laneInt s e d a b t ea eb opAnd
  | .vor d a b t ea eb => laneInt s e d a b t ea eb opOr
  | .vxor d a b t ea eb => laneInt s e d a b t ea eb opXor
  | .vmulh d a b t ea eb => laneInt s e d a b t ea eb opMulh
  | .vdiv d a b t ea eb => laneInt s e d a b t ea eb opDiv
  | .vrem d a b t ea eb => laneInt s e d a b t ea eb opRem
  | .vsll d a b t ea eb => laneInt s e d a b t ea eb opSll
  | .vsrl d a b t ea eb => laneInt s e d a b t ea eb opSrl
  | .vsra d a b t ea eb => laneInt s e d a b t ea eb opSra
  | .vaddSat d a b t ea eb => laneInt s e d a b t ea eb (opSat fun x y => x + y)
  | .vsubSat d a b t ea eb => laneInt s e d a b t ea eb (opSat fun x y => x - y)
  | .vabs d a t ea => laneInt1 s e d a t ea opAbs
  | .vneg d a t ea => laneInt1 s e d a t ea opNeg
  | .vmadd d a b t ea eb => laneMadd s e d a b t ea eb
  | .vmv d a t ea => laneInt1 s e d a t ea fun _ x => x
  | .vfadd d a b t ea eb => laneFlt s e d a b t ea eb fpAdd
  | .vfsub d a b t ea eb => laneFlt s e d a b t ea eb fpSub
  | .vfmul d a b t ea eb => laneFlt s e d a b t ea eb fpMul
  | .vfdiv d a b t ea eb => laneFlt s e d a b t ea eb fpDiv
  | .vfmin d a b t ea eb => laneFlt s e d a b t ea eb fun f _ => fpMinMax f false
  | .vfmax d a b t ea eb => laneFlt s e d a b t ea eb fun f _ => fpMinMax f true
  | .vfma d a b t ea eb => laneFused s e d a b t ea eb false false
  | .vfnma d a b t ea eb => laneFused s e d a b t ea eb true false
  | .vfms d a b t ea eb => laneFused s e d a b t ea eb false true
  | .vfnms d a b t ea eb => laneFused s e d a b t ea eb true true
  | .vfcopys d a b t ea eb => laneFlt s e d a b t ea eb fun f _ => signInject f (fun _ y => y)
  | .vfcopyn d a b t ea eb => laneFlt s e d a b t ea eb fun f _ => signInject f (fun _ y => !y)
  | .vfxors d a b t ea eb => laneFlt s e d a b t ea eb fun f _ => signInject f (fun x y => x != y)
  | .vfabs d a t ea => laneSign s e d a t ea fun _ => false
  | .vfneg d a t ea => laneSign s e d a t ea fun x => !x
  | .vfmv d a t ea => laneSign s e d a t ea fun x => x
  | .vwfma d a b t ea eb => laneWidenFlt s e d a b t ea eb true false
  | .vwfms d a b t ea eb => laneWidenFlt s e d a b t ea eb true true
  | .vwmul d a b t ea eb => laneWidenFlt s e d a b t ea eb false false
  | .vwmadd d a b t ea eb => laneWidenInt s e d a b t ea eb true
  | .vwimul d a b t ea eb => laneWidenInt s e d a b t ea eb false
  | .vcmp d a b r t ea eb => laneCmp s e d [(a, ea), (b, eb)] r t fun l => (l.getD 0 0, l.getD 1 0)
  | .mand d a b => laneMask s e d [a, b] fun h i => h.mreg[a].getLsbD i && h.mreg[b].getLsbD i
  | .mor d a b => laneMask s e d [a, b] fun h i => h.mreg[a].getLsbD i || h.mreg[b].getLsbD i
  | .mxor d a b => laneMask s e d [a, b] fun h i => h.mreg[a].getLsbD i != h.mreg[b].getLsbD i
  | .mandn d a b => laneMask s e d [a, b] fun h i => h.mreg[a].getLsbD i && !h.mreg[b].getLsbD i
  | .mnot d a => laneMask s e d [a] fun h i => !h.mreg[a].getLsbD i
  | .mmov d (.m a) => laneMask s e d [a] fun h i => h.mreg[a].getLsbD i
  | .mmov d .msm => laneMask s e d [] fun h i => h.msm.getLsbD i
  | .mcpop d a => laneMaskOut s e d a fun l => BitVec.ofNat 64 l.length
  | .mfirst d a => laneMaskOut s e d a fun l => (l.head?.map (BitVec.ofNat 64)).getD (-1)
  | .vpush d a b t ea eb => lanePush s e d a b t.bits ea eb false fun _ x => (x, 0)
  | .vpushAdd d a b t ea eb => lanePush s e d a b t.bits ea eb true (addElem t (RMode.ofFrm e.frm))
  | .vpull d a b t ea eb => lanePull s e d a b t.bits ea eb
  | .vcmpr d a t ea => laneCompress s e d a t.bits ea
  | .vcmprTh d a _ t ea _ => laneThreshold s e d a t ea
  | .vexpand d a t ea => laneExpand s e d a t.bits ea
  | .vslideUp d a _ t ea _ => laneSlideUp s e d a t.bits ea
  | .vslideDn d a _ t ea _ => laneSlideDn s e d a t.bits ea
  | .vbcast d a _ t ea _ => laneBcast s e d a t.bits ea
  | .vext d a _ t ea _ => laneExt s e d a t ea
  | .vrsum d a _ t ea _ => laneSum s e d a t ea
  | .vrmax d a _ t ea _ => lanePick s e d a t ea true
  | .vrmin d a _ t ea _ => lanePick s e d a t ea false
  | .vidx d start stp => laneVidx s e d start stp
  | .vld d _ disp z _ => laneLoad s e d disp (8 * sizeBytes z) false
  | .vlds d _ disp z _ => laneLoad s e d disp (8 * sizeBytes z) true
  | .vst d _ disp z ea => laneStore s e d disp (8 * sizeBytes z) false ea
  | .vsts d _ disp z ea => laneStore s e d disp (8 * sizeBytes z) true ea
  | .vldx d _ b z _ eb => laneLoadX s e d b (8 * sizeBytes z) eb
  | .vstx d _ b z _ eb => laneStoreX s e d b (8 * sizeBytes z) eb
  | .vsaddInt d _ b z _ eb => laneScatterAdd s e d b (8 * sizeBytes z) (.int (8 * sizeBytes z)) eb
  | .vsaddFloat d _ b t _ eb => laneScatterAdd s e d b t.bits (.flt t e.frm) eb
  | .vconf d a m z ea => laneConflict s e d a m (8 * sizeBytes z) ea
  | .vgth d _ b sc z _ eb => laneGather s e d b sc.code (8 * sizeBytes z) eb
  | .vexp2 d a ea => laneTrans s e d a ea fpExp2
  | .vlog2 d a ea => laneTrans s e d a ea fpLog2
  | .vrcp d a ea => laneTrans s e d a ea fpRcp
  | .vrsqrt d a ea => laneTrans s e d a ea fpRsqrt
  | .vfsqrt d a ea => laneTrans s e d a ea (fpSqrt fmtF32 .rne)
  | .vcvtToFloat d a src m t ea => laneCvt s e d a src (.flt t) m ea
  | .vcvtToInt d a src m t ea => laneCvt s e d a src (.int t) m ea
  | .vpackBfp d a w ea => lanePack s e d a w ea
  | .vunpackBfp d a w ea => laneUnpack s e d a w ea
  | .vaddVs d a _ t ea _ => laneIntS s e d a t ea opAdd
  | .vsubVs d a _ t ea _ => laneIntS s e d a t ea opSub
  | .vmulVs d a _ t ea _ => laneIntS s e d a t ea opMul
  | .vminVs d a _ t ea _ => laneIntS s e d a t ea opMin
  | .vmaxVs d a _ t ea _ => laneIntS s e d a t ea opMax
  | .vandVs d a _ t ea _ => laneIntS s e d a t ea opAnd
  | .vorVs d a _ t ea _ => laneIntS s e d a t ea opOr
  | .vxorVs d a _ t ea _ => laneIntS s e d a t ea opXor
  | .vfaddVs d a _ t ea _ => laneFltS s e d a t ea fpAdd
  | .vfsubVs d a _ t ea _ => laneFltS s e d a t ea fpSub
  | .vfmulVs d a _ t ea _ => laneFltS s e d a t ea fpMul
  | .vfdivVs d a _ t ea _ => laneFltS s e d a t ea fpDiv
  | .vfminVs d a _ t ea _ => laneFltS s e d a t ea fun f _ => fpMinMax f false
  | .vfmaxVs d a _ t ea _ => laneFltS s e d a t ea fun f _ => fpMinMax f true
  | .vfmaVs d a _ t ea _ => laneFusedS s e d a t ea false
  | .vfnmaVs d a _ t ea _ => laneFusedS s e d a t ea true
  | .vcmpVs d a _ r t ea _ => laneCmp s e d [(a, ea)] r t fun l => (l.getD 0 0, e.xa.toNat % 2 ^ t.bits)
  | .tmov d t _ => laneTmov s e (wordOf e) d t
  | .tmovToTopo a t _ ea => laneTmovTopo s e (wordOf e) a t ea
  | .tup d a t c ty ea => laneTup s e (wordOf e) d a t c ty ea
  | .tdn d a t c ty ea => laneTdn s e (wordOf e) d a t c ty ea
  | .tbc d a t m ty ea => laneTbc s e (wordOf e) d a t m ty ea
  | .tdep d t => laneTdep s e (wordOf e) d t
  | .tancK d t k => laneTancK s e (wordOf e) d t k
  | .tancM d t m _ => laneTancM s e (wordOf e) d t m
  | .tisanc d t b eb => laneTisanc s e (wordOf e) d t b eb
  | .troot d t => laneTroot s e (wordOf e) d t
  | .tdeg d t => laneTdeg s e (wordOf e) d t
  | .tchk d t _ => laneTchk s e (wordOf e) d t
  | .tctr d a t _ ea => laneTctr s e (wordOf e) d a t ea
  | .tld t _ disp _ => laneTld s e (wordOf e) t disp
  | .tst t _ disp _ => laneTst s e (wordOf e) t disp
  | .anvOp _ _ => laneAnvOp s e
  | .anvZero _ => laneAnvZero s e
  | .vrsumBfp d a _ => laneSumBfp s e d a
  | .accLd v _ => laneAccLd s e v
  | .accSt v _ => laneAccSt s e v
  | .accMem _ _ load => laneAccMem s e load
  | .wbLoad _ _ => laneWbLoad s e
  | _ => .ok s

/-- Anvil instructions, which take their turn in the cell's anvil queue (11 R222). -/
def usesAnvil : Instr → Bool
  | .anvOp .. | .anvZero .. | .vrsumBfp .. | .accLd .. | .accSt .. | .accMem .. | .wbLoad .. => true
  | _ => false

/-- The lanes take the oldest entry; one that uses memory follows what earlier quenches released (10 R207). -/
def execVectorEntryExecute (s : State) : Host.Outcome State Fault Refusal :=
  match s.hart.vq with
  | [] => .next s
  | e :: _ =>
    if vectorMemory e.instr && !s.hart.outputsSettled then .next s
    else if usesAnvil e.instr then
      let x := s.cellOf s.hart.die s.hart.cell
      if e.inAnvil ∨ Config.anvilQueueSize ≤ x.anvil.length then .next s
      else .next { s.setCell s.hart.die s.hart.cell { x with anvil := x.anvil ++ [.hart s.hart.hid] } with
        hart := s.hart.setHead { e with inAnvil := true } }
    else laneOutcome s (laneEffect s e)

/-- The oldest outstanding result whose turn it is arrives (02 R35, R40). -/
def execProducerWriteback (s : State) : Host.Outcome State Fault Refusal := .next { s with hart := s.hart.writeback }

end Sys2Proof.Machine
end

