-- ==== Sys2Proof/Machine/Engines.lean ====
section
/-!
DEFINITION. Engines: cards at work, deliveries, completion, watchdogs (11 R237 to R241, 20 R396 to R400), collectives
(20 R391 to R395), and the cell's anvil queue (11 R222, R238).
-/
namespace Sys2Proof.Machine

/-! ## Cards of a die -/

def State.card (s : State) (d : DieNo) (no : Nat) : Option Card := (s.dieOf d).cards.find? fun c => c.no == no
def State.setCard (s : State) (d : DieNo) (c : Card) : State :=
  let x := s.dieOf d
  s.setDie d { x with cards := x.cards.map fun y => if y.no = c.no then c else y }

/-- A die's engines of a kind (00 R1). -/
def engines : Nat → Nat
  | 0 => 8
  | 1 => 4
  | _ => 2

/-- A card holds an engine. -/
def Card.onEngine (c : Card) : Bool := c.state == .running || c.state == .followOn || (c.state == .worked && c.cause == 0)

/-- An engine of a kind is free. -/
def engineFree (x : Die) (kind : Nat) : Bool :=
  ((x.cards.filter fun c => c.kind == kind && c.onEngine).length) < engines kind

/-- Steps 4 and 5 of 11 R238: the status store, then the card is done; cards that depend on it learn how it ended, and a
job that waited for its engines ends. -/
def State.finishCard (s : State) (d : DieNo) (c : Card) (r : Refused) : State :=
  let c1 := { c with state := .done, cause := r.1, sub := r.2, data := [] }
  let s1 := match c1.cmpl with
    | some pa => s.storeLe pa 8 c1.status.toNat
    | none => s
  let x := s1.dieOf d
  let bad := r.1 ≠ 0
  let learn (y : Card) : Card :=
    if y.no = c.no then c1
    else
      { y with
        deps := y.deps.filter fun p => p.1 != c.no
        broken := y.broken || (bad && y.deps.contains (c.no, true)) }
  let s2 := s1.setDie d { x with cards := (x.cards.map learn).filter fun y => !(y.retired && y.state == .done) }
  match s2.findJob c.job with
  | some j => if j.draining ∧ !s2.engineWork c.job then s2.endJob j else s2
  | none => s2

/-- The job ends in failure during its work (11 R238). -/
def State.failCard (s : State) (d : DieNo) (c : Card) (r : Refused) : State := s.setCard d (c.failed r)

/-- An arrival of a delivery, if the card arrives and this delivery's has not been counted (11 R238, 20 R400). -/
def State.cardArrival (s : State) (d : DieNo) (c : Card) (k bytes : Nat) : State × Card :=
  if c.arrives ∧ !c.arrived.contains k then
    (s.setArrival d c.barrier ((s.arrival d c.barrier).arrive bytes), { c with arrived := c.arrived ++ [k] })
  else (s, c)

/-! ## Work: copies, gathers (11 R237, 20 R396) -/

/-- The numbers of n bytes in a list of bytes. -/
def numbers (n : Nat) : Nat → List Byte → List Nat
  | 0, _ => []
  | k + 1, l => leNat (l.take n) :: numbers n k (l.drop n)

/-- The n bytes at a virtual address lie in the card's read region (11 R236). -/
def Card.namesRead (c : Card) (va : Word) (n : Nat) : Bool :=
  !(c.w 9).getLsbD 63 && (c.w 8).toNat ≤ va.toNat && va.toNat + n ≤ (c.w 8).toNat + bitsOf (c.w 9) 39 0

/-- A row of a gather. One outside the read region is an access outside the footprint, also where it has no translation
(20 R396). -/
def gatherRow (s : State) (g : Agent) (c : Card) (va : Word) (n : Nat) : Except Refused (List Byte) :=
  match engineAccess s g .read c.rd va n with
  | .error r => .error (if c.namesRead va n then r else (0x52, 0))
  | .ok _ => engineRead s g c.rd va n

/-- A gather's rows (20 R396). -/
def gatherRows (s : State) (g : Agent) (c : Card) (idx : List Nat) : Except Refused (List Byte) := do
  let esz := bitsOf (c.w 4) 63 52
  let rows ← idx.mapM fun i => gatherRow s g c (c.w 5 + BitVec.ofNat 64 (i * esz)) esz
  .ok rows.flatten

/-- What an engine reads when it starts: every source byte of a copy or gather. -/
def sourceBytes (s : State) (d : DieNo) (c : Card) : Except Refused (List Byte) :=
  let g := c.agent d
  if c.kind = 0 then (if c.deposits then .ok [] else engineRead s g c.allowed (c.w 2) c.bytes)
  else if c.kind = 1 then do
    let idx ← engineRead s g c.allowed (c.w 2) (4 * c.bytes)
    gatherRows s g c (numbers 4 c.bytes idx)
  else .ok []

/-- The destinations of a card: the cells of a multicast by number, otherwise one. -/
def Card.destinations (c : Card) : List Nat := if mcastCells c.words = [] then [0] else mcastCells c.words

/-- A deposit, performed as tm.put performs it (20 R395). -/
def depositFrom (s : State) (d : DieNo) (c : Card) (slot : Fin 16) (w va : Word) : Except Refused State := do
  match (s.mergeSlot d slot).checkPut c.job w with
  | some (0x50, sub) => .error (0x50, sub)
  | some (cause, _) => .error (0x50, cause)
  | none =>
    if va.toNat % 4 ≠ 0 then .error (0x50, 0x05)
    else do
      let l ← engineRead s (c.agent d) c.allowed va (4 * putCnt w)
      .ok (s.deposit d slot w (numbers 4 (putCnt w) l))

/-- TSLOT (20 R390, R395). -/
def Card.slot (c : Card) : Fin 16 := Fin.ofNat 16 (bitsOf (c.w 4) 53 50)

/-- One delivery of a copy. -/
def deliverCopy (s : State) (d : DieNo) (c : Card) (k : Nat) : Except Refused State :=
  if c.deposits then depositFrom s d c c.slot (c.w 3) (c.w 2)
  else if mcastCells c.words = [] then engineWrite s (c.agent d) c.wr (c.w 3) c.data
  else
    let pa := storeBase d (Fin.ofNat 48 k) + (c.w 3).toNat
    if inside c.wr pa c.data.length then .ok (s.storeBytes (placeBytes pa c.data)) else .error (0x52, 0)

/-! ## Codecs (20 R397 to R399) -/

/-- The picture descriptor's words. -/
def pictureW (b : List Byte) (k : Nat) : Word := (wordsOf 8 b).getD k 0
def pictureWidth (b : List Byte) : Nat := bitsOf (pictureW b 0) 15 0
def pictureHeight (b : List Byte) : Nat := bitsOf (pictureW b 0) 31 16

/-- A picture beyond R397 or against R398. -/
def pictureBad (b : List Byte) : Bool :=
  let w := pictureWidth b
  let h := pictureHeight b
  let bd := bitsOf (pictureW b 0) 35 32
  w % 2 != 0 || h % 2 != 0 || w < 16 || h < 16 || 8192 < w || 4352 < h || (bd != 8 && bd != 10) ||
  1 < bitsOf (pictureW b 0) 37 36 || bitsOf (pictureW b 0) 63 38 != 0 || (pictureW b 5).toNat < 0x4000000 ||
  bitsOf (pictureW b 6) 63 2 != 0 || pictureW b 7 != 0

def decoding (c : Card) : Bool := !(c.w 4).getLsbD 61

/-- FIRST of the picture descriptor (20 R398). -/
def firstUnit (b : List Byte) : Bool := (pictureW b 6).getLsbD 0

/-- The context a unit is processed with. With FIRST = 1 it is reset first: its area must be there, its old bytes decide
nothing (20 R398). -/
def codecContext (s : State) (g : Agent) (c : Card) (b : List Byte) : Except Refused (List Byte) :=
  if firstUnit b then (engineAccess s g .read c.allowed (pictureW b 4) (pictureW b 5).toNat).map fun _ => []
  else engineRead s g c.allowed (pictureW b 4) (pictureW b 5).toNat

/-- What a codec engine reads besides the descriptor: bitstream or planes, then the context. -/
def codecInput (s : State) (d : DieNo) (c : Card) (b : List Byte) : Except Refused (List Byte) := do
  let g := c.agent d
  let w (k : Nat) : Word := pictureW b k
  let ys := bitsOf (w 3) 31 0
  let cs := bitsOf (w 3) 63 32
  let h := pictureHeight b
  let size := if bitsOf (w 0) 35 32 = 8 then pictureWidth b else 2 * pictureWidth b
  let ctx ← codecContext s g c b
  if decoding c then do
    let bs ← engineRead s g c.allowed (c.w 2) c.bytes
    .ok (bs ++ ctx)
  else do
    let luma ← (List.range h).mapM fun (i : Nat) => engineRead s g c.allowed (w 1 + BitVec.ofNat 64 (i * ys)) size
    let rows := if bitsOf (w 0) 37 36 = 1 then 0 else 2 * (h / 2)
    let chroma ← (List.range rows).mapM fun (i : Nat) => engineRead s g c.allowed (w 2 + BitVec.ofNat 64 (i * cs)) (size / 2)
    .ok (luma.flatten ++ chroma.flatten ++ ctx)

/-- The context becomes invalid: zero to its first 8 bytes (20 R399). -/
def spoilContext (s : State) (g : Agent) (c : Card) (b : List Byte) : State :=
  match engineWrite s g c.wr (pictureW b 4) (List.replicate 8 0) with
  | .ok s1 => s1
  | .error _ => s

/-- What a codec engine reads at its start: the picture descriptor, then its input. DEDUCED (log 42): a descriptor
against R398 fails like a stream beyond R397. -/
def codecStart (s : State) (d : DieNo) (c : Card) : State × Except Refused (List Byte) :=
  let g := c.agent d
  match engineRead s g c.allowed (c.w 3) 64 with
  | .error r => (s, .error r)
  | .ok b =>
    if pictureBad b then (spoilContext s g c b, .error (0x50, 0x31))
    else if firstUnit b then (s, (codecInput s d c b).map (b ++ ·))
    else
      match engineRead s g c.allowed (pictureW b 4) 8 with
      | .error r => (s, .error r)
      | .ok head =>
        if leNat head = 0 then (s, .error (0x50, 0x31)) else (s, (codecInput s d c b).map (b ++ ·))

/-- What decides a codec's unit: the card's words, the descriptor, the input and the context. -/
def Card.unit (c : Card) : List Byte := c.words.flatMap (fun w => leBytes 8 w.toNat) ++ c.data

/-- The bytes of a plane's row: n8, or n16 with zeros above bit 9 (20 R398). -/
def sampleRow (c : Card) (plane row n : Nat) : List Byte :=
  (List.range n).flatMap fun col =>
    let x := (Config.codecSample c.unit plane row col).toNat
    if bitsOf (pictureW c.data 0) 35 32 = 8 then leBytes 1 x else leBytes 2 x

/-- Two luma rows and the chroma rows that go with them, by address (20 R398). -/
def pictureRows (c : Card) (row : Nat) : List (Word × List Byte) :=
  let w (k : Nat) : Word := pictureW c.data k
  let luma (r : Nat) := (w 1 + BitVec.ofNat 64 (r * bitsOf (w 3) 31 0), sampleRow c 0 r (pictureWidth c.data))
  let chroma (plane r : Nat) :=
    (w 2 + BitVec.ofNat 64 (((plane - 1) * (pictureHeight c.data / 2) + r) * bitsOf (w 3) 63 32),
      sampleRow c plane r (pictureWidth c.data / 2))
  [luma row, luma (row + 1)] ++ if bitsOf (w 0) 37 36 = 1 then [] else [chroma 1 (row / 2), chroma 2 (row / 2)]

/-- Engine writes in order, up to the first that fails. -/
def writeInOrder (g : Agent) (c : Card) : State → List (Word × List Byte) → State × Option Refused
  | s, [] => (s, none)
  | s, p :: r =>
    match engineWrite s g c.wr p.1 p.2 with
    | .ok t => writeInOrder g c t r
    | .error e => (s, some e)

/-- The context after a unit (20 R398). -/
def contextWrite (c : Card) : Word × List Byte :=
  (pictureW c.data 4, (Config.codecContext c.unit).take (pictureW c.data 5).toNat)

/-- A unit fails as corrupt: its context becomes invalid, what it has written stays (20 R399). -/
def corruptUnit (s : State) (g : Agent) (c : Card) : State × Except Refused (Card × Bool) :=
  (spoilContext s g c c.data, .error (0x50, 0x31))

/-- How writes of a codec leave the card: with it, and whether the unit is done. -/
def codecWrote (c : Card) (done : Bool) : State × Option Refused → State × Except Refused (Card × Bool)
  | (s, none) => (s, .ok (c, done))
  | (s, some r) => (s, .error r)

/-- The next work of a decoding engine: two rows of the shown picture, or after the last the context (20 R398). -/
def decodeStep (s : State) (g : Agent) (c : Card) : State × Except Refused (Card × Bool) :=
  let last := !Config.codecShows c.unit || pictureHeight c.data ≤ c.rows
  if (Config.codecCorrupt c.unit).any fun k => k ≤ c.rows || last then corruptUnit s g c
  else if last then codecWrote c true (writeInOrder g c s [contextWrite c])
  else codecWrote { c with rows := c.rows + 2 } false (writeInOrder g c s (pictureRows c c.rows))

/-- The work of an encoding engine: the bitstream, the context and descriptor word 7 (20 R398). -/
def encodeStep (s : State) (g : Agent) (c : Card) : State × Except Refused (Card × Bool) :=
  let l := Config.codecStream c.unit
  if c.bytes < l.length then corruptUnit s g c
  else codecWrote c true (writeInOrder g c s [(c.w 2, l), contextWrite c, (c.w 3 + 56, leBytes 8 l.length)])

/-! ## Starting and delivering -/

/-- Descriptor word 1 with a new ATT or REV (20 R393, R394). -/
def writeAttempt (s : State) (d : DieNo) (c : Card) (att rev : BitVec 32) : Except Refused State :=
  engineWrite s (c.agent d) c.wr (c.w 5 + 8) (leBytes 4 rev.toNat ++ leBytes 4 att.toNat)

/-! ## Members of a collective (20 R391 to R394) -/

def Card.op (c : Card) : Nat := bitsOf (c.w 4) 63 60
def Card.tree (c : Card) : Bool := (c.w 4).getLsbD 55
/-- Bytes of an element of TY. -/
def Card.elemBytes (c : Card) : Nat := if bitsOf (c.w 4) 59 56 = 1 then 2 else 4

/-- The first byte of chunk k of the reduced vector: element e belongs to chunk floor(e × NMEM / E) (20 R392). -/
def Group.chunkStart (q : Group) (c : Card) (k : Nat) : Nat :=
  (k * (c.bytes / c.elemBytes) + q.nmem - 1) / q.nmem * c.elemBytes
def Group.chunkBytes (q : Group) (c : Card) (k : Nat) : Nat := q.chunkStart c (k + 1) - q.chunkStart c k

/-- The member a byte of the data belongs to: its chunk's, its piece's, or rank 0 for a broadcast. -/
def Group.owner (q : Group) (c : Card) (off : Nat) : Nat :=
  match c.op with
  | 0 | 1 => off / c.elemBytes * q.nmem / (c.bytes / c.elemBytes)
  | 2 => off / c.bytes
  | _ => 0

def Group.after (q : Group) : Nat := (q.rank + 1) % q.nmem
def Group.before (q : Group) : Nat := (q.rank + q.nmem - 1) % q.nmem
def Group.parent (q : Group) : Nat := (q.rank - 1) / 2
/-- A member's children in the tree (20 R392). -/
def Group.left (q : Group) : Bool := 2 * q.rank + 1 < q.nmem
def Group.right (q : Group) : Bool := 2 * q.rank + 2 < q.nmem
def Group.children (q : Group) : List Nat :=
  (if q.left then [2 * q.rank + 1] else []) ++ if q.right then [2 * q.rank + 2] else []

/-- The members next to this one, in the ring or the tree. -/
def Group.neighbours (q : Group) (c : Card) : List Nat :=
  if c.tree then (if q.rank = 0 then [] else [q.parent]) ++ q.children
  else if q.after = q.before then [q.after] else [q.after, q.before]

/-- The child of a member on the way down to a rank; `fuel` levels at most. -/
def childToward (rank : Nat) : Nat → Nat → Option Nat
  | 0, _ => none
  | fuel + 1, o => if o ≤ rank then none else if (o - 1) / 2 = rank then some o else childToward rank fuel ((o - 1) / 2)

/-- The neighbour in the tree that leads to a rank. -/
def Group.toward (q : Group) (o : Nat) : Nat := (childToward q.rank 21 o).getD q.parent

/-- Where a piece of a member goes on to from this one. DEDUCED (log 43): round the ring until it would come back to its
member, a broadcast's also back to rank 0; along the tree to every member that needs it. -/
def Group.onward (q : Group) (c : Card) (o : Nat) : List Nat :=
  if c.tree then
    match c.op with
    | 1 => if o = q.rank then [] else [q.toward o]
    | 2 => (q.neighbours c).filter fun r => o = q.rank || r != q.toward o
    | _ => q.children
  else if c.op = 3 then (if q.rank = 0 then [] else [q.after])
  else if q.after = o then [] else [q.after]

/-- The bytes that rank 0 receives in the hops of a whole data phase. DEDUCED (log 43): a tree's broadcast also comes back to
rank 0, as a ring's does, so that rank 0 commits after every member has submitted its card (13 R271). -/
def Group.expected (q : Group) (c : Card) : Nat :=
  let n := c.bytes
  if c.tree then
    match c.op with
    | 0 | 1 => if q.right then 2 * n else n
    | 2 => (q.nmem - 1) * n
    | _ => if q.right then 2 * n else n
  else
    match c.op with
    | 0 => (n - q.chunkBytes c (q.nmem - 1)) + (n - q.chunkBytes c 0)
    | 1 => n - q.chunkBytes c (q.nmem - 1)
    | 2 => (q.nmem - 1) * n
    | _ => n

def MemberMsg.tag : MemberMsg → HopTag
  | .hop h => h.tag
  | .commit t | .abort t => t

/-- The virtual channel of a member's message (22 R432). -/
def MemberMsg.vc : MemberMsg → BitVec 3
  | .hop _ => 1
  | _ => 2

def MemberMsg.bytes : MemberMsg → List Byte
  | .hop h => h.bytes
  | _ => []

/-- A message to a member, by rank: on a die of this module in the order sent, to another node as a flit. -/
def State.sendMember (d : DieNo) (q : Group) (s : State) (p : Nat × MemberMsg) : State :=
  let w : Word := q.members.getD p.1 0
  let node : BitVec 19 := w.truncate 19
  if node = s.record.nodeid then
    { s with transit := s.transit ++ [{ die := Fin.ofNat 4 (bitsOf w 21 20), rank := p.1, msg := p.2 }] }
  else
    { s with fresh := s.fresh + 1 }.sendFlit d (memberFlit node (w.extractLsb' 20 2) p.2.vc p.2.tag (hopData s p.2.bytes))

/-- Runs of at most 48 bytes, the data of one flit each (22 R432); `fuel` of them at most. -/
def cutHops : Nat → Nat → List Byte → List (Nat × List Byte)
  | 0, _, _ => []
  | fuel + 1, off, l => if l = [] then [] else (off, l.take 48) :: cutHops fuel (off + 48) (l.drop 48)

/-- The hops that carry bytes to a member. -/
def Group.hopsTo (q : Group) (kind : HopKind) (off : Nat) (l : List Byte) (whom : Nat) : List (Nat × MemberMsg) :=
  (cutHops (l.length / 48 + 1) off l).map fun p => (whom, .hop { tag := q.tag, kind := kind, offset := p.1, bytes := p.2 })

/-- What a member's sums are to its parent. -/
def Group.upKind (q : Group) : HopKind := if q.rank % 2 = 1 then .leftSum else .rightSum

/-- Write into staging. -/
def writeStaging (s : State) (d : DieNo) (c : Card) (q : Group) (off : Nat) (l : List Byte) : Except Refused State :=
  engineWrite s (c.agent d) c.wr (q.staging + BitVec.ofNat 64 off) l

/-- A member's own elements at an offset. -/
def ownElements (s : State) (d : DieNo) (c : Card) (off n : Nat) : Except Refused (List Byte) :=
  engineRead s (c.agent d) c.allowed (c.w 2 + BitVec.ofNat 64 off) n

/-- A member's start: its own piece is in its staging, and its first hops are sent: in the ring the sum of the chunk that
starts with it, in the tree a leaf's sums, or its piece (20 R392, R393). -/
def startCollective (s : State) (d : DieNo) (c : Card) (q : Group) : Except Refused (State × List (Nat × MemberMsg)) :=
  if c.op < 2 then
    if c.tree then
      if q.left then .ok (s, [])
      else do
        let l ← (List.range q.nmem).mapM fun (k : Nat) => do
          let own ← ownElements s d c (q.chunkStart c k) (q.chunkBytes c k)
          .ok (q.hopsTo q.upKind (q.chunkStart c k) own q.parent)
        .ok (s, l.flatten)
    else do
      let own ← ownElements s d c (q.chunkStart c q.before) (q.chunkBytes c q.before)
      .ok (s, q.hopsTo .ringSum (q.chunkStart c q.before) own q.after)
  else if c.op = 2 ∨ q.rank = 0 then do
    let off := if c.op = 2 then q.rank * c.bytes else 0
    let own ← ownElements s d c 0 c.bytes
    let s1 ← writeStaging s d c q off own
    let whom := if c.op = 2 then q.onward c q.rank else if c.tree then q.children else [q.after]
    .ok (s1, whom.flatMap (q.hopsTo .piece off own))
  else .ok (s, [])

/-- A member's messages are sent. -/
def State.sendAll (s : State) (d : DieNo) (q : Group) (l : List (Nat × MemberMsg)) : State := l.foldl (State.sendMember d q) s

/-- A collective member fails in the data phase: it sends aborts to its neighbours and counts the attempt (20 R394). -/
def State.failMember (s : State) (d : DieNo) (c : Card) (r : Refused) : State :=
  match c.group with
  | none => s.failCard d c r
  | some q =>
    let s1 := s.sendAll d q ((q.neighbours c).map fun n => (n, .abort q.tag))
    match writeAttempt s1 d c (q.tag.att + 1) q.tag.rev with
    | .ok s2 => s2.failCard d c r
    | .error _ => s1.failCard d c r

/-! ## Starting and delivering -/

/-- The card at its start on an engine: its watchdog counts from now (20 R400). -/
def Card.begun (s : State) (d : DieNo) (c : Card) (data : List Byte) : Card :=
  { c with state := .running, data := data, delivered := [], rows := 0, published := 0, start := (s.dieOf d).cyc }

/-- A card starts on an engine: what it does and reads first. -/
def startCard (s : State) (d : DieNo) (c : Card) : State :=
  match c.group with
  | some q =>
    match startCollective s d c q with
    | .ok (s1, l) => (s1.setCard d (Card.begun s d c [])).sendAll d q l
    | .error r => s.failMember d c r
  | none =>
    match if c.kind = 3 then codecStart s d c else (s, sourceBytes s d c) with
    | (s1, .ok l) => s1.setCard d (Card.begun s d c l)
    | (s1, .error r) => s1.failCard d c r

/-- A queued card whose predecessors are done starts on a free engine of its kind, or fails for one it reads after
(11 R241). -/
def execEngineJobStart (die : DieNo) (card : Nat) (s : State) : Host.Outcome State Fault Refusal :=
  happen s do
    let c ← s.card die card
    if c.state ≠ .queued ∨ c.cancelled ∨ c.deps ≠ [] then none
    else if c.broken then some (s.failCard die c (0x50, 0x04))
    else if engineFree (s.dieOf die) c.kind then some (startCard s die c)
    else none

/-- A delivery of n bytes has been made: the arrival, and after the last one the card's work is done (11 R238). -/
def State.delivered (s : State) (d : DieNo) (c : Card) (k n : Nat) : State :=
  let c1 := { c with delivered := c.delivered ++ [k] }
  let r := s.cardArrival d c1 k n
  r.1.setCard d (if c.destinations.all fun k => c1.delivered.contains k then { r.2 with state := .worked } else r.2)

/-- The next delivery of a running copy or gather card, or the next work of a codec (11 R238, 20 R398). -/
def deliverCard (s : State) (d : DieNo) (c : Card) : Option State :=
  match c.kind with
  | 0 => do
    let k ← c.destinations.find? fun k => !c.delivered.contains k
    match deliverCopy s d c k with
    | .ok s1 => some (s1.delivered d c k c.bytes)
    | .error r => some (s.failCard d c r)
  | 1 =>
    match engineWrite s (c.agent d) c.wr (c.w 3) c.data with
    | .ok s1 => some (s1.delivered d c 0 c.data.length)
    | .error r => some (s.failCard d c r)
  | 2 => none
  | _ =>
    match if decoding c then decodeStep s (c.agent d) c else encodeStep s (c.agent d) c with
    | (s1, .ok (c1, true)) => some (s1.delivered d c1 0 c.bytes)
    | (s1, .ok (c1, false)) => some (s1.setCard d c1)
    | (s1, .error r) => some (s1.failCard d c r)

def execDeliveryArrival (die : DieNo) (card : Nat) (s : State) : Host.Outcome State Fault Refusal :=
  happen s do
    let c ← s.card die card
    if c.state = .running ∧ !c.cancelled then deliverCard s die c else none

/-! ## Completion (11 R238) -/

/-- HW of a publish: with the rows a decoding card has written. DEDUCED (log 42): at completion these are the whole
picture shown, W × H past PUB.HW (20 R398). -/
def Card.pubHw (c : Card) : BitVec 48 := (c.w 6).truncate 48 + BitVec.ofNat 48 (pictureWidth c.data * c.rows)

/-- A publish of a card (11 R238); in a replay one that does not rise under its SEQ is skipped (20 R400). -/
def cardPublish (s : State) (d : DieNo) (c : Card) (hw : BitVec 48) : Option State :=
  let seq := (c.w 6).extractLsb' 48 16
  let b := s.drawbar d c.drawbar
  if c.replayed ∧ b.seq = seq ∧ hw ≤ b.hw then some s else publish s d c.drawbar hw seq

/-- The card's follow-on leaves the anvil queue. -/
def State.dropFollowOn (s : State) (d : DieNo) (c : Card) : State :=
  if c.state = .followOn then
    let x := s.cellOf d c.followCell
    s.setCell d c.followCell { x with anvil := x.anvil.filter fun a => a != .followOn c.no }
  else s

/-- A card whose work is done publishes, then its follow-on enters the anvil queue or it is done. -/
def completeCard (s : State) (d : DieNo) (c : Card) : State :=
  match if c.publishes then cardPublish s d c c.pubHw else some s with
  | none => s.finishCard d c (0x50, 0x41)
  | some s1 =>
    if c.follows then
      let x := s1.cellOf d c.followCell
      (s1.setCell d c.followCell { x with anvil := x.anvil ++ [.followOn c.no] }).setCard d { c with state := .followOn }
    else s1.finishCard d c (0, 0)

/-- A card that is cancelled or has failed ends; one whose work is done completes, its follow-on once the anvil queue
has room. -/
def execEngineJobComplete (die : DieNo) (card : Nat) (s : State) : Host.Outcome State Fault Refusal :=
  happen s do
    let c ← s.card die card
    if c.state = .done then none
    else if c.state = .worked ∧ c.cause ≠ 0 then some (s.finishCard die c (c.cause, c.sub))
    else if c.cancelled then some ((s.dropFollowOn die c).finishCard die c (0x70, 0))
    else if c.state ≠ .worked ∨ (c.follows ∧ Config.anvilQueueSize ≤ (s.cellOf die c.followCell).anvil.length) then none
    else some (completeCard s die c)

/-- A decoding engine has rows to publish: some finished since its last publish (20 R398). -/
def Card.rowsToPublish (c : Card) : Bool :=
  c.kind == 3 && decoding c && c.publishes && !c.cancelled && c.cause == 0 && decide (c.published < c.rows) &&
    (c.state == .running || c.state == .worked)

/-- A decoding engine publishes the rows it has written, all of them (20 R398). -/
def execCodecRowPublish (die : DieNo) (card rows : Nat) (s : State) : Host.Outcome State Fault Refusal :=
  happen s do
    let c ← s.card die card
    if !c.rowsToPublish ∨ rows ≠ c.rows then none
    else
      match cardPublish s die c c.pubHw with
      | some s1 => some (s1.setCard die { c with published := rows })
      | none => some (s.failCard die c (0x50, 0x41))

/-- WDOG (11 R234). -/
def Card.wdog (c : Card) : Word := BitVec.ofNat 64 (bitsOf (c.w 1) 47 0)

/-- The card's watchdog counts. A collective member's stops at the commit (20 R393). -/
def Card.watched (c : Card) : Bool := c.onEngine && (c.kind != 2 || c.state == .running)

/-- A card's watchdog reaches WDOG (20 R400): its engine is reset; the card runs again once, if it may. -/
def execWatchdogExpiry (die : DieNo) (card : Nat) (s : State) : Host.Outcome State Fault Refusal :=
  happen s do
    let c ← s.card die card
    if !c.watched then none
    else
      let s1 := (s.waitUntil die c.start c.wdog).dropFollowOn die c
      if c.replayable ∧ !c.replayed then
        some (s1.setCard die { c with state := .queued, replayed := true, data := [], delivered := [] })
      else some (s1.failMember die c (0x51, 0))

/-! ## Collectives (20 R392 to R394) -/

/-- An addition of a collective's type: f32 and bf16 round to nearest, i32 and n32 wrap (20 R392). -/
def addTyped (ty x y : Nat) : Nat :=
  match ty with
  | 0 => (fpAdd fmtF32 .rne x y).1
  | 1 => (fpAdd fmtBF16 .rne x y).1
  | _ => (x + y) % 2 ^ 32

/-- Elementwise sums of two runs of bytes. -/
def addBytes (ty : Nat) (x y : List Byte) : List Byte :=
  let n := if ty = 1 then 2 else 4
  ((numbers n (x.length / n) x).zip (numbers n (y.length / n) y)).flatMap fun p => leBytes n (addTyped ty p.1 p.2)

/-- Bytes at an offset of the data, as far as they belong to this member's output: its offset there. -/
def keptBytes (c : Card) (q : Group) (off : Nat) (l : List Byte) : Nat × List Byte :=
  if c.op = 1 then
    let n := c.bytes / q.nmem
    let lo := q.rank * n
    (off - lo, (l.drop (lo - off)).take (lo + n - max off lo))
  else (off, l)

/-- Bytes received or summed are written to staging, so far as they are this member's. -/
def keepBytes (s : State) (d : DieNo) (c : Card) (q : Group) (off : Nat) (l : List Byte) : Except Refused State :=
  let r := keptBytes c q off l
  writeStaging s d c q r.1 r.2

/-- The sum held of a child for a run of elements. -/
def Group.sumOf (q : Group) (left : Bool) (off n : Nat) : Option (List Byte) :=
  (q.sums.find? fun p => p.1 == left && p.2.1 == off && p.2.2.length == n).map (·.2.2)

/-- What a hop does to a member: the state, what it holds, and what it sends. -/
abbrev HopDone := Except Refused (State × Group × List (Nat × MemberMsg))

/-- A final sum: it is kept, and goes on as a piece to the members whose output it belongs to (20 R391, R392). -/
def finalSum (s : State) (d : DieNo) (c : Card) (q : Group) (off : Nat) (l : List Byte) : HopDone := do
  let s1 ← keepBytes s d c q off l
  let o := q.owner c off
  let whom := if c.op = 0 then (if c.tree then q.children else [q.after]) else if c.tree then q.onward c o else []
  .ok (s1, q, whom.flatMap (q.hopsTo .piece off l))

/-- A partial sum of the ring arrives: it ends with its chunk's member, otherwise it goes on (20 R392). -/
def ringHop (s : State) (d : DieNo) (c : Card) (q : Group) (off : Nat) (l : List Byte) : HopDone := do
  let own ← ownElements s d c off l.length
  let sum := addBytes (bitsOf (c.w 4) 59 56) l own
  if q.owner c off = q.rank then finalSum s d c q off sum
  else do
    let s1 ← (if c.op = 0 then keepBytes s d c q off sum else .ok s)
    .ok (s1, q, q.hopsTo .ringSum off sum q.after)

/-- A run of a broadcast goes back up the tree (13 R271; log 43). -/
def Group.echo (q : Group) (off : Nat) (l : List Byte) : List (Nat × MemberMsg) :=
  if q.rank = 0 then [] else q.hopsTo q.upKind off l q.parent

/-- A child's sum arrives: with every child's, RNE(RNE(own + left) + right). The sum goes up, and the root's is final. A
broadcast's run goes up unchanged. -/
def treeHop (s : State) (d : DieNo) (c : Card) (q : Group) (left : Bool) (off : Nat) (l : List Byte) : HopDone :=
  let n := l.length
  let ty := bitsOf (c.w 4) 59 56
  let q1 := { q with sums := q.sums ++ [(left, off, l)] }
  let add (x : List Byte) : Option (List Byte) → List Byte
    | some y => addBytes ty x y
    | none => x
  if (q.left && (q1.sumOf true off n).isNone) || (q.right && (q1.sumOf false off n).isNone) then .ok (s, q1, [])
  else
    let q2 := { q1 with sums := q1.sums.filter fun p => !(p.2.1 == off && p.2.2.length == n) }
    if c.op = 3 then .ok (s, q2, q2.echo off l)
    else do
      let own ← ownElements s d c off n
      let sum := add (add own (q1.sumOf true off n)) (q1.sumOf false off n)
      if q2.rank = 0 then finalSum s d c q2 off sum
      else do
        let s1 ← (if c.op = 0 then keepBytes s d c q2 off sum else .ok s)
        .ok (s1, q2, q2.hopsTo q2.upKind off sum q2.parent)

/-- A hop whose tag is the card's. -/
def takeHop (s : State) (d : DieNo) (c : Card) (q : Group) (hop : Hop) : HopDone :=
  match hop.kind with
  | .ringSum => ringHop s d c q hop.offset hop.bytes
  | .leftSum => treeHop s d c q true hop.offset hop.bytes
  | .rightSum => treeHop s d c q false hop.offset hop.bytes
  | .piece => do
    let s1 ← keepBytes s d c q hop.offset hop.bytes
    let back := if c.tree ∧ c.op = 3 ∧ !q.left then q.echo hop.offset hop.bytes else []
    .ok (s1, q, (q.onward c (q.owner c hop.offset)).flatMap (q.hopsTo .piece hop.offset hop.bytes) ++ back)

/-- A hop that a member of this operation can be sent: data of one flit, a sum of its own way of combining, or a piece,
within the data. -/
def hopFits (c : Card) (q : Group) (hop : Hop) : Bool :=
  let n := hop.bytes.length
  let inside := n ≤ 48 && hop.offset + n ≤ if c.op = 2 then q.nmem * c.bytes else c.bytes
  let sum := (c.op < 2 || (c.op == 3 && c.tree)) && hop.offset % c.elemBytes == 0 && n % c.elemBytes == 0
  inside &&
    match hop.kind with
    | .ringSum => sum && !c.tree
    | .leftSum => sum && c.tree && q.left
    | .rightSum => sum && c.tree && q.right
    | .piece => true

/-- The member's card in its data phase. -/
def memberOf (s : State) (d : DieNo) (no : Nat) : Option (Card × Group) := do
  let c ← s.card d no
  let q ← c.group
  if c.state = .running ∧ !c.cancelled then some (c, q) else none

/-- A flit may hold a member's message: its channel, its tag, and a hop's bytes. -/
def flitHolds (m : MemberMsg) (flit : Block) : Bool :=
  flitVc flit == m.vc.toNat && flitHopTag flit == m.tag && (flitData flit).take m.bytes.length == m.bytes

/-- The oldest message on its way to a member from the members of this module. -/
def State.nextFor (s : State) (d : DieNo) (q : Group) : Option Transit :=
  s.transit.find? fun t => t.die == d && t.rank == q.rank && t.msg.tag.gtag == q.tag.gtag

/-- A member receives a message of its group: the oldest on its way, or one in a flit that has arrived at its die. -/
def State.takeMessage (s : State) (d : DieNo) (q : Group) (m : MemberMsg) : Option State :=
  match s.nextFor d q with
  | some t => if t.msg = m then some { s with transit := s.transit.erase t } else external
  | none => external
where
  external : Option State := if m.tag.gtag = q.tag.gtag then s.takeFlit d (flitHolds m) else none

/-- A member receives a hop: it adds or keeps the data and sends hops of its own, and its watchdog starts again; one of
another tag is dropped (20 R393, R394). -/
def execCollectiveHop (die : DieNo) (card : Nat) (hop : Hop) (s : State) : Host.Outcome State Fault Refusal :=
  happen s do
    let (c, q) ← memberOf s die card
    let s1 ← s.takeMessage die q (.hop hop)
    if hop.tag ≠ q.tag then some s1
    else if !hopFits c q hop then none
    else
      match takeHop s1 die c q hop with
      | .error r => some (s1.failMember die c r)
      | .ok (s2, q1, l) =>
        let q2 := { q1 with received := q1.received + hop.bytes.length }
        some ((s2.setCard die { c with group := some q2, start := (s2.dieOf die).cyc }).sendAll die q l)

/-- The work of a commit: STG to OUT, the deposit, REV + 1 (20 R393). DEDUCED (log 43): where the copy or the deposit
fails, the rest is still done as far as it can be, and the member's job fails. -/
def commitMember (s : State) (d : DieNo) (c : Card) (q : Group) : State × Option Refused :=
  let copied := do
    let l ← engineRead s (c.agent d) c.allowed q.staging (c.outputBytes q.nmem)
    engineWrite s (c.agent d) c.wr (c.w 3) l
  let r1 : State × Option Refused := match copied with
    | .ok t => (t, none)
    | .error e => (s, some e)
  let r2 : State × Option Refused := match r1.2.isNone && c.deposits, depositFrom r1.1 d c c.slot q.putw (c.w 3) with
    | true, .ok t => (t, none)
    | true, .error e => (r1.1, some e)
    | false, _ => r1
  match writeAttempt r2.1 d c q.tag.att (q.tag.rev + 1) with
  | .ok t => (t, r2.2)
  | .error e => (r2.1, some (r2.2.getD e))

/-- The members that this one sends the commit on to. -/
def Group.commitTo (q : Group) (c : Card) : List Nat :=
  if c.tree then q.children else if q.after = 0 then [] else [q.after]

/-- A member commits, forwards the commit and completes; its output is a delivery (11 R238, 20 R393). -/
def commitCard (s : State) (d : DieNo) (c : Card) (q : Group) : State :=
  let r := commitMember s d c q
  let s1 := r.1.sendAll d q ((q.commitTo c).map fun n => (n, .commit q.tag))
  match r.2 with
  | none => s1.delivered d c 0 (c.outputBytes q.nmem)
  | some e => s1.failCard d c e

/-- A member receives the commit; rank 0 makes it once it has received the last hop. -/
def execCollectiveCommit (die : DieNo) (card : Nat) (tag : HopTag) (s : State) : Host.Outcome State Fault Refusal :=
  happen s do
    let (c, q) ← memberOf s die card
    if q.rank = 0 then (if tag = q.tag ∧ q.received = q.expected c then some (commitCard s die c q) else none)
    else do
      let s1 ← s.takeMessage die q (.commit tag)
      if tag ≠ q.tag then some s1 else some (commitCard s1 die c q)

/-- A member receives an abort in its data phase; after the commit it ignores it (20 R394). -/
def execCollectiveAbort (die : DieNo) (card : Nat) (tag : HopTag) (s : State) : Host.Outcome State Fault Refusal :=
  happen s do
    let (c, q) ← memberOf s die card
    let s1 ← s.takeMessage die q (.abort tag)
    if tag ≠ q.tag then some s1 else some (s1.failMember die c (0x50, 0x30))

/-! ## The anvil queue (11 R222, R238) -/

/-- The oldest operation leaves the queue. -/
def State.popAnvil (s : State) (d : DieNo) (c : CellNo) : State :=
  let x := s.cellOf d c
  s.setCell d c { x with anvil := x.anvil.drop 1 }

/-- The follow-on's blocks: first each is compared with the footprints, then its page and its bytes are looked at. -/
def followBlocks (s : State) (c : Card) : Except Refused (List (Word × Block)) :=
  if c.follow.any fun p => !inside c.allowed p.1 64 then .error (0x52, 0)
  else if c.follow.any fun p => !p.2 then .error (0x50, 0x13)
  else
    match c.follow.findSome? fun p => readFault s p.1 64 with
    | some e => .error (0x50, e)
    | none => .ok (((c.followCmd.addrs (c.w 13) c.followCmd.rowStep).zip c.follow).map fun p => (p.1, readBlock s.mem p.2.1))

/-- A trap of the anvil as a job's failure. -/
def asRefused : Except Stop Cell → Except Refused Cell
  | .ok x => .ok x
  | .error (.trap t) => .error (0x50, t.cause)
  | .error _ => .error (0x50, 0)

/-- A card's follow-on in a cell (11 R238). -/
def followRun (s : State) (d : DieNo) (c : Card) : Except Refused Cell := do
  let cmd := c.followCmd
  let x := s.cellOf d c.followCell
  let _ ← asRefused ((checkCmd (c.w 12) (c.w 13) cmd.rowStep cmd).map fun _ => x)
  let l ← followBlocks s c
  asRefused (anvilRun x (actlRm c.followActl) cmd l)

/-- The oldest operation of a cell's anvil queue executes. A follow-on's failure is the job's. -/
def execAnvilQueueExecute (die : DieNo) (cell : CellNo) (s : State) : Host.Outcome State Fault Refusal :=
  match (s.cellOf die cell).anvil with
  | [] => .next s
  | .hart hid :: _ =>
    match s.focusOn hid with
    | none => .next (s.popAnvil die cell)
    | some s1 =>
      match s1.hart.vq with
      | [] => .next (s1.popAnvil die cell)
      | e :: _ =>
        match laneEffect s1 e with
        | .ok s2 => .next (s2.popAnvil die cell).dropHead
        | .error (.trap t, s2) => .next (s2.takeVectorTrap t)
        | .error (.stall, _) => .next s
        | .error (.cancel, s2) => .next s2.takeCancel
  | .followOn no :: _ =>
    let s1 := s.popAnvil die cell
    match s.card die no with
    | none => .next s1
    | some c =>
      if c.cancelled then .next (s1.finishCard die c (0x70, 0))
      else
        match followRun s1 die c with
        | .ok x => .next ((s1.setCell die cell x).finishCard die c (0, 0))
        | .error r => .next (s1.finishCard die c r)

end Sys2Proof.Machine
end

