-- ==== Sys2Proof/Machine/Tasks.lean ====
section
/-!
DEFINITION. The task instructions (15 R304, R305, R310 to R314) and halt (16 R325).
-/
namespace Sys2Proof.Machine

/-! ## Spawning (15 R291, R311, R312) -/

/-- The cell a target word names (15 R311): none for the spawner's own. -/
def spawnTarget (w : Word) : Except Stop (Option (DieNo × CellNo)) :=
  if w = 0 then .ok none
  else if bitsOf w 63 16 ≠ 0 ∨ bitsOf w 15 15 ≠ 1 ∨ bitsOf w 14 10 ≠ 0 ∨ bitsOf w 7 6 ≠ 0 then trapAt 0x02 w
  else if 47 < bitsOf w 5 0 then trapAt 0x12 w
  else .ok (some (Fin.ofNat 4 (bitsOf w 9 8), Fin.ofNat 48 (bitsOf w 5 0)))

/-- Read and check the record of a spawn (15 R291). -/
def spawnRecord (s : State) (va : Word) : KeepM (Block × State) := do
  let (x, s1) ← loadValue s va 64
  let b : Block := BitVec.ofNat 512 x
  match recCheck b s.hart.priv.cur with
  | some c => keeping s1 (trapAt c va)
  | none => .ok (b, s1)

/-- The priority a record is queued with (15 R291). -/
def queuedPrio (s : State) (b : Block) : BitVec 4 :=
  let ceil := s.ceilOf s.hart.job
  if ceil < (recFlags b).prio then ceil else (recFlags b).prio

/-- Queue a record in a cell, or wait for room in its queue, keeping the record as it was read (15 R291, R292). -/
def spawnInto (s : State) (b : Block) (d : DieNo) (c : CellNo) (part : Option (BitVec 5)) : Except Stop State :=
  waiting s (!s.queueFull d c (queuedPrio s b)) (.spawning b d c part) fun s =>
    let s1 := s.enqueue d c s.hart.job part b
    .ok { s1 with hart := s1.hart.advance }

/-- A spawn that is held goes on with the record it has read; another begins (15 R291). -/
def heldSpawn (s : State) (begin : KeepM State) : Host.Outcome State Fault Refusal :=
  finishKeeping s (match s.hart.mark with
    | .spawning b d c part => keeping s (spawnInto s b d c part)
    | _ => begin)

/-- spawn. DEDUCED (log 35): the target word is checked before the record. -/
def execSpawn (a b : SReg) (s : State) : Host.Outcome State Fault Refusal :=
  heldSpawn s do
    let va ← keeping s (s.hart.src a false)
    let w ← keeping s (s.hart.src b false)
    keeping s (afterVectors s.hart)
    let target ← keeping s (spawnTarget w)
    let (r, s1) ← spawnRecord s va
    keeping s1 (match target with
      | none => spawnInto s1 r s.hart.die s.hart.cell (some s.hart.part)
      | some (d, c) => spawnInto s1 r d c none)

/-- spawn.x. DEDUCED (log 35): with ANY the hart's own die chooses the hart's own cell. -/
def execSpawnX (a b : SReg) (s : State) : Host.Outcome State Fault Refusal :=
  heldSpawn s do
    let va ← keeping s (s.hart.src a false)
    let w ← keeping s (s.hart.src b false)
    keeping s (afterVectors s.hart)
    keeping s (if bitsOf w 63 32 ≠ 0 ∨ w.getLsbD 30 ∨ bitsOf w 23 22 ≠ 0 ∨ w.getLsbD 19 then trapAt 0x02 w else .ok ())
    let node : BitVec 19 := w.truncate 19
    let any := w.getLsbD 31
    let die : DieNo := Fin.ofNat 4 (bitsOf w 21 20)
    if node = s.record.nodeid then
      keeping s (if !any ∧ 47 < bitsOf w 29 24 then trapAt 0x12 w else .ok ())
      let (r, s1) ← spawnRecord s va
      keeping s1 (if any then spawnInto s1 r s.hart.die s.hart.cell none
        else spawnInto s1 r die (Fin.ofNat 48 (bitsOf w 29 24)) none)
    else
      let (r, s1) ← spawnRecord s va
      let packet : SpawnPacket :=
        { srcNode := s.record.nodeid, number := s.nextPacket, job := s.hart.job, any := any, die := die,
          cell := BitVec.ofNat 6 (bitsOf w 29 24), record := r }
      let f : InFlight :=
        { number := s.nextPacket, src := s.hart.die, start := (s.dieOf s.hart.die).cyc, job := s.hart.job, node := node,
          packet := packet }
      let s2 := (s1.charge s.hart.job).sendPacket f
      .ok { s2 with inFlight := s2.inFlight ++ [f], nextPacket := s.nextPacket + 1, hart := s2.hart.advance }

/-! ## Join blocks (15 R307, R313) -/

/-- join. DEDUCED (log 35): as an atomic of the task accounts it neither quenches nor snapshots. -/
def execJoin (a : SReg) (s : State) : Host.Outcome State Fault Refusal :=
  finish s do
    let va ← s.hart.src a false
    if bitsOf va 3 0 ≠ 0 then trapAt 0x05 va
    afterVectors s.hart
    let h := s.hart
    let p ← atAddr va (ownPlace s h.agent .both va 8)
    match readFault s p.pa 8 with
    | some c => trapAt c va
    | none =>
      let s1 := (tlbFill s h.agent va p.leaf).decAt h.agent h.die h.cell h.part h.job va p.pa .ok
      .ok { s1 with hart := s1.hart.advance }

/-- wait.j. -/
def execWaitJ (a : SReg) (s : State) : Host.Outcome State Fault Refusal :=
  finishKeeping s do
    let va ← keeping s (s.hart.src a false)
    keeping s (if bitsOf va 3 0 ≠ 0 then trapAt 0x05 va else .ok ())
    keeping s (afterVectors s.hart)
    let (x, s1) ← loadValue s va 8
    keeping s1 (waiting s1 (joinCount (BitVec.ofNat 64 x) == 0) .none fun s => .ok { s with hart := s.hart.advance })

/-! ## fork.l (15 R304) -/

/-- The child of a fork (15 R304), before s[d] is written. -/
def forkedChild (p : Hart) (hid order : Nat) (slot : SlotNo) (pc : Word) (lanes : BitVec 32) : Hart :=
  { Hart.vacant with
    hid := hid
    task := p.task
    status := .running
    die := p.die
    cell := p.cell
    slot := slot
    pc := pc
    sreg := p.sreg
    spoison := p.spoison
    cbit := p.cbit
    msel := p.msel
    vstr := p.vstr
    vew := p.vew
    frm := p.frm
    tgrp := p.tgrp
    tctl := p.tctl
    actl := p.actl
    hctl := p.hctl &&& 1
    part := p.part
    prio := p.prio
    ceil := p.ceil
    job := p.job
    stripmax := p.stripmax
    trap := { tvec := p.trap.tvec }
    priv := p.priv
    gatebase := p.gatebase
    asid := p.asid
    grant := lanes
    index := p.index
    parent := some p.hid
    order := order }

/-- A free context slot of a cell, the lowest. -/
def freeSlot (s : State) (d : DieNo) (c : CellNo) : Option SlotNo :=
  let slots := (cellHarts s d c).map (·.slot)
  (List.finRange 32).find? fun k => !slots.contains k

/-- The split of a grant: the carriages the parent keeps, and the child's, the highest-numbered half. -/
def splitGrant (g : BitVec 32) : BitVec 32 × BitVec 32 :=
  let l := carriages g
  let keep := l.length - l.length / 2
  (carriageSet (l.take keep), carriageSet (l.drop keep))

/-- fork.l. -/
def execForkL (a d : SReg) (s : State) : Host.Outcome State Fault Refusal :=
  finish s do
    let pc ← s.hart.src a false
    if bitsOf pc 1 0 ≠ 0 then trapAt 0x05 pc
    afterQueue s.hart
    s.hart.destReady d
    let (s1, changed) ← settleGrant s
    match freeSlot s1 s1.hart.die s1.hart.cell with
    | none => .ok { s1 with hart := ((s1.hart.setC 7 changed).setC 6 false).advance }
    | some slot =>
      if (carriages s1.hart.grant).length < 2 ∨ !s1.coreFree s1.hart.die s1.hart.cell then
        .ok { s1 with hart := ((s1.hart.setC 7 changed).setC 6 false).advance }
      else do
        let s2 ← quenchNow s1 true
        let (keep, give) := splitGrant s2.hart.grant
        let h := ((s2.hart.clearVectors.setC 6 true).setC 7 true)
        let child := (forkedChild h s2.nextHid s2.nextOrder slot pc give).setS d (BitVec.allOnes 64)
        let parent := { (h.setS d (BitVec.ofNat 64 slot.val)).advance with
          grant := keep
          vl := 0
          children := h.children ++ [{ hid := s2.nextHid }] }
        .ok { s2 with
          hart := parent
          harts := s2.harts ++ [child]
          nextHid := s2.nextHid + 1
          nextOrder := s2.nextOrder + 1 }

/-! ## The ends of harts (15 R305, R314) -/

/-- Wait, keeping what has been done; a pending cancel is taken there (15 R296, 16 R332). -/
def holdOn (s s1 : State) : Except Stop State :=
  if s.hart.cancel then .error .cancel
  else if s.hart.status = .waiting ∧ s1.hart = s.hart then .error .stall else .ok (s1.park .none)

/-- Store the position of a bound handle in its descriptor, as bw.free does (10 R213). -/
def freeHandle (s : State) (n : HReg) : KeepM State :=
  match s.hart.handles[n].bound, s.hart.handles[n].desc with
  | true, some d => do
    let s1 ← storeValue s (d.addr + 48) 8 s.hart.handles[n].pos
    .ok (s1.setHandle n { desc := some d, pos := s.hart.handles[n].pos })
  | _, _ => .ok s

def freeHandles (s : State) : KeepM State := (List.finRange 16).foldlM freeHandle s

/-- The hart ends with status OK: hearth and tickets go, and its carriages stay with its parent, if it has one. -/
def State.endOk (s : State) : State :=
  let h := s.hart
  ((s.retireCards h.die fun c => c.owner == h.hid).vacate).endMember h .ok (heldCarriages h)

/-- Rejoin the latest child, which has ended (15 R305): a pending GRANTNEXT is settled, an implicit quench performed by
`quench`, and the grants are one again. -/
def rejoin (quench : State → Except Stop State) (s : State) (left : BitVec 32) : Except Stop State := do
  afterQueue s.hart
  let (s1, _) ← settleWith quench s
  let s2 ← quench s1
  let h := (s2.hart.clearVectors.setC 6 true).setC 7 true
  .ok { s2 with hart := { h with
    grant := h.grant ||| left
    vl := 0
    children := h.children.dropLast } }

/-- A quench that no cancel stops, as those of an exit (16 R332, R333). -/
def quenchAnyway (implicit : Bool) (s : State) : Except Stop State := do
  quenchFault s
  .ok (s.commit implicit)

/-- An output stream still has something to do. -/
def Handle.busy (x : Handle) : Bool := x.bound && (x.released != [] || x.unpublished)

/-- bw.free of the handle would wait (10 R213): an output stream still has something to do, or an input stream's element
at POS has neither arrived nor faulted. -/
def Handle.unready (x : Handle) : Bool :=
  x.busy || (x.bound && x.desc.any fun d => !d.output && x.held == [] && x.fault.isNone && x.pos < d.total)

/-- The end of a hart by exit, or of a child by join.l (15 R305; 16 R333): its vector queue empties, its children end and
are rejoined, the latest first, it quenches, and its handles are freed, which waits as bw.free does. Its waits take a
pending cancel, and so do its quenches but for those of an exit, as `quench` says. -/
def endHart (quench : Bool → State → Except Stop State) (s : State) : KeepM State :=
  match s.hart.children.getLast? with
  | some c =>
    match c.ended with
    | none => keeping s (holdOn s s)
    | some left => if s.hart.vq ≠ [] then keeping s (holdOn s s) else keeping s (rejoin (quench true) s.wake left)
  | none =>
    if s.hart.vq ≠ [] then keeping s (holdOn s s)
    else do
      let s1 ← keeping s (quench false s)
      if s1.hart.handles.toList.any Handle.unready then keeping s1 (holdOn s s1)
      else do
        let s2 ← freeHandles s1
        .ok s2.endOk

/-- exit. -/
def execExit (s : State) : Host.Outcome State Fault Refusal := finishKeeping s (endHart quenchAnyway s)

/-- join.l of a parent: reunite with its latest child. -/
def reunite (s : State) (c : Child) : Except Stop State :=
  waiting s c.ended.isSome .none fun s => do
    let s1 ← rejoin (fun s => quenchNow s true) s (c.ended.getD 0)
    .ok { s1 with hart := s1.hart.advance }

/-- join.l. -/
def execJoinL (s : State) : Host.Outcome State Fault Refusal :=
  if s.hart.parent.isSome then finishKeeping s (endHart (fun implicit s => quenchNow s implicit) s)
  else
    match s.hart.children.getLast? with
    | none => onHart s fun h => .ok (h.setC 6 false).advance
    | some c => finish s (reunite s c)

/-! ## yield, prio, coach, halt (15 R314, 16 R325) -/

/-- Some entry of at least the hart's priority in its partition could be dispatched but for the core and the carriages that
the hart holds. The core counts as the entry's, also where another hart is runnable. -/
def yieldWanted (s : State) : Bool :=
  let h := s.hart
  let idle (g : Hart) : Hart :=
    if g.status = .runnable ∧ g.die = h.die ∧ g.cell = h.cell then { g with status := .waiting } else g
  let s1 := { s with
    hart := { h with status := .waiting, grant := 0, nextPend := false, children := [] }
    harts := s.harts.map idle }
  (List.range 16).any fun p =>
    h.prio.toNat ≤ p && (s.queueOf h.die h.cell (BitVec.ofNat 4 p)).any fun e =>
      e.part == h.part.toNat && (placeEntry s1 h.die h.cell false e).isSome

/-- yield. -/
def execYield (s : State) : Host.Outcome State Fault Refusal :=
  let s1 := { s with hart := (s.hart.setC 6 false).advance }
  .next (if yieldWanted s then s1.saveTask s.hart.task true [s.hart.hid] else s1)

/-- prio. -/
def execPrio (a : SReg) (s : State) : Host.Outcome State Fault Refusal :=
  onHart s fun h => do
    let v ← h.src a false
    reservedZero v 63 4
    let l : BitVec 4 := v.truncate 4
    .ok { h with prio := if h.ceil < l then h.ceil else l }.advance

/-- coach. -/
def execCoach (d : SReg) (s : State) : Host.Outcome State Fault Refusal :=
  onHart s fun h => do
    h.destReady d
    let (size, live) := match s.findTask h.task with
      | some t => (t.size, t.live)
      | none => (1, 1)
    .ok (h.result d (fieldsWord [(h.index.toNat, 16), (live, 8), (size, 0)]))

/-- halt (16 R325). -/
def execHalt (s : State) : Host.Outcome State Fault Refusal :=
  if s.hart.vq = [] then .next s.haltNow else finish s (.error .stall)

end Sys2Proof.Machine
end

