-- ==== Sys2Proof/Machine/Fabric.lean ====
section
/-!
DEFINITION. What the Ewetric ports receive (22 R432 to R434) and spawn.x between modules (15 R309, R312). A packet acts
through an event of its own, once a flit of it has arrived (log 43).
-/
namespace Sys2Proof.Machine

/-! ## Receiving -/

/-- The kept flits after an acknowledgement: those up to it are gone. -/
def acknowledgedBy (ack : BitVec 12) (l : List KeptFlit) : List KeptFlit :=
  if l.any (fun k => k.fseq == ack) then (l.dropWhile fun k => k.fseq != ack).drop 1 else l

/-- What every good trailer brings: an acknowledgement and credits. -/
def Port.takeTrailer (p : Port) (t : Word) : Port :=
  let v := bitsOf t 7 5
  { p with
    kept := acknowledgedBy (BitVec.ofNat 12 (bitsOf t 19 8)) p.kept
    credits := p.credits.setIfInBounds v (p.credits.toList.getD v 0 + bitsOf t 4 2) }

/-- A retry request: every kept flit is sent again. -/
def Port.resend (p : Port) : Port :=
  { p with
    kept := p.kept.map fun k => { k with tries := k.tries + 1 }
    wire := p.wire ++ p.kept.map fun k => (k.flit, trailer k.flit k.fseq p.lastGood 0 0 0) }

/-- A flit is discarded: at the first discard a retry request goes out. -/
def Port.discard (p : Port) : Port := if p.discarding then p else { p with discarding := true }.idle 0 0 2

/-- A port receives a flit with its trailer (22 R434). DESIGN CHOICE (log 43): an accepted flit's buffer is free at
once, and an idle trailer returns its credit. -/
def execFlitReceive (die : DieNo) (port : Fin 8) (flit : Block) (trailer : Word) (s : State) :
    Host.Outcome State Fault Refusal :=
  let p := s.port die port
  if !p.up then .next s
  else if !trailerGood flit trailer then .next (s.setPort die port p.discard)
  else
    let q := p.takeTrailer trailer
    let kind := bitsOf trailer 1 0
    if kind = 2 then
      let r := q.resend
      .next (s.setPort die port (r.drain r.waiting.length))
    else
      let r := q.drain q.waiting.length
      if kind = 1 then .next (s.setPort die port r)
      else if bitsOf trailer 31 20 ≠ r.rxSeq.toNat then .next (s.setPort die port r.discard)
      else
        let a := { r with rxSeq := r.rxSeq + 1, discarding := false }.idle (flitVc flit) 1 1
        .next ((s.setPort die port a).sendFlit die flit)

/-- A flit retried 16 times fails the port, which leaves the routes; what is in flight on it is lost. -/
def execPortFail (die : DieNo) (port : Fin 8) (s : State) : Host.Outcome State Fault Refusal :=
  let p := s.port die port
  if p.up ∧ p.kept.any (fun k => Config.maxRetries ≤ k.tries) then
    let x := s.dieOf die
    let y := { x with routes := x.routes.filter fun r => r.2 != port }
    .next ((s.setDie die y).setPort die port { failed := true })
  else .next s

/-- A port comes up with its peer at a generation (22 R432); the fabric is off in minimal mode (R437). -/
def execEwetricLinkUp (die : DieNo) (port : Fin 8) (generation : Fin 4) (s : State) : Host.Outcome State Fault Refusal :=
  if (s.port die port).up ∨ generation = 0 ∨ s.mode = .minimal then .next s
  else
    .next (s.setPort die port
      { up := true, generation := BitVec.ofNat 2 generation.val, credits := Vector.replicate 4 Config.linkCredits })

/-! ## spawn.x between modules (15 R309) -/

/-- The packet's task record as the module takes it: none for one to refuse, without a job of its JOBID or with a record
that fails R291. DEDUCED (log 47): the record's LEVEL has been judged by the sender, a CELL above 47 is refused. -/
def packetJob (s : State) (p : SpawnPacket) : Option Job :=
  if 47 < p.cell.toNat ∨ (recCheck p.record 3).isSome then none else s.findJob p.job

/-- A packet of another module arrives, in a flit of its number: resent, it is only acknowledged again. DEDUCED
(log 47): with ANY the packet's CELL says which cell the module chose. -/
def execSpawnXReceive (die : DieNo) (packet : SpawnPacket) (s : State) : Host.Outcome State Fault Refusal :=
  happen s do
    let s1 ← s.takeFlit die fun f => flitVc f == 0 && flitTag f == BitVec.ofNat 40 packet.number
    if s.accepted.contains (packet.srcNode, packet.number) then some s1
    else
      match packetJob s packet with
      | none => some s1
      | some j =>
        let d := if packet.any then die else packet.die
        let c : CellNo := Fin.ofNat 48 packet.cell.toNat
        let prio := (recFlags packet.record).prio
        if s.queueFull d c (if j.ceil < prio then j.ceil else prio) then none
        else
          let s2 := s1.enqueue d c packet.job none packet.record
          some { s2 with accepted := s2.accepted ++ [(packet.srcNode, packet.number)] }

def State.packet (s : State) (number : Nat) : Option InFlight := s.inFlight.find? fun f => f.number == number

/-- The packet leaves the list of those in flight: a refusal is reported, then the job is discharged. -/
def State.landPacket (s : State) (f : InFlight) (refusal : Option (BitVec 8)) : State :=
  let s1 := { s with inFlight := s.inFlight.filter fun g => g.number != f.number }
  let s2 :=
    match refusal with
    | none => s1
    | some c =>
      let link := s1.linkOf f.job
      s1.send link (.refusal f.job 0 c 0 (if 2 ≤ (s1.dieOf link).link.version then some f.node else none))
  s2.discharge f.job 1

/-- The receiver's answer arrives. -/
def execSpawnXAck (number : Nat) (node : BitVec 19) (refusal : Option (BitVec 8)) (s : State) :
    Host.Outcome State Fault Refusal :=
  happen s do
    let f ← s.packet number
    if f.node = node then some (s.landPacket f refusal) else none

/-- No answer has come within 1.3 × 10^9 local cycles of the sender's die (22 R434). -/
def execSpawnXAckTimeout (number : Nat) (s : State) : Host.Outcome State Fault Refusal :=
  happen s do
    let f ← s.packet number
    some ((s.waitUntil f.src f.start (BitVec.ofNat 64 Config.ackCycles)).landPacket f (some 0x51))

/-- A packet without an answer is sent again (22 R434). -/
def State.resendSpawn (s : State) (number : Nat) : State :=
  match s.packet number with
  | none => s
  | some f => s.sendPacket f

end Sys2Proof.Machine
end

