-- ==== Sys2Proof/Machine/Hearth.lean ====
section
/-!
DEFINITION. The tile instructions (18 R357 to R373; 17 R347, R348).
-/
namespace Sys2Proof.Machine

/-! ## Operands (18 R351, R358, R365) -/

/-- The instruction word of a tile instruction. -/
def tileWord (a b : SReg) (func8 imm8 : Nat) : Word := BitVec.ofNat 64 (encE 0x29 a.val b.val func8 imm8)

/-- The node a value names, with its slot (18 R351). -/
def namedNode (h : Hart) (v : Word) : Except Stop (Node × Nat) :=
  if 63 < v.toNat then trapAt 0x12 v
  else
    match h.hearth.slots.toList.getD v.toNat none with
    | none => trapAt 0x12 v
    | some n => if n.state = .dropped then trapAt 0x12 v else .ok (n, v.toNat)

/-- What an append records beside the slot (18 R352). -/
structure NodeSpec where
  op : NodeOp
  ty : BitVec 8
  rows : Nat
  cols : Nat
  in0 : Word
  in1 : Word := 0
  param : Word := 0
  i0 : Option Nat := none
  i1 : Option Nat := none
  deriving DecidableEq, Repr

/-- The word that names an input (18 R352). -/
def inputWord (k : Nat) : Word := BitVec.ofNat 64 (64 + k)

/-- Rows and columns of a shape word or map word (17 R347). -/
def wordRows (w : Word) : Nat := bitsOf w 7 0 + 1
def wordCols (w : Word) : Nat := bitsOf w 15 8 + 1

/-- tl.ld's leaf. -/
def leafSpec (base w : Word) : Except Stop NodeSpec := do
  reservedZero w 63 48
  let ty := bitsOf w 23 16
  if !tileType ty then trapAt 0x13 w
  let unit := tileUnit (BitVec.ofNat 8 ty)
  if base.toNat % unit ≠ 0 ∨ bitsOf w 47 24 % unit ≠ 0 then trapAt 0x05 base
  .ok { op := .leaf, ty := BitVec.ofNat 8 ty, rows := wordRows w, cols := wordCols w, in0 := base, in1 := w }

/-- tl.mm's product. -/
def mmSpec (h : Hart) (x y word : Word) : Except Stop NodeSpec := do
  let (a, ka) ← namedNode h x
  let (b, kb) ← namedNode h y
  if a.ty ≠ b.ty ∨ (tileFmt a.ty).isSome then trapAt 0x13 word
  if a.cols ≠ b.rows then trapAt 0x12 word
  .ok { op := .mm, ty := 0x80, rows := a.rows, cols := b.cols, in0 := inputWord ka, in1 := inputWord kb,
        i0 := some a.nid, i1 := some b.nid }

/-- tl.ew's result. -/
def ewSpec (h : Hart) (x y : Word) (op : EwOp) (word : Word) : Except Stop NodeSpec := do
  let (a, ka) ← namedNode h x
  let (b, kb) ← namedNode h y
  if a.rows ≠ b.rows ∨ a.cols ≠ b.cols then trapAt 0x12 word
  .ok { op := .ew op, ty := 0x80, rows := a.rows, cols := a.cols, in0 := inputWord ka, in1 := inputWord kb,
        i0 := some a.nid, i1 := some b.nid }

/-- The type of a map of a node (18 R358). -/
def mapType (n : Node) : BitVec 8 := if (tileFmt n.ty).isSome then n.ty else 0x80

/-- An affine map's image of one corner lies in a shape (18 R362). -/
def cornerIn (w : Word) (n : Node) (p : Nat × Nat) : Bool :=
  let q := affine w p.1 p.2
  0 ≤ q.1 && q.1 < n.rows && 0 ≤ q.2 && q.2 < n.cols

/-- tl.map's result (18 R362). -/
def mapSpec (h : Hart) (x w : Word) : Except Stop NodeSpec := do
  let (a, ka) ← namedNode h x
  let rows := wordRows w
  let cols := wordCols w
  if w.getLsbD 63 then
    if bitsOf w 62 38 ≠ 0 ∨ bitsOf w 31 16 ≠ 0 then trapAt 0x02 w
    let (b, kb) ← namedNode h (BitVec.ofNat 64 (bitsOf w 37 32))
    if a.cols < cols ∨ b.rows < rows then trapAt 0x32 w
    .ok { op := .map true, ty := mapType a, rows := rows, cols := cols, in0 := inputWord ka, in1 := inputWord kb,
          param := w, i0 := some a.nid, i1 := some b.nid }
  else
    reservedZero w 62 50
    if !([(0, 0), (0, cols - 1), (rows - 1, 0), (rows - 1, cols - 1)].all (cornerIn w a)) then trapAt 0x32 w
    .ok { op := .map false, ty := mapType a, rows := rows, cols := cols, in0 := inputWord ka, param := w,
          i0 := some a.nid }

/-- tl.red's result. -/
def redSpec (h : Hart) (x : Word) (op : RedOp) (col : Bool) : Except Stop NodeSpec := do
  let (a, ka) ← namedNode h x
  .ok { op := .red op col, ty := 0x80, rows := if col then 1 else a.rows, cols := if col then a.cols else 1,
        in0 := inputWord ka, i0 := some a.nid }

/-- tl.cvt's result. -/
def cvtSpec (h : Hart) (x w : Word) : Except Stop NodeSpec := do
  let (a, ka) ← namedNode h x
  reservedZero w 63 8
  if !tileType w.toNat then trapAt 0x13 w
  .ok { op := .cvt, ty := w.truncate 8, rows := a.rows, cols := a.cols, in0 := inputWord ka, param := w,
        i0 := some a.nid }

/-! ## Appending (18 R357, R361) -/

/-- The lowest free slot. -/
def Hearth.freeSlot (t : Hearth) : Option Nat := (List.range 64).find? fun k => (t.slots.toList.getD k none).isNone

/-- The victim of an auto-force: of the nodes without a suspended consumer the earliest appended (18 R361). -/
def Hearth.victim (t : Hearth) : Option (Node × Nat) :=
  let l := t.inSlots
  (l.filter fun p => !l.any fun c => c.1.waits && c.1.reads p.1.nid).foldl (fun best p =>
    match best with
    | none => some p
    | some b => if p.1.nid < b.1.nid then some p else some b) none

/-- Force a victim over its whole extent and free its slot; its allocation is kept for its consumers (18 R361). -/
def autoForce (s : State) : TileM Forced :=
  match s.hart.hearth.victim with
  | none => .error ({ cause := 0x30 }, s)
  | some (n, k) => do
    let x ← force s [(n.nid, n.full)] []
    .ok { x with done := x.done.withHearth fun t =>
      let m := ((t.find n.nid).map (·.1)).getD n
      { t with
        slots := t.slots |> vmap fun o => o.bind fun x => if x.nid = n.nid then none else some x
        ghosts := t.ghosts ++ [(m, k)]
        autof := t.autof + 1 } }

/-- A free slot, made by an auto-force if HCTL.AUTO allows one. -/
def roomFor (s : State) : TileM Forced :=
  if s.hart.hearth.freeSlot.isSome then .ok { done := s, kept := s, snaps := 0 }
  else if !s.hart.hctl.getLsbD 0 then .error ({ cause := 0x30 }, s)
  else autoForce s

/-- The node an append makes. -/
def newNode (h : Hart) (x : NodeSpec) : Node where
  nid := h.hearth.nextNid
  state := .suspended
  op := x.op
  ty := x.ty
  rows := x.rows
  cols := x.cols
  in0 := x.in0
  in1 := x.in1
  param := x.param
  i0 := x.i0
  i1 := x.i1
  cpc := h.pc
  frm := h.frm
  rm := h.actl.getLsbD 16

/-- Put a node into a slot. -/
def Hearth.place (t : Hearth) (k : Nat) (n : Node) : Hearth :=
  { t with
    slots := Vector.ofFn fun i : Fin 64 => if i.val = k then some n else t.slots[i]
    nextNid := t.nextNid + 1 }

/-- Append a node and give its number to s[d] (18 R357): buffered bytes of a leaf's footprint are committed first. -/
def append (d : SReg) (x : NodeSpec) (s : State) : KeepM State := do
  let room ← fromTile (roomFor s)
  let s1 := room.done
  let n := newNode s1.hart x
  let meets := x.op == .leaf && s1.hart.buffer != [] && (n.footprint s1).any fun r => meetsBuffer s1.hart.buffer r.1 r.2
  let s2 ← keeping room.kept (if meets then quenchNow s1 true else .ok s1)
  let k := s2.hart.hearth.freeSlot.getD 0
  let s3 := s2.withHearth fun t => (t.place k n).tidy
  .ok { s3 with hart := s3.hart.result d (BitVec.ofNat 64 k) }

/-- The operands of an append and what it appends, in order of its checks. -/
def appendSpec (d a b : SReg) (spec : Hart → Word → Word → Except Stop NodeSpec) (s : State) : Except Stop NodeSpec := do
  afterQueue s.hart
  let x ← s.hart.src a false
  let y ← s.hart.src b false
  s.hart.destReady d
  spec s.hart x y

/-- Two operands read, then an append. -/
def append2 (d a b : SReg) (spec : Hart → Word → Word → Except Stop NodeSpec) (s : State) :
    Host.Outcome State Fault Refusal :=
  finishKeeping s do
    let x ← keeping s (appendSpec d a b spec s)
    append d x s

/-- What each append's operands say: of tl.mm and tl.ew with the instruction word. -/
def ldSpec (_ : Hart) (x y : Word) : Except Stop NodeSpec := leafSpec x y
def mmSpecOf (d a b : SReg) (h : Hart) (x y : Word) : Except Stop NodeSpec := mmSpec h x y (tileWord a b 0x01 d.val)
def ewSpecOf (d a b : SReg) (op : EwOp) (h : Hart) (x y : Word) : Except Stop NodeSpec :=
  ewSpec h x y op (tileWord a b 0x02 (op.code * 32 + d.val))
def redSpecOf (op : RedOp) (col : Bool) (h : Hart) (x _ : Word) : Except Stop NodeSpec := redSpec h x op col

def execTlLd (d a b : SReg) (s : State) := append2 d a b ldSpec s
def execTlMm (d a b : SReg) (s : State) := append2 d a b (mmSpecOf d a b) s
def execTlEw (d a b : SReg) (op : EwOp) (s : State) := append2 d a b (ewSpecOf d a b op) s
def execTlMap (d a b : SReg) (s : State) := append2 d a b mapSpec s
def execTlRed (d a : SReg) (op : RedOp) (col : Bool) (s : State) := append2 d a 0 (redSpecOf op col) s
def execTlCvt (d a b : SReg) (s : State) := append2 d a b cvtSpec s

/-! ## Forcing and storing (18 R365, R366) -/

/-- The rectangle of a word inside a node (18 R365). -/
def tileRect (n : Node) (w : Word) : Except Stop Rect := do
  reservedZero w 63 32
  let q : Rect := { r0 := bitsOf w 7 0, c0 := bitsOf w 15 8, r1 := bitsOf w 7 0 + bitsOf w 23 16,
                    c1 := bitsOf w 15 8 + bitsOf w 31 24 }
  if n.rows ≤ q.r1 ∨ n.cols ≤ q.c1 then trapAt 0x12 w
  .ok q

/-- What tl.force demands, in order of its checks: the node and the elements. -/
def forceTarget (a b : SReg) (s : State) : Except Stop (Nat × VWord) := do
  afterQueue s.hart
  let x ← s.hart.src a false
  let w ← s.hart.src b false
  let (n, _) ← namedNode s.hart x
  let q ← tileRect n w
  .ok (n.nid, rectCells q)

def execTlForce (a b : SReg) (s : State) : Host.Outcome State Fault Refusal :=
  finishKeeping s do
    let (nid, cells) ← keeping s (forceTarget a b s)
    let s1 ← fromTile (forceCells s nid cells)
    .ok { s1 with hart := s1.hart.advance }

/-- The pieces of a row that tl.st stores: elements, or whole column groups: first and last column. -/
def storeGroups (n : Node) (q : Rect) : List (Nat × Nat) :=
  if tileUnit n.ty = 64 then
    let k := bfpK n.ty.toNat
    (List.range ((q.c1 + k - q.c0) / k)).map fun g => (q.c0 + k * g, min (q.c0 + k * g + k - 1) q.c1)
  else (List.range (q.c1 + 1 - q.c0)).map fun j => (q.c0 + j, q.c0 + j)

/-- Whole column groups of a block type, or any columns (18 R366). -/
def wholeGroups (n : Node) (q : Rect) : Bool :=
  tileUnit n.ty != 64 ||
    (q.c0 % bfpK n.ty.toNat == 0 && ((q.c1 + 1) % bfpK n.ty.toNat == 0 || q.c1 + 1 == n.cols))

/-- The places of tl.st's pieces: row, piece and place, in order. -/
def storePieces (s : State) (dest : Word) (unit rowLen : Nat) :
    List (Nat × Nat × (Nat × Nat)) → Except Stop (List (Nat × (Nat × Nat) × Word × Place))
  | [] => .ok []
  | (r, g, cols) :: rest => do
    let va := dest + BitVec.ofNat 64 (r * rowLen + g * unit)
    let p ← atAddr va (ownPlace s s.hart.agent .write va unit)
    let l ← storePieces s dest unit rowLen rest
    .ok ((r, cols, va, p) :: l)

/-- The bytes of a piece, from the area: an element, or a block with its header and mantissas (18 R366). -/
def pieceBytes (s : State) (n : Node) (k i : Nat) (cols : Nat × Nat) : Except Trap (List Byte) := do
  let raws ← (List.range (cols.2 + 1 - cols.1)).mapM fun j =>
    match areaRead s n i (cols.1 + j) with
    | .ok x => .ok x
    | .error c => .error (lateTrap k n i (cols.1 + j) c)
  if tileUnit n.ty ≠ 64 then .ok (leBytes (tileUnit n.ty) (raws.getD 0 0))
  else
    let w := n.ty.toNat
    let payload := raws.foldr (fun x acc => x / 2 ^ 32 % 2 ^ w + 2 ^ w * acc) 0
    .ok (leBytes 64 (raws.getD 0 0 % 2 ^ 32 + 2 ^ 32 * payload))

/-- What tl.st stores, in order of its checks: the node and its slot, the rectangle, and its pieces with their places. -/
structure StorePlan where
  node : Node
  slot : Nat
  rect : Rect
  pieces : List (Nat × (Nat × Nat) × Word × Place)
  deriving DecidableEq, Repr

def storePlan (a b r : SReg) (s : State) : Except Stop StorePlan := do
  afterQueue s.hart
  let x ← s.hart.src a false
  let dest ← s.hart.src b false
  let w ← s.hart.src r false
  let (n, k) ← namedNode s.hart x
  let q ← tileRect n w
  let unit := tileUnit n.ty
  if !wholeGroups n q then trapAt 0x12 w
  if dest.toNat % unit ≠ 0 then trapAt 0x05 dest
  let groups := storeGroups n q
  let pieces := (List.range (q.r1 + 1 - q.r0)).flatMap fun i =>
    ((List.range groups.length).zip groups).map fun g => (i, g.1, g.2)
  let ps ← storePieces s dest unit (groups.length * unit) pieces
  .ok { node := n, slot := k, rect := q, pieces := ps }

/-- What tl.st forces, and the leaves its store snapshots (18 R366, R368). -/
def StorePlan.work (p : StorePlan) (s : State) : TileWork :=
  { roots := [(p.node.nid, rectCells p.rect)],
    leaves := overlapped s (p.pieces.map fun x => (x.2.2.2.pa, tileUnit p.node.ty)) }

/-- tl.st (18 R366): whatever stops it after its force leaves the leaf reads alone (R367). -/
def execTlSt (a b r : SReg) (s : State) : Host.Outcome State Fault Refusal :=
  finishKeeping s do
    let p ← keeping s (storePlan a b r s)
    let w := p.work s
    let x ← fromTile (force s w.roots w.leaves)
    let s1 := x.done.countSnaps x.snaps
    let m := ((s1.hart.hearth.find p.node.nid).map (·.1)).getD p.node
    let bytes ← ofTrap x.kept (p.pieces.mapM fun q => do
      let l ← pieceBytes s1 m p.slot (p.rect.r0 + q.1) q.2.1
      .ok (placeBytes q.2.2.2.pa l))
    let s2 := tlbFillAll s1 s.hart.agent (p.pieces.map fun q => (q.2.2.1, q.2.2.2.leaf))
    let s3 ← keeping x.kept (bufferEach [.store (bytes.flatMap id)] s2)
    .ok { s3 with hart := s3.hart.advance }
where
  ofTrap {α : Type} (kept : State) : Except Trap α → KeepM α
    | .ok x => .ok x
    | .error t => .error (.trap t, kept)

/-! ## Pinning, dropping, inspecting, clearing (18 R369, R371 to R373) -/

/-- The nodes a node reaches through its inputs, itself among them. -/
def reaches (t : Hearth) : Nat → List Nat → List Nat
  | 0, l => l
  | n + 1, l =>
    let more := (l.filterMap t.find).flatMap fun p => p.1.i0.toList ++ p.1.i1.toList
    reaches t n (l ++ more).eraseDups

/-- The live leaves among some nodes, in ascending slot order. -/
def liveLeaves (t : Hearth) (among : Node → Bool) : List Nat :=
  (t.inSlots.filter fun p => p.1.live && among p.1).map fun p => p.1.nid

/-- What readings before have found of some leaves is forgotten: they are read now. -/
def Hearth.unread (t : Hearth) (leaves : List Nat) : Hearth :=
  leaves.foldl (fun t nid => t.update nid fun n => { n with early := [] }) t

/-- Read every live leaf among some nodes at this point of po (18 R369): nothing that was read before is used. -/
def pinLeaves (s : State) (among : Node → Bool) : TileM State :=
  match liveLeaves s.hart.hearth among with
  | [] => .ok s
  | leaves => (force (s.withHearth fun t => t.unread leaves) [] leaves).map (·.done)

/-- The nodes that tl.pin's operand names: its node and all it reaches. -/
def pinTarget (a : SReg) (s : State) : Except Stop (List Nat) := do
  afterQueue s.hart
  let x ← s.hart.src a false
  let (n, _) ← namedNode s.hart x
  .ok (reaches s.hart.hearth s.hart.hearth.nodes.length [n.nid])

def execTlPin (a : SReg) (s : State) : Host.Outcome State Fault Refusal :=
  finishKeeping s do
    let l ← keeping s (pinTarget a s)
    let s1 ← fromTile (pinLeaves s fun m => l.contains m.nid)
    .ok { s1 with hart := s1.hart.advance }

/-- Drop a node: freed, or dropped while a consumer is suspended (18 R371). -/
def Hearth.drop (t : Hearth) (n : Node) : Hearth := (t.update n.nid fun m => { m with state := .dropped }).tidy

def execTlDrop (a : SReg) (s : State) : Host.Outcome State Fault Refusal :=
  onHart s fun h => do
    afterQueue h
    let x ← h.src a false
    let (n, _) ← namedNode h x
    .ok (h.withHearth fun t => t.drop n).advance

/-- The code of a node's state, operation and SUB (18 R352, R353). -/
def NodeState.code : NodeState → Nat
  | .suspended => 1 | .partly => 2 | .materialised => 3 | .dropped => 4
def NodeOp.code : NodeOp → Nat
  | .leaf => 0 | .mm => 1 | .ew _ => 2 | .map _ => 3 | .red .. => 4 | .cvt => 5
def NodeOp.sub : NodeOp → Nat
  | .ew op => op.code
  | .red op col => (if col then 8 else 0) + op.code
  | .map indirect => if indirect then 1 else 0
  | _ => 0

/-- The rectangle word of a node's made elements (18 R352). -/
def Node.mat (n : Node) : Nat :=
  match bounds (cellsOf n.made n.rows n.cols) with
  | none => 0
  | some q => (q.c1 - q.c0) * 2 ^ 24 + (q.r1 - q.r0) * 2 ^ 16 + q.c0 * 2 ^ 8 + q.r0

/-- A word of a node's record (18 R352). -/
def Node.word (n : Node) (k : Nat) : Word :=
  match k with
  | 0 => fieldsWord [(n.state.code, 61), (n.op.code, 58), (n.op.sub, 54), (n.ty.toNat, 40), (n.cols - 1, 8), (n.rows - 1, 0)]
  | 1 => n.in0
  | 2 => n.in1
  | 3 => n.param
  | 4 => n.cpc &&& ~~~3
  | 5 => fieldsWord [(n.count, 47), (n.mat, 0)]
  | 6 => fieldsWord [(n.alloc.getD 0, 32), (if n.alloc.isSome then 1 else 0, 31), (if n.rm then 1 else 0, 2), (n.frm.toNat, 0)]
  | _ => if n.op = .leaf ∧ n.whole then 1 else 0

def execTlStat (d a b : SReg) (s : State) : Host.Outcome State Fault Refusal :=
  onHart s fun h => do
    afterQueue h
    let x ← h.src a false
    let k ← h.src b false
    h.destReady d
    if 63 < x.toNat then trapAt 0x12 x
    if 7 < k.toNat then trapAt 0x12 k
    .ok (h.result d (match h.hearth.slots.toList.getD x.toNat none with
      | none => 0
      | some n => n.word k.toNat))

def execTlSync (pin clr : Bool) (s : State) : Host.Outcome State Fault Refusal :=
  finishKeeping s do
    keeping s (afterQueue s.hart)
    let s1 ← fromTile (if pin then pinLeaves s (fun _ => true) else .ok s)
    let s2 := if clr then s1.withHearth Hearth.cleared else s1
    .ok { s2 with hart := s2.hart.advance }

/-! ## A save during a tile instruction (18 R374) -/

/-- The work of an append that auto-forces a victim. -/
def appendWork (d a b : SReg) (spec : Hart → Word → Word → Except Stop NodeSpec) (s : State) : Except Stop TileWork := do
  let _ ← appendSpec d a b spec s
  .ok (match s.hart.hearth.freeSlot, s.hart.hctl.getLsbD 0, s.hart.hearth.victim with
    | none, true, some (n, _) => { roots := [(n.nid, n.full)] }
    | _, _, _ => {})

/-- The state in which a tile instruction works on the hearth, and its work; none for one that traps or waits first, and
for another instruction. -/
def tileWork (s : State) : Instr → Except Stop (State × TileWork)
  | .tlLd d a b => (appendWork d a b ldSpec s).map fun w => (s, w)
  | .tlMm d a b => (appendWork d a b (mmSpecOf d a b) s).map fun w => (s, w)
  | .tlEw d a b op => (appendWork d a b (ewSpecOf d a b op) s).map fun w => (s, w)
  | .tlMap d a b => (appendWork d a b mapSpec s).map fun w => (s, w)
  | .tlRed d a op col => (appendWork d a 0 (redSpecOf op col) s).map fun w => (s, w)
  | .tlCvt d a b => (appendWork d a b cvtSpec s).map fun w => (s, w)
  | .tlForce a b => do
    let (nid, cells) ← forceTarget a b s
    .ok (s, { roots := [(nid, cells)] })
  | .tlSt a b r => (storePlan a b r s).map fun p => (s, p.work s)
  | .tlPin a => do
    let l ← pinTarget a s
    .ok (pinned (liveLeaves s.hart.hearth fun m => l.contains m.nid))
  | .tlSync pin _ => do
    afterQueue s.hart
    .ok (pinned (if pin then liveLeaves s.hart.hearth fun _ => true else []))
  | _ => .error .stall
where
  pinned (leaves : List Nat) : State × TileWork := (s.withHearth fun t => t.unread leaves, { leaves := leaves })

/-- The current hart is at a tile instruction, which has made some elements, named by node, row and column, and is
abandoned there. -/
def tileProgress (s : State) (i : Instr) (l : List (Nat × Nat × Nat)) : Option State :=
  match tileWork s i with
  | .ok (s1, w) => abandonTile s1 w l
  | .error _ => none

end Sys2Proof.Machine
end

