-- ==== Sys2Proof/Machine/HostLink.lean ====
section
/-!
DEFINITION. The host's messages and registers (22 R424 to R431, R436, R438, R440), cancellation (16 R332), islands and
temperature (22 R439 to R441).
-/
namespace Sys2Proof.Machine

/-! ## Receiving a message (22 R425, R429, R430) -/

def State.link (s : State) (d : DieNo) : HostLink := (s.dieOf d).link
def State.setLink (s : State) (d : DieNo) (l : HostLink) : State := s.setDie d { s.dieOf d with link := l }

/-- The REFUSAL of a message. -/
def State.refuse (s : State) (link : DieNo) (hdr : MsgHdr) (type cause : BitVec 8) : State :=
  s.send link (.refusal hdr.jobid type cause hdr.mseq none)

/-- The ACK of a message. -/
def State.acknowledge (s : State) (link : DieNo) (hdr : MsgHdr) : State := s.send link (.ack hdr.jobid hdr.mseq)

/-- The message on a link is dropped: its header breaks R429, its length disagrees with its type, or it exists from a later
version than the link runs. -/
def headerBad (s : State) (link : DieNo) (hdr : MsgHdr) (since : BitVec 8) (units : Nat) : Bool :=
  let l := s.link link
  !hdr.zeroOk || hdr.mseq != l.rxSeq || hdr.ver != l.version || l.version < since || hdr.unitsM1.toNat + 1 != units

/-- A link takes messages: it is up, and the module has started (22 R435). -/
def State.takesMessages (s : State) (link : DieNo) : Bool := (s.link link).up && s.mode != .starting

/-- A message of `units` units that exists from version `since` on arrives: it is numbered, and dropped with a REFUSAL
or acts. -/
def receive (link : DieNo) (hdr : MsgHdr) (type since : BitVec 8) (units : Nat) (s : State) (act : State → State) :
    Host.Outcome State Fault Refusal :=
  let l := s.link link
  if !s.takesMessages link then .next s
  else
    let s1 := s.setLink link { l with rxSeq := l.rxSeq + 1 }
    if headerBad s link hdr since units then .next (s1.refuse link hdr type 0x01) else .next (act s1)

/-! ## Launch (22 R426, R430) -/

/-- A record fits the one running cell of minimal mode (22 R437). DEDUCED (log 44): a coach's members find cores,
carriages, channels and reservations there all at once. -/
def fitsOneCell (x : Cell) (b : Block) : Bool :=
  let f := recFlags b
  let n := (partCarriages x f.part.toNat).length
  n != 0 && f.coach ≤ Config.cores && f.coach * min f.lreq n ≤ n && f.coach * f.nin ≤ Config.channels &&
    (f.coach == 1 || f.nrsv == 0)

/-- Why a launch is refused whole, or none (22 R426, R430). DESIGN CHOICE (log 44): a launch of a job that has not ended
is refused with 0x01. -/
def launchRefusal (s : State) (link : DieNo) (hdr : MsgHdr) (b : LaunchBody) : Option (BitVec 8) :=
  let limit : BitVec 2 := if s.record.trust.getLsbD link.val then 2 else 0
  if !b.zeroOk ∨ (s.findJob hdr.jobid).isSome then some 0x01
  else if b.count = 0 ∨ 1023 < b.count.toNat then some 0x12
  else if b.records.length ≠ b.count.toNat then some 0x01
  else if 47 < b.cell.toNat ∨ !cellOn s b.die (Fin.ofNat 48 b.cell.toNat) then some 0x12
  else
    match b.records.findSome? fun r => recCheck r limit with
    | some c => some c
    | none =>
      let x := s.cellOf b.die (Fin.ofNat 48 b.cell.toNat)
      if s.mode = .minimal ∧ b.records.any (fun r => !fitsOneCell x r) then some 0x12 else none

/-- The launch starts the job and queues its records. -/
def State.startJob (s : State) (link : DieNo) (hdr : MsgHdr) (b : LaunchBody) : State :=
  let cell : CellNo := Fin.ofNat 48 b.cell.toNat
  let j : Job :=
    { job := hdr.jobid, asid := b.asid, gatebase := b.gatebase, ceil := b.ceil, cont := b.cont, die := b.die, cell := cell,
      link := link, trusted := s.record.trust.getLsbD link.val, count := 0 }
  b.records.foldl (fun s r => s.enqueue b.die cell hdr.jobid none r) { s with jobs := s.jobs ++ [j] }

/-- The queues that the launch's records go to have room for them. -/
def launchRoom (s : State) (b : LaunchBody) : Bool :=
  let prio (r : Block) : BitVec 4 := if b.ceil < (recFlags r).prio then b.ceil else (recFlags r).prio
  (List.range 16).all fun k =>
    let p := BitVec.ofNat 4 k
    (s.queueOf b.die (Fin.ofNat 48 b.cell.toNat) p).length + (b.records.filter fun r => prio r == p).length ≤
        Config.taskQueueSize ||
      !b.records.any fun r => prio r == p

/-- LAUNCH: one that is not refused waits while a queue has no room for its records. -/
def execLaunch (link : DieNo) (hdr : MsgHdr) (body : LaunchBody) (s : State) : Host.Outcome State Fault Refusal :=
  let refused := headerBad s link hdr 1 (body.records.length + 1) || (launchRefusal s link hdr body).isSome
  if !refused && !launchRoom s body then .next s
  else
    receive link hdr 0x01 1 (body.records.length + 1) s fun s =>
      match launchRefusal s link hdr body with
      | some c => s.refuse link hdr 0x01 c
      | none => s.startJob link hdr body

/-! ## Cancellation (16 R332) -/

/-- An entry of a queue is the job's. -/
def QEntry.ofJob (j : BitVec 32) : QEntry → Bool
  | .task r => r.job == j
  | .resume g => g.harts.any fun h => h.job == j

/-- A queued record is removed: its join is decremented with CANCELLED and its job discharged. -/
def State.cancelRecord (s : State) (d : DieNo) (c : CellNo) (r : TaskRec) : State :=
  let t : Task :=
    { tid := 0, job := r.job, level := (recFlags r.block).level, join := recJoin r.block, die := d, cell := c,
      part := BitVec.ofNat 5 r.partIn, size := 0, live := 0 }
  s.endTask t (((s.findJob r.job).map (·.asid)).getD 0) d c t.part .cancelled

/-- A queued entry that has been taken from its queue is given up. -/
def State.cancelEntry (s : State) (d : DieNo) (c : CellNo) (e : QEntry) : State :=
  let s1 := s.dropClaims e.qid
  match e with
  | .task r => s1.cancelRecord d c r
  | .resume g => s1.dropSaved g.harts

/-- The entries of a job in a cell's queues. -/
def jobEntries (s : State) (j : BitVec 32) (p : DieNo × CellNo) : List QEntry :=
  (s.cellOf p.1 p.2).queues.toList.flatMap fun q => q.filter (QEntry.ofJob j)

/-- A cell's queues lose a job's entries. -/
def State.clearQueues (j : BitVec 32) (s : State) (p : DieNo × CellNo) : State :=
  (List.range 16).foldl (fun s q =>
    let n := BitVec.ofNat 4 q
    s.setQueue p.1 p.2 n ((s.queueOf p.1 p.2 n).filter fun e => !QEntry.ofJob j e)) s

/-- Every cell of the package. -/
def allCells : List (DieNo × CellNo) := (List.finRange 4).flatMap fun d => (List.finRange 48).map fun c => (d, c)

/-- A job is cancelled: queued and saved work is removed, running harts keep a pending cancel, its open merge slots are
aborted (16 R332, 20 R388). What this itself queues stays (log 12). A die that has tripped does nothing (22 R441). -/
def State.cancelJob (s : State) (j : BitVec 32) : State :=
  match s.findJob j with
  | none => s
  | some x =>
    let s1 := (s.setJob { x with cancelled := true }).mapHarts fun h =>
      if h.job = j ∧ h.resident then h.pendCancel (s.dieOf h.die).cyc else h
    let cells := allCells.filter fun p => !(s.dieOf p.1).stopped && jobEntries s j p != []
    let s2 := cells.foldl (State.clearQueues j) (s1.abortSlots j)
    (cells.flatMap fun p => (jobEntries s j p).map fun e => (p, e)).foldl
      (fun s x => s.cancelEntry x.1.1 x.1.2 x.2) s2

/-- CANCEL. A job that the module does not have is not affected. -/
def execCancel (link : DieNo) (hdr : MsgHdr) (s : State) : Host.Outcome State Fault Refusal :=
  receive link hdr 0x02 1 1 s fun s => s.cancelJob hdr.jobid

/-! ## Windows and slots (22 R426, R427) -/

/-- The refusal of a window number on a link (22 R424, R430). -/
def windowRefused (s : State) (link : DieNo) (w : BitVec 6) : Bool := 16 ≤ w.toNat && (s.link link).version < 2

def State.setWindow (s : State) (w : BitVec 6) (x : Window) : State :=
  { s with windows := s.windows.set w.toNat x (by omega) }

/-- WINDOW OPEN. DESIGN CHOICE (log 45): a base that is no multiple of 2 MiB is malformed, cause 0x01; an open window is
mapped anew. -/
def execWindowOpen (link : DieNo) (hdr : MsgHdr) (window : BitVec 6) (base len : Word) (s : State) :
    Host.Outcome State Fault Refusal :=
  receive link hdr 0x03 1 1 s fun s =>
    if windowRefused s link window then s.refuse link hdr 0x03 0x11
    else if base.toNat % 0x200000 ≠ 0 then s.refuse link hdr 0x03 0x01
    else if len = 0 ∨ len.toNat % 0x200000 ≠ 0 ∨ 0x2000000000 < len.toNat then s.refuse link hdr 0x03 0x12
    else (s.setWindow window { opened := true, base := base.toNat, len := len.toNat }).acknowledge link hdr

/-- The places of a card's accesses that are still to be made: its footprints, its follow-on's blocks and CMPL. -/
def Card.places (c : Card) : List (Nat × Nat) :=
  if c.state = .done then []
  else c.rd ++ c.wr ++ c.follow.map (fun p => (p.1, 64)) ++ (c.cmpl.map fun p => (p, 8)).toList

/-- The places a store buffer's entry writes. -/
def SEntry.places : SEntry → List (Nat × Nat)
  | .store l => l.map fun p => (p.1, 1)
  | .adds _ l => l.map fun p => (p.2.1, 8)

/-- The places of accesses that are translated and not yet performed: of store buffers, cards and merge slots. DEDUCED
(log 45): an open slot's phase two is in flight from its tm.open on, which translates its pages. -/
def State.inFlightPlaces (s : State) : List (Nat × Nat) :=
  (s.allHarts ++ savedHarts s).flatMap (fun h => h.buffer.flatMap fun x => x.entry.places) ++
  s.dies.toList.flatMap fun d =>
    d.cards.flatMap Card.places ++
    d.slots.toList.flatMap fun m => if m.state = .opened then (m.totalMap ++ m.stageMap).map fun p => (p.2, 4096) else []

/-- An access goes through an open window. -/
def Window.maps (w : Window) (p : Nat × Nat) : Bool := w.opened && rangesMeet p (2 ^ 52 + w.base, w.len)

/-- WINDOW CLOSE: it takes effect once every access in flight through the window has been performed (22 R427). -/
def execWindowClose (link : DieNo) (hdr : MsgHdr) (window : BitVec 6) (s : State) : Host.Outcome State Fault Refusal :=
  let refused := headerBad s link hdr 1 1 || windowRefused s link window
  if !refused && s.inFlightPlaces.any s.windows[window.toNat].maps then .next s
  else
    receive link hdr 0x04 1 1 s fun s =>
      if windowRefused s link window then s.refuse link hdr 0x04 0x11
      else (s.setWindow window {}).acknowledge link hdr

/-- SLOT RELEASE (16 R334). -/
def execSlotRelease (link : DieNo) (hdr : MsgHdr) (die : DieNo) (cell : BitVec 6) (slot : SlotNo) (s : State) :
    Host.Outcome State Fault Refusal :=
  receive link hdr 0x05 1 1 s fun s =>
    let held := fun (h : Hart) => h.status == .haltedDouble && h.die == die && h.cell.val == cell.toNat && h.slot == slot
    if s.allHarts.any held then (s.removeHarts held).acknowledge link hdr
    else s.refuse link hdr 0x05 0x12

/-! ## Quotes (22 R431, R436) -/

/-- The digest that a die signs: of its firmware's digest, its configuration record's and the nonce, in this order
(22 R436; log 4). -/
def quoteDigest (firmware record : Block) (nonce : BitVec 256) : Block :=
  sha512 (leBytes 64 firmware.toNat ++ leBytes 64 record.toNat ++ leBytes 32 nonce.toNat)

/-- Units 1 to 12 of a quote reply over a nonce (22 R430, R436). -/
def quoteUnits (s : State) (nonce : BitVec 256) : List Block :=
  (List.finRange 4).flatMap fun d =>
    let firmware := Config.firmwareDigest d.val
    let digest := sha512 (s.dieOf d).recordBytes
    [Config.signature d.val (quoteDigest firmware digest nonce), firmware, digest]

/-- QUOTE. -/
def execQuote (link : DieNo) (hdr : MsgHdr) (nonce : BitVec 256) (s : State) : Host.Outcome State Fault Refusal :=
  receive link hdr 0x06 3 1 s fun s => s.send link (.quoteReply hdr.jobid nonce (quoteUnits s nonce))

/-- A write of 1 to QGO, with NONCE as the host has set it (22 R431); it works in every protocol version. -/
def execQgo (die : DieNo) (nonce : BitVec 256) (s : State) : Host.Outcome State Fault Refusal :=
  .next (s.setLink die { s.link die with nonce := nonce, qreply := quoteUnits s nonce, qdone := true })

/-! ## Links (22 R425) -/

/-- Negotiation on a link that is down reads HPHOST (22 R431): the link comes up with the lower of both sides' highest
versions; without a common one it stays down. -/
def HostLink.negotiate (l : HostLink) : HostLink :=
  if l.hostMax = 0 then { l with version := 0 }
  else { l with up := true, version := if l.hostMax < 3 then l.hostMax else 3, rxSeq := 0, txSeq := 0 }

/-- A link is trained, once its die has passed stage 6 (22 R435), and negotiates. `hostMax` is what the host sends on the
sideband as the link comes up, by a write of HPHOST, if it sends anything. -/
def execLinkUp (die : DieNo) (hostMax : Option (BitVec 8)) (s : State) : Host.Outcome State Fault Refusal :=
  let l := s.link die
  if l.up ∨ (s.dieOf die).stage.toNat < 7 then .next s
  else .next (s.setLink die { l with hostMax := hostMax.getD l.hostMax }.negotiate)

/-! ## Islands and temperature (22 R439 to R441) -/

/-- What an island number stands for (22 R439). -/
inductive Island where
  | lanes (die : DieNo) (cell : CellNo)
  | anvil (die : DieNo) (cell : CellNo)
  | own (die : DieNo) (k : Fin 32)
  deriving DecidableEq, Repr

/-- The units of a die's own group (22 R439). -/
inductive IslandUnit where
  | memory
  | port (n : Fin 8)
  | codec
  | hostLink
  | uncore
  deriving DecidableEq, Repr

def islandOf (n : Fin 512) : Island :=
  if n.val < 192 then .lanes (Fin.ofNat 4 (n.val / 48)) (Fin.ofNat 48 n.val)
  else if n.val < 384 then .anvil (Fin.ofNat 4 ((n.val - 192) / 48)) (Fin.ofNat 48 (n.val - 192))
  else .own (Fin.ofNat 4 ((n.val - 384) / 32)) (Fin.ofNat 32 (n.val - 384))

def islandUnit (k : Fin 32) : IslandUnit :=
  if k.val < 8 then .memory
  else if k.val < 16 then .port (Fin.ofNat 8 (k.val - 8))
  else if k.val < 18 then .codec
  else if k.val = 18 then .hostLink
  else .uncore

def Island.die : Island → DieNo
  | .lanes d _ | .anvil d _ | .own d _ => d

/-- The step an island runs at after a change begins for it, or after it has waited for one in progress (22 R440). -/
def State.requestIsland (s : State) (n : Fin 512) (step : BitVec 16) : State :=
  let r : IslandReq := { number := n, step := step, start := (s.dieOf (islandOf n).die).cyc }
  if s.changing.any (fun q => q.number == n) then { s with waitingIslands := s.waitingIslands ++ [r] }
  else { s with changing := s.changing ++ [r] }

/-- ISLAND. -/
def execIsland (link : DieNo) (hdr : MsgHdr) (number : BitVec 9) (voltage frequency : BitVec 8) (s : State) :
    Host.Outcome State Fault Refusal :=
  receive link hdr 0x07 3 1 s fun s => s.requestIsland (Fin.ofNat 512 number.toNat) (voltage ++ frequency)

/-- An island's change ends, and the oldest request that waits for it begins. -/
def execIslandChangeComplete (number : Fin 512) (s : State) : Host.Outcome State Fault Refusal :=
  happen s do
    let q ← s.changing.find? fun q => q.number == number
    let s1 := { s with
      islands := s.islands.set number q.step
      changing := s.changing.filter fun r => r.number != number }
    match s.waitingIslands.find? fun r => r.number == number with
    | none => some s1
    | some r => some ({ s1 with waitingIslands := s.waitingIslands.erase r }.requestIsland number r.step)

/-- A step is below another: neither voltage nor frequency is higher, and they differ. -/
def stepBelow (new old : BitVec 16) : Bool :=
  new != old && new >>> 8 ≤ old >>> 8 && new.truncate 8 ≤ (old.truncate 8 : BitVec 8)

/-- An anvil's island (22 R439). -/
def anvilIsland (n : Fin 512) : Bool := 192 ≤ n.val && n.val < 384

/-- An anvil's island has been lowered below its step in the configuration record, or is being lowered. -/
def anvilLowered (s : State) : Bool :=
  (List.finRange 512).any fun n => anvilIsland n &&
    (stepBelow s.islands[n] s.record.isl[n] ||
      (s.changing ++ s.waitingIslands).any fun r => r.number == n && stepBelow r.step s.record.isl[n])

/-- Firmware may lower these islands, at least one: each to a lower step, anvil islands first, then lane-pool islands (22
R441). -/
def lowersInOrder (s : State) (l : List (Fin 512 × BitVec 16)) : Bool :=
  let pools := l.dropWhile fun p => anvilIsland p.1
  l != [] && l.all (fun p => stepBelow p.2 s.islands[p.1]) && pools.all (fun p => p.1.val < 192) &&
    (pools.length < l.length || anvilLowered s)

/-- At a junction temperature of 105 °C firmware begins to lower islands. DESIGN CHOICE (log 46): which, and how far, is
firmware's. -/
def execThermalThrottle (die : DieNo) (why : Throttle) (s : State) : Host.Outcome State Fault Refusal :=
  if why.temp.toNat < 105 ∨ !lowersInOrder s why.lower then .next s
  else .next ((why.lower.foldl (fun s p => s.requestIsland p.1 p.2) s).send die (.thermal die why.temp false))

/-- A die stops all its islands. -/
def execThermalTrip (die : DieNo) (temp : BitVec 8) (s : State) : Host.Outcome State Fault Refusal :=
  if temp.toNat < 115 then .next s
  else .next ((s.setDie die { s.dieOf die with stopped := true }).send die (.thermal die temp true))

/-! ## The layout of messages (22 R429, R430) -/

/-- Word k of a message, counted from its start. -/
def msgWord (units : List Block) (k : Nat) : Word := blockWord (units.getD (k / 8) 0) (k % 8)

def msgType (units : List Block) : BitVec 8 := (msgWord units 0).truncate 8

def msgHdr (units : List Block) : MsgHdr :=
  let w := msgWord units 0
  { ver := w.extractLsb' 8 8, unitsM1 := w.extractLsb' 16 10, mseq := w.extractLsb' 32 32,
    jobid := (msgWord units 1).truncate 32, zeroOk := bitsOf w 31 26 == 0 && bitsOf (msgWord units 1) 63 32 == 0 }

def launchBody (units : List Block) : LaunchBody :=
  let w := msgWord units
  { asid := (w 2).truncate 16, ceil := (w 2).extractLsb' 16 4, gatebase := w 3, cont := w 4,
    die := Fin.ofNat 4 (bitsOf (w 5) 17 16), cell := (w 5).extractLsb' 24 6, zeroOk := w 6 == 0 && w 7 == 0,
    count := (w 5).truncate 16, records := units.drop 1 }

/-- What a message from the host is; none for a TYPE that no version has. -/
noncomputable def messageInstr (link : DieNo) (units : List Block) : Option Instr :=
  let hdr := msgHdr units
  let w := msgWord units
  let window : BitVec 6 := (w 2).truncate 6
  match (msgType units).toNat with
  | 0x01 => some (.launch link hdr (launchBody units))
  | 0x02 => some (.cancel link hdr)
  | 0x03 => some (.windowOpen link hdr window (w 3) (w 4))
  | 0x04 => some (.windowClose link hdr window)
  | 0x05 => some (.slotRelease link hdr (Fin.ofNat 4 (bitsOf (w 2) 25 24)) ((w 2).extractLsb' 16 6)
      (Fin.ofNat 32 (bitsOf (w 2) 4 0)))
  | 0x06 => some (.quote link hdr (w 5 ++ w 4 ++ w 3 ++ w 2))
  | 0x07 => some (.island link hdr ((w 2).truncate 9) ((w 3).extractLsb' 8 8) ((w 3).truncate 8))
  | _ => none

/-- A message of a TYPE that does not exist arrives: it is dropped with a REFUSAL. -/
def receiveUnknown (link : DieNo) (units : List Block) (s : State) : Host.Outcome State Fault Refusal :=
  receive link (msgHdr units) (msgType units) 255 units.length s id

/-- Words as a block, the first lowest. -/
def wordsBlock (l : List Word) : Block := BitVec.ofNat 512 (leNat (l.flatMap fun w => leBytes 8 w.toNat))

/-- Type, job, words from word 2 on, and further units of a message of the device on a link of a version. -/
def HostMsg.parts (version : BitVec 8) : HostMsg → Nat × BitVec 32 × List Word × List Block
  | .completion j => (0x81, j, [], [])
  | .failure j kind cause sub save d c slot =>
    (0x82, j, [fieldsWord [(kind.toNat, 56), (cause.toNat, 48), (sub.toNat, 40)], save,
      fieldsWord [(d.val, 24), (c.val, 16), (slot.val, 0)]], [])
  | .refusal j type cause mseq node =>
    let nv : Word := match node with
      | some n => if 2 ≤ version then fieldsWord [(1, 31), (n.toNat, 0)] else 0
      | none => 0
    (0x83, j, [fieldsWord [(type.toNat, 0), (cause.toNat, 8), (mseq.toNat, 32)], nv], [])
  | .ack j mseq => (0x84, j, [fieldsWord [(mseq.toNat, 32)]], [])
  | .quoteReply j nonce units => (0x85, j, (List.range 4).map fun k => nonce.extractLsb' (64 * k) 64, units)
  | .joinError j block cause dec => (0x86, j, [block, fieldsWord [(cause.toNat, 0), (dec.toNat, 8)]], [])
  | .thermal d temp trip => (0x87, 0, [fieldsWord [(d.val, 0), (temp.toNat, 8), (trip.toNat, 16)]], [])

/-- The units of a message that the device sends on a link of a version. -/
def SentMsg.units (m : SentMsg) (version : BitVec 8) : List Block :=
  let (type, job, words, more) := m.msg.parts version
  wordsBlock (fieldsWord [(type, 0), (version.toNat, 8), (more.length, 16), (m.mseq.toNat, 32)] ::
    fieldsWord [(job.toNat, 0)] :: words) :: more

/-! ## The sideband (22 R431, R438) -/

/-- MODE (22 R438). -/
def modeCode : Mode → Nat
  | .starting => 0
  | .normal => 1
  | .minimal => 2

/-- The boot status record's words (22 R438). -/
def bootWords (s : State) : List Word :=
  [fieldsWord [(modeCode s.mode, 62), (s.fails.toNat, 56)]] ++
  (s.dies.toList.map fun d => fieldsWord [(d.stage.toNat, 8), (d.cause.toNat, 0)]) ++
  [fieldsWord ((List.finRange 4).map fun d => ((s.link d).version.toNat, 4 * d.val)),
    fieldsWord ((List.finRange 4).flatMap fun d =>
      (List.finRange 8).map fun n => ((s.dieOf d).ports[n].up.toNat, 8 * d.val + n.val)), 0] ++
  ((List.range 4).flatMap fun d => (List.range 4).map fun k => (Config.identityKey d).extractLsb' (64 * k) 64) ++
  List.replicate 8 0

/-- A byte of a die's sideband registers. -/
def sidebandByte (s : State) (d : DieNo) (o : Nat) : Byte :=
  let l := s.link d
  let byteOf (w : List Word) (k : Nat) : Byte := (w.getD (k / 8) 0).extractLsb' (8 * (k % 8)) 8
  if o = 0x000 then 3
  else if o = 0x004 then l.hostMax
  else if o = 0x008 then l.version
  else if 0x100 ≤ o ∧ o < 0x200 then byteOf (bootWords s) (o - 0x100)
  else if 0x200 ≤ o ∧ o < 0x220 then l.nonce.extractLsb' (8 * (o - 0x200)) 8
  else if o = 0x224 then BitVec.ofNat 8 l.qdone.toNat
  else if 0x400 ≤ o ∧ o < 0x700 then (l.qreply.getD ((o - 0x400) / 64) 0).extractLsb' (8 * ((o - 0x400) % 64)) 8
  else 0

/-- The bytes of an access: 32 or 64 bits. -/
def sidebandSize (wide : Bool) : Nat := if wide then 8 else 4

/-- The host reads a sideband register. -/
def sidebandRead (s : State) (d : DieNo) (offset : Nat) (wide : Bool) : Word :=
  BitVec.ofNat 64 (leNat ((List.range (sidebandSize wide)).map fun i => sidebandByte s d (offset + i)))

/-- The host writes a byte of HPHOST or NONCE; every other byte ignores it. -/
def sidebandPut (d : DieNo) (s : State) (p : Nat × Byte) : State :=
  let l := s.link d
  if p.1 = 0x004 then s.setLink d { l with hostMax := p.2 }
  else if 0x200 ≤ p.1 ∧ p.1 < 0x220 then
    let k := 8 * (p.1 - 0x200)
    let rest := l.nonce &&& ~~~((0xFF : BitVec 256) <<< k)
    s.setLink d { l with nonce := rest ||| (p.2.zeroExtend 256 <<< k) }
  else s

/-- The host writes a sideband register, naturally aligned. -/
def sidebandWrite (s : State) (d : DieNo) (offset : Nat) (wide : Bool) (value : Word) : Host.Outcome State Fault Refusal :=
  let n := sidebandSize wide
  if offset % n ≠ 0 then .next s
  else if offset = 0x220 ∧ bitsOf value 31 0 = 1 then execQgo d (s.link d).nonce s
  else .next (((List.range n).map fun i => (offset + i, value.extractLsb' (8 * i) 8)).foldl (sidebandPut d) s)

end Sys2Proof.Machine
end

