-- ==== Sys2Proof/Machine/SoftError.lean ====
section
/-!
DEFINITION. Soft errors in register storage (16 R335, R330, R331; R327).
-/
namespace Sys2Proof.Machine

/-- The poison report of an error (16 R331, R335). DEDUCED (log 27): posted for scalar registers too, whose FILE code
R331 gives. -/
def poisonReport (s : State) (file reg lane : Nat) : State :=
  let h := s.hart
  s.post h.die h.cell (4 * 2 ^ 56 + 0x60 * 2 ^ 48 + whereWord h.die h.cell h.slot) h.job.toNat
    (file * 2 ^ 14 + reg * 2 ^ 8 + lane)

/-- The physical lane of a hart's lane (02 R26); none when it is not granted. -/
def physicalLane (h : Hart) (lane : Nat) : Option Nat := (carriages h.grant)[lane / 8]?.map fun c => 8 * c + lane % 8

/-- A single-bit error is corrected and counted (16 R335). -/
def correctError (s : State) : State :=
  let x := s.cellOf s.hart.die s.hart.cell
  s.setCell s.hart.die s.hart.cell { x with corrected := x.corrected + 1 }

/-- Mark one lane. -/
def markLane (p : BitVec 256) (lane : Fin 256) : BitVec 256 := p ||| (1#256 <<< lane.val)

/-- An uncorrectable error in register storage: the place is marked, and a report posted by `report`. -/
def poisonPlace (report : State → Nat → Nat → Nat → State) (s : State) : SoftErrorPlace → Option State
  | .scalar r =>
    if r = 0 then none
    else some (poisonReport { s with hart := { s.hart with spoison := s.hart.spoison.set r true } } 0 r.val 0)
  | .vector r lane =>
    (physicalLane s.hart lane.val).map fun l =>
      report { s with hart := { s.hart with vpoison := s.hart.vpoison.set r (markLane s.hart.vpoison[r] lane) } }
        1 r.val l
  | .topology r lane =>
    (physicalLane s.hart lane.val).map fun l =>
      report { s with hart := { s.hart with tpoison := s.hart.tpoison.set r (markLane s.hart.tpoison[r] lane) } }
        2 r.val l
  | .mask r lane =>
    (physicalLane s.hart lane.val).map fun l =>
      report { s with hart := { s.hart with mpoison := s.hart.mpoison.set r (markLane s.hart.mpoison[r] lane) } }
        3 r.val l
  | .storeBuffer i =>
    match s.hart.buffer[i.val]? with
    | none => none
    | some x => some { s with hart := { s.hart with buffer := s.hart.buffer.set i.val { x with bad := true } } }

/-- A soft error in the current hart's registers or strip store buffer. -/
def execRegisterSoftError (place : SoftErrorPlace) (kind : SoftErrorKind) (s : State) :
    Host.Outcome State Fault Refusal :=
  happen s (if !s.hart.resident then none
    else match kind with
      | .corrected => some (correctError s)
      | .reported => poisonPlace poisonReport s place
      | .met => poisonPlace (fun s _ _ _ => s) s place)

end Sys2Proof.Machine
end

