-- ==== Sys2Proof/Machine/Vector.lean ====
section
/-!
DEFINITION. Vector, tree and anvil instructions as the scalar core meets them: each captures its scalar sources and
enters the vector queue (02 R36 to R41; 10 R199; 11 R222). What the lanes then do is in `laneEffect`.
-/
namespace Sys2Proof.Machine

/-- The second register of the pair that holds base and limit (10 R199). -/
def nextReg (a : SReg) : SReg := Fin.ofNat 32 (a.val + 1)

def execVadd (d a b : VReg) (ty : IntTy) (ea eb : Bool) (s : State) := sendV (.vadd d a b ty ea eb) s
def execVsub (d a b : VReg) (ty : IntTy) (ea eb : Bool) (s : State) := sendV (.vsub d a b ty ea eb) s
def execVmul (d a b : VReg) (ty : IntTy) (ea eb : Bool) (s : State) := sendV (.vmul d a b ty ea eb) s
def execVmin (d a b : VReg) (ty : IntTy) (ea eb : Bool) (s : State) := sendV (.vmin d a b ty ea eb) s
def execVmax (d a b : VReg) (ty : IntTy) (ea eb : Bool) (s : State) := sendV (.vmax d a b ty ea eb) s
def execVand (d a b : VReg) (ty : IntTy) (ea eb : Bool) (s : State) := sendV (.vand d a b ty ea eb) s
def execVor (d a b : VReg) (ty : IntTy) (ea eb : Bool) (s : State) := sendV (.vor d a b ty ea eb) s
def execVxor (d a b : VReg) (ty : IntTy) (ea eb : Bool) (s : State) := sendV (.vxor d a b ty ea eb) s
def execVmulh (d a b : VReg) (ty : IntTy) (ea eb : Bool) (s : State) := sendV (.vmulh d a b ty ea eb) s
def execVdiv (d a b : VReg) (ty : IntTy) (ea eb : Bool) (s : State) := sendV (.vdiv d a b ty ea eb) s
def execVrem (d a b : VReg) (ty : IntTy) (ea eb : Bool) (s : State) := sendV (.vrem d a b ty ea eb) s
def execVsll (d a b : VReg) (ty : IntTy) (ea eb : Bool) (s : State) := sendV (.vsll d a b ty ea eb) s
def execVsrl (d a b : VReg) (ty : IntTy) (ea eb : Bool) (s : State) := sendV (.vsrl d a b ty ea eb) s
def execVsra (d a b : VReg) (ty : IntTy) (ea eb : Bool) (s : State) := sendV (.vsra d a b ty ea eb) s
def execVaddSat (d a b : VReg) (ty : IntTy) (ea eb : Bool) (s : State) := sendV (.vaddSat d a b ty ea eb) s
def execVsubSat (d a b : VReg) (ty : IntTy) (ea eb : Bool) (s : State) := sendV (.vsubSat d a b ty ea eb) s
def execVabs (d a : VReg) (ty : IntTy) (ea : Bool) (s : State) := sendV (.vabs d a ty ea) s
def execVneg (d a : VReg) (ty : IntTy) (ea : Bool) (s : State) := sendV (.vneg d a ty ea) s
def execVmadd (d a b : VReg) (ty : IntTy) (ea eb : Bool) (s : State) := sendV (.vmadd d a b ty ea eb) s
def execVmv (d a : VReg) (ty : IntTy) (ea : Bool) (s : State) := sendV (.vmv d a ty ea) s
def execVfadd (d a b : VReg) (ty : VFltTy) (ea eb : Bool) (s : State) := sendV (.vfadd d a b ty ea eb) s
def execVfsub (d a b : VReg) (ty : VFltTy) (ea eb : Bool) (s : State) := sendV (.vfsub d a b ty ea eb) s
def execVfmul (d a b : VReg) (ty : VFltTy) (ea eb : Bool) (s : State) := sendV (.vfmul d a b ty ea eb) s
def execVfdiv (d a b : VReg) (ty : VFltTy) (ea eb : Bool) (s : State) := sendV (.vfdiv d a b ty ea eb) s
def execVfmin (d a b : VReg) (ty : VFltTy) (ea eb : Bool) (s : State) := sendV (.vfmin d a b ty ea eb) s
def execVfmax (d a b : VReg) (ty : VFltTy) (ea eb : Bool) (s : State) := sendV (.vfmax d a b ty ea eb) s
def execVfma (d a b : VReg) (ty : VFltTy) (ea eb : Bool) (s : State) := sendV (.vfma d a b ty ea eb) s
def execVfnma (d a b : VReg) (ty : VFltTy) (ea eb : Bool) (s : State) := sendV (.vfnma d a b ty ea eb) s
def execVfms (d a b : VReg) (ty : VFltTy) (ea eb : Bool) (s : State) := sendV (.vfms d a b ty ea eb) s
def execVfnms (d a b : VReg) (ty : VFltTy) (ea eb : Bool) (s : State) := sendV (.vfnms d a b ty ea eb) s
def execVfcopys (d a b : VReg) (ty : VFltTy) (ea eb : Bool) (s : State) := sendV (.vfcopys d a b ty ea eb) s
def execVfcopyn (d a b : VReg) (ty : VFltTy) (ea eb : Bool) (s : State) := sendV (.vfcopyn d a b ty ea eb) s
def execVfxors (d a b : VReg) (ty : VFltTy) (ea eb : Bool) (s : State) := sendV (.vfxors d a b ty ea eb) s
def execVfabs (d a : VReg) (ty : VFltTy) (ea : Bool) (s : State) := sendV (.vfabs d a ty ea) s
def execVfneg (d a : VReg) (ty : VFltTy) (ea : Bool) (s : State) := sendV (.vfneg d a ty ea) s
def execVfmv (d a : VReg) (ty : VFltTy) (ea : Bool) (s : State) := sendV (.vfmv d a ty ea) s
def execVwfma (d a b : VReg) (ty : FltTy) (ea eb : Bool) (s : State) := sendV (.vwfma d a b ty ea eb) s
def execVwfms (d a b : VReg) (ty : FltTy) (ea eb : Bool) (s : State) := sendV (.vwfms d a b ty ea eb) s
def execVwmul (d a b : VReg) (ty : FltTy) (ea eb : Bool) (s : State) := sendV (.vwmul d a b ty ea eb) s
def execVwmadd (d a b : VReg) (ty : IntTy) (ea eb : Bool) (s : State) := sendV (.vwmadd d a b ty ea eb) s
def execVwimul (d a b : VReg) (ty : IntTy) (ea eb : Bool) (s : State) := sendV (.vwimul d a b ty ea eb) s
def execVcmp (d : MReg) (a b : VReg) (rel : Rel) (ty : ElemTy) (ea eb : Bool) (s : State) := sendV (.vcmp d a b rel ty ea eb) s
def execMand (d a b : MReg) (s : State) := sendV (.mand d a b) s
def execMor (d a b : MReg) (s : State) := sendV (.mor d a b) s
def execMxor (d a b : MReg) (s : State) := sendV (.mxor d a b) s
def execMandn (d a b : MReg) (s : State) := sendV (.mandn d a b) s
def execMnot (d a : MReg) (s : State) := sendV (.mnot d a) s
def execMmov (d : MReg) (a : MaskSrc) (s : State) := sendV (.mmov d a) s
def execMcpop (d : SReg) (a : MReg) (s : State) := sendV (.mcpop d a) s
def execMfirst (d : SReg) (a : MReg) (s : State) := sendV (.mfirst d a) s
def execVpush (d a b : VReg) (ty : ElemTy) (ea eb : Bool) (s : State) := sendV (.vpush d a b ty ea eb) s
def execVpushAdd (d a b : VReg) (ty : ElemTy) (ea eb : Bool) (s : State) := sendV (.vpushAdd d a b ty ea eb) s
def execVpull (d a b : VReg) (ty : ElemTy) (ea eb : Bool) (s : State) := sendV (.vpull d a b ty ea eb) s
def execVcmpr (d a : VReg) (ty : ElemTy) (ea : Bool) (s : State) := sendV (.vcmpr d a ty ea) s
def execVcmprTh (d a : VReg) (b : SReg) (ty : ElemTy) (ea eb : Bool) (s : State) := sendV1 (.vcmprTh d a b ty ea eb) b eb s
def execVexpand (d a : VReg) (ty : ElemTy) (ea : Bool) (s : State) := sendV (.vexpand d a ty ea) s
def execVslideUp (d a : VReg) (b : SReg) (ty : ElemTy) (ea eb : Bool) (s : State) := sendV1 (.vslideUp d a b ty ea eb) b eb s
def execVslideDn (d a : VReg) (b : SReg) (ty : ElemTy) (ea eb : Bool) (s : State) := sendV1 (.vslideDn d a b ty ea eb) b eb s
def execVbcast (d a : VReg) (b : SReg) (ty : ElemTy) (ea eb : Bool) (s : State) := sendV1 (.vbcast d a b ty ea eb) b eb s
def execVext (d : SReg) (a : VReg) (b : SReg) (ty : ElemTy) (ea eb : Bool) (s : State) := sendV1 (.vext d a b ty ea eb) b eb s
def execVrsum (d : SReg) (a : VReg) (b : SReg) (ty : ElemTy) (ea eb : Bool) (s : State) := sendV1 (.vrsum d a b ty ea eb) b eb s
def execVrmax (d : SReg) (a : VReg) (b : SReg) (ty : ElemTy) (ea eb : Bool) (s : State) := sendV1 (.vrmax d a b ty ea eb) b eb s
def execVrmin (d : SReg) (a : VReg) (b : SReg) (ty : ElemTy) (ea eb : Bool) (s : State) := sendV1 (.vrmin d a b ty ea eb) b eb s
def execVidx (d : VReg) (start : BitVec 11) (stp : BitVec 10) (s : State) := sendV (.vidx d start stp) s
def execVld (d : VReg) (a : SReg) (disp : BitVec 12) (size : Size) (ea : Bool) (s : State) := sendV1 (.vld d a disp size ea) a ea s
def execVlds (d : VReg) (a : SReg) (disp : BitVec 12) (size : Size) (ea : Bool) (s : State) := sendV1 (.vlds d a disp size ea) a ea s
def execVst (d : VReg) (a : SReg) (disp : BitVec 12) (size : Size) (ea : Bool) (s : State) := sendV1 (.vst d a disp size ea) a ea s
def execVsts (d : VReg) (a : SReg) (disp : BitVec 12) (size : Size) (ea : Bool) (s : State) := sendV1 (.vsts d a disp size ea) a ea s
def execVldx (d : VReg) (a : SReg) (b : VReg) (size : Size) (ea eb : Bool) (s : State) := sendV2 (.vldx d a b size ea eb) a (nextReg a) ea ea s
def execVstx (d : VReg) (a : SReg) (b : VReg) (size : Size) (ea eb : Bool) (s : State) := sendV2 (.vstx d a b size ea eb) a (nextReg a) ea ea s
def execVsaddInt (d : VReg) (a : SReg) (b : VReg) (size : Size) (ea eb : Bool) (s : State) := sendV2 (.vsaddInt d a b size ea eb) a (nextReg a) ea ea s
def execVsaddFloat (d : VReg) (a : SReg) (b : VReg) (ty : VFltTy) (ea eb : Bool) (s : State) := sendV2 (.vsaddFloat d a b ty ea eb) a (nextReg a) ea ea s
def execVconf (d a : VReg) (b : MReg) (size : Size) (ea : Bool) (s : State) := sendV (.vconf d a b size ea) s
def execVgth (d : VReg) (a : SReg) (b : VReg) (scope : Scope) (size : Size) (ea eb : Bool) (s : State) := sendV2 (.vgth d a b scope size ea eb) a (nextReg a) ea ea s
def execVexp2 (d a : VReg) (ea : Bool) (s : State) := sendV (.vexp2 d a ea) s
def execVlog2 (d a : VReg) (ea : Bool) (s : State) := sendV (.vlog2 d a ea) s
def execVrcp (d a : VReg) (ea : Bool) (s : State) := sendV (.vrcp d a ea) s
def execVrsqrt (d a : VReg) (ea : Bool) (s : State) := sendV (.vrsqrt d a ea) s
def execVfsqrt (d a : VReg) (ea : Bool) (s : State) := sendV (.vfsqrt d a ea) s
def execVcvtToFloat (d a : VReg) (src : ElemTy) (mode : CvtMode) (ty : FltTy) (ea : Bool) (s : State) := sendV (.vcvtToFloat d a src mode ty ea) s
def execVcvtToInt (d a : VReg) (src : ElemTy) (mode : CvtMode) (ty : IntTy) (ea : Bool) (s : State) := sendV (.vcvtToInt d a src mode ty ea) s
def execVpackBfp (d a : VReg) (w : BfpW) (ea : Bool) (s : State) := sendV (.vpackBfp d a w ea) s
def execVunpackBfp (d a : VReg) (w : BfpW) (ea : Bool) (s : State) := sendV (.vunpackBfp d a w ea) s
def execVaddVs (d a : VReg) (b : SReg) (ty : IntTy) (ea eb : Bool) (s : State) := sendV1 (.vaddVs d a b ty ea eb) b eb s
def execVsubVs (d a : VReg) (b : SReg) (ty : IntTy) (ea eb : Bool) (s : State) := sendV1 (.vsubVs d a b ty ea eb) b eb s
def execVmulVs (d a : VReg) (b : SReg) (ty : IntTy) (ea eb : Bool) (s : State) := sendV1 (.vmulVs d a b ty ea eb) b eb s
def execVminVs (d a : VReg) (b : SReg) (ty : IntTy) (ea eb : Bool) (s : State) := sendV1 (.vminVs d a b ty ea eb) b eb s
def execVmaxVs (d a : VReg) (b : SReg) (ty : IntTy) (ea eb : Bool) (s : State) := sendV1 (.vmaxVs d a b ty ea eb) b eb s
def execVandVs (d a : VReg) (b : SReg) (ty : IntTy) (ea eb : Bool) (s : State) := sendV1 (.vandVs d a b ty ea eb) b eb s
def execVorVs (d a : VReg) (b : SReg) (ty : IntTy) (ea eb : Bool) (s : State) := sendV1 (.vorVs d a b ty ea eb) b eb s
def execVxorVs (d a : VReg) (b : SReg) (ty : IntTy) (ea eb : Bool) (s : State) := sendV1 (.vxorVs d a b ty ea eb) b eb s
def execVfaddVs (d a : VReg) (b : SReg) (ty : VFltTy) (ea eb : Bool) (s : State) := sendV1 (.vfaddVs d a b ty ea eb) b eb s
def execVfsubVs (d a : VReg) (b : SReg) (ty : VFltTy) (ea eb : Bool) (s : State) := sendV1 (.vfsubVs d a b ty ea eb) b eb s
def execVfmulVs (d a : VReg) (b : SReg) (ty : VFltTy) (ea eb : Bool) (s : State) := sendV1 (.vfmulVs d a b ty ea eb) b eb s
def execVfdivVs (d a : VReg) (b : SReg) (ty : VFltTy) (ea eb : Bool) (s : State) := sendV1 (.vfdivVs d a b ty ea eb) b eb s
def execVfminVs (d a : VReg) (b : SReg) (ty : VFltTy) (ea eb : Bool) (s : State) := sendV1 (.vfminVs d a b ty ea eb) b eb s
def execVfmaxVs (d a : VReg) (b : SReg) (ty : VFltTy) (ea eb : Bool) (s : State) := sendV1 (.vfmaxVs d a b ty ea eb) b eb s
def execVfmaVs (d a : VReg) (b : SReg) (ty : VFltTy) (ea eb : Bool) (s : State) := sendV1 (.vfmaVs d a b ty ea eb) b eb s
def execVfnmaVs (d a : VReg) (b : SReg) (ty : VFltTy) (ea eb : Bool) (s : State) := sendV1 (.vfnmaVs d a b ty ea eb) b eb s
def execVcmpVs (d : MReg) (a : VReg) (b : SReg) (rel : Rel) (ty : ElemTy) (ea eb : Bool) (s : State) := sendV1 (.vcmpVs d a b rel ty ea eb) b eb s
def execTmov (d : VReg) (t : TReg) (ty : TreeTy) (s : State) := sendV (.tmov d t ty) s
def execTmovToTopo (a : VReg) (t : TReg) (ty : TreeTy) (ea : Bool) (s : State) := sendV (.tmovToTopo a t ty ea) s
def execTup (d a : VReg) (t : TReg) (comb : TreeComb) (ty : TreeTy) (ea : Bool) (s : State) := sendV (.tup d a t comb ty ea) s
def execTdn (d a : VReg) (t : TReg) (comb : TreeComb) (ty : TreeTy) (ea : Bool) (s : State) := sendV (.tdn d a t comb ty ea) s
def execTbc (d a : VReg) (t : TReg) (m : MReg) (ty : TreeTy) (ea : Bool) (s : State) := sendV (.tbc d a t m ty ea) s
def execTdep (d : VReg) (t : TReg) (s : State) := sendV (.tdep d t) s
def execTancK (d : VReg) (t : TReg) (k : Fin 32) (s : State) := sendV (.tancK d t k) s
def execTancM (d : VReg) (t : TReg) (m : MReg) (ty : TreeTy) (s : State) := sendV (.tancM d t m ty) s
def execTisanc (d : MReg) (t : TReg) (b : VReg) (eb : Bool) (s : State) := sendV (.tisanc d t b eb) s
def execTroot (d : VReg) (t : TReg) (s : State) := sendV (.troot d t) s
def execTdeg (d : VReg) (t : TReg) (s : State) := sendV (.tdeg d t) s
def execTchk (d : VReg) (t : TReg) (ty : TreeTy) (s : State) := sendV (.tchk d t ty) s
def execTctr (d a : VReg) (t : TReg) (ty : TreeTy) (ea : Bool) (s : State) := sendV (.tctr d a t ty ea) s
def execTld (t : TReg) (a : SReg) (disp : BitVec 12) (ea : Bool) (s : State) := sendV1 (.tld t a disp ea) a ea s
def execTst (t : TReg) (a : SReg) (disp : BitVec 12) (ea : Bool) (s : State) := sendV1 (.tst t a disp ea) a ea s
def execAnvOp (a b : SReg) (s : State) := sendV2 (.anvOp a b) a b false false s
def execAnvZero (a : SReg) (s : State) := sendV1 (.anvZero a) a false s
def execVrsumBfp (d : SReg) (v : VReg) (s : SReg) (st : State) := sendV1 (.vrsumBfp d v s) s false st
def execAccLd (v : VReg) (b : SReg) (s : State) := sendV1 (.accLd v b) b false s
def execAccSt (v : VReg) (b : SReg) (s : State) := sendV1 (.accSt v b) b false s
def execAccMem (a b : SReg) (load : Bool) (s : State) := sendV2 (.accMem a b load) a b false false s
def execWbLoad (a b : SReg) (s : State) := sendV2 (.wbLoad a b) a b false false s

end Sys2Proof.Machine
end

