-- ==== Sys2Proof/Machine/Dispatch.lean ====
section
/-!
DEFINITION. What each instruction does: one arm per constructor.
-/
namespace Sys2Proof.Machine

/-- The effect of an instruction or event in a state. -/
def exec (i : Instr) (s : State) : Host.Outcome State Fault Refusal :=
  match i with
  | .add d a b ea eb => Sys2Proof.Machine.execAdd d a b ea eb s
  | .sub d a b ea eb => Sys2Proof.Machine.execSub d a b ea eb s
  | .and d a b ea eb => Sys2Proof.Machine.execAnd d a b ea eb s
  | .or d a b ea eb => Sys2Proof.Machine.execOr d a b ea eb s
  | .xor d a b ea eb => Sys2Proof.Machine.execXor d a b ea eb s
  | .sll d a b ea eb => Sys2Proof.Machine.execSll d a b ea eb s
  | .srl d a b ea eb => Sys2Proof.Machine.execSrl d a b ea eb s
  | .sra d a b ea eb => Sys2Proof.Machine.execSra d a b ea eb s
  | .mul d a b ea eb => Sys2Proof.Machine.execMul d a b ea eb s
  | .mulh d a b ea eb => Sys2Proof.Machine.execMulh d a b ea eb s
  | .mulhN d a b ea eb => Sys2Proof.Machine.execMulhN d a b ea eb s
  | .div d a b ea eb => Sys2Proof.Machine.execDiv d a b ea eb s
  | .divN d a b ea eb => Sys2Proof.Machine.execDivN d a b ea eb s
  | .rem d a b ea eb => Sys2Proof.Machine.execRem d a b ea eb s
  | .remN d a b ea eb => Sys2Proof.Machine.execRemN d a b ea eb s
  | .min d a b ea eb => Sys2Proof.Machine.execMin d a b ea eb s
  | .max d a b ea eb => Sys2Proof.Machine.execMax d a b ea eb s
  | .minN d a b ea eb => Sys2Proof.Machine.execMinN d a b ea eb s
  | .maxN d a b ea eb => Sys2Proof.Machine.execMaxN d a b ea eb s
  | .add32 d a b ea eb => Sys2Proof.Machine.execAdd32 d a b ea eb s
  | .sub32 d a b ea eb => Sys2Proof.Machine.execSub32 d a b ea eb s
  | .addi d a imm ea => Sys2Proof.Machine.execAddi d a imm ea s
  | .andi d a imm ea => Sys2Proof.Machine.execAndi d a imm ea s
  | .ori d a imm ea => Sys2Proof.Machine.execOri d a imm ea s
  | .xori d a imm ea => Sys2Proof.Machine.execXori d a imm ea s
  | .slli d a n ea => Sys2Proof.Machine.execSlli d a n ea s
  | .srli d a n ea => Sys2Proof.Machine.execSrli d a n ea s
  | .srai d a n ea => Sys2Proof.Machine.execSrai d a n ea s
  | .slli32 d a n ea => Sys2Proof.Machine.execSlli32 d a n ea s
  | .srli32 d a n ea => Sys2Proof.Machine.execSrli32 d a n ea s
  | .srai32 d a n ea => Sys2Proof.Machine.execSrai32 d a n ea s
  | .cmpi c a rel imm ea => Sys2Proof.Machine.execCmpi c a rel imm ea s
  | .cmpiN c a rel imm ea => Sys2Proof.Machine.execCmpiN c a rel imm ea s
  | .ldhi d imm => Sys2Proof.Machine.execLdhi d imm s
  | .addpc d imm => Sys2Proof.Machine.execAddpc d imm s
  | .fadd d a b ty ea eb => Sys2Proof.Machine.execFadd d a b ty ea eb s
  | .fsub d a b ty ea eb => Sys2Proof.Machine.execFsub d a b ty ea eb s
  | .fmul d a b ty ea eb => Sys2Proof.Machine.execFmul d a b ty ea eb s
  | .fdiv d a b ty ea eb => Sys2Proof.Machine.execFdiv d a b ty ea eb s
  | .fsqrt d a ty ea => Sys2Proof.Machine.execFsqrt d a ty ea s
  | .fmin d a b ty ea eb => Sys2Proof.Machine.execFmin d a b ty ea eb s
  | .fmax d a b ty ea eb => Sys2Proof.Machine.execFmax d a b ty ea eb s
  | .fma d a b ty ea eb => Sys2Proof.Machine.execFma d a b ty ea eb s
  | .fcopys d a b ty ea eb => Sys2Proof.Machine.execFcopys d a b ty ea eb s
  | .fcopyn d a b ty ea eb => Sys2Proof.Machine.execFcopyn d a b ty ea eb s
  | .fxors d a b ty ea eb => Sys2Proof.Machine.execFxors d a b ty ea eb s
  | .fcvti d a ty ea => Sys2Proof.Machine.execFcvti d a ty ea s
  | .fcvtn d a ty ea => Sys2Proof.Machine.execFcvtn d a ty ea s
  | .icvtf d a ty ea => Sys2Proof.Machine.execIcvtf d a ty ea s
  | .ncvtf d a ty ea => Sys2Proof.Machine.execNcvtf d a ty ea s
  | .fcvtf d a ty ea => Sys2Proof.Machine.execFcvtf d a ty ea s
  | .ld d a disp size signed ea => Sys2Proof.Machine.execLd d a disp size signed ea s
  | .st d a disp size ea => Sys2Proof.Machine.execSt d a disp size ea s
  | .ldAcq d a size scope ea => Sys2Proof.Machine.execLdAcq d a size scope ea s
  | .stRel a b size scope ea eb => Sys2Proof.Machine.execStRel a b size scope ea eb s
  | .amoSwap d a b size scope ea eb => Sys2Proof.Machine.execAmoSwap d a b size scope ea eb s
  | .amoAdd d a b size scope ea eb => Sys2Proof.Machine.execAmoAdd d a b size scope ea eb s
  | .amoAnd d a b size scope ea eb => Sys2Proof.Machine.execAmoAnd d a b size scope ea eb s
  | .amoOr d a b size scope ea eb => Sys2Proof.Machine.execAmoOr d a b size scope ea eb s
  | .amoXor d a b size scope ea eb => Sys2Proof.Machine.execAmoXor d a b size scope ea eb s
  | .amoMin d a b size scope ea eb => Sys2Proof.Machine.execAmoMin d a b size scope ea eb s
  | .amoMax d a b size scope ea eb => Sys2Proof.Machine.execAmoMax d a b size scope ea eb s
  | .amoMinN d a b size scope ea eb => Sys2Proof.Machine.execAmoMinN d a b size scope ea eb s
  | .amoMaxN d a b size scope ea eb => Sys2Proof.Machine.execAmoMaxN d a b size scope ea eb s
  | .cas d a b size scope ea eb => Sys2Proof.Machine.execCas d a b size scope ea eb s
  | .fence scope => Sys2Proof.Machine.execFence scope s
  | .fenceLd scope => Sys2Proof.Machine.execFenceLd scope s
  | .fenceSt scope => Sys2Proof.Machine.execFenceSt scope s
  | .fenceEng scope => Sys2Proof.Machine.execFenceEng scope s
  | .cmp c a b rel ea eb => Sys2Proof.Machine.execCmp c a b rel ea eb s
  | .cmpN c a b rel ea eb => Sys2Proof.Machine.execCmpN c a b rel ea eb s
  | .fcmp c a b rel ty ea eb => Sys2Proof.Machine.execFcmp c a b rel ty ea eb s
  | .cand d a b => Sys2Proof.Machine.execCand d a b s
  | .cor d a b => Sys2Proof.Machine.execCor d a b s
  | .cxor d a b => Sys2Proof.Machine.execCxor d a b s
  | .candn d a b => Sys2Proof.Machine.execCandn d a b s
  | .cnot d a => Sys2Proof.Machine.execCnot d a s
  | .cget d a => Sys2Proof.Machine.execCget d a s
  | .cput d a ea => Sys2Proof.Machine.execCput d a ea s
  | .br c disp => Sys2Proof.Machine.execBr c disp s
  | .brn c disp => Sys2Proof.Machine.execBrn c disp s
  | .jmp disp => Sys2Proof.Machine.execJmp disp s
  | .call disp => Sys2Proof.Machine.execCall disp s
  | .jmpr a => Sys2Proof.Machine.execJmpr a s
  | .callr a => Sys2Proof.Machine.execCallr a s
  | .ret => Sys2Proof.Machine.execRet s
  | .gret => Sys2Proof.Machine.execGret s
  | .gate n => Sys2Proof.Machine.execGate n s
  | .trap n => Sys2Proof.Machine.execTrap n s
  | .tret => Sys2Proof.Machine.execTret s
  | .crd d n => Sys2Proof.Machine.execCrd d n s
  | .cwr a n => Sys2Proof.Machine.execCwr a n s
  | .cwrVl a => Sys2Proof.Machine.execCwrVl a s
  | .cwrLpart a => Sys2Proof.Machine.execCwrLpart a s
  | .cwrPrio a => Sys2Proof.Machine.execCwrPrio a s
  | .cwrStripmax a => Sys2Proof.Machine.execCwrStripmax a s
  | .cwrPriv a => Sys2Proof.Machine.execCwrPriv a s
  | .cwrAsid a => Sys2Proof.Machine.execCwrAsid a s
  | .cwrTcause a => Sys2Proof.Machine.execCwrTcause a s
  | .cwrHctl a => Sys2Proof.Machine.execCwrHctl a s
  | .tlbInv a b scope => Sys2Proof.Machine.execTlbInv a b scope s
  | .tlbPrb d b => Sys2Proof.Machine.execTlbPrb d b s
  | .cacheWb a b scope => Sys2Proof.Machine.execCacheWb a b scope s
  | .cacheInv a b scope => Sys2Proof.Machine.execCacheInv a b scope s
  | .halt => Sys2Proof.Machine.execHalt s
  | .wfe a => Sys2Proof.Machine.execWfe a s
  | .evt a => Sys2Proof.Machine.execEvt a s
  | .setvl d a w ea => Sys2Proof.Machine.execSetvl d a w ea s
  | .setvlDb d a w n ea => Sys2Proof.Machine.execSetvlDb d a w n ea s
  | .setvlDbNb d a w n ea => Sys2Proof.Machine.execSetvlDbNb d a w n ea s
  | .vadd d a b ty ea eb => Sys2Proof.Machine.execVadd d a b ty ea eb s
  | .vsub d a b ty ea eb => Sys2Proof.Machine.execVsub d a b ty ea eb s
  | .vmul d a b ty ea eb => Sys2Proof.Machine.execVmul d a b ty ea eb s
  | .vmin d a b ty ea eb => Sys2Proof.Machine.execVmin d a b ty ea eb s
  | .vmax d a b ty ea eb => Sys2Proof.Machine.execVmax d a b ty ea eb s
  | .vand d a b ty ea eb => Sys2Proof.Machine.execVand d a b ty ea eb s
  | .vor d a b ty ea eb => Sys2Proof.Machine.execVor d a b ty ea eb s
  | .vxor d a b ty ea eb => Sys2Proof.Machine.execVxor d a b ty ea eb s
  | .vmulh d a b ty ea eb => Sys2Proof.Machine.execVmulh d a b ty ea eb s
  | .vdiv d a b ty ea eb => Sys2Proof.Machine.execVdiv d a b ty ea eb s
  | .vrem d a b ty ea eb => Sys2Proof.Machine.execVrem d a b ty ea eb s
  | .vsll d a b ty ea eb => Sys2Proof.Machine.execVsll d a b ty ea eb s
  | .vsrl d a b ty ea eb => Sys2Proof.Machine.execVsrl d a b ty ea eb s
  | .vsra d a b ty ea eb => Sys2Proof.Machine.execVsra d a b ty ea eb s
  | .vaddSat d a b ty ea eb => Sys2Proof.Machine.execVaddSat d a b ty ea eb s
  | .vsubSat d a b ty ea eb => Sys2Proof.Machine.execVsubSat d a b ty ea eb s
  | .vabs d a ty ea => Sys2Proof.Machine.execVabs d a ty ea s
  | .vneg d a ty ea => Sys2Proof.Machine.execVneg d a ty ea s
  | .vmadd d a b ty ea eb => Sys2Proof.Machine.execVmadd d a b ty ea eb s
  | .vmv d a ty ea => Sys2Proof.Machine.execVmv d a ty ea s
  | .vfadd d a b ty ea eb => Sys2Proof.Machine.execVfadd d a b ty ea eb s
  | .vfsub d a b ty ea eb => Sys2Proof.Machine.execVfsub d a b ty ea eb s
  | .vfmul d a b ty ea eb => Sys2Proof.Machine.execVfmul d a b ty ea eb s
  | .vfdiv d a b ty ea eb => Sys2Proof.Machine.execVfdiv d a b ty ea eb s
  | .vfmin d a b ty ea eb => Sys2Proof.Machine.execVfmin d a b ty ea eb s
  | .vfmax d a b ty ea eb => Sys2Proof.Machine.execVfmax d a b ty ea eb s
  | .vfma d a b ty ea eb => Sys2Proof.Machine.execVfma d a b ty ea eb s
  | .vfnma d a b ty ea eb => Sys2Proof.Machine.execVfnma d a b ty ea eb s
  | .vfms d a b ty ea eb => Sys2Proof.Machine.execVfms d a b ty ea eb s
  | .vfnms d a b ty ea eb => Sys2Proof.Machine.execVfnms d a b ty ea eb s
  | .vfcopys d a b ty ea eb => Sys2Proof.Machine.execVfcopys d a b ty ea eb s
  | .vfcopyn d a b ty ea eb => Sys2Proof.Machine.execVfcopyn d a b ty ea eb s
  | .vfxors d a b ty ea eb => Sys2Proof.Machine.execVfxors d a b ty ea eb s
  | .vfabs d a ty ea => Sys2Proof.Machine.execVfabs d a ty ea s
  | .vfneg d a ty ea => Sys2Proof.Machine.execVfneg d a ty ea s
  | .vfmv d a ty ea => Sys2Proof.Machine.execVfmv d a ty ea s
  | .vwfma d a b ty ea eb => Sys2Proof.Machine.execVwfma d a b ty ea eb s
  | .vwfms d a b ty ea eb => Sys2Proof.Machine.execVwfms d a b ty ea eb s
  | .vwmul d a b ty ea eb => Sys2Proof.Machine.execVwmul d a b ty ea eb s
  | .vwmadd d a b ty ea eb => Sys2Proof.Machine.execVwmadd d a b ty ea eb s
  | .vwimul d a b ty ea eb => Sys2Proof.Machine.execVwimul d a b ty ea eb s
  | .vcmp d a b rel ty ea eb => Sys2Proof.Machine.execVcmp d a b rel ty ea eb s
  | .mand d a b => Sys2Proof.Machine.execMand d a b s
  | .mor d a b => Sys2Proof.Machine.execMor d a b s
  | .mxor d a b => Sys2Proof.Machine.execMxor d a b s
  | .mandn d a b => Sys2Proof.Machine.execMandn d a b s
  | .mnot d a => Sys2Proof.Machine.execMnot d a s
  | .mmov d a => Sys2Proof.Machine.execMmov d a s
  | .mcpop d a => Sys2Proof.Machine.execMcpop d a s
  | .mfirst d a => Sys2Proof.Machine.execMfirst d a s
  | .vpush d a b ty ea eb => Sys2Proof.Machine.execVpush d a b ty ea eb s
  | .vpushAdd d a b ty ea eb => Sys2Proof.Machine.execVpushAdd d a b ty ea eb s
  | .vpull d a b ty ea eb => Sys2Proof.Machine.execVpull d a b ty ea eb s
  | .vcmpr d a ty ea => Sys2Proof.Machine.execVcmpr d a ty ea s
  | .vcmprTh d a b ty ea eb => Sys2Proof.Machine.execVcmprTh d a b ty ea eb s
  | .vexpand d a ty ea => Sys2Proof.Machine.execVexpand d a ty ea s
  | .vslideUp d a b ty ea eb => Sys2Proof.Machine.execVslideUp d a b ty ea eb s
  | .vslideDn d a b ty ea eb => Sys2Proof.Machine.execVslideDn d a b ty ea eb s
  | .vbcast d a b ty ea eb => Sys2Proof.Machine.execVbcast d a b ty ea eb s
  | .vext d a b ty ea eb => Sys2Proof.Machine.execVext d a b ty ea eb s
  | .vrsum d a b ty ea eb => Sys2Proof.Machine.execVrsum d a b ty ea eb s
  | .vrmax d a b ty ea eb => Sys2Proof.Machine.execVrmax d a b ty ea eb s
  | .vrmin d a b ty ea eb => Sys2Proof.Machine.execVrmin d a b ty ea eb s
  | .vidx d start stp => Sys2Proof.Machine.execVidx d start stp s
  | .vld d a disp size ea => Sys2Proof.Machine.execVld d a disp size ea s
  | .vlds d a disp size ea => Sys2Proof.Machine.execVlds d a disp size ea s
  | .vst d a disp size ea => Sys2Proof.Machine.execVst d a disp size ea s
  | .vsts d a disp size ea => Sys2Proof.Machine.execVsts d a disp size ea s
  | .vldx d a b size ea eb => Sys2Proof.Machine.execVldx d a b size ea eb s
  | .vstx d a b size ea eb => Sys2Proof.Machine.execVstx d a b size ea eb s
  | .vsaddInt d a b size ea eb => Sys2Proof.Machine.execVsaddInt d a b size ea eb s
  | .vsaddFloat d a b ty ea eb => Sys2Proof.Machine.execVsaddFloat d a b ty ea eb s
  | .vconf d a b size ea => Sys2Proof.Machine.execVconf d a b size ea s
  | .vgth d a b scope size ea eb => Sys2Proof.Machine.execVgth d a b scope size ea eb s
  | .vexp2 d a ea => Sys2Proof.Machine.execVexp2 d a ea s
  | .vlog2 d a ea => Sys2Proof.Machine.execVlog2 d a ea s
  | .vrcp d a ea => Sys2Proof.Machine.execVrcp d a ea s
  | .vrsqrt d a ea => Sys2Proof.Machine.execVrsqrt d a ea s
  | .vfsqrt d a ea => Sys2Proof.Machine.execVfsqrt d a ea s
  | .vcvtToFloat d a src mode ty ea => Sys2Proof.Machine.execVcvtToFloat d a src mode ty ea s
  | .vcvtToInt d a src mode ty ea => Sys2Proof.Machine.execVcvtToInt d a src mode ty ea s
  | .vpackBfp d a w ea => Sys2Proof.Machine.execVpackBfp d a w ea s
  | .vunpackBfp d a w ea => Sys2Proof.Machine.execVunpackBfp d a w ea s
  | .vaddVs d a b ty ea eb => Sys2Proof.Machine.execVaddVs d a b ty ea eb s
  | .vsubVs d a b ty ea eb => Sys2Proof.Machine.execVsubVs d a b ty ea eb s
  | .vmulVs d a b ty ea eb => Sys2Proof.Machine.execVmulVs d a b ty ea eb s
  | .vminVs d a b ty ea eb => Sys2Proof.Machine.execVminVs d a b ty ea eb s
  | .vmaxVs d a b ty ea eb => Sys2Proof.Machine.execVmaxVs d a b ty ea eb s
  | .vandVs d a b ty ea eb => Sys2Proof.Machine.execVandVs d a b ty ea eb s
  | .vorVs d a b ty ea eb => Sys2Proof.Machine.execVorVs d a b ty ea eb s
  | .vxorVs d a b ty ea eb => Sys2Proof.Machine.execVxorVs d a b ty ea eb s
  | .vfaddVs d a b ty ea eb => Sys2Proof.Machine.execVfaddVs d a b ty ea eb s
  | .vfsubVs d a b ty ea eb => Sys2Proof.Machine.execVfsubVs d a b ty ea eb s
  | .vfmulVs d a b ty ea eb => Sys2Proof.Machine.execVfmulVs d a b ty ea eb s
  | .vfdivVs d a b ty ea eb => Sys2Proof.Machine.execVfdivVs d a b ty ea eb s
  | .vfminVs d a b ty ea eb => Sys2Proof.Machine.execVfminVs d a b ty ea eb s
  | .vfmaxVs d a b ty ea eb => Sys2Proof.Machine.execVfmaxVs d a b ty ea eb s
  | .vfmaVs d a b ty ea eb => Sys2Proof.Machine.execVfmaVs d a b ty ea eb s
  | .vfnmaVs d a b ty ea eb => Sys2Proof.Machine.execVfnmaVs d a b ty ea eb s
  | .vcmpVs d a b rel ty ea eb => Sys2Proof.Machine.execVcmpVs d a b rel ty ea eb s
  | .tmov d t ty => Sys2Proof.Machine.execTmov d t ty s
  | .tmovToTopo a t ty ea => Sys2Proof.Machine.execTmovToTopo a t ty ea s
  | .tup d a t comb ty ea => Sys2Proof.Machine.execTup d a t comb ty ea s
  | .tdn d a t comb ty ea => Sys2Proof.Machine.execTdn d a t comb ty ea s
  | .tbc d a t m ty ea => Sys2Proof.Machine.execTbc d a t m ty ea s
  | .tdep d t => Sys2Proof.Machine.execTdep d t s
  | .tancK d t k => Sys2Proof.Machine.execTancK d t k s
  | .tancM d t m ty => Sys2Proof.Machine.execTancM d t m ty s
  | .tisanc d t b eb => Sys2Proof.Machine.execTisanc d t b eb s
  | .troot d t => Sys2Proof.Machine.execTroot d t s
  | .tdeg d t => Sys2Proof.Machine.execTdeg d t s
  | .tchk d t ty => Sys2Proof.Machine.execTchk d t ty s
  | .tctr d a t ty ea => Sys2Proof.Machine.execTctr d a t ty ea s
  | .tld t a disp ea => Sys2Proof.Machine.execTld t a disp ea s
  | .tst t a disp ea => Sys2Proof.Machine.execTst t a disp ea s
  | .anvOp a b => Sys2Proof.Machine.execAnvOp a b s
  | .anvZero a => Sys2Proof.Machine.execAnvZero a s
  | .vrsumBfp d v b => Sys2Proof.Machine.execVrsumBfp d v b s
  | .accLd v b => Sys2Proof.Machine.execAccLd v b s
  | .accSt v b => Sys2Proof.Machine.execAccSt v b s
  | .accMem a b load => Sys2Proof.Machine.execAccMem a b load s
  | .wbLoad a b => Sys2Proof.Machine.execWbLoad a b s
  | .bwDef a n => Sys2Proof.Machine.execBwDef a n s
  | .bwBind v n => Sys2Proof.Machine.execBwBind v n s
  | .bwFree n => Sys2Proof.Machine.execBwFree n s
  | .bwPop d n => Sys2Proof.Machine.execBwPop d n s
  | .bwPopNb d n => Sys2Proof.Machine.execBwPopNb d n s
  | .bwPush a n => Sys2Proof.Machine.execBwPush a n s
  | .bwWait n => Sys2Proof.Machine.execBwWait n s
  | .bwStat d n => Sys2Proof.Machine.execBwStat d n s
  | .dbPub a b n => Sys2Proof.Machine.execDbPub a b n s
  | .dbRd d n => Sys2Proof.Machine.execDbRd d n s
  | .abInit a b n => Sys2Proof.Machine.execAbInit a b n s
  | .abArrive a n => Sys2Proof.Machine.execAbArrive a n s
  | .abWait n => Sys2Proof.Machine.execAbWait n s
  | .abWaitNb n => Sys2Proof.Machine.execAbWaitNb n s
  | .bar => Sys2Proof.Machine.execBar s
  | .tlLd d a b => Sys2Proof.Machine.execTlLd d a b s
  | .tlMm d a b => Sys2Proof.Machine.execTlMm d a b s
  | .tlEw d a b op => Sys2Proof.Machine.execTlEw d a b op s
  | .tlMap d a b => Sys2Proof.Machine.execTlMap d a b s
  | .tlRed d a op col => Sys2Proof.Machine.execTlRed d a op col s
  | .tlCvt d a b => Sys2Proof.Machine.execTlCvt d a b s
  | .tlForce a b => Sys2Proof.Machine.execTlForce a b s
  | .tlSt a b r => Sys2Proof.Machine.execTlSt a b r s
  | .tlPin a => Sys2Proof.Machine.execTlPin a s
  | .tlDrop a => Sys2Proof.Machine.execTlDrop a s
  | .tlStat d a b => Sys2Proof.Machine.execTlStat d a b s
  | .tlSync pin clr => Sys2Proof.Machine.execTlSync pin clr s
  | .jobSub a b => Sys2Proof.Machine.execJobSub a b s
  | .jobWait a => Sys2Proof.Machine.execJobWait a s
  | .jobPoll a b => Sys2Proof.Machine.execJobPoll a b s
  | .jobCancel a => Sys2Proof.Machine.execJobCancel a s
  | .tmOpen a n => Sys2Proof.Machine.execTmOpen a n s
  | .tmPut a b n => Sys2Proof.Machine.execTmPut a b n s
  | .tmMark a n => Sys2Proof.Machine.execTmMark a n s
  | .tmCommit n => Sys2Proof.Machine.execTmCommit n s
  | .tmPoll d b n => Sys2Proof.Machine.execTmPoll d b n s
  | .tmAbort n => Sys2Proof.Machine.execTmAbort n s
  | .spawn a b => Sys2Proof.Machine.execSpawn a b s
  | .spawnX a b => Sys2Proof.Machine.execSpawnX a b s
  | .join a => Sys2Proof.Machine.execJoin a s
  | .waitJ a => Sys2Proof.Machine.execWaitJ a s
  | .forkL a d => Sys2Proof.Machine.execForkL a d s
  | .joinL => Sys2Proof.Machine.execJoinL s
  | .yield => Sys2Proof.Machine.execYield s
  | .exit => Sys2Proof.Machine.execExit s
  | .prio a => Sys2Proof.Machine.execPrio a s
  | .coach d => Sys2Proof.Machine.execCoach d s
  | .quench => Sys2Proof.Machine.execQuench s
  | .sabort => Sys2Proof.Machine.execSabort s
  | .brk bits => Sys2Proof.Machine.execBrk bits s
  | .producerWriteback => Sys2Proof.Machine.execProducerWriteback s
  | .vectorEntryExecute => Sys2Proof.Machine.execVectorEntryExecute s
  | .anvilQueueExecute die cell => Sys2Proof.Machine.execAnvilQueueExecute die cell s
  | .registerSoftError place kind => Sys2Proof.Machine.execRegisterSoftError place kind s
  | .streamFetch n => Sys2Proof.Machine.execStreamFetch n s
  | .taskDispatch die cell => Sys2Proof.Machine.execTaskDispatch die cell s
  | .stripBudgetExpiry => Sys2Proof.Machine.execStripBudgetExpiry s
  | .cancelBudgetExpiry => Sys2Proof.Machine.execCancelBudgetExpiry s
  | .wfeTimeout => Sys2Proof.Machine.execWfeTimeout s
  | .engineJobStart die card => Sys2Proof.Machine.execEngineJobStart die card s
  | .deliveryArrival die card => Sys2Proof.Machine.execDeliveryArrival die card s
  | .engineJobComplete die card => Sys2Proof.Machine.execEngineJobComplete die card s
  | .watchdogExpiry die card => Sys2Proof.Machine.execWatchdogExpiry die card s
  | .codecRowPublish die card rows => Sys2Proof.Machine.execCodecRowPublish die card rows s
  | .temperPhaseTwo die slot => Sys2Proof.Machine.execTemperPhaseTwo die slot s
  | .collectiveHop die card hop => Sys2Proof.Machine.execCollectiveHop die card hop s
  | .collectiveCommit die card tag => Sys2Proof.Machine.execCollectiveCommit die card tag s
  | .collectiveAbort die card tag => Sys2Proof.Machine.execCollectiveAbort die card tag s
  | .spawnXReceive die packet => Sys2Proof.Machine.execSpawnXReceive die packet s
  | .spawnXAck number node refusal => Sys2Proof.Machine.execSpawnXAck number node refusal s
  | .spawnXAckTimeout number => Sys2Proof.Machine.execSpawnXAckTimeout number s
  | .flitReceive die port flit trailer => Sys2Proof.Machine.execFlitReceive die port flit trailer s
  | .portFail die port => Sys2Proof.Machine.execPortFail die port s
  | .linkUp die hostMax => Sys2Proof.Machine.execLinkUp die hostMax s
  | .launch link hdr body => Sys2Proof.Machine.execLaunch link hdr body s
  | .cancel link hdr => Sys2Proof.Machine.execCancel link hdr s
  | .windowOpen link hdr window base len => Sys2Proof.Machine.execWindowOpen link hdr window base len s
  | .windowClose link hdr window => Sys2Proof.Machine.execWindowClose link hdr window s
  | .slotRelease link hdr die cell slot => Sys2Proof.Machine.execSlotRelease link hdr die cell slot s
  | .quote link hdr nonce => Sys2Proof.Machine.execQuote link hdr nonce s
  | .island link hdr number voltage frequency => Sys2Proof.Machine.execIsland link hdr number voltage frequency s
  | .islandChangeComplete number => Sys2Proof.Machine.execIslandChangeComplete number s
  | .qgo die nonce => Sys2Proof.Machine.execQgo die nonce s
  | .thermalThrottle die why => Sys2Proof.Machine.execThermalThrottle die why s
  | .thermalTrip die temp => Sys2Proof.Machine.execThermalTrip die temp s
  | .dieReset die => Sys2Proof.Machine.execDieReset die s
  | .startUp die plan => Sys2Proof.Machine.execStartUp die plan s
  | .notAnInstruction word cause => Sys2Proof.Machine.execNotAnInstruction word cause s
  | .instructionFetchFault cause => Sys2Proof.Machine.execInstructionFetchFault cause s
  | .outputStreamPerform n => Sys2Proof.Machine.execOutputStreamPerform n s
  | .ewetricLinkUp die port generation => Sys2Proof.Machine.execEwetricLinkUp die port generation s

end Sys2Proof.Machine
end

