-- ==== Sys2Proof/Machine/Fetch.lean ====
section
/-!
DEFINITION. Fetching and decoding the instruction at pc (03 R82, 16 R336), the work that goes on beside the
instructions, and how an instruction is placed for the next step. The default order of steps is the model's (log 49).
-/
namespace Sys2Proof.Machine

noncomputable section

/-- The cause of a word that is no instruction (03 R82); 0 for one that is. -/
def badWord : Decoded → BitVec 8
  | .ok _ => 0
  | .illegal => 0x01
  | .reserved => 0x02
  | .misaligned => 0x07

/-- An island of a kind is changing. -/
def islandChanging (s : State) (p : Island → Bool) : Bool := s.changing.any fun r => p (islandOf r.number)

/-- A unit of a die's own group is changing. -/
def unitChanging (s : State) (d : DieNo) (u : IslandUnit) : Bool :=
  islandChanging s fun
    | .own e k => e == d && islandUnit k == u
    | _ => false

/-- The current hart's next instruction waits for the change of an island that carries it out (22 R440). DEDUCED (log 46):
tile instructions, which can force, wait for the lanes and the anvil of the hart's cell (18 R360); those of merge slots and
jobs for the die's uncore. -/
def instrWaits (s : State) : Instr → Bool
  | .tlLd .. | .tlMm .. | .tlEw .. | .tlMap .. | .tlRed .. | .tlCvt .. | .tlForce .. | .tlSt .. | .tlPin .. | .tlSync .. =>
    islandChanging s fun k => k == .lanes s.hart.die s.hart.cell || k == .anvil s.hart.die s.hart.cell
  | .tmOpen .. | .tmPut .. | .tmMark .. | .tmCommit .. | .tmPoll .. | .tmAbort .. | .jobSub .. | .jobWait .. | .jobPoll ..
  | .jobCancel .. => unitChanging s s.hart.die .uncore
  | _ => false

/-- The word at pc is decoded and executed. -/
def runWord (w : Nat) (s : State) : Host.Outcome State Fault Refusal :=
  match decode w with
  | .ok i => if instrWaits s i then .next s else exec i s
  | d => exec (.notAnInstruction (BitVec.ofNat 32 w) (badWord d)) s

/-- The current hart's next instruction: fetched, decoded and executed. -/
def issue (s : State) : Host.Outcome State Fault Refusal :=
  match fetchPlace s s.hart with
  | .error c => exec (.instructionFetchFault c) s
  | .ok p => runWord (s.mem.readLe p.pa 4) (tlbFill s s.hart.agent s.hart.pc p.leaf)

/-- The current hart may send an instruction: its cell runs, and no entry holds back the next one (02 R41). -/
def mayIssue (s : State) : Bool :=
  cellRuns s s.hart.die s.hart.cell && !s.hart.vq.any fun e => synchronising e.instr

/-- A waiting hart looks again at what it waits for: its instruction is executed again. Where its word can no longer be
fetched it goes on waiting, and takes a cancel. -/
def lookAgain (s : State) : Host.Outcome State Fault Refusal :=
  match fetchPlace s s.hart with
  | .error _ => if s.hart.cancel then .next s.takeCancel else .next s
  | .ok p => runWord (s.mem.readLe p.pa 4) s

/-! ## Work beside the instructions -/

/-- A number of local cycles has passed on a die since its CYC was `start`. -/
def passedOn (s : State) (d : DieNo) (start n : Word) : Bool := n ≤ (s.dieOf d).cyc - start

/-- The same of the current hart's die. -/
def passed (s : State) (start n : Word) : Bool := passedOn s s.hart.die start n

/-- The current hart's limits that have passed: of a wfe, of a strip budget, of a pending cancel. -/
def limitsPassed (s : State) : List Instr :=
  let h := s.hart
  (match h.status, h.mark with
    | .waiting, .limit start n => if passed s start n then [.wfeTimeout] else []
    | _, _ => []) ++
  (match h.budget with
    | some start => if passed s start (h.stripmax.zeroExtend 64) then [.stripBudgetExpiry] else []
    | none => []) ++
  (if h.cancel ∧ passed s h.cancelAt (h.stripmax.zeroExtend 64) then [.cancelBudgetExpiry] else [])

/-- The current hart's limits, producers, streams and lanes. -/
def hartWork (s : State) : List Instr :=
  let h := s.hart
  if h.status = .free ∨ h.status = .haltedDouble ∨ !cellRuns s h.die h.cell then []
  else
    limitsPassed s ++ (if h.producers = [] then [] else [.producerWriteback]) ++
    ((List.finRange 16).filter fun n => h.handles[n].busy).map .outputStreamPerform ++
    (if h.vq = [] then [] else [.vectorEntryExecute]) ++
    ((List.finRange 16).filter fun n => h.handles[n].bound && (h.vq != [] || h.handles[n].held == [])).map .streamFetch

/-- A cell has entries, runnable harts or carriages reserved. -/
def cellBusy (s : State) (p : DieNo × CellNo) : Bool :=
  let x := s.cellOf p.1 p.2
  x.claims != [] || x.queues.toList.any (fun q => q != []) ||
    s.allHarts.any fun h => h.status == .runnable && h.die == p.1 && h.cell == p.2

/-- The cells' anvils and schedulers. -/
def cellWork (s : State) : List Instr :=
  allCells.flatMap fun p =>
    if !cellRuns s p.1 p.2 then []
    else
      (if (s.cellOf p.1 p.2).anvil = [] then [] else [.anvilQueueExecute p.1 p.2]) ++
      (if cellBusy s p then [.taskDispatch p.1 p.2] else [])

/-- What a collective member may do: take the oldest message of its module, or as rank 0 commit. -/
def memberWork (s : State) (d : DieNo) (c : Card) : List Instr :=
  match c.group with
  | none => []
  | some q =>
    (match s.nextFor d q with
      | some { msg := .hop h, .. } => [.collectiveHop d c.no h]
      | some { msg := .commit t, .. } => [.collectiveCommit d c.no t]
      | some { msg := .abort t, .. } => [.collectiveAbort d c.no t]
      | none => []) ++
    if q.rank = 0 ∧ q.received = q.expected c then [.collectiveCommit d c.no q.tag] else []

/-- A card's watchdog, start, deliveries, messages and completion. -/
def cardWork (s : State) (d : DieNo) (c : Card) : List Instr :=
  if c.state = .done then []
  else
    (if c.watched && passedOn s d c.start c.wdog then [.watchdogExpiry d c.no] else []) ++
    (if c.rowsToPublish then [.codecRowPublish d c.no c.rows] else []) ++ [.engineJobStart d c.no, .deliveryArrival d c.no] ++ memberWork s d c ++ [.engineJobComplete d c.no]

/-- The dies' engines, temper units and ports. -/
def dieWork (s : State) : List Instr :=
  (List.finRange 4).flatMap fun d =>
    let x := s.dieOf d
    if x.stopped then []
    else
      x.cards.flatMap (cardWork s d) ++
      ((List.finRange 16).filter fun n => x.slots[n].pending != []).map (.temperPhaseTwo d) ++
      ((List.finRange 8).filter fun n => x.ports[n].kept.any fun k => Config.maxRetries ≤ k.tries).map (.portFail d)

/-- The module's limits that have passed: of a spawn.x packet without an answer, and of an island's change. -/
def moduleWork (s : State) : List Instr :=
  ((s.inFlight.filter fun f => passedOn s f.src f.start (BitVec.ofNat 64 Config.ackCycles)).map
    fun f => .spawnXAckTimeout f.number) ++
  (s.changing.filter fun r => passedOn s (islandOf r.number).die r.start (BitVec.ofNat 64 Config.islandCycles)).map
    fun r => .islandChangeComplete r.number

/-! ## What holds an event up (22 R440, R441) -/

/-- The cell that makes an event. -/
def cellOfEvent (s : State) : Instr → Option (DieNo × CellNo)
  | .producerWriteback | .vectorEntryExecute | .streamFetch _ | .outputStreamPerform _ | .stripBudgetExpiry
  | .cancelBudgetExpiry | .wfeTimeout | .registerSoftError .. => some (s.hart.die, s.hart.cell)
  | .anvilQueueExecute d c | .taskDispatch d c => some (d, c)
  | _ => none

/-- An event that the module's units make or take only after it has started (22 R435). -/
def startedEvent : Instr → Bool
  | .engineJobStart .. | .deliveryArrival .. | .engineJobComplete .. | .watchdogExpiry .. | .codecRowPublish ..
  | .temperPhaseTwo .. | .collectiveHop .. | .collectiveCommit .. | .collectiveAbort .. | .spawnXReceive .. | .spawnXAck ..
  | .spawnXAckTimeout .. => true
  | _ => false

/-- The die whose unit an event is of. -/
def dieOfEvent (s : State) : Instr → Option DieNo
  | .engineJobStart d _ | .deliveryArrival d _ | .engineJobComplete d _
  | .watchdogExpiry d _ | .codecRowPublish d _ _ | .temperPhaseTwo d _ | .collectiveHop d _ _ | .collectiveCommit d _ _
  | .collectiveAbort d _ _ | .spawnXReceive d _ | .flitReceive d _ _ _ | .portFail d _ | .linkUp d _
  | .ewetricLinkUp d _ _ | .launch d _ _ | .cancel d _ | .windowOpen d _ _ _ _ | .windowClose d _ _
  | .slotRelease d _ _ _ _ | .quote d _ _ | .island d _ _ _ _ | .qgo d _ | .thermalThrottle d _ | .thermalTrip d _ =>
    some d
  | .spawnXAck n _ _ | .spawnXAckTimeout n => (s.packet n).map (·.src)
  | .islandChangeComplete n => some (islandOf n).die
  | _ => none

/-- The engine of a card is changing. -/
def engineChanging (s : State) (d : DieNo) (no : Nat) : Bool :=
  unitChanging s d (if (s.card d no).any fun c => c.kind == 3 then .codec else .uncore)

/-- An event waits for the change of an island whose lanes, anvil, engine or link makes it. -/
def waitsForIsland (s : State) : Instr → Bool
  | .vectorEntryExecute => islandChanging s (· == .lanes s.hart.die s.hart.cell)
  | .anvilQueueExecute d c => islandChanging s (· == .anvil d c)
  | .engineJobStart d n | .deliveryArrival d n | .engineJobComplete d n | .codecRowPublish d n _ | .collectiveHop d n _
  | .collectiveCommit d n _ | .collectiveAbort d n _ => engineChanging s d n
  | .temperPhaseTwo d _ => unitChanging s d .uncore
  | .flitReceive d n _ _ => unitChanging s d (.port n)
  | .launch d _ _ | .cancel d _ | .windowOpen d _ _ _ _ | .windowClose d _ _ | .slotRelease d _ _ _ _ | .quote d _ _
  | .island d _ _ _ _ => unitChanging s d .hostLink
  | _ => false

/-- An event cannot happen now: its cell does not run, its die has stopped, the module has not started, or its island is
changing. -/
def heldUp (s : State) (i : Instr) : Bool :=
  (cellOfEvent s i).any (fun p => !cellRuns s p.1 p.2) || (dieOfEvent s i).any (fun d => (s.dieOf d).stopped) ||
    (startedEvent i && s.mode == .starting) || waitsForIsland s i

/-- An event happens, or nothing does. -/
def tryEvent (s : State) (i : Instr) : Host.Outcome State Fault Refusal := if heldUp s i then .next s else exec i s

/-- The first of some events that changes something. -/
def firstOf (s : State) : List Instr → Option State
  | [] => none
  | i :: rest =>
    match tryEvent s i with
    | .next t => if t = s then firstOf s rest else some t
    | _ => firstOf s rest

/-- The work beside the instructions that goes on now, if there is any. -/
def background (s : State) : Option State := firstOf s (hartWork s ++ cellWork s ++ dieWork s ++ moduleWork s)

/-! ## Turns -/

/-- An event that the agenda may name: no instruction, and not what a fetch or a decoding comes to. -/
def isEvent : Instr → Bool
  | .notAnInstruction .. | .instructionFetchFault .. => false
  | i => (encode i).isNone

/-- A message's units arrive on a link (22 R429). -/
def takeUnits (s : State) (link : DieNo) (units : List Block) : Host.Outcome State Fault Refusal :=
  if units.length ≠ (msgHdr units).unitsM1.toNat + 1 then .next s
  else
    match messageInstr link units with
    | some i => tryEvent s i
    | none => if (s.dieOf link).stopped then .next s else receiveUnknown link units s

/-- The tile instruction that the current hart is carrying out has made some elements (18 R374). -/
def partDone (s : State) (l : List (Nat × Nat × Nat)) : Option State :=
  if !mayIssue s ∨ s.hart.status ≠ .running then none
  else
    match fetchPlace s s.hart with
    | .error _ => none
    | .ok p =>
      match decode (s.mem.readLe p.pa 4) with
      | .ok i => if instrWaits s i then none else tileProgress s i l
      | _ => none

/-- The same of some harts, by their names. -/
def partsDone (s : State) : List (Nat × List (Nat × Nat × Nat)) → Option State
  | [] => some s
  | p :: rest => do
    let s1 ← s.focusOn p.1
    let s2 ← partDone s1 p.2
    partsDone s2 rest

/-- A save falls during tile instructions: what they have made is kept (18 R374), and their harts are saved by an event or
by the current hart's next instruction. Where these do not save every one of them, nothing is done. -/
def saveDuring (s : State) (parts : List (Nat × List (Nat × Nat × Nat))) (save : State → Host.Outcome State Fault Refusal) :
    Host.Outcome State Fault Refusal :=
  match partsDone s parts with
  | none => .next s
  | some s1 =>
    match s1.focusOn s.hart.hid with
    | none => .next s
    | some s2 =>
      match save s2 with
      | .next t => if parts.all fun p => (savedHarts t).any fun h => h.hid == p.1 then .next t else .next s
      | o => o

/-- The current hart's next act. -/
def issueNow (s : State) : Host.Outcome State Fault Refusal :=
  if !mayIssue s then .next s
  else
    match s.hart.status with
    | .running => issue s
    | .waiting => lookAgain s
    | _ => .next s

/-- One act of the agenda; one that cannot be done now does nothing. -/
def act (s : State) : Act → Host.Outcome State Fault Refusal
  | .event i => if isEvent i then tryEvent s i else .next s
  | .issue => issueNow s
  | .focus hid => happen s (s.focusOn hid)
  | .leafRead slot i j => happen s (if cellRuns s s.hart.die s.hart.cell then readEarly s slot i j else none)
  | .message link units => takeUnits s link units
  | .sideband d offset wide value => if (s.dieOf d).stopped then .next s else sidebandWrite s d offset wide value
  | .resendSpawn n =>
    if s.mode = .starting ∨ (s.packet n).any (fun f => (s.dieOf f.src).stopped) then .next s else .next (s.resendSpawn n)
  | .firmwareIsland n step => if (s.dieOf (islandOf n).die).stopped then .next s else .next (s.requestIsland n step)
  | .saveDuring parts save =>
    saveDuring s parts fun t =>
      match save with
      | none => issueNow t
      | some i => if isEvent i then tryEvent t i else .next t

/-- The end of a turn: a local cycle passes once every context has had its turn, and the next context follows. -/
def State.endTurn (s : State) : State :=
  (if s.harts.all fun g => s.hart.hid ≤ g.hid then s.tick else s).rotate

/-- The next context's turn comes after a step. -/
def thenRotate : Host.Outcome State Fault Refusal → Host.Outcome State Fault Refusal
  | .next t => .next t.endTurn
  | o => o

/-- The current context's turn. -/
def turn (s : State) : Host.Outcome State Fault Refusal := thenRotate (issueNow s)

/-! ## Placing an instruction -/

/-- The page, its entry and the place of an instruction placed from outside: V and X, page 1 of near memory. -/
def placedPc : Word := 0x1000
def placedEntry (asid : BitVec 16) : TlbEntry := { asid := asid, vpage := 1, log := 0, entry := 0x1009 }

/-- A started module, in which a cell runs. -/
def State.runCell (s : State) (d : DieNo) (c : CellNo) : State :=
  if cellRuns s d c then s
  else
    { s.setDie d { s.dieOf d with stopped := false } with
      mode := .normal
      record := { s.record with cells := s.record.cells.set d (s.record.cells[d] ||| (1#48 <<< c.val)) } }

/-- The state with the current context running at a word in memory that its next fetch reads, and no island changing. -/
def placeWord (s : State) (w : Nat) : State :=
  let h := s.hart
  let x := s.cellOf h.die h.cell
  let s1 := (s.runCell h.die h.cell).setCell h.die h.cell { x with tlb := placedEntry h.asid :: x.tlb }
  let s2 := s1.storeLe 0x1000 4 w
  { s2 with
    agenda := [.issue]
    changing := []
    hart := { h with
      status := .running
      pc := placedPc
      vq := h.vq.filter fun e => !synchronising e.instr } }

end

end Sys2Proof.Machine
end

