-- ==== Sys2Proof/Machine/Step.lean ====
section
/-!
DEFINITION. One step of the module, and an instruction placed where the next step fetches it.
-/
namespace Sys2Proof.Machine

noncomputable section

/-- One step: the agenda's first act; without one, work beside the instructions that can go on; without any, the
current context's turn. A module all of whose dies have stopped does nothing. -/
def step (s : State) : Host.Outcome State Fault Refusal :=
  match s.agenda with
  | a :: rest => act { s with agenda := rest } a
  | [] =>
    if s.dies.toList.all (fun d => d.stopped) then .fault .stopped
    else
      match background s with
      | some t => .next t
      | none => turn s

/-- The state with an instruction of the table's bits where `step` fetches its next instruction. -/
def State.withFetchWord (s : State) (nbits w : Nat) : State := placeWord s (w % 2 ^ nbits % 2 ^ 32)

end

end Sys2Proof.Machine
end

