-- ==== Sys2Proof/Safety.lean ====
section
/-!
DEFINITION. The terms of the statements: steps that answer, canonical data, when an operand is ready, and the spec's
tables of results, instruction by instruction.
-/
namespace Sys2Proof.Machine

/-! ## Steps and data -/

/-- A step answers a next state: it neither stops with a fault nor is refused. -/
def Completes (o : Host.Outcome State Fault Refusal) : Prop := ∃ t, o = .next t

/-- A cell's stores are in canonical form. -/
def Cell.canonical (x : Cell) : Bool := sparseWf 0 x.acc && sparseWf 0 x.wb

/-- Memory and every cell's stores are in canonical form, so that equal contents are equal data. -/
def State.canonical (s : State) : Bool := s.mem.wf && s.cells.toList.all Cell.canonical

/-- Two states hold the same byte at every physical place. -/
def SameMemory (s t : State) : Prop := ∀ a, s.mem.read a = t.mem.read a

/-- Two states hold the same byte at every physical place but the n from a on. -/
def SameMemoryBut (s t : State) (a n : Nat) : Prop := ∀ x, x < a ∨ a + n ≤ x → s.mem.read x = t.mem.read x

/-! ## Operands and turns -/

/-- Scalar source r gives x: it is s0, or full, sound and holding x (02 R22, R35, R36; 16 R335). -/
def Hart.Gives (h : Hart) (r : SReg) (x : Word) : Prop :=
  (r = 0 ∧ x = 0) ∨ (r ≠ 0 ∧ h.emptyS r = false ∧ h.spoison[r] = false ∧ x = h.sreg[r])

/-- Scalar destination d is full (02 R37). -/
def Hart.Full (h : Hart) (d : SReg) : Prop := h.emptyS d = false

/-- Every element that a quench has released to an output stream has been performed, or one is held at a fault of its
own (10 R206, R212). -/
def Hart.OutputsDone (h : Hart) : Prop :=
  ∀ n : HReg, h.handles[n].bound = true → h.handles[n].released = [] ∨ ∃ f, h.handles[n].fault = some f ∧ f.1 ≠ 0x41

/-- No vector memory access of the hart is outstanding: no entry of the vector queue has an address still to issue (04
R105), and no released element is still to be performed (13 R253). -/
def Hart.NoVectorMemory (h : Hart) : Prop := (∀ e ∈ h.vq, vectorMemory e.instr = false) ∧ h.OutputsDone

/-- A result on its way through the synchronising read queue, after those that entries of the vector queue owe (02 R35,
R40); s0 discards it. -/
def Hart.owed (h : Hart) (d : SReg) (x : Word) : Hart :=
  let before := (h.vq.filter fun e => (scalarResult e.instr).isSome).length
  if d = 0 then h else { h with producers := h.producers ++ [{ dest := .scalar d x, queued := true, behind := before }] }

/-- No leaf of the hart's hearth is live: a store snapshots nothing (18 R368). -/
def Hart.NoLiveLeaf (h : Hart) : Prop := ∀ p ∈ h.hearth.inSlots, p.1.live = false

/-- The state with the current hart changed. -/
def State.onlyHart (s : State) (f : Hart → Hart) : State := { s with hart := f s.hart }

/-- The trap t with the handler's first instruction fetchable: what stands where after taking it (16 R318). -/
def Trapped (s : State) (t : Trap) (u : State) : Prop :=
  u.hart.trap.tcause =
      { pmsel := s.hart.msel, rh := false, plv := s.hart.priv.cur, done := t.done, hnd := t.hnd, sub := t.sub, cause := t.cause } ∧
    u.hart.trap.tpc = s.hart.pc &&& ~~~3 ∧ u.hart.trap.tqpos = 0 ∧ u.hart.trap.taddr = t.addr ∧
    u.hart.trap.tnode = t.node ∧ u.hart.trap.tnpc = t.npc &&& ~~~3 ∧
    (∀ c : Fin 32, u.hart.tcnt[c] = BitVec.ofNat 32 (t.counts.getD c.val 0)) ∧
    u.hart.trap.tvec = s.hart.trap.tvec ∧ u.hart.trap.tscr = s.hart.trap.tscr ∧
    u.hart.pc = (if s.hart.trap.tvec ≠ 0 then s.hart.trap.tvec else (s.cellOf s.hart.die s.hart.cell).defaultVector) ∧
    u.hart.msel = 0x0F ∧ u.hart.priv.cur = (if s.hart.priv.cur < 2 then 2 else s.hart.priv.cur) ∧
    u.hart.sreg = s.hart.sreg ∧ u.hart.cbit = s.hart.cbit ∧ u.hart.vreg = s.hart.vreg ∧ u.hart.vq = s.hart.vq ∧
    u.hart.vl = s.hart.vl ∧ u.hart.fflags = s.hart.fflags ∧ u.mem = s.mem ∧ u.cells = s.cells ∧ u.dies = s.dies

/-- A trap of the current hart would find its handler: the first instruction at the handler's address can be fetched in
the level the trap enters (16 R318, R334), and the hart runs. -/
def HandlerReady (s : State) (t : Trap) : Prop :=
  s.hart.status = .running ∧
    ∃ p, fetchPlace s (s.hart.enterTrap t s.hart.pc 0 false (handlerOf s s.hart)) = .ok p

/-- An empty-action bit covers a scalar source of an instruction (02 R36): while the source is empty the instruction waits
where the bit is 0, and traps with cause 0x04 where it is 1. -/
def CoversEmpty (s : State) (r : SReg) (act : Bool) (i : Instr) : Prop :=
  s.hart.emptyS r = true →
    (act = false → exec i s = .next s) ∧
    let t : Trap := { cause := 0x04, addr := BitVec.ofNat 64 r.val }
    (act = true → HandlerReady s t → ∃ u, exec i s = .next u ∧ Trapped s t u)

/-! ## Scalar tables (04 R86 to R92) -/

/-- Quotient of two signed values of n bits with the cases of 04 R87. -/
def quotientS (n : Nat) (x y : Int) : Int :=
  if y = 0 then (if x < 0 then -2 ^ (n - 1) else 2 ^ (n - 1) - 1)
  else min (x.tdiv y) (2 ^ (n - 1) - 1)

/-- Majors 0x01, as the table of 04 R86 gives s[d]. -/
def scalarTwoSource : List ((SReg → SReg → SReg → Bool → Bool → Instr) × (Word → Word → Word)) := [
  (.add, fun x y => x + y), (.sub, fun x y => x - y),
  (.and, fun x y => x &&& y), (.or, fun x y => x ||| y), (.xor, fun x y => x ^^^ y),
  (.sll, fun x y => x <<< (y.toNat % 64)), (.srl, fun x y => x >>> (y.toNat % 64)),
  (.sra, fun x y => x.sshiftRight (y.toNat % 64)),
  (.mul, fun x y => BitVec.ofNat 64 (x.toNat * y.toNat)),
  (.mulh, fun x y => BitVec.ofInt 64 (x.toInt * y.toInt / 2 ^ 64)),
  (.mulhN, fun x y => BitVec.ofNat 64 (x.toNat * y.toNat / 2 ^ 64)),
  (.div, fun x y => BitVec.ofInt 64 (quotientS 64 x.toInt y.toInt)),
  (.divN, fun x y => if y = 0 then BitVec.allOnes 64 else BitVec.ofNat 64 (x.toNat / y.toNat)),
  (.rem, fun x y => if y = 0 then x else BitVec.ofInt 64 (x.toInt.tmod y.toInt)),
  (.remN, fun x y => if y = 0 then x else BitVec.ofNat 64 (x.toNat % y.toNat)),
  (.min, fun x y => BitVec.ofInt 64 (min x.toInt y.toInt)), (.max, fun x y => BitVec.ofInt 64 (max x.toInt y.toInt)),
  (.minN, fun x y => BitVec.ofNat 64 (min x.toNat y.toNat)), (.maxN, fun x y => BitVec.ofNat 64 (max x.toNat y.toNat)),
  (.add32, fun x y => ((x + y).truncate 32).signExtend 64), (.sub32, fun x y => ((x - y).truncate 32).signExtend 64)]

/-- The value of a relation between integers (03 R63). -/
def relHolds : Rel → Int → Int → Prop
  | .eq, x, y => x = y
  | .ne, x, y => x ≠ y
  | .lt, x, y => x < y
  | .ge, x, y => y ≤ x
  | .gt, x, y => y < x
  | .le, x, y => x ≤ y

/-- Major 0x0A, two sources: the operation in the type's format under FRM (04 R97 to R99). -/
def scalarFloatTwo : List ((SReg → SReg → SReg → SFltTy → Bool → Bool → Instr) × (Fmt → RMode → Nat → Nat → Nat × FFlags)) := [
  (.fadd, fun f m x y => roundWith f m (addX m (unpack f x) (unpack f y))),
  (.fsub, fun f m x y => roundWith f m (addX m (unpack f x) (unpack f y).neg)),
  (.fmul, fun f m x y => roundWith f m (mulX (unpack f x) (unpack f y))),
  (.fdiv, fun f m x y => roundWith f m (quotX f (unpack f x) (unpack f y))),
  (.fmin, fun f _ x y => fpMinMax f false x y), (.fmax, fun f _ x y => fpMinMax f true x y),
  (.fcopys, fun f _ x y => (withSign f (signOf f y) x, 0)), (.fcopyn, fun f _ x y => (withSign f (!signOf f y) x, 0)),
  (.fxors, fun f _ x y => (withSign f (signOf f x != signOf f y) x, 0))]

/-- Major 0x0A, one source: s[d] and the flags from the 64 bits of s[a], by type and mode (04 R98, R100). -/
def scalarFloatOne : List ((SReg → SReg → SFltTy → Bool → Instr) × (SFltTy → RMode → Word → Word × FFlags)) := [
  (.fsqrt, fun t m x => fResult (roundWith (sfltFmt t) m (sqrtX (sfltFmt t) (unpack (sfltFmt t) (fBits t x))))),
  (.fcvti, fun t m x =>
    let r := fpToInt true 64 m (unpack (sfltFmt t) (fBits t x))
    (BitVec.ofInt 64 r.1, r.2)),
  (.fcvtn, fun t m x =>
    let r := fpToInt false 64 m (unpack (sfltFmt t) (fBits t x))
    (BitVec.ofInt 64 r.1, r.2)),
  (.icvtf, fun t m x => fResult (roundF (sfltFmt t) m (ofInt x.toInt))),
  (.ncvtf, fun t m x => fResult (roundF (sfltFmt t) m (ofInt x.toNat))),
  (.fcvtf, fun t m x =>
    let v := unpack (sfltFmt (otherTy t)) (fBits (otherTy t) x)
    fResult (roundWith (sfltFmt t) m (v, nvIf v.isSnan)))]

/-- Atomics with s[b]: the value written for n bits, the old value and the low bits of s[b] (04 R106, R107). -/
def atomicTable : List ((SReg → SReg → SReg → ASize → Scope → Bool → Bool → Instr) × (Nat → Nat → Nat → Nat)) := [
  (.amoSwap, fun _ _ y => y), (.amoAdd, fun n x y => (x + y) % 2 ^ n),
  (.amoAnd, fun _ x y => x &&& y), (.amoOr, fun _ x y => x ||| y), (.amoXor, fun _ x y => x ^^^ y),
  (.amoMin, fun n x y => if toSigned n y < toSigned n x then y else x),
  (.amoMax, fun n x y => if toSigned n x < toSigned n y then y else x),
  (.amoMinN, fun _ x y => min x y), (.amoMaxN, fun _ x y => max x y)]

/-! ## Control registers (02 R42 to R52; 06 R144, R149, R150; 10 R205; 11 R223; 16 R319; 18 R355, R356) -/

/-- Control registers that scalar-side instructions write: number, lowest level that reads, and value. -/
def scalarSideReads : List (Nat × Nat × (State → Word)) := [
  (0x001, 0, fun s => s.hart.msel.zeroExtend 64), (0x002, 0, fun s => s.hart.vstr),
  (0x003, 0, fun s => BitVec.ofNat 64 (s.hart.grant.toNat * 2 ^ 32 + (carriages s.hart.grant).length)),
  (0x004, 0, fun s => BitVec.ofNat 64 s.hart.vew.code),
  (0x005, 2, fun s => BitVec.ofNat 64 (s.hart.nextCarr.toNat * 2 ^ 32 + if s.hart.nextPend then 2 ^ 31 else 0)),
  (0x006, 2, fun s => BitVec.ofNat 64
    (s.hart.part.toNat * 2 ^ 32 + ((s.cellOf s.hart.die s.hart.cell).start ||| 1).toNat)),
  (0x008, 0, fun s => s.hart.frm.zeroExtend 64), (0x012, 0, fun s => s.hart.tctl.zeroExtend 64),
  (0x018, 0, fun s => s.hart.actl.zeroExtend 64), (0x020, 0, fun s => s.hart.hctl),
  (0x040, 0, fun s => BitVec.ofNat 64 (s.hart.ceil.toNat * 2 ^ 16 + s.hart.prio.toNat)),
  (0x041, 0, fun s => s.hart.job.zeroExtend 64), (0x042, 0, fun s => BitVec.ofNat 64 s.hart.slot.val),
  (0x043, 0, fun s => BitVec.ofNat 64 s.hart.cell.val), (0x044, 0, fun s => BitVec.ofNat 64 s.hart.die.val),
  (0x045, 0, fun s => s.record.nodeid.zeroExtend 64), (0x047, 0, fun s => s.hart.stripmax.zeroExtend 64),
  (0x100, 2, fun s => s.hart.trap.tvec), (0x101, 2, fun s => s.hart.trap.tcause.word), (0x102, 2, fun s => s.hart.trap.tpc),
  (0x103, 2, fun s => s.hart.trap.tqpos.zeroExtend 64), (0x104, 2, fun s => s.hart.trap.taddr),
  (0x105, 2, fun s => s.hart.trap.tnode.zeroExtend 64), (0x106, 2, fun s => s.hart.trap.tnpc),
  (0x107, 2, fun s => s.hart.trap.tscr), (0x180, 0, fun s => BitVec.ofNat 64
    ((if s.hart.priv.ga then 2 ^ 15 else 0) + s.hart.priv.ppl.toNat * 2 ^ 13 + s.hart.priv.pmsel.toNat * 2 ^ 8 +
      s.hart.priv.cur.toNat)),
  (0x181, 2, fun s => s.hart.gatebase), (0x182, 2, fun s => s.hart.asid.zeroExtend 64),
  (0x183, 2, fun s => (s.cellOf s.hart.die s.hart.cell).sqbase)]

/-- Control registers that vector-side instructions write: their reads return through the read queue (02 R35). -/
def vectorSideReads : List (Nat × Nat × (State → Word)) := [
  (0x000, 0, fun s => BitVec.ofNat 64 s.hart.vl), (0x009, 0, fun s => s.hart.fflags.zeroExtend 64),
  (0x010, 0, fun s => s.hart.tstat.zeroExtend 64), (0x011, 0, fun s => s.hart.tgrp.zeroExtend 64),
  (0x021, 0, fun s => s.hart.hstat),
  (0x030, 0, fun s => BitVec.ofNat 64 (s.hart.qimpl * 2 ^ 32 + s.hart.qdisc * 2 ^ 16 + s.hart.buffer.length))]

/-- Writes by cwr that touch one field of the hart: number, lowest level that writes, which values are taken, and the
hart with the value; the others trap with cause 0x02. -/
def plainWrites : List (Nat × Nat × (Word → Prop) × (Word → Hart → Hart)) := [
  (0x001, 0, fun v => v.toNat < 32 ∧ ¬(8 ≤ v.toNat % 16 ∧ v.toNat % 16 ≤ 14), fun v h => { h with msel := v.truncate 5 }),
  (0x002, 0, fun _ => True, fun v h => { h with vstr := v }),
  (0x005, 2, fun v => v.toNat % 2 ^ 31 = 0, fun v h =>
    { h with nextCarr := v.extractLsb' 32 32, nextPend := v.getLsbD 31 }),
  (0x008, 0, fun v => v.toNat < 4, fun v h => { h with frm := v.truncate 2 }),
  (0x012, 0, fun v => v.toNat < 2 ^ 32 ∧ v.toNat % 2 ^ 16 < 8, fun v h => { h with tctl := v.truncate 32 }),
  (0x018, 0, fun v => v.toNat < 2 ^ 17, fun v h => { h with actl := v.truncate 17 }),
  (0x011, 0, fun v => 1 ≤ v.toNat ∧ v.toNat ≤ 8, fun v h => { h with tgrp := v.truncate 4 }),
  (0x100, 2, fun v => v.toNat % 4 = 0, fun v h => { h with trap := { h.trap with tvec := v } }),
  (0x102, 2, fun v => v.toNat % 4 = 0, fun v h => { h with trap := { h.trap with tpc := v } }),
  (0x103, 2, fun v => v.toNat < 64, fun _ h => h),
  (0x104, 2, fun _ => True, fun v h => { h with trap := { h.trap with taddr := v } }),
  (0x105, 2, fun v => v.toNat < 128, fun v h => { h with trap := { h.trap with tnode := v.truncate 7 } }),
  (0x106, 2, fun v => v.toNat % 4 = 0, fun v h => { h with trap := { h.trap with tnpc := v } }),
  (0x107, 2, fun _ => True, fun v h => { h with trap := { h.trap with tscr := v } }),
  (0x181, 2, fun v => v.toNat / 2 ^ 11 % 2 = 0 ∧ v.toNat % 2 ^ 11 ≤ 1024, fun v h => { h with gatebase := v })]

/-- Writes by cwr of registers that entries of the vector queue write: they wait until the queue is empty (16 R341). -/
def waitingWrites : List (Nat × Nat × (Word → Prop) × (Word → Hart → Hart)) := [
  (0x009, 0, fun v => v.toNat < 32, fun v h => { h with fflags := v.truncate 5 }),
  (0x010, 0, fun v => v.toNat < 2 ^ 48, fun v h => { h with tstat := v.truncate 48 }),
  (0x030, 0, fun v => v.toNat % 2 ^ 16 < 16, fun v h =>
    { h with qimpl := v.toNat / 2 ^ 32, qdisc := v.toNat / 2 ^ 16 % 2 ^ 16 })]

/-- The registers of the table with the lowest level that reads them (02 R42). -/
def readableRegisters : List (Nat × Nat) :=
  scalarSideReads.map (fun p => (p.1, p.2.1)) ++ vectorSideReads.map (fun p => (p.1, p.2.1)) ++ [(0x046, 0)] ++
    (List.range 32).map fun c => (0x120 + c, 2)

/-- The registers with a write column, the lowest level that writes them, and their cwr (02 R42). -/
def writableRegisters : List (Nat × Nat × (SReg → Instr)) :=
  let plain (n : Nat) (a : SReg) : Instr := .cwr a (BitVec.ofNat 12 n)
  plainWrites.map (fun p => (p.1, p.2.1, plain p.1)) ++ waitingWrites.map (fun p => (p.1, p.2.1, plain p.1)) ++
    (List.range 32).map (fun c => (0x120 + c, 2, plain (0x120 + c))) ++
    [(0x004, 2, plain 0x004), (0x183, 3, plain 0x183), (0x000, 2, .cwrVl), (0x006, 2, .cwrLpart), (0x020, 0, .cwrHctl),
     (0x040, 2, .cwrPrio), (0x047, 2, .cwrStripmax), (0x101, 2, .cwrTcause), (0x180, 1, .cwrPriv), (0x182, 2, .cwrAsid)]

/-! ## The lanes -/

/-- The entry e at the head of the vector queue meets nothing but its own operands: no result is outstanding, no handle
is bound, and no register lane is poisoned. -/
structure Undisturbed (s : State) (e : VEntry) (rest : List VEntry) : Prop where
  head : s.hart.vq = e :: rest
  settled : s.hart.producers = []
  unbound : ∀ n : HReg, s.hart.handles[n].bound = false
  soundV : ∀ r : VReg, s.hart.vpoison[r] = 0
  soundT : ∀ r : TReg, s.hart.tpoison[r] = 0
  soundM : ∀ r : MReg, s.hart.mpoison[r] = 0

/-- EVL of an entry at a width of w bits (05 R114). -/
def lengthAt (s : State) (e : VEntry) (w : Nat) : Nat := min e.vl (perSlice w * s.hart.lanes)

/-- Element i is active below a bound (00 R13, 02 R44). -/
def activeAt (s : State) (e : VEntry) (n i : Nat) : Bool := decide (i < n) && (maskOf s.hart e.msel).getLsbD i

/-- The active elements at a width, ascending. -/
def actives (s : State) (e : VEntry) (w : Nat) : List Nat :=
  (List.range (lengthAt s e w)).filter fun i => (maskOf s.hart e.msel).getLsbD i

/-- The oldest entry executes with no effect but on vector register d, whose element i of w bits becomes `value i`, and
on FFLAGS, which take `flags`. -/
def WritesVector (s : State) (rest : List VEntry) (w : Nat) (d : VReg) (value : Nat → Nat) (flags : FFlags) : Prop :=
  ∃ v : VWord,
    exec .vectorEntryExecute s =
      .next (s.onlyHart fun h => { h with vq := rest, vreg := h.vreg.set d v, fflags := h.fflags ||| flags }) ∧
    ∀ i, i < 256 * perSlice w → vElem v w i = value i % 2 ^ w

/-- As `WritesVector`, but the new contents are on their way: d is empty until they arrive (02 R35). -/
def ProducesVector (s : State) (e : VEntry) (rest : List VEntry) (w : Nat) (d : VReg) (value : Nat → Nat)
    (flags : FFlags) : Prop :=
  ∃ v : VWord,
    exec .vectorEntryExecute s =
      .next (s.onlyHart fun h => { h with
        vq := rest
        producers := if actives s e w = [] then [] else [{ dest := .vector [(d, v)] }]
        fflags := h.fflags ||| flags }) ∧
    ∀ i, i < 256 * perSlice w → vElem v w i = value i % 2 ^ w

/-- The oldest entry executes with no effect but on mask register d, whose bit i becomes `value i`, and on FFLAGS. -/
def WritesMask (s : State) (rest : List VEntry) (d : MReg) (value : Nat → Bool) (flags : FFlags) : Prop :=
  ∃ m : MWord,
    exec .vectorEntryExecute s =
      .next (s.onlyHart fun h => { h with vq := rest, mreg := h.mreg.set d m, fflags := h.fflags ||| flags }) ∧
    ∀ i, i < 16384 → m.getLsbD i = value i

/-- The oldest entry executes with no effect but a scalar result on its way through the synchronising read queue
(02 R35, R40), which s0 discards, and on FFLAGS. -/
def ReturnsScalar (s : State) (rest : List VEntry) (d : SReg) (x : Word) (flags : FFlags) : Prop :=
  exec .vectorEntryExecute s =
    .next (s.onlyHart fun h => { h with
      vq := rest
      producers := if d = 0 then [] else [{ dest := .scalar d x, queued := true }]
      fflags := h.fflags ||| flags })

/-- An element of d where the instruction is active, and its old contents elsewhere. -/
def onActive (s : State) (e : VEntry) (w : Nat) (d : VReg) (f : Nat → Nat) (i : Nat) : Nat :=
  if activeAt s e (lengthAt s e w) i then f i else vElem s.hart.vreg[d] w i

/-- The flags of an instruction: those of its active elements (05 R125). -/
def flagsOver (s : State) (e : VEntry) (w : Nat) (f : Nat → FFlags) : FFlags :=
  (actives s e w).foldl (fun g i => g ||| f i) 0

/-! ## Vector tables (05 R122 to R128, R132, R133) -/

/-- Operations of an integer type on two elements (05 R122, R123). -/
abbrev IntOp := IntTy → Nat → Nat → Nat
/-- Operations of a floating type on two elements, with their flags (05 R124). -/
abbrev FltOp := Fmt → RMode → Nat → Nat → Nat × FFlags

def intAdd : IntOp := fun t x y => wrapTo t.bits (intVal t x + intVal t y)
def intSub : IntOp := fun t x y => wrapTo t.bits (intVal t x - intVal t y)
def intMul : IntOp := fun t x y => wrapTo t.bits (intVal t x * intVal t y)
def intMin : IntOp := fun t x y => wrapTo t.bits (min (intVal t x) (intVal t y))
def intMax : IntOp := fun t x y => wrapTo t.bits (max (intVal t x) (intVal t y))
def bitAnd : IntOp := fun _ x y => x &&& y
def bitOr : IntOp := fun _ x y => x ||| y
def bitXor : IntOp := fun _ x y => x ^^^ y
def fltAdd : FltOp := fun f m x y => roundWith f m (addX m (unpack f x) (unpack f y))
def fltSub : FltOp := fun f m x y => roundWith f m (addX m (unpack f x) (unpack f y).neg)
def fltMul : FltOp := fun f m x y => roundWith f m (mulX (unpack f x) (unpack f y))
def fltDiv : FltOp := fun f m x y => roundWith f m (quotX f (unpack f x) (unpack f y))

/-- Major 0x17, two sources. -/
def vectorIntTwo : List ((VReg → VReg → VReg → IntTy → Bool → Bool → Instr) × IntOp) := [
  (.vadd, intAdd), (.vsub, intSub), (.vmul, intMul), (.vmin, intMin), (.vmax, intMax), (.vand, bitAnd), (.vor, bitOr),
  (.vxor, bitXor), (.vmulh, fun t x y => wrapTo t.bits (intVal t x * intVal t y / 2 ^ t.bits)),
  (.vdiv, fun t x y =>
    if isSigned t then wrapTo t.bits (quotientS t.bits (intVal t x) (intVal t y)) else if y = 0 then 2 ^ t.bits - 1 else x / y),
  (.vrem, fun t x y =>
    if y = 0 then x else if isSigned t then wrapTo t.bits ((intVal t x).tmod (intVal t y)) else x % y),
  (.vsll, fun t x y => if y < t.bits then x * 2 ^ y else 0), (.vsrl, fun t x y => if y < t.bits then x / 2 ^ y else 0),
  (.vsra, fun t x y => wrapTo t.bits (toSigned t.bits x / 2 ^ min y t.bits)),
  (.vaddSat, fun t x y => wrapTo t.bits
    (max (intLo (isSigned t) t.bits) (min (intHi (isSigned t) t.bits) (intVal t x + intVal t y)))),
  (.vsubSat, fun t x y => wrapTo t.bits
    (max (intLo (isSigned t) t.bits) (min (intHi (isSigned t) t.bits) (intVal t x - intVal t y))))]

/-- Major 0x17, one source. -/
def vectorIntOne : List ((VReg → VReg → IntTy → Bool → Instr) × (IntTy → Nat → Nat)) := [
  (.vabs, fun t x => wrapTo t.bits (if intVal t x < 0 then -intVal t x else intVal t x)),
  (.vneg, fun t x => wrapTo t.bits (-intVal t x)), (.vmv, fun _ x => x)]

/-- Major 0x22, integers (05 R126). -/
def vectorIntScalar : List ((VReg → VReg → SReg → IntTy → Bool → Bool → Instr) × IntOp) := [
  (.vaddVs, intAdd), (.vsubVs, intSub), (.vmulVs, intMul), (.vminVs, intMin), (.vmaxVs, intMax), (.vandVs, bitAnd),
  (.vorVs, bitOr), (.vxorVs, bitXor)]

/-- Major 0x18, two sources. -/
def vectorFltTwo : List ((VReg → VReg → VReg → VFltTy → Bool → Bool → Instr) × FltOp) := [
  (.vfadd, fltAdd), (.vfsub, fltSub), (.vfmul, fltMul), (.vfdiv, fltDiv), (.vfmin, fun f _ x y => fpMinMax f false x y),
  (.vfmax, fun f _ x y => fpMinMax f true x y), (.vfcopys, fun f _ x y => (withSign f (signOf f y) x, 0)),
  (.vfcopyn, fun f _ x y => (withSign f (!signOf f y) x, 0)),
  (.vfxors, fun f _ x y => (withSign f (signOf f x != signOf f y) x, 0))]

/-- Major 0x18, one source: the new sign from the old. -/
def vectorFltOne : List ((VReg → VReg → VFltTy → Bool → Instr) × (Bool → Bool)) := [
  (.vfabs, fun _ => false), (.vfneg, fun n => !n), (.vfmv, fun n => n)]

/-- Major 0x18, fused: whether the product and the third operand are negated. -/
def vectorFused : List ((VReg → VReg → VReg → VFltTy → Bool → Bool → Instr) × Bool × Bool) := [
  (.vfma, false, false), (.vfnma, true, false), (.vfms, false, true), (.vfnms, true, true)]

/-- Major 0x22, floats. -/
def vectorFltScalar : List ((VReg → VReg → SReg → VFltTy → Bool → Bool → Instr) × FltOp) := [
  (.vfaddVs, fltAdd), (.vfsubVs, fltSub), (.vfmulVs, fltMul), (.vfdivVs, fltDiv),
  (.vfminVs, fun f _ x y => fpMinMax f false x y), (.vfmaxVs, fun f _ x y => fpMinMax f true x y)]

/-- Major 0x22, fused: whether the product is negated. -/
def vectorFusedScalar : List ((VReg → VReg → SReg → VFltTy → Bool → Bool → Instr) × Bool) := [
  (.vfmaVs, false), (.vfnmaVs, true)]

/-- Major 0x21, ops 0 to 4: the f32 result rounded to nearest (05 R128). -/
def vectorTranscendental : List ((VReg → VReg → Bool → Instr) × (Nat → Nat × FFlags)) := [
  (.vexp2, fpExp2), (.vlog2, fpLog2), (.vrcp, fpDiv fmtF32 .rne 0x3F800000), (.vrsqrt, fpRsqrt),
  (.vfsqrt, fun x => roundWith fmtF32 .rne (sqrtX fmtF32 (unpack fmtF32 x)))]

/-- Major 0x1B, two mask sources. -/
def maskTwo : List ((MReg → MReg → MReg → Instr) × (Bool → Bool → Bool)) := [
  (.mand, and), (.mor, or), (.mxor, xor), (.mandn, fun x y => x && !y)]

/-! ## Groups, sums and blocks (02 R29; 05 R130, R139) -/

/-- The oldest entry executes with no effect but on the n registers from d on, whose elements of w bits become `value k j`
in register k, and on FFLAGS. -/
def WritesGroup (s : State) (rest : List VEntry) (n w : Nat) (d : VReg) (value : Nat → Nat → Nat) (flags : FFlags) : Prop :=
  ∃ v : Vector VWord 32,
    exec .vectorEntryExecute s =
      .next (s.onlyHart fun h => { h with vq := rest, vreg := v, fflags := h.fflags ||| flags }) ∧
    (∀ r : VReg, (∀ k < n, r ≠ groupReg d k) → v[r] = s.hart.vreg[r]) ∧
    ∀ k < n, ∀ j < 256 * perSlice w, vElem v[groupReg d k] w j = value k j % 2 ^ w

/-- The element of a narrow side of p elements per slice that pairs with element j of register k of a group of q per
slice: its lane's, at position q k + j mod q, if the slice has one (02 R29, 05 R129). -/
def narrowOf (p q k j : Nat) : Option Nat := if q * k + j % q < p then some (j / q * p + q * k + j % q) else none

/-- ROUNDF(x + y), where an empty operand yields the other (05 R139). -/
def sumPair (f : Fmt) (m : RMode) : Option Nat → Option Nat → Option Nat × FFlags
  | some x, some y =>
    let r := roundWith f m (addX m (unpack f x) (unpack f y))
    (some r.1, r.2)
  | some x, none => (some x, 0)
  | none, y => (y, 0)

/-- The elements of one lane added in order, the first taken exactly (05 R139). -/
def sumInLane (f : Fmt) (m : RMode) (l : List Nat) : Option Nat × FFlags :=
  l.foldl (fun a x => let r := sumPair f m a.1 (some x); (r.1, a.2 ||| r.2)) (none, 0)

/-- P[i] after round r of the sum over lanes (05 R139). -/
def sumRound (f : Fmt) (m : RMode) (lane : Nat → Option Nat × FFlags) : Nat → Nat → Option Nat × FFlags
  | 0, i => lane i
  | r + 1, i =>
    let x := sumRound f m lane r i
    let y := sumRound f m lane r (i + 2 ^ r)
    let z := sumPair f m x.1 y.1
    (z.1, x.2 ||| y.2 ||| z.2)

/-- The float vrsum of the elements `elem i` listed, over L lanes with p elements per slice (05 R139). -/
def sumInOrder (f : Fmt) (m : RMode) (L p : Nat) (act : List Nat) (elem : Nat → Nat) (seed : Nat) : Nat × FFlags :=
  let lane (i : Nat) : Option Nat × FFlags :=
    if i < L then sumInLane f m ((act.filter fun e => e / p == i).map elem) else (none, 0)
  let r := sumRound f m lane 8 0
  let z := sumPair f m (some seed) r.1
  (z.1.getD seed, r.2 ||| z.2)

/-- An element of a type as a scalar result (05 R140). -/
def asScalar (t : ElemTy) (x : Nat) : Word :=
  match t with
  | .int u => if isSigned u then (BitVec.ofNat u.bits x).signExtend 64 else (BitVec.ofNat u.bits x).zeroExtend 64
  | .flt u => (BitVec.ofNat u.bits x).zeroExtend 64

/-- A relation between elements of a type, with its flags (05 R132; 03 R63). -/
def relElements (t : ElemTy) (r : Rel) (x y : Nat) (v : Bool) (g : FFlags) : Prop :=
  match t with
  | .int u => (v = true ↔ relHolds r (intVal u x) (intVal u y)) ∧ g = 0
  | .flt u => (v, g) = fpRel (fltFmt u) r x y

/-! ## Vector memory (10 R197 to R203) -/

/-- v is the number of n bytes at a place, each the latest buffered byte or memory's, none of them bad (10 R208). -/
def Merged (s : State) (pa n v : Nat) : Prop :=
  v < 256 ^ n ∧ ∀ k < n,
    v / 256 ^ k % 256 = ((bufferedByte s.hart.buffer (pa + k)).getD (s.mem.read (pa + k))).toNat ∧
    (bufferedByte s.hart.buffer (pa + k) = none → readFault s (pa + k) 1 = none)

/-- The elements listed can be read: what an earlier attempt obtained is kept, `missed` are those whose page the scope
does not cover, and `value` is what the others read. -/
def ReadsElements (s : State) (e : VEntry) (size : Nat) (l : List Nat) (addr : Nat → Word) (miss : Word → Bool)
    (missed : Nat → Bool) (value : Nat → Nat) : Prop :=
  (∀ g ∈ e.got, g.1 ∈ l ∧ missed g.1 = false ∧ g.2 = value g.1) ∧
  ∀ i ∈ l, (∀ g ∈ e.got, g.1 ≠ i) →
    ∃ p, ownPlace s (entryAgent s.hart e) .read (addr i) size = .ok p ∧ missed i = miss p.leaf.entry ∧
      (missed i = false → meetsAdds s.hart.buffer p.pa size = false ∧ Merged s p.pa size (value i))

/-- The elements listed can be written, element i at place `pa i`. -/
def WritesElements (s : State) (e : VEntry) (k : Access) (size : Nat) (l : List Nat) (addr : Nat → Word) (pa : Nat → Nat) :
    Prop :=
  ∀ i ∈ l, ∃ p, ownPlace s (entryAgent s.hart e) k (addr i) size = .ok p ∧ p.pa = pa i

/-- Two states differ in nothing but what the translation caches hold and what `f` does to the hart. -/
def OnlyHartAndCaches (s t : State) (f : Hart → Hart) : Prop :=
  t = { s with cells := t.cells, hart := f s.hart } ∧ ∀ n : Fin 192, { t.cells[n] with tlb := s.cells[n].tlb } = s.cells[n]

/-- The oldest entry completes as `f` says, or, with active elements out of range, does so and traps with cause 0x12
and DONE at the least of them (10 R200). -/
def EntryDone (s : State) (rest : List VEntry) (out : List Nat) (f : Hart → Hart) : Prop :=
  ∃ t, OnlyHartAndCaches s t f ∧
    match out with
    | [] => exec .vectorEntryExecute s = .next (t.onlyHart fun h => { h with vq := rest })
    | i :: _ => ∃ counts, exec .vectorEntryExecute s =
        .next (t.takeVectorTrap { cause := 0x12, addr := BitVec.ofNat 64 i, done := true, counts := counts })

/-- A load's elements on their way to d. -/
def onTheWay (d : VReg) (v : VWord) (l : List Nat) (h : Hart) : Hart :=
  { h with producers := if l = [] then [] else [{ dest := .vector [(d, v)] }] }

/-- An entry of the strip store buffer. -/
def buffered (x : SEntry) (any : List Nat) (h : Hart) : Hart :=
  if any = [] then h else { h with buffer := h.buffer ++ [{ entry := x }] }

/-- The bytes of the elements listed at their places, in element order. -/
def elementStores (v : VWord) (w : Nat) (pa : Nat → Nat) (l : List Nat) : List (Nat × Byte) :=
  l.flatMap fun i => (List.range (w / 8)).map fun k => (pa i + k, BitVec.ofNat 8 (vElem v w i / 256 ^ k))

/-- The sum of addends of one address in ascending element order (10 R201). -/
def mergeAddends (k : AddKind) : List Nat → Nat × FFlags
  | [] => (0, 0)
  | x :: l => l.foldl (fun p y =>
      match k with
      | .int b => ((p.1 + y) % 2 ^ b, p.2)
      | .flt t m =>
        let r := fltAdd (vfltFmt t) (RMode.ofFrm m) p.1 y
        (r.1, p.2 ||| r.2)) (x, 0)

/-- The updates that the scatter-adds of the strip store buffer make, in order. -/
def updatesOf (l : List SSlot) : List (AddKind × Word × Nat × Nat) := l.flatMap fun x =>
  match x.entry with
  | .store _ => []
  | .adds k us => us.map fun u => (k, u)

/-- What an update of a kind writes over an old value, and its flags (10 R201). -/
def updated (k : AddKind) (old x : Nat) : Nat × FFlags :=
  let r := match k with
    | .int b => ((old + x) % 2 ^ b, 0)
    | .flt t m => fltAdd (vfltFmt t) (RMode.ofFrm m) old x
  (r.1 % 2 ^ (8 * k.bytes), r.2)

/-! ## Trees (06 R143 to R163) -/

/-- TL (06 R143). -/
def treeLength (s : State) (e : VEntry) : Nat :=
  if e.vl = 0 then 0 else (e.tgrp.toNat - 1) * (8 * s.hart.lanes) + min e.vl (8 * s.hart.lanes)

/-- Node n takes part: below TL and active. -/
def inForest (s : State) (e : VEntry) (n : Nat) : Bool := activeAt s e (treeLength s e) n

/-- The nodes that take part, ascending. -/
def forestNodes (s : State) (e : VEntry) : List Nat := (List.range (treeLength s e)).filter (inForest s e)

/-- The value of a node in a group, and its parent entry (06 R143). -/
def valueOf (s : State) (a : VReg) (n : Nat) : Nat :=
  vElem s.hart.vreg[groupReg a (n / (8 * s.hart.lanes))] 32 (n % (8 * s.hart.lanes))
def rawParent (s : State) (t : TReg) (n : Nat) : Nat :=
  vElem s.hart.treg[(Fin.ofNat 8 (t.val + n / (16 * s.hart.lanes)) : TReg)] 16 (n % (16 * s.hart.lanes))

/-- P(n) and dangling(n) (06 R146); `all` for tctr, whose parents may be inactive (R163). -/
def cleanParent (s : State) (e : VEntry) (t : TReg) (all : Bool) (n : Nat) : Option Nat :=
  let raw := rawParent s t n
  if raw = 0xFFFF ∨ raw = 0xFFFE ∨ treeLength s e ≤ raw ∨ (!all && !inForest s e raw) then none else some raw
def isDangling (s : State) (e : VEntry) (t : TReg) (all : Bool) (n : Nat) : Bool :=
  let raw := rawParent s t n
  raw < 0xFFFE && (decide (treeLength s e ≤ raw) || (!all && !inForest s e raw))

/-- The k-th ancestor of a node, itself for 0. -/
def ancestor (P : Nat → Option Nat) : Nat → Nat → Option Nat
  | 0, n => some n
  | k + 1, n => (ancestor P k n).bind P

/-- A node whose chain has not ended after TL steps (06 R147), its depth, and a rooted node with its ancestors, nearest
first. -/
def isCyclic (P : Nat → Option Nat) (len n : Nat) : Bool := (ancestor P len n).isSome
def chain (P : Nat → Option Nat) (len n : Nat) : List Nat := (List.range len).filterMap fun k => ancestor P k n
def depthOf (P : Nat → Option Nat) (len n : Nat) : Nat := (chain P len n).length - 1

/-- TSTAT with counts added, each field saturating at 0xFFFF (06 R149). -/
def tstatPlus (t : BitVec 48) (dovf dang cycles : Nat) : BitVec 48 :=
  let field (i n : Nat) : Nat := min (t.toNat / 2 ^ (16 * i) % 2 ^ 16 + n) 0xFFFF
  BitVec.ofNat 48 (field 2 dovf * 2 ^ 32 + field 1 dang * 2 ^ 16 + field 0 cycles)

/-- What an instruction that counts everything adds to TSTAT over some nodes. -/
def countAll (s : State) (e : VEntry) (t : TReg) (all : Bool) (nodes : List Nat) : BitVec 48 :=
  let P := cleanParent s e t all
  let len := treeLength s e
  let dlim := (e.tctl.extractLsb' 16 16).toNat
  tstatPlus s.hart.tstat
    (nodes.filter fun n => !isCyclic P len n && dlim != 0 && decide (dlim < depthOf P len n)).length
    (nodes.filter (isDangling s e t all)).length (nodes.filter (isCyclic P len)).length

/-- DGT is clear, or every node's parent entry is a root, a cut node or within the forest (06 R150). -/
def EntriesPass (s : State) (e : VEntry) (t : TReg) (nodes : List Nat) : Prop :=
  e.tctl.getLsbD 1 = true → ∀ n ∈ nodes, 0xFFFE ≤ rawParent s t n ∨ rawParent s t n < treeLength s e

/-- No trap that TCTL enables is due at a node (06 R150, R151): none is cyclic under CYT, none is rooted deeper than a
DLIM that is not 0 under DLT, and DGT holds as `EntriesPass` says. -/
def TreePasses (s : State) (e : VEntry) (t : TReg) (P : Nat → Option Nat) (nodes : List Nat) : Prop :=
  let len := treeLength s e
  let dlim := (e.tctl.extractLsb' 16 16).toNat
  (e.tctl.getLsbD 0 = true → ∀ n ∈ nodes, isCyclic P len n = false) ∧ EntriesPass s e t nodes ∧
    (e.tctl.getLsbD 2 = true → dlim ≠ 0 → ∀ n ∈ nodes, isCyclic P len n = true ∨ depthOf P len n ≤ dlim)

/-- The bases of an entry's groups are aligned as TGRP asks, a legal TGRP (06 R144, R145). -/
def TreeGroups (e : VEntry) (vals : List VReg) (t : TReg) : Prop :=
  1 ≤ e.tgrp.toNat ∧ e.tgrp.toNat ≤ 8 ∧ (∀ r ∈ vals, r.val % pow2Up e.tgrp.toNat = 0) ∧
    t.val % pow2Up ((e.tgrp.toNat + 1) / 2) = 0

/-- The value groups and the topology group of a tree instruction (06 R145). -/
def treeOperands : Instr → Option (List VReg × TReg)
  | .tup d a t _ _ _ | .tdn d a t _ _ _ | .tbc d a t _ _ _ | .tctr d a t _ _ => some ([d, a], t)
  | .tdep d t | .tancK d t _ | .tancM d t _ _ | .troot d t | .tdeg d t | .tchk d t _ | .tmov d t _ => some ([d], t)
  | .tmovToTopo a t _ _ => some ([a], t)
  | .tisanc _ t b _ => some ([b], t)
  | .tld t _ _ _ | .tst t _ _ _ => some ([], t)
  | _ => none

/-- The tree instructions that TCTL can make trap: whether all nodes below TL count, or the active ones alone, and
whether only the entries beyond the forest do (06 R150, R151, R163). -/
def treeEnables : Instr → Option (Bool × Bool)
  | .tup .. | .tdn .. | .tbc .. | .tdep .. | .tancK .. | .tancM .. | .tisanc .. | .troot .. => some (false, false)
  | .tdeg .. => some (false, true)
  | .tctr .. => some (true, false)
  | _ => none

/-- The oldest entry executes with no effect but on the nodes of the group at d, whose values become `value n` where
they take part, on FFLAGS and on TSTAT. -/
def WritesNodes (s : State) (e : VEntry) (rest : List VEntry) (d : VReg) (value : Nat → Nat) (flags : FFlags)
    (tstat : BitVec 48) : Prop :=
  ∃ v : Vector VWord 32,
    exec .vectorEntryExecute s =
      .next (s.onlyHart fun h => { h with vq := rest, vreg := v, fflags := h.fflags ||| flags, tstat := tstat }) ∧
    (∀ r : VReg, (∀ k < e.tgrp.toNat, r ≠ groupReg d k) → v[r] = s.hart.vreg[r]) ∧
    ∀ k < e.tgrp.toNat, ∀ j < 2048,
      let n := k * (8 * s.hart.lanes) + j
      vElem v[groupReg d k] 32 j =
        if j < 8 * s.hart.lanes ∧ inForest s e n = true then value n % 2 ^ 32 else vElem s.hart.vreg[groupReg d k] 32 j

/-- Topology storage with the parent entries of the nodes for which `value` gives one, and its old entries elsewhere. -/
def HoldsParents (s : State) (t : TReg) (v : Vector VWord 8) (value : Nat → Option Nat) : Prop :=
  ∀ r : TReg, ∀ j < 4096,
    let n := (r.val + 8 - t.val) % 8 * (16 * s.hart.lanes) + j
    vElem v[r] 16 j =
      match (if j < 16 * s.hart.lanes then value n else none) with
      | some x => x % 2 ^ 16
      | none => vElem s.hart.treg[r] 16 j

/-! ## The anvil (11 R222 to R233) -/

/-- The entry e at the head of the vector queue is the oldest operation of its cell's anvil queue. -/
structure AtAnvil (s : State) (e : VEntry) (rest : List VEntry) (queue : List AnvilOp) : Prop where
  calm : Undisturbed s e rest
  here : s.hart.status ≠ .free
  turn : (s.cellOf s.hart.die s.hart.cell).anvil = .hart s.hart.hid :: queue

/-- The state after the anvil's oldest operation, which changed its cell to x and its hart to h. -/
def afterAnvil (s : State) (queue : List AnvilOp) (rest : List VEntry) (x : Cell) (h : Hart) : State :=
  { s.setCell s.hart.die s.hart.cell { x with anvil := queue } with hart := { h with vq := rest } }

/-- The anvil takes the oldest operation, with no effect but its cell's accumulator elements (which keep to their store
and lose error marks where written) and what `f` does to the hart. -/
def Accumulates (s : State) (rest : List VEntry) (queue : List AnvilOp) (value : Nat → Nat → BitVec 32)
    (written : Nat → Nat → Bool) (f : Hart → Hart) : Prop :=
  ∃ t x, OnlyHartAndCaches s t f ∧
    exec (.anvilQueueExecute s.hart.die s.hart.cell) s = .next (afterAnvil t queue rest x t.hart) ∧
    x = { t.cellOf s.hart.die s.hart.cell with acc := x.acc, accError := x.accError } ∧
    (∀ r < 256, ∀ c < 256, x.accAt r c = if written r c then value r c else (s.cellOf s.hart.die s.hart.cell).accAt r c) ∧
    ∀ k, k ∈ x.accError ↔ k ∈ (s.cellOf s.hart.die s.hart.cell).accError ∧
      ∀ r < 256, ∀ c < 256, written r c = true → k ≠ 256 * r + c

/-- The fields of an operand word that name a rectangle, with ACTL's bases: first row and column, rows and columns. -/
def rectOf (x : Word) (actl : BitVec 17) : Nat × Nat × Nat × Nat :=
  (actl.toNat / 256 % 256 + bitsOf x 31 24, actl.toNat % 256 + bitsOf x 23 16, bitsOf x 15 10 + 1, bitsOf x 9 4 + 1)

/-- Row r, column c lies in a rectangle. -/
def inRect (q : Nat × Nat × Nat × Nat) (r c : Nat) : Bool :=
  decide (q.1 ≤ r ∧ r < q.1 + q.2.2.1 ∧ q.2.1 ≤ c ∧ c < q.2.1 + q.2.2.2)

/-- The row and column that element i of a register pairs with, by a position word (11 R231). -/
def accPlaceOf (x : Word) (actl : BitVec 17) (i : Nat) : Nat × Nat :=
  let r := actl.toNat / 256 % 256 + bitsOf x 15 8
  let c := actl.toNat % 256 + bitsOf x 7 0
  if x.getLsbD 16 then ((c * 256 + r + i) % 256, (c * 256 + r + i) / 256) else ((r * 256 + c + i) / 256, (r * 256 + c + i) % 256)

/-- The position word and the last active element lie within the store (11 R224, R231). -/
def AccPlaces (s : State) (e : VEntry) : Prop :=
  bitsOf e.xa 63 17 = 0 ∧ e.actl.toNat / 256 % 256 + bitsOf e.xa 15 8 < 256 ∧ e.actl.toNat % 256 + bitsOf e.xa 7 0 < 256 ∧
    ∀ i ∈ actives s e 32, (accPlaceOf e.xa e.actl i).1 < 256 ∧ (accPlaceOf e.xa e.actl i).2 < 256

/-- A sound block of a class, or one of code 0x20, which is of every class (08 R184, R185). -/
def OfClass (cls : BlkClass) (b : Block) : Prop :=
  blkCode b = 0x20 ∨ classOf (blkCode b) = some (cls, false)

/-- The block at an address of an anvil operand can be read: on a BLK page, with no byte bad or still in the buffer. -/
def BlockAt (s : State) (e : VEntry) (va : Word) (b : Block) : Prop :=
  ∃ p, ownPlace s (entryAgent s.hart e) .read va 64 = .ok p ∧ teBlk p.leaf.entry = true ∧ readFault s p.pa 64 = none ∧
    meetsBuffer s.hart.buffer p.pa 64 = false ∧ readBlock s.mem p.pa = b

/-! ## Streams (10 R210 to R215) -/

/-- The types of a descriptor: CLS, TY, width in bits, and signed (10 R210; 03 R62). The last seven are block streams. -/
def streamTypes : List (Nat × Nat × Nat × Bool) := [
  (0, 0, 8, true), (0, 1, 16, true), (0, 2, 32, true), (0, 3, 64, true), (0, 4, 8, false), (0, 5, 16, false),
  (0, 6, 32, false), (0, 7, 64, false), (0, 8, 4, true), (0, 9, 6, true), (1, 0, 16, false), (1, 1, 16, false),
  (1, 2, 32, false), (1, 3, 64, false), (1, 4, 8, false), (1, 5, 8, false), (1, 6, 4, false), (1, 8, 32, false),
  (1, 9, 32, false), (1, 10, 32, false), (1, 11, 32, false), (1, 12, 32, false), (1, 13, 32, false), (1, 14, 32, false)]

/-- Handle n is bound, holds x with descriptor d, no vector instruction is before the one at hand, and what earlier
quenches released is stored. -/
structure StreamBound (s : State) (n : HReg) (x : Handle) (d : StreamDesc) : Prop where
  holds : s.hart.handles[n] = x
  described : x.desc = some d
  bound : x.bound = true
  quiet : s.hart.vq = []
  stored : s.hart.OutputsDone

/-- A trap of stream n (10 R214). -/
def trapOfStream (n : HReg) (cause sub : BitVec 8) (va : Word) : Trap :=
  { cause := cause, sub := sub, addr := va, hnd := BitVec.ofNat 4 n.val, stream := true }

/-- An element of a stream as a scalar (10 R213). -/
def elementScalar (d : StreamDesc) (v : Nat) : Word :=
  if d.signed then (BitVec.ofNat d.width v).signExtend 64 else (BitVec.ofNat d.width v).zeroExtend 64

/-- The digit of dimension k of element n, the last not reduced (10 R211). -/
def digitOf (counts : List Nat) (ndim k n : Nat) : Nat :=
  let q := n / (counts.take k).foldl (· * ·) 1
  if k + 1 = ndim then q else q % counts.getD k 1

/-! ## Which instructions enter the vector queue (02 R38) -/

/-- The scalar sources that a vector, tree or anvil instruction captures, in order, with their empty-action bits; none
for an instruction that does not enter the vector queue (02 R39; 10 R199: base and limit are a pair). -/
def capturedSources : Instr → Option (List (SReg × Bool))
  | .vadd .. | .vsub .. | .vmul .. | .vmin .. | .vmax .. | .vand .. | .vor .. | .vxor .. | .vmulh .. | .vdiv .. => some []
  | .vrem .. | .vsll .. | .vsrl .. | .vsra .. | .vaddSat .. | .vsubSat .. | .vabs .. | .vneg .. | .vmadd .. | .vmv .. => some []
  | .vfadd .. | .vfsub .. | .vfmul .. | .vfdiv .. | .vfmin .. | .vfmax .. | .vfma .. | .vfnma .. | .vfms .. => some []
  | .vfnms .. | .vfcopys .. | .vfcopyn .. | .vfxors .. | .vfabs .. | .vfneg .. | .vfmv .. => some []
  | .vwfma .. | .vwfms .. | .vwmul .. | .vwmadd .. | .vwimul .. => some []
  | .vcmp .. | .mand .. | .mor .. | .mxor .. | .mandn .. | .mnot .. | .mmov .. | .mcpop .. | .mfirst .. => some []
  | .vpush .. | .vpushAdd .. | .vpull .. | .vcmpr .. | .vexpand .. | .vidx .. | .vconf .. => some []
  | .vexp2 .. | .vlog2 .. | .vrcp .. | .vrsqrt .. | .vfsqrt .. => some []
  | .vcvtToFloat .. | .vcvtToInt .. | .vpackBfp .. | .vunpackBfp .. => some []
  | .tmov .. | .tmovToTopo .. | .tup .. | .tdn .. | .tbc .. | .tdep .. | .tancK .. | .tancM .. | .tisanc .. => some []
  | .troot .. | .tdeg .. | .tchk .. | .tctr .. => some []
  | .vcmprTh _ _ b _ _ eb | .vslideUp _ _ b _ _ eb | .vslideDn _ _ b _ _ eb | .vbcast _ _ b _ _ eb => some [(b, eb)]
  | .vext _ _ b _ _ eb | .vrsum _ _ b _ _ eb | .vrmax _ _ b _ _ eb | .vrmin _ _ b _ _ eb => some [(b, eb)]
  | .vaddVs _ _ b _ _ eb | .vsubVs _ _ b _ _ eb | .vmulVs _ _ b _ _ eb | .vminVs _ _ b _ _ eb => some [(b, eb)]
  | .vmaxVs _ _ b _ _ eb | .vandVs _ _ b _ _ eb | .vorVs _ _ b _ _ eb | .vxorVs _ _ b _ _ eb => some [(b, eb)]
  | .vfaddVs _ _ b _ _ eb | .vfsubVs _ _ b _ _ eb | .vfmulVs _ _ b _ _ eb | .vfdivVs _ _ b _ _ eb => some [(b, eb)]
  | .vfminVs _ _ b _ _ eb | .vfmaxVs _ _ b _ _ eb | .vfmaVs _ _ b _ _ eb | .vfnmaVs _ _ b _ _ eb => some [(b, eb)]
  | .vcmpVs _ _ b _ _ _ eb => some [(b, eb)]
  | .vld _ a _ _ ea | .vlds _ a _ _ ea | .vst _ a _ _ ea | .vsts _ a _ _ ea | .tld _ a _ ea | .tst _ a _ ea => some [(a, ea)]
  | .anvZero a | .vrsumBfp _ _ a | .accLd _ a | .accSt _ a => some [(a, false)]
  | .vldx _ a _ _ ea _ | .vstx _ a _ _ ea _ | .vsaddInt _ a _ _ ea _ | .vsaddFloat _ a _ _ ea _ =>
    some [(a, ea), (a + 1, ea)]
  | .vgth _ a _ _ _ ea _ => some [(a, ea), (a + 1, ea)]
  | .anvOp a b | .accMem a b _ | .wbLoad a b => some [(a, false), (b, false)]
  | _ => none

/-- The entry that a hart sends with its captured values (02 R39; 06 R145; 16 R340). -/
def sentEntry (h : Hart) (i : Instr) (values : List Word) : VEntry where
  instr := i
  pc := h.pc
  vl := h.vl
  vew := h.vew
  msel := h.msel
  vstr := h.vstr
  frm := h.frm
  actl := h.actl
  tgrp := h.tgrp
  tctl := h.tctl
  asid := h.asid
  level := h.priv.cur
  xa := values.getD 0 0
  xb := values.getD 1 0

/-! ## The hearth (17 R347; 18 R351 to R373) -/

/-- A value names node n, in slot k, and no other node has its identity (18 R351). -/
def Names (h : Hart) (v : Word) (k : Fin 64) (n : Node) : Prop :=
  v = BitVec.ofNat 64 k.val ∧ h.hearth.slots[k] = some n ∧ n.state ≠ .dropped ∧
    (∀ (j : Fin 64) (m : Node), h.hearth.slots[j] = some m → m.nid = n.nid → j = k) ∧ ∀ g ∈ h.hearth.ghosts, g.1.nid ≠ n.nid

/-- The node an append makes, suspended, with what it captures of its hart (18 R352, R357). -/
def freshNode (op : NodeOp) (ty : BitVec 8) (rows cols : Nat) (in0 in1 param : Word) (i0 i1 : Option Nat) (h : Hart) :
    Node where
  nid := h.hearth.nextNid
  state := .suspended
  op := op
  ty := ty
  rows := rows
  cols := cols
  in0 := in0
  in1 := in1
  param := param
  i0 := i0
  i1 := i1
  cpc := h.pc
  frm := h.frm
  rm := h.actl.getLsbD 16

/-- The word of an input in slot k (18 R352). -/
def inputOf (k : Fin 64) : Word := BitVec.ofNat 64 (64 + k.val)

/-- The instruction i appends a node (18 R357, R361): after an auto-force where no slot is free and HCTL.AUTO is set, and
after an implicit quench where a leaf's footprint meets the strip store buffer, the node takes the lowest free slot, and
s[d] its number; dropped nodes may be freed (R353). Without a free slot and without AUTO it traps with cause 0x30. -/
def Appends (s : State) (d : SReg) (i : Instr) (node : Hart → Node) : Prop :=
  (∀ (s1 s2 : State) (k : Fin 64),
    (if ∃ j : Fin 64, s.hart.hearth.slots[j] = none then s1 = s
      else s.hart.hctl.getLsbD 0 = true ∧ ∃ f, autoForce s = .ok f ∧ f.done = s1) →
    (if (node s1.hart).op = .leaf ∧ ∃ r ∈ (node s1.hart).footprint s1, meetsBuffer s1.hart.buffer r.1 r.2 = true
      then quenchNow s1 true = .ok s2 else s2 = s1) →
    s1.hart.hearth.slots[k] = none → (∀ j < k, s1.hart.hearth.slots[j] ≠ none) →
    exec i s = .next (s2.onlyHart fun h =>
      ((h.withHearth fun t =>
        { t with slots := t.slots.set k (some (node s1.hart)), nextNid := t.nextNid + 1 }.tidy).setS d
          (BitVec.ofNat 64 k.val)).advance)) ∧
  ((∀ j : Fin 64, s.hart.hearth.slots[j] ≠ none) → s.hart.hctl.getLsbD 0 = false → HandlerReady s { cause := 0x30 } →
    ∃ u, exec i s = .next u ∧ Trapped s { cause := 0x30 } u)

/-- Element (i, j) of a node is in the area and has value v (18 R359). -/
def HoldsValue (s : State) (n : Node) (i j : Nat) (v : FVal) : Prop :=
  n.made.getLsbD (256 * i + j) = true ∧ ∃ raw, areaRead s n i j = .ok raw ∧ tileVal n.ty raw = .ok v

/-- The sum of a tl.mm element over K (18 R360): one term for each block of kw columns, rounded to nearest, added under
the captured RM. -/
def mmSum (kw K : Nat) (rm : RMode) (x y : Nat → FVal) : Nat :=
  (List.range ((K + kw - 1) / kw)).foldl (fun acc kb =>
    let ks := (List.range (min kw (K - kb * kw))).map (· + kb * kw)
    let term := (roundF fmtF32 .rne (exactSum .rne (ks.map fun k => (mulX (x k) (y k)).1)).1).1
    (roundF fmtF32 rm (exactSum rm [unpack fmtF32 acc, unpack fmtF32 term]).1).1) 0

/-- Element (i, j) of a computed node whose inputs' elements are in the area: its bits and flags (18 R360, R362). -/
def ElementIs (s : State) (n : Node) (i j x : Nat) (g : FFlags) : Prop :=
  let inp (o : Option Nat) (a : Node) : Prop := ∃ nid k, o = some nid ∧ s.hart.hearth.find nid = some (a, k)
  let mode := RMode.ofFrm n.frm
  match n.op with
  | .leaf | .map true => False
  | .mm => ∃ (a b : Node) (u v : Nat → FVal), inp n.i0 a ∧ inp n.i1 b ∧
      (∀ k < a.cols, HoldsValue s a i k (u k) ∧ HoldsValue s b k j (v k)) ∧ g = 0 ∧
      x = mmSum (bfpK a.ty.toNat) a.cols (if n.rm then .rtz else .rne) u v
  | .ew op => ∃ (a b : Node) (u v : FVal), inp n.i0 a ∧ inp n.i1 b ∧ HoldsValue s a i j u ∧ HoldsValue s b i j v ∧
      (x, g) = roundWith fmtF32 mode (match op with
        | .add => addX mode u v
        | .sub => addX mode u v.neg
        | .mul => mulX u v
        | .max => pickVal true [u, v]
        | .min => pickVal false [u, v])
  | .map false => ∃ (a : Node) (r c : Nat), inp n.i0 a ∧ affine n.param i j = ((r : Int), (c : Int)) ∧
      match tileFmt a.ty with
      | some _ => a.made.getLsbD (256 * r + c) = true ∧ areaRead s a r c = .ok x ∧ g = 0
      | none => ∃ v, HoldsValue s a r c v ∧ x = (roundF fmtF32 mode v).1 ∧
          g = if (roundF fmtF32 mode v).2 &&& fOF = 0 then 0 else (roundF fmtF32 mode v).2
  | .red op col => ∃ (a : Node) (v : Nat → FVal), inp n.i0 a ∧
      let len := if col then a.rows else a.cols
      (∀ k < len, if col then HoldsValue s a k j (v k) else HoldsValue s a i k (v k)) ∧
      let l := (List.range len).map v
      let picked (r : FVal × FFlags) : Nat × FFlags := ((roundF fmtF32 mode r.1).1, r.2)
      (x, g) = (match op with
        | .sum => roundWith fmtF32 mode (exactSum mode l)
        | .max => picked (pickVal true l)
        | .min => picked (pickVal false l))
  | .cvt => ∃ (a : Node) (v : FVal) (f : Fmt), inp n.i0 a ∧ HoldsValue s a i j v ∧ tileFmt n.ty = some f ∧
      (x, g) = roundWith f mode (v, nvIf v.isSnan)

/-- Node n after its element (i, j) has been made: its mark and its state (18 R353). -/
def madeNode (n : Node) (i j : Nat) : Node :=
  let m : VWord := n.made ||| (1#65536 <<< (256 * i + j))
  { n with
    made := m
    state := if (cellsOf m n.rows n.cols).length = n.rows * n.cols then .materialised else .partly }

/-- Node b is node a, or an input of a node that a reaches (18 R369). -/
inductive Reaches (t : Hearth) (a : Nat) : Nat → Prop where
  | self : Reaches t a a
  | input (b c : Nat) (n : Node) (k : Nat) : Reaches t a b → t.find b = some (n, k) → n.i0 = some c ∨ n.i1 = some c →
      Reaches t a c

/-- Word k of a node's record (18 R352). -/
def RecordWord (n : Node) (k : Nat) (w : Word) : Prop :=
  match k with
  | 0 => bitsOf w 63 61 = n.state.code ∧ bitsOf w 60 58 = n.op.code ∧ bitsOf w 57 54 = n.op.sub ∧ bitsOf w 53 48 = 0 ∧
      bitsOf w 47 40 = n.ty.toNat ∧ bitsOf w 39 16 = 0 ∧ bitsOf w 15 8 = n.cols - 1 ∧ bitsOf w 7 0 = n.rows - 1
  | 1 => w = n.in0
  | 2 => w = n.in1
  | 3 => w = n.param
  | 4 => w = n.cpc &&& ~~~3
  | 5 => bitsOf w 63 47 = (cellsOf n.made n.rows n.cols).length ∧ bitsOf w 46 32 = 0 ∧
      (n.made = 0 → bitsOf w 31 0 = 0) ∧
      ∀ i j : Nat, i < n.rows → j < n.cols → n.made.getLsbD (256 * i + j) = true →
        bitsOf w 7 0 ≤ i ∧ i ≤ bitsOf w 7 0 + bitsOf w 23 16 ∧ bitsOf w 15 8 ≤ j ∧ j ≤ bitsOf w 15 8 + bitsOf w 31 24
  | 6 => bitsOf w 63 48 = 0 ∧ bitsOf w 47 32 = n.alloc.getD 0 ∧ w.getLsbD 31 = n.alloc.isSome ∧ bitsOf w 30 3 = 0 ∧
      w.getLsbD 2 = n.rm ∧ bitsOf w 1 0 = n.frm.toNat
  | _ => bitsOf w 63 1 = 0 ∧
      w.getLsbD 0 = decide (n.op = .leaf ∧ (cellsOf n.made n.rows n.cols).length = n.rows * n.cols)

/-! ## Jobs and engines (11 R234 to R246; 20 R390 to R400) -/

/-- Cards changed by `f`, and those forgotten that are done without a ticket. -/
def changedCards (s : State) (d : DieNo) (f : Card → Card) : State :=
  s.setDie d { s.dieOf d with
    cards := ((s.dieOf d).cards.map f).filter fun c => !(c.retired && c.state == .done) }

/-- The status word of a card (11 R239). -/
def StatusWord (c : Card) (w : Word) : Prop :=
  w.getLsbD 63 = decide (c.state = .done) ∧ w.getLsbD 62 = decide (c.state = .done ∧ c.cause ≠ 0) ∧
    w.getLsbD 61 = c.replayed ∧ bitsOf w 60 56 = 0 ∧ bitsOf w 39 0 = 0 ∧
    bitsOf w 55 48 = (if c.state = .done then c.cause.toNat else 0) ∧
    bitsOf w 47 40 = (if c.state = .done then c.sub.toNat else 0)

/-- Card c of a die ends with a cause and subcode (11 R238 steps 4 and 5, R241): its status word is stored at CMPL, it is
done, and the cards that wait for it wait no longer, but those that read after a failed one are broken. `before` is the
state without the store. -/
def Ends (s : State) (d : DieNo) (c : Card) (cause sub : BitVec 8) (o : Host.Outcome State Fault Refusal) : Prop :=
  let ended : Card := { c with state := .done, cause := cause, sub := sub, data := [] }
  (s.findJob c.job = none ∨ ∃ j, s.findJob c.job = some j ∧ j.draining = false) →
  ∃ t w, o = .next (changedCards t d fun y =>
      if y.no = c.no then ended
      else { y with
        deps := y.deps.filter fun p => p.1 != c.no
        broken := y.broken || (cause != 0 && y.deps.contains (c.no, true)) }) ∧
    StatusWord ended w ∧
    match c.cmpl with
    | none => t = s
    | some pa => SameMemoryBut s t pa 8 ∧ t.mem.readLe pa 8 = w.toNat ∧
        t = { s with mem := t.mem, poisoned := t.poisoned, uncorrectable := t.uncorrectable }

/-- The state with a card of a die replaced by number. -/
def withCard (s : State) (d : DieNo) (c : Card) : State :=
  s.setDie d { s.dieOf d with cards := (s.dieOf d).cards.map fun z => if z.no = c.no then c else z }

/-- Sums of two runs of f32 elements, each rounded to nearest (20 R392). -/
def sums32 (x y : List Byte) : List Byte := (List.range (x.length / 4)).flatMap fun j =>
  leBytes 4 (roundF fmtF32 .rne (addX .rne (unpack fmtF32 (leNat ((x.drop (4 * j)).take 4)))
    (unpack fmtF32 (leNat ((y.drop (4 * j)).take 4)))).1).1

/-- A member of a collective receives a message, which leaves s1: the oldest on its way to it from this module, or a flit
that has arrived at its die with the message's channel, tag and bytes (20 R393; 22 R432). -/
def Receives (s : State) (d : DieNo) (q : Group) (m : MemberMsg) (s1 : State) : Prop :=
  (∃ t, s.nextFor d q = some t ∧ t.msg = m ∧ s1 = { s with transit := s.transit.erase t }) ∨
    ((∀ t, s.nextFor d q = some t → t.msg ≠ m) ∧ m.tag.gtag = q.tag.gtag ∧
      ∃ l f r, (s.dieOf d).inbox = l ++ f :: r ∧ (∀ x ∈ l, flitHolds m x = false) ∧ flitHolds m f = true ∧
        s1 = s.setDie d { s.dieOf d with inbox := l ++ r })

/-- A card is one of a die's, found by its number, and not cancelled. -/
def CardOn (s : State) (d : DieNo) (c : Card) (state : CardState) : Prop :=
  s.card d c.no = some c ∧ c.state = state ∧ c.cancelled = false

/-- A card works on with its delivery counted: done with its work where no other destination is left, and with an
arrival of `bytes` where ABV is set (11 R238 step 1; 20 R400). -/
def Delivered (s : State) (d : DieNo) (c : Card) (k bytes : Nat) (last : Bool) (t : State) : Prop :=
  let arrives := c.arrives && !c.arrived.contains k
  let c1 : Card := { c with
    delivered := c.delivered ++ [k]
    arrived := if arrives then c.arrived ++ [k] else c.arrived
    state := if last then .worked else c.state }
  let x := s.dieOf d
  let bar := x.ab[c.barrier]
  t = s.setDie d { x with
    ab := if arrives then
        x.ab.set c.barrier { bar with cb := min (bar.cb + bytes) (2 ^ 40 - 1), ca := min (bar.ca + 1) (2 ^ 16 - 1) }
      else x.ab
    cards := x.cards.map fun y => if y.no = c.no then c1 else y }

/-! ## Merge slots (19 R376 to R378; 20 R384 to R388) -/

/-- The state with a merge slot of the current hart's die replaced. -/
def withSlot (s : State) (n : Fin 16) (m : MergeSlot) : State :=
  s.setDie s.hart.die { s.dieOf s.hart.die with slots := (s.dieOf s.hart.die).slots.set n m }

/-- The contributors that ORDERED mode hands over from NEXT on: all up to `next`, those of them that count; the first one
left is neither marked nor, in a closing slot, to be passed over (20 R385). -/
def HandedOver (m r : MergeSlot) : Prop :=
  m.next ≤ r.next ∧ r.next ≤ m.ncon ∧
    (∀ i, m.next ≤ i → i < r.next → (m.con i).marked = true ∨ m.closing = true) ∧
    (r.next < m.ncon → (m.con r.next).marked = false ∧ m.closing = false) ∧
    r = { m with
      next := r.next
      pending := m.pending ++
        ((List.range r.next).filter fun i => decide (m.next ≤ i) && (m.con i).marked && !(m.con i).bad) }

/-! ## Tasks (15 R288 to R314) -/

/-- A cell's queue of one priority with new contents: entry 8 and those behind it, which the cache does not hold, stand in
the ring of that priority, 64 bytes each (15 R292; its place and order are the model's, log 13). -/
def withQueue (s : State) (d : DieNo) (c : CellNo) (p : Fin 16) (l : List QEntry) : State :=
  let x := s.cellOf d c
  let bytes := placeBytes (x.taskRing + 0x40000 * p.val) ((l.drop 8).flatMap fun e => leBytes 64 (match e with
    | .task r => r.block
    | .resume g => Config.resumeImage g.qid).toNat)
  (s.setCell d c { x with queues := x.queues.set p l }).storeBytes bytes

/-- A record is queued at the tail of its priority's queue in a cell, and its job's counter is charged (15 R291, R292,
R308, R311). -/
def Queued (s : State) (d : DieNo) (c : CellNo) (j : BitVec 32) (part : Option (BitVec 5)) (b : Block) : State :=
  let ceil := s.ceilOf j
  let wanted : BitVec 4 := BitVec.ofNat 4 (bitsOf (blockWord b 3) 3 0)
  let prio := if ceil < wanted then ceil else wanted
  let x := s.cellOf d c
  let r : TaskRec := { qid := s.nextQid, block := b, job := j, prio := prio, part := part }
  { withQueue s d c ⟨prio.toNat, by omega⟩ (x.queues[prio.toNat]'(by omega) ++ [.task r]) with
    jobs := match s.findJob j with
      | none => s.jobs
      | some y => s.jobs.map fun z => if z.job = j then { y with count := y.count + 1 } else z
    nextQid := s.nextQid + 1 }

/-- The queue that a record of a job would join has room (15 R292). -/
def HasRoom (s : State) (d : DieNo) (c : CellNo) (j : BitVec 32) (b : Block) : Prop :=
  let ceil := s.ceilOf j
  let wanted : BitVec 4 := BitVec.ofNat 4 (bitsOf (blockWord b 3) 3 0)
  let prio := if ceil < wanted then ceil else wanted
  ((s.cellOf d c).queues[prio.toNat]'(by omega)).length < 8 + 4096

/-- The vector state after a change of grant (02 R33), over a hart whose outstanding results have arrived. -/
def emptied (h : Hart) : Hart :=
  { h.writebackAll with
    vreg := Vector.replicate 32 0, treg := Vector.replicate 8 0, mreg := Vector.replicate 8 0, msm := 0
    vpoison := Vector.replicate 32 0, tpoison := Vector.replicate 8 0, mpoison := Vector.replicate 8 0 }

/-- A member's state when its task starts (02 R50; 15 R293): what it does not say is 0, full, or as R42 gives it. -/
def Entered (h : Hart) (b : Block) (grant : BitVec 32) : Prop :=
  h.status = .running ∧ h.pc = blockWord b 0 ∧ h.sreg[(29 : SReg)] = blockWord b 1 ∧
    (∀ r : SReg, r ≠ 29 → h.sreg[r] = 0) ∧ (∀ r : SReg, h.emptyS r = false ∧ h.spoison[r] = false) ∧
    (∀ c : CBit, h.cbit[c] = false) ∧ (∀ r : VReg, h.vreg[r] = 0) ∧ (∀ r : TReg, h.treg[r] = 0) ∧
    (∀ r : MReg, h.mreg[r] = 0) ∧ h.msm = 0 ∧ h.vl = 0 ∧ h.msel = 0x0F ∧ h.vstr = 0 ∧ h.vew = .w32 ∧ h.frm = 0 ∧
    h.fflags = 0 ∧ h.tstat = 0 ∧ h.tgrp = 1 ∧ h.tctl = 0 ∧ h.actl = 0 ∧ h.hctl = 0 ∧ h.qimpl = 0 ∧ h.qdisc = 0 ∧
    h.stripmax = 65536 ∧ h.trap = {} ∧ (∀ c : Fin 32, h.tcnt[c] = 0) ∧ h.grant = grant ∧ h.nextPend = false ∧
    h.priv = { cur := BitVec.ofNat 2 (bitsOf (blockWord b 3) 5 4) } ∧ (∀ n : HReg, h.handles[n] = {}) ∧ h.vq = [] ∧
    h.buffer = [] ∧ h.replay = none ∧ h.hearth = {} ∧ h.evf = false ∧ h.cancel = false

/-- The decrement of a join word with the status a task ends with (15 R307). -/
def decremented (old : Word) (failed cancelled : Bool) : Word :=
  if failed then (old - 1) ||| 2 ^ 62 else if cancelled then (old - 1) ||| 2 ^ 63 else old - 1

/-- Everywhere in the module, no context and no queue entry of a task is left but the current hart. -/
def LastOfTask (s : State) (tid : Nat) : Prop :=
  (∀ h ∈ s.harts, h.task = tid → h.resident = false) ∧ ∀ h ∈ savedHarts s, h.task ≠ tid

/-- Die and cell of the queue that a task's saved contexts join: those of the task (15 R298). -/
def homeOf (s : State) (h : Hart) : DieNo × CellNo :=
  ((s.findTask h.task).map fun t => (t.die, t.cell)).getD (h.die, h.cell)

/-- Nothing the current hart's streams hold is still to be performed or published, and one more entry of its task's queue
fits the cache (13 R253; 15 R292). -/
def SaveReady (s : State) : Prop :=
  (∀ n : HReg, s.hart.handles[n].busy = false) ∧
    ((s.cellOf (homeOf s s.hart).1 (homeOf s s.hart).2).queues[s.hart.prio.toNat]'(by omega)).length < 8

/-- The current hart, the last of its task, has been saved (15 R301, R314): the machine holds it no more, its task's queue
of its priority holds it, at the head or the tail, and of memory only its save area behind the failure record may have
changed (16 R328). -/
def LeftSaved (s u : State) (tail : Bool) (yielded : List Nat) : Prop :=
  let h := s.hart
  let old := (s.cellOf (homeOf s h).1 (homeOf s h).2).queues[h.prio.toNat]'(by omega)
  let e : QEntry := .resume { qid := s.nextQid, prio := h.prio, part := h.part, harts := [savedHart h], yielded := yielded }
  u.hart = Hart.vacant ∧ u.harts = s.harts ∧
    (u.cellOf (homeOf s h).1 (homeOf s h).2).queues[h.prio.toNat]'(by omega) = (if tail then old ++ [e] else e :: old) ∧
    SameMemoryBut s u ((s.cellOf h.die h.cell).saveArea + h.slot.val * 0x100000 + 256) (0x100000 - 256)

/-- The harts of a cell hold nothing: none is resident, halted or owed a carriage. -/
def CellEmpty (s : State) (d : DieNo) (c : CellNo) : Prop :=
  (∀ h ∈ s.allHarts, h.status ≠ .free → ¬(h.die = d ∧ h.cell = c)) ∧ (s.cellOf d c).claims = [] ∧
    (s.cellOf d c).anvil = []

/-! ## Messages and links (22 R424 to R434) -/

/-- A message of some units, known since a version, is well-formed on its link, the module having started (22 R425, R429,
R435). -/
def GoodMessage (s : State) (link : DieNo) (hdr : MsgHdr) (since : Nat) (units : Nat) : Prop :=
  let l := (s.dieOf link).link
  l.up = true ∧ s.mode ≠ .starting ∧ hdr.zeroOk = true ∧ hdr.mseq = l.rxSeq ∧ hdr.ver = l.version ∧ since ≤ l.version.toNat ∧
    hdr.unitsM1.toNat + 1 = units

/-- The link's count of received messages goes up by one (22 R429). -/
def messageCounted (s : State) (link : DieNo) : State :=
  s.setDie link { s.dieOf link with link := { (s.dieOf link).link with rxSeq := (s.dieOf link).link.rxSeq + 1 } }

/-- The device sends a message on a link (22 R429, R430). -/
def sends (s : State) (link : DieNo) (m : HostMsg) : State :=
  { s.setDie link { s.dieOf link with link := { (s.dieOf link).link with txSeq := (s.dieOf link).link.txSeq + 1 } } with
    sent := s.sent ++ [{ link := link, mseq := (s.dieOf link).link.txSeq, msg := m }] }

/-- The state with a port replaced. -/
def withPort (s : State) (d : DieNo) (n : Fin 8) (p : Port) : State :=
  s.setDie d { s.dieOf d with ports := (s.dieOf d).ports.set n p }

/-- A port after a good trailer: what it acknowledges is no longer kept, and its credits are back (22 R434). -/
def Acked (p q : Port) (t : Word) : Prop :=
  let v := bitsOf t 7 5
  q = { p with kept := q.kept, credits := p.credits.setIfInBounds v (p.credits.toList.getD v 0 + bitsOf t 4 2) } ∧
    ((∀ k ∈ p.kept, k.fseq.toNat ≠ bitsOf t 19 8) → q.kept = p.kept) ∧
    ∀ l k r, p.kept = l ++ k :: r → k.fseq.toNat = bitsOf t 19 8 → (∀ x ∈ l, x.fseq ≠ k.fseq) → q.kept = r

/-! ## Words the spec writes out -/

/-- The words of 01 R20, 03 R84, 04 R113: scalar instructions and control. -/
noncomputable def specWordsScalar : List (Nat × Instr) := [
  (0x08C60008, .addi 6 6 4 false), (0x40FFFFFB, .br 1 (-5)), (0x75200800, .vidx 9 2 0),
  (0x60811188, .vfma 4 1 2 .f32 false false), (0x1C2C6000, .cmpi 1 12 .ge 0 false),
  (0x58430400, .setvl 2 3 .w32 false), (0x8C410020, .tdn 2 1 0 .add .f32 false), (0x78240008, .vld 1 4 0 .b4 false),
  (0x31A60038, .st 13 6 3 .b4 false), (0x54E00301, .cwr 7 0x001), (0x04642800, .add 3 4 5 false false),
  (0x04E84830, .divN 7 8 9 false false), (0x1843800E, .srai 2 3 7 false), (0x2C64FFD6, .ld 3 4 (-3) .b2 true false),
  (0x288531CC, .fma 4 5 6 .f64 false false), (0x3C432050, .cmpN 2 3 4 .lt false false),
  (0x3C690218, .cput 3 9 false), (0x34A231EC, .amoAdd 5 2 6 .w64 .d false false),
  (0x350955D0, .cas 8 9 10 .w32 .p false false), (0x38000003, .fence .d), (0x48000028, .call 40),
  (0x4C000200, .ret), (0x500C0000, .gate 12)]

/-- The words of 05 R142, 06 R165: vector and tree instructions. -/
noncomputable def specWordsVector : List (Nat × Instr) := [
  (0x5C642B84, .vaddSat 3 4 5 .i16 false false), (0x65011010, .vwfma 8 1 2 .e4m3 false false),
  (0x68444998, .vcmp 2 4 9 .ge (.int .n32) false false), (0x6D03001C, .mfirst 8 3),
  (0x71425DC8, .vrmax 10 2 11 (.flt .f32) false false), (0x74BFFC03, .vidx 5 (-1) 3),
  (0x84619488, .vcvtToInt 3 1 (.flt .f32) .rtz .i32 false), (0x84E29628, .vpackBfp 7 2 2 false),
  (0x88C04818, .vaddVs 6 0 9 .n32 false false), (0x58851088, .setvlDb 4 5 .w8 17 false),
  (0x8C610010, .tup 3 1 0 .add .f32 false), (0x8C410224, .tdn 2 1 0 .max .i32 false), (0x8C600048, .tdep 3 0),
  (0x8C802358, .tancK 4 1 3), (0x8CA00268, .tancM 5 0 2 .n32), (0x8C800678, .tisanc 4 0 6 false),
  (0x8C074108, .tmovToTopo 7 2 .n32 false), (0x8D2100B0, .tctr 9 1 0 .f32 false), (0x90010004, .tld 0 1 0 false),
  (0x90260106, .tst 1 6 16 false)]

/-- The words of 10 R221, 11 R247: streams, the anvil and jobs. -/
noncomputable def specWordsMemory : List (Nat × Instr) := [
  (0x7C460108, .vst 2 6 16 .b4 false), (0x78650006, .vlds 3 5 0 .b2 false),
  (0x80241008, .vldx 1 4 2 .b4 false false), (0x80441B08, .vsaddFloat 2 4 3 .f32 false false),
  (0x80A31408, .vconf 5 3 2 .b4 false), (0x80241568, .vgth 1 4 2 .d .b4 false false), (0xB4000000, .quench),
  (0xB4000100, .sabort), (0x94E00003, .bwDef 7 3), (0x95800183, .bwBind (some 12) 3), (0x94A00303, .bwPop 5 3),
  (0x98850011, .dbPub 4 5 17), (0x98C00111, .dbRd 6 17), (0x98800308, .abArrive 4 8), (0x9CC70000, .anvOp 6 7),
  (0x9CC00100, .anvZero 6), (0x9CA10200, .vrsumBfp 5 1 0), (0xA0680000, .accLd 3 8), (0xA0680100, .accSt 3 8),
  (0xA0890201, .accMem 4 9 true), (0xA0850300, .wbLoad 4 5), (0xA8A90000, .jobSub 5 9), (0xA9200100, .jobWait 9),
  (0xA92A0200, .jobPoll 9 10), (0xA9200300, .jobCancel 9)]

/-- The words of 15 R317, 16 R345, 18 R375, 20 R402: tasks, traps, tiles and merge slots. -/
noncomputable def specWordsSystem : List (Nat × Instr) := [
  (0xB1800000, .spawn 12 0), (0xB18D0100, .spawnX 12 13), (0xB0A00200, .join 5), (0xB0A00300, .waitJ 5),
  (0xB0C70400, .forkL 6 7), (0xB0000500, .joinL), (0xB0000600, .yield), (0xB0000700, .exit), (0xB0A00800, .prio 5),
  (0xB1000900, .coach 8), (0x54000005, .trap 5), (0x54000100, .tret), (0x56810201, .crd 20 0x101),
  (0x56810307, .cwr 20 0x107), (0x54850403, .tlbInv 4 5 .d), (0x54C40500, .tlbPrb 6 4),
  (0x54850704, .cacheInv 4 5 .p), (0x54000800, .halt), (0x54A00900, .wfe 5), (0x54E00A00, .evt 7),
  (0xFC000000, .brk 0), (0xA58D0209, .tlEw 9 12 13 .add), (0xA58D0249, .tlEw 9 12 13 .mul),
  (0xA5800408, .tlRed 8 12 .sum false), (0xA58004A8, .tlRed 8 12 .max true), (0xA5860509, .tlCvt 9 12 6),
  (0xA5400800, .tlPin 10), (0xA5C00900, .tlDrop 14), (0xA5C50A14, .tlStat 20 14 5), (0xA4000B03, .tlSync true true),
  (0xAC80000F, .tmOpen 4 15), (0xAD09010F, .tmPut 8 9 15), (0xAD800200, .tmMark 12 0), (0xAC640401, .tmPoll 3 4 1),
  (0xAC000502, .tmAbort 2)]

end Sys2Proof.Machine
end

