-- ==== Sys2Proof/Certificates/Slice0/Obligations.lean ====
section
/-!
DEFINITION. The statements for the provers. Rules are cited as chapter and number; `Gives`, `Full`, `Undisturbed` and the
tables are in Safety.lean.
-/

open Sys2Proof Sys2Proof.Machine

/-! ## Encodings and steps -/

/-- 03 R55 to R82: decoding the word of a well-formed instruction gives the instruction back, with every operand. -/
def Obligations.DecodeInvertsEncode : Prop :=
  ∀ (i : Instr) (w : Nat), i.wellFormed = true → encode i = some w → w < 2 ^ 32 ∧ decode w = .ok i

/-- Words that the spec writes out with their fields (01 R20, 03 R84, 04 R113, 05 R142, 06 R165, 10 R221, 11 R247,
15 R317, 16 R345, 18 R375, 20 R402) decode to the instructions they stand for, and the four words of 03 R82 are refused
for the reason it gives. -/
def Obligations.SpecWordsDecode : Prop :=
  (∀ p ∈ specWordsScalar ++ specWordsVector ++ specWordsMemory ++ specWordsSystem, decode p.1 = .ok p.2) ∧
    decode 0x5C000540 = .illegal ∧ decode 0x50000001 = .reserved ∧ decode 0x64C11010 = .misaligned ∧
    decode 0x5C600540 = .illegal

/-- 03 R82, 16 R336, 02 R41: when it is a running hart's turn, `step` fetches the word at its pc, notes the page in
the translation cache, and executes what the word decodes to; a word that is no instruction traps with the cause of
the first check it fails, and a fault of the fetch is taken. With an agenda the turn is named there; without one it
comes when no work beside the instructions can go on, and the next context follows. The order of turns is the model's
(log 49). 22 R440: an instruction whose work a changing island does waits for the change (which these are: log 46). -/
def Obligations.StepRunsDecodedInstruction : Prop :=
  ∀ (s : State), mayIssue s = true → s.hart.status = .running →
    (∀ p i, fetchPlace s s.hart = .ok p → decode (s.mem.readLe p.pa 4) = .ok i →
      let s1 := tlbFill s s.hart.agent s.hart.pc p.leaf
      (instrWaits s1 i = false → issue s = exec i s1) ∧ (instrWaits s1 i = true → issue s = .next s1)) ∧
    (∀ i, s.changing = [] → instrWaits s i = false) ∧
    (∀ p, fetchPlace s s.hart = .ok p → decode (s.mem.readLe p.pa 4) = .illegal →
      issue s = exec (.notAnInstruction (BitVec.ofNat 32 (s.mem.readLe p.pa 4)) 0x01)
        (tlbFill s s.hart.agent s.hart.pc p.leaf)) ∧
    (∀ p, fetchPlace s s.hart = .ok p → decode (s.mem.readLe p.pa 4) = .reserved →
      issue s = exec (.notAnInstruction (BitVec.ofNat 32 (s.mem.readLe p.pa 4)) 0x02)
        (tlbFill s s.hart.agent s.hart.pc p.leaf)) ∧
    (∀ p, fetchPlace s s.hart = .ok p → decode (s.mem.readLe p.pa 4) = .misaligned →
      issue s = exec (.notAnInstruction (BitVec.ofNat 32 (s.mem.readLe p.pa 4)) 0x07)
        (tlbFill s s.hart.agent s.hart.pc p.leaf)) ∧
    (∀ c, fetchPlace s s.hart = .error c → issue s = exec (.instructionFetchFault c) s) ∧
    (∀ rest, step { s with agenda := .issue :: rest } = issue { s with agenda := rest }) ∧
    (s.agenda = [] → background s = none → ∀ t, issue s = .next t → step s = .next t.endTurn)

/-- 10 R195, 11 R222: every step keeps memory and the cells' stores in their one canonical form. -/
def Obligations.StepKeepsCanonicalData : Prop :=
  ∀ s t : State, s.canonical = true → step s = .next t → t.canonical = true

/-- What reset leaves: no hart, no task and no job, memory that lists nothing, every drawbar and barrier zero (10
R216, R218), merge slots idle (20 R384), accumulators and weight buffers zero (11 R442), links and ports down, time 0
(02 R49); and the data in canonical form. That a byte nothing has written reads 0 is the model's choice (log 1). -/
def Obligations.ResetState : Prop :=
  State.reset.canonical = true ∧ (∀ a, State.reset.mem.read a = 0) ∧ State.reset.mode = .starting ∧
    State.reset.tasks = [] ∧ State.reset.jobs = [] ∧ State.reset.harts = [] ∧ State.reset.hart.status = .free ∧
    ∀ d : DieNo,
      (State.reset.dieOf d).cyc = 0 ∧ (State.reset.dieOf d).link.up = false ∧ (State.reset.dieOf d).cards = [] ∧
      (∀ n : Fin 64, State.reset.drawbar d n = { hw := 0, seq := 0 }) ∧
      (∀ n : Fin 64, State.reset.arrival d n = { xb := 0, xa := 0, cb := 0, ca := 0, armed := false }) ∧
      (∀ n : Fin 16, (State.reset.mergeSlot d n).state = .idle) ∧
      (∀ n : Fin 8, ((State.reset.dieOf d).ports[n]).up = false) ∧
      ∀ c : CellNo, ∀ r k : Nat,
        (State.reset.cellOf d c).accAt r k = 0 ∧ (State.reset.cellOf d c).wbAt k = 0 ∧ (State.reset.cellOf d c).start = 1

/-! ## Scalar registers and arithmetic -/

/-- 02 R22, R36; 16 R335: s0 reads as zero and discards what is written; a write of another register leaves the others
as they are and clears its poison; an empty source waits or, with its empty-action bit, traps with cause 0x04; a
poisoned one traps with cause 0x60. -/
def Obligations.ScalarRegisterFile : Prop :=
  ∀ (h : Hart) (d r : SReg) (x y : Word) (ea : Bool),
    h.src 0 ea = .ok 0 ∧ h.setS 0 x = h ∧
    (h.Gives r y → h.src r ea = .ok y) ∧
    (h.emptyS r = true →
      h.src r ea = if ea then .error (.trap { cause := 0x04, addr := BitVec.ofNat 64 r.val }) else .error .stall) ∧
    (r ≠ 0 → h.emptyS r = false → h.spoison[r] = true →
      h.src r ea = .error (.trap { cause := 0x60, addr := BitVec.ofNat 64 r.val })) ∧
    (d ≠ 0 → (h.setS d x).sreg[d] = x ∧ (h.setS d x).spoison[d] = false ∧
      ∀ q : SReg, q ≠ d → (h.setS d x).sreg[q] = h.sreg[q] ∧ (h.setS d x).spoison[q] = h.spoison[q])

/-- 04 R86, R87: each instruction of major 0x01 writes s[d] as the table says, moves past its word, and changes
nothing else. 04 R88, R89: immediates. In all of them ea covers a, and eb covers b. -/
def Obligations.ScalarIntegerResult : Prop :=
  (∀ (s : State) (d a b : SReg) (ea eb : Bool), s.hart.Full d → ∀ p ∈ scalarTwoSource,
    (∀ x y : Word, s.hart.Gives a x → s.hart.Gives b y →
      exec (p.1 d a b ea eb) s = .next (s.onlyHart fun h => { h.setS d (p.2 x y) with pc := h.pc + 4 })) ∧
    (∀ y : Word, s.hart.Gives b y → CoversEmpty s a ea (p.1 d a b ea eb)) ∧
    (∀ x : Word, s.hart.Gives a x → CoversEmpty s b eb (p.1 d a b ea eb))) ∧
  (∀ (s : State) (d a : SReg) (ea : Bool), s.hart.Full d → s.hart.emptyS a = true →
    (∀ imm : BitVec 15, ∀ i ∈ [Instr.addi d a imm ea, .andi d a imm ea, .ori d a imm ea, .xori d a imm ea],
      CoversEmpty s a ea i) ∧
    (∀ n : BitVec 6, ∀ i ∈ [Instr.slli d a n ea, .srli d a n ea, .srai d a n ea], CoversEmpty s a ea i) ∧
    (∀ n : BitVec 5, ∀ i ∈ [Instr.slli32 d a n ea, .srli32 d a n ea, .srai32 d a n ea], CoversEmpty s a ea i)) ∧
  ∀ (s : State) (d a : SReg) (ea : Bool) (x : Word), s.hart.Gives a x → s.hart.Full d →
    (∀ imm : BitVec 15,
      exec (.addi d a imm ea) s = .next (s.onlyHart fun h => (h.setS d (x + imm.signExtend 64)).advance) ∧
      exec (.andi d a imm ea) s = .next (s.onlyHart fun h => (h.setS d (x &&& imm.signExtend 64)).advance) ∧
      exec (.ori d a imm ea) s = .next (s.onlyHart fun h => (h.setS d (x ||| imm.zeroExtend 64)).advance) ∧
      exec (.xori d a imm ea) s = .next (s.onlyHart fun h => (h.setS d (x ^^^ imm.zeroExtend 64)).advance)) ∧
    (∀ n : BitVec 6,
      exec (.slli d a n ea) s = .next (s.onlyHart fun h => (h.setS d (x <<< n.toNat)).advance) ∧
      exec (.srli d a n ea) s = .next (s.onlyHart fun h => (h.setS d (x >>> n.toNat)).advance) ∧
      exec (.srai d a n ea) s = .next (s.onlyHart fun h => (h.setS d (x.sshiftRight n.toNat)).advance)) ∧
    (∀ n : BitVec 5,
      exec (.slli32 d a n ea) s =
        .next (s.onlyHart fun h => (h.setS d ((x.extractLsb' 0 32 <<< n.toNat).signExtend 64)).advance) ∧
      exec (.srli32 d a n ea) s =
        .next (s.onlyHart fun h => (h.setS d ((x.extractLsb' 0 32 >>> n.toNat).signExtend 64)).advance) ∧
      exec (.srai32 d a n ea) s =
        .next (s.onlyHart fun h => (h.setS d (((x.extractLsb' 0 32).sshiftRight n.toNat).signExtend 64)).advance))

/-- 04 R90: ldhi and addpc. -/
def Obligations.ScalarConstantResult : Prop :=
  ∀ (s : State) (d : SReg) (imm : BitVec 21), s.hart.Full d →
    exec (.ldhi d imm) s = .next (s.onlyHart fun h => (h.setS d (imm.signExtend 64 * 2 ^ 15)).advance) ∧
    exec (.addpc d imm) s = .next (s.onlyHart fun h => (h.setS d (h.pc + imm.signExtend 64 * 4)).advance)

/-- 04 R91, R92; 03 R63: compares and the instructions on condition bits write one condition bit, or for cget a scalar
register, and change nothing else. -/
def Obligations.CompareAndConditionResult : Prop :=
  ∀ (s : State) (a b : SReg) (ea eb : Bool) (x y : Word), s.hart.Gives a x → s.hart.Gives b y →
    let result (c : CBit) (v : Bool) : State := s.onlyHart fun h => { h with cbit := h.cbit.set c v, pc := h.pc + 4 }
    (∀ (c : CBit) (r : Rel) (imm : BitVec 11),
      (∃ v, exec (.cmp c a b r ea eb) s = .next (result c v) ∧ (v = true ↔ relHolds r x.toInt y.toInt)) ∧
      (∃ v, exec (.cmpN c a b r ea eb) s = .next (result c v) ∧ (v = true ↔ relHolds r x.toNat y.toNat)) ∧
      (∃ v, exec (.cmpi c a r imm ea) s = .next (result c v) ∧ (v = true ↔ relHolds r x.toInt imm.toInt)) ∧
      (∃ v, exec (.cmpiN c a r imm ea) s = .next (result c v) ∧ (v = true ↔ relHolds r x.toNat imm.toNat))) ∧
    (∀ c p q : CBit,
      exec (.cand c p q) s = .next (result c (s.hart.cbit[p] && s.hart.cbit[q])) ∧
      exec (.cor c p q) s = .next (result c (s.hart.cbit[p] || s.hart.cbit[q])) ∧
      exec (.cxor c p q) s = .next (result c (xor s.hart.cbit[p] s.hart.cbit[q])) ∧
      exec (.candn c p q) s = .next (result c (s.hart.cbit[p] && !s.hart.cbit[q])) ∧
      exec (.cnot c p) s = .next (result c (!s.hart.cbit[p])) ∧
      exec (.cput c a ea) s = .next (result c (x.getLsbD 0))) ∧
    ∀ (d : SReg) (p : CBit), s.hart.Full d →
      exec (.cget d p) s = .next (s.onlyHart fun h => (h.setS d (if h.cbit[p] then 1 else 0)).advance)

/-- 04 R96 to R100, R91: scalar floating arithmetic rounds once in the mode FRM holds, writes s[d] with the bits above
an f32 zero, and raises its flags; a float compare writes its condition bit and raises its flags. fma also reads s[d].
-/
def Obligations.ScalarFloatResult : Prop :=
  ∀ (s : State) (d a b : SReg) (t : SFltTy) (ea eb : Bool) (x y : Word),
    s.hart.Gives a x → s.hart.Gives b y → s.hart.Full d →
    let f := sfltFmt t
    let m := RMode.ofFrm s.hart.frm
    let result (r : Nat × FFlags) : State :=
      s.onlyHart fun h => ({ h with fflags := h.fflags ||| r.2 }.setS d (BitVec.ofNat 64 r.1)).advance
    (∀ p ∈ scalarFloatTwo, exec (p.1 d a b t ea eb) s = .next (result (p.2 f m (x.toNat % 2 ^ f.bits) (y.toNat % 2 ^ f.bits)))) ∧
    (∀ p ∈ scalarFloatOne,
      exec (p.1 d a t ea) s =
        .next (s.onlyHart fun h => ({ h with fflags := h.fflags ||| (p.2 t m x).2 }.setS d (p.2 t m x).1).advance)) ∧
    (∀ z, s.hart.Gives d z →
      exec (.fma d a b t ea eb) s =
        .next (result (fusedX f m false false (unpack f (x.toNat % 2 ^ f.bits)) (unpack f (y.toNat % 2 ^ f.bits))
          (unpack f (z.toNat % 2 ^ f.bits))))) ∧
    ∀ (c : CBit) (r : Rel),
      exec (.fcmp c a b r t ea eb) s =
        .next (s.onlyHart fun h => { h with
          cbit := h.cbit.set c (fpRel f r (x.toNat % 2 ^ f.bits) (y.toNat % 2 ^ f.bits)).1
          fflags := h.fflags ||| (fpRel f r (x.toNat % 2 ^ f.bits) (y.toNat % 2 ^ f.bits)).2
          pc := h.pc + 4 })

/-! ## Control transfer, gates, traps -/

/-- 04 R93: control transfers. 04 R94, 16 R318: jmpr, callr and ret trap for a target that is misaligned (0x05) or not
canonical (0x11), with the jump in TPC and the target in TADDR, and write no register. -/
def Obligations.ControlTransfer : Prop :=
  (∀ (s : State) (c : CBit) (a : SReg) (t l : Word) (disp : BitVec 22) (far : BitVec 26),
    s.hart.Gives a t → s.hart.Gives 31 l → s.hart.Full 31 →
    let go (pc : Word) : State := s.onlyHart fun h => { h with pc := pc }
    let link (pc : Word) : State := s.onlyHart fun h => { h.setS 31 (h.pc + 4) with pc := pc }
    let ok (x : Word) : Prop := x.toNat % 4 = 0 ∧ (bitsOf x 63 56 = 0 ∨ bitsOf x 63 56 = 255)
    exec (.br c disp) s =
      .next (go (if s.hart.cbit[c] then s.hart.pc + 4 * disp.signExtend 64 else s.hart.pc + 4)) ∧
    exec (.brn c disp) s =
      .next (go (if s.hart.cbit[c] then s.hart.pc + 4 else s.hart.pc + 4 * disp.signExtend 64)) ∧
    exec (.jmp far) s = .next (go (s.hart.pc + 4 * far.signExtend 64)) ∧
    exec (.call far) s = .next (link (s.hart.pc + 4 * far.signExtend 64)) ∧
    (ok t → exec (.jmpr a) s = .next (go t) ∧ exec (.callr a) s = .next (link t)) ∧
    (ok l → exec .ret s = .next (go l))) ∧
  ∀ (s : State) (a : SReg) (t l : Word), s.hart.Gives a t → s.hart.Gives 31 l →
    let cause (x : Word) : Option (BitVec 8) :=
      if x.toNat % 4 ≠ 0 then some 0x05 else if bitsOf x 63 56 ≠ 0 ∧ bitsOf x 63 56 ≠ 255 then some 0x11 else none
    (∀ c, cause t = some c → HandlerReady s { cause := c, addr := t } →
      (∃ u, exec (.jmpr a) s = .next u ∧ Trapped s { cause := c, addr := t } u) ∧
      ∃ u, exec (.callr a) s = .next u ∧ Trapped s { cause := c, addr := t } u) ∧
    ∀ c, cause l = some c → HandlerReady s { cause := c, addr := l } →
      ∃ u, exec .ret s = .next u ∧ Trapped s { cause := c, addr := l } u

/-- 02 R52 to R54, R23: gate reads its entry as a load does, and through a valid one at or above the current level it
links, keeps level and mask selection in PRIV, and goes to the target at the entry's level; gret undoes it where a
gate is active. A gate beyond COUNT or through an invalid entry (V = 0, a level below the current one, reserved bits)
traps with cause 0x03, through an entry with a misaligned TARGET with cause 0x05 (its TADDR: DEDUCED, log 20); a gret
without an active gate traps with cause 0x03, one whose s31 is misaligned or not canonical with 0x05 or 0x11 (04 R94). -/
def Obligations.GateAndReturn : Prop :=
  (∀ (s s1 : State) (n : Fin 1024) (x : Nat),
    n.val < bitsOf s.hart.gatebase 10 0 → s.hart.NoVectorMemory → s.hart.Full 31 →
    loadValue s ((s.hart.gatebase &&& ~~~0xFFF) + BitVec.ofNat 64 (16 * n.val)) 16 = .ok (x, s1) →
    x / 2 ^ 64 / 8 % 2 = 1 → x / 2 ^ 64 < 16 → s.hart.priv.cur.toNat ≤ x / 2 ^ 64 % 4 → x % 4 = 0 →
    exec (.gate n) s = .next (s1.onlyHart fun h => { h.setS 31 (s.hart.pc + 4) with
      priv := { ga := true, ppl := s.hart.priv.cur, pmsel := s.hart.msel, cur := BitVec.ofNat 2 (x / 2 ^ 64) }
      msel := if x / 2 ^ 64 / 4 % 2 = 1 then 0x0F else s.hart.msel
      pc := BitVec.ofNat 64 x })) ∧
  (∀ (s s1 : State) (n : Fin 1024) (x : Nat), n.val < bitsOf s.hart.gatebase 10 0 → s.hart.NoVectorMemory →
    loadValue s ((s.hart.gatebase &&& ~~~0xFFF) + BitVec.ofNat 64 (16 * n.val)) 16 = .ok (x, s1) →
    let invalid := x / 2 ^ 64 / 8 % 2 = 0 ∨ 16 ≤ x / 2 ^ 64 ∨ x / 2 ^ 64 % 4 < s.hart.priv.cur.toNat
    (invalid → HandlerReady s1 { cause := 0x03, addr := BitVec.ofNat 64 n.val } →
      ∃ u, exec (.gate n) s = .next u ∧ Trapped s1 { cause := 0x03, addr := BitVec.ofNat 64 n.val } u) ∧
    (¬invalid → x % 4 ≠ 0 → HandlerReady s1 { cause := 0x05, addr := BitVec.ofNat 64 x } →
      ∃ u, exec (.gate n) s = .next u ∧ Trapped s1 { cause := 0x05, addr := BitVec.ofNat 64 x } u)) ∧
  (∀ (s : State) (n : Fin 1024), bitsOf s.hart.gatebase 10 0 ≤ n.val →
    HandlerReady s { cause := 0x03, addr := BitVec.ofNat 64 n.val } →
    ∃ u, exec (.gate n) s = .next u ∧ Trapped s { cause := 0x03, addr := BitVec.ofNat 64 n.val } u) ∧
  (∀ (s : State) (l : Word), s.hart.priv.ga = true → s.hart.Gives 31 l → l.toNat % 4 = 0 → canonical l = true →
    exec .gret s = .next (s.onlyHart fun h => { h with
      msel := h.priv.pmsel
      priv := { h.priv with cur := h.priv.ppl, ga := false }
      pc := l })) ∧
  (∀ (s : State) (l : Word) (c : BitVec 8), s.hart.priv.ga = true → s.hart.Gives 31 l →
    c = (if l.toNat % 4 ≠ 0 then 0x05 else 0x11) → (l.toNat % 4 ≠ 0 ∨ canonical l = false) →
    HandlerReady s { cause := c, addr := l } →
    ∃ u, exec .gret s = .next u ∧ Trapped s { cause := c, addr := l } u) ∧
  ∀ s : State, s.hart.priv.ga = false → HandlerReady s { cause := 0x03, addr := 0x4C000300 } →
    ∃ u, exec .gret s = .next u ∧ Trapped s { cause := 0x03, addr := 0x4C000300 } u

/-- 16 R318, R324; 03 R82: trap and brk, a word that is no instruction and a fault of a fetch take their traps: the
cause, TADDR and saved pc, level and mask selection are recorded, the level rises to S at least, the mask selection is
all-ones, and the hart goes to its handler. 16 R324: tret restores level and mask selection. Without a replay record
it goes to TPC, or past it where DONE is set; with one, the held entries return to the vector queue once there is room
for them (02 R38, R40), the first left out where DONE is set, and the hart goes to the pc the record keeps. A tret below
S, or to a level above the current one, traps with cause 0x03. -/
def Obligations.TrapsEnterAndReturn : Prop :=
  (∀ s : State,
    (∀ n : BitVec 8, HandlerReady s { cause := 0x08, sub := n, done := true } →
      ∃ u, exec (.trap n) s = .next u ∧ Trapped s { cause := 0x08, sub := n, done := true } u) ∧
    (∀ b : BitVec 26, HandlerReady s { cause := 0x09, addr := BitVec.ofNat 64 (0xFC000000 + b.toNat) } →
      ∃ u, exec (.brk b) s = .next u ∧ Trapped s { cause := 0x09, addr := BitVec.ofNat 64 (0xFC000000 + b.toNat) } u) ∧
    (∀ (w : BitVec 32) (c : BitVec 8), HandlerReady s { cause := c, addr := w.zeroExtend 64 } →
      ∃ u, exec (.notAnInstruction w c) s = .next u ∧ Trapped s { cause := c, addr := w.zeroExtend 64 } u) ∧
    ∀ c : BitVec 8, HandlerReady s { cause := c, addr := s.hart.pc } →
      ∃ u, exec (.instructionFetchFault c) s = .next u ∧ Trapped s { cause := c, addr := s.hart.pc } u) ∧
  ∀ s : State,
    let tc := s.hart.trap.tcause
    (2 ≤ s.hart.priv.cur.toNat → tc.plv.toNat ≤ s.hart.priv.cur.toNat →
      (tc.rh = false →
        exec .tret s = .next (s.onlyHart fun h => { h with
          priv := { h.priv with cur := tc.plv }
          msel := tc.pmsel
          pc := if tc.done then h.trap.tpc + 4 else h.trap.tpc })) ∧
      ∀ r, tc.rh = true → s.hart.replay = some r →
        let back := if tc.done then r.entries.tail else r.entries
        exec .tret s =
          if s.hart.vq.length + back.length ≤ 32 ∧ s.hart.reads + owing back + r.late.length ≤ 8 then
            .next (s.onlyHart fun h => { h with
              priv := { h.priv with cur := tc.plv }
              msel := tc.pmsel
              vq := h.vq ++ back
              producers := h.producers ++ r.late.map fun p =>
                { p with behind := owing h.vq + (p.behind - (owing r.entries - owing back)) }
              pc := r.rpc
              replay := none
              trap := { h.trap with tcause := { tc with rh := false } } })
          else .next s) ∧
    (s.hart.priv.cur.toNat < 2 ∨ s.hart.priv.cur.toNat < tc.plv.toNat →
      HandlerReady s { cause := 0x03, addr := 0x54000100 } →
      ∃ u, exec .tret s = .next u ∧ Trapped s { cause := 0x03, addr := 0x54000100 } u)

/-! ## Traps of the lanes, double faults -/

/-- 16 R318: a trap in the oldest entry of the vector queue holds the whole queue back as the replay record, with that
entry's pc in TPC, the length of the queue in TQPOS, RH set and the next pc kept in the record; registers and memory
are as they were. 16 R334: a fault in a vector-queue entry while a replay record is held, and a fault in fetching a
handler's first instruction, are double faults: the hart halts in its slot, its first cause stays with the second as
subcode, and its grant, channels and pending cancel are given up. The tasks of a module have nonzero names. -/
def Obligations.VectorTrapAndDoubleFault : Prop :=
  (∀ (s : State) (t : Trap) (e : VEntry) (rest : List VEntry), s.hart.vq = e :: rest → s.hart.replay = none →
    HandlerReady s t →
    let u := s.takeVectorTrap t
    (∃ late, u.hart.replay =
        some { entries := (e :: rest).map fun x => { x with inAnvil := false }, rpc := s.hart.pc, late := late } ∧
      ((∀ p ∈ s.hart.producers, p.behind = 0) → late = [])) ∧
    u.hart.vq = [] ∧ u.hart.trap.tpc = e.pc &&& ~~~3 ∧ u.hart.trap.tqpos = BitVec.ofNat 6 (rest.length + 1) ∧
    u.hart.trap.tcause =
      { pmsel := s.hart.msel, rh := true, plv := s.hart.priv.cur, done := t.done, hnd := t.hnd, sub := t.sub, cause := t.cause } ∧
    u.hart.trap.taddr = t.addr ∧ u.hart.msel = 0x0F ∧
    u.hart.priv.cur = (if s.hart.priv.cur < 2 then 2 else s.hart.priv.cur) ∧
    u.hart.pc = handlerOf s s.hart ∧ u.hart.sreg = s.hart.sreg ∧ u.hart.vreg = s.hart.vreg ∧ u.hart.cbit = s.hart.cbit ∧
    u.hart.vl = s.hart.vl ∧ u.hart.buffer = s.hart.buffer ∧ u.mem = s.mem) ∧
  (∀ (s : State) (t : Trap), s.hart.status = .running → s.hart.replay.isSome = true →
    s.takeVectorTrap t = s.wake.doubleFault t.cause) ∧
  (∀ (s : State) (c : BitVec 8), fetchPlace s s.hart = .error c → s.atHandler = s.doubleFault c) ∧
  (∀ (s : State) (p : Place), fetchPlace s s.hart = .ok p → s.atHandler = s) ∧
  ∀ (s : State) (c : BitVec 8), (∀ t ∈ s.tasks, t.tid ≠ 0) →
    let u := s.doubleFault c
    u.hart.status = .haltedDouble ∧ u.hart.grant = 0 ∧ u.hart.cancel = false ∧ u.hart.budget = none ∧ u.hart.heldChannels = [] ∧
    u.hart.trap.tcause.cause = s.hart.trap.tcause.cause ∧ u.hart.trap.tcause.sub = c ∧
    u.hart.trap.tpc = s.hart.trap.tpc ∧ u.hart.hearth = s.hart.hearth ∧ u.hart.reservations = s.hart.reservations ∧
    u.hart.replay = s.hart.replay ∧ u.hart.buffer = s.hart.buffer ∧ ∀ n : HReg, u.hart.handles[n].bound = false

/-! ## Control registers -/

/-- 02 R42 to R52; 16 R341: crd of each register gives its fields, at the levels that may read it. Registers that the
lanes write return through the read queue, and of these FFLAGS, TSTAT, HSTAT, QSTAT and TCNT wait for an empty vector
queue. How much CYC advances before it is read is free (log 3). -/
def Obligations.ControlRegisterReads : Prop :=
  ∀ (s : State) (d : SReg),
    (∀ p ∈ scalarSideReads, p.2.1 ≤ s.hart.priv.cur.toNat → s.hart.Full d →
      exec (.crd d (BitVec.ofNat 12 p.1)) s = .next (s.onlyHart fun h => (h.setS d (p.2.2 s)).advance)) ∧
    (s.hart.Full d →
      exec (.crd d 0x046) s =
        .next (s.observeTime.onlyHart fun h => (h.setS d (s.observeTime.dieOf s.hart.die).cyc).advance)) ∧
    (s.hart.reads < 8 → s.hart.vq = [] →
      (∀ p ∈ vectorSideReads,
        exec (.crd d (BitVec.ofNat 12 p.1)) s = .next (s.onlyHart fun h => (h.owed d (p.2.2 s)).advance)) ∧
      (2 ≤ s.hart.priv.cur.toNat → ∀ c : Fin 32,
        exec (.crd d (BitVec.ofNat 12 (0x120 + c.val))) s =
          .next (s.onlyHart fun h => (h.owed d (h.tcnt[c].zeroExtend 64)).advance))) ∧
    (s.hart.reads < 8 →
      exec (.crd d 0x000) s = .next (s.onlyHart fun h => (h.owed d (BitVec.ofNat 64 h.vl)).advance) ∧
      exec (.crd d 0x011) s = .next (s.onlyHart fun h => (h.owed d (h.tgrp.zeroExtend 64)).advance)) ∧
    (s.hart.vq ≠ [] → (∀ n ∈ [0x009, 0x010, 0x021, 0x030], exec (.crd d (BitVec.ofNat 12 n)) s = .next s) ∧
      (2 ≤ s.hart.priv.cur.toNat → ∀ c : Fin 32, exec (.crd d (BitVec.ofNat 12 (0x120 + c.val))) s = .next s))

/-- 02 R43 to R52: cwr writes the fields of each register and changes nothing else, at the levels that may write it.
FFLAGS, TSTAT and QSTAT wait for an empty vector queue (16 R341). SQBASE is one value for the cell (model, log 21). 02
R43, R47, R49, R51; 16 R319, R340; 18 R355: the control registers whose cwr does more than store its fields. -/
def Obligations.ControlRegisterWrites : Prop :=
  (∀ (s : State) (a : SReg) (v : Word), s.hart.Gives a v →
    (∀ p ∈ plainWrites, p.2.1 ≤ s.hart.priv.cur.toNat → p.2.2.1 v →
      exec (.cwr a (BitVec.ofNat 12 p.1)) s = .next (s.onlyHart fun h => (p.2.2.2 v h).advance)) ∧
    (∀ p ∈ waitingWrites, p.2.2.1 v →
      exec (.cwr a (BitVec.ofNat 12 p.1)) s =
        if s.hart.vq = [] then .next (s.onlyHart fun h => (p.2.2.2 v h).advance) else .next s) ∧
    (2 ≤ s.hart.priv.cur.toNat →
      (∀ w : Width, v = BitVec.ofNat 64 w.code →
        exec (.cwr a 0x004) s = .next (s.onlyHart fun h => { h with vew := w, pc := h.pc + 4 })) ∧
      ∀ c : Fin 32, v.toNat < 2 ^ 32 →
        exec (.cwr a (BitVec.ofNat 12 (0x120 + c.val))) s =
          .next (s.onlyHart fun h => { h with tcnt := h.tcnt.set c (v.truncate 32), pc := h.pc + 4 })) ∧
    (s.hart.priv.cur = 3 →
      exec (.cwr a 0x183) s =
        .next ((s.setCell s.hart.die s.hart.cell { s.cellOf s.hart.die s.hart.cell with sqbase := v }).onlyHart
          Hart.advance))) ∧
  ∀ (s : State) (a : SReg) (v : Word), s.hart.Gives a v →
    (2 ≤ s.hart.priv.cur.toNat →
      exec (.cwrVl a) s = .next (s.onlyHart fun h =>
        { h with vl := min v.toNat (h.vlmax (widthBits h.vew)), pc := h.pc + 4 }) ∧
      exec (.cwrPrio a) s = .next (s.onlyHart fun h =>
        { h with prio := BitVec.ofNat 4 (min (v.toNat % 16) h.ceil.toNat), pc := h.pc + 4 }) ∧
      exec (.cwrStripmax a) s = .next (s.onlyHart fun h =>
        { h with stripmax := BitVec.ofNat 32 (max 4096 (v.toNat % 2 ^ 32)), pc := h.pc + 4 }) ∧
      exec (.cwrAsid a) s = .next (s.onlyHart fun h => { h with asid := v.truncate 16, pc := h.pc + 4 }) ∧
      (v.toNat / 2 ^ 38 = 0 → v.toNat / 2 ^ 20 % 2 ^ 9 = 0 →
        exec (.cwrTcause a) s = .next (s.onlyHart fun h => { h with
          pc := h.pc + 4
          trap := { h.trap with tcause := {
            pmsel := v.extractLsb' 33 5, rh := v.getLsbD 32 && h.replay.isSome, plv := v.extractLsb' 30 2
            done := v.getLsbD 29, hnd := v.extractLsb' 16 4, sub := v.extractLsb' 8 8, cause := v.truncate 8 } } })) ∧
      (v.toNat / 2 ^ 37 = 0 → partitionExists (v.truncate 32) (v.toNat / 2 ^ 32) = true →
        (∀ h ∈ cellHarts s s.hart.die s.hart.cell, ∀ i ∈ carriages (heldCarriages h),
          partitionOf (s.cellOf s.hart.die s.hart.cell).start i = partitionOf (v.truncate 32) i) →
        exec (.cwrLpart a) s =
          .next ((s.setCell s.hart.die s.hart.cell { s.cellOf s.hart.die s.hart.cell with start := v.truncate 32 ||| 1 }).onlyHart
            fun h => { h with part := v.extractLsb' 32 5, pc := h.pc + 4 }))) ∧
    (1 ≤ s.hart.priv.cur.toNat → v.toNat / 2 ^ 16 = 0 → v.toNat / 4 % 64 = 0 → v.toNat % 4 ≤ s.hart.priv.cur.toNat →
      v.toNat / 2 ^ 13 % 4 ≤ s.hart.priv.cur.toNat →
      exec (.cwrPriv a) s = .next (s.onlyHart fun h => { h with
        pc := h.pc + 4
        priv := { ga := v.getLsbD 15, ppl := v.extractLsb' 13 2, pmsel := v.extractLsb' 8 5, cur := v.truncate 2 } })) ∧
    (v.toNat / 2 % 8 = 0 → v.toNat / 16 = s.hart.hctl.toNat / 16 ∨ s.hart.hearth.inSlots = [] →
      exec (.cwrHctl a) s = .next (s.onlyHart fun h => { h with hctl := v, pc := h.pc + 4 }))

/-- 02 R43, R51; 16 R321: crd and cwr of a number not in the table, or of a register never written, trap with cause
0x01; below the level shown with 0x03; a value the field map refuses with 0x02; a cwr of LPART that moves a granted
carriage to another partition (R47) or of HCTL that moves the area under a node (18 R355) with 0x11. Nothing is
written. That a cwr of PRIV with reserved bits set traps with 0x02 whatever CUR and PPL it names is DEDUCED (log 22). -/
def Obligations.ControlRegisterRefused : Prop :=
  ∀ s : State,
    (∀ (d : SReg) (n : BitVec 12) (w : Nat), encode (.crd d n) = some w →
      ((∀ p ∈ readableRegisters, p.1 ≠ n.toNat) → HandlerReady s { cause := 0x01, addr := BitVec.ofNat 64 w } →
        ∃ u, exec (.crd d n) s = .next u ∧ Trapped s { cause := 0x01, addr := BitVec.ofNat 64 w } u) ∧
      ∀ p ∈ readableRegisters, p.1 = n.toNat → s.hart.priv.cur.toNat < p.2 →
        HandlerReady s { cause := 0x03, addr := BitVec.ofNat 64 w } →
        ∃ u, exec (.crd d n) s = .next u ∧ Trapped s { cause := 0x03, addr := BitVec.ofNat 64 w } u) ∧
    ∀ (a : SReg) (v : Word), s.hart.Gives a v →
      (∀ n : BitVec 12, (∀ p ∈ writableRegisters, p.1 ≠ n.toNat) → HandlerReady s { cause := 0x01, addr := v } →
        ∃ u, exec (.cwr a n) s = .next u ∧ Trapped s { cause := 0x01, addr := v } u) ∧
      (∀ p ∈ writableRegisters, s.hart.priv.cur.toNat < p.2.1 → ∀ w, encode (p.2.2 a) = some w →
        HandlerReady s { cause := 0x03, addr := BitVec.ofNat 64 w } →
        ∃ u, exec (p.2.2 a) s = .next u ∧ Trapped s { cause := 0x03, addr := BitVec.ofNat 64 w } u) ∧
      (HandlerReady s { cause := 0x02, addr := v } →
        (∀ p ∈ plainWrites, p.2.1 ≤ s.hart.priv.cur.toNat → ¬p.2.2.1 v →
          ∃ u, exec (.cwr a (BitVec.ofNat 12 p.1)) s = .next u ∧ Trapped s { cause := 0x02, addr := v } u) ∧
        (s.hart.vq = [] → ∀ p ∈ waitingWrites, ¬p.2.2.1 v →
          ∃ u, exec (.cwr a (BitVec.ofNat 12 p.1)) s = .next u ∧ Trapped s { cause := 0x02, addr := v } u)) ∧
      (HandlerReady s { cause := 0x02, addr := v } →
        let refused (i : Instr) : Prop := ∃ u, exec i s = .next u ∧ Trapped s { cause := 0x02, addr := v } u
        (2 ≤ s.hart.priv.cur.toNat →
          ((∀ w : Width, v ≠ BitVec.ofNat 64 w.code) → refused (.cwr a 0x004)) ∧
          (2 ^ 32 ≤ v.toNat → ∀ c : Fin 32, refused (.cwr a (BitVec.ofNat 12 (0x120 + c.val)))) ∧
          (v.toNat / 2 ^ 38 ≠ 0 ∨ v.toNat / 2 ^ 20 % 2 ^ 9 ≠ 0 → refused (.cwrTcause a)) ∧
          (v.toNat / 2 ^ 37 ≠ 0 ∨ partitionExists (v.truncate 32) (v.toNat / 2 ^ 32) = false → refused (.cwrLpart a))) ∧
        (v.toNat / 2 % 8 ≠ 0 → refused (.cwrHctl a)) ∧
        (1 ≤ s.hart.priv.cur.toNat → v.toNat / 2 ^ 16 ≠ 0 ∨ v.toNat / 4 % 64 ≠ 0 → refused (.cwrPriv a))) ∧
      (HandlerReady s { cause := 0x11, addr := v } →
        let refused (i : Instr) : Prop := ∃ u, exec i s = .next u ∧ Trapped s { cause := 0x11, addr := v } u
        (2 ≤ s.hart.priv.cur.toNat → v.toNat / 2 ^ 37 = 0 → partitionExists (v.truncate 32) (v.toNat / 2 ^ 32) = true →
          (∃ h ∈ cellHarts s s.hart.die s.hart.cell, ∃ i ∈ carriages (heldCarriages h),
            partitionOf (s.cellOf s.hart.die s.hart.cell).start i ≠ partitionOf (v.truncate 32) i) → refused (.cwrLpart a)) ∧
        (v.toNat / 2 % 8 = 0 → v.toNat / 16 ≠ s.hart.hctl.toNat / 16 → s.hart.hearth.inSlots ≠ [] → refused (.cwrHctl a))) ∧
      (1 ≤ s.hart.priv.cur.toNat → v.toNat / 2 ^ 16 = 0 → v.toNat / 4 % 64 = 0 →
        s.hart.priv.cur.toNat < v.toNat % 4 ∨ s.hart.priv.cur.toNat < v.toNat / 2 ^ 13 % 4 →
        ∀ w, encode (.cwrPriv a) = some w → HandlerReady s { cause := 0x03, addr := BitVec.ofNat 64 w } →
        ∃ u, exec (.cwrPriv a) s = .next u ∧ Trapped s { cause := 0x03, addr := BitVec.ofNat 64 w } u)

/-! ## Memory -/

/-- 04 R101, R102, R105; 10 R208: a load waits for earlier vector memory instructions, reads the latest of its bytes
among memory and the hart's buffered stores, little-endian, and extends them into s[d], which stays empty until they
arrive. Buffered scatter-adds that overlap it are committed first, once the vector queue is empty. It waits while an
earlier vector memory instruction is queued (R105) or s[d] is empty (02 R37). Every form: ld and ld.aq. -/
def Obligations.LoadResult : Prop :=
  ∀ (s s1 : State) (d a : SReg) (disp : BitVec 12) (size : Size) (signed ea : Bool) (scope : Scope) (x : Word),
    s.hart.Gives a x →
    let n := sizeBytes size
    (¬(s.hart.NoVectorMemory ∧ s.hart.Full d) →
      exec (.ld d a disp size signed ea) s = .next s ∧ exec (.ldAcq d a size scope ea) s = .next s) ∧
    (s.hart.NoVectorMemory → s.hart.Full d →
    let load (va : Word) (i : Instr) (signed : Bool) : Prop :=
      ∀ p, ownPlace s s.hart.agent .read va n = .ok p →
        (meetsAdds s.hart.buffer p.pa n = true → s.hart.vq ≠ [] → exec i s = .next s) ∧
        ((if meetsAdds s.hart.buffer p.pa n then quenchBefore s = .ok s1 else s1 = s) →
        (∀ k < n, bufferedByte s1.hart.buffer (p.pa + k) = none → readFault s1 (p.pa + k) 1 = none) →
        ∃ v : BitVec 64, (∀ k < n, v.extractLsb' (8 * k) 8 = (bufferedByte s1.hart.buffer (p.pa + k)).getD (s1.mem.read (p.pa + k))) ∧
          exec i s = .next ((tlbFill s1 s.hart.agent va p.leaf).onlyHart fun h =>
            (h.produce d (if signed then (v.extractLsb' 0 (8 * n)).signExtend 64
              else (v.extractLsb' 0 (8 * n)).zeroExtend 64)).advance))
    load (x + disp.signExtend 64 * BitVec.ofNat 64 n) (.ld d a disp size signed ea) signed ∧
    load x (.ldAcq d a size scope ea) false)

/-- 04 R102, R105; 18 R368: a store first commits buffered stores it overlaps and snapshots live leaves that read its
bytes, then stores the low bytes of its data register at its place and nowhere else. It waits while an earlier vector
memory instruction is queued. Every form: st and st.rl. That the bytes stored lose their poison and error marks is the
model's choice (log 10). -/
def Obligations.StoreResult : Prop :=
  (∀ (s s1 : State) (d a b : SReg) (disp : BitVec 12) (size : Size) (ea eb : Bool) (scope : Scope) (x y z : Word),
    s.hart.Gives a x → s.hart.Gives d y → s.hart.Gives b z →
    let n := sizeBytes size
    (¬s.hart.NoVectorMemory →
      exec (.st d a disp size ea) s = .next s ∧ exec (.stRel a b size scope ea eb) s = .next s) ∧
    (s.hart.NoVectorMemory →
    let stores (va : Word) (i : Instr) (v : Word) : Prop :=
      ∀ p, ownPlace s s.hart.agent .write va n = .ok p → storePrelude s [(p.pa, n)] = .ok s1 →
        ∃ t, exec i s = .next t ∧ SameMemoryBut s1 t p.pa n ∧
          (∀ k < n, t.mem.read (p.pa + k) = v.extractLsb' (8 * k) 8) ∧
          t = { s1 with
            mem := t.mem
            poisoned := s1.poisoned.filter fun q => !(p.pa ≤ q && q < p.pa + n)
            uncorrectable := s1.uncorrectable.filter fun q => !(p.pa ≤ q && q < p.pa + n)
            cells := (tlbFill s1 s.hart.agent va p.leaf).cells
            hart := s1.hart.advance }
    stores (x + disp.signExtend 64 * BitVec.ofNat 64 n) (.st d a disp size ea) y ∧
    stores x (.stRel a b size scope ea eb) z)) ∧
  ∀ (s : State) (pa n : Nat), s.hart.NoLiveLeaf →
    storePrelude s [(pa, n)] = (if meetsBuffer s.hart.buffer pa n then keeping s (quenchBefore s) else .ok s)

/-- 04 R106 to R108: an atomic gives s[d] the old value, zero-extended, and writes its function of old value and s[b]
in one step; cas writes s[b] only where the old value is the low bits of s[d]. No other byte changes. 02 R35, R37: it
waits for a full s[d] and leaves it empty until the old value arrives. R105: it waits while an earlier vector memory
instruction is queued. -/
def Obligations.AtomicResult : Prop :=
  ∀ (s s1 : State) (d a b : SReg) (size : ASize) (scope : Scope) (ea eb : Bool) (x y z : Word),
    s.hart.Gives a x → s.hart.Gives b y →
    let bits := match size with | .w32 => 32 | .w64 => 64
    let n := bits / 8
    (¬(s.hart.NoVectorMemory ∧ s.hart.Full d) → ∀ f ∈ atomicTable, exec (f.1 d a b size scope ea eb) s = .next s) ∧
    (s.hart.Gives d z → ¬s.hart.NoVectorMemory → exec (.cas d a b size scope ea eb) s = .next s) ∧
    (s.hart.emptyS d = true → exec (.cas d a b size scope ea eb) s = .next s) ∧
    (s.hart.NoVectorMemory → s.hart.Full d → ∀ p, ownPlace s s.hart.agent .both x n = .ok p → storePrelude s [(p.pa, n)] = .ok s1 → readFault s1 p.pa n = none →
      let old := s1.mem.readLe p.pa n
      let done (t : State) : Prop := t = { s1 with
        mem := t.mem
        poisoned := t.poisoned
        uncorrectable := t.uncorrectable
        cells := (tlbFill s1 s.hart.agent x p.leaf).cells
        hart := (s1.hart.produce d (BitVec.ofNat 64 old)).advance }
      (∀ f ∈ atomicTable, ∃ t, exec (f.1 d a b size scope ea eb) s = .next t ∧ done t ∧ SameMemoryBut s1 t p.pa n ∧
        t.mem.readLe p.pa n = f.2 bits old (y.toNat % 2 ^ bits) % 2 ^ bits) ∧
      (s.hart.Gives d z → ∃ t, exec (.cas d a b size scope ea eb) s = .next t ∧ done t ∧ SameMemoryBut s1 t p.pa n ∧
        t.mem.readLe p.pa n = if old = z.toNat % 2 ^ bits then y.toNat % 2 ^ bits else old))

/-- 04 R102, R108; 16 R321: an access that is misaligned, meets the hart's hearth area, or does not translate traps with
cause and address, and has no effect. R102: a load or an atomic that reads a poisoned byte from memory traps with 0x14,
else one that reads a byte with an uncorrectable error with 0x61, after the implicit quench it needed. -/
def Obligations.AccessTraps : Prop :=
  ∀ (s : State) (d a b : SReg) (disp : BitVec 12) (size : Size) (asize : ASize) (signed ea eb : Bool) (scope : Scope)
    (x y z : Word) (c : BitVec 8),
    s.hart.Gives a x → s.hart.Gives b y → s.hart.Gives d z → s.hart.NoVectorMemory →
    let n := sizeBytes size
    let traps (k : Access) (va : Word) (n : Nat) (i : Instr) : Prop :=
      ownPlace s s.hart.agent k va n = .error c → HandlerReady s { cause := c, addr := va } →
        ∃ u, exec i s = .next u ∧ Trapped s { cause := c, addr := va } u
    let far := x + disp.signExtend 64 * BitVec.ofNat 64 n
    let an := match asize with | .w32 => 4 | .w64 => 8
    traps .read far n (.ld d a disp size signed ea) ∧ traps .read x n (.ldAcq d a size scope ea) ∧
    traps .write far n (.st d a disp size ea) ∧ traps .write x n (.stRel a b size scope ea eb) ∧
    (∀ f ∈ atomicTable, traps .both x an (f.1 d a b asize scope ea eb)) ∧ traps .both x an (.cas d a b asize scope ea eb) ∧
    (∀ s1 : State,
      let marked (l : List Nat) (pa n : Nat) : Prop := ∃ k < n, bufferedByte s1.hart.buffer (pa + k) = none ∧ pa + k ∈ l
      let faults (va : Word) (i : Instr) : Prop := ∀ p, ownPlace s s.hart.agent .read va n = .ok p →
        (if meetsAdds s.hart.buffer p.pa n then quenchBefore s = .ok s1 else s1 = s) →
        ∀ q : BitVec 8, (marked s1.poisoned p.pa n ∧ q = 0x14 ∨
            ¬marked s1.poisoned p.pa n ∧ marked s1.uncorrectable p.pa n ∧ q = 0x61) →
          HandlerReady s1 { cause := q, addr := va } →
          ∃ u, exec i s = .next u ∧ Trapped s1 { cause := q, addr := va } u
      faults far (.ld d a disp size signed ea) ∧ faults x (.ldAcq d a size scope ea) ∧
      ∀ (p : Place) (q : BitVec 8), ownPlace s s.hart.agent .both x an = .ok p → storePrelude s [(p.pa, an)] = .ok s1 →
        ((∃ k < an, p.pa + k ∈ s1.poisoned) ∧ q = 0x14 ∨
          (∀ k < an, p.pa + k ∉ s1.poisoned) ∧ (∃ k < an, p.pa + k ∈ s1.uncorrectable) ∧ q = 0x61) →
        HandlerReady s1 { cause := q, addr := x } →
        (∀ f ∈ atomicTable, ∃ u, exec (f.1 d a b asize scope ea eb) s = .next u ∧ Trapped s1 { cause := q, addr := x } u) ∧
        ∃ u, exec (.cas d a b asize scope ea eb) s = .next u ∧ Trapped s1 { cause := q, addr := x } u) ∧
    ∀ (k : Access) (va : Word) (m : Nat), 0 < m →
      (ownPlace s s.hart.agent k va m = .error 0x05 ↔ va.toNat % m ≠ 0)

/-- 04 R111, R112; 16 R342: fences wait for the accesses of earlier vector instructions and then only move on;
cache.wb and cache.inv translate each page of their range as a read and change no value that a load can read. 16 R338,
R339: tlb.inv drops from the translation caches in its scope the entries its selector names, and tlb.prb gives the
leaf entry with the 4 KiB frame and the page size, or the cause of a walk that finds none or of a leaf that leads to no
place (10 R194, R195). Below S both trap with 0x03; a selector with reserved bits traps with 0x02. -/
def Obligations.FencesAndCaches : Prop :=
  (∀ (s : State) (a b : SReg) (scope : Scope) (x len : Word),
    (s.hart.NoVectorMemory → ∀ i ∈ [Instr.fence scope, .fenceLd scope, .fenceSt scope, .fenceEng scope],
      exec i s = .next (s.onlyHart Hart.advance)) ∧
    (¬s.hart.NoVectorMemory → ∀ i ∈ [Instr.fence scope, .fenceLd scope, .fenceSt scope, .fenceEng scope],
      exec i s = .next s) ∧
    (s.hart.Gives a x → s.hart.Gives b len →
      (len.toNat ≤ 2 ^ 20 →
        (∀ k < x.toNat % 64 + len.toNat,
          ∃ p, translate s s.hart.agent .read ((x &&& ~~~63) + BitVec.ofNat 64 k) = .ok p) →
        ∀ i ∈ [Instr.cacheWb a b scope, .cacheInv a b scope],
          ∃ t, exec i s = .next t ∧ t = { s with cells := t.cells, hart := s.hart.advance } ∧
            ∀ n : Fin 192, { t.cells[n] with tlb := s.cells[n].tlb } = s.cells[n]) ∧
      (2 ^ 20 < len.toNat → HandlerReady s { cause := 0x12, addr := len } →
        ∀ i ∈ [Instr.cacheWb a b scope, .cacheInv a b scope],
          ∃ u, exec i s = .next u ∧ Trapped s { cause := 0x12, addr := len } u))) ∧
  (∀ (s : State) (d a b : SReg) (scope : Scope) (sel : Word),
    (s.hart.priv.cur.toNat < 2 → ∀ i ∈ [Instr.tlbInv a b scope, .tlbPrb d b], ∀ w, encode i = some w →
      HandlerReady s { cause := 0x03, addr := BitVec.ofNat 64 w } →
      ∃ u, exec i s = .next u ∧ Trapped s { cause := 0x03, addr := BitVec.ofNat 64 w } u) ∧
    ∀ va, 2 ≤ s.hart.priv.cur.toNat → s.hart.Gives a va → s.hart.Gives b sel → sel.toNat / 2 ^ 16 % 2 ^ 46 ≠ 0 →
      HandlerReady s { cause := 0x02, addr := sel } →
      ∃ u, exec (.tlbInv a b scope) s = .next u ∧ Trapped s { cause := 0x02, addr := sel } u) ∧
  ∀ (s : State) (d a b : SReg) (scope : Scope) (va sel : Word), 2 ≤ s.hart.priv.cur.toNat →
    (s.hart.Gives a va → s.hart.Gives b sel → sel.toNat / 2 ^ 16 % 2 ^ 46 = 0 →
      ∃ t, exec (.tlbInv a b scope) s = .next t ∧
        t = { s with cells := t.cells, hart := s.hart.advance } ∧
        ∀ (dd : DieNo) (c : CellNo),
          let hit := match scope with
            | .h | .co | .ce => dd = s.hart.die ∧ c = s.hart.cell
            | .d => dd = s.hart.die
            | .p | .sy => True
          let keep (e : TlbEntry) : Bool := !(sel.getLsbD 63 ||
            (va.toNat % 2 ^ 57 / 2 ^ (12 + e.log) == e.vpage / 2 ^ e.log &&
              (!sel.getLsbD 62 || (e.asid == sel.truncate 16 && !teG e.entry))))
          (hit → t.cellOf dd c = { s.cellOf dd c with tlb := (s.cellOf dd c).tlb.filter keep }) ∧
          (¬hit → t.cellOf dd c = s.cellOf dd c)) ∧
    (s.hart.Gives b va → s.hart.Full d →
      (∀ c, (findLeaf s s.hart.agent va = .error c ∨
          ∃ l, findLeaf s s.hart.agent va = .ok l ∧ resolve s s.hart.agent l.entry (leafAddr l va) = .error c) →
        exec (.tlbPrb d b) s = .next (s.onlyHart fun h => (h.setS d (0x8000000000000000 + c.zeroExtend 64)).advance)) ∧
      ∀ l pa, findLeaf s s.hart.agent va = .ok l → resolve s s.hart.agent l.entry (leafAddr l va) = .ok pa →
        l.log ∈ [0, 4, 9, 18] →
        ∃ x : Word, exec (.tlbPrb d b) s = .next ((tlbFill s s.hart.agent va l).onlyHart fun h => (h.setS d x).advance) ∧
          x.extractLsb' 0 12 = l.entry.extractLsb' 0 12 ∧ x.extractLsb' 54 10 = l.entry.extractLsb' 54 10 ∧
          x.extractLsb' 12 40 = BitVec.ofNat 40 (leafAddr l va / 4096) ∧
          x.extractLsb' 52 2 = BitVec.ofNat 2 (if l.log = 0 then 0 else if l.log = 4 then 1 else if l.log = 9 then 2 else 3))

/-- 16 R343, 15 R296: wfe with an event or after its limit completes with c6 saying which, and otherwise the hart
waits and holds no core, with its limit of s[a] local cycles where s[a] is not 0; the limit passes only while it waits;
evt sets the event flag of the named harts of its job once earlier vector memory instructions have left the queue, and
traps with 0x02 for reserved bits and 0x12 for a CELL above 47. That the passing of a limit is an event which the agenda may name
at any time, and before which the time still missing goes by, is the model's choice (log 51). -/
def Obligations.WaitsAndEvents : Prop :=
  ∀ (s : State) (a : SReg) (v : Word), s.hart.Gives a v →
    (s.hart.status = .running → s.hart.cancel = false →
      (s.hart.evf = true ∨ s.hart.mark = .timedOut →
        exec (.wfe a) s = .next (s.onlyHart fun h =>
          { h with cbit := h.cbit.set 6 h.evf, evf := false, mark := .none, pc := h.pc + 4 })) ∧
      (s.hart.evf = false → s.hart.mark ≠ .timedOut →
        (∀ start n, s.hart.mark ≠ .limit start n) →
        exec (.wfe a) s = .next (s.onlyHart fun h =>
          { h with status := .waiting, mark := if v = 0 then .none else .limit (s.dieOf h.die).cyc v }))) ∧
    (∀ start n : Word, s.hart.status = .waiting → s.hart.mark = .limit start n →
      exec .wfeTimeout s = .next ((s.waitUntil s.hart.die start n).onlyHart fun h => { h with mark := .timedOut })) ∧
    (s.hart.NoVectorMemory → v.toNat / 2 ^ 16 = 0 → v.getLsbD 14 = false → v.toNat / 32 % 8 = 0 → v.toNat / 2 ^ 8 % 64 ≤ 47 →
      let named (g : Hart) : Hart :=
        if g.resident && g.die == s.hart.die && g.cell.val == v.toNat / 2 ^ 8 % 64 &&
            (v.getLsbD 15 || g.slot.val == v.toNat % 32) && g.job == s.hart.job then { g with evf := true } else g
      exec (.evt a) s = .next { s with hart := (named s.hart).advance, harts := s.harts.map named }) ∧
    let reserved := v.toNat / 2 ^ 16 ≠ 0 ∨ v.getLsbD 14 = true ∨ v.toNat / 32 % 8 ≠ 0
    (¬s.hart.NoVectorMemory → ¬reserved → v.toNat / 2 ^ 8 % 64 ≤ 47 → exec (.evt a) s = .next s) ∧
    ∀ q : BitVec 8, (reserved ∧ q = 0x02 ∨ ¬reserved ∧ 47 < v.toNat / 2 ^ 8 % 64 ∧ q = 0x12) →
      HandlerReady s { cause := q, addr := v } →
      ∃ u, exec (.evt a) s = .next u ∧ Trapped s { cause := q, addr := v } u

/-- 16 R325, R328, R329: halt waits for its vector queue, then ends the hart: its context is free, the host gets a
failure message of kind 1, and the failure record stands in its save area, with KIND 1 and the trap registers. 15
R305, R307, R308, R314: exit quenches and ends the hart; a member that is not its task's last leaves the task with one
live member fewer, and a child leaves its carriages with its parent; the last one discharges the job, whose completion
event is sent when nothing of it is left. join.l ends a child the same way. An exit of a parent first waits for its
latest child and rejoins it. Where the save areas lie and that a halt's record shows RH 0 are the model's (logs 13,
16). -/
def Obligations.EndsOfHarts : Prop :=
  ((∀ s : State, s.hart.vq ≠ [] → exec .halt s = .next s) ∧
  (∀ s : State, s.hart.vq = [] → (∀ k ∈ s.tasks, k.tid ≠ 0) →
    ∃ t, exec .halt s = .next t ∧ t.hart = Hart.vacant ∧
      ∃ m ∈ t.sent, m.msg = .failure s.hart.job 1 s.hart.trap.tcause.cause s.hart.trap.tcause.sub
        (BitVec.ofNat 64 (saveAreaOf s s.hart)) s.hart.die s.hart.cell s.hart.slot) ∧
  ∀ (s : State) (k : Task), s.hart.vq = [] → (∀ k ∈ s.tasks, k.tid ≠ 0) → s.findTask s.hart.task = some k →
    ((∃ h ∈ s.harts, h.task = k.tid ∧ h.resident = true) ∨ (k.join = 0 ∧ ∃ j, s.findJob k.job = some j ∧ 1 < j.count)) →
    let q := (s.cellOf s.hart.die s.hart.cell).sqbase.toNat
    (saveAreaOf s s.hart + 256 ≤ q ∨ q + 64 + 64 * Config.supervisorRing ≤ saveAreaOf s s.hart) →
    ∃ t, exec .halt s = .next t ∧
      t.mem.readBytes (saveAreaOf s s.hart) 256 =
        failureRecord s.hart 1 { s.hart.trap.tcause with rh := false }) ∧
  (∀ (s : State) (rest : List Child) (c : Child), s.hart.status = .running → s.hart.children = rest ++ [c] →
    (c.ended = none → s.hart.cancel = false →
      exec .exit s = .next (s.onlyHart fun h => { h with status := .waiting, mark := .none })) ∧
    ∀ left, c.ended = some left → s.hart.vq = [] → s.hart.OutputsDone →
      (s.hart.nextPend = false ∨ s.hart.nextCarr = s.hart.grant) →
      let s0 := s.onlyHart fun h => { h with mark := .none, nextPend := false, budget := none }
      quenchFault s0 = .ok () →
      exec .exit s = .next ((s0.commit true).onlyHart fun h =>
        { emptied h with cbit := (h.cbit.set 6 true).set 7 true, grant := h.grant ||| left, vl := 0, children := rest })) ∧
  ∀ (s : State) (t : Task), s.hart.vq = [] → s.hart.children = [] → quenchFault s = .ok () →
    (∀ n : HReg, s.hart.handles[n].bound = false) → s.findTask s.hart.task = some t →
    let s1 := s.commit false
    let child := s.hart.parent.isSome
    let left : Task := { t with
      live := if child then t.live else t.live - 1
      arrivals := t.arrivals.filter fun x => x != s.hart.hid }
    let passed : Task := if left.live ≠ 0 ∧ left.live ≤ left.arrivals.length
      then { left with generation := t.generation + 1, arrivals := [] } else left
    (s.hart.cancel = false → child = true → exec .joinL s = exec .exit s) ∧
    ((∃ h ∈ s.harts, h.task = t.tid ∧ h.resident = true) →
      ∃ u, exec .exit s = .next u ∧ u.hart = Hart.vacant ∧ u.mem = s1.mem ∧ u.jobs = s.jobs ∧
        u.tasks = (s.tasks.map fun y => if y.tid = t.tid then passed else y) ∧
        u.harts = s.harts.map fun g => if s.hart.parent = some g.hid then
          { g with children := g.children.map fun c =>
              if c.hid = s.hart.hid then { c with ended := some (heldCarriages s.hart) } else c } else g) ∧
    (LastOfTask s t.tid → child = false → ∀ j, s.findJob t.job = some j →
      (t.join = 0 → 1 < j.count →
        ∃ u, exec .exit s = .next u ∧ u.hart = Hart.vacant ∧ u.mem = s1.mem ∧ u.sent = s.sent ∧
          (∀ y ∈ u.tasks, y.tid ≠ t.tid) ∧
          u.jobs = s.jobs.map fun y => if y.job = j.job then { j with count := j.count - 1 } else y) ∧
      (t.join = 0 → j.count = 1 → j.cont = 0 → s.engineWork j.job = false →
        ∃ u, exec .exit s = .next u ∧ u.hart = Hart.vacant ∧ u.jobs = (s.jobs.filter fun y => y.job != j.job) ∧
          u.sent = s.sent ++ [{ link := j.link, mseq := (s.dieOf j.link).link.txSeq, msg := .completion j.job }]) ∧
      ∀ p, t.join ≠ 0 → 1 < j.count →
        decPlace s1 { die := s.hart.die, cell := some s.hart.cell, asid := s.hart.asid, level := t.level } t.join = .ok p →
        let old : Word := BitVec.ofNat 64 (s1.mem.readLe p.pa 8)
        1 < bitsOf old 47 0 →
        ∃ u, exec .exit s = .next u ∧ SameMemoryBut s1 u p.pa 8 ∧
          u.mem.readLe p.pa 8 = (decremented old t.failed t.cancelled).toNat)

/-! ## Lengths and the vector queue -/

/-- 05 R118 to R121; 16 R320: with its grant settled unchanged, a setvl form writes VL, VEW, s[d], c7, SBASE and
SPREV, and the non-blocking form c6; the blocking drawbar form waits while nothing is available. A pending change of
grant quenches first and clears vector, mask and topology state (02 R33). -/
def Obligations.SetLength : Prop :=
  ∀ (s : State) (d a : SReg) (w : Width) (n : Fin 64) (ea : Bool) (x : Word),
    s.hart.Gives a x → s.hart.Full d → s.hart.vq = [] → s.hart.OutputsDone → s.hart.status = .running →
    let g := match w with | .w6 => 4 | .w4 => 2 | _ => 1
    let up (k : Nat) : Nat := (k + g - 1) / g * g
    let avail := ((s.dieOf s.hart.die).db[n].hw.toNat - x.toNat) / g * g
    let vlmax (h : Hart) : Nat := perSlice (widthBits w) * h.lanes
    let sized (h : Hart) (len : Nat) (changed : Bool) (base : BitVec 48) : Hart :=
      { h.setS d (BitVec.ofNat 64 (min len (vlmax h))) with
        cbit := h.cbit.set 7 changed
        vl := min len (vlmax h)
        vew := w
        sbase := base
        sprev := min len (vlmax h)
        nextPend := false
        budget := none
        pc := h.pc + 4 }
    (s.hart.nextPend = false ∨ s.hart.nextCarr = s.hart.grant →
      exec (.setvl d a w ea) s =
        .next (s.onlyHart fun h => sized h (up x.toNat) false (h.sbase + BitVec.ofNat 48 h.sprev)) ∧
      exec (.setvlDbNb d a w n ea) s =
        .next (s.onlyHart fun h =>
          let h1 := sized h avail false (x.truncate 48)
          { h1 with cbit := h1.cbit.set 6 (decide (0 < min avail (vlmax h))) }) ∧
      (0 < avail →
        exec (.setvlDb d a w n ea) s =
          .next (s.onlyHart fun h => { sized h avail (h.mark == .drawbar true) (x.truncate 48) with mark := .none })) ∧
      (avail = 0 → s.hart.cancel = false → s.hart.mark ≠ .drawbar true →
        exec (.setvlDb d a w n ea) s =
          .next (s.onlyHart fun h =>
            { h with nextPend := false, budget := none, status := .waiting, mark := .drawbar false }))) ∧
    ∀ s1, s.hart.nextPend = true → s.hart.nextCarr ≠ s.hart.grant → quenchNow s true = .ok s1 →
      ∃ t, exec (.setvl d a w ea) s = .next t ∧ t.hart.grant = s.hart.nextCarr ∧ t.hart.nextPend = false ∧
        t.hart.cbit[(7 : CBit)] = true ∧ t.hart.vl = min (up x.toNat) (vlmax t.hart) ∧ t.hart.vew = w ∧
        (∀ r : VReg, t.hart.vreg[r] = 0 ∧ t.hart.vpoison[r] = 0) ∧ (∀ r : TReg, t.hart.treg[r] = 0) ∧
        (∀ r : MReg, t.hart.mreg[r] = 0) ∧ t.hart.msm = 0 ∧ t.hart.producers = [] ∧ t.hart.pc = s1.hart.pc + 4 ∧
        t.mem = s1.mem

/-- 02 R36 to R41: a vector, tree or anvil instruction captures its scalar sources and the control registers and
enters the vector queue, where there is room and, for one with a scalar result, a place in the read queue. It waits
for room, and for an empty source, which with its empty-action bit traps instead. 02 R35, R37: the oldest outstanding
result is written, which fills its destination. 02 R36, 05 R115, 16 R318, R335: with an instruction of two vector
sources at the head of the queue, an empty source keeps the lanes from starting it, or traps there with its
empty-action bit; a poisoned slice that an active element reads traps with cause 0x60, and one that no active element
reads does not. The model's choices: that the privilege level is among what an entry captures (log 7), and that the
sources are judged in the order of the operands, so the first empty one decides (log 74). -/
def Obligations.VectorIssueAndOperands : Prop :=
  (∀ (s : State) (i : Instr) (srcs : List (SReg × Bool)), capturedSources i = some srcs →
    (∀ values : List Word, values.length = srcs.length → (∀ p ∈ srcs.zip values, s.hart.Gives p.1.1 p.2) →
      (s.hart.vq.length < 32 → (∀ d, scalarResult i = some d → s.hart.reads < 8) →
        exec i s = .next (s.onlyHart fun h => { h with vq := h.vq ++ [sentEntry h i values], pc := h.pc + 4 })) ∧
      (32 ≤ s.hart.vq.length → exec i s = .next s)) ∧
    ∀ r ea rest, srcs = (r, ea) :: rest → s.hart.emptyS r = true →
      (ea = false → exec i s = .next s) ∧
      (ea = true → HandlerReady s { cause := 0x04, addr := BitVec.ofNat 64 r.val } →
        ∃ u, exec i s = .next u ∧ Trapped s { cause := 0x04, addr := BitVec.ofNat 64 r.val } u)) ∧
  (∀ s : State, (∀ p ∈ s.hart.producers, p.behind ≠ 0) → exec .producerWriteback s = .next s) ∧
  (∀ (s : State) (p : Producer) (rest : List Producer), s.hart.producers = p :: rest → p.behind = 0 →
    ∃ t, exec .producerWriteback s = .next t ∧ t.hart.producers = rest ∧ t = { s with hart := t.hart } ∧
      (∀ r x, p.dest = .scalar r x →
        t.hart = { s.hart.setS r x with producers := rest }) ∧
      ∀ r v, p.dest = .vector [(r, v)] → t.hart = { s.hart with producers := rest, vreg := s.hart.vreg.set r v }) ∧
  ∀ (s : State) (e : VEntry) (rest : List VEntry) (d a b : VReg) (t : IntTy) (ea eb : Bool),
    s.hart.vq = e :: rest → (∀ n : HReg, s.hart.handles[n].bound = false) → (∀ r : MReg, s.hart.mpoison[r] = 0) →
    ∀ p ∈ vectorIntTwo, e.instr = p.1 d a b t ea eb →
      (s.hart.emptyV a = true →
        exec .vectorEntryExecute s =
          if ea then .next (s.takeVectorTrap { cause := 0x04, addr := BitVec.ofNat 64 (32 + a.val) }) else .next s) ∧
      (s.hart.producers = [] →
        (∃ i ∈ actives s e t.bits, s.hart.vpoison[a].getLsbD (i / perSlice t.bits) = true) →
        exec .vectorEntryExecute s = .next (s.takeVectorTrap { cause := 0x60, addr := BitVec.ofNat 64 (32 + a.val) })) ∧
      (s.hart.producers = [] →
        (∀ i ∈ actives s e t.bits, s.hart.vpoison[a].getLsbD (i / perSlice t.bits) = false ∧
          s.hart.vpoison[b].getLsbD (i / perSlice t.bits) = false) →
        Completes (exec .vectorEntryExecute s))

/-! ## Elementwise results -/

/-- 05 R114, R115, R122, R123, R126: each active element of d takes the result of its integer operation, and nothing
else changes. 05 R124 to R126: each active element of d takes the result of its floating operation, rounded once in
the captured mode; FFLAGS gathers the flags of the active elements. -/
def Obligations.ElementwiseLaneResult : Prop :=
  (∀ (s : State) (e : VEntry) (rest : List VEntry) (d a b : VReg) (c : SReg) (t : IntTy) (ea eb : Bool),
    Undisturbed s e rest →
    let w := t.bits
    let x (r : VReg) (i : Nat) : Nat := vElem s.hart.vreg[r] w i
    let writes (f : Nat → Nat) : Prop := WritesVector s rest w d (onActive s e w d f) 0
    (∀ p ∈ vectorIntTwo, e.instr = p.1 d a b t ea eb → writes fun i => p.2 t (x a i) (x b i)) ∧
    (∀ p ∈ vectorIntOne, e.instr = p.1 d a t ea → writes fun i => p.2 t (x a i)) ∧
    (e.instr = .vmadd d a b t ea eb → writes fun i => x d i + x a i * x b i) ∧
    ∀ p ∈ vectorIntScalar, e.instr = p.1 d a c t ea eb → writes fun i => p.2 t (x a i) (e.xa.toNat % 2 ^ w)) ∧
  ∀ (s : State) (e : VEntry) (rest : List VEntry) (d a b : VReg) (c : SReg) (t : VFltTy) (ea eb : Bool),
    Undisturbed s e rest →
    let w := t.bits
    let fm := vfltFmt t
    let m := RMode.ofFrm e.frm
    let x (r : VReg) (i : Nat) : Nat := vElem s.hart.vreg[r] w i
    let y := e.xa.toNat % 2 ^ w
    let writes (f : Nat → Nat × FFlags) : Prop :=
      WritesVector s rest w d (onActive s e w d fun i => (f i).1) (flagsOver s e w fun i => (f i).2)
    (∀ p ∈ vectorFltTwo, e.instr = p.1 d a b t ea eb → writes fun i => p.2 fm m (x a i) (x b i)) ∧
    (∀ p ∈ vectorFltOne, e.instr = p.1 d a t ea → writes fun i => (withSign fm (p.2 (signOf fm (x a i))) (x a i), 0)) ∧
    (∀ p ∈ vectorFused, e.instr = p.1 d a b t ea eb → writes fun i =>
      fusedX fm m p.2.1 p.2.2 (unpack fm (x a i)) (unpack fm (x b i)) (unpack fm (x d i))) ∧
    (∀ p ∈ vectorFltScalar, e.instr = p.1 d a c t ea eb → writes fun i => p.2 fm m (x a i) y) ∧
    ∀ p ∈ vectorFusedScalar, e.instr = p.1 d a c t ea eb → writes fun i =>
      fusedX fm m p.2 false (unpack fm (x a i)) (unpack fm y) (unpack fm (x d i))

/-- 05 R127, 02 R29: widening products keep each result in the lane of its sources, in the register of the group that
its position names. -/
def Obligations.WideningLaneResult : Prop :=
  ∀ (s : State) (e : VEntry) (rest : List VEntry) (d a b : VReg) (ea eb : Bool),
    Undisturbed s e rest → e.instr.wellFormed = true →
    let writes (w n : Nat) (f : Nat → Nat → Nat × FFlags) : Prop :=
      let i (k j : Nat) : Nat := j / 8 * perSlice w + 8 * k + j % 8
      WritesGroup s rest n 32 d
        (fun k j =>
          let old := vElem s.hart.vreg[groupReg d k] 32 j
          if activeAt s e (lengthAt s e w) (i k j) then (f (i k j) old).1 else old)
        (flagsOver s e w fun i =>
          (f i (vElem s.hart.vreg[groupReg d (i % perSlice w / 8)] 32 (i / perSlice w * 8 + i % perSlice w % 8))).2)
    let m := RMode.ofFrm e.frm
    (∀ t : FltTy,
      let x (r : VReg) (i : Nat) : FVal := unpack (fltFmt t) (vElem s.hart.vreg[r] t.bits i)
      (e.instr = .vwfma d a b t ea eb →
        writes t.bits t.widening fun i z => fusedX fmtF32 m false false (x a i) (x b i) (unpack fmtF32 z)) ∧
      (e.instr = .vwfms d a b t ea eb →
        writes t.bits t.widening fun i z => fusedX fmtF32 m false true (x a i) (x b i) (unpack fmtF32 z)) ∧
      (e.instr = .vwmul d a b t ea eb →
        writes t.bits t.widening fun i _ => roundWith fmtF32 m (mulX (x a i) (x b i)))) ∧
    ∀ t : IntTy,
      let x (r : VReg) (i : Nat) : Int := intVal t (vElem s.hart.vreg[r] t.bits i)
      (e.instr = .vwmadd d a b t ea eb →
        writes t.bits t.widening fun i z => (wrapTo 32 (z + x a i * x b i), 0)) ∧
      (e.instr = .vwimul d a b t ea eb → writes t.bits t.widening fun i _ => (wrapTo 32 (x a i * x b i), 0))

/-- 05 R128, R129; 02 R35: a transcendental's results are on their way to d; a conversion writes its narrow or wide
side element by element in the mode it encodes. How exact vexp2 and vlog2 are is the model's reading (log 14). -/
def Obligations.TranscendentalAndConversionResult : Prop :=
  ∀ (s : State) (e : VEntry) (rest : List VEntry) (d a : VReg) (ea : Bool), Undisturbed s e rest →
    (∀ p ∈ vectorTranscendental, e.instr = p.1 d a ea →
      let f (i : Nat) : Nat × FFlags := p.2 (vElem s.hart.vreg[a] 32 i)
      ProducesVector s e rest 32 d (onActive s e 32 d fun i => (f i).1) (flagsOver s e 32 fun i => (f i).2)) ∧
    (e.instr.wellFormed = true → ∀ (src dst : ElemTy) (mode : CvtMode),
      ((∃ t, dst = .flt t ∧ e.instr = .vcvtToFloat d a src mode t ea) ∨
        ∃ t, dst = .int t ∧ e.instr = .vcvtToInt d a src mode t ea) →
      let m := match mode with
        | .dyn => RMode.ofFrm e.frm
        | .rne => .rne | .rtz => .rtz | .rdn => .rdn | .rup => .rup
      let conv (x : Nat) : Nat × FFlags :=
        match src, dst with
        | .flt f, .flt g =>
          let v := unpack (fltFmt f) x
          roundWith (fltFmt g) m (v, nvIf v.isSnan)
        | .int t, .flt g => roundF (fltFmt g) m (ofInt (intVal t x))
        | .flt f, .int u =>
          let r := fpToInt (isSigned u) u.bits m (unpack (fltFmt f) x)
          (wrapTo u.bits r.1, r.2)
        | .int t, .int u => (wrapTo u.bits (max (intLo (isSigned u) u.bits) (min (intHi (isSigned u) u.bits) (intVal t x))), 0)
      let w := min src.bits dst.bits
      let n := cvtGroup src.bits dst.bits
      (src.bits ≤ dst.bits →
        WritesGroup s rest n dst.bits d
          (fun k j =>
            let old := vElem s.hart.vreg[groupReg d k] dst.bits j
            match narrowOf (perSlice w) (perSlice dst.bits) k j with
            | some i => if activeAt s e (lengthAt s e w) i then (conv (vElem s.hart.vreg[a] src.bits i)).1 else old
            | none => old)
          (flagsOver s e w fun i => (conv (vElem s.hart.vreg[a] src.bits i)).2)) ∧
      (dst.bits < src.bits →
        let x (i : Nat) : Nat :=
          let p := perSlice w
          let q := perSlice src.bits
          vElem s.hart.vreg[groupReg a (i % p / q)] src.bits (i / p * q + i % p % q)
        WritesVector s rest w d (onActive s e w d fun i => (conv (x i)).1) (flagsOver s e w fun i => (conv (x i)).2)))

/-- 05 R130, R131: vpack.bfp writes each of its blocks whole from its active elements; vunpack.bfp gives each active
element its mantissa times the scale, and faults, writing nothing, for the first unsound block that holds one. 05
R130: a packed block: not finite, all zero, or scaled by a power of two with mantissas rounded to nearest and
saturated. -/
def Obligations.BlockConversionResult : Prop :=
  (∀ (s : State) (e : VEntry) (rest : List VEntry) (d a : VReg) (ea : Bool) (c : BfpW), Undisturbed s e rest →
    let w := c.val + 2
    let k := 480 / w
    let n := lengthAt s e 32
    let elem (i : Nat) : FVal := unpack fmtF32 (vElem s.hart.vreg[a] 32 i)
    let group (g : Nat) : List FVal :=
      (List.range (min k (n - g * k))).map fun j => if activeAt s e n (g * k + j) then elem (g * k + j) else .fin false 0 0
    let blocks := (n + k - 1) / k
    (e.instr = .vpackBfp d a c ea →
      WritesVector s rest 32 d
        (fun i => if i / 16 < blocks then blkBits (packBlock w (group (i / 16))).1 (32 * (i % 16)) 32
          else vElem s.hart.vreg[d] 32 i)
        ((List.range blocks).foldl (fun f g => f ||| (packBlock w (group g)).2) 0)) ∧
    (e.instr = .vunpackBfp d a c ea →
      let block (g : Nat) : Block := s.hart.vreg[a].extractLsb' (512 * g) 512
      let bad (g : Nat) : Option (BitVec 8) := checkBlock (block g) fun code => code == w
      let value (i : Nat) : Nat × FFlags := roundF fmtF32 .rne (bfpValue (block (i / k)) w (i % k))
      ((∀ i ∈ actives s e 32, bad (i / k) = none) →
        WritesVector s rest 32 d (onActive s e 32 d fun i => (value i).1) (flagsOver s e 32 fun i => (value i).2)) ∧
      ∀ g c, g ∈ (actives s e 32).map (· / k) → (∀ g' ∈ (actives s e 32).map (· / k), g' < g → bad g' = none) →
        bad g = some c →
        exec .vectorEntryExecute s = .next (s.takeVectorTrap { cause := c, addr := BitVec.ofNat 64 g }))) ∧
  ∀ (w : Nat) (vals : List FVal), 2 ≤ w → w ≤ 8 → vals.length ≤ 480 / w →
    ((∃ v ∈ vals, v.isFinite = false) → packBlock w vals = (0, fNV)) ∧
    ((∀ v ∈ vals, ∃ n e, v = .fin n 0 e) → (packBlock w vals).1 = 0x20 ∧ (packBlock w vals).2 = 0) ∧
    ∀ (top : Int), (∀ v ∈ vals, v.isFinite = true) →
      (∃ n m e, FVal.fin n m e ∈ vals ∧ m ≠ 0 ∧ top = e + (Nat.log2 m : Nat)) →
      (∀ n m e, FVal.fin n m e ∈ vals → m ≠ 0 → e + (Nat.log2 m : Nat) ≤ top) →
      let ex := max (-133) (min 127 (top - (w - 2)))
      let b := (packBlock w vals).1
      blkCode b = w ∧ blkBits b 8 8 = 0 ∧ scaleVal (blkScale b) = unpack fmtBF16 (roundF fmtBF16 .rne (.fin false 1 ex)).1 ∧
      (∀ j n m e, vals[j]? = some (.fin n m e) →
        mantissa b w j = max (-2 ^ (w - 1)) (min (2 ^ (w - 1) - 1) (roundInt .rne (.fin n m (e - ex))).1)) ∧
      ∀ j, vals.length ≤ j → j < 480 / w → mantissa b w j = 0

/-- 05 R132 to R134: compares and mask logic write mask bits of active elements, mcpop and mfirst count and find them,
and vidx writes start + e × step. 05 R138, 02 R41: vcmpr.th packs the active elements at or above the threshold into
d, their indices into the next register, and writes their number to VL. -/
def Obligations.CompareAndMaskResult : Prop :=
  (∀ (s : State) (e : VEntry) (rest : List VEntry), Undisturbed s e rest →
    let bound := min e.vl 16384
    let masks (d : MReg) (f : Nat → Bool) : Prop :=
      WritesMask s rest d (fun i => if activeAt s e bound i then f i else s.hart.mreg[d].getLsbD i) 0
    (∀ (d : MReg) (a b : VReg) (c : SReg) (r : Rel) (t : ElemTy) (ea eb : Bool) (y : Nat → Nat),
      ((e.instr = .vcmp d a b r t ea eb ∧ y = fun i => vElem s.hart.vreg[b] t.bits i) ∨
        e.instr = .vcmpVs d a c r t ea eb ∧ y = fun _ => e.xa.toNat % 2 ^ t.bits) →
      ∃ (v : Nat → Bool) (g : Nat → FFlags),
        (∀ i, relElements t r (vElem s.hart.vreg[a] t.bits i) (y i) (v i) (g i)) ∧
        WritesMask s rest d
          (fun i => if activeAt s e (lengthAt s e t.bits) i then v i else s.hart.mreg[d].getLsbD i)
          (flagsOver s e t.bits g)) ∧
    (∀ d a b : MReg,
      (∀ p ∈ maskTwo, e.instr = p.1 d a b → masks d fun i => p.2 (s.hart.mreg[a].getLsbD i) (s.hart.mreg[b].getLsbD i)) ∧
      (e.instr = .mnot d a → masks d fun i => !s.hart.mreg[a].getLsbD i) ∧
      (e.instr = .mmov d (.m a) → masks d fun i => s.hart.mreg[a].getLsbD i) ∧
      (e.instr = .mmov d .msm → masks d fun i => s.hart.msm.getLsbD i)) ∧
    (∀ (d : SReg) (a : MReg),
      let set := (List.range bound).filter fun i => activeAt s e bound i && s.hart.mreg[a].getLsbD i
      (e.instr = .mcpop d a → ReturnsScalar s rest d (BitVec.ofNat 64 set.length) 0) ∧
      (e.instr = .mfirst d a →
        ReturnsScalar s rest d (match set with | i :: _ => BitVec.ofNat 64 i | [] => BitVec.allOnes 64) 0)) ∧
    ∀ (d : VReg) (start : BitVec 11) (stp : BitVec 10), e.instr = .vidx d start stp →
      let w := widthBits e.vew
      WritesVector s rest w d (onActive s e w d fun i => wrapTo w (start.toInt + i * stp.toInt)) 0) ∧
  ∀ (s : State) (e : VEntry) (rest : List VEntry) (d a : VReg) (c : SReg) (t : ElemTy) (ea eb : Bool),
    Undisturbed s e rest → d.val % 2 = 0 → e.instr = .vcmprTh d a c t ea eb →
    let w := t.bits
    let x (r : VReg) (i : Nat) : Nat := vElem s.hart.vreg[r] w i
    ∃ (v : Nat → Bool) (g : Nat → FFlags) (lo hi : VWord),
      (∀ i, relElements t .ge (x a i) (e.xa.toNat % 2 ^ w) (v i) (g i)) ∧
      let kept := (actives s e w).filter v
      exec .vectorEntryExecute s = .next (s.onlyHart fun h => { h with
        vq := rest
        vreg := (h.vreg.set d lo).setIfInBounds (d.val + 1) hi
        vl := kept.length
        fflags := h.fflags ||| flagsOver s e w g }) ∧
      (∀ j < 256 * perSlice w, vElem lo w j = (match kept[j]? with | some i => x a i | none => x d j)) ∧
      ∀ j < 256 * perSlice w, vElem hi w j = (match kept[j]? with | some i => i % 2 ^ w | none => x (d + 1) j)

/-! ## Across lanes -/

/-- 05 R136 to R138, R141: the instructions that move elements between positions. -/
def Obligations.CrossLaneResult : Prop :=
  ∀ (s : State) (e : VEntry) (rest : List VEntry) (d a b : VReg) (c : SReg) (t : ElemTy) (ea eb : Bool),
    Undisturbed s e rest →
    let w := t.bits
    let n := lengthAt s e w
    let act := actives s e w
    let x (r : VReg) (i : Nat) : Nat := vElem s.hart.vreg[r] w i
    let k := e.xa.toNat
    let moves (f : Nat → Nat) : Prop := WritesVector s rest w d (onActive s e w d f) 0
    let senders (j : Nat) : List Nat := act.filter fun i => x b i == j
    (e.instr = .vpush d a b t ea eb →
      WritesVector s rest w d
        (fun j => if j < n then (match (senders j).getLast? with | some i => x a i | none => x d j) else x d j) 0) ∧
    (e.instr = .vpushAdd d a b t ea eb →
      let sum (j : Nat) : Nat × FFlags := (senders j).foldl (fun p i =>
        match t with
        | .int _ => ((p.1 + x a i) % 2 ^ w, p.2)
        | .flt u =>
          let r := fltAdd (fltFmt u) (RMode.ofFrm e.frm) p.1 (x a i)
          (r.1, p.2 ||| r.2)) (x d j, 0)
      WritesVector s rest w d (fun j => if j < n then (sum j).1 else x d j)
        ((List.range n).foldl (fun g j => g ||| (sum j).2) 0)) ∧
    (e.instr = .vpull d a b t ea eb → moves fun i => if x b i < n then x a (x b i) else 0) ∧
    (e.instr = .vcmpr d a t ea →
      WritesVector s rest w d (fun j => match act[j]? with | some i => x a i | none => x d j) 0) ∧
    (e.instr = .vexpand d a t ea → moves fun i => x a (act.filter (· < i)).length) ∧
    (e.instr = .vslideUp d a c t ea eb → moves fun i => if k ≤ i then x a (i - k) else 0) ∧
    (e.instr = .vslideDn d a c t ea eb → moves fun i => if i + k < n then x a (i + k) else 0) ∧
    (e.instr = .vbcast d a c t ea eb → moves fun _ => if k < n then x a k else 0)

/-- 05 R137, R139, R140: vext and the reductions return one element as a scalar; a float sum is rounded at each
addition in the order that the lanes fix. -/
def Obligations.ReductionResult : Prop :=
  ∀ (s : State) (e : VEntry) (rest : List VEntry) (d : SReg) (a : VReg) (c : SReg) (t : ElemTy) (ea eb : Bool),
    Undisturbed s e rest →
    let w := t.bits
    let act := actives s e w
    let x (i : Nat) : Nat := vElem s.hart.vreg[a] w i
    let seed := e.xa.toNat % 2 ^ w
    let gives (r : Nat × FFlags) : Prop := ReturnsScalar s rest d (asScalar t r.1) r.2
    let fold (f : Nat → Nat → Nat × FFlags) : Nat × FFlags :=
      act.foldl (fun p i => let r := f p.1 (x i); (r.1, p.2 ||| r.2)) (seed, 0)
    (e.instr = .vext d a c t ea eb → gives (if e.xa.toNat < lengthAt s e w then x e.xa.toNat else 0, 0)) ∧
    (e.instr = .vrsum d a c t ea eb → gives (match t with
      | .int _ => fold fun p y => ((p + y) % 2 ^ w, 0)
      | .flt u => sumInOrder (fltFmt u) (RMode.ofFrm e.frm) s.hart.lanes (perSlice w) act x seed)) ∧
    (e.instr = .vrmax d a c t ea eb → gives (fold fun p y => match t with
      | .int u => (intMax u p y, 0)
      | .flt u => fpMinMax (fltFmt u) true p y)) ∧
    (e.instr = .vrmin d a c t ea eb → gives (fold fun p y => match t with
      | .int u => (intMin u p y, 0)
      | .flt u => fpMinMax (fltFmt u) false p y))

/-! ## Vector memory -/

/-- 10 R197 to R200, R203, R208; 16 R323: a load of which every element can be read puts each in d, with buffered
stores merged in and what an earlier attempt obtained kept; elements out of range keep d's contents and trap once the
instruction is done; a scoped gather leaves out the elements its scope misses and marks them in msm. -/
def Obligations.VectorLoadResult : Prop :=
  ∀ (s : State) (e : VEntry) (rest : List VEntry) (d b : VReg) (a : SReg) (disp : BitVec 12) (z : Size) (scope : Scope)
    (ea eb : Bool) (missed : Nat → Bool) (value : Nat → Nat),
    Undisturbed s e rest →
    let size := sizeBytes z
    let w := 8 * size
    let act := actives s e w
    let base := e.xa + disp.signExtend 64 * BitVec.ofNat 64 size
    let ix (i : Nat) : Nat := vElem s.hart.vreg[b] w i
    let inside := act.filter fun i => ix i < e.xb.toNat
    let outside := act.filter fun i => e.xb.toNat ≤ ix i
    let indexedAt (i : Nat) : Word := e.xa + BitVec.ofNat 64 (ix i * size)
    let holds (l : List Nat) (v : VWord) : Prop :=
      ∀ j < 256 * perSlice w, vElem v w j = if j ∈ l ∧ missed j = false then value j else vElem s.hart.vreg[d] w j
    let read (l : List Nat) : List Nat := l.filter fun i => !missed i
    (∀ i ∈ act, value i < 2 ^ w) →
    (e.instr = .vld d a disp z ea →
      ReadsElements s e size act (fun i => base + BitVec.ofNat 64 (i * size)) (fun _ => false) missed value →
      ∃ v, holds act v ∧ EntryDone s rest [] (onTheWay d v act)) ∧
    (e.instr = .vlds d a disp z ea →
      ReadsElements s e size act (fun i => base + BitVec.ofNat 64 i * e.vstr) (fun _ => false) missed value →
      ∃ v, holds act v ∧ EntryDone s rest [] (onTheWay d v act)) ∧
    (e.instr = .vldx d a b z ea eb →
      ReadsElements s e size inside indexedAt (fun _ => false) missed value →
      ∃ v, holds inside v ∧ EntryDone s rest outside (onTheWay d v inside)) ∧
    (e.instr = .vgth d a b scope z ea eb →
      ReadsElements s e size inside indexedAt (fun t => teSync t && homeMissed scope.code (teHome t)) missed value →
      ∃ (v : VWord) (m : MWord), holds inside v ∧
        (∀ i < 16384, m.getLsbD i = if i ∈ act then decide (i ∈ inside ∧ missed i = true) else s.hart.msm.getLsbD i) ∧
        EntryDone s rest outside fun h => { onTheWay d v (read inside) h with msm := m })

/-- 10 R197, R199, R200, R204; 18 R368: a store of which every element can be written takes one entry of the strip
store buffer, holding the bytes of its elements at their places, and writes no memory; a full buffer is committed
first. 10 R201, R202: a scatter-add merges the active elements of each address in ascending order and buffers one
update for each; vconf finds for each active element the least active element with its pattern. -/
def Obligations.VectorStoreAndScatterAdd : Prop :=
  (∀ (s : State) (e : VEntry) (rest : List VEntry) (d b : VReg) (a : SReg) (disp : BitVec 12) (z : Size) (ea eb : Bool)
    (pa : Nat → Nat),
    Undisturbed s e rest → s.hart.NoLiveLeaf →
    let size := sizeBytes z
    let w := 8 * size
    let act := actives s e w
    let base := e.xa + disp.signExtend 64 * BitVec.ofNat 64 size
    let ix (i : Nat) : Nat := vElem s.hart.vreg[b] w i
    let inside := act.filter fun i => ix i < e.xb.toNat
    let outside := act.filter fun i => e.xb.toNat ≤ ix i
    let stores (l out : List Nat) (addr : Nat → Word) : Prop :=
      WritesElements s e .write size l addr pa →
      let entry : SEntry := .store (elementStores s.hart.vreg[d] w pa l)
      (s.hart.buffer.length < 8 → EntryDone s rest out (buffered entry act)) ∧
      (8 ≤ s.hart.buffer.length → act ≠ [] → out = [] → s.hart.cancel = false → quenchFault s = .ok () →
        ∃ t, exec .vectorEntryExecute s = .next t ∧ t.hart.buffer = [{ entry := entry }] ∧ t.mem = (s.commit true).mem ∧
          t.hart.vq = rest ∧ t.hart.qimpl = satInc s.hart.qimpl 0xFFFFFFFF ∧ t.hart.vreg = s.hart.vreg)
    (e.instr = .vst d a disp z ea → stores act [] fun i => base + BitVec.ofNat 64 (i * size)) ∧
    (e.instr = .vsts d a disp z ea → stores act [] fun i => base + BitVec.ofNat 64 i * e.vstr) ∧
    (e.instr = .vstx d a b z ea eb → stores inside outside fun i => e.xa + BitVec.ofNat 64 (ix i * size))) ∧
  (∀ (s : State) (e : VEntry) (rest : List VEntry) (d b : VReg) (a : SReg) (k : AddKind) (w : Nat) (ea eb : Bool)
    (pa : Nat → Nat),
    Undisturbed s e rest → s.hart.NoLiveLeaf → s.hart.buffer.length < 8 →
    ((∃ z, e.instr = .vsaddInt d a b z ea eb ∧ w = 8 * sizeBytes z ∧ k = .int w) ∨
      ∃ t : VFltTy, e.instr = .vsaddFloat d a b t ea eb ∧ w = t.bits ∧ k = .flt t e.frm) →
    let act := actives s e w
    let ix (i : Nat) : Nat := vElem s.hart.vreg[b] w i
    let inside := act.filter fun i => ix i < e.xb.toNat
    let outside := act.filter fun i => e.xb.toNat ≤ ix i
    let addr (i : Nat) : Word := e.xa + BitVec.ofNat 64 (ix i * (w / 8))
    let sum (va : Word) : Nat × FFlags :=
      mergeAddends k ((inside.filter fun i => addr i == va).map fun i => vElem s.hart.vreg[d] w i)
    WritesElements s e .both (w / 8) inside addr pa →
    ∃ us : List (Word × Nat × Nat),
      (us.map (·.1)).Nodup ∧ (∀ i ∈ inside, ∃ u ∈ us, u.1 = addr i) ∧
      (∀ u ∈ us, u.2.2 = (sum u.1).1 ∧ ∃ i ∈ inside, u.1 = addr i ∧ u.2.1 = pa i) ∧
      EntryDone s rest outside fun h =>
        { buffered (.adds k us) act h with
          fflags := h.fflags ||| us.foldl (fun g u => g ||| (sum u.1).2) 0 }) ∧
  ∀ (s : State) (e : VEntry) (rest : List VEntry) (d a : VReg) (m : MReg) (z : Size) (ea : Bool),
    Undisturbed s e rest → e.instr = .vconf d a m z ea →
    let w := 8 * sizeBytes z
    let act := actives s e w
    let x (i : Nat) : Nat := vElem s.hart.vreg[a] w i
    ∃ (leader : Nat → Nat) (v : VWord) (k : MWord),
      (∀ i ∈ act, leader i ∈ act ∧ x (leader i) = x i ∧ ∀ j ∈ act, x j = x i → leader i ≤ j) ∧
      exec .vectorEntryExecute s =
        .next (s.onlyHart fun h => { h with vq := rest, vreg := h.vreg.set d v, mreg := h.mreg.set m k }) ∧
      (∀ i < 256 * perSlice w, vElem v w i = if i ∈ act then leader i % 2 ^ w else vElem s.hart.vreg[d] w i) ∧
      ∀ i < 16384, k.getLsbD i = if i ∈ act then decide (leader i < i) else s.hart.mreg[m].getLsbD i

/-- 10 R198; 05 R115; 16 R321: a contiguous or strided instruction of which some active element is misaligned or does not
translate traps with the cause and address of the lowest such element, and writes no register, buffer entry or byte.
Which carriage an element counts for in TCNT is the model's (log 26), and no clause of it. -/
def Obligations.VectorMemoryFault : Prop :=
  ∀ (s : State) (e : VEntry) (rest : List VEntry) (d : VReg) (a : SReg) (disp : BitVec 12) (z : Size) (ea strided store : Bool)
    (i : Nat) (c : BitVec 8),
    Undisturbed s e rest → e.got = [] → s.hart.buffer = [] →
    let size := sizeBytes z
    let base := e.xa + disp.signExtend 64 * BitVec.ofNat 64 size
    let addr (i : Nat) : Word := base + (if strided then BitVec.ofNat 64 i * e.vstr else BitVec.ofNat 64 (i * size))
    let k : Access := if store then .write else .read
    (e.instr = match store, strided with
      | false, false => .vld d a disp z ea
      | false, true => .vlds d a disp z ea
      | true, false => .vst d a disp z ea
      | true, true => .vsts d a disp z ea) →
    i ∈ actives s e (8 * size) → ownPlace s (entryAgent s.hart e) k (addr i) size = .error c →
    (∀ j ∈ actives s e (8 * size), j < i →
      ∃ p, ownPlace s (entryAgent s.hart e) k (addr j) size = .ok p ∧ readFault s p.pa size = none) →
    ∃ (u : State) (t : Trap), exec .vectorEntryExecute s = .next (u.takeVectorTrap t) ∧ t.cause = c ∧ t.addr = addr i ∧ t.done = false ∧
      u.mem = s.mem ∧ u.hart = { s.hart with vq := u.hart.vq } ∧ u.hart.vq.length = rest.length + 1

/-! ## Trees -/

/-- 06 R143 to R149, R156 to R162: each active node takes the result of its tree instruction over the cleaned forest,
a cyclic node the value of R148; TSTAT counts. 06 R161: tisanc sets a mask bit for each active node that is not cyclic
and has the named active node as a proper ancestor, and clears it for the others. All but tchk, and tdeg for its own
check, run where no trap that TCTL enables is due (06 R151). That a float sum of zeros alone takes its sign in the mode
RDN as it does is the model's reading (log 81). -/
def Obligations.TreeNodeResult : Prop :=
  (∀ (s : State) (e : VEntry) (rest : List VEntry) (d a : VReg) (t : TReg) (mk : MReg) (kk : Fin 32) (c : TreeComb) (ty : TreeTy)
    (ea : Bool),
    Undisturbed s e rest → TreeGroups e [d, a] t →
    let len := treeLength s e
    let P := cleanParent s e t false
    let passes : Prop := TreePasses s e t P (forestNodes s e)
    let cyc := if ty = .f32 then 0x7FC00000 else 0
    let all := countAll s e t false (forestNodes s e)
    let sound := (forestNodes s e).filter fun n => !isCyclic P len n
    let line (n : Nat) : List Nat := chain P len n
    let marked (n : Nat) : Option Nat := (line n).find? fun m => s.hart.mreg[mk].getLsbD m
    let comb (l : List Nat) : Nat × FFlags := combine32 ty c (RMode.ofFrm e.frm) (l.map (valueOf s a))
    let subtree (n : Nat) : List Nat := sound.filter fun m => (line m).contains n
    let writes (z : Nat) (f : Nat → Nat) : Prop := WritesNodes s e rest d (fun n => if isCyclic P len n then z else f n) 0 all
    let combines (l : Nat → List Nat) : Prop :=
      WritesNodes s e rest d (fun n => if isCyclic P len n then cyc else (comb (l n)).1)
        (sound.foldl (fun g n => g ||| (comb (l n)).2) 0) all
    (e.instr = .tdn d a t c ty ea → passes → combines line) ∧
    (e.instr = .tup d a t c ty ea → passes → combines subtree) ∧
    (e.instr = .tbc d a t mk ty ea → passes → writes cyc fun n => valueOf s a ((marked n).getD n)) ∧
    (e.instr = .tdep d t → passes → writes 0 (depthOf P len)) ∧
    (e.instr = .tancK d t kk → passes → writes 0 fun n => ((ancestor P kk.val n).or (line n).getLast?).getD n) ∧
    ((∃ y, e.instr = .tancM d t mk y) → passes → writes 0 fun n => (marked n).getD 0xFFFF) ∧
    (e.instr = .troot d t → passes → writes 0 fun n => (line n).getLast?.getD n) ∧
    ((∃ y, e.instr = .tchk d t y) → writes 4 fun n =>
      if rawParent s t n = 0xFFFF then 1 else if rawParent s t n = 0xFFFE then 2 else if isDangling s e t false n then 3
      else if (e.tctl.extractLsb' 16 16).toNat ≠ 0 ∧ (e.tctl.extractLsb' 16 16).toNat < depthOf P len n then 5 else 0) ∧
    (e.instr = .tdeg d t → EntriesPass s e t (forestNodes s e) →
      WritesNodes s e rest d (fun n => ((forestNodes s e).filter fun m => P m == some n).length) 0
        (tstatPlus s.hart.tstat 0 ((forestNodes s e).filter (isDangling s e t false)).length 0))) ∧
  ∀ (s : State) (e : VEntry) (rest : List VEntry) (d : MReg) (b : VReg) (t : TReg) (eb : Bool),
    Undisturbed s e rest → TreeGroups e [b] t → e.instr = .tisanc d t b eb →
    let len := treeLength s e
    let P := cleanParent s e t false
    TreePasses s e t P (forestNodes s e) →
    ∃ m : MWord,
      exec .vectorEntryExecute s = .next (s.onlyHart fun h => { h with
        vq := rest
        mreg := h.mreg.set d m
        tstat := countAll s e t false (forestNodes s e) }) ∧
      ∀ n < 16384, m.getLsbD n =
        if inForest s e n then
          !isCyclic P len n && inForest s e (valueOf s b n) && ((chain P len n).drop 1).contains (valueOf s b n)
        else s.hart.mreg[d].getLsbD n

/-- 06 R145, R150, R151: a misaligned group of any tree instruction traps with cause 0x07 first of all; with its enable
set, a cyclic node traps with cause 0x20, and an entry beyond the forest or a node too deep with cause 0x21, TADDR naming
the lowest such node; nothing is written but TSTAT, which holds the counts. tdeg traps for entries beyond the forest
alone, and tctr counts and traps over every node below TL (R163). -/
def Obligations.TreeTraps : Prop :=
  ∀ (s : State) (e : VEntry) (rest : List VEntry) (vals : List VReg) (t : TReg),
    Undisturbed s e rest → treeOperands e.instr = some (vals, t) →
    (∀ w, ((∃ r ∈ vals, r.val % pow2Up e.tgrp.toNat ≠ 0) ∨ t.val % pow2Up ((e.tgrp.toNat + 1) / 2) ≠ 0) →
      encode e.instr = some w →
      exec .vectorEntryExecute s = .next (s.takeVectorTrap { cause := 0x07, addr := BitVec.ofNat 64 w })) ∧
    ∀ all degree, TreeGroups e vals t → treeEnables e.instr = some (all, degree) →
      let len := treeLength s e
      let P := cleanParent s e t all
      let nodes := if all then List.range len else forestNodes s e
      let dlim := (e.tctl.extractLsb' 16 16).toNat
      let counted := s.onlyHart fun h => { h with
        tstat := if degree then tstatPlus h.tstat 0 (nodes.filter (isDangling s e t all)).length 0
          else countAll s e t all nodes }
      (∀ n, degree = false → e.tctl.getLsbD 0 = true → nodes.find? (isCyclic P len) = some n →
        exec .vectorEntryExecute s = .next (counted.takeVectorTrap { cause := 0x20, addr := BitVec.ofNat 64 n })) ∧
      ∀ n, (degree = true ∨ e.tctl.getLsbD 0 = false ∨ nodes.find? (isCyclic P len) = none) →
        (nodes.find? fun n =>
          (e.tctl.getLsbD 1 && decide (rawParent s t n < 0xFFFE) && decide (len ≤ rawParent s t n)) ||
          (!degree && e.tctl.getLsbD 2 && dlim != 0 && !isCyclic P len n && decide (dlim < depthOf P len n))) = some n →
        exec .vectorEntryExecute s = .next (counted.takeVectorTrap { cause := 0x21, addr := BitVec.ofNat 64 n })

/-- 06 R154, R155: tmov copies parent entries of active nodes to a value group and back, tld reads them from memory
and tst buffers them for it, one entry for each topology register that holds an active node. 06 R163: tctr packs the
active nodes, rewires each to its nearest kept proper ancestor, and writes TGRP and VL; every node below TL counts. Which
carriage a faulting entry of tld counts for, which no clause says, and that what a tld reads stands in the topology
register at once, are the model's (log 26). -/
def Obligations.TopologyMoveAndContraction : Prop :=
  (∀ (s : State) (e : VEntry) (rest : List VEntry) (d a : VReg) (t : TReg) (c : SReg) (y : TreeTy) (disp : BitVec 12) (ea : Bool)
    (missed : Nat → Bool) (value pa : Nat → Nat),
    Undisturbed s e rest → TreeGroups e [d, a] t →
    let act := forestNodes s e
    let addr (n : Nat) : Word := e.xa + disp.signExtend 64 * 2 + BitVec.ofNat 64 (2 * n)
    (e.instr = .tmov d t y → WritesNodes s e rest d (rawParent s t) 0 s.hart.tstat) ∧
    (e.instr = .tmovToTopo a t y ea →
      ∃ v, HoldsParents s t v (fun n => if inForest s e n then some (valueOf s a n) else none) ∧
        exec .vectorEntryExecute s = .next (s.onlyHart fun h => { h with vq := rest, treg := v })) ∧
    (e.instr = .tld t c disp ea → ReadsElements s e 2 act addr (fun _ => false) missed value →
      ∃ v, HoldsParents s t v (fun n => if inForest s e n then some (value n) else none) ∧
        EntryDone s rest [] fun h => { h with treg := v }) ∧
    (e.instr = .tst t c disp ea → WritesElements s e .write 2 act addr pa → s.hart.NoLiveLeaf →
      s.hart.buffer.length + 4 ≤ 8 →
      ∃ new : List SSlot,
        EntryDone s rest [] (fun h => { h with buffer := h.buffer ++ new }) ∧
        new = ((List.range 4).map fun k => act.filter fun n => n / (16 * s.hart.lanes) == k).filterMap fun l =>
          if l = [] then none
          else some { entry := .store (l.flatMap fun n =>
            [(pa n, BitVec.ofNat 8 (rawParent s t n)), (pa n + 1, BitVec.ofNat 8 (rawParent s t n / 256))]) })) ∧
  ∀ (s : State) (e : VEntry) (rest : List VEntry) (d a : VReg) (t : TReg) (ty : TreeTy) (ea : Bool),
    Undisturbed s e rest → TreeGroups e [d, a] t → e.instr = .tctr d a t ty ea → 0 < s.hart.lanes →
    let V := 8 * s.hart.lanes
    let len := treeLength s e
    let P := cleanParent s e t true
    TreePasses s e t P (List.range len) →
    let kept := forestNodes s e
    let rank (n : Nat) : Nat := (kept.filter (· < n)).length
    let parent (n : Nat) : Nat :=
      if isCyclic P len n then 0xFFFF
      else
        match ((chain P len n).drop 1).find? fun m => kept.contains m with
        | some m => rank m
        | none => if ((chain P len n).getLast?.map (rawParent s t)) = some 0xFFFE then 0xFFFE else 0xFFFF
    let g := if kept = [] then 1 else (kept.length + V - 1) / V
    ∃ (v : Vector VWord 32) (p : Vector VWord 8),
      exec .vectorEntryExecute s = .next (s.onlyHart fun h => { h with
        vq := rest
        vreg := v
        treg := p
        tstat := countAll s e t true (List.range len)
        tgrp := BitVec.ofNat 4 g
        vl := kept.length - (g - 1) * V }) ∧
      HoldsParents s t p (fun j => (kept[j]?).map parent) ∧
      ∀ r : VReg, ∀ j < 2048,
        let k := (r.val + 32 - d.val) % 32
        vElem v[r] 32 j =
          match (if j < V ∧ k < e.tgrp.toNat then kept[k * V + j]? else none) with
          | some n => valueOf s a n
          | none => vElem s.hart.vreg[r] 32 j

/-! ## The anvil -/

/-- 11 R222: an anvil instruction at the head of the vector queue enters its cell's anvil queue, where there is room,
and takes its turn there. 11 R224, R230 to R232: clearing, copying to and from a vector register, and moving between
memory and the accumulator store touch exactly the elements named. 11 R232: acc.mem to memory stores each element of
its rectangle at its place at once, and no other byte changes. That a stored element's bytes lose their marks, and a
written accumulator element its error, is the model's (log 10). -/
def Obligations.AnvilQueueAndAccumulators : Prop :=
  (∀ (s : State) (e : VEntry) (rest : List VEntry), s.hart.vq = e :: rest → usesAnvil e.instr = true → e.inAnvil = false →
    (vectorMemory e.instr = true → s.hart.OutputsDone) →
    let x := s.cellOf s.hart.die s.hart.cell
    (x.anvil.length < 16 →
      exec .vectorEntryExecute s =
        .next ((s.setCell s.hart.die s.hart.cell { x with anvil := x.anvil ++ [.hart s.hart.hid] }).onlyHart fun h =>
          { h with vq := { e with inAnvil := true } :: rest })) ∧
    (16 ≤ x.anvil.length → exec .vectorEntryExecute s = .next s)) ∧
  (∀ (s : State) (e : VEntry) (rest : List VEntry) (queue : List AnvilOp) (a b : SReg) (v : VReg) (pa : Nat → Nat → Nat),
    AtAnvil s e rest queue →
    let cell := s.cellOf s.hart.die s.hart.cell
    let q := rectOf e.xa e.actl
    let act := actives s e 32
    (e.instr = .anvZero a → bitsOf e.xa 63 32 = 0 → bitsOf e.xa 3 0 = 0 → q.1 + q.2.2.1 ≤ 256 → q.2.1 + q.2.2.2 ≤ 256 →
      Accumulates s rest queue (fun _ _ => 0) (inRect q) id) ∧
    (e.instr = .accLd v b → AccPlaces s e →
      (∀ i ∈ act, 256 * (accPlaceOf e.xa e.actl i).1 + (accPlaceOf e.xa e.actl i).2 ∉ cell.accError) →
      ∃ d : VWord,
        (∀ i < 2048, vElem d 32 i =
          if i ∈ act then (cell.accAt (accPlaceOf e.xa e.actl i).1 (accPlaceOf e.xa e.actl i).2).toNat
          else vElem s.hart.vreg[v] 32 i) ∧
        Accumulates s rest queue (fun _ _ => 0) (fun _ _ => false) (onTheWay v d act)) ∧
    (e.instr = .accSt v b → AccPlaces s e →
      ∃ value, (∀ i ∈ act, value (accPlaceOf e.xa e.actl i).1 (accPlaceOf e.xa e.actl i).2 =
          BitVec.ofNat 32 (vElem s.hart.vreg[v] 32 i)) ∧
        Accumulates s rest queue value (fun r c => act.any fun i => accPlaceOf e.xa e.actl i == (r, c)) id) ∧
    (e.instr = .accMem a b true →
      let q := rectOf e.xb e.actl
      let stride := if bitsOf e.xb 63 32 = 0 then 4 * q.2.2.2 else bitsOf e.xb 63 32
      bitsOf e.xb 3 0 = 0 → q.1 + q.2.2.1 ≤ 256 → q.2.1 + q.2.2.2 ≤ 256 → e.xa.toNat % 4 = 0 → stride % 4 = 0 →
      (∀ i < q.2.2.1, ∀ j < q.2.2.2,
        ∃ p, ownPlace s (entryAgent s.hart e) .read (e.xa + BitVec.ofNat 64 (i * stride + 4 * j)) 4 = .ok p ∧ p.pa = pa i j ∧
          readFault s p.pa 4 = none ∧ meetsBuffer s.hart.buffer p.pa 4 = false) →
      Accumulates s rest queue (fun r c => BitVec.ofNat 32 (s.mem.readLe (pa (r - q.1) (c - q.2.1)) 4)) (inRect q) id)) ∧
  ∀ (s : State) (e : VEntry) (rest : List VEntry) (queue : List AnvilOp) (a b : SReg) (pa : Nat → Nat → Nat),
    AtAnvil s e rest queue → s.hart.NoLiveLeaf → e.instr = .accMem a b false →
    let cell := s.cellOf s.hart.die s.hart.cell
    let q := rectOf e.xb e.actl
    let stride := if bitsOf e.xb 63 32 = 0 then 4 * q.2.2.2 else bitsOf e.xb 63 32
    bitsOf e.xb 3 0 = 0 → q.1 + q.2.2.1 ≤ 256 → q.2.1 + q.2.2.2 ≤ 256 → e.xa.toNat % 4 = 0 → stride % 4 = 0 →
    (∀ r < 256, ∀ c < 256, inRect q r c = true → 256 * r + c ∉ cell.accError) →
    (∀ i < q.2.2.1, ∀ j < q.2.2.2,
      ∃ p, ownPlace s (entryAgent s.hart e) .write (e.xa + BitVec.ofNat 64 (i * stride + 4 * j)) 4 = .ok p ∧ p.pa = pa i j ∧
        meetsBuffer s.hart.buffer p.pa 4 = false) →
    ∃ t, exec (.anvilQueueExecute s.hart.die s.hart.cell) s = .next t ∧
      (∀ x, (∀ i < q.2.2.1, ∀ j < q.2.2.2, x < pa i j ∨ pa i j + 4 ≤ x) → t.mem.read x = s.mem.read x) ∧
      ((∀ i < q.2.2.1, ∀ j < q.2.2.2, ∀ i' < q.2.2.1, ∀ j' < q.2.2.2, (i, j) ≠ (i', j') →
          pa i j + 4 ≤ pa i' j' ∨ pa i' j' + 4 ≤ pa i j) →
        ∀ i < q.2.2.1, ∀ j < q.2.2.2, t.mem.readLe (pa i j) 4 = (cell.accAt (q.1 + i) (q.2.1 + j)).toNat) ∧
      t.hart = { s.hart with vq := rest } ∧
      ∀ r c, (t.cellOf s.hart.die s.hart.cell).accAt r c = cell.accAt r c

/-- 11 R227, R228; 08 R188: anv.op adds to each element of its rectangle, in order of the reduction blocks, the exact
dot product of its pair of blocks times both scales, rounded once, each addition rounded in the captured mode. 11
R226: wb.load checks every block and then writes them one after another, a compressed block as the two it stands for
(08 R186). 11 R233: vrsum.bfp packs each group of 60 at 8 bits and adds its scaled sum to the seed, group by group. -/
def Obligations.AnvilArithmetic : Prop :=
  (∀ (s : State) (e : VEntry) (rest : List VEntry) (queue : List AnvilOp) (a b : SReg) (cls : BlkClass)
    (A : Nat → Nat → Block),
    AtAnvil s e rest queue → e.instr = .anvOp a b →
    let cell := s.cellOf s.hart.die s.hart.cell
    let q := rectOf e.xa e.actl
    let kb := bitsOf e.xa 59 48 + 1
    let woff := bitsOf e.xa 47 32
    let rs : Word := if e.xa.getLsbD 61 then e.vstr else BitVec.ofNat 64 (64 * kb)
    let mode : RMode := if e.actl.getLsbD 16 then .rtz else .rne
    let W (k j : Nat) : Block := cell.wbAt (woff + j * kb + k)
    bitsOf e.xa 63 62 = 0 → e.xa.getLsbD 60 = false → bitsOf e.xa 3 0 = 0 → q.1 + q.2.2.1 ≤ 256 → q.2.1 + q.2.2.2 ≤ 256 →
    woff + q.2.2.2 * kb ≤ 65536 → e.xb.toNat % 64 = 0 → rs.toNat % 64 = 0 →
    (∀ k < kb, ∀ i < q.2.2.1, BlockAt s e (e.xb + BitVec.ofNat 64 i * rs + BitVec.ofNat 64 (64 * k)) (A k i) ∧
      OfClass cls (A k i) ∧ checkBlock (A k i) (fun _ => true) = none) →
    (∀ k < kb, ∀ j < q.2.2.2, OfClass cls (W k j)) →
    (∀ r < 256, ∀ c < 256, inRect q r c = true → 256 * r + c ∉ cell.accError) →
    let term (x y : Block) : Nat :=
      if blkCode x = 0x20 ∨ blkCode y = 0x20 then 0
      else
        let sum := (exactSum .rne ((List.range cls.k).map fun t => (mulX (cls.value x t) (cls.value y t)).1)).1
        if sum.isZero then 0
        else (roundF fmtF32 .rne (mulX (mulX sum (scaleVal (blkScale x))).1 (scaleVal (blkScale y))).1).1
    let add (acc t : Nat) : Nat := (roundF fmtF32 mode (exactSum mode [unpack fmtF32 acc, unpack fmtF32 t]).1).1
    Accumulates s rest queue
      (fun r c => BitVec.ofNat 32 ((List.range kb).foldl (fun acc k => add acc (term (A k (r - q.1)) (W k (c - q.2.1))))
        (cell.accAt r c).toNat))
      (inRect q) id) ∧
  (∀ (s : State) (e : VEntry) (rest : List VEntry) (queue : List AnvilOp) (a b : SReg) (B : Nat → Block),
    AtAnvil s e rest queue → e.instr = .wbLoad a b →
    let nb := bitsOf e.xb 16 0
    let out := (List.range nb).flatMap fun i => expandBlock (B i)
    bitsOf e.xb 63 48 = 0 → bitsOf e.xb 31 17 = 0 → 1 ≤ nb → nb ≤ 65536 → e.xa.toNat % 64 = 0 →
    (∀ i < nb, BlockAt s e (e.xa + BitVec.ofNat 64 (64 * i)) (B i) ∧ checkBlock (B i) (fun _ => true) = none) →
    bitsOf e.xb 47 32 + out.length ≤ 65536 →
    ∃ t x, OnlyHartAndCaches s t id ∧
      exec (.anvilQueueExecute s.hart.die s.hart.cell) s = .next (afterAnvil t queue rest x t.hart) ∧
      x = { t.cellOf s.hart.die s.hart.cell with wb := x.wb } ∧
      ∀ k, x.wbAt k = (if bitsOf e.xb 47 32 ≤ k then out[k - bitsOf e.xb 47 32]? else none).getD
        ((s.cellOf s.hart.die s.hart.cell).wbAt k)) ∧
  ∀ (s : State) (e : VEntry) (rest : List VEntry) (queue : List AnvilOp) (d : SReg) (a : VReg) (b : SReg),
    AtAnvil s e rest queue → e.instr = .vrsumBfp d a b →
    let n := lengthAt s e 32
    let mode : RMode := if e.actl.getLsbD 16 then .rtz else .rne
    let group (g : Nat) : List FVal := (List.range (min 60 (n - g * 60))).map fun j =>
      if activeAt s e n (g * 60 + j) then unpack fmtF32 (vElem s.hart.vreg[a] 32 (g * 60 + j)) else .fin false 0 0
    let step (acc g : Nat) : Nat :=
      if (group g).any fun v => !v.isFinite then 0x7FC00000
      else if (group g).all FVal.isZero then acc
      else
        let blk := (packBlock 8 (group g)).1
        let sum : Int := ((List.range 60).map (mantissa blk 8)).foldl (· + ·) 0
        let term := if sum = 0 then 0 else (roundF fmtF32 .rne (mulX (ofInt sum) (scaleVal (blkScale blk))).1).1
        (roundF fmtF32 mode (exactSum mode [unpack fmtF32 acc, unpack fmtF32 term]).1).1
    Accumulates s rest queue (fun _ _ => 0) (fun _ _ => false) fun h =>
      { h with producers := if d = 0 then [] else
          [{ dest := .scalar d (BitVec.ofNat 64 ((List.range ((n + 59) / 60)).foldl step (e.xa.toNat % 2 ^ 32))), queued := true }] }

/-! ## The strip store buffer -/

/-- 10 R206 to R208; 16 R327, R333: quench commits the buffered stores in order and the scatter-adds as single
updates with their flags, empties the buffer, releases the held output elements and checkpoints the streams; a fault it
meets, in the buffer, at an update's place or in an output stream (R214), traps and commits nothing, and a pending cancel
is taken there. That a quench is one step after all that earlier ones released, `drainOutputs`, and which of its faults
comes first, are the model's (log 19). 10 R206: sabort discards the buffer, whose contents never reach
memory, and takes every bound stream back to its checkpoint, and counts in DISC. -/
def Obligations.QuenchAndSabort : Prop :=
  (∀ s : State, s.hart.vq = [] → s.hart.OutputsDone →
    let s0 := s.drainOutputs
    ((∀ n : HReg, s.hart.handles[n].busy = false) → s0 = s) ∧
    (quenchFault s = .ok () → s.hart.cancel = false →
      exec .quench s = .next ((s.commit false).onlyHart Hart.advance) ∧
      (s.commit false).hart.buffer = [] ∧ (s.commit false).hart.qimpl = s0.hart.qimpl ∧
      (∀ n : HReg, s0.hart.handles[n].bound = true →
        let x := s0.hart.handles[n]
        let output := (x.desc.map (·.output)).getD false
        (s.commit false).hart.handles[n] = { x with
          ckpt := x.pos
          released := if output then x.released ++ x.held else x.released
          held := if output then [] else x.held }) ∧
      ((∀ slot ∈ s.hart.buffer, ∃ bytes, slot.entry = .store bytes) →
        (s.commit false).hart.fflags = s0.hart.fflags ∧
        ∀ a, (s.commit false).mem.read a = (bufferedByte s.hart.buffer a).getD (s0.mem.read a)) ∧
      ((∀ slot ∈ s.hart.buffer, ∃ k us, slot.entry = .adds k us) →
        let ups := updatesOf s.hart.buffer
        let apart (p q : AddKind × Word × Nat × Nat) : Prop :=
          p.2.2.1 + p.1.bytes ≤ q.2.2.1 ∨ q.2.2.1 + q.1.bytes ≤ p.2.2.1
        (ups.Pairwise apart →
          (∀ p ∈ ups, (s.commit false).mem.readLe p.2.2.1 p.1.bytes =
            (updated p.1 (s0.mem.readLe p.2.2.1 p.1.bytes) p.2.2.2).1) ∧
          (s.commit false).hart.fflags = s0.hart.fflags |||
            ups.foldl (fun g p => g ||| (updated p.1 (s0.mem.readLe p.2.2.1 p.1.bytes) p.2.2.2).2) 0) ∧
        (∀ a, (∀ p ∈ ups, a < p.2.2.1 ∨ p.2.2.1 + p.1.bytes ≤ a) → (s.commit false).mem.read a = s0.mem.read a) ∧
        ∀ k k' va va' pa x y, ups = [(k, va, pa, x), (k', va', pa, y)] → k.bytes = k'.bytes →
          let first := updated k (s0.mem.readLe pa k.bytes) x
          let second := updated k' first.1 y
          (s.commit false).mem.readLe pa k.bytes = second.1 ∧
            (s.commit false).hart.fflags = s0.hart.fflags ||| first.2 ||| second.2)) ∧
    (quenchFault s = .ok () → s.hart.cancel = true → exec .quench s = .next s.takeCancel) ∧
    (let traps (t : Trap) : Prop := HandlerReady s t → ∃ u, exec .quench s = .next u ∧ Trapped s t u ∧ u.hart.buffer = s.hart.buffer
    ((∃ slot ∈ s.hart.buffer, slot.bad = true) → traps { cause := 0x60, sub := 0x01 }) ∧
    ((∀ slot ∈ s.hart.buffer, slot.bad = false) →
      (∀ l k va pa x r c, updatesOf s.hart.buffer = l ++ (k, va, pa, x) :: r →
        (∀ p ∈ l, readFault s p.2.2.1 p.1.bytes = none) → readFault s pa k.bytes = some c → traps { cause := c, addr := va }) ∧
      ((∀ p ∈ updatesOf s.hart.buffer, readFault s p.2.2.1 p.1.bytes = none) →
        ∀ (n : HReg) (f : ElemFault), outputFault s s.hart.handles[n] = some f →
          (∀ m < n, outputFault s s.hart.handles[m] = none) → traps (trapOfStream n f.1 f.2.1 f.2.2))))) ∧
  (∀ (s : State) (x : Handle) (d : StreamDesc) (f : ElemFault), x.desc = some d → x.bound = true → d.output = true →
    (x.fault = some f → outputFault s x = some f) ∧
    ∀ i < x.released.length + x.held.length, x.fault = none →
      writePlaces s { x with blk := none } d (x.done + i) = .error f →
      (∀ j < i, ∃ r, writePlaces s { x with blk := none } d (x.done + j) = .ok r) → outputFault s x = some f) ∧
  ∀ s : State, s.hart.vq = [] → s.hart.OutputsDone →
    ∃ h, exec .sabort s = .next { s with hart := h } ∧ h.buffer = [] ∧
      h = { s.hart with buffer := [], qdisc := h.qdisc, handles := h.handles, pc := s.hart.pc + 4 } ∧
      h.qdisc = min (s.hart.qdisc + 1) (max s.hart.qdisc 0xFFFF) ∧
      ∀ n : HReg, s.hart.handles[n].bound = true →
        h.handles[n].pos = s.hart.handles[n].ckpt ∧ h.handles[n].bound = true ∧ h.handles[n].ckpt = s.hart.handles[n].ckpt ∧
        ((s.hart.handles[n].desc.map (·.output)) = some true → h.handles[n].held = [])

/-! ## Streams -/

/-- 10 R210, R211, R214: what bw.def takes from a descriptor, with the width and sign its type gives, and what it
refuses and traps for; where an affine element lies. 10 R213: binding takes a channel, if one is free, starts the stream
at its position, and moves the register; freeing writes the position to word 6 of the descriptor and gives the channel
back; waiting and freeing take the fault an output stream holds. 10 R211, R212, R214: a channel fetches the next element
below the total, and holds the fault it meets there; it performs the first released element of an output stream as a
plain store, and publishes each position a linked one reaches before it performs the next element. The model's choices
here: c6 where a handle is bound already, and what ends bw.wait at the total (log 29); what bw.free drops (log 30); the
address space and level of a stream's access (log 57); TADDR of a descriptor's faults (log 59) and their order (log 91);
and that a refused publication is held as a fault (log 68). -/
def Obligations.StreamDescriptorsAndChannels : Prop :=
  ((∀ (s s1 : State) (a : SReg) (n : HReg) (va : Word) (x : Nat) (d : StreamDesc) (pos : Nat),
    s.hart.Gives a va → s.hart.vq = [] → s.hart.OutputsDone → s.hart.handles[n].bound = false →
    loadValue s va 64 = .ok (x, s1) →
    (readDesc va (BitVec.ofNat 512 x) = .ok (d, pos) →
      exec (.bwDef a n) s =
        .next (s1.onlyHart fun h => { h with handles := h.handles.set n { desc := some d, pos := pos }, pc := h.pc + 4 })) ∧
    ∀ c sub, readDesc va (BitVec.ofNat 512 x) = .error (c, sub) → HandlerReady s1 { cause := c, sub := sub, addr := va } →
      ∃ u, exec (.bwDef a n) s = .next u ∧ Trapped s1 { cause := c, sub := sub, addr := va } u) ∧
  (∀ (va : Word) (b : Block),
    let w := b.extractLsb' 0 64
    let word (k : Nat) : Word := b.extractLsb' (64 * k) 64
    let row := streamTypes.find? fun r => r.1 == bitsOf w 53 53 && r.2.1 == bitsOf w 52 49
    let paged := bitsOf w 63 62 = 1
    let ndim := bitsOf w 48 47 + 1
    let total := if paged then bitsOf (word 4) 47 0 * bitsOf (word 2) 31 0
      else ((List.range ndim).map fun k => bitsOf (word (k + 2)) 63 32).foldl (· * ·) 1
    let refused := row = none ∨ 1 < bitsOf w 63 62 ∨ bitsOf w 46 16 ≠ 0 ∨ (paged ∧ ndim ≠ 1) ∨ bitsOf (word 6) 63 48 ≠ 0 ∨
      word 7 ≠ 0 ∨ 2 ^ 48 < total
    let strides (m : Nat) : Prop := ¬paged ∧ ∃ k < ndim, bitsOf (word (k + 2)) 31 0 % m ≠ 0
    let block := bitsOf w 53 53 = 1 ∧ 8 ≤ bitsOf w 52 49
    (refused → readDesc va b = .error (0x40, 0x02)) ∧
    (¬refused → strides 8 → readDesc va b = .error (0x06, 0)) ∧
    (¬refused → ¬strides 8 → block → bitsOf (word 1) 5 0 ≠ 0 ∨ strides 512 → readDesc va b = .error (0x05, 0)) ∧
    (¬refused → ¬strides 8 → ¬(block ∧ (bitsOf (word 1) 5 0 ≠ 0 ∨ strides 512)) →
      ∃ d pos, readDesc va b = .ok (d, pos) ∧ row = some (bitsOf w 53 53, bitsOf w 52 49, d.width, d.signed) ∧
        (d.block.isSome = true ↔ block))) ∧
  (∀ (va : Word) (b : Block) (d : StreamDesc) (pos : Nat), readDesc va b = .ok (d, pos) →
    let w := b.extractLsb' 0 64
    d.addr = va ∧ d.output = w.getLsbD 61 ∧ d.dbv = w.getLsbD 60 ∧ d.db.val = bitsOf w 59 54 ∧
    d.paged = decide (bitsOf w 63 62 = 1) ∧ bitsOf w 63 62 ≤ 1 ∧ bitsOf w 46 16 = 0 ∧ d.seq = w.extractLsb' 0 16 ∧
    d.base = b.extractLsb' 64 64 ∧ pos = bitsOf (b.extractLsb' 384 64) 47 0 ∧ d.total ≤ 2 ^ 48 ∧
    (d.paged = false → d.ndim = bitsOf w 48 47 + 1 ∧
      d.total = ((List.range d.ndim).map fun k => bitsOf (b.extractLsb' (64 * (k + 2)) 64) 63 32).foldl (· * ·) 1) ∧
    (d.paged = true → d.total = bitsOf (b.extractLsb' 256 64) 47 0 * bitsOf (b.extractLsb' 128 64) 31 0)) ∧
  ∀ (d : StreamDesc) (n : Nat), d.paged = false → 1 ≤ d.ndim → d.ndim ≤ 4 → d.words.length = 4 →
    let counts := d.words.map fun w => bitsOf w 63 32
    let stride (k : Nat) : Int :=
      let x := toSigned 32 (bitsOf (d.words.getD k 0) 31 0)
      if k = 0 ∧ x = 0 then d.width else x
    let bits : Int := ((List.range d.ndim).map fun k => (digitOf counts d.ndim k n : Int) * stride k).foldl (· + ·) 0
    elementAt d 0 n = (d.base + BitVec.ofInt 64 (bits / 8), (bits % 8).toNat)) ∧
  ((∀ (s : State) (v : Option VReg) (n : HReg) (x : Handle), s.hart.vq = [] → s.hart.OutputsDone →
    s.hart.handles[n] = x → x.desc.isSome = true →
    let bindTo (h : Hart) (y : Handle) : Vector Handle 16 := Vector.ofFn fun k : Fin 16 =>
      if k = n then { y with reg := v }
      else if v.isSome ∧ h.handles[k].reg = v then { h.handles[k] with reg := none } else h.handles[k]
    (x.bound = true →
      exec (.bwBind v n) s = .next (s.onlyHart fun h => { h with handles := bindTo h x, pc := h.pc + 4 })) ∧
    (x.bound = false → n ∈ s.hart.heldChannels ∨ channelsUsed s s.hart.die s.hart.cell < 16 →
      exec (.bwBind v n) s = .next (s.onlyHart fun h => { h with
        handles := bindTo h
          { x with bound := true, ckpt := x.pos, held := [], released := [], done := x.pos, pub := x.pos, fault := none, blk := none }
        heldChannels := h.heldChannels.filter fun k => k != n
        cbit := h.cbit.set 6 true
        pc := h.pc + 4 })) ∧
    (x.bound = false → n ∉ s.hart.heldChannels → 16 ≤ channelsUsed s s.hart.die s.hart.cell →
      exec (.bwBind v n) s = .next (s.onlyHart fun h => { h with cbit := h.cbit.set 6 false, pc := h.pc + 4 }))) ∧
  (∀ (s : State) (n : HReg), s.hart.vq = [] → ¬s.hart.OutputsDone →
    exec (.bwWait n) s = .next s ∧ exec (.bwFree n) s = .next s) ∧
  ∀ (s : State) (n : HReg) (x : Handle) (d : StreamDesc), StreamBound s n x d →
    let ready :=
      if d.output then x.fault = none ∧ x.released = [] ∧ (d.dbv = true → x.done ≤ x.pub)
      else x.held ≠ [] ∨ x.fault.isSome ∨ d.total ≤ x.pos
    (∀ f : ElemFault, d.output = true → x.fault = some f → HandlerReady s (trapOfStream n f.1 f.2.1 f.2.2) →
      ∀ i ∈ [Instr.bwWait n, .bwFree n], ∃ u, exec i s = .next u ∧ Trapped s (trapOfStream n f.1 f.2.1 f.2.2) u) ∧
    (ready → exec (.bwWait n) s = .next (s.onlyHart Hart.advance)) ∧
    (x.fault = none → ¬ready → exec (.bwWait n) s = .next s ∧ exec (.bwFree n) s = .next s) ∧
    ∀ p, ready → s.hart.NoLiveLeaf → ownPlace s s.hart.agent .write (d.addr + 48) 8 = .ok p →
      meetsBuffer s.hart.buffer p.pa 8 = false →
      ∃ t, exec (.bwFree n) s = .next t ∧ SameMemoryBut s t p.pa 8 ∧ t.mem.readLe p.pa 8 = x.pos % 2 ^ 64 ∧
        t.hart = { s.hart with handles := s.hart.handles.set n { desc := some d, pos := x.pos }, pc := s.hart.pc + 4 }) ∧
  (∀ (s : State) (n : HReg) (x : Handle) (d : StreamDesc) (p : Place),
    s.hart.handles[n] = x → x.desc = some d → x.bound = true → d.output = false → d.paged = false → d.block = none →
    d.dbv = false → x.fault = none → x.pos + x.held.length < d.total → d.width ∈ [8, 16, 32, 64] →
    let va := (elementAt d 0 (x.pos + x.held.length)).1
    (elementAt d 0 (x.pos + x.held.length)).2 = 0 →
    ownPlace s s.hart.agent .read va (d.width / 8) = .ok p →
    (readFault s p.pa (d.width / 8) = none →
      exec (.streamFetch n) s = .next ((tlbFill s s.hart.agent va p.leaf).onlyHart fun h => { h with
        handles := h.handles.set n { x with held := x.held ++ [s.mem.readLe p.pa (d.width / 8)], blk := none } })) ∧
    ∀ c, readFault s p.pa (d.width / 8) = some c →
      exec (.streamFetch n) s = .next (s.onlyHart fun h => { h with
        handles := h.handles.set n { x with fault := some (0x40, c, va) } })) ∧
  ∀ (s : State) (n : HReg) (x : Handle) (d : StreamDesc),
    s.hart.handles[n] = x → x.desc = some d → x.bound = true → d.output = true →
    (∀ f : ElemFault, x.fault = some f → f.1 ≠ 0x41 → exec (.outputStreamPerform n) s = .next s) ∧
    (d.dbv = true → x.pub < x.done → x.fault = none →
      let b := (s.dieOf s.hart.die).db[d.db]
      let stale := b.seq = d.seq ∧ BitVec.ofNat 48 (x.pub + 1) < b.hw
      (¬stale → exec (.outputStreamPerform n) s = .next ((s.setDie s.hart.die { s.dieOf s.hart.die with
        db := (s.dieOf s.hart.die).db.set d.db { hw := BitVec.ofNat 48 (x.pub + 1), seq := d.seq } }).onlyHart fun h =>
          { h with handles := h.handles.set n { x with pub := x.pub + 1 } })) ∧
      (stale → exec (.outputStreamPerform n) s = .next (s.onlyHart fun h => { h with
        handles := h.handles.set n { x with
          fault := some (0x41, 0, BitVec.ofNat 64 (b.seq.toNat * 2 ^ 48 + b.hw.toNat)) } }))) ∧
    ∀ v rest, (d.dbv = true → x.done ≤ x.pub) → d.paged = false → x.fault = none → x.released = v :: rest →
      d.width ∈ [8, 16, 32, 64] → (elementAt d 0 x.done).2 = 0 →
      let va := (elementAt d 0 x.done).1
      (∀ p, ownPlace s s.hart.agent .write va (d.width / 8) = .ok p →
        ∃ t, exec (.outputStreamPerform n) s = .next t ∧ SameMemoryBut s t p.pa (d.width / 8) ∧
          t.mem.readLe p.pa (d.width / 8) = v % 2 ^ d.width ∧ t.dies = s.dies ∧
          t.hart.handles = s.hart.handles.set n { x with released := rest, done := x.done + 1 }) ∧
      ∀ c, ownPlace s s.hart.agent .write va (d.width / 8) = .error c →
        exec (.outputStreamPerform n) s = .next (s.onlyHart fun h => { h with
          handles := h.handles.set n { x with fault := some (0x40, c, va) } })

/-- 10 R213, R214: bw.pop, bw.pop.nb, bw.push and bw.stat, with the traps of a missing element: the total, or the
fault held at it. 10 R204, R212: a push to a full channel quenches first. 10 R215, 02 R35: an instruction that reads an
input-bound register first fills it with the next elements, and the stream advances by their number; one that writes an
output-bound register appends its contents. The model's choices here: the trap of a push at or beyond the total (log 24),
how many elements an instruction takes or appends, whatever its mask (log 54), and
that only elements not yet released fill a channel (log 58). -/
def Obligations.StreamElementsAndOperands : Prop :=
  (∀ (s : State) (n : HReg) (x : Handle) (d : StreamDesc) (c a : SReg) (y : Word), StreamBound s n x d →
    s.hart.reads < 8 →
    let taken (h : Hart) (rest : List Nat) : Hart :=
      { h with handles := h.handles.set n { x with held := rest, pos := x.pos + 1 } }
    (∀ v rest, d.output = false → x.held = v :: rest →
      exec (.bwPop c n) s = .next (s.onlyHart fun h => ((taken h rest).owed c (elementScalar d v)).advance) ∧
      (s.hart.Full c → exec (.bwPopNb c n) s =
        .next (s.onlyHart fun h => { (taken h rest).setS c (elementScalar d v) with
          cbit := h.cbit.set 6 true, pc := h.pc + 4 }))) ∧
    (d.output = false → x.held = [] → x.pos < d.total → x.fault = none →
      exec (.bwPop c n) s = .next s ∧
      (s.hart.Full c → exec (.bwPopNb c n) s = .next (s.onlyHart fun h => { h with cbit := h.cbit.set 6 false, pc := h.pc + 4 }))) ∧
    (d.output = false → x.held = [] → d.total ≤ x.pos → HandlerReady s (trapOfStream n 0x40 0x12 0) →
      ∃ u, exec (.bwPop c n) s = .next u ∧ Trapped s (trapOfStream n 0x40 0x12 0) u) ∧
    (∀ f : BitVec 8 × BitVec 8 × Word, d.output = false → x.held = [] → x.pos < d.total → x.fault = some f →
      HandlerReady s (trapOfStream n f.1 f.2.1 f.2.2) →
      ∃ u, exec (.bwPop c n) s = .next u ∧ Trapped s (trapOfStream n f.1 f.2.1 f.2.2) u) ∧
    (d.output = true → s.hart.Gives a y → x.pos < d.total →
      let pushed (h : Hart) : Hart := { h with
        handles := h.handles.set n
          { h.handles[n] with held := h.handles[n].held ++ [y.toNat % 2 ^ d.width], pos := h.handles[n].pos + 1 }
        pc := h.pc + 4 }
      (x.held.length < 2 * (8 * s.hart.lanes) → exec (.bwPush a n) s = .next (s.onlyHart pushed)) ∧
      ∀ s1, 2 * (8 * s.hart.lanes) ≤ x.held.length → quenchNow s true = .ok s1 →
        exec (.bwPush a n) s = .next (s1.onlyHart pushed)) ∧
    (d.output = true → s.hart.Gives a y → d.total ≤ x.pos → HandlerReady s (trapOfStream n 0x40 0x12 0) →
      ∃ u, exec (.bwPush a n) s = .next u ∧ Trapped s (trapOfStream n 0x40 0x12 0) u ∧ u.hart.handles = s.hart.handles) ∧
    ∃ w : Word, exec (.bwStat c n) s = .next (s.onlyHart fun h => (h.owed c w).advance) ∧
      (x.pos < 2 ^ 48 → w.getLsbD 63 = true ∧ w.getLsbD 62 = d.output ∧
        w.getLsbD 61 = (x.fault.isSome && (d.output || x.held.isEmpty)) ∧ w.getLsbD 60 = decide (x.pos = d.total) ∧
        bitsOf w 59 56 = 0 ∧ bitsOf w 55 48 = (if d.output then 0 else min x.held.length 255) ∧ bitsOf w 47 0 = x.pos)) ∧
  ∀ (s : State) (e : VEntry) (rest : List VEntry) (d a : VReg) (t : IntTy) (ea : Bool) (n : HReg) (x : Handle) (y : StreamDesc),
    s.hart.vq = e :: rest → e.instr = .vmv d a t ea → d ≠ a → s.hart.producers = [] →
    (∀ r : VReg, s.hart.vpoison[r] = 0) → (∀ r : MReg, s.hart.mpoison[r] = 0) →
    s.hart.handles[n] = x → x.bound = true → x.desc = some y → y.width = t.bits →
    (∀ m : HReg, m ≠ n → s.hart.handles[m].bound = false) →
    let w := t.bits
    let len := lengthAt s e w
    (y.output = false → x.reg = some a → len ≤ x.held.length → actives s e w ≠ [] →
      let el (i : Nat) : Nat := x.held.getD i 0
      ∃ va vd : VWord,
        exec .vectorEntryExecute s = .next (s.onlyHart fun h => { h with
          vq := rest
          vreg := h.vreg.set a va
          producers := [{ dest := .vector [(d, vd)] }]
          handles := h.handles.set n { x with held := x.held.drop len, pos := x.pos + len } }) ∧
        (∀ i < 256 * perSlice w, vElem va w i = if i < len then el i % 2 ^ w else vElem s.hart.vreg[a] w i) ∧
        ∀ i < 256 * perSlice w, vElem vd w i = if activeAt s e len i then el i % 2 ^ w else vElem s.hart.vreg[d] w i) ∧
    (y.output = false → x.reg = some a → 0 < len → x.held.length < len → x.pos + x.held.length < y.total → x.fault = none →
      exec .vectorEntryExecute s = .next s) ∧
    (y.output = true → x.reg = some d → x.pos + len ≤ y.total → x.held.length + len ≤ 2 * (8 * s.hart.lanes) →
      ∃ v : VWord,
        exec .vectorEntryExecute s = .next (s.onlyHart fun h => { h with
          vq := rest
          vreg := h.vreg.set d v
          handles := h.handles.set n
            { x with held := x.held ++ (List.range len).map (vElem v w), pos := x.pos + len } }) ∧
        ∀ i < 256 * perSlice w,
          vElem v w i = if activeAt s e len i then vElem s.hart.vreg[a] w i else vElem s.hart.vreg[d] w i)

/-! ## Drawbars and barriers -/

/-- 10 R216, R217: db.pub moves a drawbar forward, or to a new tag, and traps on a step back; db.rd reads it. 10 R218,
R219: the arrival barriers: ab.init arms and clears, ab.arrive counts with saturation, ab.wait passes once complete
and waits before, ab.wait.nb says in c6 which. 10 R220: bar passes at once for a hart alone in its coach and for the
last member to arrive, which ends the generation; an earlier member waits, and goes on once the generation has ended.
That a forked child, which is no member, waits without arriving is the model's reading (log 63). -/
def Obligations.DrawbarsAndBarriers : Prop :=
  (∀ (s : State) (a b c : SReg) (n : Fin 64) (x y : Word),
    let bar := (s.dieOf s.hart.die).db[n]
    let back := y.truncate 16 = bar.seq ∧ x.toNat % 2 ^ 48 < bar.hw.toNat
    (s.hart.Gives a x → s.hart.Gives b y → s.hart.NoVectorMemory →
      (¬back →
        exec (.dbPub a b n) s = .next ((s.setDie s.hart.die { s.dieOf s.hart.die with
          db := (s.dieOf s.hart.die).db.set n { hw := x.truncate 48, seq := y.truncate 16 } }).onlyHart Hart.advance)) ∧
      (back → HandlerReady s { cause := 0x41, addr := x } →
        ∃ u, exec (.dbPub a b n) s = .next u ∧ Trapped s { cause := 0x41, addr := x } u)) ∧
    (s.hart.NoVectorMemory → s.hart.reads < 8 →
      exec (.dbRd c n) s =
        .next (s.onlyHart fun h => (h.owed c (BitVec.ofNat 64 (bar.seq.toNat * 2 ^ 48 + bar.hw.toNat))).advance))) ∧
  (∀ (s : State) (a b : SReg) (n : Fin 64) (x y : Word),
    let bar := (s.dieOf s.hart.die).ab[n]
    let put (z : Arrival) : State :=
      (s.setDie s.hart.die { s.dieOf s.hart.die with ab := (s.dieOf s.hart.die).ab.set n z }).onlyHart Hart.advance
    let complete := bar.armed = true ∧ bar.xb ≤ bar.cb ∧ bar.xa ≤ bar.ca
    (s.hart.Gives a x → s.hart.Gives b y → s.hart.NoVectorMemory →
      exec (.abInit a b n) s =
        .next (put { xb := x.toNat % 2 ^ 40, xa := y.toNat % 2 ^ 16, cb := 0, ca := 0, armed := true })) ∧
    (s.hart.Gives a x → s.hart.NoVectorMemory →
      exec (.abArrive a n) s =
        .next (put { bar with cb := min (bar.cb + x.toNat % 2 ^ 40) (2 ^ 40 - 1), ca := min (bar.ca + 1) (2 ^ 16 - 1) })) ∧
    (s.hart.NoVectorMemory → s.hart.status = .running →
      (complete → exec (.abWait n) s = .next (s.onlyHart fun h => { h with mark := .none, pc := h.pc + 4 })) ∧
      (¬complete → s.hart.cancel = false →
        exec (.abWait n) s = .next (s.onlyHart fun h => { h with status := .waiting, mark := .none }))) ∧
    (s.hart.NoVectorMemory → s.hart.status = .waiting → ¬complete → s.hart.cancel = true →
      exec (.abWait n) s = .next s.takeCancel) ∧
    (s.hart.NoVectorMemory → ∃ v, exec (.abWaitNb n) s = .next (s.onlyHart fun h => { h with cbit := h.cbit.set 6 v, pc := h.pc + 4 }) ∧
      (v = true ↔ complete))) ∧
  ∀ (s : State) (t : Task), s.findTask s.hart.task = some t → s.hart.status = .running → s.hart.cancel = false →
    s.hart.NoVectorMemory → s.hart.mark = .none → t.arrivals.Nodup →
    let others := t.arrivals.filter fun x => x != s.hart.hid
    (t.size = 1 → exec .bar s = .next (s.onlyHart Hart.advance)) ∧
    (t.size ≠ 1 → s.hart.parent.isSome = true →
      exec .bar s = .next (s.onlyHart fun h => { h with status := .waiting, mark := .arrived t.generation })) ∧
    (t.size ≠ 1 → s.hart.parent = none → t.live ≠ 0 → t.live ≤ others.length + 1 →
      exec .bar s = .next ((s.setTask { t with generation := t.generation + 1, arrivals := [] }).onlyHart fun h =>
        { h with mark := .none, pc := h.pc + 4 })) ∧
    (t.size ≠ 1 → s.hart.parent = none → others.length + 1 < t.live →
      exec .bar s = .next ((s.setTask { t with arrivals := s.hart.hid :: others }).onlyHart fun h =>
        { h with status := .waiting, mark := .arrived t.generation })) ∧
    ∀ g, g ≠ t.generation →
      exec .bar (s.onlyHart fun h => { h with mark := .arrived g }) =
        .next (s.onlyHart fun h => { h with mark := .none, pc := h.pc + 4 })

/-! ## The hearth -/

/-- 17 R347; 18 R351, R352, R357, R358, R361, R362: the appends, each with the node its operands describe. -/
def Obligations.TileAppends : Prop :=
  ∀ (s : State) (d a b : SReg) (x y : Word), s.hart.Gives a x → s.hart.Gives b y → s.hart.Full d → s.hart.vq = [] →
    s.hart.OutputsDone →
    let f32 : BitVec 8 := 0x80
    let kept (n : Node) : BitVec 8 := if (tileFmt n.ty).isSome then n.ty else f32
    let rows := bitsOf y 7 0 + 1
    let cols := bitsOf y 15 8 + 1
    (bitsOf y 63 48 = 0 → tileType (bitsOf y 23 16) = true →
      let unit := tileUnit (BitVec.ofNat 8 (bitsOf y 23 16))
      x.toNat % unit = 0 → bitsOf y 47 24 % unit = 0 →
      Appends s d (.tlLd d a b) (freshNode .leaf (BitVec.ofNat 8 (bitsOf y 23 16)) rows cols x y 0 none none)) ∧
    (∀ (k l : Fin 64) (m n : Node), Names s.hart x k m → Names s.hart y l n →
      (m.ty = n.ty → (tileFmt m.ty).isNone = true → m.cols = n.rows →
        Appends s d (.tlMm d a b)
          (freshNode .mm f32 m.rows n.cols (inputOf k) (inputOf l) 0 (some m.nid) (some n.nid))) ∧
      (m.rows = n.rows → m.cols = n.cols → ∀ op : EwOp,
        Appends s d (.tlEw d a b op)
          (freshNode (.ew op) f32 m.rows m.cols (inputOf k) (inputOf l) 0 (some m.nid) (some n.nid)))) ∧
    ∀ (k : Fin 64) (m : Node), Names s.hart x k m →
      (y.getLsbD 63 = false → bitsOf y 62 50 = 0 →
        (∀ i ∈ [0, rows - 1], ∀ j ∈ [0, cols - 1],
          0 ≤ (affine y i j).1 ∧ (affine y i j).1 < m.rows ∧ 0 ≤ (affine y i j).2 ∧ (affine y i j).2 < m.cols) →
        Appends s d (.tlMap d a b) (freshNode (.map false) (kept m) rows cols (inputOf k) 0 y (some m.nid) none)) ∧
      (∀ (l : Fin 64) (n : Node), y.getLsbD 63 = true → bitsOf y 62 38 = 0 → bitsOf y 31 16 = 0 →
        Names s.hart (BitVec.ofNat 64 (bitsOf y 37 32)) l n → cols ≤ m.cols → rows ≤ n.rows →
        Appends s d (.tlMap d a b)
          (freshNode (.map true) (kept m) rows cols (inputOf k) (inputOf l) y (some m.nid) (some n.nid))) ∧
      (∀ (op : RedOp) (col : Bool),
        Appends s d (.tlRed d a op col)
          (freshNode (.red op col) f32 (if col then 1 else m.rows) (if col then m.cols else 1) (inputOf k) 0 0
            (some m.nid) none)) ∧
      (bitsOf y 63 8 = 0 → tileType y.toNat = true →
        Appends s d (.tlCvt d a b) (freshNode .cvt (y.truncate 8) m.rows m.cols (inputOf k) 0 y (some m.nid) none))

/-- 17 R347; 18 R351, R363 to R365, R372, R373: tl.force of a rectangle forces its elements, with a trap for a
rectangle outside the node; what is materialised is reused; one leaf element is read from memory into the area, and
one element whose inputs are there is computed into it. A leaf element that was read before it is demanded (13 R269; 18
R370) takes what that reading found. The place of an element in the area is the model's (log 18). -/
def Obligations.TileForce : Prop :=
  ∀ (s : State) (a b : SReg) (x w : Word) (k : Fin 64) (n : Node), s.hart.Gives a x → s.hart.Gives b w → s.hart.vq = [] →
    s.hart.OutputsDone → Names s.hart x k n → bitsOf w 63 32 = 0 →
    let q : Rect := { r0 := bitsOf w 7 0, c0 := bitsOf w 15 8, r1 := bitsOf w 7 0 + bitsOf w 23 16,
                      c1 := bitsOf w 15 8 + bitsOf w 31 24 }
    let unit := tileUnit n.ty
    let made (s1 : State) (pa i j v : Nat) : Prop :=
      SameMemoryBut s s1 pa unit ∧ s1.mem.readLe pa unit = v % 256 ^ unit ∧
        s1.hart.hearth.find n.nid = some (madeNode n i j, k.val)
    (n.rows ≤ q.r1 ∨ n.cols ≤ q.c1 → HandlerReady s { cause := 0x12, addr := w } →
      ∃ u, exec (.tlForce a b) s = .next u ∧ Trapped s { cause := 0x12, addr := w } u) ∧
    (q.r1 < n.rows → q.c1 < n.cols →
      (∀ s1, forceCells s n.nid (rectCells q) = .ok s1 → exec (.tlForce a b) s = .next (s1.onlyHart Hart.advance)) ∧
      (∀ t s1, forceCells s n.nid (rectCells q) = .error (t, s1) → exec (.tlForce a b) s = .next (s1.takeTrap t)) ∧
      (widen n (rectCells q) &&& ~~~n.made = 0 → forceCells s n.nid (rectCells q) = .ok (s.withHearth Hearth.tidy) ∧
        exec (.tlForce a b) s = .next ((s.withHearth Hearth.tidy).onlyHart Hart.advance)) ∧
      (q.r0 = q.r1 → q.c0 = q.c1 → n.made.getLsbD (256 * q.r0 + q.c0) = false → n.alloc.isSome = true →
        (tileFmt n.ty).isSome = true →
        (n.op = .leaf → ∀ l v r p1, n.early = l ++ (256 * q.r0 + q.c0, v) :: r → (∀ e ∈ l, e.1 ≠ 256 * q.r0 + q.c0) →
          translate s s.hart.agent .write (areaAddr s.hart n q.r0 q.c0) = .ok p1 →
          ∃ s1, forceCells s n.nid (rectCells q) = .ok s1 ∧ made s1 p1.pa q.r0 q.c0 v ∧
            s1.hart = { s.hart with hearth := s1.hart.hearth }) ∧
        (n.op = .leaf → (∀ e ∈ n.early, e.1 ≠ 256 * q.r0 + q.c0) →
          ∀ p p1, translate s s.hart.agent .read (n.in0 + BitVec.ofNat 64 (q.r0 * n.stride + unit * q.c0)) = .ok p →
          readFault s p.pa unit = none →
          translate (tlbFill s s.hart.agent (n.in0 + BitVec.ofNat 64 (q.r0 * n.stride + unit * q.c0)) p.leaf) s.hart.agent .write
            (areaAddr s.hart n q.r0 q.c0) = .ok p1 →
          ∃ s1, forceCells s n.nid (rectCells q) = .ok s1 ∧ made s1 p1.pa q.r0 q.c0 (s.mem.readLe p.pa unit) ∧
            s1.hart = { s.hart with hearth := s1.hart.hearth }) ∧
        ∀ v g p1, ElementIs s n q.r0 q.c0 v g →
          (∀ r ∈ passOn s.hart.hearth n q, r.1 < n.nid ∧
            ∃ m l, s.hart.hearth.find r.1 = some (m, l) ∧ widen m r.2 &&& ~~~m.made = 0) →
          translate s s.hart.agent .write (areaAddr s.hart n q.r0 q.c0) = .ok p1 →
          ∃ s1, forceCells s n.nid (rectCells q) = .ok s1 ∧ made s1 p1.pa q.r0 q.c0 v ∧
            s1.hart = { s.hart with hearth := s1.hart.hearth, fflags := s.hart.fflags ||| g }))

/-- 18 R353, R366, R369, R371 to R373: tl.st of materialised elements puts their bytes, row by row, in one entry of the
strip store buffer: elements of type f32 or bf16, or of a block type the blocks of whole column groups, each with its
header and mantissas; tl.pin forces the live leaves it reaches, reading them there and then; tl.drop frees its node, or
marks it while a consumer is suspended; tl.stat reads a word of a record; tl.sync pins every live leaf and clears the
hearth. That a pin is one force of all its leaves is the model's reading (log 87). -/
def Obligations.TileStoreDropSync : Prop :=
  ∀ (s : State) (a b d : SReg) (x y : Word), s.hart.Gives a x → s.hart.Gives b y → s.hart.vq = [] → s.hart.OutputsDone →
    (∀ (r : SReg) (word : Word) (k : Fin 64) (n : Node) (pa v blk : Nat → Nat → Nat),
      s.hart.Gives r word → Names s.hart x k n → bitsOf word 63 32 = 0 → (tileFmt n.ty).isNone = true →
      tileType n.ty.toNat = true → s.hart.NoLiveLeaf → s.hart.hearth.tidy = s.hart.hearth → s.hart.buffer.length < 8 →
      let r0 := bitsOf word 7 0
      let c0 := bitsOf word 15 8
      let rows := bitsOf word 23 16 + 1
      let cols := bitsOf word 31 24 + 1
      let w := n.ty.toNat
      let kw := bfpK w
      let groups := (cols + kw - 1) / kw
      let size (g : Nat) : Nat := min kw (cols - kw * g)
      r0 + rows ≤ n.rows → c0 + cols ≤ n.cols → c0 % kw = 0 → (c0 + cols) % kw = 0 ∨ c0 + cols = n.cols →
      y.toNat % 64 = 0 →
      (∀ i < rows, ∀ j < cols, n.made.getLsbD (256 * (r0 + i) + c0 + j) = true ∧ areaRead s n (r0 + i) (c0 + j) = .ok (v i j)) →
      (∀ i < rows, ∀ g < groups,
        (∃ p, ownPlace s s.hart.agent .write (y + BitVec.ofNat 64 ((i * groups + g) * 64)) 64 = .ok p ∧ p.pa = pa i g) ∧
        blk i g % 2 ^ 32 = v i (kw * g) % 2 ^ 32 ∧ blk i g / 2 ^ (32 + w * size g) = 0 ∧
        ∀ t < size g, blk i g / 2 ^ (32 + w * t) % 2 ^ w = v i (kw * g + t) / 2 ^ 32 % 2 ^ w) →
      let bytes := (List.range rows).flatMap fun i => (List.range groups).flatMap fun g =>
        (List.range 64).map fun z => (pa i g + z, BitVec.ofNat 8 (blk i g / 256 ^ z))
      ∃ t, OnlyHartAndCaches s t (fun h => { h with buffer := h.buffer ++ [{ entry := .store bytes }], pc := h.pc + 4 }) ∧
        exec (.tlSt a b r) s = .next t) ∧
    (∀ (r : SReg) (w : Word) (k : Fin 64) (n : Node) (pa : Nat → Nat → Nat) (v : Nat → Nat → Nat),
      s.hart.Gives r w → Names s.hart x k n → bitsOf w 63 32 = 0 → (tileFmt n.ty).isSome = true → s.hart.NoLiveLeaf →
      s.hart.hearth.tidy = s.hart.hearth → s.hart.buffer.length < 8 →
      let r0 := bitsOf w 7 0
      let c0 := bitsOf w 15 8
      let rows := bitsOf w 23 16 + 1
      let cols := bitsOf w 31 24 + 1
      let unit := tileUnit n.ty
      r0 + rows ≤ n.rows → c0 + cols ≤ n.cols → y.toNat % unit = 0 →
      (∀ i < rows, ∀ j < cols, n.made.getLsbD (256 * (r0 + i) + c0 + j) = true ∧
        areaRead s n (r0 + i) (c0 + j) = .ok (v i j) ∧
        ∃ p, ownPlace s s.hart.agent .write (y + BitVec.ofNat 64 ((i * cols + j) * unit)) unit = .ok p ∧ p.pa = pa i j) →
      let bytes := (List.range rows).flatMap fun i => (List.range cols).flatMap fun j =>
        (List.range unit).map fun z => (pa i j + z, BitVec.ofNat 8 (v i j / 256 ^ z))
      ∃ t, OnlyHartAndCaches s t (fun h => { h with buffer := h.buffer ++ [{ entry := .store bytes }], pc := h.pc + 4 }) ∧
        exec (.tlSt a b r) s = .next t) ∧
    (∀ (k : Fin 64) (n : Node), Names s.hart x k n →
      (s.hart.NoLiveLeaf → exec (.tlPin a) s = .next (s.onlyHart Hart.advance)) ∧
      (n.op = .leaf → n.live = true → n.i0 = none → n.i1 = none →
        ∀ s1, forceCells (s.withHearth fun t => t.unread [n.nid]) n.nid n.full = .ok s1 →
        exec (.tlPin a) s = .next (s1.onlyHart Hart.advance)) ∧
      (∀ l : List (Node × Nat), l.Sublist s.hart.hearth.inSlots →
        (∀ p ∈ s.hart.hearth.inSlots, p ∈ l ↔ p.1.live = true ∧ Reaches s.hart.hearth n.nid p.1.nid) →
        (l = [] → exec (.tlPin a) s = .next (s.onlyHart Hart.advance)) ∧
        (l ≠ [] →
          let leaves := l.map fun p => p.1.nid
          let fresh := s.withHearth fun t => t.unread leaves
          (∀ f, force fresh [] leaves = .ok f → exec (.tlPin a) s = .next (f.done.onlyHart Hart.advance)) ∧
          ∀ t s1, force fresh [] leaves = .error (t, s1) → exec (.tlPin a) s = .next (s1.takeTrap t))) ∧
      exec (.tlDrop a) s = .next (s.onlyHart fun h =>
        (h.withHearth fun t => { t with slots := t.slots.set k (some { n with state := .dropped }) }.tidy).advance) ∧
      ((∀ (j : Fin 64) (m : Node), s.hart.hearth.slots[j] = some m → m.state ≠ .dropped ∧
          (m.waits = true → m.reads n.nid = false)) →
        s.hart.hearth.ghosts = [] → n.reads n.nid = false →
        { s.hart.hearth with slots := s.hart.hearth.slots.set k (some { n with state := .dropped }) }.tidy =
          { s.hart.hearth with slots := s.hart.hearth.slots.set k none }) ∧
      ((∃ (j : Fin 64) (m : Node), j ≠ k ∧ s.hart.hearth.slots[j] = some m ∧ m.waits = true ∧ m.reads n.nid = true) →
        (∀ (j : Fin 64) (m : Node), s.hart.hearth.slots[j] = some m → m.state ≠ .dropped) → s.hart.hearth.ghosts = [] →
        exec (.tlDrop a) s = .next (s.onlyHart fun h => (h.withHearth fun t =>
          { t with slots := t.slots.set k (some { n with state := .dropped }) }).advance))) ∧
    (x.toNat < 64 → y.toNat < 8 → s.hart.Full d →
      (∀ n, s.hart.hearth.slots[x.toNat]! = some n → n.rows ≤ 256 → n.cols ≤ 256 → n.alloc.getD 0 < 2 ^ 16 →
        ∃ w, exec (.tlStat d a b) s = .next (s.onlyHart fun h => (h.setS d w).advance) ∧ RecordWord n y.toNat w) ∧
      (s.hart.hearth.slots[x.toNat]! = none →
        exec (.tlStat d a b) s = .next (s.onlyHart fun h => (h.setS d 0).advance))) ∧
    exec (.tlSync false false) s = .next (s.onlyHart Hart.advance) ∧
    (s.hart.NoLiveLeaf → exec (.tlSync true false) s = .next (s.onlyHart Hart.advance)) ∧
    let clear (h : Hart) : Hart :=
      (h.withHearth fun t => { t with slots := Vector.replicate 64 none, ghosts := [] }).advance
    exec (.tlSync false true) s = .next (s.onlyHart clear) ∧
    (s.hart.NoLiveLeaf → exec (.tlSync true true) s = .next (s.onlyHart clear)) ∧
    let leaves := (s.hart.hearth.inSlots.filter fun p => p.1.live).map fun p => p.1.nid
    let fresh := s.withHearth fun t => t.unread leaves
    leaves ≠ [] →
      (∀ f, force fresh [] leaves = .ok f →
        exec (.tlSync true false) s = .next (f.done.onlyHart Hart.advance) ∧
        exec (.tlSync true true) s = .next (f.done.onlyHart clear)) ∧
      ∀ t s1 clr, force fresh [] leaves = .error (t, s1) → exec (.tlSync true clr) s = .next (s1.takeTrap t)

/-! ## Jobs and engines -/

/-- 11 R234, R236, R240, R241, R243: job.sub hands the card to the die's scheduler and gives a new ticket; a card that
is refused fails at once; an accepted one waits for the earlier cards that are not done and with whose regions its own
overlap. At 256 cards it waits; at 64 tickets it traps. Which ticket is free is the model's (log 38), and so is the order in which the faults of a card
are looked for (log 40). 20 R391: a collective's card takes its group at acceptance, or fails with it. 11 R239, R244 to R246:
job.wait waits until the named jobs are done and retires their tickets, trapping at the lowest failed one; job.poll
gives the status word, retiring the ticket of a done job, or GONE, once earlier vector memory instructions have left the
queue (13 R257; R245's 'without waiting' is of the job: log 92); job.cancel marks a job for its end. -/
def Obligations.JobInstructions : Prop :=
  (∀ (s : State) (a b : SReg) (va : Word) (p q : Place) (words : List Word),
    let g : Agent := { s.hart.agent with cell := none }
    let x := s.dieOf s.hart.die
    let mine := x.cards.filter fun c => c.owner == s.hart.hid && !c.retired
    let active := x.cards.filter fun c => c.state != .done
    s.hart.Gives a va → s.hart.Full b → s.hart.status = .running → s.hart.NoVectorMemory → va.toNat % 64 = 0 →
    translate s g .read va = .ok p → translate s g .read (va + 64) = .ok q →
    (256 ≤ active.length → exec (.jobSub a b) s = .next s) ∧
    (active.length < 256 → 64 ≤ mine.length → HandlerReady s { cause := 0x50, sub := 0x01, addr := va } →
      ∃ u, exec (.jobSub a b) s = .next u ∧ Trapped s { cause := 0x50, sub := 0x01, addr := va } u) ∧
    (active.length < 256 → mine.length < 64 → readCard s p.pa q.pa = .ok words →
      let adds (c : Card) : Prop :=
        exec (.jobSub a b) s =
          .next ({ s.setDie s.hart.die { x with cards := x.cards ++ [c], nextCard := x.nextCard + 1 } with
            fresh := s.fresh + 1 }.onlyHart fun h => ({ h with mark := .none }.setS b c.ticket).advance)
      ∃ c : Card,
        c.no = x.nextCard ∧ c.owner = s.hart.hid ∧ c.ticket ≠ 0 ∧ (∀ m ∈ mine, m.ticket ≠ c.ticket) ∧ c.job = s.hart.job ∧
        c.asid = s.hart.asid ∧ c.level = s.hart.priv.cur ∧ c.cell = s.hart.cell ∧ c.addr = va ∧ c.words = words ∧
        c.state = .queued ∧ c.retired = false ∧ c.cause = 0 ∧ c.cmpl = cmplPlace s g (words.getD 7 0) ∧
        (cardBad s s.hart words = true → adds { c with state := .worked, cause := 0x50, sub := 0x01 }) ∧
        (cardBad s s.hart words = false →
          let rd := footprint s g .read (mcastCells words) (words.getD 8 0) (words.getD 9 0)
          let wr := footprint s g .write (mcastCells words) (words.getD 10 0) (words.getD 11 0)
          let untranslated := rd = none ∨ wr = none ∨ followPlaces s g c = none ∨ (words.getD 7 0 ≠ 0 ∧ c.cmpl = none)
          (untranslated → adds { c with state := .worked, cause := 0x50, sub := 0x03 }) ∧
          ∀ r w f, ¬untranslated → rd = some r → wr = some w → followPlaces s g c = some f →
            let meet (l m : List (Nat × Nat)) : Bool := l.any fun i => m.any fun j => i.1 < j.1 + j.2 && j.1 < i.1 + i.2
            ((words.getD 0 0).getLsbD 59 = true → meet r w = true →
              adds { c with state := .worked, cause := 0x50, sub := 0x02 }) ∧
            ((words.getD 0 0).getLsbD 59 = false ∨ meet r w = false →
              let accepted (q : Option Group) : Prop := s.hart.NoLiveLeaf →
                adds { c with
                  rd := r
                  wr := w
                  follow := f
                  group := q
                  deps := (active.filter fun e => meet r e.wr || meet w e.rd || meet w e.wr).map fun e =>
                    (e.no, meet r e.wr) }
              (bitsOf (words.getD 0 0) 63 60 ≠ 2 → accepted none) ∧
              (bitsOf (words.getD 0 0) 63 60 = 2 →
                (∀ q, readGroup s s.hart.die { c with rd := r, wr := w, follow := f } = .ok q → accepted (some q)) ∧
                ∀ e, readGroup s s.hart.die { c with rd := r, wr := w, follow := f } = .error e →
                  adds { c with state := .worked, cause := e.1, sub := e.2 }))))) ∧
  ∀ (s : State) (a b : SReg) (t : Word), s.hart.Gives a t →
    (∀ c ∈ (s.dieOf s.hart.die).cards, ¬(c.retired = true ∧ c.state = .done)) →
    let named (c : Card) : Bool := c.owner == s.hart.hid && (a == 0 || c.ticket == t)
    let l := (s.dieOf s.hart.die).cards.filter fun c => named c && !c.retired
    let retired := changedCards s s.hart.die fun c => if named c then { c with retired := true } else c
    let bad (c : Card) : Prop := c ∈ l ∧ c.cause ≠ 0 ∧ c.cause ≠ 0x70
    (s.hart.status = .running →
      ((∀ c ∈ l, c.state = .done) → s.hart.mark = .none →
        ((∀ c, ¬bad c) → exec (.jobWait a) s = .next (retired.onlyHart Hart.advance)) ∧
        ∀ c, bad c → (∀ c', bad c' → c'.no ≠ c.no → c.ticket.toNat < c'.ticket.toNat) → (l.map (·.no)).Nodup →
          HandlerReady retired { cause := c.cause, sub := c.sub, addr := c.addr } →
          ∃ u, exec (.jobWait a) s = .next u ∧ Trapped retired { cause := c.cause, sub := c.sub, addr := c.addr } u) ∧
      ((∃ c ∈ l, c.state ≠ .done) → s.hart.cancel = false →
        exec (.jobWait a) s = .next (s.onlyHart fun h => { h with status := .waiting, mark := .none }))) ∧
    (¬s.hart.NoVectorMemory → exec (.jobPoll a b) s = .next s) ∧
    (s.hart.NoVectorMemory → s.hart.reads < 8 →
      let gives (s1 : State) (w : Word) : Prop :=
        exec (.jobPoll a b) s = .next (s1.onlyHart fun h => (h.owed b w).advance)
      ((s.dieOf s.hart.die).cards.filter (fun c => c.owner == s.hart.hid && !c.retired && c.ticket == t) = [] →
        gives s (2 ^ 60)) ∧
      ∀ c rest, (s.dieOf s.hart.die).cards.filter (fun c => c.owner == s.hart.hid && !c.retired && c.ticket == t) = c :: rest →
        ∃ w, StatusWord c w ∧
          (c.state ≠ .done → ((s.dieOf s.hart.die).cards.map (·.no)).Nodup → gives s w) ∧
          (c.state = .done → gives (changedCards s s.hart.die fun y =>
            if y.no = c.no ∧ y.state = .done then { y with retired := true } else y) w)) ∧
    exec (.jobCancel a) s = .next ((s.setDie s.hart.die { s.dieOf s.hart.die with
      cards := (s.dieOf s.hart.die).cards.map fun c =>
        if c.owner = s.hart.hid ∧ c.ticket = t ∧ c.state ≠ .done ∧ c.retired = false then { c with cancelled := true }
        else c }).onlyHart Hart.advance)

/-- 11 R236, R240; 00 R9: an engine access within a page reads and writes the bytes at its place when all of them lie
in the footprints, and otherwise fails with 0x52; one that does not translate or meets a bad byte fails with 0x50 and
the cause. 11 R237, R238, R241, R246; 20 R395, R396, R398 to R400: a queued card whose predecessors are done starts and
reads its sources, a row of a gather outside the read region failing with 0x52; a codec reads its descriptor, its
context's head and its input; a collective's member sends its first hops (R392). Each delivery of a copy, gather or codec
card writes its destination and arrives; one with TMV deposits into its merge slot as tm.put does; a decoding engine
writes two rows at a time, then its context. A card that is through publishes and ends with its status word, or fails. Its
watchdog, WDOG cycles after its start, runs a replayable card once more and ends any other with 0x51. The model's choices
here: that an engine's write is checked whole before its first byte (log 39); the subcodes that a card's own fields take
first, and that an access is translated before it is compared with the footprints (log 40); what a descriptor against
R398 does, that FIRST = 1 asks only for the context's area, and that rows come two at a time (log 42); that a deposit's
slot and word are judged before the alignment and the footprint of its read (log 70); and when a watchdog starts and that
its passing is an event (logs 69, 51). -/
def Obligations.EngineCards : Prop :=
  (∀ (s : State) (g : Agent) (allowed : List (Nat × Nat)) (va : Word) (n : Nat) (l : List Byte),
    va.toNat % 4096 + n ≤ 4096 → 0 < n → l.length = n →
    (∀ pa, inside allowed pa n = true ↔ ∀ x, pa ≤ x → x < pa + n → ∃ r ∈ allowed, r.1 ≤ x ∧ x < r.1 + r.2) ∧
    (∀ c, translate s g .read va = .error c → engineRead s g allowed va n = .error (0x50, c)) ∧
    (∀ c, translate s g .write va = .error c → engineWrite s g allowed va l = .error (0x50, c)) ∧
    (∀ p, translate s g .read va = .ok p →
      (inside allowed p.pa n = false → engineRead s g allowed va n = .error (0x52, 0)) ∧
      (∀ c, inside allowed p.pa n = true → readFault s p.pa n = some c → engineRead s g allowed va n = .error (0x50, c)) ∧
      (inside allowed p.pa n = true → readFault s p.pa n = none →
        engineRead s g allowed va n = .ok ((List.range n).map fun i => s.mem.read (p.pa + i)))) ∧
    ∀ p, translate s g .write va = .ok p →
      (inside allowed p.pa n = false → engineWrite s g allowed va l = .error (0x52, 0)) ∧
      (inside allowed p.pa n = true → ∃ t, engineWrite s g allowed va l = .ok t ∧ SameMemoryBut s t p.pa n ∧
        (∀ i < n, t.mem.read (p.pa + i) = l.getD i 0) ∧
        t = { s with mem := t.mem, poisoned := t.poisoned, uncorrectable := t.uncorrectable })) ∧
  ∀ (s : State) (d : DieNo) (c : Card),
    let g := c.agent d
    let kind := bitsOf (c.w 0) 63 60
    let failedIn (s1 : State) (cause sub : BitVec 8) : State := withCard s1 d { c with state := .worked, cause := cause, sub := sub }
    let fail := failedIn s
    let spoils (i : Instr) (desc : List Byte) : Prop :=
      (∀ s1, engineWrite s g c.wr (pictureW desc 4) (List.replicate 8 0) = .ok s1 → exec i s = .next (failedIn s1 0x50 0x31)) ∧
      ∀ r, engineWrite s g c.wr (pictureW desc 4) (List.replicate 8 0) = .error r → exec i s = .next (fail 0x50 0x31)
    let onEngine := (s.dieOf d).cards.filter fun y =>
      y.kind == kind && (y.state == .running || y.state == .followOn || (y.state == .worked && y.cause == 0))
    (CardOn s d c .queued → c.deps = [] →
      (c.broken = true → exec (.engineJobStart d c.no) s = .next (fail 0x50 0x04)) ∧
      (c.broken = false → onEngine.length < (if kind = 0 then 8 else if kind = 1 then 4 else 2) →
        let begun (l : List Byte) : Card :=
          { c with state := .running, data := l, delivered := [], rows := 0, published := 0, start := (s.dieOf d).cyc }
        let starts (l : List Byte) : Prop := exec (.engineJobStart d c.no) s = .next (withCard s d (begun l))
        let failsWith (r : Refused) : Prop := exec (.engineJobStart d c.no) s = .next (fail r.1 r.2)
        (∀ q : Group, c.group = some q →
          (∀ s1 l, startCollective s d c q = .ok (s1, l) →
            exec (.engineJobStart d c.no) s = .next ((withCard s1 d (begun [])).sendAll d q l)) ∧
          (∀ r, startCollective s d c q = .error r → exec (.engineJobStart d c.no) s = .next (s.failMember d c r)) ∧
          ∀ own, bitsOf (c.w 4) 63 60 = 0 → (c.w 4).getLsbD 55 = false →
            engineRead s g (c.rd ++ c.wr) (c.w 2 + BitVec.ofNat 64 (q.chunkStart c q.before)) (q.chunkBytes c q.before) = .ok own →
            startCollective s d c q = .ok (s, q.hopsTo .ringSum (q.chunkStart c q.before) own q.after)) ∧
        (c.group = none → kind = 3 →
          (∀ r, engineRead s g (c.rd ++ c.wr) (c.w 3) 64 = .error r → failsWith r) ∧
          ∀ desc, engineRead s g (c.rd ++ c.wr) (c.w 3) 64 = .ok desc →
            (pictureBad desc = true → spoils (.engineJobStart d c.no) desc) ∧
            (pictureBad desc = false → (pictureW desc 6).getLsbD 0 = true →
              (∀ l, codecInput s d c desc = .ok l → starts (desc ++ l)) ∧
              (∀ r, codecInput s d c desc = .error r → failsWith r) ∧
              codecContext s g c desc =
                (engineAccess s g .read (c.rd ++ c.wr) (pictureW desc 4) (pictureW desc 5).toNat).map fun _ => []) ∧
            (pictureBad desc = false → (pictureW desc 6).getLsbD 0 = false →
              codecContext s g c desc = engineRead s g (c.rd ++ c.wr) (pictureW desc 4) (pictureW desc 5).toNat ∧
              (∀ r, engineRead s g (c.rd ++ c.wr) (pictureW desc 4) 8 = .error r → failsWith r) ∧
              ∀ head, engineRead s g (c.rd ++ c.wr) (pictureW desc 4) 8 = .ok head →
                let invalid := leNat head = 0
                (invalid → failsWith (0x50, 0x31)) ∧
                (∀ l, ¬invalid → codecInput s d c desc = .ok l → starts (desc ++ l)) ∧
                ∀ r, ¬invalid → codecInput s d c desc = .error r → failsWith r)) ∧
        (c.group = none → kind = 0 → (c.w 4).getLsbD 54 = false →
          (∀ l, engineRead s g (c.rd ++ c.wr) (c.w 2) (bitsOf (c.w 4) 39 0) = .ok l → starts l) ∧
          ∀ r, engineRead s g (c.rd ++ c.wr) (c.w 2) (bitsOf (c.w 4) 39 0) = .error r → failsWith r) ∧
        (c.group = none → kind = 0 → (c.w 4).getLsbD 54 = true → starts []) ∧
        ∀ (ix : List Byte) (row : Nat → List Byte), c.group = none → kind = 1 →
          engineRead s g (c.rd ++ c.wr) (c.w 2) (4 * bitsOf (c.w 4) 39 0) = .ok ix → ix.length = 4 * bitsOf (c.w 4) 39 0 →
          let esz := bitsOf (c.w 4) 63 52
          let at' (j : Nat) : Word := c.w 5 + BitVec.ofNat 64 (leNat ((ix.drop (4 * j)).take 4) * esz)
          ((∀ j < bitsOf (c.w 4) 39 0, engineRead s g c.rd (at' j) esz = .ok (row j)) →
            starts ((List.range (bitsOf (c.w 4) 39 0)).flatMap row)) ∧
          ∀ j < bitsOf (c.w 4) 39 0, (∀ i < j, engineRead s g c.rd (at' i) esz = .ok (row i)) →
            let named := (c.w 9).getLsbD 63 = false ∧ (c.w 8).toNat ≤ (at' j).toNat ∧
              (at' j).toNat + esz ≤ (c.w 8).toNat + bitsOf (c.w 9) 39 0
            (∀ r, engineAccess s g .read c.rd (at' j) esz = .error r →
              (named → failsWith r) ∧ (¬named → failsWith (0x52, 0))) ∧
            ∀ x r, engineAccess s g .read c.rd (at' j) esz = .ok x → engineRead s g c.rd (at' j) esz = .error r → failsWith r)) ∧
    (CardOn s d c .running →
      (kind = 0 ∨ kind = 1 → mcastCells c.words = [] → (kind = 0 → (c.w 4).getLsbD 54 = false) → c.delivered = [] →
        (∀ s1, engineWrite s g c.wr (c.w 3) c.data = .ok s1 →
          ∃ t, exec (.deliveryArrival d c.no) s = .next t ∧
            Delivered s1 d c 0 (if kind = 0 then bitsOf (c.w 4) 39 0 else c.data.length) true t) ∧
        ∀ r, engineWrite s g c.wr (c.w 3) c.data = .error r →
          exec (.deliveryArrival d c.no) s = .next (fail r.1 r.2)) ∧
      (∀ k, kind = 0 → (c.w 4).getLsbD 54 = false → k ∈ mcastCells c.words → k ∉ c.delivered →
        (∀ j ∈ mcastCells c.words, j < k → j ∈ c.delivered) →
        let pa := 0x40000000000 + d.val * 0x10000000 + k % 48 * 0x400000 + (c.w 3).toNat
        inside c.wr pa c.data.length = true →
        ∃ s1 t, SameMemoryBut s s1 pa c.data.length ∧ (∀ i < c.data.length, s1.mem.read (pa + i) = c.data.getD i 0) ∧
          s1 = { s with mem := s1.mem, poisoned := s1.poisoned, uncorrectable := s1.uncorrectable } ∧
          exec (.deliveryArrival d c.no) s = .next t ∧
          Delivered s1 d c k (bitsOf (c.w 4) 39 0) (decide (∀ j ∈ mcastCells c.words, j ∈ c.delivered ∨ j = k)) t) ∧
      (kind = 0 → (c.w 4).getLsbD 54 = true → mcastCells c.words = [] → c.delivered = [] →
        let slot : Fin 16 := Fin.ofNat 16 (bitsOf (c.w 4) 53 50)
        let cnt := bitsOf (c.w 3) 20 0
        (∀ r, ((s.dieOf d).slots[slot]).checkPut c.job (c.w 3) = some r →
          exec (.deliveryArrival d c.no) s = .next (fail 0x50 (if r.1 = 0x50 then r.2 else r.1))) ∧
        (((s.dieOf d).slots[slot]).checkPut c.job (c.w 3) = none →
          ((c.w 2).toNat % 4 ≠ 0 → exec (.deliveryArrival d c.no) s = .next (fail 0x50 0x05)) ∧
          ((c.w 2).toNat % 4 = 0 →
            (∀ r, engineRead s g (c.rd ++ c.wr) (c.w 2) (4 * cnt) = .error r →
              exec (.deliveryArrival d c.no) s = .next (fail r.1 r.2)) ∧
            ∀ l, engineRead s g (c.rd ++ c.wr) (c.w 2) (4 * cnt) = .ok l →
              ∃ t, exec (.deliveryArrival d c.no) s = .next t ∧
                Delivered (s.deposit d slot (c.w 3)
                  ((List.range cnt).map fun i => leNat ((l.drop (4 * i)).take 4))) d c 0 (bitsOf (c.w 4) 39 0) true t))) ∧
      (kind = 3 → c.delivered = [] →
        let step (l : List (Word × List Byte)) (c1 : Card) (done : Bool) : Prop :=
          (∀ s1, writeInOrder g c s l = (s1, none) →
            (done = false → exec (.deliveryArrival d c.no) s = .next (withCard s1 d c1)) ∧
            (done = true → ∃ t, exec (.deliveryArrival d c.no) s = .next t ∧ Delivered s1 d c1 0 (bitsOf (c.w 4) 39 0) true t)) ∧
          ∀ s1 r, writeInOrder g c s l = (s1, some r) → exec (.deliveryArrival d c.no) s = .next (failedIn s1 r.1 r.2)
        let context := (pictureW c.data 4, (Config.codecContext c.unit).take (pictureW c.data 5).toNat)
        ((c.w 4).getLsbD 61 = false →
          let last := Config.codecShows c.unit = false ∨ pictureHeight c.data ≤ c.rows
          let corrupt := ∃ k, Config.codecCorrupt c.unit = some k ∧ (k ≤ c.rows ∨ last)
          (corrupt → spoils (.deliveryArrival d c.no) c.data) ∧
          (¬corrupt → last → step [context] c true) ∧
          (¬corrupt → ¬last → step (pictureRows c c.rows) { c with rows := c.rows + 2 } false)) ∧
        ((c.w 4).getLsbD 61 = true →
          let l := Config.codecStream c.unit
          (bitsOf (c.w 4) 39 0 < l.length → spoils (.deliveryArrival d c.no) c.data) ∧
          (l.length ≤ bitsOf (c.w 4) 39 0 → step [(c.w 2, l), context, (c.w 3 + 56, leBytes 8 l.length)] c true)))) ∧
    (s.card d c.no = some c →
      (c.state = .worked → c.cause ≠ 0 → Ends s d c c.cause c.sub (exec (.engineJobComplete d c.no) s)) ∧
      (c.state ≠ .done → c.state ≠ .followOn → c.cause = 0 → c.cancelled = true →
        Ends s d c 0x70 0 (exec (.engineJobComplete d c.no) s)) ∧
      (c.state = .worked → c.cause = 0 → c.cancelled = false →
        let bar := (s.dieOf d).db[c.drawbar]
        let hw : BitVec 48 := (c.w 6).truncate 48 + BitVec.ofNat 48 (pictureWidth c.data * c.rows)
        let seq := (c.w 6).extractLsb' 48 16
        let back := c.publishes = true ∧ c.replayed = false ∧ bar.seq = seq ∧ hw < bar.hw
        let published := if c.publishes = true ∧ ¬(c.replayed = true ∧ bar.seq = seq ∧ hw ≤ bar.hw) then
            s.setDie d { s.dieOf d with db := (s.dieOf d).db.set c.drawbar { hw := hw, seq := seq } }
          else s
        (c.follows = false → back → Ends s d c 0x50 0x41 (exec (.engineJobComplete d c.no) s)) ∧
        (c.follows = false → ¬back → Ends published d c 0 0 (exec (.engineJobComplete d c.no) s)) ∧
        (c.follows = true → ¬back → (s.cellOf d c.followCell).anvil.length < 16 →
          exec (.engineJobComplete d c.no) s = .next (((published.setCell d c.followCell
            { published.cellOf d c.followCell with anvil := (s.cellOf d c.followCell).anvil ++ [.followOn c.no] }).setDie d
            { published.dieOf d with
              cards := (s.dieOf d).cards.map fun z => if z.no = c.no then { c with state := .followOn } else z })))) ∧
      (c.state = .running →
        let late := s.waitUntil d c.start (BitVec.ofNat 64 (bitsOf (c.w 1) 47 0))
        ((c.w 0).getLsbD 59 = true → c.replayed = false →
          exec (.watchdogExpiry d c.no) s =
            .next (withCard late d { c with state := .queued, replayed := true, data := [], delivered := [] })) ∧
        ((c.w 0).getLsbD 59 = false ∨ c.replayed = true →
          (c.group = none → exec (.watchdogExpiry d c.no) s = .next (failedIn late 0x51 0)) ∧
          (c.group.isSome = true → exec (.watchdogExpiry d c.no) s = .next (late.failMember d c (0x51, 0))))))

/-- 20 R391 to R394, R398, R400: a decoding engine publishes the rows it has written, where some are not yet
published. A member of a collective receives
the messages of its group in the order sent. A hop of its tag starts its watchdog again: a piece goes to its staging and
on; a partial sum of the ring, with its own elements added, to its staging and on, as a piece where it is final; in the
tree a child's sum is held until the other's has come, then RNE(RNE(own + left) + right) goes up. The commit, made by rank
0 once it has received every hop, copies staging to OUT, counts REV up and goes on; an abort ends the member with subcode
0x30 and a new attempt, and goes on. Chunk k holds the elements e with floor(e NMEM / E) = k. Messages of another tag are
dropped. How members' messages run within the module, which hops rank 0 expects, and that a broadcast along the tree comes
back up to it (13 R271), are the model's (log 43). -/
def Obligations.CodecRowsAndCollectives : Prop :=
  (∀ (s : State) (d : DieNo) (c : Card), s.card d c.no = some c → c.cancelled = false →
    let g := c.agent d
    let publishing := c.kind = 3 ∧ (c.w 4).getLsbD 61 = false ∧ c.publishes = true ∧ c.cause = 0 ∧
      (c.state = .running ∨ c.state = .worked)
    (publishing → c.published < c.rows → c.replayed = false →
      let bar := (s.dieOf d).db[c.drawbar]
      let hw : BitVec 48 := (c.w 6).truncate 48 + BitVec.ofNat 48 (pictureWidth c.data * c.rows)
      let seq := (c.w 6).extractLsb' 48 16
      exec (.codecRowPublish d c.no c.rows) s =
        .next (if bar.seq = seq ∧ hw < bar.hw then withCard s d { c with state := .worked, cause := 0x50, sub := 0x41 }
          else withCard (s.setDie d { s.dieOf d with db := (s.dieOf d).db.set c.drawbar { hw := hw, seq := seq } }) d
            { c with published := c.rows })) ∧
    (∀ rows, ¬(publishing ∧ c.published < c.rows ∧ rows = c.rows) → exec (.codecRowPublish d c.no rows) s = .next s) ∧
    ∀ q : Group, c.group = some q →
      (c.state ≠ .running → ∀ hop tag, ∀ i ∈ [Instr.collectiveHop d c.no hop, .collectiveCommit d c.no tag,
        .collectiveAbort d c.no tag], exec i s = .next s) ∧
      (∀ r : Refused,
        let s1 := s.sendAll d q ((q.neighbours c).map fun n => (n, .abort q.tag))
        let ends (t : State) : State := withCard t d { c with state := .worked, cause := r.1, sub := r.2 }
        let word := leBytes 4 q.tag.rev.toNat ++ leBytes 4 (q.tag.att + 1).toNat
        (∀ s2, engineWrite s1 g c.wr (c.w 5 + 8) word = .ok s2 → s.failMember d c r = ends s2) ∧
        ∀ e, engineWrite s1 g c.wr (c.w 5 + 8) word = .error e → s.failMember d c r = ends s1) ∧
      (c.state = .running →
        (∀ (hop : Hop), (∀ s1, ¬Receives s d q (.hop hop) s1) → exec (.collectiveHop d c.no hop) s = .next s) ∧
        (∀ (hop : Hop) s1, Receives s d q (.hop hop) s1 → hop.tag ≠ q.tag → exec (.collectiveHop d c.no hop) s = .next s1) ∧
        (∀ (hop : Hop) s1, Receives s d q (.hop hop) s1 → hop.tag = q.tag → hop.bytes.length ≤ 48 →
          let n := hop.bytes.length
          let got (t : State) (q1 : Group) : State :=
            withCard t d { c with group := some { q1 with received := q.received + n }, start := (t.dieOf d).cyc }
          let staged (l : List Byte) := engineWrite s1 g c.wr (q.staging + BitVec.ofNat 64 hop.offset) l
          let own := engineRead s1 g (c.rd ++ c.wr) (c.w 2 + BitVec.ofNat 64 hop.offset) n
          let up (l : List Byte) : List (Nat × MemberMsg) := if q.rank = 0 then []
            else q.hopsTo (if q.rank % 2 = 1 then .leftSum else .rightSum) hop.offset l ((q.rank - 1) / 2)
          (c.op = 3 → c.tree = true → hop.offset % c.elemBytes = 0 → n % c.elemBytes = 0 → hop.offset + n ≤ c.bytes →
            hop.kind = .leftSum → q.left = true → q.sums = [] →
              (q.right = false → exec (.collectiveHop d c.no hop) s = .next ((got s1 q).sendAll d q (up hop.bytes))) ∧
              (q.right = true → exec (.collectiveHop d c.no hop) s =
                .next (got s1 { q with sums := [(true, hop.offset, hop.bytes)] }))) ∧
          (hop.kind = .piece → c.op ≠ 1 → hop.offset + n ≤ (if c.op = 2 then q.nmem * c.bytes else c.bytes) →
            (∀ s2, staged hop.bytes = .ok s2 → exec (.collectiveHop d c.no hop) s = .next ((got s2 q).sendAll d q
              ((q.onward c (q.owner c hop.offset)).flatMap (q.hopsTo .piece hop.offset hop.bytes) ++
                if c.tree = true ∧ c.op = 3 ∧ q.left = false then up hop.bytes else []))) ∧
            ∀ r, staged hop.bytes = .error r → exec (.collectiveHop d c.no hop) s = .next (s1.failMember d c r)) ∧
          (c.op = 0 → bitsOf (c.w 4) 59 56 = 0 → hop.offset % 4 = 0 → n % 4 = 0 → hop.offset + n ≤ c.bytes →
            (hop.kind = .ringSum → c.tree = false → ∀ l s2, own = .ok l → staged (sums32 hop.bytes l) = .ok s2 →
              exec (.collectiveHop d c.no hop) s = .next ((got s2 q).sendAll d q
                (q.hopsTo (if q.owner c hop.offset = q.rank then .piece else .ringSum) hop.offset (sums32 hop.bytes l) q.after))) ∧
            (hop.kind = .leftSum → c.tree = true → q.left = true → q.right = true → q.sums = [] →
              exec (.collectiveHop d c.no hop) s = .next (got s1 { q with sums := [(true, hop.offset, hop.bytes)] })) ∧
            (hop.kind = .leftSum → c.tree = true → q.left = true → q.right = true → q.rank ≠ 0 →
              ∀ r l s2, q.sums = [(false, hop.offset, r)] → r.length = n → own = .ok l →
                staged (sums32 (sums32 l hop.bytes) r) = .ok s2 →
                exec (.collectiveHop d c.no hop) s = .next ((got s2 { q with sums := [] }).sendAll d q
                  (up (sums32 (sums32 l hop.bytes) r)))))) ∧
        (∀ tag s1, (if q.rank = 0 then tag = q.tag ∧ q.received = q.expected c ∧ s1 = s
            else Receives s d q (.commit tag) s1) →
          (tag ≠ q.tag → exec (.collectiveCommit d c.no tag) s = .next s1) ∧
          (tag = q.tag → (c.w 4).getLsbD 54 = false → ∀ l s2 s3,
            engineRead s1 g (c.rd ++ c.wr) q.staging (c.outputBytes q.nmem) = .ok l →
            engineWrite s1 g c.wr (c.w 3) l = .ok s2 →
            engineWrite s2 g c.wr (c.w 5 + 8) (leBytes 4 (q.tag.rev + 1).toNat ++ leBytes 4 q.tag.att.toNat) = .ok s3 →
            ∃ t, exec (.collectiveCommit d c.no tag) s = .next t ∧
              Delivered (s3.sendAll d q ((if c.tree then q.children else if q.after = 0 then [] else [q.after]).map
                fun k => (k, .commit q.tag))) d c 0 (c.outputBytes q.nmem) true t)) ∧
        (∀ tag, q.rank = 0 → q.received ≠ q.expected c → exec (.collectiveCommit d c.no tag) s = .next s) ∧
        ∀ tag s1, Receives s d q (.abort tag) s1 →
          (tag ≠ q.tag → exec (.collectiveAbort d c.no tag) s = .next s1) ∧
          (tag = q.tag → exec (.collectiveAbort d c.no tag) s = .next (s1.failMember d c (0x50, 0x30))))) ∧
  (∀ (s : State) (d : DieNo) (q : Group) (k : Nat) (m : MemberMsg),
    let w : Word := q.members.getD k 0
    w.truncate 19 = s.record.nodeid →
      s.sendMember d q (k, m) =
        { s with transit := s.transit ++ [{ die := Fin.ofNat 4 (bitsOf w 21 20), rank := k, msg := m }] }) ∧
  ∀ (q : Group) (c : Card) (k e : Nat), 0 < q.nmem → c.bytes % c.elemBytes = 0 → e < c.bytes / c.elemBytes →
    (e * q.nmem / (c.bytes / c.elemBytes) = k ↔
      q.chunkStart c k ≤ e * c.elemBytes ∧ e * c.elemBytes < q.chunkStart c (k + 1))

/-! ## The temper unit -/

/-- 08 R189; 19 R376 to R378; 20 R385, R387, R388: tm.open fills a slot from its descriptor; tm.put stages values and
adds their squares; tm.mark fixes a contributor's scale and hands it over; tm.commit closes the slot and waits for
what is handed over; tm.poll reads a status word; tm.abort ends the slot; each checks the slot first. 08 R189, 20
R385, R388: phase two adds the next contributor's staged elements, scaled, into the total, in ascending order; a
closing slot with nothing left is then committed, and MISS names the contributors without a marker. 20 R388, R389: a
tm.commit that waits goes on once its round, or a later one of the slot, has been committed; an abort first adds the
contributor that phase two has taken up. The model's choices: phase two takes the bytes as they stand, marked or not (log
37); it takes a contributor up once the hart of its marker has gone on from there, past the bar that follows (19 R381;
log 84); and tm.poll 3 gives MISS as it was stored at the commit, 0 before (log 86). -/
def Obligations.MergeSlots : Prop :=
  (∀ (s : State) (a b d : SReg) (n : Fin 16) (x y : Word), s.hart.Gives a x → s.hart.Gives b y → s.hart.NoVectorMemory →
    let m := (s.dieOf s.hart.die).slots[n]
    let answers (i : Instr) (m1 : MergeSlot) : Prop := exec i s = .next ((withSlot s n m1).onlyHart Hart.advance)
    (∀ v s1 neg k e (pa : Word → Nat), loadValue s x 64 = .ok (v, s1) →
      let w := blockWord (BitVec.ofNat 512 v)
      let ncon := bitsOf (w 0) 23 16
      let nelem := bitsOf (w 2) 20 0
      let g := (4 * nelem + 63) / 64 * 64
      let mapped (base : Word) (len : Nat) (near : Bool) : Prop := ∀ r ∈ pagesOf base len, ∃ p,
        translate s1 s.hart.agent .both r.1 = .ok p ∧ p.pa = pa r.1 ∧
          (∀ z, regionOf s1 (leafAddr p.leaf r.1) ≠ .localStore z) ∧
          (near = true → regionFar (regionOf s1 (leafAddr p.leaf r.1)) = false)
      let pages (base : Word) (len : Nat) : List (Nat × Nat) :=
        (pagesOf base len).map fun r => (r.1.toNat / 4096, pa r.1 - r.1.toNat % 4096)
      bitsOf (w 0) 31 24 = 0 → bitsOf (w 0) 15 1 = 0 → bitsOf (w 1) 63 32 = 0 → bitsOf (w 2) 63 21 = 0 →
      w 5 = 0 → w 6 = 0 → w 7 = 0 → 1 ≤ ncon → ncon ≤ 64 → 1 ≤ nelem → nelem ≤ 2 ^ 20 →
      unpack fmtF32 (bitsOf (w 1) 31 0) = .fin neg k e → k = 0 ∨ neg = false →
      (w 3).toNat % 64 = 0 → (w 4).toNat % 64 = 0 → mapped (w 3) (4 * nelem) false → mapped (w 4) (ncon * g) true →
      (s1.mergeSlot s.hart.die n).state ≠ .opened → s1.hart.agent = s.hart.agent → s1.hart.job = s.hart.job →
      ∃ t m1, exec (.tmOpen a n) s = .next ((withSlot t n m1).onlyHart Hart.advance) ∧
        OnlyHartAndCaches s1 t id ∧ m1.state = .opened ∧ m1.closing = false ∧ m1.job = s.hart.job ∧ m1.ncon = ncon ∧
        m1.nelem = nelem ∧ m1.round.toNat = bitsOf (w 0) 63 32 ∧ m1.arrival = (w 0).getLsbD 0 ∧ m1.total = w 3 ∧
        m1.limit.toNat = (if k = 0 then 0 else bitsOf (w 1) 31 0) ∧
        m1.stage = w 4 ∧ m1.totalMap = pages (w 3) (4 * nelem) ∧ m1.stageMap = pages (w 4) (ncon * g) ∧ m1.nmark = 0 ∧
        m1.cmt = 0 ∧ m1.rej = 0 ∧ m1.miss = 0 ∧ m1.next = 0 ∧ m1.pending = [] ∧ (∀ c : Fin 64, m1.contributors[c] = {})) ∧
    (m.state = .opened → m.closing = false → m.job = s.hart.job →
      (∀ pa : Nat → Nat,
        let con := bitsOf y 61 56
        let off := bitsOf y 52 32
        let cnt := bitsOf y 20 0
        let vals := (List.range cnt).map fun i => s.mem.readLe (pa i) 4
        let c := m.con con
        bitsOf y 63 62 = 0 → bitsOf y 55 53 = 0 → bitsOf y 31 21 = 0 → con < m.ncon → 0 < cnt → off + cnt ≤ m.nelem →
        c.marked = false → c.dcnt + cnt ≤ m.nelem → x.toNat % 4 = 0 →
        (∀ i < cnt, ∃ p, ownPlace s s.hart.agent .read (x + BitVec.ofNat 64 (4 * i)) 4 = .ok p ∧ p.pa = pa i ∧
          meetsBuffer s.hart.buffer (pa i) 4 = false ∧ readFault s (pa i) 4 = none) →
        ∃ u, exec (.tmPut a b n) s = .next u ∧ u.hart = s.hart.advance ∧
          u.mem = s.mem.writeAll ((List.range cnt).flatMap fun i =>
            placeBytes (placeIn m.stageMap (m.stage + BitVec.ofNat 64 (con * ((m.nelem * 4 + 63) / 64 * 64) + 4 * (off + i))))
              (leBytes 4 (s.mem.readLe (pa i) 4))) ∧
          (u.dieOf s.hart.die).slots = (s.dieOf s.hart.die).slots.set n { m with
            contributors := m.contributors.setIfInBounds con { c with
              dcnt := c.dcnt + cnt
              bad := c.bad || vals.any fun v => match unpack fmtF32 v with | .fin .. => false | _ => true
              sq := vals.foldl (fun q v => match unpack fmtF32 v with
                | .fin g k e => BitVec.ofNat 64 (roundF fmtF64 .rne (exactSum .rne
                    [unpack fmtF64 q.toNat, (mulX (.fin g k e) (.fin g k e)).1]).1).1
                | _ => q) c.sq } }) ∧
      (let con := bitsOf x 61 56
       let c := m.con con
       bitsOf x 63 62 = 0 → bitsOf x 55 32 = 0 → con < m.ncon → m.ncon ≤ 64 → bitsOf x 31 0 = m.round.toNat →
       c.marked = false → m.nelem ≤ c.dcnt → m.next ≤ m.ncon →
       let m1 : MergeSlot := { m with
         contributors := m.contributors.setIfInBounds con
           { c with
             marked := true, marker := some (s.hart.hid, s.hart.pc + 4)
             sc := if c.bad then c.sc else mergeScale m.limit c.sq }
         nmark := m.nmark + 1
         rej := if c.bad then m.rej ||| (1#64 <<< con) else m.rej }
       (m.arrival = true →
         answers (.tmMark a n) { m1 with pending := if c.bad then m.pending else m.pending ++ [con] }) ∧
       (m.arrival = false → ∃ m2, HandedOver m1 m2 ∧ answers (.tmMark a n) m2)) ∧
      (s.hart.status = .running → s.hart.cancel = false → s.hart.mark = .none → m.next ≤ m.ncon → m.ncon ≤ 64 →
        ∃ m2, (if m.arrival then m2 = { m with closing := true } else HandedOver { m with closing := true } m2) ∧
          (m2.pending = [] → answers (.tmCommit n) { m2 with state := .committed, miss := m2.unmarked, commits := m.opens }) ∧
          (m2.pending ≠ [] → exec (.tmCommit n) s =
            .next ((withSlot s n m2).onlyHart fun h => { h with status := .waiting, mark := .committed n m.opens }))) ∧
      (m.pending = [] → answers (.tmAbort n) { m with state := .aborted })) ∧
    (∀ k, s.hart.mark = .committed n k →
      let ended := k ≤ m.commits ∧ ¬(m.state = .opened ∧ m.opens = k)
      (ended → s.hart.status = .running →
        exec (.tmCommit n) s = .next (s.onlyHart fun h => { h with mark := .none, pc := h.pc + 4 })) ∧
      (¬ended → s.hart.status = .waiting → s.hart.cancel = false → exec (.tmCommit n) s = .next s)) ∧
    (s.hart.Full d → y.toNat < 4 →
      ∃ w, exec (.tmPoll d b n) s = .next (s.onlyHart fun h => (h.setS d w).advance) ∧
        (y = 0 → m.ncon ≤ 64 → m.nmark ≤ 64 → bitsOf w 31 0 = m.round.toNat ∧ bitsOf w 39 32 = m.nmark ∧
          bitsOf w 47 40 = m.ncon ∧ bitsOf w 61 48 = 0 ∧
          bitsOf w 63 62 = (match m.state with | .idle => 0 | .opened => 1 | .committed => 2 | .aborted => 3)) ∧
        (y = 1 → w = m.cmt) ∧ (y = 2 → w = m.rej) ∧
        (y = 3 → w = m.miss)) ∧
    (m.ncon ≤ 64 → ∀ c < 64, m.unmarked.getLsbD c = (decide (c < m.ncon) && !(m.con c).marked)) ∧
    (m.state ≠ .opened ∨ m.closing = true ∨ m.job ≠ s.hart.job → s.hart.mark = .none →
      let sub : BitVec 8 := if m.state ≠ .opened ∨ m.closing = true then 0x20 else 0x22
      ∀ p ∈ [(Instr.tmPut a b n, y), (.tmMark a n, x), (.tmCommit n, 0), (.tmAbort n, 0)],
        HandlerReady s { cause := 0x50, sub := sub, addr := p.2 } →
        ∃ u, exec p.1 s = .next u ∧ Trapped s { cause := 0x50, sub := sub, addr := p.2 } u)) ∧
  ∀ (s : State) (d : DieNo) (n : Fin 16) (m : MergeSlot) (c : Nat) (rest : List Nat),
    (s.dieOf d).slots[n] = m → m.state = .opened → m.pending = c :: rest →
    let stride := (m.nelem * 4 + 63) / 64 * 64
    let staged (i : Nat) : Nat := placeIn m.stageMap (m.stage + BitVec.ofNat 64 (c * stride + 4 * i))
    let total (i : Nat) : Nat := placeIn m.totalMap (m.total + BitVec.ofNat 64 (4 * i))
    let mul (x y : Nat) : Nat := (roundF fmtF32 .rne (mulX (unpack fmtF32 x) (unpack fmtF32 y)).1).1
    let add (x y : Nat) : Nat := (roundF fmtF32 .rne (exactSum .rne [unpack fmtF32 x, unpack fmtF32 y]).1).1
    let sums := (List.range m.nelem).foldl (fun mem i => mem.writeAll (placeBytes (total i)
      (leBytes 4 (add (mem.readLe (total i) 4) (mul (mem.readLe (staged i) 4) (m.con c).sc.toNat))))) s.mem
    let behind := m.closing = false ∧ ∃ h ∈ s.allHarts ++ savedHarts s, (m.con c).marker = some (h.hid, h.pc) ∧
      (h.status = .waiting → ∃ g, h.mark = .arrived g)
    (behind → exec (.temperPhaseTwo d n) s = .next s) ∧
    (¬behind → ∃ t, exec (.temperPhaseTwo d n) s = .next t ∧ t.mem = sums ∧
      (t.dieOf d).slots = (s.dieOf d).slots.set n { m with
        pending := rest
        cmt := m.cmt ||| (1#64 <<< c)
        state := if m.closing = true ∧ rest = [] then .committed else .opened
        commits := if m.closing = true ∧ rest = [] then m.opens else m.commits
        miss := if m.closing = true ∧ rest = [] then m.unmarked else m.miss } ∧
      t.hart = s.hart ∧ t.cells = s.cells) ∧
    (d = s.hart.die → m.closing = false → m.job = s.hart.job → s.hart.NoVectorMemory →
      ∃ t, exec (.tmAbort n) s = .next t ∧ t.mem = sums ∧ t.hart = s.hart.advance ∧ t.cells = s.cells ∧
        (t.dieOf d).slots = (s.dieOf d).slots.set n
          { m with pending := [], cmt := m.cmt ||| (1#64 <<< c), state := .aborted })

/-! ## Tasks -/

/-- 15 R291, R292, R308, R309, R311, R312: spawn and spawn.x to the own node queue the record that stands at s[sa] in
the target's cell, or wait while its queue is full; spawn.x to another node charges the job and sends a packet. A
record that R291 refuses traps; one that waits for room goes on with the record it has read. What a queue's cache does
not hold stands in its ring in near memory (15 R292; its place and the order within it are the model's, log 13). 15
R306, R307, R313: join takes one from COUNT, or sets UNDR when it is 0; when COUNT reaches 0 with neither CANC nor FAIL,
the continuation is queued in the hart's cell and partition, also where the queue is full (model, log 53). wait.j passes
once COUNT is 0. The order of the target's checks, the cell that ANY chooses, and that join neither quenches nor
snapshots are the model's (log 35), and so is the form of the packet (log 43). -/
def Obligations.SpawnAndJoin : Prop :=
  (∀ (s s1 : State) (a b : SReg) (va w : Word) (x : Nat), s.hart.Gives a va → s.hart.Gives b w → s.hart.NoVectorMemory →
    s.hart.status = .running → s.hart.mark = .none → s.hart.cancel = false → loadValue s va 64 = .ok (x, s1) →
    s1.hart = s.hart →
    let r : Block := BitVec.ofNat 512 x
    let queues (i : Instr) (d : DieNo) (c : CellNo) (part : Option (BitVec 5)) : Prop :=
      recCheck r s.hart.priv.cur = none →
      (HasRoom s1 d c s.hart.job r → exec i s = .next ((Queued s1 d c s.hart.job part r).onlyHart Hart.advance)) ∧
      (¬HasRoom s1 d c s.hart.job r →
        exec i s = .next (s1.onlyHart fun h => { h with status := .waiting, mark := .spawning r d c part }))
    let refused (i : Instr) : Prop := ∀ c, recCheck r s.hart.priv.cur = some c → HandlerReady s1 { cause := c, addr := va } →
      ∃ u, exec i s = .next u ∧ Trapped s1 { cause := c, addr := va } u
    (w = 0 → queues (.spawn a b) s.hart.die s.hart.cell (some s.hart.part) ∧ refused (.spawn a b)) ∧
    (bitsOf w 63 16 = 0 → w.getLsbD 15 = true → bitsOf w 14 10 = 0 → bitsOf w 7 6 = 0 → bitsOf w 5 0 < 48 →
      queues (.spawn a b) (Fin.ofNat 4 (bitsOf w 9 8)) (Fin.ofNat 48 (bitsOf w 5 0)) none) ∧
    (bitsOf w 63 32 = 0 → w.getLsbD 30 = false → bitsOf w 23 22 = 0 → w.getLsbD 19 = false →
      (w.truncate 19 = s.record.nodeid → s1.record.nodeid = s.record.nodeid →
        (w.getLsbD 31 = true → queues (.spawnX a b) s.hart.die s.hart.cell none) ∧
        (w.getLsbD 31 = false → bitsOf w 29 24 < 48 →
          queues (.spawnX a b) (Fin.ofNat 4 (bitsOf w 21 20)) (Fin.ofNat 48 (bitsOf w 29 24)) none)) ∧
      (w.truncate 19 ≠ s.record.nodeid → refused (.spawnX a b) ∧
        (recCheck r s.hart.priv.cur = none → ∀ j, s1.findJob s.hart.job = some j →
          let packet : SpawnPacket :=
            { srcNode := s.record.nodeid, number := s.nextPacket, job := s.hart.job, any := w.getLsbD 31,
              die := Fin.ofNat 4 (bitsOf w 21 20), cell := BitVec.ofNat 6 (bitsOf w 29 24), record := r }
          let flying : InFlight :=
            { number := s.nextPacket, src := s.hart.die, start := (s.dieOf s.hart.die).cyc, job := s.hart.job,
              node := w.truncate 19, packet := packet }
          let charged : State :=
            { s1 with jobs := s1.jobs.map fun (z : Job) => if z.job = j.job then { j with count := j.count + 1 } else z }
          ∃ s2, s2 = charged.sendPacket flying ∧ s2.inFlight = s1.inFlight ∧ s2.hart = s1.hart ∧ s2.mem = s1.mem ∧
            exec (.spawnX a b) s = .next { s2 with
              inFlight := s1.inFlight ++ [flying]
              nextPacket := s.nextPacket + 1
              hart := s1.hart.advance })))) ∧
  (∀ (s : State) (a b : SReg) (r : Block) (d : DieNo) (c : CellNo) (part : Option (BitVec 5)),
    s.hart.mark = .spawning r d c part → s.hart.cancel = false →
    ∀ i ∈ [Instr.spawn a b, .spawnX a b],
      (HasRoom s d c s.hart.job r → exec i s = .next ((Queued s.wake d c s.hart.job part r).onlyHart Hart.advance)) ∧
      (¬HasRoom s d c s.hart.job r → s.hart.status = .waiting → exec i s = .next s)) ∧
  (∀ (s : State) (d : DieNo) (c : CellNo) (p : Fin 16) (l : List QEntry),
    let u := withQueue s d c p l
    let ring := (s.cellOf d c).taskRing + 0x40000 * p.val
    (∀ a, a < ring ∨ ring + 64 * (l.length - 8) ≤ a → u.mem.read a = s.mem.read a) ∧
    ∀ (j : Nat) (h : 8 + j < l.length),
      u.mem.readLe (ring + 64 * j) 64 = (match l[8 + j] with
        | .task r => r.block
        | .resume g => Config.resumeImage g.qid).toNat) ∧
  ∀ (s : State) (a : SReg) (va : Word) (p : Place), s.hart.Gives a va → s.hart.NoVectorMemory → va.toNat % 16 = 0 →
    (ownPlace s s.hart.agent .both va 8 = .ok p → readFault s p.pa 8 = none →
      let old : Word := BitVec.ofNat 64 (s.mem.readLe p.pa 8)
      let cont : Word := BitVec.ofNat 64 (s.mem.readLe (p.pa + 8) 8)
      let s1 (w : Word) : State := (tlbFill s s.hart.agent va p.leaf).storeLe p.pa 8 w.toNat
      (bitsOf old 47 0 = 0 → exec (.join a) s = .next ((s1 (old ||| 2 ^ 61)).onlyHart Hart.advance)) ∧
      (0 < bitsOf old 47 0 → 1 < bitsOf old 47 0 ∨ bitsOf old 63 62 ≠ 0 ∨ cont = 0 →
        exec (.join a) s = .next ((s1 (old - 1)).onlyHart Hart.advance)) ∧
      (bitsOf old 47 0 = 1 → bitsOf old 63 62 = 0 → cont ≠ 0 →
        (∀ b s2, readRecord (s1 (old - 1)) s.hart.agent cont s.hart.priv.cur = .ok (b, s2) →
          exec (.join a) s =
            .next ((Queued s2 s.hart.die s.hart.cell s.hart.job (some s.hart.part) b).onlyHart Hart.advance)) ∧
        ∀ c, readRecord (s1 (old - 1)) s.hart.agent cont s.hart.priv.cur = .error c →
          exec (.join a) s = .next ((((s1 (old - 1)).storeLe p.pa 8 ((old - 1) ||| 2 ^ 60).toNat).send
            (s.linkOf s.hart.job) (.joinError s.hart.job va c false)).onlyHart Hart.advance))) ∧
    ∀ x s1, loadValue s va 8 = .ok (x, s1) → s1.hart = s.hart → s.hart.status = .running → s.hart.mark = .none →
      s.hart.cancel = false →
      (x % 2 ^ 48 = 0 → exec (.waitJ a) s = .next (s1.onlyHart Hart.advance)) ∧
      (x % 2 ^ 48 ≠ 0 → exec (.waitJ a) s = .next (s1.onlyHart fun h => { h with status := .waiting }))

/-- 15 R304, R305, R314; 02 R49: fork.l gives a child the higher half of the carriages, quenches and clears the vector
state, or, without two carriages, a core and a slot, clears c6; join.l brings the child's carriages back; yield gives
up the core only where an entry of its own priority or above, of its partition, could be dispatched but for what the
hart holds, its core being that entry's whatever other hart is runnable, and stands then at the tail of the queue of its task (its image in the save area: model, logs 13 and 17);
prio and coach. -/
def Obligations.ForkJoinYield : Prop :=
  ∀ (s : State) (a d : SReg) (pc : Word), s.hart.Gives a pc → s.hart.Full d → s.hart.vq = [] → s.hart.OutputsDone →
    let l := carriages s.hart.grant
    let slots := (s.allHarts.filter fun h => h.status != .free && h.die == s.hart.die && h.cell == s.hart.cell).map (·.slot)
    let settled (h : Hart) : Hart := { h with nextPend := false, budget := none }
    let calm := s.hart.nextPend = false ∨ s.hart.nextCarr = s.hart.grant
    (pc.toNat % 4 = 0 → calm →
      (l.length < 2 ∨ s.coreFree s.hart.die s.hart.cell = false ∨ (∀ k : SlotNo, k ∈ slots) →
        exec (.forkL a d) s = .next (s.onlyHart fun h =>
          { settled h with cbit := (h.cbit.set 7 false).set 6 false, pc := h.pc + 4 })) ∧
      ∀ (k : SlotNo) s1, 2 ≤ l.length → s.coreFree s.hart.die s.hart.cell = true → k ∉ slots → (∀ j < k, j ∈ slots) →
        quenchNow (s.onlyHart settled) true = .ok s1 →
        ∃ child : Hart,
          let parent := emptied s1.hart
          let keep := l.length - l.length / 2
          exec (.forkL a d) s = .next { s1 with
            hart := { parent.setS d (BitVec.ofNat 64 k.val) with
              cbit := (parent.cbit.set 6 true).set 7 true
              pc := s1.hart.pc + 4
              grant := (l.take keep).foldl (fun g c => g ||| (1#32 <<< c)) 0
              vl := 0
              children := s1.hart.children ++ [{ hid := s1.nextHid }] }
            harts := s1.harts ++ [child]
            nextHid := s1.nextHid + 1
            nextOrder := s1.nextOrder + 1 } ∧
          child.hid = s1.nextHid ∧ child.parent = some parent.hid ∧ child.task = parent.task ∧ child.status = .running ∧
          child.die = parent.die ∧ child.cell = parent.cell ∧ child.slot = k ∧ child.pc = pc ∧
          child.grant = (l.drop keep).foldl (fun g c => g ||| (1#32 <<< c)) 0 ∧
          (∀ r : SReg, r ≠ d → child.sreg[r] = parent.sreg[r]) ∧ (d ≠ 0 → child.sreg[d] = BitVec.allOnes 64) ∧
          child.cbit = (parent.cbit.set 6 true).set 7 true ∧ child.msel = parent.msel ∧ child.vstr = parent.vstr ∧
          child.vew = parent.vew ∧ child.frm = parent.frm ∧ child.tgrp = parent.tgrp ∧ child.tctl = parent.tctl ∧
          child.actl = parent.actl ∧ child.prio = parent.prio ∧ child.job = parent.job ∧ child.stripmax = parent.stripmax ∧
          child.trap = { tvec := parent.trap.tvec } ∧ child.priv = parent.priv ∧ child.gatebase = parent.gatebase ∧
          child.asid = parent.asid ∧ child.part = parent.part ∧ child.hctl = parent.hctl &&& 1 ∧ child.vl = 0 ∧
          child.fflags = 0 ∧ child.vq = [] ∧ child.buffer = [] ∧ child.children = [] ∧ (∀ r : VReg, child.vreg[r] = 0)) ∧
    (s.hart.parent = none →
      (s.hart.children = [] →
        exec .joinL s = .next (s.onlyHart fun h => { h with cbit := h.cbit.set 6 false, pc := h.pc + 4 })) ∧
      ∀ rest c, s.hart.children = rest ++ [c] → s.hart.status = .running → s.hart.mark = .none → s.hart.cancel = false →
        (c.ended = none → exec .joinL s = .next (s.onlyHart fun h => { h with status := .waiting })) ∧
        ∀ g s1, c.ended = some g → calm → quenchNow (s.onlyHart settled) true = .ok s1 →
          exec .joinL s = .next { s1 with
            hart := { emptied s1.hart with
              cbit := ((emptied s1.hart).cbit.set 6 true).set 7 true
              pc := s1.hart.pc + 4
              grant := s1.hart.grant ||| g
              vl := 0
              children := rest } }) ∧
    (let s1 := s.onlyHart fun h => { h with cbit := h.cbit.set 6 false, pc := h.pc + 4 }
     let without : State := { s with
       hart := { s.hart with status := .waiting, grant := 0, nextPend := false, children := [] }
       harts := s.harts.map fun g =>
         if g.status = .runnable ∧ g.die = s.hart.die ∧ g.cell = s.hart.cell then { g with status := .waiting } else g }
     (yieldWanted s = true ↔ ∃ p : Fin 16, s.hart.prio.toNat ≤ p.val ∧ ∃ e ∈ (s.cellOf s.hart.die s.hart.cell).queues[p],
       e.part = s.hart.part.toNat ∧ (placeEntry without s.hart.die s.hart.cell false e).isSome = true) ∧
     (yieldWanted s = false → exec .yield s = .next s1) ∧
     (yieldWanted s = true → exec .yield s = .next (s1.saveTask s.hart.task true [s.hart.hid]) ∧
       (s.hart.resident = true → s.hart.cancel = false → LastOfTask s s.hart.task → SaveReady s →
         LeftSaved s1 (s1.saveTask s.hart.task true [s.hart.hid]) true [s.hart.hid]))) ∧
    (∀ v : Word, s.hart.Gives a v → v.toNat < 16 →
      exec (.prio a) s = .next (s.onlyHart fun h =>
        { h with prio := BitVec.ofNat 4 (min v.toNat h.ceil.toNat), pc := h.pc + 4 })) ∧
    ∀ t, s.findTask s.hart.task = some t → t.size ≤ 64 → t.live ≤ 64 →
      ∃ w : Word, exec (.coach d) s = .next (s.onlyHart fun h => (h.setS d w).advance) ∧
        bitsOf w 7 0 = t.size ∧ bitsOf w 15 8 = t.live ∧ bitsOf w 21 16 = s.hart.index.toNat ∧ bitsOf w 63 22 = 0

/-- 02 R50, R52; 15 R293, R294, R296, R301; 16 R332: a cell's scheduler gives a core to a runnable hart, and starts a
queued record of one member where a core, a slot and its carriages are free, with the state of task entry (that the low
bits of the GATEBASE launched have no effect is the model's reading, log 83). When its
strip budget runs out a hart is saved at the head of its task's queue (its image in the save area: model, logs 13 and
17); when its cancel budget does, it is cancelled. The budget's cycles have then passed (model, log 51). -/
def Obligations.SchedulerSteps : Prop :=
  (∀ (s : State) (d : DieNo) (c : CellNo), s.mode ≠ .starting → (s.dieOf d).stopped = false → cellOn s d c = true → s.hart.die = d →
    s.hart.cell = c → s.hart.status = .runnable → s.coreFree d c = true →
    (∀ h ∈ s.harts, h.hid ≠ s.hart.hid ∧ (h.status = .runnable → ¬(h.die = d ∧ h.cell = c))) →
    exec (.taskDispatch d c) s = .next (s.onlyHart fun h => { h with status := .running })) ∧
  (∀ (s : State) (d : DieNo) (c : CellNo) (r : TaskRec) (p : BitVec 4) (j : Job),
    s.mode ≠ .starting → (s.dieOf d).stopped = false → cellOn s d c = true → CellEmpty s d c → s.findJob r.job = some j →
    (∀ q : Fin 16, (s.cellOf d c).queues[q] = if q.val = p.toNat then [.task r] else []) →
    let f := blockWord r.block 3
    let part := match r.part with | some k => k.toNat | none => bitsOf f 36 32
    let free := (List.range 32).filter fun i => partitionOf (s.cellOf d c).start i == part
    bitsOf f 14 8 = 1 → bitsOf f 26 24 = 0 → bitsOf f 23 22 = 0 → partitionExists (s.cellOf d c).start part = true →
    let started : Task :=
      { tid := s.nextTid, job := r.job, level := BitVec.ofNat 2 (bitsOf f 5 4), join := blockWord r.block 2, die := d,
        cell := c, part := BitVec.ofNat 5 part, size := 1, live := 1 }
    ∃ u h, exec (.taskDispatch d c) s = .next u ∧
      Entered h r.block ((free.take (min (bitsOf f 21 16) free.length)).foldl (fun g i => g ||| (1#32 <<< i)) 0) ∧
      h.hid = s.nextHid ∧ h.task = s.nextTid ∧ h.die = d ∧ h.cell = c ∧ h.slot = 0 ∧ h.part.toNat = part % 32 ∧ h.prio = r.prio ∧
      h.ceil = j.ceil ∧ h.job = j.job ∧ h.asid = j.asid ∧ h.gatebase = j.gatebase &&& ~~~0xFFF ∧ h.reservations = [] ∧
      (if s.hart.status = .free then u.hart = h ∧ u.harts = s.harts else u.hart = s.hart ∧ u.harts = s.harts ++ [h]) ∧
      u.tasks = s.tasks ++ [started] ∧
      (∀ q : Fin 16, (u.cellOf d c).queues[q] = []) ∧ u.mem = s.mem) ∧
  ∀ s : State, s.hart.resident = true →
    (∀ start, s.hart.budget = some start → s.hart.cancel = false → LastOfTask s s.hart.task → SaveReady s →
      ∃ u, exec .stripBudgetExpiry s = .next u ∧ LeftSaved s u false []) ∧
    (s.hart.cancel = true →
      exec .cancelBudgetExpiry s =
        .next (s.waitUntil s.hart.die s.hart.cancelAt (s.hart.stripmax.zeroExtend 64)).takeCancel)

/-- 16 R327, R335: a correctable error in register storage is counted; an uncorrectable one marks its place, and the
register keeps its contents, and a report goes to the supervisor queue, but for a lane that an instruction meets as
active, whose fault is the report; in the strip store buffer it marks the entry. That scalar registers too are reported
is the model's reading (log 27). -/
def Obligations.SoftErrors : Prop :=
  ∀ s : State, s.hart.resident = true →
    let x := s.cellOf s.hart.die s.hart.cell
    let reported (u : State) (file reg lane : Nat) : State :=
      u.post s.hart.die s.hart.cell
        (4 * 2 ^ 56 + 0x60 * 2 ^ 48 + s.hart.die.val * 2 ^ 24 + s.hart.cell.val * 2 ^ 16 + s.hart.slot.val) s.hart.job.toNat
        (file * 2 ^ 14 + reg * 2 ^ 8 + lane)
    (∀ p, exec (.registerSoftError p .corrected) s =
      .next (s.setCell s.hart.die s.hart.cell { x with corrected := x.corrected + 1 })) ∧
    (∀ (r : SReg) (kind : SoftErrorKind), r ≠ 0 → kind ≠ .corrected → ∃ u, exec (.registerSoftError (.scalar r) kind) s = .next u ∧
      u.hart = { s.hart with spoison := s.hart.spoison.set r true, evf := u.hart.evf } ∧
      u = reported (s.onlyHart fun h => { h with spoison := h.spoison.set r true }) 0 r.val 0) ∧
    (∀ lane : Fin 256, lane.val < s.hart.lanes →
      let mark (p : BitVec 256) : BitVec 256 := p ||| (1#256 <<< lane.val)
      ∃ k, (carriages s.hart.grant)[lane.val / 8]? = some k ∧
        let marks (p : SoftErrorPlace) (file reg : Nat) (h : Hart) : Prop :=
          exec (.registerSoftError p .met) s = .next (s.onlyHart fun _ => h) ∧
            ∃ u, exec (.registerSoftError p .reported) s = .next u ∧ u.hart = { h with evf := u.hart.evf } ∧
              u = reported (s.onlyHart fun _ => h) file reg (8 * k + lane.val % 8)
        (∀ r : VReg, marks (.vector r lane) 1 r.val
          { s.hart with vpoison := s.hart.vpoison.set r (mark s.hart.vpoison[r]) }) ∧
        (∀ r : TReg, marks (.topology r lane) 2 r.val
          { s.hart with tpoison := s.hart.tpoison.set r (mark s.hart.tpoison[r]) }) ∧
        ∀ r : MReg, marks (.mask r lane) 3 r.val
          { s.hart with mpoison := s.hart.mpoison.set r (mark s.hart.mpoison[r]) }) ∧
    ∀ (i : Fin 8) (y : SSlot) (kind : SoftErrorKind), kind ≠ .corrected → s.hart.buffer[i.val]? = some y →
      exec (.registerSoftError (.storeBuffer i) kind) s =
        .next (s.onlyHart fun h => { h with buffer := h.buffer.set i.val { y with bad := true } })

/-! ## The host -/

/-- 22 R424 to R430: the host's messages. Each is counted; a header against R429 is refused with 0x01. LAUNCH starts a
job and queues its records, or is refused whole, and one not refused waits while a queue of its records has no room;
WINDOW OPEN and CLOSE set a window and are acknowledged, the close after the accesses in flight through the window; SLOT
RELEASE gives back the slot of a hart that a double fault halted; QUOTE is answered. 16 R332; 20 R388: a CANCEL of a job
marks it, leaves of it in the queues only what the cancel itself has queued (its continuation: model, log 12), gives
every hart of it that still stands a pending cancel, and aborts its open merge slots; of a job that is not there it does
nothing. The refusal 0x01 of a base that is no multiple of 2 MiB is the model's (log 45), as are that an open merge
slot's pages are in flight (log 45) and the refusal of a launch of a job that has not ended (log 44). 22 R435: messages
are taken once the module has started. -/
def Obligations.HostMessages : Prop :=
  (∀ (s : State) (link : DieNo) (hdr : MsgHdr),
    let got := messageCounted s link
    let acked (s1 : State) : State := sends s1 link (.ack hdr.jobid hdr.mseq)
    let refused (type cause : BitVec 8) : State := sends got link (.refusal hdr.jobid type cause hdr.mseq none)
    (∀ body : LaunchBody, GoodMessage s link hdr 1 (body.records.length + 1) →
      let trusted := s.record.trust.getLsbD link.val
      let cell : CellNo := Fin.ofNat 48 body.cell.toNat
      let prio (r : Block) : BitVec 4 :=
        if body.ceil.toNat < bitsOf (blockWord r 3) 3 0 then body.ceil else BitVec.ofNat 4 (bitsOf (blockWord r 3) 3 0)
      let room (r : Block) : Prop :=
        ((s.cellOf body.die cell).queues[(prio r).toNat]'(by omega)).length +
          (body.records.filter fun q => prio q == prio r).length ≤ 8 + 4096
      let counted := 0 < body.count.toNat ∧ body.count.toNat ≤ 1023 ∧ body.records.length = body.count.toNat
      let placed := body.cell.toNat < 48 ∧ cellOn s body.die cell = true
      (body.count = 0 ∨ 1023 < body.count.toNat → body.zeroOk = true → s.findJob hdr.jobid = none →
        exec (.launch link hdr body) s = .next (refused 0x01 0x12)) ∧
      (body.zeroOk = false ∨ s.findJob hdr.jobid ≠ none →
        exec (.launch link hdr body) s = .next (refused 0x01 0x01)) ∧
      (body.zeroOk = true → s.findJob hdr.jobid = none → counted → ¬placed →
        exec (.launch link hdr body) s = .next (refused 0x01 0x12)) ∧
      (∀ l r m c, body.zeroOk = true → s.findJob hdr.jobid = none → counted → placed → body.records = l ++ r :: m →
        (∀ q ∈ l, recCheck q (if trusted then 2 else 0) = none) → recCheck r (if trusted then 2 else 0) = some c →
        exec (.launch link hdr body) s = .next (refused 0x01 c)) ∧
      (body.zeroOk = true → s.findJob hdr.jobid = none → counted → placed → s.mode ≠ .minimal →
        (∀ r ∈ body.records, recCheck r (if trusted then 2 else 0) = none) →
        ((∀ r ∈ body.records, room r) → exec (.launch link hdr body) s = .next (body.records.foldl
          (fun s1 r => Queued s1 body.die cell hdr.jobid none r)
          { got with jobs := s.jobs ++ [{
              job := hdr.jobid, asid := body.asid, gatebase := body.gatebase, ceil := body.ceil, cont := body.cont,
              die := body.die, cell := cell, link := link, trusted := trusted, count := 0 }] })) ∧
        ((∃ r ∈ body.records, ¬room r) → exec (.launch link hdr body) s = .next s))) ∧
    (GoodMessage s link hdr 1 1 → ∀ w : BitVec 6, 16 ≤ w.toNat → (s.dieOf link).link.version.toNat < 2 →
      (∀ base len, exec (.windowOpen link hdr w base len) s = .next (refused 0x03 0x11)) ∧
      exec (.windowClose link hdr w) s = .next (refused 0x04 0x11)) ∧
    (GoodMessage s link hdr 1 1 → ∀ w : BitVec 6, w.toNat < 16 ∨ 2 ≤ (s.dieOf link).link.version.toNat →
      (∀ base len : Word, base.toNat % 2 ^ 21 = 0 → 0 < len.toNat → len.toNat % 2 ^ 21 = 0 → len.toNat ≤ 2 ^ 37 →
        exec (.windowOpen link hdr w base len) s = .next (acked { got with
          windows := s.windows.set w.toNat { opened := true, base := base.toNat, len := len.toNat } (by omega) })) ∧
      (∀ base len : Word, base.toNat % 2 ^ 21 = 0 → len.toNat % 2 ^ 21 ≠ 0 ∨ 2 ^ 37 < len.toNat →
        exec (.windowOpen link hdr w base len) s = .next (refused 0x03 0x12)) ∧
      (∀ base len : Word, base.toNat % 2 ^ 21 ≠ 0 → exec (.windowOpen link hdr w base len) s = .next (refused 0x03 0x01)) ∧
      let x := s.windows[w.toNat]'(by omega)
      let through (p : Nat × Nat) : Prop := x.opened = true ∧ rangesMeet p (2 ^ 52 + x.base, x.len) = true
      ((∀ p ∈ s.inFlightPlaces, ¬through p) → exec (.windowClose link hdr w) s =
        .next (acked { got with windows := s.windows.set w.toNat {} (by omega) })) ∧
      ((∃ p ∈ s.inFlightPlaces, through p) → exec (.windowClose link hdr w) s = .next s)) ∧
    (∀ h ∈ s.allHarts, ∀ y ∈ h.buffer, ∀ l, y.entry = .store l → ∀ p ∈ l, (p.1, 1) ∈ s.inFlightPlaces) ∧
    (∀ d : DieNo, ∀ c ∈ (s.dieOf d).cards, c.state ≠ .done → ∀ p ∈ c.rd ++ c.wr, p ∈ s.inFlightPlaces) ∧
    (∀ (d : DieNo) (n : Fin 16), (s.dieOf d).slots[n].state = .opened →
      ∀ p ∈ (s.dieOf d).slots[n].totalMap ++ (s.dieOf d).slots[n].stageMap, (p.2, 4096) ∈ s.inFlightPlaces) ∧
    (s.mode = .starting → exec (.cancel link hdr) s = .next s ∧ (∀ w, exec (.windowClose link hdr w) s = .next s) ∧
      (∀ nonce, exec (.quote link hdr nonce) s = .next s) ∧ ∀ body, exec (.launch link hdr body) s = .next s) ∧
    (GoodMessage s link hdr 1 1 → ∀ (d : DieNo) (c : BitVec 6) (k : SlotNo),
      let held (h : Hart) : Prop := h.status = .haltedDouble ∧ h.die = d ∧ h.cell.val = c.toNat ∧ h.slot = k
      ((∀ h ∈ s.allHarts, ¬held h) → exec (.slotRelease link hdr d c k) s = .next (refused 0x05 0x12)) ∧
      ((∃ h ∈ s.allHarts, held h) →
        ∃ u, exec (.slotRelease link hdr d c k) s = .next u ∧ (∀ h ∈ u.allHarts, ¬held h) ∧
          (∀ h ∈ s.allHarts, h.status ≠ .free → ¬held h → h ∈ u.allHarts) ∧ u.mem = s.mem ∧
          u.sent = s.sent ++ [{ link := link, mseq := (s.dieOf link).link.txSeq, msg := .ack hdr.jobid hdr.mseq }])) ∧
    (∀ nonce, GoodMessage s link hdr 3 1 →
      exec (.quote link hdr nonce) s = .next (sends got link (.quoteReply hdr.jobid nonce (quoteUnits s nonce)))) ∧
    ((s.dieOf link).link.up = true → s.mode ≠ .starting → hdr.zeroOk = false ∨ hdr.mseq ≠ (s.dieOf link).link.rxSeq →
      (exec (.cancel link hdr) s = .next (refused 0x02 0x01)) ∧
      (∀ w, exec (.windowClose link hdr w) s = .next (refused 0x04 0x01)) ∧
      ∀ nonce, exec (.quote link hdr nonce) s = .next (refused 0x06 0x01))) ∧
  ∀ (s : State) (link : DieNo) (hdr : MsgHdr), GoodMessage s link hdr 1 1 →
    (s.findJob hdr.jobid = none → exec (.cancel link hdr) s = .next (messageCounted s link)) ∧
    ∀ j, s.findJob hdr.jobid = some j → ∃ u, exec (.cancel link hdr) s = .next u ∧
      (∀ h ∈ u.allHarts, h.job = hdr.jobid → h.resident = true → h.cancel = true) ∧
      (∀ x ∈ u.jobs, x.job = hdr.jobid → x.cancelled = true) ∧
      (∀ (d : DieNo) (c : CellNo) (q : Fin 16), (s.dieOf d).stopped = false →
        ∀ e ∈ (u.cellOf d c).queues[q], QEntry.ofJob hdr.jobid e = true → s.nextQid ≤ e.qid) ∧
      ∀ (d : DieNo) (n : Fin 16), (u.dieOf d).slots[n].state = .opened → (u.dieOf d).slots[n].job ≠ hdr.jobid

/-- 22 R425, R431, R435, R436, R438 to R441: a link of a die past stage 6 comes up at the lower of both sides' versions,
the host's being what HPHOST holds or what it writes there as the link comes up, and the sideband shows both; QGO leaves a
quote, three units for each die: its signature over a digest, its firmware's digest and the SHA-512 of its configuration
record. What is signed is the model's reading (log 4). What an island number stands for; an island changes one request at
a time, in order; from 105 degrees firmware may lower islands, the anvil's first; a die that reaches 115 degrees stops,
and both thermal events are reported, on a link that is down too (model, log 11). Which islands are lowered, and how far,
is firmware's (model, log 46). -/
def Obligations.LinksQuotesIslands : Prop :=
  ∀ (s : State) (d : DieNo),
    let l := (s.dieOf d).link
    let withLink (x : HostLink) : State := s.setDie d { s.dieOf d with link := x }
    (∀ v : Option (BitVec 8), l.up = false → 7 ≤ (s.dieOf d).stage.toNat →
      let host := v.getD l.hostMax
      (0 < host.toNat → exec (.linkUp d v) s = .next (withLink { l with
        up := true, hostMax := host, version := BitVec.ofNat 8 (min host.toNat 3), rxSeq := 0, txSeq := 0 })) ∧
      (host = 0 → exec (.linkUp d v) s = .next (withLink { l with hostMax := 0, version := 0 }))) ∧
    (∀ v, l.up = true ∨ (s.dieOf d).stage.toNat < 7 → exec (.linkUp d v) s = .next s) ∧
    (sidebandRead s d 0x000 false = 3 ∧ sidebandRead s d 0x004 false = l.hostMax.zeroExtend 64 ∧
      sidebandRead s d 0x008 false = l.version.zeroExtend 64 ∧
      sidebandRead s d 0x224 false = (if l.qdone = true then 1 else 0) ∧
      ∀ o wide, 0x700 ≤ o → sidebandRead s d o wide = 0) ∧
    (∀ nonce, exec (.qgo d nonce) s =
      .next (withLink { l with nonce := nonce, qreply := quoteUnits s nonce, qdone := true })) ∧
    (∀ nonce, (quoteUnits s nonce).length = 12 ∧ ∀ e : Fin 4,
      let firmware := Config.firmwareDigest e.val
      let digest := sha512 (s.dieOf e).recordBytes
      (quoteUnits s nonce)[3 * e.val]? = some (Config.signature e.val
          (sha512 (leBytes 64 firmware.toNat ++ leBytes 64 digest.toNat ++ leBytes 32 nonce.toNat))) ∧
        (quoteUnits s nonce)[3 * e.val + 1]? = some firmware ∧ (quoteUnits s nonce)[3 * e.val + 2]? = some digest) ∧
    (∀ (e : DieNo) (c : CellNo) (k : Fin 32) (n : Fin 512),
      (n.val = 48 * e.val + c.val → islandOf n = .lanes e c) ∧ (n.val = 192 + 48 * e.val + c.val → islandOf n = .anvil e c) ∧
        (n.val = 384 + 32 * e.val + k.val → islandOf n = .own e k)) ∧
    (∀ (hdr : MsgHdr) (n : BitVec 9) (v f : BitVec 8), GoodMessage s d hdr 3 1 →
      let number : Fin 512 := Fin.ofNat 512 n.toNat
      let r : IslandReq := { number := number, step := v ++ f, start := (s.dieOf (islandOf number).die).cyc }
      ((∀ q ∈ s.changing, q.number ≠ r.number) →
        exec (.island d hdr n v f) s = .next { messageCounted s d with changing := s.changing ++ [r] }) ∧
      ((∃ q ∈ s.changing, q.number = r.number) →
        exec (.island d hdr n v f) s = .next { messageCounted s d with waitingIslands := s.waitingIslands ++ [r] })) ∧
    (∀ (q : IslandReq) (rest : List IslandReq), s.changing = q :: rest → (∀ r ∈ rest, r.number ≠ q.number) →
      let done : State := { s with islands := s.islands.set q.number q.step }
      ((∀ r ∈ s.waitingIslands, r.number ≠ q.number) →
        exec (.islandChangeComplete q.number) s = .next { done with changing := rest }) ∧
      ∀ a r b, s.waitingIslands = a ++ r :: b → r.number = q.number → (∀ x ∈ a, x.number ≠ q.number) →
        exec (.islandChangeComplete q.number) s =
          .next { done with
            changing := rest ++ [{ r with start := (s.dieOf (islandOf q.number).die).cyc }]
            waitingIslands := a ++ b }) ∧
    (∀ (temp : BitVec 8) (lower : List (Fin 512 × BitVec 16)),
      (temp.toNat < 105 → exec (.thermalThrottle d { temp := temp, lower := lower }) s = .next s) ∧
      (105 ≤ temp.toNat → lowersInOrder s lower = true → exec (.thermalThrottle d { temp := temp, lower := lower }) s =
        .next (sends (lower.foldl (fun u p => u.requestIsland p.1 p.2) s) d (.thermal d temp false))) ∧
      let below (new old : BitVec 16) : Prop := new ≠ old ∧ new.toNat / 256 ≤ old.toNat / 256 ∧ new.toNat % 256 ≤ old.toNat % 256
      (lowersInOrder s lower = true ↔
        lower ≠ [] ∧ (∀ p ∈ lower, below p.2 s.islands[p.1]) ∧
        ∃ a b, lower = a ++ b ∧ (∀ p ∈ a, 192 ≤ p.1.val ∧ p.1.val < 384) ∧ (∀ p ∈ b, p.1.val < 192) ∧
          (a ≠ [] ∨ ∃ n : Fin 512, 192 ≤ n.val ∧ n.val < 384 ∧ (below s.islands[n] s.record.isl[n] ∨
            ∃ r ∈ s.changing ++ s.waitingIslands, r.number = n ∧ below r.step s.record.isl[n])))) ∧
    ∀ temp : BitVec 8, 115 ≤ temp.toNat →
      exec (.thermalTrip d temp) s =
        .next (sends (s.setDie d { s.dieOf d with stopped := true }) d (.thermal d temp true))

/-! ## The fabric -/

/-- 22 R432 to R434: a port takes a good data flit in order, acknowledges it, gives one for the own node to the die its
header names and hands on one for another node; it discards the others with one retry request, and sends again what it
keeps when asked; a flit retried 16 times fails the port; a port comes up with 64 credits. A trailer carries the CRC-32C
of its flit. 15 R309, 22 R434: a packet of spawn.x, whose flit a die has, is queued where it says and its job charged, or
refused without a job or with a bad record; the sender's job is discharged when the answer or the time-out comes, 1.3 ×
10^9 cycles after the packet, a refusal being reported. That an accepted flit's buffer is free at once, and the form of a
packet, are the model's (log 43), as are what ANY's CELL says and the refusal of a CELL above 47 (log 47), and that the
time-out's passing is an event, before which the time still missing goes by (logs 51, 69). -/
def Obligations.EwetricFabric : Prop :=
  (∀ (s : State) (d : DieNo) (n : Fin 8) (flit : Block) (t : Word),
    let p := (s.dieOf d).ports[n]
    let good := crc32c (leBytes 64 flit.toNat ++ leBytes 4 (bitsOf t 31 0)) = bitsOf t 63 32 ∧ bitsOf t 1 0 ≠ 3
    let idle (q : Port) (cvc cn kind : Nat) : Block × Word := (0, trailer 0 q.txSeq (q.rxSeq - 1) cvc cn kind)
    let discarded (q : Port) : Port := if q.discarding then q else { q with discarding := true, wire := q.wire ++ [idle q 0 0 2] }
    (p.up = true → ¬good → exec (.flitReceive d n flit t) s = .next (withPort s d n (discarded p))) ∧
    (p.up = true → good → p.waiting = [] → ∃ q, Acked p q t ∧
      (bitsOf t 1 0 = 1 → exec (.flitReceive d n flit t) s = .next (withPort s d n q)) ∧
      (bitsOf t 1 0 = 2 → exec (.flitReceive d n flit t) s = .next (withPort s d n { q with
        kept := q.kept.map fun k => { k with tries := k.tries + 1 }
        wire := q.wire ++ q.kept.map fun k => (k.flit, trailer k.flit k.fseq (q.rxSeq - 1) 0 0 0) })) ∧
      (bitsOf t 1 0 = 0 → bitsOf t 31 20 ≠ p.rxSeq.toNat →
        exec (.flitReceive d n flit t) s = .next (withPort s d n (discarded q))) ∧
      (bitsOf t 1 0 = 0 → bitsOf t 31 20 = p.rxSeq.toNat →
        let r : Port := { q with rxSeq := q.rxSeq + 1, discarding := false }
        let a : Port := { r with wire := r.wire ++ [idle r (bitsOf (blockWord flit 0) 42 40) 1 1] }
        let e : DieNo := Fin.ofNat 4 (bitsOf (blockWord flit 0) 44 43)
        let s1 := withPort s d n a
        ((blockWord flit 0).extractLsb' 45 19 = s.record.nodeid → bitsOf (blockWord flit 0) 42 40 < 4 →
          exec (.flitReceive d n flit t) s =
            .next (s1.setDie e { s1.dieOf e with inbox := (s1.dieOf e).inbox ++ [flit] })) ∧
        ∀ m, (blockWord flit 0).extractLsb' 45 19 ≠ s.record.nodeid →
          ((s.dieOf d).routes.find? fun r => r.1 == (blockWord flit 0).extractLsb' 45 19).map (·.2) = some m →
          let o := (withPort s d n a).dieOf d
          let v := bitsOf (blockWord flit 0) 42 40
          o.ports[m].up = true → o.ports[m].waiting = [] → o.ports[m].kept.length < 2048 → 0 < o.ports[m].credits.toList.getD v 0 →
          exec (.flitReceive d n flit t) s = .next (withPort (withPort s d n a) d m { o.ports[m] with
            txSeq := o.ports[m].txSeq + 1
            kept := o.ports[m].kept ++ [{ fseq := o.ports[m].txSeq, flit := flit }]
            credits := o.ports[m].credits.setIfInBounds v (o.ports[m].credits.toList.getD v 0 - 1)
            wire := o.ports[m].wire ++ [(flit, trailer flit o.ports[m].txSeq (o.ports[m].rxSeq - 1) 0 0 0)] }))) ∧
    (∀ (f a : BitVec 12) (v c k : Nat), v < 8 → c < 8 → k < 4 →
      let w := trailer flit f a v c k
      bitsOf w 31 20 = f.toNat ∧ bitsOf w 19 8 = a.toNat ∧ bitsOf w 7 5 = v ∧ bitsOf w 4 2 = c ∧ bitsOf w 1 0 = k ∧
        bitsOf w 63 32 = crc32c (leBytes 64 flit.toNat ++ leBytes 4 (bitsOf w 31 0))) ∧
    (p.up = true → (∃ k ∈ p.kept, 16 ≤ k.tries) → exec (.portFail d n) s = .next (withPort
      (s.setDie d { s.dieOf d with routes := (s.dieOf d).routes.filter fun r => r.2 != n }) d n { failed := true })) ∧
    (∀ g : Fin 4, p.up = false → g ≠ 0 → s.mode ≠ .minimal → exec (.ewetricLinkUp d n g) s = .next (withPort s d n
      { up := true, generation := BitVec.ofNat 2 g.val, credits := Vector.replicate 4 64 }))) ∧
  (∀ (s : State) (d : DieNo) (p : SpawnPacket),
    let ofPacket (f : Block) : Prop := (blockWord f 0).toNat % 2 ^ 43 = p.number % 2 ^ 40
    ((∀ f ∈ (s.dieOf d).inbox, ¬ofPacket f) → exec (.spawnXReceive d p) s = .next s) ∧
    ∀ l f r, (s.dieOf d).inbox = l ++ f :: r → (∀ x ∈ l, ¬ofPacket x) → ofPacket f →
      let s1 := s.setDie d { s.dieOf d with inbox := l ++ r }
      let die := if p.any then d else p.die
      let cell : CellNo := Fin.ofNat 48 p.cell.toNat
      ((p.srcNode, p.number) ∈ s.accepted ∨ (recCheck p.record 3).isSome = true ∨ 47 < p.cell.toNat ∨
          s.findJob p.job = none → exec (.spawnXReceive d p) s = .next s1) ∧
      ((p.srcNode, p.number) ∉ s.accepted → recCheck p.record 3 = none → p.cell.toNat < 48 → s.findJob p.job ≠ none →
        (HasRoom s die cell p.job p.record → exec (.spawnXReceive d p) s =
          .next { Queued s1 die cell p.job none p.record with accepted := s.accepted ++ [(p.srcNode, p.number)] }) ∧
        (¬HasRoom s die cell p.job p.record → exec (.spawnXReceive d p) s = .next s))) ∧
  ∀ (s : State) (f : InFlight) (rest : List InFlight) (j : Job), s.inFlight = f :: rest →
    (∀ g ∈ rest, g.number ≠ f.number) → s.findJob f.job = some j → 1 < j.count →
    let charged (s1 : State) : State := { s1 with
      inFlight := rest, jobs := s.jobs.map fun y => if y.job = j.job then { j with count := j.count - 1 } else y }
    let told (s1 : State) (c : BitVec 8) : State := charged (sends s1 j.link (.refusal f.job 0 c 0
      (if 2 ≤ (s.dieOf j.link).link.version.toNat then some f.node else none)))
    exec (.spawnXAck f.number f.node none) s = .next (charged s) ∧
    (∀ c, exec (.spawnXAck f.number f.node (some c)) s = .next (told s c)) ∧
    exec (.spawnXAckTimeout f.number) s = .next (told (s.waitUntil f.src f.start 1300000000) 0x51)

/-! ## Reset and start-up -/

/-- 02 R49; 10 R216, R218; 11 R442; 20 R384; 22 R435 to R438: a die's reset clears its time, drawbars, barriers, merge
slots, accumulators and weight buffers; a start ends at the first of its eight stages that fails; from stage 4 on the
configuration record has been read, its fields at their places; one that gets through sets the placements; one that
fails is counted, once for the module, and after three the module starts in minimal mode, its ports down. What a reset
leaves of the rest is the model's (log 48), and so are the numbers of a slot's rounds (log 86). -/
def Obligations.ResetAndStart : Prop :=
  ∀ (s : State) (d : DieNo),
    (∃ u, exec (.dieReset d) s = .next u ∧ u.mode = .starting ∧ u.mem = s.mem ∧ (u.dieOf d).cyc = 0 ∧
      (u.dieOf d).stage = 0 ∧ (u.dieOf d).stopped = false ∧
      (∀ n : Fin 64, (u.dieOf d).db[n] = { hw := 0, seq := 0 } ∧
        (u.dieOf d).ab[n] = { xb := 0, xa := 0, cb := 0, ca := 0, armed := false }) ∧
      (∀ n : Fin 16, (u.dieOf d).slots[n] =
        { opens := (s.dieOf d).slots[n].opens, commits := (s.dieOf d).slots[n].commits }) ∧
      (∀ c : CellNo, ∀ r k : Nat, (u.cellOf d c).accAt r k = 0 ∧ (u.cellOf d c).wbAt k = 0) ∧
      ∀ e : DieNo, e ≠ d → u.dieOf e = s.dieOf e ∧ ∀ c : CellNo, u.cellOf e c = s.cellOf e c) ∧
    ∀ p : BootPlan,
      let signed := p.record.take (p.record.length - 64)
      let sig : BitVec 512 := BitVec.ofNat 512 (leNat (p.record.drop (p.record.length - 64)))
      let at_ (o n : Nat) : Nat := leNat ((p.record.drop o).take n)
      let good := Config.recordSigned (sha512 signed) sig = true ∧ 1152 ≤ p.record.length ∧ 1088 ≤ at_ 56 8 ∧
        at_ 56 8 ≤ p.record.length - 64 ∧ (Config.routingTable d.val (signed.drop (at_ 56 8))).isSome = true
      ∀ stage : BitVec 8,
        (p.selfTest = false ∧ stage = 1) ∨ (p.selfTest = true ∧ p.firmware = false ∧ stage = 2) ∨
          (p.selfTest = true ∧ p.firmware = true ∧ ¬good ∧ stage = 3) ∨
          (p.selfTest = true ∧ p.firmware = true ∧ good ∧
            ((p.identity = false ∧ stage = 4) ∨ (p.identity = true ∧ p.training = false ∧ stage = 5) ∨
              (p.identity = true ∧ p.training = true ∧ (p.dieLinks = false ∨ p.hostLink = false) ∧ stage = 6) ∨
              (p.identity = true ∧ p.training = true ∧ p.dieLinks = true ∧ p.hostLink = true ∧
                ((p.memory = false ∧ stage = 7) ∨ (p.memory = true ∧ stage = 8))))) →
        (s.dieOf d).stage = 0 → stage = 8 ∨ p.cause ≠ 0 →
        ∃ u, exec (.startUp d p) s = .next u ∧ (u.dieOf d).stage = stage ∧
          (u.dieOf d).cause = (if stage = 8 then 0 else p.cause) ∧ u.mem = s.mem ∧
          (4 ≤ stage.toNat → u.record.nodeid.toNat = at_ 32 8 % 2 ^ 19 ∧ u.record.trust.toNat = at_ 40 8 % 2 ^ 4 ∧
            u.record.farch.toNat = at_ 48 8 % 2 ^ 64 ∧ (u.dieOf d).recordBytes = p.record ∧
            (∀ e : Fin 4, u.record.cells[e].toNat = at_ (8 * e.val) 8 % 2 ^ 48) ∧
            (∀ i : Fin 512, u.islands[i].toNat = at_ (64 + 2 * i.val) 2 % 2 ^ 16) ∧
            some (u.dieOf d).routes = Config.routingTable d.val (signed.drop (at_ 56 8))) ∧
          (stage.toNat < 4 → u.record = s.record) ∧
          (stage = 8 → (u.dieOf d).directory = p.directory.toNat ∧
            (∀ c : CellNo, (u.cellOf d c).defaultVector = p.defaultVector) ∧
            ((∀ e : DieNo, e ≠ d → (s.dieOf e).stage = 8) →
              u.mode = (if 3 ≤ s.fails.toNat then .minimal else .normal) ∧ u.fails = 0 ∧
                (3 ≤ s.fails.toNat → ∀ (e : DieNo) (n : Fin 8), (u.dieOf e).ports[n].up = false))) ∧
          (stage.toNat < 8 → (∀ e : DieNo, e ≠ d → (s.dieOf e).stage = 0 ∨ (s.dieOf e).stage = 8) →
            u.fails.toNat = min (s.fails.toNat + 1) 63)
end

