-- ==== Sys2Proof/Laws/Memory.lean ====
section
/-!
SUPPORT. Sparse data and memory: reading after writing, the canonical form kept, and equal contents are equal data.
-/
namespace Sys2Proof.Machine

variable {α : Type}

/-- Below the first listed place nothing is listed. -/
theorem sparseGet_below [DecidableEq α] (dflt : α) {m : Sparse α} {lo a : Nat} (h : sparseWfFrom dflt lo m = true)
    (ha : a < lo) : sparseGet dflt m a = dflt := by
  cases m with
  | nil => rfl
  | cons p r =>
    obtain ⟨k, v⟩ := p
    simp only [sparseWfFrom, Bool.and_eq_true, decide_eq_true_eq] at h
    simp only [sparseGet]
    rw [if_neg (by omega), if_pos (by omega)]

/-- The canonical form from a place is one from every lower place. -/
theorem sparseWfFrom_mono [DecidableEq α] (dflt : α) {m : Sparse α} {lo lo' : Nat} (h : sparseWfFrom dflt lo m = true)
    (hl : lo' ≤ lo) : sparseWfFrom dflt lo' m = true := by
  cases m with
  | nil => rfl
  | cons p r =>
    obtain ⟨k, v⟩ := p
    simp only [sparseWfFrom, Bool.and_eq_true, decide_eq_true_eq] at h ⊢
    exact ⟨⟨by omega, h.1.2⟩, h.2⟩

/-- A read after a write: the value written at its place, what was there elsewhere. -/
theorem sparseGet_set [DecidableEq α] (dflt : α) {m : Sparse α} {lo : Nat} (h : sparseWfFrom dflt lo m = true)
    (a : Nat) (x : α) (b : Nat) :
    sparseGet dflt (sparseSet dflt m a x) b = if b = a then x else sparseGet dflt m b := by
  induction m generalizing lo with
  | nil =>
    simp only [sparseSet]
    split
    · rename_i hx; simp only [sparseGet]; split <;> simp [hx]
    · simp only [sparseGet]; split <;> simp
  | cons p r ih =>
    obtain ⟨k, v⟩ := p
    simp only [sparseWfFrom, Bool.and_eq_true, decide_eq_true_eq] at h
    simp only [sparseSet]
    split
    · rename_i hak
      split
      · rename_i hx
        by_cases hb : b = a
        · subst hb; simp only [sparseGet, if_true]; rw [if_neg (by omega), if_pos hak, hx]
        · rw [if_neg hb]
      · simp only [sparseGet]
        by_cases hb : b = a
        · simp [hb]
        · rw [if_neg hb, if_neg hb]
          by_cases hlt : b < a
          · rw [if_pos hlt, if_neg (by omega), if_pos (by omega)]
          · rw [if_neg hlt]
    · split
      · rename_i hak
        split
        · rename_i hx
          by_cases hb : b = a
          · subst hb
            simp only [if_true]
            rw [sparseGet_below dflt h.2 (by omega), hx]
          · rw [if_neg hb]
            simp only [sparseGet]
            rw [if_neg (by omega)]
            by_cases hlt : b < k
            · rw [if_pos hlt, sparseGet_below dflt h.2 (by omega)]
            · rw [if_neg hlt]
        · simp only [sparseGet]
          by_cases hb : b = a
          · simp [hb]
          · have hk : ¬b = k := by omega
            rw [if_neg hb, if_neg hb, if_neg hk, hak]
      · simp only [sparseGet]
        rw [ih h.2]
        by_cases hb : b = a
        · rw [if_neg (by omega), if_neg (by omega), if_pos hb]; simp [hb]
        · rw [if_neg hb, if_neg hb]

/-- A write keeps the canonical form. -/
theorem sparseSet_wfFrom [DecidableEq α] (dflt : α) {m : Sparse α} {lo : Nat} (h : sparseWfFrom dflt lo m = true)
    (a : Nat) (x : α) (ha : lo ≤ a) : sparseWfFrom dflt lo (sparseSet dflt m a x) = true := by
  induction m generalizing lo with
  | nil =>
    simp only [sparseSet]
    split
    · rfl
    · rename_i hx; simp [sparseWfFrom, ha, hx]
  | cons p r ih =>
    obtain ⟨k, v⟩ := p
    have h0 := h
    simp only [sparseWfFrom, Bool.and_eq_true, decide_eq_true_eq] at h
    simp only [sparseSet]
    split
    · split
      · exact h0
      · rename_i hak hx
        simp only [sparseWfFrom, Bool.and_eq_true, decide_eq_true_eq]
        exact ⟨⟨ha, hx⟩, ⟨by omega, h.1.2⟩, h.2⟩
    · split
      · split
        · exact sparseWfFrom_mono dflt h.2 (by omega)
        · rename_i hak hx
          simp only [sparseWfFrom, Bool.and_eq_true, decide_eq_true_eq]
          exact ⟨⟨ha, hx⟩, hak ▸ h.2⟩
      · simp only [sparseWfFrom, Bool.and_eq_true, decide_eq_true_eq]
        exact ⟨h.1, ih h.2 (by omega)⟩

theorem sparseSet_wf [DecidableEq α] (dflt : α) {m : Sparse α} (h : sparseWf dflt m = true) (a : Nat) (x : α) :
    sparseWf dflt (sparseSet dflt m a x) = true := sparseSet_wfFrom dflt h a x (Nat.zero_le a)

/-- Canonical data with equal contents is equal. -/
theorem sparse_ext [DecidableEq α] (dflt : α) {m n : Sparse α} {lo lo' : Nat} (hm : sparseWfFrom dflt lo m = true)
    (hn : sparseWfFrom dflt lo' n = true) (h : ∀ a, sparseGet dflt m a = sparseGet dflt n a) : m = n := by
  induction m generalizing n lo lo' with
  | nil =>
    cases n with
    | nil => rfl
    | cons q s =>
      obtain ⟨j, w⟩ := q
      simp only [sparseWfFrom, Bool.and_eq_true, decide_eq_true_eq] at hn
      exact absurd ((h j).trans (by simp [sparseGet])).symm hn.1.2
  | cons p r ih =>
    obtain ⟨k, v⟩ := p
    have hm0 := hm
    simp only [sparseWfFrom, Bool.and_eq_true, decide_eq_true_eq] at hm
    cases n with
    | nil => exact absurd (((h k).symm.trans (by simp [sparseGet])).symm) hm.1.2
    | cons q s =>
      obtain ⟨j, w⟩ := q
      have hn0 := hn
      simp only [sparseWfFrom, Bool.and_eq_true, decide_eq_true_eq] at hn
      have hkj : k = j := by
        rcases Nat.lt_trichotomy k j with hlt | heq | hgt
        · have e := h k
          rw [sparseGet, if_pos rfl, sparseGet, if_neg (by omega), if_pos hlt] at e
          exact absurd e hm.1.2
        · exact heq
        · have e := h j
          rw [sparseGet, if_neg (by omega), if_pos hgt, sparseGet, if_pos rfl] at e
          exact absurd e.symm hn.1.2
      subst hkj
      have hvw : v = w := by
        have e := h k
        rwa [sparseGet, if_pos rfl, sparseGet, if_pos rfl] at e
      rw [hvw, ih hm.2 hn.2 fun a => ?_]
      by_cases ha : a < k + 1
      · rw [sparseGet_below dflt hm.2 ha, sparseGet_below dflt hn.2 ha]
      · have e := h a
        rwa [sparseGet, if_neg (by omega), if_neg (by omega), sparseGet, if_neg (by omega), if_neg (by omega)] at e

/-! ## Memory -/

theorem Memory.write_wf {m : Memory} (h : m.wf = true) (a : Nat) (x : Byte) : (m.write a x).wf = true :=
  sparseSet_wf Memory.unwritten h a x

/-- A byte after one byte has been written. -/
theorem Memory.read_write {m : Memory} (h : m.wf = true) (a : Nat) (x : Byte) (b : Nat) :
    (m.write a x).read b = if b = a then x else m.read b := sparseGet_set Memory.unwritten h a x b

theorem Memory.writeAll_wf {m : Memory} (h : m.wf = true) (l : List (Nat × Byte)) : (m.writeAll l).wf = true := by
  induction l generalizing m with
  | nil => exact h
  | cons p r ih => exact ih (Memory.write_wf h p.1 p.2)

/-- A byte at no address written is as before. -/
theorem Memory.read_writeAll_other {m : Memory} (h : m.wf = true) (l : List (Nat × Byte)) (b : Nat)
    (hb : ∀ p ∈ l, p.1 ≠ b) : (m.writeAll l).read b = m.read b := by
  induction l generalizing m with
  | nil => rfl
  | cons p r ih =>
    show ((m.write p.1 p.2).writeAll r).read b = m.read b
    rw [ih (Memory.write_wf h p.1 p.2) fun q hq => hb q (List.mem_cons_of_mem _ hq), Memory.read_write h,
      if_neg fun e => hb p List.mem_cons_self e.symm]

/-- Memories with the same bytes are the same data. -/
theorem Memory.ext {m n : Memory} (hm : m.wf = true) (hn : n.wf = true) (h : ∀ a, m.read a = n.read a) : m = n :=
  sparse_ext Memory.unwritten hm hn h

/-- The addresses of bytes placed from a on. -/
theorem mem_placeBytes {a : Nat} {l : List Byte} {p : Nat × Byte} (h : p ∈ placeBytes a l) :
    a ≤ p.1 ∧ p.1 < a + l.length := by
  induction l generalizing a with
  | nil => exact absurd h List.not_mem_nil
  | cons b r ih =>
    rcases List.mem_cons.mp h with rfl | h'
    · simp
    · have := ih h'; simp only [List.length_cons]; omega

@[simp] theorem leBytes_length (n x : Nat) : (leBytes n x).length = n := by
  induction n generalizing x with
  | zero => rfl
  | succ n ih => simp [leBytes, ih]

/-- A byte outside n bytes stored from a on is as before. -/
theorem Memory.read_place_other {m : Memory} (h : m.wf = true) (a : Nat) (l : List Byte) (b : Nat)
    (hb : b < a ∨ a + l.length ≤ b) : (m.writeAll (placeBytes a l)).read b = m.read b :=
  Memory.read_writeAll_other h _ b fun p hp e => by have := mem_placeBytes hp; omega

/-- A byte among those stored from a on is the one stored. -/
theorem Memory.read_place {m : Memory} (h : m.wf = true) (a : Nat) (l : List Byte) (i : Nat) (hi : i < l.length) :
    (m.writeAll (placeBytes a l)).read (a + i) = l[i] := by
  induction l generalizing m a i with
  | nil => exact absurd hi (by simp)
  | cons b r ih =>
    show ((m.write a b).writeAll (placeBytes (a + 1) r)).read (a + i) = (b :: r)[i]
    cases i with
    | zero =>
      rw [Memory.read_place_other (Memory.write_wf h a b) _ _ _ (by omega), Memory.read_write h, if_pos (by omega)]
      rfl
    | succ i =>
      rw [show a + (i + 1) = a + 1 + i by omega, ih (Memory.write_wf h a b) (a + 1) i (by simpa using hi)]
      rfl

/-- A number is read as it is from memories that agree on its bytes. -/
theorem Memory.readLe_congr {m n : Memory} (a k : Nat) (h : ∀ i, i < k → m.read (a + i) = n.read (a + i)) :
    m.readLe a k = n.readLe a k := by
  induction k generalizing a with
  | zero => rfl
  | succ k ih =>
    have h0 : m.read a = n.read a := h 0 (by omega)
    rw [Memory.readLe, Memory.readLe, h0, ih (a + 1) fun i hi => by
      rw [show a + 1 + i = a + (i + 1) by omega]; exact h (i + 1) (by omega)]

/-- A number read where the n low bytes of x were stored is x modulo 256 to the n. -/
theorem Memory.readLe_place {m : Memory} (h : m.wf = true) (a n x : Nat) :
    (m.writeAll (placeBytes a (leBytes n x))).readLe a n = x % 256 ^ n := by
  induction n generalizing m a x with
  | zero => simp [Memory.readLe, Nat.mod_one]
  | succ n ih =>
    show ((m.write a (BitVec.ofNat 8 x)).writeAll (placeBytes (a + 1) (leBytes n (x / 256)))).readLe a (n + 1) = _
    rw [Memory.readLe, ih (Memory.write_wf h a _), Memory.read_place_other (Memory.write_wf h a _) _ _ _ (by omega),
      Memory.read_write h, if_pos rfl, BitVec.toNat_ofNat, Nat.pow_succ 256, Nat.mul_comm (256 ^ n) 256, Nat.mod_mul]

end Sys2Proof.Machine
end

