-- ==== Sys2Proof/Laws/State.lean ====
section
/-!
SUPPORT. What each update of the state and of a hart leaves alone, field by field, and what it writes: no later proof
unfolds a record update.
-/
namespace Sys2Proof.Machine

/-! ## Updates of the state -/

@[simp] theorem State.setDie_mem (s : State) (d : DieNo) (x : Die) : (s.setDie d x).mem = s.mem := rfl
@[simp] theorem State.setDie_poisoned (s : State) (d : DieNo) (x : Die) : (s.setDie d x).poisoned = s.poisoned := rfl
@[simp] theorem State.setDie_uncorrectable (s : State) (d : DieNo) (x : Die) : (s.setDie d x).uncorrectable = s.uncorrectable := rfl
@[simp] theorem State.setDie_hart (s : State) (d : DieNo) (x : Die) : (s.setDie d x).hart = s.hart := rfl
@[simp] theorem State.setDie_harts (s : State) (d : DieNo) (x : Die) : (s.setDie d x).harts = s.harts := rfl
@[simp] theorem State.setDie_cells (s : State) (d : DieNo) (x : Die) : (s.setDie d x).cells = s.cells := rfl
@[simp] theorem State.setDie_tasks (s : State) (d : DieNo) (x : Die) : (s.setDie d x).tasks = s.tasks := rfl
@[simp] theorem State.setDie_jobs (s : State) (d : DieNo) (x : Die) : (s.setDie d x).jobs = s.jobs := rfl
@[simp] theorem State.setDie_windows (s : State) (d : DieNo) (x : Die) : (s.setDie d x).windows = s.windows := rfl
@[simp] theorem State.setDie_sent (s : State) (d : DieNo) (x : Die) : (s.setDie d x).sent = s.sent := rfl
@[simp] theorem State.setDie_record (s : State) (d : DieNo) (x : Die) : (s.setDie d x).record = s.record := rfl
@[simp] theorem State.setDie_mode (s : State) (d : DieNo) (x : Die) : (s.setDie d x).mode = s.mode := rfl
@[simp] theorem State.setDie_fails (s : State) (d : DieNo) (x : Die) : (s.setDie d x).fails = s.fails := rfl
@[simp] theorem State.setDie_islands (s : State) (d : DieNo) (x : Die) : (s.setDie d x).islands = s.islands := rfl
@[simp] theorem State.setDie_changing (s : State) (d : DieNo) (x : Die) : (s.setDie d x).changing = s.changing := rfl
@[simp] theorem State.setDie_waitingIslands (s : State) (d : DieNo) (x : Die) : (s.setDie d x).waitingIslands = s.waitingIslands := rfl
@[simp] theorem State.setDie_inFlight (s : State) (d : DieNo) (x : Die) : (s.setDie d x).inFlight = s.inFlight := rfl
@[simp] theorem State.setDie_accepted (s : State) (d : DieNo) (x : Die) : (s.setDie d x).accepted = s.accepted := rfl
@[simp] theorem State.setDie_transit (s : State) (d : DieNo) (x : Die) : (s.setDie d x).transit = s.transit := rfl
@[simp] theorem State.setDie_nextPacket (s : State) (d : DieNo) (x : Die) : (s.setDie d x).nextPacket = s.nextPacket := rfl
@[simp] theorem State.setDie_nextHid (s : State) (d : DieNo) (x : Die) : (s.setDie d x).nextHid = s.nextHid := rfl
@[simp] theorem State.setDie_nextTid (s : State) (d : DieNo) (x : Die) : (s.setDie d x).nextTid = s.nextTid := rfl
@[simp] theorem State.setDie_nextQid (s : State) (d : DieNo) (x : Die) : (s.setDie d x).nextQid = s.nextQid := rfl
@[simp] theorem State.setDie_nextOrder (s : State) (d : DieNo) (x : Die) : (s.setDie d x).nextOrder = s.nextOrder := rfl
@[simp] theorem State.setDie_agenda (s : State) (d : DieNo) (x : Die) : (s.setDie d x).agenda = s.agenda := rfl
@[simp] theorem State.setDie_fresh (s : State) (d : DieNo) (x : Die) : (s.setDie d x).fresh = s.fresh := rfl

@[simp] theorem State.setCell_mem (s : State) (d : DieNo) (c : CellNo) (x : Cell) : (s.setCell d c x).mem = s.mem := rfl
@[simp] theorem State.setCell_poisoned (s : State) (d : DieNo) (c : CellNo) (x : Cell) : (s.setCell d c x).poisoned = s.poisoned := rfl
@[simp] theorem State.setCell_uncorrectable (s : State) (d : DieNo) (c : CellNo) (x : Cell) : (s.setCell d c x).uncorrectable = s.uncorrectable := rfl
@[simp] theorem State.setCell_hart (s : State) (d : DieNo) (c : CellNo) (x : Cell) : (s.setCell d c x).hart = s.hart := rfl
@[simp] theorem State.setCell_harts (s : State) (d : DieNo) (c : CellNo) (x : Cell) : (s.setCell d c x).harts = s.harts := rfl
@[simp] theorem State.setCell_dies (s : State) (d : DieNo) (c : CellNo) (x : Cell) : (s.setCell d c x).dies = s.dies := rfl
@[simp] theorem State.setCell_tasks (s : State) (d : DieNo) (c : CellNo) (x : Cell) : (s.setCell d c x).tasks = s.tasks := rfl
@[simp] theorem State.setCell_jobs (s : State) (d : DieNo) (c : CellNo) (x : Cell) : (s.setCell d c x).jobs = s.jobs := rfl
@[simp] theorem State.setCell_windows (s : State) (d : DieNo) (c : CellNo) (x : Cell) : (s.setCell d c x).windows = s.windows := rfl
@[simp] theorem State.setCell_sent (s : State) (d : DieNo) (c : CellNo) (x : Cell) : (s.setCell d c x).sent = s.sent := rfl
@[simp] theorem State.setCell_record (s : State) (d : DieNo) (c : CellNo) (x : Cell) : (s.setCell d c x).record = s.record := rfl
@[simp] theorem State.setCell_mode (s : State) (d : DieNo) (c : CellNo) (x : Cell) : (s.setCell d c x).mode = s.mode := rfl
@[simp] theorem State.setCell_fails (s : State) (d : DieNo) (c : CellNo) (x : Cell) : (s.setCell d c x).fails = s.fails := rfl
@[simp] theorem State.setCell_islands (s : State) (d : DieNo) (c : CellNo) (x : Cell) : (s.setCell d c x).islands = s.islands := rfl
@[simp] theorem State.setCell_changing (s : State) (d : DieNo) (c : CellNo) (x : Cell) : (s.setCell d c x).changing = s.changing := rfl
@[simp] theorem State.setCell_waitingIslands (s : State) (d : DieNo) (c : CellNo) (x : Cell) : (s.setCell d c x).waitingIslands = s.waitingIslands := rfl
@[simp] theorem State.setCell_inFlight (s : State) (d : DieNo) (c : CellNo) (x : Cell) : (s.setCell d c x).inFlight = s.inFlight := rfl
@[simp] theorem State.setCell_accepted (s : State) (d : DieNo) (c : CellNo) (x : Cell) : (s.setCell d c x).accepted = s.accepted := rfl
@[simp] theorem State.setCell_transit (s : State) (d : DieNo) (c : CellNo) (x : Cell) : (s.setCell d c x).transit = s.transit := rfl
@[simp] theorem State.setCell_nextPacket (s : State) (d : DieNo) (c : CellNo) (x : Cell) : (s.setCell d c x).nextPacket = s.nextPacket := rfl
@[simp] theorem State.setCell_nextHid (s : State) (d : DieNo) (c : CellNo) (x : Cell) : (s.setCell d c x).nextHid = s.nextHid := rfl
@[simp] theorem State.setCell_nextTid (s : State) (d : DieNo) (c : CellNo) (x : Cell) : (s.setCell d c x).nextTid = s.nextTid := rfl
@[simp] theorem State.setCell_nextQid (s : State) (d : DieNo) (c : CellNo) (x : Cell) : (s.setCell d c x).nextQid = s.nextQid := rfl
@[simp] theorem State.setCell_nextOrder (s : State) (d : DieNo) (c : CellNo) (x : Cell) : (s.setCell d c x).nextOrder = s.nextOrder := rfl
@[simp] theorem State.setCell_agenda (s : State) (d : DieNo) (c : CellNo) (x : Cell) : (s.setCell d c x).agenda = s.agenda := rfl
@[simp] theorem State.setCell_fresh (s : State) (d : DieNo) (c : CellNo) (x : Cell) : (s.setCell d c x).fresh = s.fresh := rfl

@[simp] theorem State.setTask_mem (s : State) (x : Task) : (s.setTask x).mem = s.mem := rfl
@[simp] theorem State.setTask_poisoned (s : State) (x : Task) : (s.setTask x).poisoned = s.poisoned := rfl
@[simp] theorem State.setTask_uncorrectable (s : State) (x : Task) : (s.setTask x).uncorrectable = s.uncorrectable := rfl
@[simp] theorem State.setTask_hart (s : State) (x : Task) : (s.setTask x).hart = s.hart := rfl
@[simp] theorem State.setTask_harts (s : State) (x : Task) : (s.setTask x).harts = s.harts := rfl
@[simp] theorem State.setTask_cells (s : State) (x : Task) : (s.setTask x).cells = s.cells := rfl
@[simp] theorem State.setTask_dies (s : State) (x : Task) : (s.setTask x).dies = s.dies := rfl
@[simp] theorem State.setTask_jobs (s : State) (x : Task) : (s.setTask x).jobs = s.jobs := rfl
@[simp] theorem State.setTask_windows (s : State) (x : Task) : (s.setTask x).windows = s.windows := rfl
@[simp] theorem State.setTask_sent (s : State) (x : Task) : (s.setTask x).sent = s.sent := rfl
@[simp] theorem State.setTask_record (s : State) (x : Task) : (s.setTask x).record = s.record := rfl
@[simp] theorem State.setTask_mode (s : State) (x : Task) : (s.setTask x).mode = s.mode := rfl
@[simp] theorem State.setTask_fails (s : State) (x : Task) : (s.setTask x).fails = s.fails := rfl
@[simp] theorem State.setTask_islands (s : State) (x : Task) : (s.setTask x).islands = s.islands := rfl
@[simp] theorem State.setTask_changing (s : State) (x : Task) : (s.setTask x).changing = s.changing := rfl
@[simp] theorem State.setTask_waitingIslands (s : State) (x : Task) : (s.setTask x).waitingIslands = s.waitingIslands := rfl
@[simp] theorem State.setTask_inFlight (s : State) (x : Task) : (s.setTask x).inFlight = s.inFlight := rfl
@[simp] theorem State.setTask_accepted (s : State) (x : Task) : (s.setTask x).accepted = s.accepted := rfl
@[simp] theorem State.setTask_transit (s : State) (x : Task) : (s.setTask x).transit = s.transit := rfl
@[simp] theorem State.setTask_nextPacket (s : State) (x : Task) : (s.setTask x).nextPacket = s.nextPacket := rfl
@[simp] theorem State.setTask_nextHid (s : State) (x : Task) : (s.setTask x).nextHid = s.nextHid := rfl
@[simp] theorem State.setTask_nextTid (s : State) (x : Task) : (s.setTask x).nextTid = s.nextTid := rfl
@[simp] theorem State.setTask_nextQid (s : State) (x : Task) : (s.setTask x).nextQid = s.nextQid := rfl
@[simp] theorem State.setTask_nextOrder (s : State) (x : Task) : (s.setTask x).nextOrder = s.nextOrder := rfl
@[simp] theorem State.setTask_agenda (s : State) (x : Task) : (s.setTask x).agenda = s.agenda := rfl
@[simp] theorem State.setTask_fresh (s : State) (x : Task) : (s.setTask x).fresh = s.fresh := rfl

@[simp] theorem State.setJob_mem (s : State) (x : Job) : (s.setJob x).mem = s.mem := rfl
@[simp] theorem State.setJob_poisoned (s : State) (x : Job) : (s.setJob x).poisoned = s.poisoned := rfl
@[simp] theorem State.setJob_uncorrectable (s : State) (x : Job) : (s.setJob x).uncorrectable = s.uncorrectable := rfl
@[simp] theorem State.setJob_hart (s : State) (x : Job) : (s.setJob x).hart = s.hart := rfl
@[simp] theorem State.setJob_harts (s : State) (x : Job) : (s.setJob x).harts = s.harts := rfl
@[simp] theorem State.setJob_cells (s : State) (x : Job) : (s.setJob x).cells = s.cells := rfl
@[simp] theorem State.setJob_dies (s : State) (x : Job) : (s.setJob x).dies = s.dies := rfl
@[simp] theorem State.setJob_tasks (s : State) (x : Job) : (s.setJob x).tasks = s.tasks := rfl
@[simp] theorem State.setJob_windows (s : State) (x : Job) : (s.setJob x).windows = s.windows := rfl
@[simp] theorem State.setJob_sent (s : State) (x : Job) : (s.setJob x).sent = s.sent := rfl
@[simp] theorem State.setJob_record (s : State) (x : Job) : (s.setJob x).record = s.record := rfl
@[simp] theorem State.setJob_mode (s : State) (x : Job) : (s.setJob x).mode = s.mode := rfl
@[simp] theorem State.setJob_fails (s : State) (x : Job) : (s.setJob x).fails = s.fails := rfl
@[simp] theorem State.setJob_islands (s : State) (x : Job) : (s.setJob x).islands = s.islands := rfl
@[simp] theorem State.setJob_changing (s : State) (x : Job) : (s.setJob x).changing = s.changing := rfl
@[simp] theorem State.setJob_waitingIslands (s : State) (x : Job) : (s.setJob x).waitingIslands = s.waitingIslands := rfl
@[simp] theorem State.setJob_inFlight (s : State) (x : Job) : (s.setJob x).inFlight = s.inFlight := rfl
@[simp] theorem State.setJob_accepted (s : State) (x : Job) : (s.setJob x).accepted = s.accepted := rfl
@[simp] theorem State.setJob_transit (s : State) (x : Job) : (s.setJob x).transit = s.transit := rfl
@[simp] theorem State.setJob_nextPacket (s : State) (x : Job) : (s.setJob x).nextPacket = s.nextPacket := rfl
@[simp] theorem State.setJob_nextHid (s : State) (x : Job) : (s.setJob x).nextHid = s.nextHid := rfl
@[simp] theorem State.setJob_nextTid (s : State) (x : Job) : (s.setJob x).nextTid = s.nextTid := rfl
@[simp] theorem State.setJob_nextQid (s : State) (x : Job) : (s.setJob x).nextQid = s.nextQid := rfl
@[simp] theorem State.setJob_nextOrder (s : State) (x : Job) : (s.setJob x).nextOrder = s.nextOrder := rfl
@[simp] theorem State.setJob_agenda (s : State) (x : Job) : (s.setJob x).agenda = s.agenda := rfl
@[simp] theorem State.setJob_fresh (s : State) (x : Job) : (s.setJob x).fresh = s.fresh := rfl

@[simp] theorem State.storeBytes_hart (s : State) (l : List (Nat × Byte)) : (s.storeBytes l).hart = s.hart := rfl
@[simp] theorem State.storeBytes_harts (s : State) (l : List (Nat × Byte)) : (s.storeBytes l).harts = s.harts := rfl
@[simp] theorem State.storeBytes_cells (s : State) (l : List (Nat × Byte)) : (s.storeBytes l).cells = s.cells := rfl
@[simp] theorem State.storeBytes_dies (s : State) (l : List (Nat × Byte)) : (s.storeBytes l).dies = s.dies := rfl
@[simp] theorem State.storeBytes_tasks (s : State) (l : List (Nat × Byte)) : (s.storeBytes l).tasks = s.tasks := rfl
@[simp] theorem State.storeBytes_jobs (s : State) (l : List (Nat × Byte)) : (s.storeBytes l).jobs = s.jobs := rfl
@[simp] theorem State.storeBytes_windows (s : State) (l : List (Nat × Byte)) : (s.storeBytes l).windows = s.windows := rfl
@[simp] theorem State.storeBytes_sent (s : State) (l : List (Nat × Byte)) : (s.storeBytes l).sent = s.sent := rfl
@[simp] theorem State.storeBytes_record (s : State) (l : List (Nat × Byte)) : (s.storeBytes l).record = s.record := rfl
@[simp] theorem State.storeBytes_mode (s : State) (l : List (Nat × Byte)) : (s.storeBytes l).mode = s.mode := rfl
@[simp] theorem State.storeBytes_fails (s : State) (l : List (Nat × Byte)) : (s.storeBytes l).fails = s.fails := rfl
@[simp] theorem State.storeBytes_islands (s : State) (l : List (Nat × Byte)) : (s.storeBytes l).islands = s.islands := rfl
@[simp] theorem State.storeBytes_changing (s : State) (l : List (Nat × Byte)) : (s.storeBytes l).changing = s.changing := rfl
@[simp] theorem State.storeBytes_waitingIslands (s : State) (l : List (Nat × Byte)) : (s.storeBytes l).waitingIslands = s.waitingIslands := rfl
@[simp] theorem State.storeBytes_inFlight (s : State) (l : List (Nat × Byte)) : (s.storeBytes l).inFlight = s.inFlight := rfl
@[simp] theorem State.storeBytes_accepted (s : State) (l : List (Nat × Byte)) : (s.storeBytes l).accepted = s.accepted := rfl
@[simp] theorem State.storeBytes_transit (s : State) (l : List (Nat × Byte)) : (s.storeBytes l).transit = s.transit := rfl
@[simp] theorem State.storeBytes_nextPacket (s : State) (l : List (Nat × Byte)) : (s.storeBytes l).nextPacket = s.nextPacket := rfl
@[simp] theorem State.storeBytes_nextHid (s : State) (l : List (Nat × Byte)) : (s.storeBytes l).nextHid = s.nextHid := rfl
@[simp] theorem State.storeBytes_nextTid (s : State) (l : List (Nat × Byte)) : (s.storeBytes l).nextTid = s.nextTid := rfl
@[simp] theorem State.storeBytes_nextQid (s : State) (l : List (Nat × Byte)) : (s.storeBytes l).nextQid = s.nextQid := rfl
@[simp] theorem State.storeBytes_nextOrder (s : State) (l : List (Nat × Byte)) : (s.storeBytes l).nextOrder = s.nextOrder := rfl
@[simp] theorem State.storeBytes_agenda (s : State) (l : List (Nat × Byte)) : (s.storeBytes l).agenda = s.agenda := rfl
@[simp] theorem State.storeBytes_fresh (s : State) (l : List (Nat × Byte)) : (s.storeBytes l).fresh = s.fresh := rfl

@[simp] theorem State.storeLe_hart (s : State) (pa n x : Nat) : (s.storeLe pa n x).hart = s.hart := rfl
@[simp] theorem State.storeLe_harts (s : State) (pa n x : Nat) : (s.storeLe pa n x).harts = s.harts := rfl
@[simp] theorem State.storeLe_cells (s : State) (pa n x : Nat) : (s.storeLe pa n x).cells = s.cells := rfl
@[simp] theorem State.storeLe_dies (s : State) (pa n x : Nat) : (s.storeLe pa n x).dies = s.dies := rfl
@[simp] theorem State.storeLe_tasks (s : State) (pa n x : Nat) : (s.storeLe pa n x).tasks = s.tasks := rfl
@[simp] theorem State.storeLe_jobs (s : State) (pa n x : Nat) : (s.storeLe pa n x).jobs = s.jobs := rfl
@[simp] theorem State.storeLe_windows (s : State) (pa n x : Nat) : (s.storeLe pa n x).windows = s.windows := rfl
@[simp] theorem State.storeLe_sent (s : State) (pa n x : Nat) : (s.storeLe pa n x).sent = s.sent := rfl
@[simp] theorem State.storeLe_record (s : State) (pa n x : Nat) : (s.storeLe pa n x).record = s.record := rfl
@[simp] theorem State.storeLe_mode (s : State) (pa n x : Nat) : (s.storeLe pa n x).mode = s.mode := rfl
@[simp] theorem State.storeLe_fails (s : State) (pa n x : Nat) : (s.storeLe pa n x).fails = s.fails := rfl
@[simp] theorem State.storeLe_islands (s : State) (pa n x : Nat) : (s.storeLe pa n x).islands = s.islands := rfl
@[simp] theorem State.storeLe_changing (s : State) (pa n x : Nat) : (s.storeLe pa n x).changing = s.changing := rfl
@[simp] theorem State.storeLe_waitingIslands (s : State) (pa n x : Nat) : (s.storeLe pa n x).waitingIslands = s.waitingIslands := rfl
@[simp] theorem State.storeLe_inFlight (s : State) (pa n x : Nat) : (s.storeLe pa n x).inFlight = s.inFlight := rfl
@[simp] theorem State.storeLe_accepted (s : State) (pa n x : Nat) : (s.storeLe pa n x).accepted = s.accepted := rfl
@[simp] theorem State.storeLe_transit (s : State) (pa n x : Nat) : (s.storeLe pa n x).transit = s.transit := rfl
@[simp] theorem State.storeLe_nextPacket (s : State) (pa n x : Nat) : (s.storeLe pa n x).nextPacket = s.nextPacket := rfl
@[simp] theorem State.storeLe_nextHid (s : State) (pa n x : Nat) : (s.storeLe pa n x).nextHid = s.nextHid := rfl
@[simp] theorem State.storeLe_nextTid (s : State) (pa n x : Nat) : (s.storeLe pa n x).nextTid = s.nextTid := rfl
@[simp] theorem State.storeLe_nextQid (s : State) (pa n x : Nat) : (s.storeLe pa n x).nextQid = s.nextQid := rfl
@[simp] theorem State.storeLe_nextOrder (s : State) (pa n x : Nat) : (s.storeLe pa n x).nextOrder = s.nextOrder := rfl
@[simp] theorem State.storeLe_agenda (s : State) (pa n x : Nat) : (s.storeLe pa n x).agenda = s.agenda := rfl
@[simp] theorem State.storeLe_fresh (s : State) (pa n x : Nat) : (s.storeLe pa n x).fresh = s.fresh := rfl

@[simp] theorem State.observeTime_mem (s : State) : (s.observeTime).mem = s.mem := rfl
@[simp] theorem State.observeTime_poisoned (s : State) : (s.observeTime).poisoned = s.poisoned := rfl
@[simp] theorem State.observeTime_uncorrectable (s : State) : (s.observeTime).uncorrectable = s.uncorrectable := rfl
@[simp] theorem State.observeTime_hart (s : State) : (s.observeTime).hart = s.hart := rfl
@[simp] theorem State.observeTime_harts (s : State) : (s.observeTime).harts = s.harts := rfl
@[simp] theorem State.observeTime_cells (s : State) : (s.observeTime).cells = s.cells := rfl
@[simp] theorem State.observeTime_tasks (s : State) : (s.observeTime).tasks = s.tasks := rfl
@[simp] theorem State.observeTime_jobs (s : State) : (s.observeTime).jobs = s.jobs := rfl
@[simp] theorem State.observeTime_windows (s : State) : (s.observeTime).windows = s.windows := rfl
@[simp] theorem State.observeTime_sent (s : State) : (s.observeTime).sent = s.sent := rfl
@[simp] theorem State.observeTime_record (s : State) : (s.observeTime).record = s.record := rfl
@[simp] theorem State.observeTime_mode (s : State) : (s.observeTime).mode = s.mode := rfl
@[simp] theorem State.observeTime_fails (s : State) : (s.observeTime).fails = s.fails := rfl
@[simp] theorem State.observeTime_islands (s : State) : (s.observeTime).islands = s.islands := rfl
@[simp] theorem State.observeTime_changing (s : State) : (s.observeTime).changing = s.changing := rfl
@[simp] theorem State.observeTime_waitingIslands (s : State) : (s.observeTime).waitingIslands = s.waitingIslands := rfl
@[simp] theorem State.observeTime_inFlight (s : State) : (s.observeTime).inFlight = s.inFlight := rfl
@[simp] theorem State.observeTime_accepted (s : State) : (s.observeTime).accepted = s.accepted := rfl
@[simp] theorem State.observeTime_transit (s : State) : (s.observeTime).transit = s.transit := rfl
@[simp] theorem State.observeTime_nextPacket (s : State) : (s.observeTime).nextPacket = s.nextPacket := rfl
@[simp] theorem State.observeTime_nextHid (s : State) : (s.observeTime).nextHid = s.nextHid := rfl
@[simp] theorem State.observeTime_nextTid (s : State) : (s.observeTime).nextTid = s.nextTid := rfl
@[simp] theorem State.observeTime_nextQid (s : State) : (s.observeTime).nextQid = s.nextQid := rfl
@[simp] theorem State.observeTime_nextOrder (s : State) : (s.observeTime).nextOrder = s.nextOrder := rfl
@[simp] theorem State.observeTime_agenda (s : State) : (s.observeTime).agenda = s.agenda := rfl

@[simp] theorem State.send_mem (s : State) (k : DieNo) (m : HostMsg) : (s.send k m).mem = s.mem := rfl
@[simp] theorem State.send_poisoned (s : State) (k : DieNo) (m : HostMsg) : (s.send k m).poisoned = s.poisoned := rfl
@[simp] theorem State.send_uncorrectable (s : State) (k : DieNo) (m : HostMsg) : (s.send k m).uncorrectable = s.uncorrectable := rfl
@[simp] theorem State.send_hart (s : State) (k : DieNo) (m : HostMsg) : (s.send k m).hart = s.hart := rfl
@[simp] theorem State.send_harts (s : State) (k : DieNo) (m : HostMsg) : (s.send k m).harts = s.harts := rfl
@[simp] theorem State.send_cells (s : State) (k : DieNo) (m : HostMsg) : (s.send k m).cells = s.cells := rfl
@[simp] theorem State.send_tasks (s : State) (k : DieNo) (m : HostMsg) : (s.send k m).tasks = s.tasks := rfl
@[simp] theorem State.send_jobs (s : State) (k : DieNo) (m : HostMsg) : (s.send k m).jobs = s.jobs := rfl
@[simp] theorem State.send_windows (s : State) (k : DieNo) (m : HostMsg) : (s.send k m).windows = s.windows := rfl
@[simp] theorem State.send_record (s : State) (k : DieNo) (m : HostMsg) : (s.send k m).record = s.record := rfl
@[simp] theorem State.send_mode (s : State) (k : DieNo) (m : HostMsg) : (s.send k m).mode = s.mode := rfl
@[simp] theorem State.send_fails (s : State) (k : DieNo) (m : HostMsg) : (s.send k m).fails = s.fails := rfl
@[simp] theorem State.send_islands (s : State) (k : DieNo) (m : HostMsg) : (s.send k m).islands = s.islands := rfl
@[simp] theorem State.send_changing (s : State) (k : DieNo) (m : HostMsg) : (s.send k m).changing = s.changing := rfl
@[simp] theorem State.send_waitingIslands (s : State) (k : DieNo) (m : HostMsg) : (s.send k m).waitingIslands = s.waitingIslands := rfl
@[simp] theorem State.send_inFlight (s : State) (k : DieNo) (m : HostMsg) : (s.send k m).inFlight = s.inFlight := rfl
@[simp] theorem State.send_accepted (s : State) (k : DieNo) (m : HostMsg) : (s.send k m).accepted = s.accepted := rfl
@[simp] theorem State.send_transit (s : State) (k : DieNo) (m : HostMsg) : (s.send k m).transit = s.transit := rfl
@[simp] theorem State.send_nextPacket (s : State) (k : DieNo) (m : HostMsg) : (s.send k m).nextPacket = s.nextPacket := rfl
@[simp] theorem State.send_nextHid (s : State) (k : DieNo) (m : HostMsg) : (s.send k m).nextHid = s.nextHid := rfl
@[simp] theorem State.send_nextTid (s : State) (k : DieNo) (m : HostMsg) : (s.send k m).nextTid = s.nextTid := rfl
@[simp] theorem State.send_nextQid (s : State) (k : DieNo) (m : HostMsg) : (s.send k m).nextQid = s.nextQid := rfl
@[simp] theorem State.send_nextOrder (s : State) (k : DieNo) (m : HostMsg) : (s.send k m).nextOrder = s.nextOrder := rfl
@[simp] theorem State.send_agenda (s : State) (k : DieNo) (m : HostMsg) : (s.send k m).agenda = s.agenda := rfl
@[simp] theorem State.send_fresh (s : State) (k : DieNo) (m : HostMsg) : (s.send k m).fresh = s.fresh := rfl

/-- What neither a cell's contents nor stored bytes touch, a queue's change leaves alone. -/
theorem setQueue_keeps {s : State} {d : DieNo} {c : CellNo} {p : BitVec 4} {l : List QEntry} {α : Type} (f : State → α)
    (hs : ∀ t b, f (State.storeBytes t b) = f t) (hc : ∀ t d c x, f (State.setCell t d c x) = f t) :
    f (s.setQueue d c p l) = f s := by
  unfold State.setQueue
  dsimp only
  split
  · exact hc ..
  · rw [hs, hc]

@[simp] theorem State.setQueue_hart (s : State) (d : DieNo) (c : CellNo) (p : BitVec 4) (l : List QEntry) : (s.setQueue d c p l).hart = s.hart :=
  setQueue_keeps (fun t => t.hart) (fun _ _ => rfl) (fun _ _ _ _ => rfl)
@[simp] theorem State.setQueue_harts (s : State) (d : DieNo) (c : CellNo) (p : BitVec 4) (l : List QEntry) : (s.setQueue d c p l).harts = s.harts :=
  setQueue_keeps (fun t => t.harts) (fun _ _ => rfl) (fun _ _ _ _ => rfl)
@[simp] theorem State.setQueue_dies (s : State) (d : DieNo) (c : CellNo) (p : BitVec 4) (l : List QEntry) : (s.setQueue d c p l).dies = s.dies :=
  setQueue_keeps (fun t => t.dies) (fun _ _ => rfl) (fun _ _ _ _ => rfl)
@[simp] theorem State.setQueue_tasks (s : State) (d : DieNo) (c : CellNo) (p : BitVec 4) (l : List QEntry) : (s.setQueue d c p l).tasks = s.tasks :=
  setQueue_keeps (fun t => t.tasks) (fun _ _ => rfl) (fun _ _ _ _ => rfl)
@[simp] theorem State.setQueue_jobs (s : State) (d : DieNo) (c : CellNo) (p : BitVec 4) (l : List QEntry) : (s.setQueue d c p l).jobs = s.jobs :=
  setQueue_keeps (fun t => t.jobs) (fun _ _ => rfl) (fun _ _ _ _ => rfl)
@[simp] theorem State.setQueue_windows (s : State) (d : DieNo) (c : CellNo) (p : BitVec 4) (l : List QEntry) : (s.setQueue d c p l).windows = s.windows :=
  setQueue_keeps (fun t => t.windows) (fun _ _ => rfl) (fun _ _ _ _ => rfl)
@[simp] theorem State.setQueue_sent (s : State) (d : DieNo) (c : CellNo) (p : BitVec 4) (l : List QEntry) : (s.setQueue d c p l).sent = s.sent :=
  setQueue_keeps (fun t => t.sent) (fun _ _ => rfl) (fun _ _ _ _ => rfl)
@[simp] theorem State.setQueue_record (s : State) (d : DieNo) (c : CellNo) (p : BitVec 4) (l : List QEntry) : (s.setQueue d c p l).record = s.record :=
  setQueue_keeps (fun t => t.record) (fun _ _ => rfl) (fun _ _ _ _ => rfl)
@[simp] theorem State.setQueue_mode (s : State) (d : DieNo) (c : CellNo) (p : BitVec 4) (l : List QEntry) : (s.setQueue d c p l).mode = s.mode :=
  setQueue_keeps (fun t => t.mode) (fun _ _ => rfl) (fun _ _ _ _ => rfl)
@[simp] theorem State.setQueue_fails (s : State) (d : DieNo) (c : CellNo) (p : BitVec 4) (l : List QEntry) : (s.setQueue d c p l).fails = s.fails :=
  setQueue_keeps (fun t => t.fails) (fun _ _ => rfl) (fun _ _ _ _ => rfl)
@[simp] theorem State.setQueue_islands (s : State) (d : DieNo) (c : CellNo) (p : BitVec 4) (l : List QEntry) : (s.setQueue d c p l).islands = s.islands :=
  setQueue_keeps (fun t => t.islands) (fun _ _ => rfl) (fun _ _ _ _ => rfl)
@[simp] theorem State.setQueue_changing (s : State) (d : DieNo) (c : CellNo) (p : BitVec 4) (l : List QEntry) : (s.setQueue d c p l).changing = s.changing :=
  setQueue_keeps (fun t => t.changing) (fun _ _ => rfl) (fun _ _ _ _ => rfl)
@[simp] theorem State.setQueue_waitingIslands (s : State) (d : DieNo) (c : CellNo) (p : BitVec 4) (l : List QEntry) : (s.setQueue d c p l).waitingIslands = s.waitingIslands :=
  setQueue_keeps (fun t => t.waitingIslands) (fun _ _ => rfl) (fun _ _ _ _ => rfl)
@[simp] theorem State.setQueue_inFlight (s : State) (d : DieNo) (c : CellNo) (p : BitVec 4) (l : List QEntry) : (s.setQueue d c p l).inFlight = s.inFlight :=
  setQueue_keeps (fun t => t.inFlight) (fun _ _ => rfl) (fun _ _ _ _ => rfl)
@[simp] theorem State.setQueue_accepted (s : State) (d : DieNo) (c : CellNo) (p : BitVec 4) (l : List QEntry) : (s.setQueue d c p l).accepted = s.accepted :=
  setQueue_keeps (fun t => t.accepted) (fun _ _ => rfl) (fun _ _ _ _ => rfl)
@[simp] theorem State.setQueue_transit (s : State) (d : DieNo) (c : CellNo) (p : BitVec 4) (l : List QEntry) : (s.setQueue d c p l).transit = s.transit :=
  setQueue_keeps (fun t => t.transit) (fun _ _ => rfl) (fun _ _ _ _ => rfl)
@[simp] theorem State.setQueue_nextPacket (s : State) (d : DieNo) (c : CellNo) (p : BitVec 4) (l : List QEntry) : (s.setQueue d c p l).nextPacket = s.nextPacket :=
  setQueue_keeps (fun t => t.nextPacket) (fun _ _ => rfl) (fun _ _ _ _ => rfl)
@[simp] theorem State.setQueue_nextHid (s : State) (d : DieNo) (c : CellNo) (p : BitVec 4) (l : List QEntry) : (s.setQueue d c p l).nextHid = s.nextHid :=
  setQueue_keeps (fun t => t.nextHid) (fun _ _ => rfl) (fun _ _ _ _ => rfl)
@[simp] theorem State.setQueue_nextTid (s : State) (d : DieNo) (c : CellNo) (p : BitVec 4) (l : List QEntry) : (s.setQueue d c p l).nextTid = s.nextTid :=
  setQueue_keeps (fun t => t.nextTid) (fun _ _ => rfl) (fun _ _ _ _ => rfl)
@[simp] theorem State.setQueue_nextQid (s : State) (d : DieNo) (c : CellNo) (p : BitVec 4) (l : List QEntry) : (s.setQueue d c p l).nextQid = s.nextQid :=
  setQueue_keeps (fun t => t.nextQid) (fun _ _ => rfl) (fun _ _ _ _ => rfl)
@[simp] theorem State.setQueue_nextOrder (s : State) (d : DieNo) (c : CellNo) (p : BitVec 4) (l : List QEntry) : (s.setQueue d c p l).nextOrder = s.nextOrder :=
  setQueue_keeps (fun t => t.nextOrder) (fun _ _ => rfl) (fun _ _ _ _ => rfl)
@[simp] theorem State.setQueue_agenda (s : State) (d : DieNo) (c : CellNo) (p : BitVec 4) (l : List QEntry) : (s.setQueue d c p l).agenda = s.agenda :=
  setQueue_keeps (fun t => t.agenda) (fun _ _ => rfl) (fun _ _ _ _ => rfl)
@[simp] theorem State.setQueue_fresh (s : State) (d : DieNo) (c : CellNo) (p : BitVec 4) (l : List QEntry) : (s.setQueue d c p l).fresh = s.fresh :=
  setQueue_keeps (fun t => t.fresh) (fun _ _ => rfl) (fun _ _ _ _ => rfl)

/-- Without an open slot of the job its end aborts nothing. -/
theorem State.abortSlots_none {s : State} {j : BitVec 32} (h : s.openSlots j = []) : s.abortSlots j = s := by
  unfold State.abortSlots; rw [h]; rfl

@[simp] theorem State.abortSlots_hart (s : State) (j : BitVec 32) : (s.abortSlots j).hart = s.hart := rfl
@[simp] theorem State.abortSlots_harts (s : State) (j : BitVec 32) : (s.abortSlots j).harts = s.harts := rfl
@[simp] theorem State.abortSlots_cells (s : State) (j : BitVec 32) : (s.abortSlots j).cells = s.cells := rfl
@[simp] theorem State.abortSlots_tasks (s : State) (j : BitVec 32) : (s.abortSlots j).tasks = s.tasks := rfl
@[simp] theorem State.abortSlots_jobs (s : State) (j : BitVec 32) : (s.abortSlots j).jobs = s.jobs := rfl
@[simp] theorem State.abortSlots_windows (s : State) (j : BitVec 32) : (s.abortSlots j).windows = s.windows := rfl
@[simp] theorem State.abortSlots_sent (s : State) (j : BitVec 32) : (s.abortSlots j).sent = s.sent := rfl
@[simp] theorem State.abortSlots_record (s : State) (j : BitVec 32) : (s.abortSlots j).record = s.record := rfl
@[simp] theorem State.abortSlots_mode (s : State) (j : BitVec 32) : (s.abortSlots j).mode = s.mode := rfl
@[simp] theorem State.abortSlots_fails (s : State) (j : BitVec 32) : (s.abortSlots j).fails = s.fails := rfl
@[simp] theorem State.abortSlots_islands (s : State) (j : BitVec 32) : (s.abortSlots j).islands = s.islands := rfl
@[simp] theorem State.abortSlots_changing (s : State) (j : BitVec 32) : (s.abortSlots j).changing = s.changing := rfl
@[simp] theorem State.abortSlots_waitingIslands (s : State) (j : BitVec 32) : (s.abortSlots j).waitingIslands = s.waitingIslands := rfl
@[simp] theorem State.abortSlots_inFlight (s : State) (j : BitVec 32) : (s.abortSlots j).inFlight = s.inFlight := rfl
@[simp] theorem State.abortSlots_accepted (s : State) (j : BitVec 32) : (s.abortSlots j).accepted = s.accepted := rfl
@[simp] theorem State.abortSlots_transit (s : State) (j : BitVec 32) : (s.abortSlots j).transit = s.transit := rfl
@[simp] theorem State.abortSlots_nextPacket (s : State) (j : BitVec 32) : (s.abortSlots j).nextPacket = s.nextPacket := rfl
@[simp] theorem State.abortSlots_nextHid (s : State) (j : BitVec 32) : (s.abortSlots j).nextHid = s.nextHid := rfl
@[simp] theorem State.abortSlots_nextTid (s : State) (j : BitVec 32) : (s.abortSlots j).nextTid = s.nextTid := rfl
@[simp] theorem State.abortSlots_nextQid (s : State) (j : BitVec 32) : (s.abortSlots j).nextQid = s.nextQid := rfl
@[simp] theorem State.abortSlots_nextOrder (s : State) (j : BitVec 32) : (s.abortSlots j).nextOrder = s.nextOrder := rfl
@[simp] theorem State.abortSlots_agenda (s : State) (j : BitVec 32) : (s.abortSlots j).agenda = s.agenda := rfl
@[simp] theorem State.abortSlots_fresh (s : State) (j : BitVec 32) : (s.abortSlots j).fresh = s.fresh := rfl

/-- The abort of a slot leaves every die's other parts as they are; its links for one. -/
@[simp] theorem State.abortSlot_link (s : State) (d : DieNo) (n : Fin 16) (e : DieNo) : (s.abortSlot d n).link e = s.link e := by
  have key (t : State) (m : MergeSlot) : (t.setSlot d n m).link e = t.link e := by
    by_cases h : d = e
    · subst h; simp [State.setSlot, State.setDie, State.link, State.dieOf]
    · have h' : d.val ≠ e.val := fun q => h (Fin.ext q)
      simp [State.setSlot, State.setDie, State.link, State.dieOf, Vector.getElem_set_ne _ _ h']
  cases h : (s.mergeSlot d n).pending with
  | nil => simp only [State.abortSlot, h]; exact key _ _
  | cons c r => simp only [State.abortSlot, h]; exact (key _ _).trans rfl

@[simp] theorem State.abortSlots_link (s : State) (j : BitVec 32) (e : DieNo) : (s.abortSlots j).link e = s.link e := by
  have fold (l : List (DieNo × Fin 16)) (t : State) : (l.foldl (fun s p => s.abortSlot p.1 p.2) t).link e = t.link e := by
    induction l generalizing t with
    | nil => rfl
    | cons p r ih => exact (ih _).trans (t.abortSlot_link p.1 p.2 e)
  exact fold (s.openSlots j) s

@[simp] theorem State.mapHarts_mem (s : State) (f : Hart → Hart) : (s.mapHarts f).mem = s.mem := rfl
@[simp] theorem State.mapHarts_poisoned (s : State) (f : Hart → Hart) : (s.mapHarts f).poisoned = s.poisoned := rfl
@[simp] theorem State.mapHarts_uncorrectable (s : State) (f : Hart → Hart) : (s.mapHarts f).uncorrectable = s.uncorrectable := rfl
@[simp] theorem State.mapHarts_cells (s : State) (f : Hart → Hart) : (s.mapHarts f).cells = s.cells := rfl
@[simp] theorem State.mapHarts_dies (s : State) (f : Hart → Hart) : (s.mapHarts f).dies = s.dies := rfl
@[simp] theorem State.mapHarts_tasks (s : State) (f : Hart → Hart) : (s.mapHarts f).tasks = s.tasks := rfl
@[simp] theorem State.mapHarts_jobs (s : State) (f : Hart → Hart) : (s.mapHarts f).jobs = s.jobs := rfl
@[simp] theorem State.mapHarts_windows (s : State) (f : Hart → Hart) : (s.mapHarts f).windows = s.windows := rfl
@[simp] theorem State.mapHarts_sent (s : State) (f : Hart → Hart) : (s.mapHarts f).sent = s.sent := rfl
@[simp] theorem State.mapHarts_record (s : State) (f : Hart → Hart) : (s.mapHarts f).record = s.record := rfl
@[simp] theorem State.mapHarts_mode (s : State) (f : Hart → Hart) : (s.mapHarts f).mode = s.mode := rfl
@[simp] theorem State.mapHarts_fails (s : State) (f : Hart → Hart) : (s.mapHarts f).fails = s.fails := rfl
@[simp] theorem State.mapHarts_islands (s : State) (f : Hart → Hart) : (s.mapHarts f).islands = s.islands := rfl
@[simp] theorem State.mapHarts_changing (s : State) (f : Hart → Hart) : (s.mapHarts f).changing = s.changing := rfl
@[simp] theorem State.mapHarts_waitingIslands (s : State) (f : Hart → Hart) : (s.mapHarts f).waitingIslands = s.waitingIslands := rfl
@[simp] theorem State.mapHarts_inFlight (s : State) (f : Hart → Hart) : (s.mapHarts f).inFlight = s.inFlight := rfl
@[simp] theorem State.mapHarts_accepted (s : State) (f : Hart → Hart) : (s.mapHarts f).accepted = s.accepted := rfl
@[simp] theorem State.mapHarts_transit (s : State) (f : Hart → Hart) : (s.mapHarts f).transit = s.transit := rfl
@[simp] theorem State.mapHarts_nextPacket (s : State) (f : Hart → Hart) : (s.mapHarts f).nextPacket = s.nextPacket := rfl
@[simp] theorem State.mapHarts_nextHid (s : State) (f : Hart → Hart) : (s.mapHarts f).nextHid = s.nextHid := rfl
@[simp] theorem State.mapHarts_nextTid (s : State) (f : Hart → Hart) : (s.mapHarts f).nextTid = s.nextTid := rfl
@[simp] theorem State.mapHarts_nextQid (s : State) (f : Hart → Hart) : (s.mapHarts f).nextQid = s.nextQid := rfl
@[simp] theorem State.mapHarts_nextOrder (s : State) (f : Hart → Hart) : (s.mapHarts f).nextOrder = s.nextOrder := rfl
@[simp] theorem State.mapHarts_agenda (s : State) (f : Hart → Hart) : (s.mapHarts f).agenda = s.agenda := rfl
@[simp] theorem State.mapHarts_fresh (s : State) (f : Hart → Hart) : (s.mapHarts f).fresh = s.fresh := rfl

@[simp] theorem State.park_mem (s : State) (m : WaitMark) : (s.park m).mem = s.mem := rfl
@[simp] theorem State.park_poisoned (s : State) (m : WaitMark) : (s.park m).poisoned = s.poisoned := rfl
@[simp] theorem State.park_uncorrectable (s : State) (m : WaitMark) : (s.park m).uncorrectable = s.uncorrectable := rfl
@[simp] theorem State.park_harts (s : State) (m : WaitMark) : (s.park m).harts = s.harts := rfl
@[simp] theorem State.park_cells (s : State) (m : WaitMark) : (s.park m).cells = s.cells := rfl
@[simp] theorem State.park_dies (s : State) (m : WaitMark) : (s.park m).dies = s.dies := rfl
@[simp] theorem State.park_tasks (s : State) (m : WaitMark) : (s.park m).tasks = s.tasks := rfl
@[simp] theorem State.park_jobs (s : State) (m : WaitMark) : (s.park m).jobs = s.jobs := rfl
@[simp] theorem State.park_windows (s : State) (m : WaitMark) : (s.park m).windows = s.windows := rfl
@[simp] theorem State.park_sent (s : State) (m : WaitMark) : (s.park m).sent = s.sent := rfl
@[simp] theorem State.park_record (s : State) (m : WaitMark) : (s.park m).record = s.record := rfl
@[simp] theorem State.park_mode (s : State) (m : WaitMark) : (s.park m).mode = s.mode := rfl
@[simp] theorem State.park_fails (s : State) (m : WaitMark) : (s.park m).fails = s.fails := rfl
@[simp] theorem State.park_islands (s : State) (m : WaitMark) : (s.park m).islands = s.islands := rfl
@[simp] theorem State.park_changing (s : State) (m : WaitMark) : (s.park m).changing = s.changing := rfl
@[simp] theorem State.park_waitingIslands (s : State) (m : WaitMark) : (s.park m).waitingIslands = s.waitingIslands := rfl
@[simp] theorem State.park_inFlight (s : State) (m : WaitMark) : (s.park m).inFlight = s.inFlight := rfl
@[simp] theorem State.park_accepted (s : State) (m : WaitMark) : (s.park m).accepted = s.accepted := rfl
@[simp] theorem State.park_transit (s : State) (m : WaitMark) : (s.park m).transit = s.transit := rfl
@[simp] theorem State.park_nextPacket (s : State) (m : WaitMark) : (s.park m).nextPacket = s.nextPacket := rfl
@[simp] theorem State.park_nextHid (s : State) (m : WaitMark) : (s.park m).nextHid = s.nextHid := rfl
@[simp] theorem State.park_nextTid (s : State) (m : WaitMark) : (s.park m).nextTid = s.nextTid := rfl
@[simp] theorem State.park_nextQid (s : State) (m : WaitMark) : (s.park m).nextQid = s.nextQid := rfl
@[simp] theorem State.park_nextOrder (s : State) (m : WaitMark) : (s.park m).nextOrder = s.nextOrder := rfl
@[simp] theorem State.park_agenda (s : State) (m : WaitMark) : (s.park m).agenda = s.agenda := rfl
@[simp] theorem State.park_fresh (s : State) (m : WaitMark) : (s.park m).fresh = s.fresh := rfl

@[simp] theorem State.vacate_mem (s : State) : (s.vacate).mem = s.mem := rfl
@[simp] theorem State.vacate_poisoned (s : State) : (s.vacate).poisoned = s.poisoned := rfl
@[simp] theorem State.vacate_uncorrectable (s : State) : (s.vacate).uncorrectable = s.uncorrectable := rfl
@[simp] theorem State.vacate_harts (s : State) : (s.vacate).harts = s.harts := rfl
@[simp] theorem State.vacate_cells (s : State) : (s.vacate).cells = s.cells := rfl
@[simp] theorem State.vacate_dies (s : State) : (s.vacate).dies = s.dies := rfl
@[simp] theorem State.vacate_tasks (s : State) : (s.vacate).tasks = s.tasks := rfl
@[simp] theorem State.vacate_jobs (s : State) : (s.vacate).jobs = s.jobs := rfl
@[simp] theorem State.vacate_windows (s : State) : (s.vacate).windows = s.windows := rfl
@[simp] theorem State.vacate_sent (s : State) : (s.vacate).sent = s.sent := rfl
@[simp] theorem State.vacate_record (s : State) : (s.vacate).record = s.record := rfl
@[simp] theorem State.vacate_mode (s : State) : (s.vacate).mode = s.mode := rfl
@[simp] theorem State.vacate_fails (s : State) : (s.vacate).fails = s.fails := rfl
@[simp] theorem State.vacate_islands (s : State) : (s.vacate).islands = s.islands := rfl
@[simp] theorem State.vacate_changing (s : State) : (s.vacate).changing = s.changing := rfl
@[simp] theorem State.vacate_waitingIslands (s : State) : (s.vacate).waitingIslands = s.waitingIslands := rfl
@[simp] theorem State.vacate_inFlight (s : State) : (s.vacate).inFlight = s.inFlight := rfl
@[simp] theorem State.vacate_accepted (s : State) : (s.vacate).accepted = s.accepted := rfl
@[simp] theorem State.vacate_transit (s : State) : (s.vacate).transit = s.transit := rfl
@[simp] theorem State.vacate_nextPacket (s : State) : (s.vacate).nextPacket = s.nextPacket := rfl
@[simp] theorem State.vacate_nextHid (s : State) : (s.vacate).nextHid = s.nextHid := rfl
@[simp] theorem State.vacate_nextTid (s : State) : (s.vacate).nextTid = s.nextTid := rfl
@[simp] theorem State.vacate_nextQid (s : State) : (s.vacate).nextQid = s.nextQid := rfl
@[simp] theorem State.vacate_nextOrder (s : State) : (s.vacate).nextOrder = s.nextOrder := rfl
@[simp] theorem State.vacate_agenda (s : State) : (s.vacate).agenda = s.agenda := rfl
@[simp] theorem State.vacate_fresh (s : State) : (s.vacate).fresh = s.fresh := rfl

@[simp] theorem State.cancelCards_mem (s : State) (d : DieNo) (p : Card → Bool) : (s.cancelCards d p).mem = s.mem := rfl
@[simp] theorem State.cancelCards_poisoned (s : State) (d : DieNo) (p : Card → Bool) : (s.cancelCards d p).poisoned = s.poisoned := rfl
@[simp] theorem State.cancelCards_uncorrectable (s : State) (d : DieNo) (p : Card → Bool) : (s.cancelCards d p).uncorrectable = s.uncorrectable := rfl
@[simp] theorem State.cancelCards_hart (s : State) (d : DieNo) (p : Card → Bool) : (s.cancelCards d p).hart = s.hart := rfl
@[simp] theorem State.cancelCards_harts (s : State) (d : DieNo) (p : Card → Bool) : (s.cancelCards d p).harts = s.harts := rfl
@[simp] theorem State.cancelCards_cells (s : State) (d : DieNo) (p : Card → Bool) : (s.cancelCards d p).cells = s.cells := rfl
@[simp] theorem State.cancelCards_tasks (s : State) (d : DieNo) (p : Card → Bool) : (s.cancelCards d p).tasks = s.tasks := rfl
@[simp] theorem State.cancelCards_jobs (s : State) (d : DieNo) (p : Card → Bool) : (s.cancelCards d p).jobs = s.jobs := rfl
@[simp] theorem State.cancelCards_windows (s : State) (d : DieNo) (p : Card → Bool) : (s.cancelCards d p).windows = s.windows := rfl
@[simp] theorem State.cancelCards_sent (s : State) (d : DieNo) (p : Card → Bool) : (s.cancelCards d p).sent = s.sent := rfl
@[simp] theorem State.cancelCards_record (s : State) (d : DieNo) (p : Card → Bool) : (s.cancelCards d p).record = s.record := rfl
@[simp] theorem State.cancelCards_mode (s : State) (d : DieNo) (p : Card → Bool) : (s.cancelCards d p).mode = s.mode := rfl
@[simp] theorem State.cancelCards_fails (s : State) (d : DieNo) (p : Card → Bool) : (s.cancelCards d p).fails = s.fails := rfl
@[simp] theorem State.cancelCards_islands (s : State) (d : DieNo) (p : Card → Bool) : (s.cancelCards d p).islands = s.islands := rfl
@[simp] theorem State.cancelCards_changing (s : State) (d : DieNo) (p : Card → Bool) : (s.cancelCards d p).changing = s.changing := rfl
@[simp] theorem State.cancelCards_waitingIslands (s : State) (d : DieNo) (p : Card → Bool) : (s.cancelCards d p).waitingIslands = s.waitingIslands := rfl
@[simp] theorem State.cancelCards_inFlight (s : State) (d : DieNo) (p : Card → Bool) : (s.cancelCards d p).inFlight = s.inFlight := rfl
@[simp] theorem State.cancelCards_accepted (s : State) (d : DieNo) (p : Card → Bool) : (s.cancelCards d p).accepted = s.accepted := rfl
@[simp] theorem State.cancelCards_transit (s : State) (d : DieNo) (p : Card → Bool) : (s.cancelCards d p).transit = s.transit := rfl
@[simp] theorem State.cancelCards_nextPacket (s : State) (d : DieNo) (p : Card → Bool) : (s.cancelCards d p).nextPacket = s.nextPacket := rfl
@[simp] theorem State.cancelCards_nextHid (s : State) (d : DieNo) (p : Card → Bool) : (s.cancelCards d p).nextHid = s.nextHid := rfl
@[simp] theorem State.cancelCards_nextTid (s : State) (d : DieNo) (p : Card → Bool) : (s.cancelCards d p).nextTid = s.nextTid := rfl
@[simp] theorem State.cancelCards_nextQid (s : State) (d : DieNo) (p : Card → Bool) : (s.cancelCards d p).nextQid = s.nextQid := rfl
@[simp] theorem State.cancelCards_nextOrder (s : State) (d : DieNo) (p : Card → Bool) : (s.cancelCards d p).nextOrder = s.nextOrder := rfl
@[simp] theorem State.cancelCards_agenda (s : State) (d : DieNo) (p : Card → Bool) : (s.cancelCards d p).agenda = s.agenda := rfl
@[simp] theorem State.cancelCards_fresh (s : State) (d : DieNo) (p : Card → Bool) : (s.cancelCards d p).fresh = s.fresh := rfl

@[simp] theorem State.retireCards_mem (s : State) (d : DieNo) (p : Card → Bool) : (s.retireCards d p).mem = s.mem := rfl
@[simp] theorem State.retireCards_poisoned (s : State) (d : DieNo) (p : Card → Bool) : (s.retireCards d p).poisoned = s.poisoned := rfl
@[simp] theorem State.retireCards_uncorrectable (s : State) (d : DieNo) (p : Card → Bool) : (s.retireCards d p).uncorrectable = s.uncorrectable := rfl
@[simp] theorem State.retireCards_hart (s : State) (d : DieNo) (p : Card → Bool) : (s.retireCards d p).hart = s.hart := rfl
@[simp] theorem State.retireCards_harts (s : State) (d : DieNo) (p : Card → Bool) : (s.retireCards d p).harts = s.harts := rfl
@[simp] theorem State.retireCards_cells (s : State) (d : DieNo) (p : Card → Bool) : (s.retireCards d p).cells = s.cells := rfl
@[simp] theorem State.retireCards_tasks (s : State) (d : DieNo) (p : Card → Bool) : (s.retireCards d p).tasks = s.tasks := rfl
@[simp] theorem State.retireCards_jobs (s : State) (d : DieNo) (p : Card → Bool) : (s.retireCards d p).jobs = s.jobs := rfl
@[simp] theorem State.retireCards_windows (s : State) (d : DieNo) (p : Card → Bool) : (s.retireCards d p).windows = s.windows := rfl
@[simp] theorem State.retireCards_sent (s : State) (d : DieNo) (p : Card → Bool) : (s.retireCards d p).sent = s.sent := rfl
@[simp] theorem State.retireCards_record (s : State) (d : DieNo) (p : Card → Bool) : (s.retireCards d p).record = s.record := rfl
@[simp] theorem State.retireCards_mode (s : State) (d : DieNo) (p : Card → Bool) : (s.retireCards d p).mode = s.mode := rfl
@[simp] theorem State.retireCards_fails (s : State) (d : DieNo) (p : Card → Bool) : (s.retireCards d p).fails = s.fails := rfl
@[simp] theorem State.retireCards_islands (s : State) (d : DieNo) (p : Card → Bool) : (s.retireCards d p).islands = s.islands := rfl
@[simp] theorem State.retireCards_changing (s : State) (d : DieNo) (p : Card → Bool) : (s.retireCards d p).changing = s.changing := rfl
@[simp] theorem State.retireCards_waitingIslands (s : State) (d : DieNo) (p : Card → Bool) : (s.retireCards d p).waitingIslands = s.waitingIslands := rfl
@[simp] theorem State.retireCards_inFlight (s : State) (d : DieNo) (p : Card → Bool) : (s.retireCards d p).inFlight = s.inFlight := rfl
@[simp] theorem State.retireCards_accepted (s : State) (d : DieNo) (p : Card → Bool) : (s.retireCards d p).accepted = s.accepted := rfl
@[simp] theorem State.retireCards_transit (s : State) (d : DieNo) (p : Card → Bool) : (s.retireCards d p).transit = s.transit := rfl
@[simp] theorem State.retireCards_nextPacket (s : State) (d : DieNo) (p : Card → Bool) : (s.retireCards d p).nextPacket = s.nextPacket := rfl
@[simp] theorem State.retireCards_nextHid (s : State) (d : DieNo) (p : Card → Bool) : (s.retireCards d p).nextHid = s.nextHid := rfl
@[simp] theorem State.retireCards_nextTid (s : State) (d : DieNo) (p : Card → Bool) : (s.retireCards d p).nextTid = s.nextTid := rfl
@[simp] theorem State.retireCards_nextQid (s : State) (d : DieNo) (p : Card → Bool) : (s.retireCards d p).nextQid = s.nextQid := rfl
@[simp] theorem State.retireCards_nextOrder (s : State) (d : DieNo) (p : Card → Bool) : (s.retireCards d p).nextOrder = s.nextOrder := rfl
@[simp] theorem State.retireCards_agenda (s : State) (d : DieNo) (p : Card → Bool) : (s.retireCards d p).agenda = s.agenda := rfl
@[simp] theorem State.retireCards_fresh (s : State) (d : DieNo) (p : Card → Bool) : (s.retireCards d p).fresh = s.fresh := rfl

@[simp] theorem State.dropAnvil_mem (s : State) (h : Hart) : (s.dropAnvil h).mem = s.mem := rfl
@[simp] theorem State.dropAnvil_poisoned (s : State) (h : Hart) : (s.dropAnvil h).poisoned = s.poisoned := rfl
@[simp] theorem State.dropAnvil_uncorrectable (s : State) (h : Hart) : (s.dropAnvil h).uncorrectable = s.uncorrectable := rfl
@[simp] theorem State.dropAnvil_hart (s : State) (h : Hart) : (s.dropAnvil h).hart = s.hart := rfl
@[simp] theorem State.dropAnvil_harts (s : State) (h : Hart) : (s.dropAnvil h).harts = s.harts := rfl
@[simp] theorem State.dropAnvil_dies (s : State) (h : Hart) : (s.dropAnvil h).dies = s.dies := rfl
@[simp] theorem State.dropAnvil_tasks (s : State) (h : Hart) : (s.dropAnvil h).tasks = s.tasks := rfl
@[simp] theorem State.dropAnvil_jobs (s : State) (h : Hart) : (s.dropAnvil h).jobs = s.jobs := rfl
@[simp] theorem State.dropAnvil_windows (s : State) (h : Hart) : (s.dropAnvil h).windows = s.windows := rfl
@[simp] theorem State.dropAnvil_sent (s : State) (h : Hart) : (s.dropAnvil h).sent = s.sent := rfl
@[simp] theorem State.dropAnvil_record (s : State) (h : Hart) : (s.dropAnvil h).record = s.record := rfl
@[simp] theorem State.dropAnvil_mode (s : State) (h : Hart) : (s.dropAnvil h).mode = s.mode := rfl
@[simp] theorem State.dropAnvil_fails (s : State) (h : Hart) : (s.dropAnvil h).fails = s.fails := rfl
@[simp] theorem State.dropAnvil_islands (s : State) (h : Hart) : (s.dropAnvil h).islands = s.islands := rfl
@[simp] theorem State.dropAnvil_changing (s : State) (h : Hart) : (s.dropAnvil h).changing = s.changing := rfl
@[simp] theorem State.dropAnvil_waitingIslands (s : State) (h : Hart) : (s.dropAnvil h).waitingIslands = s.waitingIslands := rfl
@[simp] theorem State.dropAnvil_inFlight (s : State) (h : Hart) : (s.dropAnvil h).inFlight = s.inFlight := rfl
@[simp] theorem State.dropAnvil_accepted (s : State) (h : Hart) : (s.dropAnvil h).accepted = s.accepted := rfl
@[simp] theorem State.dropAnvil_transit (s : State) (h : Hart) : (s.dropAnvil h).transit = s.transit := rfl
@[simp] theorem State.dropAnvil_nextPacket (s : State) (h : Hart) : (s.dropAnvil h).nextPacket = s.nextPacket := rfl
@[simp] theorem State.dropAnvil_nextHid (s : State) (h : Hart) : (s.dropAnvil h).nextHid = s.nextHid := rfl
@[simp] theorem State.dropAnvil_nextTid (s : State) (h : Hart) : (s.dropAnvil h).nextTid = s.nextTid := rfl
@[simp] theorem State.dropAnvil_nextQid (s : State) (h : Hart) : (s.dropAnvil h).nextQid = s.nextQid := rfl
@[simp] theorem State.dropAnvil_nextOrder (s : State) (h : Hart) : (s.dropAnvil h).nextOrder = s.nextOrder := rfl
@[simp] theorem State.dropAnvil_agenda (s : State) (h : Hart) : (s.dropAnvil h).agenda = s.agenda := rfl
@[simp] theorem State.dropAnvil_fresh (s : State) (h : Hart) : (s.dropAnvil h).fresh = s.fresh := rfl

@[simp] theorem State.dropHead_mem (s : State) : (s.dropHead).mem = s.mem := rfl
@[simp] theorem State.dropHead_poisoned (s : State) : (s.dropHead).poisoned = s.poisoned := rfl
@[simp] theorem State.dropHead_uncorrectable (s : State) : (s.dropHead).uncorrectable = s.uncorrectable := rfl
@[simp] theorem State.dropHead_harts (s : State) : (s.dropHead).harts = s.harts := rfl
@[simp] theorem State.dropHead_cells (s : State) : (s.dropHead).cells = s.cells := rfl
@[simp] theorem State.dropHead_dies (s : State) : (s.dropHead).dies = s.dies := rfl
@[simp] theorem State.dropHead_tasks (s : State) : (s.dropHead).tasks = s.tasks := rfl
@[simp] theorem State.dropHead_jobs (s : State) : (s.dropHead).jobs = s.jobs := rfl
@[simp] theorem State.dropHead_windows (s : State) : (s.dropHead).windows = s.windows := rfl
@[simp] theorem State.dropHead_sent (s : State) : (s.dropHead).sent = s.sent := rfl
@[simp] theorem State.dropHead_record (s : State) : (s.dropHead).record = s.record := rfl
@[simp] theorem State.dropHead_mode (s : State) : (s.dropHead).mode = s.mode := rfl
@[simp] theorem State.dropHead_fails (s : State) : (s.dropHead).fails = s.fails := rfl
@[simp] theorem State.dropHead_islands (s : State) : (s.dropHead).islands = s.islands := rfl
@[simp] theorem State.dropHead_changing (s : State) : (s.dropHead).changing = s.changing := rfl
@[simp] theorem State.dropHead_waitingIslands (s : State) : (s.dropHead).waitingIslands = s.waitingIslands := rfl
@[simp] theorem State.dropHead_inFlight (s : State) : (s.dropHead).inFlight = s.inFlight := rfl
@[simp] theorem State.dropHead_accepted (s : State) : (s.dropHead).accepted = s.accepted := rfl
@[simp] theorem State.dropHead_transit (s : State) : (s.dropHead).transit = s.transit := rfl
@[simp] theorem State.dropHead_nextPacket (s : State) : (s.dropHead).nextPacket = s.nextPacket := rfl
@[simp] theorem State.dropHead_nextHid (s : State) : (s.dropHead).nextHid = s.nextHid := rfl
@[simp] theorem State.dropHead_nextTid (s : State) : (s.dropHead).nextTid = s.nextTid := rfl
@[simp] theorem State.dropHead_nextQid (s : State) : (s.dropHead).nextQid = s.nextQid := rfl
@[simp] theorem State.dropHead_nextOrder (s : State) : (s.dropHead).nextOrder = s.nextOrder := rfl
@[simp] theorem State.dropHead_agenda (s : State) : (s.dropHead).agenda = s.agenda := rfl
@[simp] theorem State.dropHead_fresh (s : State) : (s.dropHead).fresh = s.fresh := rfl

@[simp] theorem State.setHandle_mem (s : State) (n : HReg) (x : Handle) : (s.setHandle n x).mem = s.mem := rfl
@[simp] theorem State.setHandle_poisoned (s : State) (n : HReg) (x : Handle) : (s.setHandle n x).poisoned = s.poisoned := rfl
@[simp] theorem State.setHandle_uncorrectable (s : State) (n : HReg) (x : Handle) : (s.setHandle n x).uncorrectable = s.uncorrectable := rfl
@[simp] theorem State.setHandle_harts (s : State) (n : HReg) (x : Handle) : (s.setHandle n x).harts = s.harts := rfl
@[simp] theorem State.setHandle_cells (s : State) (n : HReg) (x : Handle) : (s.setHandle n x).cells = s.cells := rfl
@[simp] theorem State.setHandle_dies (s : State) (n : HReg) (x : Handle) : (s.setHandle n x).dies = s.dies := rfl
@[simp] theorem State.setHandle_tasks (s : State) (n : HReg) (x : Handle) : (s.setHandle n x).tasks = s.tasks := rfl
@[simp] theorem State.setHandle_jobs (s : State) (n : HReg) (x : Handle) : (s.setHandle n x).jobs = s.jobs := rfl
@[simp] theorem State.setHandle_windows (s : State) (n : HReg) (x : Handle) : (s.setHandle n x).windows = s.windows := rfl
@[simp] theorem State.setHandle_sent (s : State) (n : HReg) (x : Handle) : (s.setHandle n x).sent = s.sent := rfl
@[simp] theorem State.setHandle_record (s : State) (n : HReg) (x : Handle) : (s.setHandle n x).record = s.record := rfl
@[simp] theorem State.setHandle_mode (s : State) (n : HReg) (x : Handle) : (s.setHandle n x).mode = s.mode := rfl
@[simp] theorem State.setHandle_fails (s : State) (n : HReg) (x : Handle) : (s.setHandle n x).fails = s.fails := rfl
@[simp] theorem State.setHandle_islands (s : State) (n : HReg) (x : Handle) : (s.setHandle n x).islands = s.islands := rfl
@[simp] theorem State.setHandle_changing (s : State) (n : HReg) (x : Handle) : (s.setHandle n x).changing = s.changing := rfl
@[simp] theorem State.setHandle_waitingIslands (s : State) (n : HReg) (x : Handle) : (s.setHandle n x).waitingIslands = s.waitingIslands := rfl
@[simp] theorem State.setHandle_inFlight (s : State) (n : HReg) (x : Handle) : (s.setHandle n x).inFlight = s.inFlight := rfl
@[simp] theorem State.setHandle_accepted (s : State) (n : HReg) (x : Handle) : (s.setHandle n x).accepted = s.accepted := rfl
@[simp] theorem State.setHandle_transit (s : State) (n : HReg) (x : Handle) : (s.setHandle n x).transit = s.transit := rfl
@[simp] theorem State.setHandle_nextPacket (s : State) (n : HReg) (x : Handle) : (s.setHandle n x).nextPacket = s.nextPacket := rfl
@[simp] theorem State.setHandle_nextHid (s : State) (n : HReg) (x : Handle) : (s.setHandle n x).nextHid = s.nextHid := rfl
@[simp] theorem State.setHandle_nextTid (s : State) (n : HReg) (x : Handle) : (s.setHandle n x).nextTid = s.nextTid := rfl
@[simp] theorem State.setHandle_nextQid (s : State) (n : HReg) (x : Handle) : (s.setHandle n x).nextQid = s.nextQid := rfl
@[simp] theorem State.setHandle_nextOrder (s : State) (n : HReg) (x : Handle) : (s.setHandle n x).nextOrder = s.nextOrder := rfl
@[simp] theorem State.setHandle_agenda (s : State) (n : HReg) (x : Handle) : (s.setHandle n x).agenda = s.agenda := rfl
@[simp] theorem State.setHandle_fresh (s : State) (n : HReg) (x : Handle) : (s.setHandle n x).fresh = s.fresh := rfl

@[simp] theorem State.setArrival_mem (s : State) (d : DieNo) (n : Fin 64) (x : Arrival) : (s.setArrival d n x).mem = s.mem := rfl
@[simp] theorem State.setArrival_poisoned (s : State) (d : DieNo) (n : Fin 64) (x : Arrival) : (s.setArrival d n x).poisoned = s.poisoned := rfl
@[simp] theorem State.setArrival_uncorrectable (s : State) (d : DieNo) (n : Fin 64) (x : Arrival) : (s.setArrival d n x).uncorrectable = s.uncorrectable := rfl
@[simp] theorem State.setArrival_hart (s : State) (d : DieNo) (n : Fin 64) (x : Arrival) : (s.setArrival d n x).hart = s.hart := rfl
@[simp] theorem State.setArrival_harts (s : State) (d : DieNo) (n : Fin 64) (x : Arrival) : (s.setArrival d n x).harts = s.harts := rfl
@[simp] theorem State.setArrival_cells (s : State) (d : DieNo) (n : Fin 64) (x : Arrival) : (s.setArrival d n x).cells = s.cells := rfl
@[simp] theorem State.setArrival_tasks (s : State) (d : DieNo) (n : Fin 64) (x : Arrival) : (s.setArrival d n x).tasks = s.tasks := rfl
@[simp] theorem State.setArrival_jobs (s : State) (d : DieNo) (n : Fin 64) (x : Arrival) : (s.setArrival d n x).jobs = s.jobs := rfl
@[simp] theorem State.setArrival_windows (s : State) (d : DieNo) (n : Fin 64) (x : Arrival) : (s.setArrival d n x).windows = s.windows := rfl
@[simp] theorem State.setArrival_sent (s : State) (d : DieNo) (n : Fin 64) (x : Arrival) : (s.setArrival d n x).sent = s.sent := rfl
@[simp] theorem State.setArrival_record (s : State) (d : DieNo) (n : Fin 64) (x : Arrival) : (s.setArrival d n x).record = s.record := rfl
@[simp] theorem State.setArrival_mode (s : State) (d : DieNo) (n : Fin 64) (x : Arrival) : (s.setArrival d n x).mode = s.mode := rfl
@[simp] theorem State.setArrival_fails (s : State) (d : DieNo) (n : Fin 64) (x : Arrival) : (s.setArrival d n x).fails = s.fails := rfl
@[simp] theorem State.setArrival_islands (s : State) (d : DieNo) (n : Fin 64) (x : Arrival) : (s.setArrival d n x).islands = s.islands := rfl
@[simp] theorem State.setArrival_changing (s : State) (d : DieNo) (n : Fin 64) (x : Arrival) : (s.setArrival d n x).changing = s.changing := rfl
@[simp] theorem State.setArrival_waitingIslands (s : State) (d : DieNo) (n : Fin 64) (x : Arrival) : (s.setArrival d n x).waitingIslands = s.waitingIslands := rfl
@[simp] theorem State.setArrival_inFlight (s : State) (d : DieNo) (n : Fin 64) (x : Arrival) : (s.setArrival d n x).inFlight = s.inFlight := rfl
@[simp] theorem State.setArrival_accepted (s : State) (d : DieNo) (n : Fin 64) (x : Arrival) : (s.setArrival d n x).accepted = s.accepted := rfl
@[simp] theorem State.setArrival_transit (s : State) (d : DieNo) (n : Fin 64) (x : Arrival) : (s.setArrival d n x).transit = s.transit := rfl
@[simp] theorem State.setArrival_nextPacket (s : State) (d : DieNo) (n : Fin 64) (x : Arrival) : (s.setArrival d n x).nextPacket = s.nextPacket := rfl
@[simp] theorem State.setArrival_nextHid (s : State) (d : DieNo) (n : Fin 64) (x : Arrival) : (s.setArrival d n x).nextHid = s.nextHid := rfl
@[simp] theorem State.setArrival_nextTid (s : State) (d : DieNo) (n : Fin 64) (x : Arrival) : (s.setArrival d n x).nextTid = s.nextTid := rfl
@[simp] theorem State.setArrival_nextQid (s : State) (d : DieNo) (n : Fin 64) (x : Arrival) : (s.setArrival d n x).nextQid = s.nextQid := rfl
@[simp] theorem State.setArrival_nextOrder (s : State) (d : DieNo) (n : Fin 64) (x : Arrival) : (s.setArrival d n x).nextOrder = s.nextOrder := rfl
@[simp] theorem State.setArrival_agenda (s : State) (d : DieNo) (n : Fin 64) (x : Arrival) : (s.setArrival d n x).agenda = s.agenda := rfl
@[simp] theorem State.setArrival_fresh (s : State) (d : DieNo) (n : Fin 64) (x : Arrival) : (s.setArrival d n x).fresh = s.fresh := rfl

@[simp] theorem State.setSlot_mem (s : State) (d : DieNo) (n : Fin 16) (m : MergeSlot) : (s.setSlot d n m).mem = s.mem := rfl
@[simp] theorem State.setSlot_poisoned (s : State) (d : DieNo) (n : Fin 16) (m : MergeSlot) : (s.setSlot d n m).poisoned = s.poisoned := rfl
@[simp] theorem State.setSlot_uncorrectable (s : State) (d : DieNo) (n : Fin 16) (m : MergeSlot) : (s.setSlot d n m).uncorrectable = s.uncorrectable := rfl
@[simp] theorem State.setSlot_hart (s : State) (d : DieNo) (n : Fin 16) (m : MergeSlot) : (s.setSlot d n m).hart = s.hart := rfl
@[simp] theorem State.setSlot_harts (s : State) (d : DieNo) (n : Fin 16) (m : MergeSlot) : (s.setSlot d n m).harts = s.harts := rfl
@[simp] theorem State.setSlot_cells (s : State) (d : DieNo) (n : Fin 16) (m : MergeSlot) : (s.setSlot d n m).cells = s.cells := rfl
@[simp] theorem State.setSlot_tasks (s : State) (d : DieNo) (n : Fin 16) (m : MergeSlot) : (s.setSlot d n m).tasks = s.tasks := rfl
@[simp] theorem State.setSlot_jobs (s : State) (d : DieNo) (n : Fin 16) (m : MergeSlot) : (s.setSlot d n m).jobs = s.jobs := rfl
@[simp] theorem State.setSlot_windows (s : State) (d : DieNo) (n : Fin 16) (m : MergeSlot) : (s.setSlot d n m).windows = s.windows := rfl
@[simp] theorem State.setSlot_sent (s : State) (d : DieNo) (n : Fin 16) (m : MergeSlot) : (s.setSlot d n m).sent = s.sent := rfl
@[simp] theorem State.setSlot_record (s : State) (d : DieNo) (n : Fin 16) (m : MergeSlot) : (s.setSlot d n m).record = s.record := rfl
@[simp] theorem State.setSlot_mode (s : State) (d : DieNo) (n : Fin 16) (m : MergeSlot) : (s.setSlot d n m).mode = s.mode := rfl
@[simp] theorem State.setSlot_fails (s : State) (d : DieNo) (n : Fin 16) (m : MergeSlot) : (s.setSlot d n m).fails = s.fails := rfl
@[simp] theorem State.setSlot_islands (s : State) (d : DieNo) (n : Fin 16) (m : MergeSlot) : (s.setSlot d n m).islands = s.islands := rfl
@[simp] theorem State.setSlot_changing (s : State) (d : DieNo) (n : Fin 16) (m : MergeSlot) : (s.setSlot d n m).changing = s.changing := rfl
@[simp] theorem State.setSlot_waitingIslands (s : State) (d : DieNo) (n : Fin 16) (m : MergeSlot) : (s.setSlot d n m).waitingIslands = s.waitingIslands := rfl
@[simp] theorem State.setSlot_inFlight (s : State) (d : DieNo) (n : Fin 16) (m : MergeSlot) : (s.setSlot d n m).inFlight = s.inFlight := rfl
@[simp] theorem State.setSlot_accepted (s : State) (d : DieNo) (n : Fin 16) (m : MergeSlot) : (s.setSlot d n m).accepted = s.accepted := rfl
@[simp] theorem State.setSlot_transit (s : State) (d : DieNo) (n : Fin 16) (m : MergeSlot) : (s.setSlot d n m).transit = s.transit := rfl
@[simp] theorem State.setSlot_nextPacket (s : State) (d : DieNo) (n : Fin 16) (m : MergeSlot) : (s.setSlot d n m).nextPacket = s.nextPacket := rfl
@[simp] theorem State.setSlot_nextHid (s : State) (d : DieNo) (n : Fin 16) (m : MergeSlot) : (s.setSlot d n m).nextHid = s.nextHid := rfl
@[simp] theorem State.setSlot_nextTid (s : State) (d : DieNo) (n : Fin 16) (m : MergeSlot) : (s.setSlot d n m).nextTid = s.nextTid := rfl
@[simp] theorem State.setSlot_nextQid (s : State) (d : DieNo) (n : Fin 16) (m : MergeSlot) : (s.setSlot d n m).nextQid = s.nextQid := rfl
@[simp] theorem State.setSlot_nextOrder (s : State) (d : DieNo) (n : Fin 16) (m : MergeSlot) : (s.setSlot d n m).nextOrder = s.nextOrder := rfl
@[simp] theorem State.setSlot_agenda (s : State) (d : DieNo) (n : Fin 16) (m : MergeSlot) : (s.setSlot d n m).agenda = s.agenda := rfl
@[simp] theorem State.setSlot_fresh (s : State) (d : DieNo) (n : Fin 16) (m : MergeSlot) : (s.setSlot d n m).fresh = s.fresh := rfl

@[simp] theorem State.addContributor_hart (s : State) (m : MergeSlot) (c : Nat) : (s.addContributor m c).hart = s.hart := rfl
@[simp] theorem State.addContributor_harts (s : State) (m : MergeSlot) (c : Nat) : (s.addContributor m c).harts = s.harts := rfl
@[simp] theorem State.addContributor_cells (s : State) (m : MergeSlot) (c : Nat) : (s.addContributor m c).cells = s.cells := rfl
@[simp] theorem State.addContributor_dies (s : State) (m : MergeSlot) (c : Nat) : (s.addContributor m c).dies = s.dies := rfl
@[simp] theorem State.addContributor_tasks (s : State) (m : MergeSlot) (c : Nat) : (s.addContributor m c).tasks = s.tasks := rfl
@[simp] theorem State.addContributor_jobs (s : State) (m : MergeSlot) (c : Nat) : (s.addContributor m c).jobs = s.jobs := rfl
@[simp] theorem State.addContributor_windows (s : State) (m : MergeSlot) (c : Nat) : (s.addContributor m c).windows = s.windows := rfl
@[simp] theorem State.addContributor_sent (s : State) (m : MergeSlot) (c : Nat) : (s.addContributor m c).sent = s.sent := rfl
@[simp] theorem State.addContributor_record (s : State) (m : MergeSlot) (c : Nat) : (s.addContributor m c).record = s.record := rfl
@[simp] theorem State.addContributor_mode (s : State) (m : MergeSlot) (c : Nat) : (s.addContributor m c).mode = s.mode := rfl
@[simp] theorem State.addContributor_fails (s : State) (m : MergeSlot) (c : Nat) : (s.addContributor m c).fails = s.fails := rfl
@[simp] theorem State.addContributor_islands (s : State) (m : MergeSlot) (c : Nat) : (s.addContributor m c).islands = s.islands := rfl
@[simp] theorem State.addContributor_changing (s : State) (m : MergeSlot) (c : Nat) : (s.addContributor m c).changing = s.changing := rfl
@[simp] theorem State.addContributor_waitingIslands (s : State) (m : MergeSlot) (c : Nat) : (s.addContributor m c).waitingIslands = s.waitingIslands := rfl
@[simp] theorem State.addContributor_inFlight (s : State) (m : MergeSlot) (c : Nat) : (s.addContributor m c).inFlight = s.inFlight := rfl
@[simp] theorem State.addContributor_accepted (s : State) (m : MergeSlot) (c : Nat) : (s.addContributor m c).accepted = s.accepted := rfl
@[simp] theorem State.addContributor_transit (s : State) (m : MergeSlot) (c : Nat) : (s.addContributor m c).transit = s.transit := rfl
@[simp] theorem State.addContributor_nextPacket (s : State) (m : MergeSlot) (c : Nat) : (s.addContributor m c).nextPacket = s.nextPacket := rfl
@[simp] theorem State.addContributor_nextHid (s : State) (m : MergeSlot) (c : Nat) : (s.addContributor m c).nextHid = s.nextHid := rfl
@[simp] theorem State.addContributor_nextTid (s : State) (m : MergeSlot) (c : Nat) : (s.addContributor m c).nextTid = s.nextTid := rfl
@[simp] theorem State.addContributor_nextQid (s : State) (m : MergeSlot) (c : Nat) : (s.addContributor m c).nextQid = s.nextQid := rfl
@[simp] theorem State.addContributor_nextOrder (s : State) (m : MergeSlot) (c : Nat) : (s.addContributor m c).nextOrder = s.nextOrder := rfl
@[simp] theorem State.addContributor_agenda (s : State) (m : MergeSlot) (c : Nat) : (s.addContributor m c).agenda = s.agenda := rfl
@[simp] theorem State.addContributor_fresh (s : State) (m : MergeSlot) (c : Nat) : (s.addContributor m c).fresh = s.fresh := rfl

@[simp] theorem State.setLink_mem (s : State) (d : DieNo) (l : HostLink) : (s.setLink d l).mem = s.mem := rfl
@[simp] theorem State.setLink_poisoned (s : State) (d : DieNo) (l : HostLink) : (s.setLink d l).poisoned = s.poisoned := rfl
@[simp] theorem State.setLink_uncorrectable (s : State) (d : DieNo) (l : HostLink) : (s.setLink d l).uncorrectable = s.uncorrectable := rfl
@[simp] theorem State.setLink_hart (s : State) (d : DieNo) (l : HostLink) : (s.setLink d l).hart = s.hart := rfl
@[simp] theorem State.setLink_harts (s : State) (d : DieNo) (l : HostLink) : (s.setLink d l).harts = s.harts := rfl
@[simp] theorem State.setLink_cells (s : State) (d : DieNo) (l : HostLink) : (s.setLink d l).cells = s.cells := rfl
@[simp] theorem State.setLink_tasks (s : State) (d : DieNo) (l : HostLink) : (s.setLink d l).tasks = s.tasks := rfl
@[simp] theorem State.setLink_jobs (s : State) (d : DieNo) (l : HostLink) : (s.setLink d l).jobs = s.jobs := rfl
@[simp] theorem State.setLink_windows (s : State) (d : DieNo) (l : HostLink) : (s.setLink d l).windows = s.windows := rfl
@[simp] theorem State.setLink_sent (s : State) (d : DieNo) (l : HostLink) : (s.setLink d l).sent = s.sent := rfl
@[simp] theorem State.setLink_record (s : State) (d : DieNo) (l : HostLink) : (s.setLink d l).record = s.record := rfl
@[simp] theorem State.setLink_mode (s : State) (d : DieNo) (l : HostLink) : (s.setLink d l).mode = s.mode := rfl
@[simp] theorem State.setLink_fails (s : State) (d : DieNo) (l : HostLink) : (s.setLink d l).fails = s.fails := rfl
@[simp] theorem State.setLink_islands (s : State) (d : DieNo) (l : HostLink) : (s.setLink d l).islands = s.islands := rfl
@[simp] theorem State.setLink_changing (s : State) (d : DieNo) (l : HostLink) : (s.setLink d l).changing = s.changing := rfl
@[simp] theorem State.setLink_waitingIslands (s : State) (d : DieNo) (l : HostLink) : (s.setLink d l).waitingIslands = s.waitingIslands := rfl
@[simp] theorem State.setLink_inFlight (s : State) (d : DieNo) (l : HostLink) : (s.setLink d l).inFlight = s.inFlight := rfl
@[simp] theorem State.setLink_accepted (s : State) (d : DieNo) (l : HostLink) : (s.setLink d l).accepted = s.accepted := rfl
@[simp] theorem State.setLink_transit (s : State) (d : DieNo) (l : HostLink) : (s.setLink d l).transit = s.transit := rfl
@[simp] theorem State.setLink_nextPacket (s : State) (d : DieNo) (l : HostLink) : (s.setLink d l).nextPacket = s.nextPacket := rfl
@[simp] theorem State.setLink_nextHid (s : State) (d : DieNo) (l : HostLink) : (s.setLink d l).nextHid = s.nextHid := rfl
@[simp] theorem State.setLink_nextTid (s : State) (d : DieNo) (l : HostLink) : (s.setLink d l).nextTid = s.nextTid := rfl
@[simp] theorem State.setLink_nextQid (s : State) (d : DieNo) (l : HostLink) : (s.setLink d l).nextQid = s.nextQid := rfl
@[simp] theorem State.setLink_nextOrder (s : State) (d : DieNo) (l : HostLink) : (s.setLink d l).nextOrder = s.nextOrder := rfl
@[simp] theorem State.setLink_agenda (s : State) (d : DieNo) (l : HostLink) : (s.setLink d l).agenda = s.agenda := rfl
@[simp] theorem State.setLink_fresh (s : State) (d : DieNo) (l : HostLink) : (s.setLink d l).fresh = s.fresh := rfl

@[simp] theorem State.setPort_mem (s : State) (d : DieNo) (n : Fin 8) (p : Port) : (s.setPort d n p).mem = s.mem := rfl
@[simp] theorem State.setPort_poisoned (s : State) (d : DieNo) (n : Fin 8) (p : Port) : (s.setPort d n p).poisoned = s.poisoned := rfl
@[simp] theorem State.setPort_uncorrectable (s : State) (d : DieNo) (n : Fin 8) (p : Port) : (s.setPort d n p).uncorrectable = s.uncorrectable := rfl
@[simp] theorem State.setPort_hart (s : State) (d : DieNo) (n : Fin 8) (p : Port) : (s.setPort d n p).hart = s.hart := rfl
@[simp] theorem State.setPort_harts (s : State) (d : DieNo) (n : Fin 8) (p : Port) : (s.setPort d n p).harts = s.harts := rfl
@[simp] theorem State.setPort_cells (s : State) (d : DieNo) (n : Fin 8) (p : Port) : (s.setPort d n p).cells = s.cells := rfl
@[simp] theorem State.setPort_tasks (s : State) (d : DieNo) (n : Fin 8) (p : Port) : (s.setPort d n p).tasks = s.tasks := rfl
@[simp] theorem State.setPort_jobs (s : State) (d : DieNo) (n : Fin 8) (p : Port) : (s.setPort d n p).jobs = s.jobs := rfl
@[simp] theorem State.setPort_windows (s : State) (d : DieNo) (n : Fin 8) (p : Port) : (s.setPort d n p).windows = s.windows := rfl
@[simp] theorem State.setPort_sent (s : State) (d : DieNo) (n : Fin 8) (p : Port) : (s.setPort d n p).sent = s.sent := rfl
@[simp] theorem State.setPort_record (s : State) (d : DieNo) (n : Fin 8) (p : Port) : (s.setPort d n p).record = s.record := rfl
@[simp] theorem State.setPort_mode (s : State) (d : DieNo) (n : Fin 8) (p : Port) : (s.setPort d n p).mode = s.mode := rfl
@[simp] theorem State.setPort_fails (s : State) (d : DieNo) (n : Fin 8) (p : Port) : (s.setPort d n p).fails = s.fails := rfl
@[simp] theorem State.setPort_islands (s : State) (d : DieNo) (n : Fin 8) (p : Port) : (s.setPort d n p).islands = s.islands := rfl
@[simp] theorem State.setPort_changing (s : State) (d : DieNo) (n : Fin 8) (p : Port) : (s.setPort d n p).changing = s.changing := rfl
@[simp] theorem State.setPort_waitingIslands (s : State) (d : DieNo) (n : Fin 8) (p : Port) : (s.setPort d n p).waitingIslands = s.waitingIslands := rfl
@[simp] theorem State.setPort_inFlight (s : State) (d : DieNo) (n : Fin 8) (p : Port) : (s.setPort d n p).inFlight = s.inFlight := rfl
@[simp] theorem State.setPort_accepted (s : State) (d : DieNo) (n : Fin 8) (p : Port) : (s.setPort d n p).accepted = s.accepted := rfl
@[simp] theorem State.setPort_transit (s : State) (d : DieNo) (n : Fin 8) (p : Port) : (s.setPort d n p).transit = s.transit := rfl
@[simp] theorem State.setPort_nextPacket (s : State) (d : DieNo) (n : Fin 8) (p : Port) : (s.setPort d n p).nextPacket = s.nextPacket := rfl
@[simp] theorem State.setPort_nextHid (s : State) (d : DieNo) (n : Fin 8) (p : Port) : (s.setPort d n p).nextHid = s.nextHid := rfl
@[simp] theorem State.setPort_nextTid (s : State) (d : DieNo) (n : Fin 8) (p : Port) : (s.setPort d n p).nextTid = s.nextTid := rfl
@[simp] theorem State.setPort_nextQid (s : State) (d : DieNo) (n : Fin 8) (p : Port) : (s.setPort d n p).nextQid = s.nextQid := rfl
@[simp] theorem State.setPort_nextOrder (s : State) (d : DieNo) (n : Fin 8) (p : Port) : (s.setPort d n p).nextOrder = s.nextOrder := rfl
@[simp] theorem State.setPort_agenda (s : State) (d : DieNo) (n : Fin 8) (p : Port) : (s.setPort d n p).agenda = s.agenda := rfl
@[simp] theorem State.setPort_fresh (s : State) (d : DieNo) (n : Fin 8) (p : Port) : (s.setPort d n p).fresh = s.fresh := rfl

@[simp] theorem State.setCard_mem (s : State) (d : DieNo) (c : Card) : (s.setCard d c).mem = s.mem := rfl
@[simp] theorem State.setCard_poisoned (s : State) (d : DieNo) (c : Card) : (s.setCard d c).poisoned = s.poisoned := rfl
@[simp] theorem State.setCard_uncorrectable (s : State) (d : DieNo) (c : Card) : (s.setCard d c).uncorrectable = s.uncorrectable := rfl
@[simp] theorem State.setCard_hart (s : State) (d : DieNo) (c : Card) : (s.setCard d c).hart = s.hart := rfl
@[simp] theorem State.setCard_harts (s : State) (d : DieNo) (c : Card) : (s.setCard d c).harts = s.harts := rfl
@[simp] theorem State.setCard_cells (s : State) (d : DieNo) (c : Card) : (s.setCard d c).cells = s.cells := rfl
@[simp] theorem State.setCard_tasks (s : State) (d : DieNo) (c : Card) : (s.setCard d c).tasks = s.tasks := rfl
@[simp] theorem State.setCard_jobs (s : State) (d : DieNo) (c : Card) : (s.setCard d c).jobs = s.jobs := rfl
@[simp] theorem State.setCard_windows (s : State) (d : DieNo) (c : Card) : (s.setCard d c).windows = s.windows := rfl
@[simp] theorem State.setCard_sent (s : State) (d : DieNo) (c : Card) : (s.setCard d c).sent = s.sent := rfl
@[simp] theorem State.setCard_record (s : State) (d : DieNo) (c : Card) : (s.setCard d c).record = s.record := rfl
@[simp] theorem State.setCard_mode (s : State) (d : DieNo) (c : Card) : (s.setCard d c).mode = s.mode := rfl
@[simp] theorem State.setCard_fails (s : State) (d : DieNo) (c : Card) : (s.setCard d c).fails = s.fails := rfl
@[simp] theorem State.setCard_islands (s : State) (d : DieNo) (c : Card) : (s.setCard d c).islands = s.islands := rfl
@[simp] theorem State.setCard_changing (s : State) (d : DieNo) (c : Card) : (s.setCard d c).changing = s.changing := rfl
@[simp] theorem State.setCard_waitingIslands (s : State) (d : DieNo) (c : Card) : (s.setCard d c).waitingIslands = s.waitingIslands := rfl
@[simp] theorem State.setCard_inFlight (s : State) (d : DieNo) (c : Card) : (s.setCard d c).inFlight = s.inFlight := rfl
@[simp] theorem State.setCard_accepted (s : State) (d : DieNo) (c : Card) : (s.setCard d c).accepted = s.accepted := rfl
@[simp] theorem State.setCard_transit (s : State) (d : DieNo) (c : Card) : (s.setCard d c).transit = s.transit := rfl
@[simp] theorem State.setCard_nextPacket (s : State) (d : DieNo) (c : Card) : (s.setCard d c).nextPacket = s.nextPacket := rfl
@[simp] theorem State.setCard_nextHid (s : State) (d : DieNo) (c : Card) : (s.setCard d c).nextHid = s.nextHid := rfl
@[simp] theorem State.setCard_nextTid (s : State) (d : DieNo) (c : Card) : (s.setCard d c).nextTid = s.nextTid := rfl
@[simp] theorem State.setCard_nextQid (s : State) (d : DieNo) (c : Card) : (s.setCard d c).nextQid = s.nextQid := rfl
@[simp] theorem State.setCard_nextOrder (s : State) (d : DieNo) (c : Card) : (s.setCard d c).nextOrder = s.nextOrder := rfl
@[simp] theorem State.setCard_agenda (s : State) (d : DieNo) (c : Card) : (s.setCard d c).agenda = s.agenda := rfl
@[simp] theorem State.setCard_fresh (s : State) (d : DieNo) (c : Card) : (s.setCard d c).fresh = s.fresh := rfl

@[simp] theorem State.setWindow_mem (s : State) (w : BitVec 6) (x : Window) : (s.setWindow w x).mem = s.mem := rfl
@[simp] theorem State.setWindow_poisoned (s : State) (w : BitVec 6) (x : Window) : (s.setWindow w x).poisoned = s.poisoned := rfl
@[simp] theorem State.setWindow_uncorrectable (s : State) (w : BitVec 6) (x : Window) : (s.setWindow w x).uncorrectable = s.uncorrectable := rfl
@[simp] theorem State.setWindow_hart (s : State) (w : BitVec 6) (x : Window) : (s.setWindow w x).hart = s.hart := rfl
@[simp] theorem State.setWindow_harts (s : State) (w : BitVec 6) (x : Window) : (s.setWindow w x).harts = s.harts := rfl
@[simp] theorem State.setWindow_cells (s : State) (w : BitVec 6) (x : Window) : (s.setWindow w x).cells = s.cells := rfl
@[simp] theorem State.setWindow_dies (s : State) (w : BitVec 6) (x : Window) : (s.setWindow w x).dies = s.dies := rfl
@[simp] theorem State.setWindow_tasks (s : State) (w : BitVec 6) (x : Window) : (s.setWindow w x).tasks = s.tasks := rfl
@[simp] theorem State.setWindow_jobs (s : State) (w : BitVec 6) (x : Window) : (s.setWindow w x).jobs = s.jobs := rfl
@[simp] theorem State.setWindow_sent (s : State) (w : BitVec 6) (x : Window) : (s.setWindow w x).sent = s.sent := rfl
@[simp] theorem State.setWindow_record (s : State) (w : BitVec 6) (x : Window) : (s.setWindow w x).record = s.record := rfl
@[simp] theorem State.setWindow_mode (s : State) (w : BitVec 6) (x : Window) : (s.setWindow w x).mode = s.mode := rfl
@[simp] theorem State.setWindow_fails (s : State) (w : BitVec 6) (x : Window) : (s.setWindow w x).fails = s.fails := rfl
@[simp] theorem State.setWindow_islands (s : State) (w : BitVec 6) (x : Window) : (s.setWindow w x).islands = s.islands := rfl
@[simp] theorem State.setWindow_changing (s : State) (w : BitVec 6) (x : Window) : (s.setWindow w x).changing = s.changing := rfl
@[simp] theorem State.setWindow_waitingIslands (s : State) (w : BitVec 6) (x : Window) : (s.setWindow w x).waitingIslands = s.waitingIslands := rfl
@[simp] theorem State.setWindow_inFlight (s : State) (w : BitVec 6) (x : Window) : (s.setWindow w x).inFlight = s.inFlight := rfl
@[simp] theorem State.setWindow_accepted (s : State) (w : BitVec 6) (x : Window) : (s.setWindow w x).accepted = s.accepted := rfl
@[simp] theorem State.setWindow_transit (s : State) (w : BitVec 6) (x : Window) : (s.setWindow w x).transit = s.transit := rfl
@[simp] theorem State.setWindow_nextPacket (s : State) (w : BitVec 6) (x : Window) : (s.setWindow w x).nextPacket = s.nextPacket := rfl
@[simp] theorem State.setWindow_nextHid (s : State) (w : BitVec 6) (x : Window) : (s.setWindow w x).nextHid = s.nextHid := rfl
@[simp] theorem State.setWindow_nextTid (s : State) (w : BitVec 6) (x : Window) : (s.setWindow w x).nextTid = s.nextTid := rfl
@[simp] theorem State.setWindow_nextQid (s : State) (w : BitVec 6) (x : Window) : (s.setWindow w x).nextQid = s.nextQid := rfl
@[simp] theorem State.setWindow_nextOrder (s : State) (w : BitVec 6) (x : Window) : (s.setWindow w x).nextOrder = s.nextOrder := rfl
@[simp] theorem State.setWindow_agenda (s : State) (w : BitVec 6) (x : Window) : (s.setWindow w x).agenda = s.agenda := rfl
@[simp] theorem State.setWindow_fresh (s : State) (w : BitVec 6) (x : Window) : (s.setWindow w x).fresh = s.fresh := rfl

@[simp] theorem State.withHearth_mem (s : State) (f : Hearth → Hearth) : (s.withHearth f).mem = s.mem := rfl
@[simp] theorem State.withHearth_poisoned (s : State) (f : Hearth → Hearth) : (s.withHearth f).poisoned = s.poisoned := rfl
@[simp] theorem State.withHearth_uncorrectable (s : State) (f : Hearth → Hearth) : (s.withHearth f).uncorrectable = s.uncorrectable := rfl
@[simp] theorem State.withHearth_harts (s : State) (f : Hearth → Hearth) : (s.withHearth f).harts = s.harts := rfl
@[simp] theorem State.withHearth_cells (s : State) (f : Hearth → Hearth) : (s.withHearth f).cells = s.cells := rfl
@[simp] theorem State.withHearth_dies (s : State) (f : Hearth → Hearth) : (s.withHearth f).dies = s.dies := rfl
@[simp] theorem State.withHearth_tasks (s : State) (f : Hearth → Hearth) : (s.withHearth f).tasks = s.tasks := rfl
@[simp] theorem State.withHearth_jobs (s : State) (f : Hearth → Hearth) : (s.withHearth f).jobs = s.jobs := rfl
@[simp] theorem State.withHearth_windows (s : State) (f : Hearth → Hearth) : (s.withHearth f).windows = s.windows := rfl
@[simp] theorem State.withHearth_sent (s : State) (f : Hearth → Hearth) : (s.withHearth f).sent = s.sent := rfl
@[simp] theorem State.withHearth_record (s : State) (f : Hearth → Hearth) : (s.withHearth f).record = s.record := rfl
@[simp] theorem State.withHearth_mode (s : State) (f : Hearth → Hearth) : (s.withHearth f).mode = s.mode := rfl
@[simp] theorem State.withHearth_fails (s : State) (f : Hearth → Hearth) : (s.withHearth f).fails = s.fails := rfl
@[simp] theorem State.withHearth_islands (s : State) (f : Hearth → Hearth) : (s.withHearth f).islands = s.islands := rfl
@[simp] theorem State.withHearth_changing (s : State) (f : Hearth → Hearth) : (s.withHearth f).changing = s.changing := rfl
@[simp] theorem State.withHearth_waitingIslands (s : State) (f : Hearth → Hearth) : (s.withHearth f).waitingIslands = s.waitingIslands := rfl
@[simp] theorem State.withHearth_inFlight (s : State) (f : Hearth → Hearth) : (s.withHearth f).inFlight = s.inFlight := rfl
@[simp] theorem State.withHearth_accepted (s : State) (f : Hearth → Hearth) : (s.withHearth f).accepted = s.accepted := rfl
@[simp] theorem State.withHearth_transit (s : State) (f : Hearth → Hearth) : (s.withHearth f).transit = s.transit := rfl
@[simp] theorem State.withHearth_nextPacket (s : State) (f : Hearth → Hearth) : (s.withHearth f).nextPacket = s.nextPacket := rfl
@[simp] theorem State.withHearth_nextHid (s : State) (f : Hearth → Hearth) : (s.withHearth f).nextHid = s.nextHid := rfl
@[simp] theorem State.withHearth_nextTid (s : State) (f : Hearth → Hearth) : (s.withHearth f).nextTid = s.nextTid := rfl
@[simp] theorem State.withHearth_nextQid (s : State) (f : Hearth → Hearth) : (s.withHearth f).nextQid = s.nextQid := rfl
@[simp] theorem State.withHearth_nextOrder (s : State) (f : Hearth → Hearth) : (s.withHearth f).nextOrder = s.nextOrder := rfl
@[simp] theorem State.withHearth_agenda (s : State) (f : Hearth → Hearth) : (s.withHearth f).agenda = s.agenda := rfl
@[simp] theorem State.withHearth_fresh (s : State) (f : Hearth → Hearth) : (s.withHearth f).fresh = s.fresh := rfl

@[simp] theorem State.popAnvil_mem (s : State) (d : DieNo) (c : CellNo) : (s.popAnvil d c).mem = s.mem := rfl
@[simp] theorem State.popAnvil_poisoned (s : State) (d : DieNo) (c : CellNo) : (s.popAnvil d c).poisoned = s.poisoned := rfl
@[simp] theorem State.popAnvil_uncorrectable (s : State) (d : DieNo) (c : CellNo) : (s.popAnvil d c).uncorrectable = s.uncorrectable := rfl
@[simp] theorem State.popAnvil_hart (s : State) (d : DieNo) (c : CellNo) : (s.popAnvil d c).hart = s.hart := rfl
@[simp] theorem State.popAnvil_harts (s : State) (d : DieNo) (c : CellNo) : (s.popAnvil d c).harts = s.harts := rfl
@[simp] theorem State.popAnvil_dies (s : State) (d : DieNo) (c : CellNo) : (s.popAnvil d c).dies = s.dies := rfl
@[simp] theorem State.popAnvil_tasks (s : State) (d : DieNo) (c : CellNo) : (s.popAnvil d c).tasks = s.tasks := rfl
@[simp] theorem State.popAnvil_jobs (s : State) (d : DieNo) (c : CellNo) : (s.popAnvil d c).jobs = s.jobs := rfl
@[simp] theorem State.popAnvil_windows (s : State) (d : DieNo) (c : CellNo) : (s.popAnvil d c).windows = s.windows := rfl
@[simp] theorem State.popAnvil_sent (s : State) (d : DieNo) (c : CellNo) : (s.popAnvil d c).sent = s.sent := rfl
@[simp] theorem State.popAnvil_record (s : State) (d : DieNo) (c : CellNo) : (s.popAnvil d c).record = s.record := rfl
@[simp] theorem State.popAnvil_mode (s : State) (d : DieNo) (c : CellNo) : (s.popAnvil d c).mode = s.mode := rfl
@[simp] theorem State.popAnvil_fails (s : State) (d : DieNo) (c : CellNo) : (s.popAnvil d c).fails = s.fails := rfl
@[simp] theorem State.popAnvil_islands (s : State) (d : DieNo) (c : CellNo) : (s.popAnvil d c).islands = s.islands := rfl
@[simp] theorem State.popAnvil_changing (s : State) (d : DieNo) (c : CellNo) : (s.popAnvil d c).changing = s.changing := rfl
@[simp] theorem State.popAnvil_waitingIslands (s : State) (d : DieNo) (c : CellNo) : (s.popAnvil d c).waitingIslands = s.waitingIslands := rfl
@[simp] theorem State.popAnvil_inFlight (s : State) (d : DieNo) (c : CellNo) : (s.popAnvil d c).inFlight = s.inFlight := rfl
@[simp] theorem State.popAnvil_accepted (s : State) (d : DieNo) (c : CellNo) : (s.popAnvil d c).accepted = s.accepted := rfl
@[simp] theorem State.popAnvil_transit (s : State) (d : DieNo) (c : CellNo) : (s.popAnvil d c).transit = s.transit := rfl
@[simp] theorem State.popAnvil_nextPacket (s : State) (d : DieNo) (c : CellNo) : (s.popAnvil d c).nextPacket = s.nextPacket := rfl
@[simp] theorem State.popAnvil_nextHid (s : State) (d : DieNo) (c : CellNo) : (s.popAnvil d c).nextHid = s.nextHid := rfl
@[simp] theorem State.popAnvil_nextTid (s : State) (d : DieNo) (c : CellNo) : (s.popAnvil d c).nextTid = s.nextTid := rfl
@[simp] theorem State.popAnvil_nextQid (s : State) (d : DieNo) (c : CellNo) : (s.popAnvil d c).nextQid = s.nextQid := rfl
@[simp] theorem State.popAnvil_nextOrder (s : State) (d : DieNo) (c : CellNo) : (s.popAnvil d c).nextOrder = s.nextOrder := rfl
@[simp] theorem State.popAnvil_agenda (s : State) (d : DieNo) (c : CellNo) : (s.popAnvil d c).agenda = s.agenda := rfl
@[simp] theorem State.popAnvil_fresh (s : State) (d : DieNo) (c : CellNo) : (s.popAnvil d c).fresh = s.fresh := rfl

/-! ## Updates of a hart -/

@[simp] theorem Hart.setS_hid (h : Hart) (r : SReg) (x : Word) : (h.setS r x).hid = h.hid :=
  by unfold Hart.setS; split <;> rfl
@[simp] theorem Hart.setS_task (h : Hart) (r : SReg) (x : Word) : (h.setS r x).task = h.task :=
  by unfold Hart.setS; split <;> rfl
@[simp] theorem Hart.setS_status (h : Hart) (r : SReg) (x : Word) : (h.setS r x).status = h.status :=
  by unfold Hart.setS; split <;> rfl
@[simp] theorem Hart.setS_mark (h : Hart) (r : SReg) (x : Word) : (h.setS r x).mark = h.mark :=
  by unfold Hart.setS; split <;> rfl
@[simp] theorem Hart.setS_die (h : Hart) (r : SReg) (x : Word) : (h.setS r x).die = h.die :=
  by unfold Hart.setS; split <;> rfl
@[simp] theorem Hart.setS_cell (h : Hart) (r : SReg) (x : Word) : (h.setS r x).cell = h.cell :=
  by unfold Hart.setS; split <;> rfl
@[simp] theorem Hart.setS_slot (h : Hart) (r : SReg) (x : Word) : (h.setS r x).slot = h.slot :=
  by unfold Hart.setS; split <;> rfl
@[simp] theorem Hart.setS_pc (h : Hart) (r : SReg) (x : Word) : (h.setS r x).pc = h.pc :=
  by unfold Hart.setS; split <;> rfl
@[simp] theorem Hart.setS_cbit (h : Hart) (r : SReg) (x : Word) : (h.setS r x).cbit = h.cbit :=
  by unfold Hart.setS; split <;> rfl
@[simp] theorem Hart.setS_vreg (h : Hart) (r : SReg) (x : Word) : (h.setS r x).vreg = h.vreg :=
  by unfold Hart.setS; split <;> rfl
@[simp] theorem Hart.setS_treg (h : Hart) (r : SReg) (x : Word) : (h.setS r x).treg = h.treg :=
  by unfold Hart.setS; split <;> rfl
@[simp] theorem Hart.setS_mreg (h : Hart) (r : SReg) (x : Word) : (h.setS r x).mreg = h.mreg :=
  by unfold Hart.setS; split <;> rfl
@[simp] theorem Hart.setS_msm (h : Hart) (r : SReg) (x : Word) : (h.setS r x).msm = h.msm :=
  by unfold Hart.setS; split <;> rfl
@[simp] theorem Hart.setS_vpoison (h : Hart) (r : SReg) (x : Word) : (h.setS r x).vpoison = h.vpoison :=
  by unfold Hart.setS; split <;> rfl
@[simp] theorem Hart.setS_tpoison (h : Hart) (r : SReg) (x : Word) : (h.setS r x).tpoison = h.tpoison :=
  by unfold Hart.setS; split <;> rfl
@[simp] theorem Hart.setS_mpoison (h : Hart) (r : SReg) (x : Word) : (h.setS r x).mpoison = h.mpoison :=
  by unfold Hart.setS; split <;> rfl
@[simp] theorem Hart.setS_vl (h : Hart) (r : SReg) (x : Word) : (h.setS r x).vl = h.vl :=
  by unfold Hart.setS; split <;> rfl
@[simp] theorem Hart.setS_msel (h : Hart) (r : SReg) (x : Word) : (h.setS r x).msel = h.msel :=
  by unfold Hart.setS; split <;> rfl
@[simp] theorem Hart.setS_vstr (h : Hart) (r : SReg) (x : Word) : (h.setS r x).vstr = h.vstr :=
  by unfold Hart.setS; split <;> rfl
@[simp] theorem Hart.setS_grant (h : Hart) (r : SReg) (x : Word) : (h.setS r x).grant = h.grant :=
  by unfold Hart.setS; split <;> rfl
@[simp] theorem Hart.setS_vew (h : Hart) (r : SReg) (x : Word) : (h.setS r x).vew = h.vew :=
  by unfold Hart.setS; split <;> rfl
@[simp] theorem Hart.setS_nextCarr (h : Hart) (r : SReg) (x : Word) : (h.setS r x).nextCarr = h.nextCarr :=
  by unfold Hart.setS; split <;> rfl
@[simp] theorem Hart.setS_nextPend (h : Hart) (r : SReg) (x : Word) : (h.setS r x).nextPend = h.nextPend :=
  by unfold Hart.setS; split <;> rfl
@[simp] theorem Hart.setS_part (h : Hart) (r : SReg) (x : Word) : (h.setS r x).part = h.part :=
  by unfold Hart.setS; split <;> rfl
@[simp] theorem Hart.setS_frm (h : Hart) (r : SReg) (x : Word) : (h.setS r x).frm = h.frm :=
  by unfold Hart.setS; split <;> rfl
@[simp] theorem Hart.setS_fflags (h : Hart) (r : SReg) (x : Word) : (h.setS r x).fflags = h.fflags :=
  by unfold Hart.setS; split <;> rfl
@[simp] theorem Hart.setS_tstat (h : Hart) (r : SReg) (x : Word) : (h.setS r x).tstat = h.tstat :=
  by unfold Hart.setS; split <;> rfl
@[simp] theorem Hart.setS_tgrp (h : Hart) (r : SReg) (x : Word) : (h.setS r x).tgrp = h.tgrp :=
  by unfold Hart.setS; split <;> rfl
@[simp] theorem Hart.setS_tctl (h : Hart) (r : SReg) (x : Word) : (h.setS r x).tctl = h.tctl :=
  by unfold Hart.setS; split <;> rfl
@[simp] theorem Hart.setS_actl (h : Hart) (r : SReg) (x : Word) : (h.setS r x).actl = h.actl :=
  by unfold Hart.setS; split <;> rfl
@[simp] theorem Hart.setS_hctl (h : Hart) (r : SReg) (x : Word) : (h.setS r x).hctl = h.hctl :=
  by unfold Hart.setS; split <;> rfl
@[simp] theorem Hart.setS_qimpl (h : Hart) (r : SReg) (x : Word) : (h.setS r x).qimpl = h.qimpl :=
  by unfold Hart.setS; split <;> rfl
@[simp] theorem Hart.setS_qdisc (h : Hart) (r : SReg) (x : Word) : (h.setS r x).qdisc = h.qdisc :=
  by unfold Hart.setS; split <;> rfl
@[simp] theorem Hart.setS_prio (h : Hart) (r : SReg) (x : Word) : (h.setS r x).prio = h.prio :=
  by unfold Hart.setS; split <;> rfl
@[simp] theorem Hart.setS_ceil (h : Hart) (r : SReg) (x : Word) : (h.setS r x).ceil = h.ceil :=
  by unfold Hart.setS; split <;> rfl
@[simp] theorem Hart.setS_job (h : Hart) (r : SReg) (x : Word) : (h.setS r x).job = h.job :=
  by unfold Hart.setS; split <;> rfl
@[simp] theorem Hart.setS_stripmax (h : Hart) (r : SReg) (x : Word) : (h.setS r x).stripmax = h.stripmax :=
  by unfold Hart.setS; split <;> rfl
@[simp] theorem Hart.setS_trap (h : Hart) (r : SReg) (x : Word) : (h.setS r x).trap = h.trap :=
  by unfold Hart.setS; split <;> rfl
@[simp] theorem Hart.setS_tcnt (h : Hart) (r : SReg) (x : Word) : (h.setS r x).tcnt = h.tcnt :=
  by unfold Hart.setS; split <;> rfl
@[simp] theorem Hart.setS_priv (h : Hart) (r : SReg) (x : Word) : (h.setS r x).priv = h.priv :=
  by unfold Hart.setS; split <;> rfl
@[simp] theorem Hart.setS_gatebase (h : Hart) (r : SReg) (x : Word) : (h.setS r x).gatebase = h.gatebase :=
  by unfold Hart.setS; split <;> rfl
@[simp] theorem Hart.setS_asid (h : Hart) (r : SReg) (x : Word) : (h.setS r x).asid = h.asid :=
  by unfold Hart.setS; split <;> rfl
@[simp] theorem Hart.setS_sbase (h : Hart) (r : SReg) (x : Word) : (h.setS r x).sbase = h.sbase :=
  by unfold Hart.setS; split <;> rfl
@[simp] theorem Hart.setS_sprev (h : Hart) (r : SReg) (x : Word) : (h.setS r x).sprev = h.sprev :=
  by unfold Hart.setS; split <;> rfl
@[simp] theorem Hart.setS_evf (h : Hart) (r : SReg) (x : Word) : (h.setS r x).evf = h.evf :=
  by unfold Hart.setS; split <;> rfl
@[simp] theorem Hart.setS_cancel (h : Hart) (r : SReg) (x : Word) : (h.setS r x).cancel = h.cancel :=
  by unfold Hart.setS; split <;> rfl
@[simp] theorem Hart.setS_cancelAt (h : Hart) (r : SReg) (x : Word) : (h.setS r x).cancelAt = h.cancelAt :=
  by unfold Hart.setS; split <;> rfl
@[simp] theorem Hart.setS_handles (h : Hart) (r : SReg) (x : Word) : (h.setS r x).handles = h.handles :=
  by unfold Hart.setS; split <;> rfl
@[simp] theorem Hart.setS_vq (h : Hart) (r : SReg) (x : Word) : (h.setS r x).vq = h.vq :=
  by unfold Hart.setS; split <;> rfl
@[simp] theorem Hart.setS_producers (h : Hart) (r : SReg) (x : Word) : (h.setS r x).producers = h.producers :=
  by unfold Hart.setS; split <;> rfl
@[simp] theorem Hart.setS_buffer (h : Hart) (r : SReg) (x : Word) : (h.setS r x).buffer = h.buffer :=
  by unfold Hart.setS; split <;> rfl
@[simp] theorem Hart.setS_replay (h : Hart) (r : SReg) (x : Word) : (h.setS r x).replay = h.replay :=
  by unfold Hart.setS; split <;> rfl
@[simp] theorem Hart.setS_hearth (h : Hart) (r : SReg) (x : Word) : (h.setS r x).hearth = h.hearth :=
  by unfold Hart.setS; split <;> rfl
@[simp] theorem Hart.setS_parent (h : Hart) (r : SReg) (x : Word) : (h.setS r x).parent = h.parent :=
  by unfold Hart.setS; split <;> rfl
@[simp] theorem Hart.setS_children (h : Hart) (r : SReg) (x : Word) : (h.setS r x).children = h.children :=
  by unfold Hart.setS; split <;> rfl
@[simp] theorem Hart.setS_index (h : Hart) (r : SReg) (x : Word) : (h.setS r x).index = h.index :=
  by unfold Hart.setS; split <;> rfl
@[simp] theorem Hart.setS_reservations (h : Hart) (r : SReg) (x : Word) : (h.setS r x).reservations = h.reservations :=
  by unfold Hart.setS; split <;> rfl
@[simp] theorem Hart.setS_heldChannels (h : Hart) (r : SReg) (x : Word) : (h.setS r x).heldChannels = h.heldChannels :=
  by unfold Hart.setS; split <;> rfl
@[simp] theorem Hart.setS_order (h : Hart) (r : SReg) (x : Word) : (h.setS r x).order = h.order :=
  by unfold Hart.setS; split <;> rfl
@[simp] theorem Hart.setS_since (h : Hart) (r : SReg) (x : Word) : (h.setS r x).since = h.since :=
  by unfold Hart.setS; split <;> rfl
@[simp] theorem Hart.setS_budget (h : Hart) (r : SReg) (x : Word) : (h.setS r x).budget = h.budget :=
  by unfold Hart.setS; split <;> rfl

@[simp] theorem Hart.advance_hid (h : Hart) : (h.advance).hid = h.hid := rfl
@[simp] theorem Hart.advance_task (h : Hart) : (h.advance).task = h.task := rfl
@[simp] theorem Hart.advance_status (h : Hart) : (h.advance).status = h.status := rfl
@[simp] theorem Hart.advance_mark (h : Hart) : (h.advance).mark = h.mark := rfl
@[simp] theorem Hart.advance_die (h : Hart) : (h.advance).die = h.die := rfl
@[simp] theorem Hart.advance_cell (h : Hart) : (h.advance).cell = h.cell := rfl
@[simp] theorem Hart.advance_slot (h : Hart) : (h.advance).slot = h.slot := rfl
@[simp] theorem Hart.advance_sreg (h : Hart) : (h.advance).sreg = h.sreg := rfl
@[simp] theorem Hart.advance_spoison (h : Hart) : (h.advance).spoison = h.spoison := rfl
@[simp] theorem Hart.advance_cbit (h : Hart) : (h.advance).cbit = h.cbit := rfl
@[simp] theorem Hart.advance_vreg (h : Hart) : (h.advance).vreg = h.vreg := rfl
@[simp] theorem Hart.advance_treg (h : Hart) : (h.advance).treg = h.treg := rfl
@[simp] theorem Hart.advance_mreg (h : Hart) : (h.advance).mreg = h.mreg := rfl
@[simp] theorem Hart.advance_msm (h : Hart) : (h.advance).msm = h.msm := rfl
@[simp] theorem Hart.advance_vpoison (h : Hart) : (h.advance).vpoison = h.vpoison := rfl
@[simp] theorem Hart.advance_tpoison (h : Hart) : (h.advance).tpoison = h.tpoison := rfl
@[simp] theorem Hart.advance_mpoison (h : Hart) : (h.advance).mpoison = h.mpoison := rfl
@[simp] theorem Hart.advance_vl (h : Hart) : (h.advance).vl = h.vl := rfl
@[simp] theorem Hart.advance_msel (h : Hart) : (h.advance).msel = h.msel := rfl
@[simp] theorem Hart.advance_vstr (h : Hart) : (h.advance).vstr = h.vstr := rfl
@[simp] theorem Hart.advance_grant (h : Hart) : (h.advance).grant = h.grant := rfl
@[simp] theorem Hart.advance_vew (h : Hart) : (h.advance).vew = h.vew := rfl
@[simp] theorem Hart.advance_nextCarr (h : Hart) : (h.advance).nextCarr = h.nextCarr := rfl
@[simp] theorem Hart.advance_nextPend (h : Hart) : (h.advance).nextPend = h.nextPend := rfl
@[simp] theorem Hart.advance_part (h : Hart) : (h.advance).part = h.part := rfl
@[simp] theorem Hart.advance_frm (h : Hart) : (h.advance).frm = h.frm := rfl
@[simp] theorem Hart.advance_fflags (h : Hart) : (h.advance).fflags = h.fflags := rfl
@[simp] theorem Hart.advance_tstat (h : Hart) : (h.advance).tstat = h.tstat := rfl
@[simp] theorem Hart.advance_tgrp (h : Hart) : (h.advance).tgrp = h.tgrp := rfl
@[simp] theorem Hart.advance_tctl (h : Hart) : (h.advance).tctl = h.tctl := rfl
@[simp] theorem Hart.advance_actl (h : Hart) : (h.advance).actl = h.actl := rfl
@[simp] theorem Hart.advance_hctl (h : Hart) : (h.advance).hctl = h.hctl := rfl
@[simp] theorem Hart.advance_qimpl (h : Hart) : (h.advance).qimpl = h.qimpl := rfl
@[simp] theorem Hart.advance_qdisc (h : Hart) : (h.advance).qdisc = h.qdisc := rfl
@[simp] theorem Hart.advance_prio (h : Hart) : (h.advance).prio = h.prio := rfl
@[simp] theorem Hart.advance_ceil (h : Hart) : (h.advance).ceil = h.ceil := rfl
@[simp] theorem Hart.advance_job (h : Hart) : (h.advance).job = h.job := rfl
@[simp] theorem Hart.advance_stripmax (h : Hart) : (h.advance).stripmax = h.stripmax := rfl
@[simp] theorem Hart.advance_trap (h : Hart) : (h.advance).trap = h.trap := rfl
@[simp] theorem Hart.advance_tcnt (h : Hart) : (h.advance).tcnt = h.tcnt := rfl
@[simp] theorem Hart.advance_priv (h : Hart) : (h.advance).priv = h.priv := rfl
@[simp] theorem Hart.advance_gatebase (h : Hart) : (h.advance).gatebase = h.gatebase := rfl
@[simp] theorem Hart.advance_asid (h : Hart) : (h.advance).asid = h.asid := rfl
@[simp] theorem Hart.advance_sbase (h : Hart) : (h.advance).sbase = h.sbase := rfl
@[simp] theorem Hart.advance_sprev (h : Hart) : (h.advance).sprev = h.sprev := rfl
@[simp] theorem Hart.advance_evf (h : Hart) : (h.advance).evf = h.evf := rfl
@[simp] theorem Hart.advance_cancel (h : Hart) : (h.advance).cancel = h.cancel := rfl
@[simp] theorem Hart.advance_cancelAt (h : Hart) : (h.advance).cancelAt = h.cancelAt := rfl
@[simp] theorem Hart.advance_handles (h : Hart) : (h.advance).handles = h.handles := rfl
@[simp] theorem Hart.advance_vq (h : Hart) : (h.advance).vq = h.vq := rfl
@[simp] theorem Hart.advance_producers (h : Hart) : (h.advance).producers = h.producers := rfl
@[simp] theorem Hart.advance_buffer (h : Hart) : (h.advance).buffer = h.buffer := rfl
@[simp] theorem Hart.advance_replay (h : Hart) : (h.advance).replay = h.replay := rfl
@[simp] theorem Hart.advance_hearth (h : Hart) : (h.advance).hearth = h.hearth := rfl
@[simp] theorem Hart.advance_parent (h : Hart) : (h.advance).parent = h.parent := rfl
@[simp] theorem Hart.advance_children (h : Hart) : (h.advance).children = h.children := rfl
@[simp] theorem Hart.advance_index (h : Hart) : (h.advance).index = h.index := rfl
@[simp] theorem Hart.advance_reservations (h : Hart) : (h.advance).reservations = h.reservations := rfl
@[simp] theorem Hart.advance_heldChannels (h : Hart) : (h.advance).heldChannels = h.heldChannels := rfl
@[simp] theorem Hart.advance_order (h : Hart) : (h.advance).order = h.order := rfl
@[simp] theorem Hart.advance_since (h : Hart) : (h.advance).since = h.since := rfl
@[simp] theorem Hart.advance_budget (h : Hart) : (h.advance).budget = h.budget := rfl

@[simp] theorem Hart.result_hid (h : Hart) (d : SReg) (x : Word) : (h.result d x).hid = h.hid :=
  by unfold Hart.result Hart.setS; split <;> rfl
@[simp] theorem Hart.result_task (h : Hart) (d : SReg) (x : Word) : (h.result d x).task = h.task :=
  by unfold Hart.result Hart.setS; split <;> rfl
@[simp] theorem Hart.result_status (h : Hart) (d : SReg) (x : Word) : (h.result d x).status = h.status :=
  by unfold Hart.result Hart.setS; split <;> rfl
@[simp] theorem Hart.result_mark (h : Hart) (d : SReg) (x : Word) : (h.result d x).mark = h.mark :=
  by unfold Hart.result Hart.setS; split <;> rfl
@[simp] theorem Hart.result_die (h : Hart) (d : SReg) (x : Word) : (h.result d x).die = h.die :=
  by unfold Hart.result Hart.setS; split <;> rfl
@[simp] theorem Hart.result_cell (h : Hart) (d : SReg) (x : Word) : (h.result d x).cell = h.cell :=
  by unfold Hart.result Hart.setS; split <;> rfl
@[simp] theorem Hart.result_slot (h : Hart) (d : SReg) (x : Word) : (h.result d x).slot = h.slot :=
  by unfold Hart.result Hart.setS; split <;> rfl
@[simp] theorem Hart.result_cbit (h : Hart) (d : SReg) (x : Word) : (h.result d x).cbit = h.cbit :=
  by unfold Hart.result Hart.setS; split <;> rfl
@[simp] theorem Hart.result_vreg (h : Hart) (d : SReg) (x : Word) : (h.result d x).vreg = h.vreg :=
  by unfold Hart.result Hart.setS; split <;> rfl
@[simp] theorem Hart.result_treg (h : Hart) (d : SReg) (x : Word) : (h.result d x).treg = h.treg :=
  by unfold Hart.result Hart.setS; split <;> rfl
@[simp] theorem Hart.result_mreg (h : Hart) (d : SReg) (x : Word) : (h.result d x).mreg = h.mreg :=
  by unfold Hart.result Hart.setS; split <;> rfl
@[simp] theorem Hart.result_msm (h : Hart) (d : SReg) (x : Word) : (h.result d x).msm = h.msm :=
  by unfold Hart.result Hart.setS; split <;> rfl
@[simp] theorem Hart.result_vpoison (h : Hart) (d : SReg) (x : Word) : (h.result d x).vpoison = h.vpoison :=
  by unfold Hart.result Hart.setS; split <;> rfl
@[simp] theorem Hart.result_tpoison (h : Hart) (d : SReg) (x : Word) : (h.result d x).tpoison = h.tpoison :=
  by unfold Hart.result Hart.setS; split <;> rfl
@[simp] theorem Hart.result_mpoison (h : Hart) (d : SReg) (x : Word) : (h.result d x).mpoison = h.mpoison :=
  by unfold Hart.result Hart.setS; split <;> rfl
@[simp] theorem Hart.result_vl (h : Hart) (d : SReg) (x : Word) : (h.result d x).vl = h.vl :=
  by unfold Hart.result Hart.setS; split <;> rfl
@[simp] theorem Hart.result_msel (h : Hart) (d : SReg) (x : Word) : (h.result d x).msel = h.msel :=
  by unfold Hart.result Hart.setS; split <;> rfl
@[simp] theorem Hart.result_vstr (h : Hart) (d : SReg) (x : Word) : (h.result d x).vstr = h.vstr :=
  by unfold Hart.result Hart.setS; split <;> rfl
@[simp] theorem Hart.result_grant (h : Hart) (d : SReg) (x : Word) : (h.result d x).grant = h.grant :=
  by unfold Hart.result Hart.setS; split <;> rfl
@[simp] theorem Hart.result_vew (h : Hart) (d : SReg) (x : Word) : (h.result d x).vew = h.vew :=
  by unfold Hart.result Hart.setS; split <;> rfl
@[simp] theorem Hart.result_nextCarr (h : Hart) (d : SReg) (x : Word) : (h.result d x).nextCarr = h.nextCarr :=
  by unfold Hart.result Hart.setS; split <;> rfl
@[simp] theorem Hart.result_nextPend (h : Hart) (d : SReg) (x : Word) : (h.result d x).nextPend = h.nextPend :=
  by unfold Hart.result Hart.setS; split <;> rfl
@[simp] theorem Hart.result_part (h : Hart) (d : SReg) (x : Word) : (h.result d x).part = h.part :=
  by unfold Hart.result Hart.setS; split <;> rfl
@[simp] theorem Hart.result_frm (h : Hart) (d : SReg) (x : Word) : (h.result d x).frm = h.frm :=
  by unfold Hart.result Hart.setS; split <;> rfl
@[simp] theorem Hart.result_fflags (h : Hart) (d : SReg) (x : Word) : (h.result d x).fflags = h.fflags :=
  by unfold Hart.result Hart.setS; split <;> rfl
@[simp] theorem Hart.result_tstat (h : Hart) (d : SReg) (x : Word) : (h.result d x).tstat = h.tstat :=
  by unfold Hart.result Hart.setS; split <;> rfl
@[simp] theorem Hart.result_tgrp (h : Hart) (d : SReg) (x : Word) : (h.result d x).tgrp = h.tgrp :=
  by unfold Hart.result Hart.setS; split <;> rfl
@[simp] theorem Hart.result_tctl (h : Hart) (d : SReg) (x : Word) : (h.result d x).tctl = h.tctl :=
  by unfold Hart.result Hart.setS; split <;> rfl
@[simp] theorem Hart.result_actl (h : Hart) (d : SReg) (x : Word) : (h.result d x).actl = h.actl :=
  by unfold Hart.result Hart.setS; split <;> rfl
@[simp] theorem Hart.result_hctl (h : Hart) (d : SReg) (x : Word) : (h.result d x).hctl = h.hctl :=
  by unfold Hart.result Hart.setS; split <;> rfl
@[simp] theorem Hart.result_qimpl (h : Hart) (d : SReg) (x : Word) : (h.result d x).qimpl = h.qimpl :=
  by unfold Hart.result Hart.setS; split <;> rfl
@[simp] theorem Hart.result_qdisc (h : Hart) (d : SReg) (x : Word) : (h.result d x).qdisc = h.qdisc :=
  by unfold Hart.result Hart.setS; split <;> rfl
@[simp] theorem Hart.result_prio (h : Hart) (d : SReg) (x : Word) : (h.result d x).prio = h.prio :=
  by unfold Hart.result Hart.setS; split <;> rfl
@[simp] theorem Hart.result_ceil (h : Hart) (d : SReg) (x : Word) : (h.result d x).ceil = h.ceil :=
  by unfold Hart.result Hart.setS; split <;> rfl
@[simp] theorem Hart.result_job (h : Hart) (d : SReg) (x : Word) : (h.result d x).job = h.job :=
  by unfold Hart.result Hart.setS; split <;> rfl
@[simp] theorem Hart.result_stripmax (h : Hart) (d : SReg) (x : Word) : (h.result d x).stripmax = h.stripmax :=
  by unfold Hart.result Hart.setS; split <;> rfl
@[simp] theorem Hart.result_trap (h : Hart) (d : SReg) (x : Word) : (h.result d x).trap = h.trap :=
  by unfold Hart.result Hart.setS; split <;> rfl
@[simp] theorem Hart.result_tcnt (h : Hart) (d : SReg) (x : Word) : (h.result d x).tcnt = h.tcnt :=
  by unfold Hart.result Hart.setS; split <;> rfl
@[simp] theorem Hart.result_priv (h : Hart) (d : SReg) (x : Word) : (h.result d x).priv = h.priv :=
  by unfold Hart.result Hart.setS; split <;> rfl
@[simp] theorem Hart.result_gatebase (h : Hart) (d : SReg) (x : Word) : (h.result d x).gatebase = h.gatebase :=
  by unfold Hart.result Hart.setS; split <;> rfl
@[simp] theorem Hart.result_asid (h : Hart) (d : SReg) (x : Word) : (h.result d x).asid = h.asid :=
  by unfold Hart.result Hart.setS; split <;> rfl
@[simp] theorem Hart.result_sbase (h : Hart) (d : SReg) (x : Word) : (h.result d x).sbase = h.sbase :=
  by unfold Hart.result Hart.setS; split <;> rfl
@[simp] theorem Hart.result_sprev (h : Hart) (d : SReg) (x : Word) : (h.result d x).sprev = h.sprev :=
  by unfold Hart.result Hart.setS; split <;> rfl
@[simp] theorem Hart.result_evf (h : Hart) (d : SReg) (x : Word) : (h.result d x).evf = h.evf :=
  by unfold Hart.result Hart.setS; split <;> rfl
@[simp] theorem Hart.result_cancel (h : Hart) (d : SReg) (x : Word) : (h.result d x).cancel = h.cancel :=
  by unfold Hart.result Hart.setS; split <;> rfl
@[simp] theorem Hart.result_cancelAt (h : Hart) (d : SReg) (x : Word) : (h.result d x).cancelAt = h.cancelAt :=
  by unfold Hart.result Hart.setS; split <;> rfl
@[simp] theorem Hart.result_handles (h : Hart) (d : SReg) (x : Word) : (h.result d x).handles = h.handles :=
  by unfold Hart.result Hart.setS; split <;> rfl
@[simp] theorem Hart.result_vq (h : Hart) (d : SReg) (x : Word) : (h.result d x).vq = h.vq :=
  by unfold Hart.result Hart.setS; split <;> rfl
@[simp] theorem Hart.result_producers (h : Hart) (d : SReg) (x : Word) : (h.result d x).producers = h.producers :=
  by unfold Hart.result Hart.setS; split <;> rfl
@[simp] theorem Hart.result_buffer (h : Hart) (d : SReg) (x : Word) : (h.result d x).buffer = h.buffer :=
  by unfold Hart.result Hart.setS; split <;> rfl
@[simp] theorem Hart.result_replay (h : Hart) (d : SReg) (x : Word) : (h.result d x).replay = h.replay :=
  by unfold Hart.result Hart.setS; split <;> rfl
@[simp] theorem Hart.result_hearth (h : Hart) (d : SReg) (x : Word) : (h.result d x).hearth = h.hearth :=
  by unfold Hart.result Hart.setS; split <;> rfl
@[simp] theorem Hart.result_parent (h : Hart) (d : SReg) (x : Word) : (h.result d x).parent = h.parent :=
  by unfold Hart.result Hart.setS; split <;> rfl
@[simp] theorem Hart.result_children (h : Hart) (d : SReg) (x : Word) : (h.result d x).children = h.children :=
  by unfold Hart.result Hart.setS; split <;> rfl
@[simp] theorem Hart.result_index (h : Hart) (d : SReg) (x : Word) : (h.result d x).index = h.index :=
  by unfold Hart.result Hart.setS; split <;> rfl
@[simp] theorem Hart.result_reservations (h : Hart) (d : SReg) (x : Word) : (h.result d x).reservations = h.reservations :=
  by unfold Hart.result Hart.setS; split <;> rfl
@[simp] theorem Hart.result_heldChannels (h : Hart) (d : SReg) (x : Word) : (h.result d x).heldChannels = h.heldChannels :=
  by unfold Hart.result Hart.setS; split <;> rfl
@[simp] theorem Hart.result_order (h : Hart) (d : SReg) (x : Word) : (h.result d x).order = h.order :=
  by unfold Hart.result Hart.setS; split <;> rfl
@[simp] theorem Hart.result_since (h : Hart) (d : SReg) (x : Word) : (h.result d x).since = h.since :=
  by unfold Hart.result Hart.setS; split <;> rfl
@[simp] theorem Hart.result_budget (h : Hart) (d : SReg) (x : Word) : (h.result d x).budget = h.budget :=
  by unfold Hart.result Hart.setS; split <;> rfl

@[simp] theorem Hart.setC_hid (h : Hart) (c : CBit) (x : Bool) : (h.setC c x).hid = h.hid := rfl
@[simp] theorem Hart.setC_task (h : Hart) (c : CBit) (x : Bool) : (h.setC c x).task = h.task := rfl
@[simp] theorem Hart.setC_status (h : Hart) (c : CBit) (x : Bool) : (h.setC c x).status = h.status := rfl
@[simp] theorem Hart.setC_mark (h : Hart) (c : CBit) (x : Bool) : (h.setC c x).mark = h.mark := rfl
@[simp] theorem Hart.setC_die (h : Hart) (c : CBit) (x : Bool) : (h.setC c x).die = h.die := rfl
@[simp] theorem Hart.setC_cell (h : Hart) (c : CBit) (x : Bool) : (h.setC c x).cell = h.cell := rfl
@[simp] theorem Hart.setC_slot (h : Hart) (c : CBit) (x : Bool) : (h.setC c x).slot = h.slot := rfl
@[simp] theorem Hart.setC_pc (h : Hart) (c : CBit) (x : Bool) : (h.setC c x).pc = h.pc := rfl
@[simp] theorem Hart.setC_sreg (h : Hart) (c : CBit) (x : Bool) : (h.setC c x).sreg = h.sreg := rfl
@[simp] theorem Hart.setC_spoison (h : Hart) (c : CBit) (x : Bool) : (h.setC c x).spoison = h.spoison := rfl
@[simp] theorem Hart.setC_vreg (h : Hart) (c : CBit) (x : Bool) : (h.setC c x).vreg = h.vreg := rfl
@[simp] theorem Hart.setC_treg (h : Hart) (c : CBit) (x : Bool) : (h.setC c x).treg = h.treg := rfl
@[simp] theorem Hart.setC_mreg (h : Hart) (c : CBit) (x : Bool) : (h.setC c x).mreg = h.mreg := rfl
@[simp] theorem Hart.setC_msm (h : Hart) (c : CBit) (x : Bool) : (h.setC c x).msm = h.msm := rfl
@[simp] theorem Hart.setC_vpoison (h : Hart) (c : CBit) (x : Bool) : (h.setC c x).vpoison = h.vpoison := rfl
@[simp] theorem Hart.setC_tpoison (h : Hart) (c : CBit) (x : Bool) : (h.setC c x).tpoison = h.tpoison := rfl
@[simp] theorem Hart.setC_mpoison (h : Hart) (c : CBit) (x : Bool) : (h.setC c x).mpoison = h.mpoison := rfl
@[simp] theorem Hart.setC_vl (h : Hart) (c : CBit) (x : Bool) : (h.setC c x).vl = h.vl := rfl
@[simp] theorem Hart.setC_msel (h : Hart) (c : CBit) (x : Bool) : (h.setC c x).msel = h.msel := rfl
@[simp] theorem Hart.setC_vstr (h : Hart) (c : CBit) (x : Bool) : (h.setC c x).vstr = h.vstr := rfl
@[simp] theorem Hart.setC_grant (h : Hart) (c : CBit) (x : Bool) : (h.setC c x).grant = h.grant := rfl
@[simp] theorem Hart.setC_vew (h : Hart) (c : CBit) (x : Bool) : (h.setC c x).vew = h.vew := rfl
@[simp] theorem Hart.setC_nextCarr (h : Hart) (c : CBit) (x : Bool) : (h.setC c x).nextCarr = h.nextCarr := rfl
@[simp] theorem Hart.setC_nextPend (h : Hart) (c : CBit) (x : Bool) : (h.setC c x).nextPend = h.nextPend := rfl
@[simp] theorem Hart.setC_part (h : Hart) (c : CBit) (x : Bool) : (h.setC c x).part = h.part := rfl
@[simp] theorem Hart.setC_frm (h : Hart) (c : CBit) (x : Bool) : (h.setC c x).frm = h.frm := rfl
@[simp] theorem Hart.setC_fflags (h : Hart) (c : CBit) (x : Bool) : (h.setC c x).fflags = h.fflags := rfl
@[simp] theorem Hart.setC_tstat (h : Hart) (c : CBit) (x : Bool) : (h.setC c x).tstat = h.tstat := rfl
@[simp] theorem Hart.setC_tgrp (h : Hart) (c : CBit) (x : Bool) : (h.setC c x).tgrp = h.tgrp := rfl
@[simp] theorem Hart.setC_tctl (h : Hart) (c : CBit) (x : Bool) : (h.setC c x).tctl = h.tctl := rfl
@[simp] theorem Hart.setC_actl (h : Hart) (c : CBit) (x : Bool) : (h.setC c x).actl = h.actl := rfl
@[simp] theorem Hart.setC_hctl (h : Hart) (c : CBit) (x : Bool) : (h.setC c x).hctl = h.hctl := rfl
@[simp] theorem Hart.setC_qimpl (h : Hart) (c : CBit) (x : Bool) : (h.setC c x).qimpl = h.qimpl := rfl
@[simp] theorem Hart.setC_qdisc (h : Hart) (c : CBit) (x : Bool) : (h.setC c x).qdisc = h.qdisc := rfl
@[simp] theorem Hart.setC_prio (h : Hart) (c : CBit) (x : Bool) : (h.setC c x).prio = h.prio := rfl
@[simp] theorem Hart.setC_ceil (h : Hart) (c : CBit) (x : Bool) : (h.setC c x).ceil = h.ceil := rfl
@[simp] theorem Hart.setC_job (h : Hart) (c : CBit) (x : Bool) : (h.setC c x).job = h.job := rfl
@[simp] theorem Hart.setC_stripmax (h : Hart) (c : CBit) (x : Bool) : (h.setC c x).stripmax = h.stripmax := rfl
@[simp] theorem Hart.setC_trap (h : Hart) (c : CBit) (x : Bool) : (h.setC c x).trap = h.trap := rfl
@[simp] theorem Hart.setC_tcnt (h : Hart) (c : CBit) (x : Bool) : (h.setC c x).tcnt = h.tcnt := rfl
@[simp] theorem Hart.setC_priv (h : Hart) (c : CBit) (x : Bool) : (h.setC c x).priv = h.priv := rfl
@[simp] theorem Hart.setC_gatebase (h : Hart) (c : CBit) (x : Bool) : (h.setC c x).gatebase = h.gatebase := rfl
@[simp] theorem Hart.setC_asid (h : Hart) (c : CBit) (x : Bool) : (h.setC c x).asid = h.asid := rfl
@[simp] theorem Hart.setC_sbase (h : Hart) (c : CBit) (x : Bool) : (h.setC c x).sbase = h.sbase := rfl
@[simp] theorem Hart.setC_sprev (h : Hart) (c : CBit) (x : Bool) : (h.setC c x).sprev = h.sprev := rfl
@[simp] theorem Hart.setC_evf (h : Hart) (c : CBit) (x : Bool) : (h.setC c x).evf = h.evf := rfl
@[simp] theorem Hart.setC_cancel (h : Hart) (c : CBit) (x : Bool) : (h.setC c x).cancel = h.cancel := rfl
@[simp] theorem Hart.setC_cancelAt (h : Hart) (c : CBit) (x : Bool) : (h.setC c x).cancelAt = h.cancelAt := rfl
@[simp] theorem Hart.setC_handles (h : Hart) (c : CBit) (x : Bool) : (h.setC c x).handles = h.handles := rfl
@[simp] theorem Hart.setC_vq (h : Hart) (c : CBit) (x : Bool) : (h.setC c x).vq = h.vq := rfl
@[simp] theorem Hart.setC_producers (h : Hart) (c : CBit) (x : Bool) : (h.setC c x).producers = h.producers := rfl
@[simp] theorem Hart.setC_buffer (h : Hart) (c : CBit) (x : Bool) : (h.setC c x).buffer = h.buffer := rfl
@[simp] theorem Hart.setC_replay (h : Hart) (c : CBit) (x : Bool) : (h.setC c x).replay = h.replay := rfl
@[simp] theorem Hart.setC_hearth (h : Hart) (c : CBit) (x : Bool) : (h.setC c x).hearth = h.hearth := rfl
@[simp] theorem Hart.setC_parent (h : Hart) (c : CBit) (x : Bool) : (h.setC c x).parent = h.parent := rfl
@[simp] theorem Hart.setC_children (h : Hart) (c : CBit) (x : Bool) : (h.setC c x).children = h.children := rfl
@[simp] theorem Hart.setC_index (h : Hart) (c : CBit) (x : Bool) : (h.setC c x).index = h.index := rfl
@[simp] theorem Hart.setC_reservations (h : Hart) (c : CBit) (x : Bool) : (h.setC c x).reservations = h.reservations :=
  rfl
@[simp] theorem Hart.setC_heldChannels (h : Hart) (c : CBit) (x : Bool) : (h.setC c x).heldChannels = h.heldChannels :=
  rfl
@[simp] theorem Hart.setC_order (h : Hart) (c : CBit) (x : Bool) : (h.setC c x).order = h.order := rfl
@[simp] theorem Hart.setC_since (h : Hart) (c : CBit) (x : Bool) : (h.setC c x).since = h.since := rfl
@[simp] theorem Hart.setC_budget (h : Hart) (c : CBit) (x : Bool) : (h.setC c x).budget = h.budget := rfl

@[simp] theorem Hart.raise_hid (h : Hart) (g : FFlags) : (h.raise g).hid = h.hid := rfl
@[simp] theorem Hart.raise_task (h : Hart) (g : FFlags) : (h.raise g).task = h.task := rfl
@[simp] theorem Hart.raise_status (h : Hart) (g : FFlags) : (h.raise g).status = h.status := rfl
@[simp] theorem Hart.raise_mark (h : Hart) (g : FFlags) : (h.raise g).mark = h.mark := rfl
@[simp] theorem Hart.raise_die (h : Hart) (g : FFlags) : (h.raise g).die = h.die := rfl
@[simp] theorem Hart.raise_cell (h : Hart) (g : FFlags) : (h.raise g).cell = h.cell := rfl
@[simp] theorem Hart.raise_slot (h : Hart) (g : FFlags) : (h.raise g).slot = h.slot := rfl
@[simp] theorem Hart.raise_pc (h : Hart) (g : FFlags) : (h.raise g).pc = h.pc := rfl
@[simp] theorem Hart.raise_sreg (h : Hart) (g : FFlags) : (h.raise g).sreg = h.sreg := rfl
@[simp] theorem Hart.raise_spoison (h : Hart) (g : FFlags) : (h.raise g).spoison = h.spoison := rfl
@[simp] theorem Hart.raise_cbit (h : Hart) (g : FFlags) : (h.raise g).cbit = h.cbit := rfl
@[simp] theorem Hart.raise_vreg (h : Hart) (g : FFlags) : (h.raise g).vreg = h.vreg := rfl
@[simp] theorem Hart.raise_treg (h : Hart) (g : FFlags) : (h.raise g).treg = h.treg := rfl
@[simp] theorem Hart.raise_mreg (h : Hart) (g : FFlags) : (h.raise g).mreg = h.mreg := rfl
@[simp] theorem Hart.raise_msm (h : Hart) (g : FFlags) : (h.raise g).msm = h.msm := rfl
@[simp] theorem Hart.raise_vpoison (h : Hart) (g : FFlags) : (h.raise g).vpoison = h.vpoison := rfl
@[simp] theorem Hart.raise_tpoison (h : Hart) (g : FFlags) : (h.raise g).tpoison = h.tpoison := rfl
@[simp] theorem Hart.raise_mpoison (h : Hart) (g : FFlags) : (h.raise g).mpoison = h.mpoison := rfl
@[simp] theorem Hart.raise_vl (h : Hart) (g : FFlags) : (h.raise g).vl = h.vl := rfl
@[simp] theorem Hart.raise_msel (h : Hart) (g : FFlags) : (h.raise g).msel = h.msel := rfl
@[simp] theorem Hart.raise_vstr (h : Hart) (g : FFlags) : (h.raise g).vstr = h.vstr := rfl
@[simp] theorem Hart.raise_grant (h : Hart) (g : FFlags) : (h.raise g).grant = h.grant := rfl
@[simp] theorem Hart.raise_vew (h : Hart) (g : FFlags) : (h.raise g).vew = h.vew := rfl
@[simp] theorem Hart.raise_nextCarr (h : Hart) (g : FFlags) : (h.raise g).nextCarr = h.nextCarr := rfl
@[simp] theorem Hart.raise_nextPend (h : Hart) (g : FFlags) : (h.raise g).nextPend = h.nextPend := rfl
@[simp] theorem Hart.raise_part (h : Hart) (g : FFlags) : (h.raise g).part = h.part := rfl
@[simp] theorem Hart.raise_frm (h : Hart) (g : FFlags) : (h.raise g).frm = h.frm := rfl
@[simp] theorem Hart.raise_tstat (h : Hart) (g : FFlags) : (h.raise g).tstat = h.tstat := rfl
@[simp] theorem Hart.raise_tgrp (h : Hart) (g : FFlags) : (h.raise g).tgrp = h.tgrp := rfl
@[simp] theorem Hart.raise_tctl (h : Hart) (g : FFlags) : (h.raise g).tctl = h.tctl := rfl
@[simp] theorem Hart.raise_actl (h : Hart) (g : FFlags) : (h.raise g).actl = h.actl := rfl
@[simp] theorem Hart.raise_hctl (h : Hart) (g : FFlags) : (h.raise g).hctl = h.hctl := rfl
@[simp] theorem Hart.raise_qimpl (h : Hart) (g : FFlags) : (h.raise g).qimpl = h.qimpl := rfl
@[simp] theorem Hart.raise_qdisc (h : Hart) (g : FFlags) : (h.raise g).qdisc = h.qdisc := rfl
@[simp] theorem Hart.raise_prio (h : Hart) (g : FFlags) : (h.raise g).prio = h.prio := rfl
@[simp] theorem Hart.raise_ceil (h : Hart) (g : FFlags) : (h.raise g).ceil = h.ceil := rfl
@[simp] theorem Hart.raise_job (h : Hart) (g : FFlags) : (h.raise g).job = h.job := rfl
@[simp] theorem Hart.raise_stripmax (h : Hart) (g : FFlags) : (h.raise g).stripmax = h.stripmax := rfl
@[simp] theorem Hart.raise_trap (h : Hart) (g : FFlags) : (h.raise g).trap = h.trap := rfl
@[simp] theorem Hart.raise_tcnt (h : Hart) (g : FFlags) : (h.raise g).tcnt = h.tcnt := rfl
@[simp] theorem Hart.raise_priv (h : Hart) (g : FFlags) : (h.raise g).priv = h.priv := rfl
@[simp] theorem Hart.raise_gatebase (h : Hart) (g : FFlags) : (h.raise g).gatebase = h.gatebase := rfl
@[simp] theorem Hart.raise_asid (h : Hart) (g : FFlags) : (h.raise g).asid = h.asid := rfl
@[simp] theorem Hart.raise_sbase (h : Hart) (g : FFlags) : (h.raise g).sbase = h.sbase := rfl
@[simp] theorem Hart.raise_sprev (h : Hart) (g : FFlags) : (h.raise g).sprev = h.sprev := rfl
@[simp] theorem Hart.raise_evf (h : Hart) (g : FFlags) : (h.raise g).evf = h.evf := rfl
@[simp] theorem Hart.raise_cancel (h : Hart) (g : FFlags) : (h.raise g).cancel = h.cancel := rfl
@[simp] theorem Hart.raise_cancelAt (h : Hart) (g : FFlags) : (h.raise g).cancelAt = h.cancelAt := rfl
@[simp] theorem Hart.raise_handles (h : Hart) (g : FFlags) : (h.raise g).handles = h.handles := rfl
@[simp] theorem Hart.raise_vq (h : Hart) (g : FFlags) : (h.raise g).vq = h.vq := rfl
@[simp] theorem Hart.raise_producers (h : Hart) (g : FFlags) : (h.raise g).producers = h.producers := rfl
@[simp] theorem Hart.raise_buffer (h : Hart) (g : FFlags) : (h.raise g).buffer = h.buffer := rfl
@[simp] theorem Hart.raise_replay (h : Hart) (g : FFlags) : (h.raise g).replay = h.replay := rfl
@[simp] theorem Hart.raise_hearth (h : Hart) (g : FFlags) : (h.raise g).hearth = h.hearth := rfl
@[simp] theorem Hart.raise_parent (h : Hart) (g : FFlags) : (h.raise g).parent = h.parent := rfl
@[simp] theorem Hart.raise_children (h : Hart) (g : FFlags) : (h.raise g).children = h.children := rfl
@[simp] theorem Hart.raise_index (h : Hart) (g : FFlags) : (h.raise g).index = h.index := rfl
@[simp] theorem Hart.raise_reservations (h : Hart) (g : FFlags) : (h.raise g).reservations = h.reservations := rfl
@[simp] theorem Hart.raise_heldChannels (h : Hart) (g : FFlags) : (h.raise g).heldChannels = h.heldChannels := rfl
@[simp] theorem Hart.raise_order (h : Hart) (g : FFlags) : (h.raise g).order = h.order := rfl
@[simp] theorem Hart.raise_since (h : Hart) (g : FFlags) : (h.raise g).since = h.since := rfl
@[simp] theorem Hart.raise_budget (h : Hart) (g : FFlags) : (h.raise g).budget = h.budget := rfl

@[simp] theorem Hart.produce_hid (h : Hart) (d : SReg) (x : Word) : (h.produce d x).hid = h.hid :=
  by unfold Hart.produce; split <;> rfl
@[simp] theorem Hart.produce_task (h : Hart) (d : SReg) (x : Word) : (h.produce d x).task = h.task :=
  by unfold Hart.produce; split <;> rfl
@[simp] theorem Hart.produce_status (h : Hart) (d : SReg) (x : Word) : (h.produce d x).status = h.status :=
  by unfold Hart.produce; split <;> rfl
@[simp] theorem Hart.produce_mark (h : Hart) (d : SReg) (x : Word) : (h.produce d x).mark = h.mark :=
  by unfold Hart.produce; split <;> rfl
@[simp] theorem Hart.produce_die (h : Hart) (d : SReg) (x : Word) : (h.produce d x).die = h.die :=
  by unfold Hart.produce; split <;> rfl
@[simp] theorem Hart.produce_cell (h : Hart) (d : SReg) (x : Word) : (h.produce d x).cell = h.cell :=
  by unfold Hart.produce; split <;> rfl
@[simp] theorem Hart.produce_slot (h : Hart) (d : SReg) (x : Word) : (h.produce d x).slot = h.slot :=
  by unfold Hart.produce; split <;> rfl
@[simp] theorem Hart.produce_pc (h : Hart) (d : SReg) (x : Word) : (h.produce d x).pc = h.pc :=
  by unfold Hart.produce; split <;> rfl
@[simp] theorem Hart.produce_sreg (h : Hart) (d : SReg) (x : Word) : (h.produce d x).sreg = h.sreg :=
  by unfold Hart.produce; split <;> rfl
@[simp] theorem Hart.produce_spoison (h : Hart) (d : SReg) (x : Word) : (h.produce d x).spoison = h.spoison :=
  by unfold Hart.produce; split <;> rfl
@[simp] theorem Hart.produce_cbit (h : Hart) (d : SReg) (x : Word) : (h.produce d x).cbit = h.cbit :=
  by unfold Hart.produce; split <;> rfl
@[simp] theorem Hart.produce_vreg (h : Hart) (d : SReg) (x : Word) : (h.produce d x).vreg = h.vreg :=
  by unfold Hart.produce; split <;> rfl
@[simp] theorem Hart.produce_treg (h : Hart) (d : SReg) (x : Word) : (h.produce d x).treg = h.treg :=
  by unfold Hart.produce; split <;> rfl
@[simp] theorem Hart.produce_mreg (h : Hart) (d : SReg) (x : Word) : (h.produce d x).mreg = h.mreg :=
  by unfold Hart.produce; split <;> rfl
@[simp] theorem Hart.produce_msm (h : Hart) (d : SReg) (x : Word) : (h.produce d x).msm = h.msm :=
  by unfold Hart.produce; split <;> rfl
@[simp] theorem Hart.produce_vpoison (h : Hart) (d : SReg) (x : Word) : (h.produce d x).vpoison = h.vpoison :=
  by unfold Hart.produce; split <;> rfl
@[simp] theorem Hart.produce_tpoison (h : Hart) (d : SReg) (x : Word) : (h.produce d x).tpoison = h.tpoison :=
  by unfold Hart.produce; split <;> rfl
@[simp] theorem Hart.produce_mpoison (h : Hart) (d : SReg) (x : Word) : (h.produce d x).mpoison = h.mpoison :=
  by unfold Hart.produce; split <;> rfl
@[simp] theorem Hart.produce_vl (h : Hart) (d : SReg) (x : Word) : (h.produce d x).vl = h.vl :=
  by unfold Hart.produce; split <;> rfl
@[simp] theorem Hart.produce_msel (h : Hart) (d : SReg) (x : Word) : (h.produce d x).msel = h.msel :=
  by unfold Hart.produce; split <;> rfl
@[simp] theorem Hart.produce_vstr (h : Hart) (d : SReg) (x : Word) : (h.produce d x).vstr = h.vstr :=
  by unfold Hart.produce; split <;> rfl
@[simp] theorem Hart.produce_grant (h : Hart) (d : SReg) (x : Word) : (h.produce d x).grant = h.grant :=
  by unfold Hart.produce; split <;> rfl
@[simp] theorem Hart.produce_vew (h : Hart) (d : SReg) (x : Word) : (h.produce d x).vew = h.vew :=
  by unfold Hart.produce; split <;> rfl
@[simp] theorem Hart.produce_nextCarr (h : Hart) (d : SReg) (x : Word) : (h.produce d x).nextCarr = h.nextCarr :=
  by unfold Hart.produce; split <;> rfl
@[simp] theorem Hart.produce_nextPend (h : Hart) (d : SReg) (x : Word) : (h.produce d x).nextPend = h.nextPend :=
  by unfold Hart.produce; split <;> rfl
@[simp] theorem Hart.produce_part (h : Hart) (d : SReg) (x : Word) : (h.produce d x).part = h.part :=
  by unfold Hart.produce; split <;> rfl
@[simp] theorem Hart.produce_frm (h : Hart) (d : SReg) (x : Word) : (h.produce d x).frm = h.frm :=
  by unfold Hart.produce; split <;> rfl
@[simp] theorem Hart.produce_fflags (h : Hart) (d : SReg) (x : Word) : (h.produce d x).fflags = h.fflags :=
  by unfold Hart.produce; split <;> rfl
@[simp] theorem Hart.produce_tstat (h : Hart) (d : SReg) (x : Word) : (h.produce d x).tstat = h.tstat :=
  by unfold Hart.produce; split <;> rfl
@[simp] theorem Hart.produce_tgrp (h : Hart) (d : SReg) (x : Word) : (h.produce d x).tgrp = h.tgrp :=
  by unfold Hart.produce; split <;> rfl
@[simp] theorem Hart.produce_tctl (h : Hart) (d : SReg) (x : Word) : (h.produce d x).tctl = h.tctl :=
  by unfold Hart.produce; split <;> rfl
@[simp] theorem Hart.produce_actl (h : Hart) (d : SReg) (x : Word) : (h.produce d x).actl = h.actl :=
  by unfold Hart.produce; split <;> rfl
@[simp] theorem Hart.produce_hctl (h : Hart) (d : SReg) (x : Word) : (h.produce d x).hctl = h.hctl :=
  by unfold Hart.produce; split <;> rfl
@[simp] theorem Hart.produce_qimpl (h : Hart) (d : SReg) (x : Word) : (h.produce d x).qimpl = h.qimpl :=
  by unfold Hart.produce; split <;> rfl
@[simp] theorem Hart.produce_qdisc (h : Hart) (d : SReg) (x : Word) : (h.produce d x).qdisc = h.qdisc :=
  by unfold Hart.produce; split <;> rfl
@[simp] theorem Hart.produce_prio (h : Hart) (d : SReg) (x : Word) : (h.produce d x).prio = h.prio :=
  by unfold Hart.produce; split <;> rfl
@[simp] theorem Hart.produce_ceil (h : Hart) (d : SReg) (x : Word) : (h.produce d x).ceil = h.ceil :=
  by unfold Hart.produce; split <;> rfl
@[simp] theorem Hart.produce_job (h : Hart) (d : SReg) (x : Word) : (h.produce d x).job = h.job :=
  by unfold Hart.produce; split <;> rfl
@[simp] theorem Hart.produce_stripmax (h : Hart) (d : SReg) (x : Word) : (h.produce d x).stripmax = h.stripmax :=
  by unfold Hart.produce; split <;> rfl
@[simp] theorem Hart.produce_trap (h : Hart) (d : SReg) (x : Word) : (h.produce d x).trap = h.trap :=
  by unfold Hart.produce; split <;> rfl
@[simp] theorem Hart.produce_tcnt (h : Hart) (d : SReg) (x : Word) : (h.produce d x).tcnt = h.tcnt :=
  by unfold Hart.produce; split <;> rfl
@[simp] theorem Hart.produce_priv (h : Hart) (d : SReg) (x : Word) : (h.produce d x).priv = h.priv :=
  by unfold Hart.produce; split <;> rfl
@[simp] theorem Hart.produce_gatebase (h : Hart) (d : SReg) (x : Word) : (h.produce d x).gatebase = h.gatebase :=
  by unfold Hart.produce; split <;> rfl
@[simp] theorem Hart.produce_asid (h : Hart) (d : SReg) (x : Word) : (h.produce d x).asid = h.asid :=
  by unfold Hart.produce; split <;> rfl
@[simp] theorem Hart.produce_sbase (h : Hart) (d : SReg) (x : Word) : (h.produce d x).sbase = h.sbase :=
  by unfold Hart.produce; split <;> rfl
@[simp] theorem Hart.produce_sprev (h : Hart) (d : SReg) (x : Word) : (h.produce d x).sprev = h.sprev :=
  by unfold Hart.produce; split <;> rfl
@[simp] theorem Hart.produce_evf (h : Hart) (d : SReg) (x : Word) : (h.produce d x).evf = h.evf :=
  by unfold Hart.produce; split <;> rfl
@[simp] theorem Hart.produce_cancel (h : Hart) (d : SReg) (x : Word) : (h.produce d x).cancel = h.cancel :=
  by unfold Hart.produce; split <;> rfl
@[simp] theorem Hart.produce_cancelAt (h : Hart) (d : SReg) (x : Word) : (h.produce d x).cancelAt = h.cancelAt :=
  by unfold Hart.produce; split <;> rfl
@[simp] theorem Hart.produce_handles (h : Hart) (d : SReg) (x : Word) : (h.produce d x).handles = h.handles :=
  by unfold Hart.produce; split <;> rfl
@[simp] theorem Hart.produce_vq (h : Hart) (d : SReg) (x : Word) : (h.produce d x).vq = h.vq :=
  by unfold Hart.produce; split <;> rfl
@[simp] theorem Hart.produce_buffer (h : Hart) (d : SReg) (x : Word) : (h.produce d x).buffer = h.buffer :=
  by unfold Hart.produce; split <;> rfl
@[simp] theorem Hart.produce_replay (h : Hart) (d : SReg) (x : Word) : (h.produce d x).replay = h.replay :=
  by unfold Hart.produce; split <;> rfl
@[simp] theorem Hart.produce_hearth (h : Hart) (d : SReg) (x : Word) : (h.produce d x).hearth = h.hearth :=
  by unfold Hart.produce; split <;> rfl
@[simp] theorem Hart.produce_parent (h : Hart) (d : SReg) (x : Word) : (h.produce d x).parent = h.parent :=
  by unfold Hart.produce; split <;> rfl
@[simp] theorem Hart.produce_children (h : Hart) (d : SReg) (x : Word) : (h.produce d x).children = h.children :=
  by unfold Hart.produce; split <;> rfl
@[simp] theorem Hart.produce_index (h : Hart) (d : SReg) (x : Word) : (h.produce d x).index = h.index :=
  by unfold Hart.produce; split <;> rfl
@[simp] theorem Hart.produce_reservations (h : Hart) (d : SReg) (x : Word) : (h.produce d x).reservations = h.reservations :=
  by unfold Hart.produce; split <;> rfl
@[simp] theorem Hart.produce_heldChannels (h : Hart) (d : SReg) (x : Word) : (h.produce d x).heldChannels = h.heldChannels :=
  by unfold Hart.produce; split <;> rfl
@[simp] theorem Hart.produce_order (h : Hart) (d : SReg) (x : Word) : (h.produce d x).order = h.order :=
  by unfold Hart.produce; split <;> rfl
@[simp] theorem Hart.produce_since (h : Hart) (d : SReg) (x : Word) : (h.produce d x).since = h.since :=
  by unfold Hart.produce; split <;> rfl
@[simp] theorem Hart.produce_budget (h : Hart) (d : SReg) (x : Word) : (h.produce d x).budget = h.budget :=
  by unfold Hart.produce; split <;> rfl

@[simp] theorem Hart.setV_hid (h : Hart) (r : VReg) (w : Nat) (l : List (Nat × Nat)) : (h.setV r w l).hid = h.hid :=
  rfl
@[simp] theorem Hart.setV_task (h : Hart) (r : VReg) (w : Nat) (l : List (Nat × Nat)) : (h.setV r w l).task = h.task :=
  rfl
@[simp] theorem Hart.setV_status (h : Hart) (r : VReg) (w : Nat) (l : List (Nat × Nat)) : (h.setV r w l).status = h.status :=
  rfl
@[simp] theorem Hart.setV_mark (h : Hart) (r : VReg) (w : Nat) (l : List (Nat × Nat)) : (h.setV r w l).mark = h.mark :=
  rfl
@[simp] theorem Hart.setV_die (h : Hart) (r : VReg) (w : Nat) (l : List (Nat × Nat)) : (h.setV r w l).die = h.die :=
  rfl
@[simp] theorem Hart.setV_cell (h : Hart) (r : VReg) (w : Nat) (l : List (Nat × Nat)) : (h.setV r w l).cell = h.cell :=
  rfl
@[simp] theorem Hart.setV_slot (h : Hart) (r : VReg) (w : Nat) (l : List (Nat × Nat)) : (h.setV r w l).slot = h.slot :=
  rfl
@[simp] theorem Hart.setV_pc (h : Hart) (r : VReg) (w : Nat) (l : List (Nat × Nat)) : (h.setV r w l).pc = h.pc := rfl
@[simp] theorem Hart.setV_sreg (h : Hart) (r : VReg) (w : Nat) (l : List (Nat × Nat)) : (h.setV r w l).sreg = h.sreg :=
  rfl
@[simp] theorem Hart.setV_spoison (h : Hart) (r : VReg) (w : Nat) (l : List (Nat × Nat)) : (h.setV r w l).spoison = h.spoison :=
  rfl
@[simp] theorem Hart.setV_cbit (h : Hart) (r : VReg) (w : Nat) (l : List (Nat × Nat)) : (h.setV r w l).cbit = h.cbit :=
  rfl
@[simp] theorem Hart.setV_treg (h : Hart) (r : VReg) (w : Nat) (l : List (Nat × Nat)) : (h.setV r w l).treg = h.treg :=
  rfl
@[simp] theorem Hart.setV_mreg (h : Hart) (r : VReg) (w : Nat) (l : List (Nat × Nat)) : (h.setV r w l).mreg = h.mreg :=
  rfl
@[simp] theorem Hart.setV_msm (h : Hart) (r : VReg) (w : Nat) (l : List (Nat × Nat)) : (h.setV r w l).msm = h.msm :=
  rfl
@[simp] theorem Hart.setV_tpoison (h : Hart) (r : VReg) (w : Nat) (l : List (Nat × Nat)) : (h.setV r w l).tpoison = h.tpoison :=
  rfl
@[simp] theorem Hart.setV_mpoison (h : Hart) (r : VReg) (w : Nat) (l : List (Nat × Nat)) : (h.setV r w l).mpoison = h.mpoison :=
  rfl
@[simp] theorem Hart.setV_vl (h : Hart) (r : VReg) (w : Nat) (l : List (Nat × Nat)) : (h.setV r w l).vl = h.vl := rfl
@[simp] theorem Hart.setV_msel (h : Hart) (r : VReg) (w : Nat) (l : List (Nat × Nat)) : (h.setV r w l).msel = h.msel :=
  rfl
@[simp] theorem Hart.setV_vstr (h : Hart) (r : VReg) (w : Nat) (l : List (Nat × Nat)) : (h.setV r w l).vstr = h.vstr :=
  rfl
@[simp] theorem Hart.setV_grant (h : Hart) (r : VReg) (w : Nat) (l : List (Nat × Nat)) : (h.setV r w l).grant = h.grant :=
  rfl
@[simp] theorem Hart.setV_vew (h : Hart) (r : VReg) (w : Nat) (l : List (Nat × Nat)) : (h.setV r w l).vew = h.vew :=
  rfl
@[simp] theorem Hart.setV_nextCarr (h : Hart) (r : VReg) (w : Nat) (l : List (Nat × Nat)) : (h.setV r w l).nextCarr = h.nextCarr :=
  rfl
@[simp] theorem Hart.setV_nextPend (h : Hart) (r : VReg) (w : Nat) (l : List (Nat × Nat)) : (h.setV r w l).nextPend = h.nextPend :=
  rfl
@[simp] theorem Hart.setV_part (h : Hart) (r : VReg) (w : Nat) (l : List (Nat × Nat)) : (h.setV r w l).part = h.part :=
  rfl
@[simp] theorem Hart.setV_frm (h : Hart) (r : VReg) (w : Nat) (l : List (Nat × Nat)) : (h.setV r w l).frm = h.frm :=
  rfl
@[simp] theorem Hart.setV_fflags (h : Hart) (r : VReg) (w : Nat) (l : List (Nat × Nat)) : (h.setV r w l).fflags = h.fflags :=
  rfl
@[simp] theorem Hart.setV_tstat (h : Hart) (r : VReg) (w : Nat) (l : List (Nat × Nat)) : (h.setV r w l).tstat = h.tstat :=
  rfl
@[simp] theorem Hart.setV_tgrp (h : Hart) (r : VReg) (w : Nat) (l : List (Nat × Nat)) : (h.setV r w l).tgrp = h.tgrp :=
  rfl
@[simp] theorem Hart.setV_tctl (h : Hart) (r : VReg) (w : Nat) (l : List (Nat × Nat)) : (h.setV r w l).tctl = h.tctl :=
  rfl
@[simp] theorem Hart.setV_actl (h : Hart) (r : VReg) (w : Nat) (l : List (Nat × Nat)) : (h.setV r w l).actl = h.actl :=
  rfl
@[simp] theorem Hart.setV_hctl (h : Hart) (r : VReg) (w : Nat) (l : List (Nat × Nat)) : (h.setV r w l).hctl = h.hctl :=
  rfl
@[simp] theorem Hart.setV_qimpl (h : Hart) (r : VReg) (w : Nat) (l : List (Nat × Nat)) : (h.setV r w l).qimpl = h.qimpl :=
  rfl
@[simp] theorem Hart.setV_qdisc (h : Hart) (r : VReg) (w : Nat) (l : List (Nat × Nat)) : (h.setV r w l).qdisc = h.qdisc :=
  rfl
@[simp] theorem Hart.setV_prio (h : Hart) (r : VReg) (w : Nat) (l : List (Nat × Nat)) : (h.setV r w l).prio = h.prio :=
  rfl
@[simp] theorem Hart.setV_ceil (h : Hart) (r : VReg) (w : Nat) (l : List (Nat × Nat)) : (h.setV r w l).ceil = h.ceil :=
  rfl
@[simp] theorem Hart.setV_job (h : Hart) (r : VReg) (w : Nat) (l : List (Nat × Nat)) : (h.setV r w l).job = h.job :=
  rfl
@[simp] theorem Hart.setV_stripmax (h : Hart) (r : VReg) (w : Nat) (l : List (Nat × Nat)) : (h.setV r w l).stripmax = h.stripmax :=
  rfl
@[simp] theorem Hart.setV_trap (h : Hart) (r : VReg) (w : Nat) (l : List (Nat × Nat)) : (h.setV r w l).trap = h.trap :=
  rfl
@[simp] theorem Hart.setV_tcnt (h : Hart) (r : VReg) (w : Nat) (l : List (Nat × Nat)) : (h.setV r w l).tcnt = h.tcnt :=
  rfl
@[simp] theorem Hart.setV_priv (h : Hart) (r : VReg) (w : Nat) (l : List (Nat × Nat)) : (h.setV r w l).priv = h.priv :=
  rfl
@[simp] theorem Hart.setV_gatebase (h : Hart) (r : VReg) (w : Nat) (l : List (Nat × Nat)) : (h.setV r w l).gatebase = h.gatebase :=
  rfl
@[simp] theorem Hart.setV_asid (h : Hart) (r : VReg) (w : Nat) (l : List (Nat × Nat)) : (h.setV r w l).asid = h.asid :=
  rfl
@[simp] theorem Hart.setV_sbase (h : Hart) (r : VReg) (w : Nat) (l : List (Nat × Nat)) : (h.setV r w l).sbase = h.sbase :=
  rfl
@[simp] theorem Hart.setV_sprev (h : Hart) (r : VReg) (w : Nat) (l : List (Nat × Nat)) : (h.setV r w l).sprev = h.sprev :=
  rfl
@[simp] theorem Hart.setV_evf (h : Hart) (r : VReg) (w : Nat) (l : List (Nat × Nat)) : (h.setV r w l).evf = h.evf :=
  rfl
@[simp] theorem Hart.setV_cancel (h : Hart) (r : VReg) (w : Nat) (l : List (Nat × Nat)) : (h.setV r w l).cancel = h.cancel :=
  rfl
@[simp] theorem Hart.setV_cancelAt (h : Hart) (r : VReg) (w : Nat) (l : List (Nat × Nat)) : (h.setV r w l).cancelAt = h.cancelAt :=
  rfl
@[simp] theorem Hart.setV_handles (h : Hart) (r : VReg) (w : Nat) (l : List (Nat × Nat)) : (h.setV r w l).handles = h.handles :=
  rfl
@[simp] theorem Hart.setV_vq (h : Hart) (r : VReg) (w : Nat) (l : List (Nat × Nat)) : (h.setV r w l).vq = h.vq := rfl
@[simp] theorem Hart.setV_producers (h : Hart) (r : VReg) (w : Nat) (l : List (Nat × Nat)) : (h.setV r w l).producers = h.producers :=
  rfl
@[simp] theorem Hart.setV_buffer (h : Hart) (r : VReg) (w : Nat) (l : List (Nat × Nat)) : (h.setV r w l).buffer = h.buffer :=
  rfl
@[simp] theorem Hart.setV_replay (h : Hart) (r : VReg) (w : Nat) (l : List (Nat × Nat)) : (h.setV r w l).replay = h.replay :=
  rfl
@[simp] theorem Hart.setV_hearth (h : Hart) (r : VReg) (w : Nat) (l : List (Nat × Nat)) : (h.setV r w l).hearth = h.hearth :=
  rfl
@[simp] theorem Hart.setV_parent (h : Hart) (r : VReg) (w : Nat) (l : List (Nat × Nat)) : (h.setV r w l).parent = h.parent :=
  rfl
@[simp] theorem Hart.setV_children (h : Hart) (r : VReg) (w : Nat) (l : List (Nat × Nat)) : (h.setV r w l).children = h.children :=
  rfl
@[simp] theorem Hart.setV_index (h : Hart) (r : VReg) (w : Nat) (l : List (Nat × Nat)) : (h.setV r w l).index = h.index :=
  rfl
@[simp] theorem Hart.setV_reservations (h : Hart) (r : VReg) (w : Nat) (l : List (Nat × Nat)) : (h.setV r w l).reservations = h.reservations :=
  rfl
@[simp] theorem Hart.setV_heldChannels (h : Hart) (r : VReg) (w : Nat) (l : List (Nat × Nat)) : (h.setV r w l).heldChannels = h.heldChannels :=
  rfl
@[simp] theorem Hart.setV_order (h : Hart) (r : VReg) (w : Nat) (l : List (Nat × Nat)) : (h.setV r w l).order = h.order :=
  rfl
@[simp] theorem Hart.setV_since (h : Hart) (r : VReg) (w : Nat) (l : List (Nat × Nat)) : (h.setV r w l).since = h.since :=
  rfl
@[simp] theorem Hart.setV_budget (h : Hart) (r : VReg) (w : Nat) (l : List (Nat × Nat)) : (h.setV r w l).budget = h.budget :=
  rfl

@[simp] theorem Hart.produceV_hid (h : Hart) (r : VReg) (w : Nat) (l : List (Nat × Nat)) : (h.produceV r w l).hid = h.hid :=
  rfl
@[simp] theorem Hart.produceV_task (h : Hart) (r : VReg) (w : Nat) (l : List (Nat × Nat)) : (h.produceV r w l).task = h.task :=
  rfl
@[simp] theorem Hart.produceV_status (h : Hart) (r : VReg) (w : Nat) (l : List (Nat × Nat)) : (h.produceV r w l).status = h.status :=
  rfl
@[simp] theorem Hart.produceV_mark (h : Hart) (r : VReg) (w : Nat) (l : List (Nat × Nat)) : (h.produceV r w l).mark = h.mark :=
  rfl
@[simp] theorem Hart.produceV_die (h : Hart) (r : VReg) (w : Nat) (l : List (Nat × Nat)) : (h.produceV r w l).die = h.die :=
  rfl
@[simp] theorem Hart.produceV_cell (h : Hart) (r : VReg) (w : Nat) (l : List (Nat × Nat)) : (h.produceV r w l).cell = h.cell :=
  rfl
@[simp] theorem Hart.produceV_slot (h : Hart) (r : VReg) (w : Nat) (l : List (Nat × Nat)) : (h.produceV r w l).slot = h.slot :=
  rfl
@[simp] theorem Hart.produceV_pc (h : Hart) (r : VReg) (w : Nat) (l : List (Nat × Nat)) : (h.produceV r w l).pc = h.pc :=
  rfl
@[simp] theorem Hart.produceV_sreg (h : Hart) (r : VReg) (w : Nat) (l : List (Nat × Nat)) : (h.produceV r w l).sreg = h.sreg :=
  rfl
@[simp] theorem Hart.produceV_spoison (h : Hart) (r : VReg) (w : Nat) (l : List (Nat × Nat)) : (h.produceV r w l).spoison = h.spoison :=
  rfl
@[simp] theorem Hart.produceV_cbit (h : Hart) (r : VReg) (w : Nat) (l : List (Nat × Nat)) : (h.produceV r w l).cbit = h.cbit :=
  rfl
@[simp] theorem Hart.produceV_vreg (h : Hart) (r : VReg) (w : Nat) (l : List (Nat × Nat)) : (h.produceV r w l).vreg = h.vreg :=
  rfl
@[simp] theorem Hart.produceV_treg (h : Hart) (r : VReg) (w : Nat) (l : List (Nat × Nat)) : (h.produceV r w l).treg = h.treg :=
  rfl
@[simp] theorem Hart.produceV_mreg (h : Hart) (r : VReg) (w : Nat) (l : List (Nat × Nat)) : (h.produceV r w l).mreg = h.mreg :=
  rfl
@[simp] theorem Hart.produceV_msm (h : Hart) (r : VReg) (w : Nat) (l : List (Nat × Nat)) : (h.produceV r w l).msm = h.msm :=
  rfl
@[simp] theorem Hart.produceV_tpoison (h : Hart) (r : VReg) (w : Nat) (l : List (Nat × Nat)) : (h.produceV r w l).tpoison = h.tpoison :=
  rfl
@[simp] theorem Hart.produceV_mpoison (h : Hart) (r : VReg) (w : Nat) (l : List (Nat × Nat)) : (h.produceV r w l).mpoison = h.mpoison :=
  rfl
@[simp] theorem Hart.produceV_vl (h : Hart) (r : VReg) (w : Nat) (l : List (Nat × Nat)) : (h.produceV r w l).vl = h.vl :=
  rfl
@[simp] theorem Hart.produceV_msel (h : Hart) (r : VReg) (w : Nat) (l : List (Nat × Nat)) : (h.produceV r w l).msel = h.msel :=
  rfl
@[simp] theorem Hart.produceV_vstr (h : Hart) (r : VReg) (w : Nat) (l : List (Nat × Nat)) : (h.produceV r w l).vstr = h.vstr :=
  rfl
@[simp] theorem Hart.produceV_grant (h : Hart) (r : VReg) (w : Nat) (l : List (Nat × Nat)) : (h.produceV r w l).grant = h.grant :=
  rfl
@[simp] theorem Hart.produceV_vew (h : Hart) (r : VReg) (w : Nat) (l : List (Nat × Nat)) : (h.produceV r w l).vew = h.vew :=
  rfl
@[simp] theorem Hart.produceV_nextCarr (h : Hart) (r : VReg) (w : Nat) (l : List (Nat × Nat)) : (h.produceV r w l).nextCarr = h.nextCarr :=
  rfl
@[simp] theorem Hart.produceV_nextPend (h : Hart) (r : VReg) (w : Nat) (l : List (Nat × Nat)) : (h.produceV r w l).nextPend = h.nextPend :=
  rfl
@[simp] theorem Hart.produceV_part (h : Hart) (r : VReg) (w : Nat) (l : List (Nat × Nat)) : (h.produceV r w l).part = h.part :=
  rfl
@[simp] theorem Hart.produceV_frm (h : Hart) (r : VReg) (w : Nat) (l : List (Nat × Nat)) : (h.produceV r w l).frm = h.frm :=
  rfl
@[simp] theorem Hart.produceV_fflags (h : Hart) (r : VReg) (w : Nat) (l : List (Nat × Nat)) : (h.produceV r w l).fflags = h.fflags :=
  rfl
@[simp] theorem Hart.produceV_tstat (h : Hart) (r : VReg) (w : Nat) (l : List (Nat × Nat)) : (h.produceV r w l).tstat = h.tstat :=
  rfl
@[simp] theorem Hart.produceV_tgrp (h : Hart) (r : VReg) (w : Nat) (l : List (Nat × Nat)) : (h.produceV r w l).tgrp = h.tgrp :=
  rfl
@[simp] theorem Hart.produceV_tctl (h : Hart) (r : VReg) (w : Nat) (l : List (Nat × Nat)) : (h.produceV r w l).tctl = h.tctl :=
  rfl
@[simp] theorem Hart.produceV_actl (h : Hart) (r : VReg) (w : Nat) (l : List (Nat × Nat)) : (h.produceV r w l).actl = h.actl :=
  rfl
@[simp] theorem Hart.produceV_hctl (h : Hart) (r : VReg) (w : Nat) (l : List (Nat × Nat)) : (h.produceV r w l).hctl = h.hctl :=
  rfl
@[simp] theorem Hart.produceV_qimpl (h : Hart) (r : VReg) (w : Nat) (l : List (Nat × Nat)) : (h.produceV r w l).qimpl = h.qimpl :=
  rfl
@[simp] theorem Hart.produceV_qdisc (h : Hart) (r : VReg) (w : Nat) (l : List (Nat × Nat)) : (h.produceV r w l).qdisc = h.qdisc :=
  rfl
@[simp] theorem Hart.produceV_prio (h : Hart) (r : VReg) (w : Nat) (l : List (Nat × Nat)) : (h.produceV r w l).prio = h.prio :=
  rfl
@[simp] theorem Hart.produceV_ceil (h : Hart) (r : VReg) (w : Nat) (l : List (Nat × Nat)) : (h.produceV r w l).ceil = h.ceil :=
  rfl
@[simp] theorem Hart.produceV_job (h : Hart) (r : VReg) (w : Nat) (l : List (Nat × Nat)) : (h.produceV r w l).job = h.job :=
  rfl
@[simp] theorem Hart.produceV_stripmax (h : Hart) (r : VReg) (w : Nat) (l : List (Nat × Nat)) : (h.produceV r w l).stripmax = h.stripmax :=
  rfl
@[simp] theorem Hart.produceV_trap (h : Hart) (r : VReg) (w : Nat) (l : List (Nat × Nat)) : (h.produceV r w l).trap = h.trap :=
  rfl
@[simp] theorem Hart.produceV_tcnt (h : Hart) (r : VReg) (w : Nat) (l : List (Nat × Nat)) : (h.produceV r w l).tcnt = h.tcnt :=
  rfl
@[simp] theorem Hart.produceV_priv (h : Hart) (r : VReg) (w : Nat) (l : List (Nat × Nat)) : (h.produceV r w l).priv = h.priv :=
  rfl
@[simp] theorem Hart.produceV_gatebase (h : Hart) (r : VReg) (w : Nat) (l : List (Nat × Nat)) : (h.produceV r w l).gatebase = h.gatebase :=
  rfl
@[simp] theorem Hart.produceV_asid (h : Hart) (r : VReg) (w : Nat) (l : List (Nat × Nat)) : (h.produceV r w l).asid = h.asid :=
  rfl
@[simp] theorem Hart.produceV_sbase (h : Hart) (r : VReg) (w : Nat) (l : List (Nat × Nat)) : (h.produceV r w l).sbase = h.sbase :=
  rfl
@[simp] theorem Hart.produceV_sprev (h : Hart) (r : VReg) (w : Nat) (l : List (Nat × Nat)) : (h.produceV r w l).sprev = h.sprev :=
  rfl
@[simp] theorem Hart.produceV_evf (h : Hart) (r : VReg) (w : Nat) (l : List (Nat × Nat)) : (h.produceV r w l).evf = h.evf :=
  rfl
@[simp] theorem Hart.produceV_cancel (h : Hart) (r : VReg) (w : Nat) (l : List (Nat × Nat)) : (h.produceV r w l).cancel = h.cancel :=
  rfl
@[simp] theorem Hart.produceV_cancelAt (h : Hart) (r : VReg) (w : Nat) (l : List (Nat × Nat)) : (h.produceV r w l).cancelAt = h.cancelAt :=
  rfl
@[simp] theorem Hart.produceV_handles (h : Hart) (r : VReg) (w : Nat) (l : List (Nat × Nat)) : (h.produceV r w l).handles = h.handles :=
  rfl
@[simp] theorem Hart.produceV_vq (h : Hart) (r : VReg) (w : Nat) (l : List (Nat × Nat)) : (h.produceV r w l).vq = h.vq :=
  rfl
@[simp] theorem Hart.produceV_buffer (h : Hart) (r : VReg) (w : Nat) (l : List (Nat × Nat)) : (h.produceV r w l).buffer = h.buffer :=
  rfl
@[simp] theorem Hart.produceV_replay (h : Hart) (r : VReg) (w : Nat) (l : List (Nat × Nat)) : (h.produceV r w l).replay = h.replay :=
  rfl
@[simp] theorem Hart.produceV_hearth (h : Hart) (r : VReg) (w : Nat) (l : List (Nat × Nat)) : (h.produceV r w l).hearth = h.hearth :=
  rfl
@[simp] theorem Hart.produceV_parent (h : Hart) (r : VReg) (w : Nat) (l : List (Nat × Nat)) : (h.produceV r w l).parent = h.parent :=
  rfl
@[simp] theorem Hart.produceV_children (h : Hart) (r : VReg) (w : Nat) (l : List (Nat × Nat)) : (h.produceV r w l).children = h.children :=
  rfl
@[simp] theorem Hart.produceV_index (h : Hart) (r : VReg) (w : Nat) (l : List (Nat × Nat)) : (h.produceV r w l).index = h.index :=
  rfl
@[simp] theorem Hart.produceV_reservations (h : Hart) (r : VReg) (w : Nat) (l : List (Nat × Nat)) : (h.produceV r w l).reservations = h.reservations :=
  rfl
@[simp] theorem Hart.produceV_heldChannels (h : Hart) (r : VReg) (w : Nat) (l : List (Nat × Nat)) : (h.produceV r w l).heldChannels = h.heldChannels :=
  rfl
@[simp] theorem Hart.produceV_order (h : Hart) (r : VReg) (w : Nat) (l : List (Nat × Nat)) : (h.produceV r w l).order = h.order :=
  rfl
@[simp] theorem Hart.produceV_since (h : Hart) (r : VReg) (w : Nat) (l : List (Nat × Nat)) : (h.produceV r w l).since = h.since :=
  rfl
@[simp] theorem Hart.produceV_budget (h : Hart) (r : VReg) (w : Nat) (l : List (Nat × Nat)) : (h.produceV r w l).budget = h.budget :=
  rfl

@[simp] theorem Hart.setM_hid (h : Hart) (r : MReg) (w : Nat) (l : List (Nat × Bool)) : (h.setM r w l).hid = h.hid :=
  rfl
@[simp] theorem Hart.setM_task (h : Hart) (r : MReg) (w : Nat) (l : List (Nat × Bool)) : (h.setM r w l).task = h.task :=
  rfl
@[simp] theorem Hart.setM_status (h : Hart) (r : MReg) (w : Nat) (l : List (Nat × Bool)) : (h.setM r w l).status = h.status :=
  rfl
@[simp] theorem Hart.setM_mark (h : Hart) (r : MReg) (w : Nat) (l : List (Nat × Bool)) : (h.setM r w l).mark = h.mark :=
  rfl
@[simp] theorem Hart.setM_die (h : Hart) (r : MReg) (w : Nat) (l : List (Nat × Bool)) : (h.setM r w l).die = h.die :=
  rfl
@[simp] theorem Hart.setM_cell (h : Hart) (r : MReg) (w : Nat) (l : List (Nat × Bool)) : (h.setM r w l).cell = h.cell :=
  rfl
@[simp] theorem Hart.setM_slot (h : Hart) (r : MReg) (w : Nat) (l : List (Nat × Bool)) : (h.setM r w l).slot = h.slot :=
  rfl
@[simp] theorem Hart.setM_pc (h : Hart) (r : MReg) (w : Nat) (l : List (Nat × Bool)) : (h.setM r w l).pc = h.pc := rfl
@[simp] theorem Hart.setM_sreg (h : Hart) (r : MReg) (w : Nat) (l : List (Nat × Bool)) : (h.setM r w l).sreg = h.sreg :=
  rfl
@[simp] theorem Hart.setM_spoison (h : Hart) (r : MReg) (w : Nat) (l : List (Nat × Bool)) : (h.setM r w l).spoison = h.spoison :=
  rfl
@[simp] theorem Hart.setM_cbit (h : Hart) (r : MReg) (w : Nat) (l : List (Nat × Bool)) : (h.setM r w l).cbit = h.cbit :=
  rfl
@[simp] theorem Hart.setM_vreg (h : Hart) (r : MReg) (w : Nat) (l : List (Nat × Bool)) : (h.setM r w l).vreg = h.vreg :=
  rfl
@[simp] theorem Hart.setM_treg (h : Hart) (r : MReg) (w : Nat) (l : List (Nat × Bool)) : (h.setM r w l).treg = h.treg :=
  rfl
@[simp] theorem Hart.setM_msm (h : Hart) (r : MReg) (w : Nat) (l : List (Nat × Bool)) : (h.setM r w l).msm = h.msm :=
  rfl
@[simp] theorem Hart.setM_vpoison (h : Hart) (r : MReg) (w : Nat) (l : List (Nat × Bool)) : (h.setM r w l).vpoison = h.vpoison :=
  rfl
@[simp] theorem Hart.setM_tpoison (h : Hart) (r : MReg) (w : Nat) (l : List (Nat × Bool)) : (h.setM r w l).tpoison = h.tpoison :=
  rfl
@[simp] theorem Hart.setM_vl (h : Hart) (r : MReg) (w : Nat) (l : List (Nat × Bool)) : (h.setM r w l).vl = h.vl := rfl
@[simp] theorem Hart.setM_msel (h : Hart) (r : MReg) (w : Nat) (l : List (Nat × Bool)) : (h.setM r w l).msel = h.msel :=
  rfl
@[simp] theorem Hart.setM_vstr (h : Hart) (r : MReg) (w : Nat) (l : List (Nat × Bool)) : (h.setM r w l).vstr = h.vstr :=
  rfl
@[simp] theorem Hart.setM_grant (h : Hart) (r : MReg) (w : Nat) (l : List (Nat × Bool)) : (h.setM r w l).grant = h.grant :=
  rfl
@[simp] theorem Hart.setM_vew (h : Hart) (r : MReg) (w : Nat) (l : List (Nat × Bool)) : (h.setM r w l).vew = h.vew :=
  rfl
@[simp] theorem Hart.setM_nextCarr (h : Hart) (r : MReg) (w : Nat) (l : List (Nat × Bool)) : (h.setM r w l).nextCarr = h.nextCarr :=
  rfl
@[simp] theorem Hart.setM_nextPend (h : Hart) (r : MReg) (w : Nat) (l : List (Nat × Bool)) : (h.setM r w l).nextPend = h.nextPend :=
  rfl
@[simp] theorem Hart.setM_part (h : Hart) (r : MReg) (w : Nat) (l : List (Nat × Bool)) : (h.setM r w l).part = h.part :=
  rfl
@[simp] theorem Hart.setM_frm (h : Hart) (r : MReg) (w : Nat) (l : List (Nat × Bool)) : (h.setM r w l).frm = h.frm :=
  rfl
@[simp] theorem Hart.setM_fflags (h : Hart) (r : MReg) (w : Nat) (l : List (Nat × Bool)) : (h.setM r w l).fflags = h.fflags :=
  rfl
@[simp] theorem Hart.setM_tstat (h : Hart) (r : MReg) (w : Nat) (l : List (Nat × Bool)) : (h.setM r w l).tstat = h.tstat :=
  rfl
@[simp] theorem Hart.setM_tgrp (h : Hart) (r : MReg) (w : Nat) (l : List (Nat × Bool)) : (h.setM r w l).tgrp = h.tgrp :=
  rfl
@[simp] theorem Hart.setM_tctl (h : Hart) (r : MReg) (w : Nat) (l : List (Nat × Bool)) : (h.setM r w l).tctl = h.tctl :=
  rfl
@[simp] theorem Hart.setM_actl (h : Hart) (r : MReg) (w : Nat) (l : List (Nat × Bool)) : (h.setM r w l).actl = h.actl :=
  rfl
@[simp] theorem Hart.setM_hctl (h : Hart) (r : MReg) (w : Nat) (l : List (Nat × Bool)) : (h.setM r w l).hctl = h.hctl :=
  rfl
@[simp] theorem Hart.setM_qimpl (h : Hart) (r : MReg) (w : Nat) (l : List (Nat × Bool)) : (h.setM r w l).qimpl = h.qimpl :=
  rfl
@[simp] theorem Hart.setM_qdisc (h : Hart) (r : MReg) (w : Nat) (l : List (Nat × Bool)) : (h.setM r w l).qdisc = h.qdisc :=
  rfl
@[simp] theorem Hart.setM_prio (h : Hart) (r : MReg) (w : Nat) (l : List (Nat × Bool)) : (h.setM r w l).prio = h.prio :=
  rfl
@[simp] theorem Hart.setM_ceil (h : Hart) (r : MReg) (w : Nat) (l : List (Nat × Bool)) : (h.setM r w l).ceil = h.ceil :=
  rfl
@[simp] theorem Hart.setM_job (h : Hart) (r : MReg) (w : Nat) (l : List (Nat × Bool)) : (h.setM r w l).job = h.job :=
  rfl
@[simp] theorem Hart.setM_stripmax (h : Hart) (r : MReg) (w : Nat) (l : List (Nat × Bool)) : (h.setM r w l).stripmax = h.stripmax :=
  rfl
@[simp] theorem Hart.setM_trap (h : Hart) (r : MReg) (w : Nat) (l : List (Nat × Bool)) : (h.setM r w l).trap = h.trap :=
  rfl
@[simp] theorem Hart.setM_tcnt (h : Hart) (r : MReg) (w : Nat) (l : List (Nat × Bool)) : (h.setM r w l).tcnt = h.tcnt :=
  rfl
@[simp] theorem Hart.setM_priv (h : Hart) (r : MReg) (w : Nat) (l : List (Nat × Bool)) : (h.setM r w l).priv = h.priv :=
  rfl
@[simp] theorem Hart.setM_gatebase (h : Hart) (r : MReg) (w : Nat) (l : List (Nat × Bool)) : (h.setM r w l).gatebase = h.gatebase :=
  rfl
@[simp] theorem Hart.setM_asid (h : Hart) (r : MReg) (w : Nat) (l : List (Nat × Bool)) : (h.setM r w l).asid = h.asid :=
  rfl
@[simp] theorem Hart.setM_sbase (h : Hart) (r : MReg) (w : Nat) (l : List (Nat × Bool)) : (h.setM r w l).sbase = h.sbase :=
  rfl
@[simp] theorem Hart.setM_sprev (h : Hart) (r : MReg) (w : Nat) (l : List (Nat × Bool)) : (h.setM r w l).sprev = h.sprev :=
  rfl
@[simp] theorem Hart.setM_evf (h : Hart) (r : MReg) (w : Nat) (l : List (Nat × Bool)) : (h.setM r w l).evf = h.evf :=
  rfl
@[simp] theorem Hart.setM_cancel (h : Hart) (r : MReg) (w : Nat) (l : List (Nat × Bool)) : (h.setM r w l).cancel = h.cancel :=
  rfl
@[simp] theorem Hart.setM_cancelAt (h : Hart) (r : MReg) (w : Nat) (l : List (Nat × Bool)) : (h.setM r w l).cancelAt = h.cancelAt :=
  rfl
@[simp] theorem Hart.setM_handles (h : Hart) (r : MReg) (w : Nat) (l : List (Nat × Bool)) : (h.setM r w l).handles = h.handles :=
  rfl
@[simp] theorem Hart.setM_vq (h : Hart) (r : MReg) (w : Nat) (l : List (Nat × Bool)) : (h.setM r w l).vq = h.vq := rfl
@[simp] theorem Hart.setM_producers (h : Hart) (r : MReg) (w : Nat) (l : List (Nat × Bool)) : (h.setM r w l).producers = h.producers :=
  rfl
@[simp] theorem Hart.setM_buffer (h : Hart) (r : MReg) (w : Nat) (l : List (Nat × Bool)) : (h.setM r w l).buffer = h.buffer :=
  rfl
@[simp] theorem Hart.setM_replay (h : Hart) (r : MReg) (w : Nat) (l : List (Nat × Bool)) : (h.setM r w l).replay = h.replay :=
  rfl
@[simp] theorem Hart.setM_hearth (h : Hart) (r : MReg) (w : Nat) (l : List (Nat × Bool)) : (h.setM r w l).hearth = h.hearth :=
  rfl
@[simp] theorem Hart.setM_parent (h : Hart) (r : MReg) (w : Nat) (l : List (Nat × Bool)) : (h.setM r w l).parent = h.parent :=
  rfl
@[simp] theorem Hart.setM_children (h : Hart) (r : MReg) (w : Nat) (l : List (Nat × Bool)) : (h.setM r w l).children = h.children :=
  rfl
@[simp] theorem Hart.setM_index (h : Hart) (r : MReg) (w : Nat) (l : List (Nat × Bool)) : (h.setM r w l).index = h.index :=
  rfl
@[simp] theorem Hart.setM_reservations (h : Hart) (r : MReg) (w : Nat) (l : List (Nat × Bool)) : (h.setM r w l).reservations = h.reservations :=
  rfl
@[simp] theorem Hart.setM_heldChannels (h : Hart) (r : MReg) (w : Nat) (l : List (Nat × Bool)) : (h.setM r w l).heldChannels = h.heldChannels :=
  rfl
@[simp] theorem Hart.setM_order (h : Hart) (r : MReg) (w : Nat) (l : List (Nat × Bool)) : (h.setM r w l).order = h.order :=
  rfl
@[simp] theorem Hart.setM_since (h : Hart) (r : MReg) (w : Nat) (l : List (Nat × Bool)) : (h.setM r w l).since = h.since :=
  rfl
@[simp] theorem Hart.setM_budget (h : Hart) (r : MReg) (w : Nat) (l : List (Nat × Bool)) : (h.setM r w l).budget = h.budget :=
  rfl

@[simp] theorem Hart.setHead_hid (h : Hart) (e : VEntry) : (h.setHead e).hid = h.hid := rfl
@[simp] theorem Hart.setHead_task (h : Hart) (e : VEntry) : (h.setHead e).task = h.task := rfl
@[simp] theorem Hart.setHead_status (h : Hart) (e : VEntry) : (h.setHead e).status = h.status := rfl
@[simp] theorem Hart.setHead_mark (h : Hart) (e : VEntry) : (h.setHead e).mark = h.mark := rfl
@[simp] theorem Hart.setHead_die (h : Hart) (e : VEntry) : (h.setHead e).die = h.die := rfl
@[simp] theorem Hart.setHead_cell (h : Hart) (e : VEntry) : (h.setHead e).cell = h.cell := rfl
@[simp] theorem Hart.setHead_slot (h : Hart) (e : VEntry) : (h.setHead e).slot = h.slot := rfl
@[simp] theorem Hart.setHead_pc (h : Hart) (e : VEntry) : (h.setHead e).pc = h.pc := rfl
@[simp] theorem Hart.setHead_sreg (h : Hart) (e : VEntry) : (h.setHead e).sreg = h.sreg := rfl
@[simp] theorem Hart.setHead_spoison (h : Hart) (e : VEntry) : (h.setHead e).spoison = h.spoison := rfl
@[simp] theorem Hart.setHead_cbit (h : Hart) (e : VEntry) : (h.setHead e).cbit = h.cbit := rfl
@[simp] theorem Hart.setHead_vreg (h : Hart) (e : VEntry) : (h.setHead e).vreg = h.vreg := rfl
@[simp] theorem Hart.setHead_treg (h : Hart) (e : VEntry) : (h.setHead e).treg = h.treg := rfl
@[simp] theorem Hart.setHead_mreg (h : Hart) (e : VEntry) : (h.setHead e).mreg = h.mreg := rfl
@[simp] theorem Hart.setHead_msm (h : Hart) (e : VEntry) : (h.setHead e).msm = h.msm := rfl
@[simp] theorem Hart.setHead_vpoison (h : Hart) (e : VEntry) : (h.setHead e).vpoison = h.vpoison := rfl
@[simp] theorem Hart.setHead_tpoison (h : Hart) (e : VEntry) : (h.setHead e).tpoison = h.tpoison := rfl
@[simp] theorem Hart.setHead_mpoison (h : Hart) (e : VEntry) : (h.setHead e).mpoison = h.mpoison := rfl
@[simp] theorem Hart.setHead_vl (h : Hart) (e : VEntry) : (h.setHead e).vl = h.vl := rfl
@[simp] theorem Hart.setHead_msel (h : Hart) (e : VEntry) : (h.setHead e).msel = h.msel := rfl
@[simp] theorem Hart.setHead_vstr (h : Hart) (e : VEntry) : (h.setHead e).vstr = h.vstr := rfl
@[simp] theorem Hart.setHead_grant (h : Hart) (e : VEntry) : (h.setHead e).grant = h.grant := rfl
@[simp] theorem Hart.setHead_vew (h : Hart) (e : VEntry) : (h.setHead e).vew = h.vew := rfl
@[simp] theorem Hart.setHead_nextCarr (h : Hart) (e : VEntry) : (h.setHead e).nextCarr = h.nextCarr := rfl
@[simp] theorem Hart.setHead_nextPend (h : Hart) (e : VEntry) : (h.setHead e).nextPend = h.nextPend := rfl
@[simp] theorem Hart.setHead_part (h : Hart) (e : VEntry) : (h.setHead e).part = h.part := rfl
@[simp] theorem Hart.setHead_frm (h : Hart) (e : VEntry) : (h.setHead e).frm = h.frm := rfl
@[simp] theorem Hart.setHead_fflags (h : Hart) (e : VEntry) : (h.setHead e).fflags = h.fflags := rfl
@[simp] theorem Hart.setHead_tstat (h : Hart) (e : VEntry) : (h.setHead e).tstat = h.tstat := rfl
@[simp] theorem Hart.setHead_tgrp (h : Hart) (e : VEntry) : (h.setHead e).tgrp = h.tgrp := rfl
@[simp] theorem Hart.setHead_tctl (h : Hart) (e : VEntry) : (h.setHead e).tctl = h.tctl := rfl
@[simp] theorem Hart.setHead_actl (h : Hart) (e : VEntry) : (h.setHead e).actl = h.actl := rfl
@[simp] theorem Hart.setHead_hctl (h : Hart) (e : VEntry) : (h.setHead e).hctl = h.hctl := rfl
@[simp] theorem Hart.setHead_qimpl (h : Hart) (e : VEntry) : (h.setHead e).qimpl = h.qimpl := rfl
@[simp] theorem Hart.setHead_qdisc (h : Hart) (e : VEntry) : (h.setHead e).qdisc = h.qdisc := rfl
@[simp] theorem Hart.setHead_prio (h : Hart) (e : VEntry) : (h.setHead e).prio = h.prio := rfl
@[simp] theorem Hart.setHead_ceil (h : Hart) (e : VEntry) : (h.setHead e).ceil = h.ceil := rfl
@[simp] theorem Hart.setHead_job (h : Hart) (e : VEntry) : (h.setHead e).job = h.job := rfl
@[simp] theorem Hart.setHead_stripmax (h : Hart) (e : VEntry) : (h.setHead e).stripmax = h.stripmax := rfl
@[simp] theorem Hart.setHead_trap (h : Hart) (e : VEntry) : (h.setHead e).trap = h.trap := rfl
@[simp] theorem Hart.setHead_tcnt (h : Hart) (e : VEntry) : (h.setHead e).tcnt = h.tcnt := rfl
@[simp] theorem Hart.setHead_priv (h : Hart) (e : VEntry) : (h.setHead e).priv = h.priv := rfl
@[simp] theorem Hart.setHead_gatebase (h : Hart) (e : VEntry) : (h.setHead e).gatebase = h.gatebase := rfl
@[simp] theorem Hart.setHead_asid (h : Hart) (e : VEntry) : (h.setHead e).asid = h.asid := rfl
@[simp] theorem Hart.setHead_sbase (h : Hart) (e : VEntry) : (h.setHead e).sbase = h.sbase := rfl
@[simp] theorem Hart.setHead_sprev (h : Hart) (e : VEntry) : (h.setHead e).sprev = h.sprev := rfl
@[simp] theorem Hart.setHead_evf (h : Hart) (e : VEntry) : (h.setHead e).evf = h.evf := rfl
@[simp] theorem Hart.setHead_cancel (h : Hart) (e : VEntry) : (h.setHead e).cancel = h.cancel := rfl
@[simp] theorem Hart.setHead_cancelAt (h : Hart) (e : VEntry) : (h.setHead e).cancelAt = h.cancelAt := rfl
@[simp] theorem Hart.setHead_handles (h : Hart) (e : VEntry) : (h.setHead e).handles = h.handles := rfl
@[simp] theorem Hart.setHead_producers (h : Hart) (e : VEntry) : (h.setHead e).producers = h.producers := rfl
@[simp] theorem Hart.setHead_buffer (h : Hart) (e : VEntry) : (h.setHead e).buffer = h.buffer := rfl
@[simp] theorem Hart.setHead_replay (h : Hart) (e : VEntry) : (h.setHead e).replay = h.replay := rfl
@[simp] theorem Hart.setHead_hearth (h : Hart) (e : VEntry) : (h.setHead e).hearth = h.hearth := rfl
@[simp] theorem Hart.setHead_parent (h : Hart) (e : VEntry) : (h.setHead e).parent = h.parent := rfl
@[simp] theorem Hart.setHead_children (h : Hart) (e : VEntry) : (h.setHead e).children = h.children := rfl
@[simp] theorem Hart.setHead_index (h : Hart) (e : VEntry) : (h.setHead e).index = h.index := rfl
@[simp] theorem Hart.setHead_reservations (h : Hart) (e : VEntry) : (h.setHead e).reservations = h.reservations := rfl
@[simp] theorem Hart.setHead_heldChannels (h : Hart) (e : VEntry) : (h.setHead e).heldChannels = h.heldChannels := rfl
@[simp] theorem Hart.setHead_order (h : Hart) (e : VEntry) : (h.setHead e).order = h.order := rfl
@[simp] theorem Hart.setHead_since (h : Hart) (e : VEntry) : (h.setHead e).since = h.since := rfl
@[simp] theorem Hart.setHead_budget (h : Hart) (e : VEntry) : (h.setHead e).budget = h.budget := rfl

@[simp] theorem Hart.withHearth_hid (h : Hart) (f : Hearth → Hearth) : (h.withHearth f).hid = h.hid := rfl
@[simp] theorem Hart.withHearth_task (h : Hart) (f : Hearth → Hearth) : (h.withHearth f).task = h.task := rfl
@[simp] theorem Hart.withHearth_status (h : Hart) (f : Hearth → Hearth) : (h.withHearth f).status = h.status := rfl
@[simp] theorem Hart.withHearth_mark (h : Hart) (f : Hearth → Hearth) : (h.withHearth f).mark = h.mark := rfl
@[simp] theorem Hart.withHearth_die (h : Hart) (f : Hearth → Hearth) : (h.withHearth f).die = h.die := rfl
@[simp] theorem Hart.withHearth_cell (h : Hart) (f : Hearth → Hearth) : (h.withHearth f).cell = h.cell := rfl
@[simp] theorem Hart.withHearth_slot (h : Hart) (f : Hearth → Hearth) : (h.withHearth f).slot = h.slot := rfl
@[simp] theorem Hart.withHearth_pc (h : Hart) (f : Hearth → Hearth) : (h.withHearth f).pc = h.pc := rfl
@[simp] theorem Hart.withHearth_sreg (h : Hart) (f : Hearth → Hearth) : (h.withHearth f).sreg = h.sreg := rfl
@[simp] theorem Hart.withHearth_spoison (h : Hart) (f : Hearth → Hearth) : (h.withHearth f).spoison = h.spoison := rfl
@[simp] theorem Hart.withHearth_cbit (h : Hart) (f : Hearth → Hearth) : (h.withHearth f).cbit = h.cbit := rfl
@[simp] theorem Hart.withHearth_vreg (h : Hart) (f : Hearth → Hearth) : (h.withHearth f).vreg = h.vreg := rfl
@[simp] theorem Hart.withHearth_treg (h : Hart) (f : Hearth → Hearth) : (h.withHearth f).treg = h.treg := rfl
@[simp] theorem Hart.withHearth_mreg (h : Hart) (f : Hearth → Hearth) : (h.withHearth f).mreg = h.mreg := rfl
@[simp] theorem Hart.withHearth_msm (h : Hart) (f : Hearth → Hearth) : (h.withHearth f).msm = h.msm := rfl
@[simp] theorem Hart.withHearth_vpoison (h : Hart) (f : Hearth → Hearth) : (h.withHearth f).vpoison = h.vpoison := rfl
@[simp] theorem Hart.withHearth_tpoison (h : Hart) (f : Hearth → Hearth) : (h.withHearth f).tpoison = h.tpoison := rfl
@[simp] theorem Hart.withHearth_mpoison (h : Hart) (f : Hearth → Hearth) : (h.withHearth f).mpoison = h.mpoison := rfl
@[simp] theorem Hart.withHearth_vl (h : Hart) (f : Hearth → Hearth) : (h.withHearth f).vl = h.vl := rfl
@[simp] theorem Hart.withHearth_msel (h : Hart) (f : Hearth → Hearth) : (h.withHearth f).msel = h.msel := rfl
@[simp] theorem Hart.withHearth_vstr (h : Hart) (f : Hearth → Hearth) : (h.withHearth f).vstr = h.vstr := rfl
@[simp] theorem Hart.withHearth_grant (h : Hart) (f : Hearth → Hearth) : (h.withHearth f).grant = h.grant := rfl
@[simp] theorem Hart.withHearth_vew (h : Hart) (f : Hearth → Hearth) : (h.withHearth f).vew = h.vew := rfl
@[simp] theorem Hart.withHearth_nextCarr (h : Hart) (f : Hearth → Hearth) : (h.withHearth f).nextCarr = h.nextCarr :=
  rfl
@[simp] theorem Hart.withHearth_nextPend (h : Hart) (f : Hearth → Hearth) : (h.withHearth f).nextPend = h.nextPend :=
  rfl
@[simp] theorem Hart.withHearth_part (h : Hart) (f : Hearth → Hearth) : (h.withHearth f).part = h.part := rfl
@[simp] theorem Hart.withHearth_frm (h : Hart) (f : Hearth → Hearth) : (h.withHearth f).frm = h.frm := rfl
@[simp] theorem Hart.withHearth_fflags (h : Hart) (f : Hearth → Hearth) : (h.withHearth f).fflags = h.fflags := rfl
@[simp] theorem Hart.withHearth_tstat (h : Hart) (f : Hearth → Hearth) : (h.withHearth f).tstat = h.tstat := rfl
@[simp] theorem Hart.withHearth_tgrp (h : Hart) (f : Hearth → Hearth) : (h.withHearth f).tgrp = h.tgrp := rfl
@[simp] theorem Hart.withHearth_tctl (h : Hart) (f : Hearth → Hearth) : (h.withHearth f).tctl = h.tctl := rfl
@[simp] theorem Hart.withHearth_actl (h : Hart) (f : Hearth → Hearth) : (h.withHearth f).actl = h.actl := rfl
@[simp] theorem Hart.withHearth_hctl (h : Hart) (f : Hearth → Hearth) : (h.withHearth f).hctl = h.hctl := rfl
@[simp] theorem Hart.withHearth_qimpl (h : Hart) (f : Hearth → Hearth) : (h.withHearth f).qimpl = h.qimpl := rfl
@[simp] theorem Hart.withHearth_qdisc (h : Hart) (f : Hearth → Hearth) : (h.withHearth f).qdisc = h.qdisc := rfl
@[simp] theorem Hart.withHearth_prio (h : Hart) (f : Hearth → Hearth) : (h.withHearth f).prio = h.prio := rfl
@[simp] theorem Hart.withHearth_ceil (h : Hart) (f : Hearth → Hearth) : (h.withHearth f).ceil = h.ceil := rfl
@[simp] theorem Hart.withHearth_job (h : Hart) (f : Hearth → Hearth) : (h.withHearth f).job = h.job := rfl
@[simp] theorem Hart.withHearth_stripmax (h : Hart) (f : Hearth → Hearth) : (h.withHearth f).stripmax = h.stripmax :=
  rfl
@[simp] theorem Hart.withHearth_trap (h : Hart) (f : Hearth → Hearth) : (h.withHearth f).trap = h.trap := rfl
@[simp] theorem Hart.withHearth_tcnt (h : Hart) (f : Hearth → Hearth) : (h.withHearth f).tcnt = h.tcnt := rfl
@[simp] theorem Hart.withHearth_priv (h : Hart) (f : Hearth → Hearth) : (h.withHearth f).priv = h.priv := rfl
@[simp] theorem Hart.withHearth_gatebase (h : Hart) (f : Hearth → Hearth) : (h.withHearth f).gatebase = h.gatebase :=
  rfl
@[simp] theorem Hart.withHearth_asid (h : Hart) (f : Hearth → Hearth) : (h.withHearth f).asid = h.asid := rfl
@[simp] theorem Hart.withHearth_sbase (h : Hart) (f : Hearth → Hearth) : (h.withHearth f).sbase = h.sbase := rfl
@[simp] theorem Hart.withHearth_sprev (h : Hart) (f : Hearth → Hearth) : (h.withHearth f).sprev = h.sprev := rfl
@[simp] theorem Hart.withHearth_evf (h : Hart) (f : Hearth → Hearth) : (h.withHearth f).evf = h.evf := rfl
@[simp] theorem Hart.withHearth_cancel (h : Hart) (f : Hearth → Hearth) : (h.withHearth f).cancel = h.cancel := rfl
@[simp] theorem Hart.withHearth_cancelAt (h : Hart) (f : Hearth → Hearth) : (h.withHearth f).cancelAt = h.cancelAt := rfl
@[simp] theorem Hart.withHearth_handles (h : Hart) (f : Hearth → Hearth) : (h.withHearth f).handles = h.handles := rfl
@[simp] theorem Hart.withHearth_vq (h : Hart) (f : Hearth → Hearth) : (h.withHearth f).vq = h.vq := rfl
@[simp] theorem Hart.withHearth_producers (h : Hart) (f : Hearth → Hearth) : (h.withHearth f).producers = h.producers :=
  rfl
@[simp] theorem Hart.withHearth_buffer (h : Hart) (f : Hearth → Hearth) : (h.withHearth f).buffer = h.buffer := rfl
@[simp] theorem Hart.withHearth_replay (h : Hart) (f : Hearth → Hearth) : (h.withHearth f).replay = h.replay := rfl
@[simp] theorem Hart.withHearth_parent (h : Hart) (f : Hearth → Hearth) : (h.withHearth f).parent = h.parent := rfl
@[simp] theorem Hart.withHearth_children (h : Hart) (f : Hearth → Hearth) : (h.withHearth f).children = h.children :=
  rfl
@[simp] theorem Hart.withHearth_index (h : Hart) (f : Hearth → Hearth) : (h.withHearth f).index = h.index := rfl
@[simp] theorem Hart.withHearth_reservations (h : Hart) (f : Hearth → Hearth) : (h.withHearth f).reservations = h.reservations :=
  rfl
@[simp] theorem Hart.withHearth_heldChannels (h : Hart) (f : Hearth → Hearth) : (h.withHearth f).heldChannels = h.heldChannels :=
  rfl
@[simp] theorem Hart.withHearth_order (h : Hart) (f : Hearth → Hearth) : (h.withHearth f).order = h.order := rfl
@[simp] theorem Hart.withHearth_since (h : Hart) (f : Hearth → Hearth) : (h.withHearth f).since = h.since := rfl
@[simp] theorem Hart.withHearth_budget (h : Hart) (f : Hearth → Hearth) : (h.withHearth f).budget = h.budget := rfl

@[simp] theorem Hart.discardStrip_hid (h : Hart) : (h.discardStrip).hid = h.hid := rfl
@[simp] theorem Hart.discardStrip_task (h : Hart) : (h.discardStrip).task = h.task := rfl
@[simp] theorem Hart.discardStrip_status (h : Hart) : (h.discardStrip).status = h.status := rfl
@[simp] theorem Hart.discardStrip_mark (h : Hart) : (h.discardStrip).mark = h.mark := rfl
@[simp] theorem Hart.discardStrip_die (h : Hart) : (h.discardStrip).die = h.die := rfl
@[simp] theorem Hart.discardStrip_cell (h : Hart) : (h.discardStrip).cell = h.cell := rfl
@[simp] theorem Hart.discardStrip_slot (h : Hart) : (h.discardStrip).slot = h.slot := rfl
@[simp] theorem Hart.discardStrip_pc (h : Hart) : (h.discardStrip).pc = h.pc := rfl
@[simp] theorem Hart.discardStrip_sreg (h : Hart) : (h.discardStrip).sreg = h.sreg := rfl
@[simp] theorem Hart.discardStrip_spoison (h : Hart) : (h.discardStrip).spoison = h.spoison := rfl
@[simp] theorem Hart.discardStrip_cbit (h : Hart) : (h.discardStrip).cbit = h.cbit := rfl
@[simp] theorem Hart.discardStrip_vreg (h : Hart) : (h.discardStrip).vreg = h.vreg := rfl
@[simp] theorem Hart.discardStrip_treg (h : Hart) : (h.discardStrip).treg = h.treg := rfl
@[simp] theorem Hart.discardStrip_mreg (h : Hart) : (h.discardStrip).mreg = h.mreg := rfl
@[simp] theorem Hart.discardStrip_msm (h : Hart) : (h.discardStrip).msm = h.msm := rfl
@[simp] theorem Hart.discardStrip_vpoison (h : Hart) : (h.discardStrip).vpoison = h.vpoison := rfl
@[simp] theorem Hart.discardStrip_tpoison (h : Hart) : (h.discardStrip).tpoison = h.tpoison := rfl
@[simp] theorem Hart.discardStrip_mpoison (h : Hart) : (h.discardStrip).mpoison = h.mpoison := rfl
@[simp] theorem Hart.discardStrip_vl (h : Hart) : (h.discardStrip).vl = h.vl := rfl
@[simp] theorem Hart.discardStrip_msel (h : Hart) : (h.discardStrip).msel = h.msel := rfl
@[simp] theorem Hart.discardStrip_vstr (h : Hart) : (h.discardStrip).vstr = h.vstr := rfl
@[simp] theorem Hart.discardStrip_grant (h : Hart) : (h.discardStrip).grant = h.grant := rfl
@[simp] theorem Hart.discardStrip_vew (h : Hart) : (h.discardStrip).vew = h.vew := rfl
@[simp] theorem Hart.discardStrip_nextCarr (h : Hart) : (h.discardStrip).nextCarr = h.nextCarr := rfl
@[simp] theorem Hart.discardStrip_nextPend (h : Hart) : (h.discardStrip).nextPend = h.nextPend := rfl
@[simp] theorem Hart.discardStrip_part (h : Hart) : (h.discardStrip).part = h.part := rfl
@[simp] theorem Hart.discardStrip_frm (h : Hart) : (h.discardStrip).frm = h.frm := rfl
@[simp] theorem Hart.discardStrip_fflags (h : Hart) : (h.discardStrip).fflags = h.fflags := rfl
@[simp] theorem Hart.discardStrip_tstat (h : Hart) : (h.discardStrip).tstat = h.tstat := rfl
@[simp] theorem Hart.discardStrip_tgrp (h : Hart) : (h.discardStrip).tgrp = h.tgrp := rfl
@[simp] theorem Hart.discardStrip_tctl (h : Hart) : (h.discardStrip).tctl = h.tctl := rfl
@[simp] theorem Hart.discardStrip_actl (h : Hart) : (h.discardStrip).actl = h.actl := rfl
@[simp] theorem Hart.discardStrip_hctl (h : Hart) : (h.discardStrip).hctl = h.hctl := rfl
@[simp] theorem Hart.discardStrip_qimpl (h : Hart) : (h.discardStrip).qimpl = h.qimpl := rfl
@[simp] theorem Hart.discardStrip_prio (h : Hart) : (h.discardStrip).prio = h.prio := rfl
@[simp] theorem Hart.discardStrip_ceil (h : Hart) : (h.discardStrip).ceil = h.ceil := rfl
@[simp] theorem Hart.discardStrip_job (h : Hart) : (h.discardStrip).job = h.job := rfl
@[simp] theorem Hart.discardStrip_stripmax (h : Hart) : (h.discardStrip).stripmax = h.stripmax := rfl
@[simp] theorem Hart.discardStrip_trap (h : Hart) : (h.discardStrip).trap = h.trap := rfl
@[simp] theorem Hart.discardStrip_tcnt (h : Hart) : (h.discardStrip).tcnt = h.tcnt := rfl
@[simp] theorem Hart.discardStrip_priv (h : Hart) : (h.discardStrip).priv = h.priv := rfl
@[simp] theorem Hart.discardStrip_gatebase (h : Hart) : (h.discardStrip).gatebase = h.gatebase := rfl
@[simp] theorem Hart.discardStrip_asid (h : Hart) : (h.discardStrip).asid = h.asid := rfl
@[simp] theorem Hart.discardStrip_sbase (h : Hart) : (h.discardStrip).sbase = h.sbase := rfl
@[simp] theorem Hart.discardStrip_sprev (h : Hart) : (h.discardStrip).sprev = h.sprev := rfl
@[simp] theorem Hart.discardStrip_evf (h : Hart) : (h.discardStrip).evf = h.evf := rfl
@[simp] theorem Hart.discardStrip_cancel (h : Hart) : (h.discardStrip).cancel = h.cancel := rfl
@[simp] theorem Hart.discardStrip_cancelAt (h : Hart) : (h.discardStrip).cancelAt = h.cancelAt := rfl
@[simp] theorem Hart.discardStrip_vq (h : Hart) : (h.discardStrip).vq = h.vq := rfl
@[simp] theorem Hart.discardStrip_producers (h : Hart) : (h.discardStrip).producers = h.producers := rfl
@[simp] theorem Hart.discardStrip_replay (h : Hart) : (h.discardStrip).replay = h.replay := rfl
@[simp] theorem Hart.discardStrip_hearth (h : Hart) : (h.discardStrip).hearth = h.hearth := rfl
@[simp] theorem Hart.discardStrip_parent (h : Hart) : (h.discardStrip).parent = h.parent := rfl
@[simp] theorem Hart.discardStrip_children (h : Hart) : (h.discardStrip).children = h.children := rfl
@[simp] theorem Hart.discardStrip_index (h : Hart) : (h.discardStrip).index = h.index := rfl
@[simp] theorem Hart.discardStrip_reservations (h : Hart) : (h.discardStrip).reservations = h.reservations := rfl
@[simp] theorem Hart.discardStrip_heldChannels (h : Hart) : (h.discardStrip).heldChannels = h.heldChannels := rfl
@[simp] theorem Hart.discardStrip_order (h : Hart) : (h.discardStrip).order = h.order := rfl
@[simp] theorem Hart.discardStrip_since (h : Hart) : (h.discardStrip).since = h.since := rfl
@[simp] theorem Hart.discardStrip_budget (h : Hart) : (h.discardStrip).budget = h.budget := rfl

@[simp] theorem Hart.enterTrap_hid (h : Hart) (t : Trap) (a : Word) (n : Nat) (b : Bool) (v : Word) : (h.enterTrap t a n b v).hid = h.hid :=
  rfl
@[simp] theorem Hart.enterTrap_task (h : Hart) (t : Trap) (a : Word) (n : Nat) (b : Bool) (v : Word) : (h.enterTrap t a n b v).task = h.task :=
  rfl
@[simp] theorem Hart.enterTrap_status (h : Hart) (t : Trap) (a : Word) (n : Nat) (b : Bool) (v : Word) : (h.enterTrap t a n b v).status = h.status :=
  rfl
@[simp] theorem Hart.enterTrap_die (h : Hart) (t : Trap) (a : Word) (n : Nat) (b : Bool) (v : Word) : (h.enterTrap t a n b v).die = h.die :=
  rfl
@[simp] theorem Hart.enterTrap_cell (h : Hart) (t : Trap) (a : Word) (n : Nat) (b : Bool) (v : Word) : (h.enterTrap t a n b v).cell = h.cell :=
  rfl
@[simp] theorem Hart.enterTrap_slot (h : Hart) (t : Trap) (a : Word) (n : Nat) (b : Bool) (v : Word) : (h.enterTrap t a n b v).slot = h.slot :=
  rfl
@[simp] theorem Hart.enterTrap_sreg (h : Hart) (t : Trap) (a : Word) (n : Nat) (b : Bool) (v : Word) : (h.enterTrap t a n b v).sreg = h.sreg :=
  rfl
@[simp] theorem Hart.enterTrap_spoison (h : Hart) (t : Trap) (a : Word) (n : Nat) (b : Bool) (v : Word) : (h.enterTrap t a n b v).spoison = h.spoison :=
  rfl
@[simp] theorem Hart.enterTrap_cbit (h : Hart) (t : Trap) (a : Word) (n : Nat) (b : Bool) (v : Word) : (h.enterTrap t a n b v).cbit = h.cbit :=
  rfl
@[simp] theorem Hart.enterTrap_vreg (h : Hart) (t : Trap) (a : Word) (n : Nat) (b : Bool) (v : Word) : (h.enterTrap t a n b v).vreg = h.vreg :=
  rfl
@[simp] theorem Hart.enterTrap_treg (h : Hart) (t : Trap) (a : Word) (n : Nat) (b : Bool) (v : Word) : (h.enterTrap t a n b v).treg = h.treg :=
  rfl
@[simp] theorem Hart.enterTrap_mreg (h : Hart) (t : Trap) (a : Word) (n : Nat) (b : Bool) (v : Word) : (h.enterTrap t a n b v).mreg = h.mreg :=
  rfl
@[simp] theorem Hart.enterTrap_msm (h : Hart) (t : Trap) (a : Word) (n : Nat) (b : Bool) (v : Word) : (h.enterTrap t a n b v).msm = h.msm :=
  rfl
@[simp] theorem Hart.enterTrap_vpoison (h : Hart) (t : Trap) (a : Word) (n : Nat) (b : Bool) (v : Word) : (h.enterTrap t a n b v).vpoison = h.vpoison :=
  rfl
@[simp] theorem Hart.enterTrap_tpoison (h : Hart) (t : Trap) (a : Word) (n : Nat) (b : Bool) (v : Word) : (h.enterTrap t a n b v).tpoison = h.tpoison :=
  rfl
@[simp] theorem Hart.enterTrap_mpoison (h : Hart) (t : Trap) (a : Word) (n : Nat) (b : Bool) (v : Word) : (h.enterTrap t a n b v).mpoison = h.mpoison :=
  rfl
@[simp] theorem Hart.enterTrap_vl (h : Hart) (t : Trap) (a : Word) (n : Nat) (b : Bool) (v : Word) : (h.enterTrap t a n b v).vl = h.vl :=
  rfl
@[simp] theorem Hart.enterTrap_vstr (h : Hart) (t : Trap) (a : Word) (n : Nat) (b : Bool) (v : Word) : (h.enterTrap t a n b v).vstr = h.vstr :=
  rfl
@[simp] theorem Hart.enterTrap_grant (h : Hart) (t : Trap) (a : Word) (n : Nat) (b : Bool) (v : Word) : (h.enterTrap t a n b v).grant = h.grant :=
  rfl
@[simp] theorem Hart.enterTrap_vew (h : Hart) (t : Trap) (a : Word) (n : Nat) (b : Bool) (v : Word) : (h.enterTrap t a n b v).vew = h.vew :=
  rfl
@[simp] theorem Hart.enterTrap_nextCarr (h : Hart) (t : Trap) (a : Word) (n : Nat) (b : Bool) (v : Word) : (h.enterTrap t a n b v).nextCarr = h.nextCarr :=
  rfl
@[simp] theorem Hart.enterTrap_nextPend (h : Hart) (t : Trap) (a : Word) (n : Nat) (b : Bool) (v : Word) : (h.enterTrap t a n b v).nextPend = h.nextPend :=
  rfl
@[simp] theorem Hart.enterTrap_part (h : Hart) (t : Trap) (a : Word) (n : Nat) (b : Bool) (v : Word) : (h.enterTrap t a n b v).part = h.part :=
  rfl
@[simp] theorem Hart.enterTrap_frm (h : Hart) (t : Trap) (a : Word) (n : Nat) (b : Bool) (v : Word) : (h.enterTrap t a n b v).frm = h.frm :=
  rfl
@[simp] theorem Hart.enterTrap_fflags (h : Hart) (t : Trap) (a : Word) (n : Nat) (b : Bool) (v : Word) : (h.enterTrap t a n b v).fflags = h.fflags :=
  rfl
@[simp] theorem Hart.enterTrap_tstat (h : Hart) (t : Trap) (a : Word) (n : Nat) (b : Bool) (v : Word) : (h.enterTrap t a n b v).tstat = h.tstat :=
  rfl
@[simp] theorem Hart.enterTrap_tgrp (h : Hart) (t : Trap) (a : Word) (n : Nat) (b : Bool) (v : Word) : (h.enterTrap t a n b v).tgrp = h.tgrp :=
  rfl
@[simp] theorem Hart.enterTrap_tctl (h : Hart) (t : Trap) (a : Word) (n : Nat) (b : Bool) (v : Word) : (h.enterTrap t a n b v).tctl = h.tctl :=
  rfl
@[simp] theorem Hart.enterTrap_actl (h : Hart) (t : Trap) (a : Word) (n : Nat) (b : Bool) (v : Word) : (h.enterTrap t a n b v).actl = h.actl :=
  rfl
@[simp] theorem Hart.enterTrap_hctl (h : Hart) (t : Trap) (a : Word) (n : Nat) (b : Bool) (v : Word) : (h.enterTrap t a n b v).hctl = h.hctl :=
  rfl
@[simp] theorem Hart.enterTrap_qimpl (h : Hart) (t : Trap) (a : Word) (n : Nat) (b : Bool) (v : Word) : (h.enterTrap t a n b v).qimpl = h.qimpl :=
  rfl
@[simp] theorem Hart.enterTrap_qdisc (h : Hart) (t : Trap) (a : Word) (n : Nat) (b : Bool) (v : Word) : (h.enterTrap t a n b v).qdisc = h.qdisc :=
  rfl
@[simp] theorem Hart.enterTrap_prio (h : Hart) (t : Trap) (a : Word) (n : Nat) (b : Bool) (v : Word) : (h.enterTrap t a n b v).prio = h.prio :=
  rfl
@[simp] theorem Hart.enterTrap_ceil (h : Hart) (t : Trap) (a : Word) (n : Nat) (b : Bool) (v : Word) : (h.enterTrap t a n b v).ceil = h.ceil :=
  rfl
@[simp] theorem Hart.enterTrap_job (h : Hart) (t : Trap) (a : Word) (n : Nat) (b : Bool) (v : Word) : (h.enterTrap t a n b v).job = h.job :=
  rfl
@[simp] theorem Hart.enterTrap_stripmax (h : Hart) (t : Trap) (a : Word) (n : Nat) (b : Bool) (v : Word) : (h.enterTrap t a n b v).stripmax = h.stripmax :=
  rfl
@[simp] theorem Hart.enterTrap_gatebase (h : Hart) (t : Trap) (a : Word) (n : Nat) (b : Bool) (v : Word) : (h.enterTrap t a n b v).gatebase = h.gatebase :=
  rfl
@[simp] theorem Hart.enterTrap_asid (h : Hart) (t : Trap) (a : Word) (n : Nat) (b : Bool) (v : Word) : (h.enterTrap t a n b v).asid = h.asid :=
  rfl
@[simp] theorem Hart.enterTrap_sbase (h : Hart) (t : Trap) (a : Word) (n : Nat) (b : Bool) (v : Word) : (h.enterTrap t a n b v).sbase = h.sbase :=
  rfl
@[simp] theorem Hart.enterTrap_sprev (h : Hart) (t : Trap) (a : Word) (n : Nat) (b : Bool) (v : Word) : (h.enterTrap t a n b v).sprev = h.sprev :=
  rfl
@[simp] theorem Hart.enterTrap_evf (h : Hart) (t : Trap) (a : Word) (n : Nat) (b : Bool) (v : Word) : (h.enterTrap t a n b v).evf = h.evf :=
  rfl
@[simp] theorem Hart.enterTrap_cancel (h : Hart) (t : Trap) (a : Word) (n : Nat) (b : Bool) (v : Word) : (h.enterTrap t a n b v).cancel = h.cancel :=
  rfl
@[simp] theorem Hart.enterTrap_cancelAt (h : Hart) (t : Trap) (a : Word) (n : Nat) (b : Bool) (v : Word) : (h.enterTrap t a n b v).cancelAt = h.cancelAt :=
  rfl
@[simp] theorem Hart.enterTrap_vq (h : Hart) (t : Trap) (a : Word) (n : Nat) (b : Bool) (v : Word) : (h.enterTrap t a n b v).vq = h.vq :=
  rfl
@[simp] theorem Hart.enterTrap_producers (h : Hart) (t : Trap) (a : Word) (n : Nat) (b : Bool) (v : Word) : (h.enterTrap t a n b v).producers = h.producers :=
  rfl
@[simp] theorem Hart.enterTrap_buffer (h : Hart) (t : Trap) (a : Word) (n : Nat) (b : Bool) (v : Word) : (h.enterTrap t a n b v).buffer = h.buffer :=
  rfl
@[simp] theorem Hart.enterTrap_replay (h : Hart) (t : Trap) (a : Word) (n : Nat) (b : Bool) (v : Word) : (h.enterTrap t a n b v).replay = h.replay :=
  rfl
@[simp] theorem Hart.enterTrap_hearth (h : Hart) (t : Trap) (a : Word) (n : Nat) (b : Bool) (v : Word) : (h.enterTrap t a n b v).hearth = h.hearth :=
  rfl
@[simp] theorem Hart.enterTrap_parent (h : Hart) (t : Trap) (a : Word) (n : Nat) (b : Bool) (v : Word) : (h.enterTrap t a n b v).parent = h.parent :=
  rfl
@[simp] theorem Hart.enterTrap_children (h : Hart) (t : Trap) (a : Word) (n : Nat) (b : Bool) (v : Word) : (h.enterTrap t a n b v).children = h.children :=
  rfl
@[simp] theorem Hart.enterTrap_index (h : Hart) (t : Trap) (a : Word) (n : Nat) (b : Bool) (v : Word) : (h.enterTrap t a n b v).index = h.index :=
  rfl
@[simp] theorem Hart.enterTrap_reservations (h : Hart) (t : Trap) (a : Word) (n : Nat) (b : Bool) (v : Word) : (h.enterTrap t a n b v).reservations = h.reservations :=
  rfl
@[simp] theorem Hart.enterTrap_heldChannels (h : Hart) (t : Trap) (a : Word) (n : Nat) (b : Bool) (v : Word) : (h.enterTrap t a n b v).heldChannels = h.heldChannels :=
  rfl
@[simp] theorem Hart.enterTrap_order (h : Hart) (t : Trap) (a : Word) (n : Nat) (b : Bool) (v : Word) : (h.enterTrap t a n b v).order = h.order :=
  rfl
@[simp] theorem Hart.enterTrap_since (h : Hart) (t : Trap) (a : Word) (n : Nat) (b : Bool) (v : Word) : (h.enterTrap t a n b v).since = h.since :=
  rfl
@[simp] theorem Hart.enterTrap_budget (h : Hart) (t : Trap) (a : Word) (n : Nat) (b : Bool) (v : Word) : (h.enterTrap t a n b v).budget = h.budget :=
  rfl

/-! ## What they write -/

@[simp] theorem State.storeBytes_mem (s : State) (l : List (Nat × Byte)) : (s.storeBytes l).mem = s.mem.writeAll l := rfl
@[simp] theorem State.storeLe_mem (s : State) (pa n x : Nat) :
    (s.storeLe pa n x).mem = s.mem.writeAll (placeBytes pa (leBytes n x)) := rfl
@[simp] theorem State.park_hart (s : State) (m : WaitMark) :
    (s.park m).hart = { s.hart with status := .waiting, mark := m } := rfl
@[simp] theorem State.vacate_hart (s : State) : s.vacate.hart = Hart.vacant := rfl
@[simp] theorem State.mapHarts_hart (s : State) (f : Hart → Hart) : (s.mapHarts f).hart = f s.hart := rfl
@[simp] theorem State.mapHarts_harts (s : State) (f : Hart → Hart) : (s.mapHarts f).harts = s.harts.map f := rfl
@[simp] theorem State.observeTime_fresh (s : State) : s.observeTime.fresh = s.fresh + 1 := rfl

@[simp] theorem Hart.advance_pc (h : Hart) : h.advance.pc = h.pc + 4 := rfl
@[simp] theorem Hart.setC_cbit (h : Hart) (c : CBit) (x : Bool) : (h.setC c x).cbit = h.cbit.set c x := rfl
@[simp] theorem Hart.raise_fflags (h : Hart) (g : FFlags) : (h.raise g).fflags = h.fflags ||| g := rfl
@[simp] theorem Hart.result_pc (h : Hart) (d : SReg) (x : Word) : (h.result d x).pc = h.pc + 4 := by
  unfold Hart.result; rw [Hart.advance_pc, Hart.setS_pc]
@[simp] theorem Hart.enterTrap_pc (h : Hart) (t : Trap) (a : Word) (n : Nat) (b : Bool) (v : Word) :
    (h.enterTrap t a n b v).pc = v := rfl
@[simp] theorem Hart.enterTrap_msel (h : Hart) (t : Trap) (a : Word) (n : Nat) (b : Bool) (v : Word) :
    (h.enterTrap t a n b v).msel = 0x0F := rfl
@[simp] theorem Hart.setV_same (h : Hart) (r : VReg) (w : Nat) (l : List (Nat × Nat)) :
    (h.setV r w l).vreg[r] = vWrite h.vreg[r] w l := by simp [Hart.setV]

/-- s0 reads as before: a write of it is discarded (02 R22). -/
theorem Hart.setS_zero (h : Hart) (x : Word) : h.setS 0 x = h := rfl

/-- A scalar register after one has been written. -/
theorem Hart.setS_sreg (h : Hart) (r q : SReg) (x : Word) :
    (h.setS r x).sreg[q] = if q = r ∧ r ≠ 0 then x else h.sreg[q] := by
  unfold Hart.setS
  split
  · rename_i h0; simp [h0]
  · rename_i h0
    by_cases hq : q = r
    · subst hq; simp [h0]
    · have : ¬r.val = q.val := fun e => hq (Fin.ext e.symm)
      simp [hq, this]

/-- A vector register other than the one written is as before. -/
theorem Hart.setV_other (h : Hart) (r q : VReg) (w : Nat) (l : List (Nat × Nat)) (hq : q ≠ r) :
    (h.setV r w l).vreg[q] = h.vreg[q] := by
  have : ¬r.val = q.val := fun e => hq (Fin.ext e.symm)
  simp [Hart.setV, this]

/-! ## Cells and dies -/

theorem cellIx_inj {d d' : DieNo} {c c' : CellNo} (h : cellIx d c = cellIx d' c') : d = d' ∧ c = c' := by
  have hv : 48 * d.val + c.val = 48 * d'.val + c'.val := congrArg Fin.val h
  exact ⟨Fin.ext (by omega), Fin.ext (by omega)⟩

theorem State.cellOf_setCell (s : State) (d d' : DieNo) (c c' : CellNo) (x : Cell) :
    (s.setCell d c x).cellOf d' c' = if d' = d ∧ c' = c then x else s.cellOf d' c' := by
  unfold State.setCell State.cellOf
  by_cases h : d' = d ∧ c' = c
  · obtain ⟨rfl, rfl⟩ := h; simp
  · have : ¬(cellIx d c).val = (cellIx d' c').val := fun e =>
      h (by obtain ⟨h1, h2⟩ := cellIx_inj (Fin.ext e); exact ⟨h1.symm, h2.symm⟩)
    simp [h, this]

theorem State.dieOf_setDie (s : State) (d d' : DieNo) (x : Die) :
    (s.setDie d x).dieOf d' = if d' = d then x else s.dieOf d' := by
  unfold State.setDie State.dieOf
  by_cases h : d' = d
  · subst h; simp
  · have : ¬d.val = d'.val := fun e => h (Fin.ext e.symm)
    simp [h, this]

@[simp] theorem State.cellOf_setDie (s : State) (d d' : DieNo) (c : CellNo) (x : Die) :
    (s.setDie d x).cellOf d' c = s.cellOf d' c := rfl
@[simp] theorem State.dieOf_setCell (s : State) (d d' : DieNo) (c : CellNo) (x : Cell) :
    (s.setCell d c x).dieOf d' = s.dieOf d' := rfl

/-! ## Time -/

@[simp] theorem State.tick_mem (s : State) : s.tick.mem = s.mem := rfl
@[simp] theorem State.tick_cells (s : State) : s.tick.cells = s.cells := rfl
@[simp] theorem State.tick_hart (s : State) : s.tick.hart = s.hart := rfl
@[simp] theorem State.tick_harts (s : State) : s.tick.harts = s.harts := rfl
@[simp] theorem State.tick_agenda (s : State) : s.tick.agenda = s.agenda := rfl
@[simp] theorem State.waitUntil_mem (s : State) (d : DieNo) (a n : Word) : (s.waitUntil d a n).mem = s.mem := rfl
@[simp] theorem State.waitUntil_cells (s : State) (d : DieNo) (a n : Word) : (s.waitUntil d a n).cells = s.cells := rfl
@[simp] theorem State.waitUntil_hart (s : State) (d : DieNo) (a n : Word) : (s.waitUntil d a n).hart = s.hart := rfl
@[simp] theorem State.waitUntil_harts (s : State) (d : DieNo) (a n : Word) : (s.waitUntil d a n).harts = s.harts := rfl

end Sys2Proof.Machine
end

