-- ==== Sys2Proof/Laws/Outcome.lean ====
section
/-!
SUPPORT. What each shared shape of a meaning can answer, once: what it does when its operands are ready, and all it can
do when it answers a next state.
-/
namespace Sys2Proof.Machine

/-! ## Operands -/

theorem Hart.src_gives {h : Hart} {r : SReg} {x : Word} (g : h.Gives r x) (ea : Bool) : h.src r ea = .ok x := by
  unfold Hart.src
  rcases g with ⟨rfl, rfl⟩ | ⟨h0, he, hp, rfl⟩
  · rfl
  · rw [if_neg h0, he]
    simp [hp]

/-- A scalar source that answers a value gives it. -/
theorem Hart.gives_of_src {h : Hart} {r : SReg} {x : Word} {ea : Bool} (e : h.src r ea = .ok x) : h.Gives r x := by
  unfold Hart.src at e
  split at e
  · rename_i h0; exact .inl ⟨h0, (Except.ok.inj e).symm⟩
  · rename_i h0
    split at e
    · split at e <;> exact nomatch e
    · rename_i he
      split at e
      · exact nomatch e
      · rename_i hp
        exact .inr ⟨h0, by simpa using he, by simpa using hp, (Except.ok.inj e).symm⟩

theorem Hart.destReady_full {h : Hart} {d : SReg} (f : h.Full d) : h.destReady d = .ok () := by
  unfold Hart.destReady; rw [f]; rfl

theorem Hart.full_of_destReady {h : Hart} {d : SReg} {u : Unit} (e : h.destReady d = .ok u) : h.Full d := by
  unfold Hart.destReady at e
  split at e
  · exact nomatch e
  · rename_i he; simpa [Hart.Full] using he

/-! ## Answers -/

theorem finish_ok {s t : State} : finish s (.ok t) = .next t := rfl

/-- A step of `finish` is the effect, a trap, a wait or the hart's cancel. -/
theorem finish_next {s t : State} {e : Except Stop State} (h : finish s e = .next t) :
    e = .ok t ∨ (∃ r, e = .error (.trap r) ∧ t = s.takeTrap r) ∨ (e = .error .stall ∧ t = s) ∨
      (e = .error .cancel ∧ t = s.takeCancel) := by
  unfold finish at h
  split at h <;> have e := (Host.Outcome.next.inj h).symm
  · exact .inl (congrArg _ e.symm)
  · exact .inr (.inl ⟨_, rfl, e⟩)
  · exact .inr (.inr (.inl ⟨rfl, e⟩))
  · exact .inr (.inr (.inr ⟨rfl, e⟩))

/-- `finish` always answers a next state. -/
theorem finish_completes (s : State) (e : Except Stop State) : ∃ t, finish s e = .next t := by
  unfold finish; split <;> exact ⟨_, rfl⟩

theorem onHart_ok {s : State} {f : Hart → Except Stop Hart} {g : Hart} (h : f s.hart = .ok g) :
    onHart s f = .next { s with hart := g } := by unfold onHart; rw [h]; rfl

theorem onHart_trap {s : State} {f : Hart → Except Stop Hart} {r : Trap} (h : f s.hart = .error (.trap r)) :
    onHart s f = .next (s.takeTrap r) := by unfold onHart; rw [h]; rfl

theorem onHart_stall {s : State} {f : Hart → Except Stop Hart} (h : f s.hart = .error .stall) :
    onHart s f = .next s := by unfold onHart; rw [h]; rfl

/-- All that a meaning over the hart alone can do. -/
theorem onHart_next {s t : State} {f : Hart → Except Stop Hart} (h : onHart s f = .next t) :
    (∃ g, f s.hart = .ok g ∧ t = { s with hart := g }) ∨ (∃ r, f s.hart = .error (.trap r) ∧ t = s.takeTrap r) ∨
      (f s.hart = .error .stall ∧ t = s) ∨ (f s.hart = .error .cancel ∧ t = s.takeCancel) := by
  unfold onHart at h
  cases e : f s.hart with
  | ok g => rw [e] at h; exact .inl ⟨g, rfl, (Host.Outcome.next.inj h).symm⟩
  | error x =>
    rw [e] at h
    rcases finish_next h with e | ⟨r, e, ht⟩ | ⟨e, ht⟩ | ⟨e, ht⟩
    · exact nomatch e
    · exact .inr (.inl ⟨r, congrArg _ (Except.error.inj e), ht⟩)
    · exact .inr (.inr (.inl ⟨congrArg _ (Except.error.inj e), ht⟩))
    · exact .inr (.inr (.inr ⟨congrArg _ (Except.error.inj e), ht⟩))

/-- Two ready sources and a full destination: the result is written, flags are raised, the pc advances. -/
theorem binary_ok {s : State} {d a b : SReg} {x y : Word} (ea eb : Bool) (f : Hart → Word → Word → Word × FFlags)
    (ha : s.hart.Gives a x) (hb : s.hart.Gives b y) (hd : s.hart.Full d) :
    binary d a b ea eb f s =
      .next { s with hart := (s.hart.raise (f s.hart x y).2).result d (f s.hart x y).1 } := by
  apply onHart_ok
  rw [Hart.src_gives ha, Hart.src_gives hb, Hart.destReady_full hd]; rfl

theorem unary_ok {s : State} {d a : SReg} {x : Word} (ea : Bool) (f : Hart → Word → Word × FFlags)
    (ha : s.hart.Gives a x) (hd : s.hart.Full d) :
    unary d a ea f s = .next { s with hart := (s.hart.raise (f s.hart x).2).result d (f s.hart x).1 } := by
  apply onHart_ok
  rw [Hart.src_gives ha, Hart.destReady_full hd]; rfl

theorem intoC_ok {s : State} {c : CBit} {r : Bool × FFlags} (f : Hart → Except Stop (Bool × FFlags))
    (h : f s.hart = .ok r) : intoC c f s = .next { s with hart := ((s.hart.raise r.2).setC c r.1).advance } := by
  apply onHart_ok; rw [h]; rfl

/-- A vector instruction with room for it enters the queue with what it captures. -/
theorem send_ok {h : Hart} {i : Instr} (hm : h.mayEnqueue i = true) (x y z : Word) :
    h.send i x y z = .ok { h with vq := h.vq ++ [h.capture i x y z] }.advance := by
  unfold Hart.send; rw [hm]; rfl

theorem sendV_ok {s : State} {i : Instr} (hm : s.hart.mayEnqueue i = true) :
    sendV i s = .next { s with hart := { s.hart with vq := s.hart.vq ++ [s.hart.capture i 0 0 0] }.advance } :=
  onHart_ok (send_ok hm 0 0 0)

theorem sendV1_ok {s : State} {i : Instr} {a : SReg} {x : Word} (ea : Bool) (hm : s.hart.mayEnqueue i = true)
    (ha : s.hart.Gives a x) :
    sendV1 i a ea s = .next { s with hart := { s.hart with vq := s.hart.vq ++ [s.hart.capture i x 0 0] }.advance } := by
  apply onHart_ok
  rw [Hart.src_gives ha]; exact send_ok hm x 0 0

theorem sendV2_ok {s : State} {i : Instr} {a b : SReg} {x y : Word} (ea eb : Bool) (hm : s.hart.mayEnqueue i = true)
    (ha : s.hart.Gives a x) (hb : s.hart.Gives b y) :
    sendV2 i a b ea eb s =
      .next { s with hart := { s.hart with vq := s.hart.vq ++ [s.hart.capture i x y 0] }.advance } := by
  apply onHart_ok
  rw [Hart.src_gives ha, Hart.src_gives hb]; exact send_ok hm x y 0

/-! ## Turns -/

/-- The next context's turn moves the harts about and changes nothing else. -/
theorem rotate_frame (s : State) :
    s.rotate.mem = s.mem ∧ s.rotate.cells = s.cells ∧ s.rotate.dies = s.dies ∧ s.rotate.tasks = s.tasks ∧
      s.rotate.jobs = s.jobs ∧ s.rotate.sent = s.sent ∧ s.rotate.fresh = s.fresh ∧
      s.rotate.poisoned = s.poisoned ∧ s.rotate.uncorrectable = s.uncorrectable := by
  unfold State.rotate; split <;> exact ⟨rfl, rfl, rfl, rfl, rfl, rfl, rfl, rfl, rfl⟩

/-- A hart that goes on changes its status, its mark and the order of becoming runnable. -/
theorem wake_eq (s : State) :
    ∃ st k n, s.wake =
      { s with hart := { s.hart with status := st, mark := .none, since := k }, nextOrder := n } := by
  unfold State.wake
  extract_lets h r
  split
  · split
    · exact ⟨_, _, _, rfl⟩
    · exact ⟨_, _, _, rfl⟩
  · exact ⟨_, _, _, rfl⟩

/-- The cell's cache after an access: nothing but that cache differs. -/
theorem tlbFill_eq (s : State) (g : Agent) (va : Word) (l : Leaf) :
    tlbFill s g va l = s ∨
      ∃ d c l', tlbFill s g va l = s.setCell d c { s.cellOf d c with tlb := l' } := by
  unfold tlbFill
  split
  · exact .inl rfl
  · rename_i c _
    split
    · exact .inl rfl
    · extract_lets x t k
      split
      · exact .inl rfl
      · exact .inr ⟨g.die, c, _, rfl⟩

/-- An access to a page in the cache leaves the cache alone. -/
theorem tlbFill_cached (s : State) (g : Agent) (va : Word) {l : Leaf} (h : l.cached = true) :
    tlbFill s g va l = s := by
  unfold tlbFill
  split
  · rfl
  · rw [if_pos h]

end Sys2Proof.Machine
end

