-- ==== Sys2Proof/Laws/Canonical.lean ====
section
/-!
SUPPORT. The shared operations keep memory and the cells' stores in canonical form. An operation that writes neither
keeps it because `mem` and `cells` are the same; one that writes them does so through `State.storeBytes`, or puts back
a cell whose stores are canonical.
-/
namespace Sys2Proof.Machine

/-- The canonical form, cell by cell. -/
theorem State.canonical_iff (s : State) :
    s.canonical = true ↔ s.mem.wf = true ∧ ∀ d c, (s.cellOf d c).canonical = true := by
  unfold State.canonical State.cellOf
  rw [Bool.and_eq_true, List.all_eq_true]
  constructor
  · rintro ⟨hm, hc⟩
    exact ⟨hm, fun d c => hc _ (by simp)⟩
  · rintro ⟨hm, hc⟩
    refine ⟨hm, fun x hx => ?_⟩
    obtain ⟨i, hi, rfl⟩ := List.getElem_of_mem hx
    have hi' : i < 192 := by simpa using hi
    have h := hc ⟨i / 48, by omega⟩ ⟨i % 48, by omega⟩
    have e : cellIx ⟨i / 48, by omega⟩ ⟨i % 48, by omega⟩ = ⟨i, hi'⟩ := Fin.ext (by simp only [cellIx]; omega)
    simp only [e] at h
    simpa using h

theorem State.canonical_mem {s : State} (h : s.canonical = true) : s.mem.wf = true := (s.canonical_iff.mp h).1
theorem State.canonical_cell {s : State} (h : s.canonical = true) (d : DieNo) (c : CellNo) :
    (s.cellOf d c).canonical = true := (s.canonical_iff.mp h).2 d c

/-- Nothing but `mem` and `cells` matters. -/
theorem State.canonical_of_eq {s t : State} (hm : t.mem = s.mem) (hc : t.cells = s.cells) (h : s.canonical = true) :
    t.canonical = true := by
  unfold State.canonical at h ⊢; rw [hm, hc]; exact h

theorem State.withHart_canonical {s : State} (h : s.canonical = true) (g : Hart) :
    ({ s with hart := g } : State).canonical = true := h
theorem State.withTasks_canonical {s : State} (h : s.canonical = true) (l : List Task) :
    ({ s with tasks := l } : State).canonical = true := h

theorem State.withJobs_canonical {s : State} (h : s.canonical = true) (l : List Job) :
    ({ s with jobs := l } : State).canonical = true := h
theorem State.withNextQid_canonical {s : State} (h : s.canonical = true) (n : Nat) :
    ({ s with nextQid := n } : State).canonical = true := h

theorem State.setCell_canonical {s : State} (h : s.canonical = true) (d : DieNo) (c : CellNo) {x : Cell}
    (hx : x.canonical = true) : (s.setCell d c x).canonical = true := by
  rw [State.canonical_iff]
  refine ⟨State.canonical_mem (s := s) h, fun d' c' => ?_⟩
  rw [State.cellOf_setCell]
  split
  · exact hx
  · exact State.canonical_cell h d' c'

/-- A cell put back with the stores it had. -/
theorem State.setCell_canonical_of {s : State} (h : s.canonical = true) (d : DieNo) (c : CellNo) {x : Cell}
    (ha : x.acc = (s.cellOf d c).acc) (hw : x.wb = (s.cellOf d c).wb) : (s.setCell d c x).canonical = true := by
  refine State.setCell_canonical h d c ?_
  have := State.canonical_cell h d c
  unfold Cell.canonical at this ⊢
  rw [ha, hw]; exact this

theorem State.storeBytes_canonical {s : State} (h : s.canonical = true) (l : List (Nat × Byte)) :
    (s.storeBytes l).canonical = true := by
  rw [State.canonical_iff] at h ⊢
  exact ⟨Memory.writeAll_wf h.1 l, h.2⟩

theorem State.storeLe_canonical {s : State} (h : s.canonical = true) (pa n x : Nat) :
    (s.storeLe pa n x).canonical = true := State.storeBytes_canonical h _

/-! ## Cells' stores -/

theorem Cell.setAcc_canonical {x : Cell} (h : x.canonical = true) (r c : Nat) (v : BitVec 32) :
    (x.setAcc r c v).canonical = true := by
  unfold Cell.canonical at h ⊢
  rw [Bool.and_eq_true] at h ⊢
  exact ⟨sparseSet_wf 0 h.1 _ _, h.2⟩

theorem Cell.setWb_canonical {x : Cell} (h : x.canonical = true) (i : Nat) (b : Block) :
    (x.setWb i b).canonical = true := by
  unfold Cell.canonical at h ⊢
  rw [Bool.and_eq_true] at h ⊢
  exact ⟨h.1, sparseSet_wf 0 h.2 _ _⟩

theorem Cell.cleared_canonical (x : Cell) : x.cleared.canonical = true := rfl

/-! ## Translation, time, messages -/

theorem tlbFill_canonical {s : State} (h : s.canonical = true) (g : Agent) (va : Word) (l : Leaf) :
    (tlbFill s g va l).canonical = true := by
  rcases tlbFill_eq s g va l with e | ⟨d, c, l', e⟩
  · rw [e]; exact h
  · rw [e]; exact State.setCell_canonical_of h d c rfl rfl

theorem tlbFillAll_canonical {s : State} (h : s.canonical = true) (g : Agent) (l : List (Word × Leaf)) :
    (tlbFillAll s g l).canonical = true := by
  unfold tlbFillAll
  induction l generalizing s with
  | nil => exact h
  | cons p r ih => exact ih (tlbFill_canonical h g p.1 p.2)

theorem State.observeTime_canonical {s : State} (h : s.canonical = true) : s.observeTime.canonical = true :=
  State.canonical_of_eq rfl rfl h
theorem State.waitUntil_canonical {s : State} (h : s.canonical = true) (d : DieNo) (a n : Word) :
    (s.waitUntil d a n).canonical = true := State.canonical_of_eq rfl rfl h
theorem State.tick_canonical {s : State} (h : s.canonical = true) : s.tick.canonical = true :=
  State.canonical_of_eq rfl rfl h
theorem State.send_canonical {s : State} (h : s.canonical = true) (k : DieNo) (m : HostMsg) :
    (s.send k m).canonical = true := State.canonical_of_eq rfl rfl h
theorem State.mapHarts_canonical {s : State} (h : s.canonical = true) (f : Hart → Hart) :
    (s.mapHarts f).canonical = true := State.canonical_of_eq rfl rfl h
theorem State.setDie_canonical {s : State} (h : s.canonical = true) (d : DieNo) (x : Die) :
    (s.setDie d x).canonical = true := State.canonical_of_eq rfl rfl h
theorem State.setTask_canonical {s : State} (h : s.canonical = true) (x : Task) : (s.setTask x).canonical = true :=
  State.canonical_of_eq rfl rfl h
theorem State.setJob_canonical {s : State} (h : s.canonical = true) (x : Job) : (s.setJob x).canonical = true :=
  State.canonical_of_eq rfl rfl h
theorem State.rotate_canonical {s : State} (h : s.canonical = true) : s.rotate.canonical = true :=
  State.canonical_of_eq (rotate_frame s).1 (rotate_frame s).2.1 h
theorem State.endTurn_canonical {s : State} (h : s.canonical = true) : s.endTurn.canonical = true := by
  unfold State.endTurn
  refine State.rotate_canonical ?_
  split
  · exact State.tick_canonical h
  · exact h
theorem State.wake_canonical {s : State} (h : s.canonical = true) : s.wake.canonical = true := by
  obtain ⟨st, k, n, e⟩ := wake_eq s
  rw [e]; exact State.canonical_of_eq rfl rfl h

theorem State.setQueue_canonical {s : State} (h : s.canonical = true) (d : DieNo) (c : CellNo) (p : BitVec 4)
    (l : List QEntry) : (s.setQueue d c p l).canonical = true := by
  unfold State.setQueue
  extract_lets x s1
  have h1 : s1.canonical = true := State.setCell_canonical_of h d c rfl rfl
  split
  · exact h1
  · exact State.storeBytes_canonical h1 _

theorem State.dropAnvil_canonical {s : State} (h : s.canonical = true) (g : Hart) : (s.dropAnvil g).canonical = true :=
  State.setCell_canonical_of h _ _ rfl rfl

/-! ## Merge slots (20 R385, R388) -/

theorem addElement_canonical {s : State} (h : s.canonical = true) (m : MergeSlot) (c i : Nat) :
    (addElement m c s i).canonical = true := State.storeLe_canonical h _ _ _

theorem addElements_canonical {s : State} (h : s.canonical = true) (m : MergeSlot) (c : Nat) (l : List Nat) :
    (l.foldl (addElement m c) s).canonical = true := by
  induction l generalizing s with
  | nil => exact h
  | cons i r ih => exact ih (addElement_canonical h m c i)

/-- Phase two keeps the form: the memory is what its elements leave, the cells are untouched. -/
theorem State.addContributor_canonical {s : State} (h : s.canonical = true) (m : MergeSlot) (c : Nat) :
    (s.addContributor m c).canonical = true := by
  have h1 := addElements_canonical h m c (List.range m.nelem)
  rw [State.canonical_iff] at h h1 ⊢
  exact ⟨h1.1, h.2⟩

theorem State.abortSlot_canonical {s : State} (h : s.canonical = true) (d : DieNo) (n : Fin 16) :
    (s.abortSlot d n).canonical = true := by
  unfold State.abortSlot
  extract_lets m
  split
  · exact State.canonical_of_eq rfl rfl h
  · exact State.setDie_canonical (State.addContributor_canonical h m _) _ _

theorem State.abortSlots_canonical {s : State} (h : s.canonical = true) (j : BitVec 32) :
    (s.abortSlots j).canonical = true := by
  have key : ∀ (l : List (DieNo × Fin 16)) {s : State}, s.canonical = true →
      (l.foldl (fun s p => s.abortSlot p.1 p.2) s).canonical = true := by
    intro l
    induction l with
    | nil => exact fun h => h
    | cons p r ih => exact fun h => ih (State.abortSlot_canonical h p.1 p.2)
  have h1 := key (s.openSlots j) h
  rw [State.canonical_iff] at h h1 ⊢
  exact ⟨h1.1, h.2⟩

/-! ## Records, jobs, joins (15 R291, R306 to R308) -/

/-- A record that is read leaves a state that differs in the cell's cache alone. -/
theorem readRecord_canonical {s t : State} {g : Agent} {a : Word} {l : BitVec 2} {b : Block} (h : s.canonical = true)
    (e : readRecord s g a l = .ok (b, t)) : t.canonical = true := by
  unfold readRecord at e
  split at e
  · exact nomatch e
  · split at e
    · exact nomatch e
    · split at e
      · exact nomatch e
      · extract_lets b at e
        split at e
        · exact nomatch e
        · obtain ⟨_, rfl⟩ := Prod.mk.inj (Except.ok.inj e)
          exact tlbFill_canonical h _ _ _

theorem State.charge_canonical {s : State} (h : s.canonical = true) (j : BitVec 32) : (s.charge j).canonical = true := by
  unfold State.charge; split
  · exact State.setJob_canonical h _
  · exact h

theorem State.enqueue_canonical {s : State} (h : s.canonical = true) (d : DieNo) (c : CellNo) (j : BitVec 32)
    (part : Option (BitVec 5)) (b : Block) : (s.enqueue d c j part b).canonical = true := by
  unfold State.enqueue
  extract_lets ceil p r s'
  exact State.withNextQid_canonical (State.setQueue_canonical (State.charge_canonical h j) d c p _) _

theorem State.endJob_canonical {s : State} (h : s.canonical = true) (x : Job) : (s.endJob x).canonical = true := by
  unfold State.endJob
  extract_lets s1
  have h1 : s1.canonical = true := State.abortSlots_canonical h _
  split
  · exact State.setJob_canonical h1 _
  · exact State.send_canonical (State.withJobs_canonical h1 _) _ _

theorem State.atZero_canonical {s : State} (h : s.canonical = true) (x : Job) : (s.atZero x).canonical = true := by
  unfold State.atZero
  split
  · exact State.endJob_canonical h x
  · extract_lets g t
    have h1 : t.canonical = true := State.setJob_canonical h _
    split
    · rename_i e; exact State.enqueue_canonical (readRecord_canonical h1 e) _ _ _ _ _
    · exact State.endJob_canonical (State.send_canonical h1 _ _) x

theorem State.discharge_canonical {s : State} (h : s.canonical = true) (j : BitVec 32) (n : Nat) :
    (s.discharge j n).canonical = true := by
  unfold State.discharge
  split
  · exact h
  · extract_lets y
    split
    · exact State.atZero_canonical (State.setJob_canonical h _) _
    · exact State.setJob_canonical h _

theorem State.decAt_canonical {s : State} (h : s.canonical = true) (g : Agent) (d : DieNo) (c : CellNo)
    (part : BitVec 5) (j : BitVec 32) (a : Word) (pa : Nat) (st : EndStatus) :
    (s.decAt g d c part j a pa st).canonical = true := by
  unfold State.decAt
  extract_lets old new s1 cont
  split
  · exact State.storeLe_canonical h _ _ _
  · have h1 : s1.canonical = true := State.storeLe_canonical h _ _ _
    split
    · split
      · rename_i e; exact State.enqueue_canonical (readRecord_canonical h1 e) _ _ _ _ _
      · exact State.send_canonical (State.storeLe_canonical h1 _ _ _) _ _
    · exact h1

theorem State.endTask_canonical {s : State} (h : s.canonical = true) (t : Task) (asid : BitVec 16) (d : DieNo)
    (c : CellNo) (part : BitVec 5) (st : EndStatus) : (s.endTask t asid d c part st).canonical = true := by
  unfold State.endTask
  extract_lets g s1
  have h1 : s1.canonical = true := by
    unfold s1
    split
    · exact h
    · split
      · exact State.decAt_canonical (tlbFill_canonical h _ _ _) _ _ _ _ _ _ _ _
      · exact State.send_canonical h _ _
  exact State.discharge_canonical (State.withTasks_canonical h1 _) _ _

/-! ## Output streams (10 R212) -/

theorem readEntry_canonical {s t : State} {d : StreamDesc} {n : Nat} {b : Word} (h : s.canonical = true)
    (e : blockOf.readEntry s d n = .ok (b, t)) : t.canonical = true := by
  unfold blockOf.readEntry at e
  dsimp only at e
  split at e
  · exact nomatch e
  · split at e
    · exact nomatch e
    · rw [← (Prod.mk.inj (Except.ok.inj e)).2]
      exact tlbFill_canonical h _ _ _

theorem blockOf_canonical {s t : State} {x : Handle} {d : StreamDesc} {n : Nat} {b : Word} (h : s.canonical = true)
    (e : blockOf s x d n = .ok (b, t)) : t.canonical = true := by
  unfold blockOf at e
  split at e
  · cases e; exact h
  · split at e
    · split at e
      · cases e; exact h
      · exact readEntry_canonical h e
    · exact readEntry_canonical h e

theorem writePlaces_canonical {s t : State} {x : Handle} {d : StreamDesc} {n b : Nat} {l : List (Word × Place)}
    (h : s.canonical = true) (e : writePlaces s x d n = .ok (l, b, t)) : t.canonical = true := by
  unfold writePlaces at e
  split at e
  · exact nomatch e
  · rename_i e1
    dsimp only at e
    split at e
    · exact nomatch e
    · cases e
      exact blockOf_canonical h e1

theorem State.setHandle_canonical {s : State} (h : s.canonical = true) (n : HReg) (x : Handle) :
    (s.setHandle n x).canonical = true := State.canonical_of_eq rfl rfl h

theorem performElement_canonical {s : State} (h : s.canonical = true) (n : HReg) (d : StreamDesc) (v : Nat) :
    (performElement s n d v).canonical = true := by
  unfold performElement
  extract_lets x
  split
  · exact State.setHandle_canonical h _ _
  · rename_i e
    exact State.setHandle_canonical
      (State.storeBytes_canonical (tlbFillAll_canonical (writePlaces_canonical h e) _ _) _) _ _

theorem publish_canonical {s t : State} {d : DieNo} {n : Fin 64} {hw : BitVec 48} {q : BitVec 16}
    (h : s.canonical = true) (e : publish s d n hw q = some t) : t.canonical = true := by
  unfold publish at e
  extract_lets at e
  split at e
  · exact nomatch e
  · rw [← Option.some.inj e]; exact State.setDie_canonical h _ _

theorem publishNext_canonical {s : State} (h : s.canonical = true) (n : HReg) (d : StreamDesc) :
    (publishNext s n d).canonical = true := by
  unfold publishNext
  extract_lets x
  split
  · rename_i e; exact State.setHandle_canonical (publish_canonical h e) _ _
  · exact State.setHandle_canonical h _ _

/-- All that an output stream does by itself keeps the canonical form. -/
theorem outputStep_canonical {s t : State} {n : HReg} (h : s.canonical = true) (e : outputStep s n = some t) :
    t.canonical = true := by
  unfold outputStep at e
  extract_lets at e
  split at e
  · split at e
    · exact nomatch e
    · split at e
      · cases e; exact publishNext_canonical h _ _
      · split at e
        · exact nomatch e
        · cases e; exact performElement_canonical h _ _ _
  · exact nomatch e

theorem drainHandle_canonical {s : State} (h : s.canonical = true) (n : HReg) (k : Nat) :
    (drainHandle n k s).canonical = true := by
  induction k generalizing s with
  | zero => exact h
  | succ k ih =>
    unfold drainHandle
    split
    · exact h
    · rename_i e; exact ih (outputStep_canonical h e)

theorem State.drainOutputs_canonical {s : State} (h : s.canonical = true) : s.drainOutputs.canonical = true := by
  unfold State.drainOutputs
  generalize List.finRange 16 = l
  induction l generalizing s with
  | nil => exact h
  | cons n r ih => exact ih (drainHandle_canonical h n _)

/-! ## Failures and ends (16 R325 to R334) -/

theorem State.dumpContext_canonical {s : State} (h : s.canonical = true) (g : Hart) :
    (s.dumpContext g).canonical = true := State.canonical_of_eq rfl rfl (State.storeBytes_canonical h _)

theorem State.post_canonical {s : State} (h : s.canonical = true) (d : DieNo) (c : CellNo) (w0 w1 w2 : Nat) :
    (s.post d c w0 w1 w2).canonical = true := by
  unfold State.post
  extract_lets s0 q prod cons e s1 s2 w3
  have h0 : s0.canonical = true := State.observeTime_canonical h
  split
  · exact State.storeLe_canonical h0 _ _ _
  · have h2 : s2.canonical = true := State.storeLe_canonical (State.storeBytes_canonical h0 _) _ _ _
    split
    · exact State.mapHarts_canonical h2 _
    · exact h2

theorem State.reportFailure_canonical {s : State} (h : s.canonical = true) (g : Hart) (kind : Nat) (tc : TCause)
    (cause sub : BitVec 8) : (s.reportFailure g kind tc cause sub).canonical = true := by
  unfold State.reportFailure
  extract_lets a s1 s2
  exact State.send_canonical (State.post_canonical (State.storeBytes_canonical h _) _ _ _ _ _) _ _

theorem State.endMember_canonical {s : State} (h : s.canonical = true) (g : Hart) (st : EndStatus) (l : BitVec 32) :
    (s.endMember g st l).canonical = true := by
  unfold State.endMember
  split
  · exact h
  · extract_lets t1 ended s1 s2
    have h2 : s2.canonical = true := by
      unfold s2
      have h1 : s1.canonical = true := State.mapHarts_canonical (State.setTask_canonical h _) _
      split
      · exact h1
      · exact State.mapHarts_canonical h1 _
    split
    · exact h2
    · exact State.endTask_canonical h2 _ _ _ _ _ _

theorem State.cancelCards_canonical {s : State} (h : s.canonical = true) (d : DieNo) (p : Card → Bool) :
    (s.cancelCards d p).canonical = true := State.canonical_of_eq rfl rfl h
theorem State.retireCards_canonical {s : State} (h : s.canonical = true) (d : DieNo) (p : Card → Bool) :
    (s.retireCards d p).canonical = true := State.canonical_of_eq rfl rfl h
theorem State.vacate_canonical {s : State} (h : s.canonical = true) : s.vacate.canonical = true :=
  State.canonical_of_eq rfl rfl h

theorem State.fatalEnd_canonical {s : State} (h : s.canonical = true) (kind : Nat) (tc : TCause) (st : EndStatus) :
    (s.fatalEnd kind tc st).canonical = true := by
  unfold State.fatalEnd
  have h0 := State.drainOutputs_canonical h
  refine State.endMember_canonical (State.vacate_canonical (State.retireCards_canonical ?_ _ _)) _ _ _
  refine State.reportFailure_canonical (State.withHart_canonical ?_ _) _ _ _ _ _
  exact State.cancelCards_canonical (State.dropAnvil_canonical h0 _) _ _

theorem State.haltNow_canonical {s : State} (h : s.canonical = true) : s.haltNow.canonical = true :=
  State.fatalEnd_canonical h _ _ _
theorem State.takeCancel_canonical {s : State} (h : s.canonical = true) : s.takeCancel.canonical = true :=
  State.fatalEnd_canonical h _ _ _

theorem State.doubleFault_canonical {s : State} (h : s.canonical = true) (c : BitVec 8) :
    (s.doubleFault c).canonical = true := by
  unfold State.doubleFault
  have h0 := State.drainOutputs_canonical h
  refine State.endMember_canonical (State.withHart_canonical (State.retireCards_canonical ?_ _ _) _) _ _ _
  refine State.reportFailure_canonical (State.withHart_canonical ?_ _) _ _ _ _ _
  exact State.cancelCards_canonical (State.dropAnvil_canonical (State.dumpContext_canonical h0 _) _) _ _

/-! ## Traps and answers (16 R318) -/

theorem State.atHandler_canonical {s : State} (h : s.canonical = true) : s.atHandler.canonical = true := by
  unfold State.atHandler
  split
  · exact h
  · exact State.doubleFault_canonical h _

theorem State.takeTrap_canonical {s : State} (h : s.canonical = true) (t : Trap) : (s.takeTrap t).canonical = true := by
  unfold State.takeTrap
  exact State.atHandler_canonical (State.withHart_canonical (State.wake_canonical h) _)

theorem State.takeVectorTrap_canonical {s : State} (h : s.canonical = true) (t : Trap) :
    (s.takeVectorTrap t).canonical = true := by
  unfold State.takeVectorTrap
  extract_lets s1 g
  have h1 : s1.canonical = true := State.wake_canonical h
  split
  · exact State.doubleFault_canonical h1 _
  · exact State.atHandler_canonical (State.withHart_canonical (State.dropAnvil_canonical h1 _) _)

/-- A meaning that answers through `finish` keeps the canonical form if its effect does. -/
theorem finish_canonical {s t : State} {e : Except Stop State} (h : s.canonical = true)
    (he : ∀ u, e = .ok u → u.canonical = true) (ht : finish s e = .next t) : t.canonical = true := by
  rcases finish_next ht with e0 | ⟨r, _, et⟩ | ⟨_, et⟩ | ⟨_, et⟩
  · exact he t e0
  · rw [et]; exact State.takeTrap_canonical h r
  · rw [et]; exact h
  · rw [et]; exact State.takeCancel_canonical h

/-- A meaning over the hart alone keeps the canonical form. -/
theorem onHart_canonical {s t : State} {f : Hart → Except Stop Hart} (h : s.canonical = true)
    (ht : onHart s f = .next t) : t.canonical = true := by
  rcases onHart_next ht with ⟨g, _, et⟩ | ⟨r, _, et⟩ | ⟨_, et⟩ | ⟨_, et⟩
  · rw [et]; exact State.withHart_canonical h _
  · rw [et]; exact State.takeTrap_canonical h r
  · rw [et]; exact h
  · rw [et]; exact State.takeCancel_canonical h

end Sys2Proof.Machine
end

