-- ==== Sys2Proof/Laws/Decode.lean ====
section
/-!
SUPPORT. The fields of an encoded word, format by format (03 R55, R56): what a decoder reads back from what the encoder
laid down. A proof about decoding an encoded instruction cites one lemma of its format and one of its major.
-/
namespace Sys2Proof.Laws

theorem toS_self (d : SReg) : toS d.val = d := Fin.ofNat_val_eq_self d
theorem toV_self (d : VReg) : toV d.val = d := Fin.ofNat_val_eq_self d
theorem toM_self (d : MReg) : toM d.val = d := Fin.ofNat_val_eq_self d
theorem toT_self (d : TReg) : toT d.val = d := Fin.ofNat_val_eq_self d
theorem toC_self (d : CBit) : toC d.val = d := Fin.ofNat_val_eq_self d

theorem high_lt {x : Nat} (h : x < 8) : high x = false := by
  unfold high; rw [show x / 8 = 0 by omega]; rfl

theorem bit_lt (b : Bool) : bit b < 2 := by cases b <;> decide
theorem bit_eq (b : Bool) : (bit b == 1) = b := by cases b <;> rfl
theorem eq_of_bit {n : Nat} {b : Bool} (h : n = bit b) : (n == 1) = b := by rw [h, bit_eq]

/-- A code read back: the table inverts the numbering. -/
theorem IntTy_ofCode (t : IntTy) : IntTy.ofCode t.code = some t := by cases t <;> rfl
theorem FltTy_ofCode (t : FltTy) : FltTy.ofCode t.code = some t := by cases t <;> rfl
theorem VFltTy_ofCode (t : VFltTy) : VFltTy.ofCode t.code = some t := by cases t <;> rfl
theorem SFltTy_ofCode (t : SFltTy) : SFltTy.ofCode t.code = some t := by cases t <;> rfl
theorem ElemTy_ofCode (t : ElemTy) : ElemTy.ofCode t.cls t.code = some t := by
  cases t with
  | int t => cases t <;> rfl
  | flt t => cases t <;> rfl
theorem Rel_ofCode (t : Rel) : Rel.ofCode t.code = some t := by cases t <;> rfl
theorem Scope_ofCode (t : Scope) : Scope.ofCode t.code = some t := by cases t <;> rfl
theorem Width_ofCode (t : Width) : Width.ofCode t.code = some t := by cases t <;> rfl
theorem Size_ofCode (t : Size) : Size.ofCode t.code = t := by cases t <;> rfl
theorem ASize_ofCode (t : ASize) : ASize.ofCode t.code = some t := by cases t <;> rfl
theorem TreeTy_ofCode (t : TreeTy) : TreeTy.ofCode t.code = some t := by cases t <;> rfl
theorem TreeComb_ofCode (t : TreeComb) : TreeComb.ofCode t.code = some t := by cases t <;> rfl
theorem EwOp_ofCode (t : EwOp) : EwOp.ofCode t.code = some t := by cases t <;> rfl
theorem RedOp_ofCode (t : RedOp) : RedOp.ofCode t.code = some t := by cases t <;> rfl
theorem CvtMode_ofCode (t : CvtMode) : CvtMode.ofCode t.code = t := by cases t <;> rfl
theorem bfp_ofCode (k : BfpW) : bfpOfCode (bfpCode k) = some k := by revert k; decide

theorem IntTy_lt (t : IntTy) : t.code < 16 := by cases t <;> decide
theorem FltTy_lt (t : FltTy) : t.code < 16 := by cases t <;> decide
theorem VFltTy_lt (t : VFltTy) : t.code < 4 := by cases t <;> decide
theorem SFltTy_lt (t : SFltTy) : t.code < 16 := by cases t <;> decide
theorem ElemTy_lt (t : ElemTy) : t.code < 16 := by
  cases t with
  | int t => exact IntTy_lt t
  | flt t => exact FltTy_lt t
theorem ElemTy_cls_lt (t : ElemTy) : t.cls < 2 := by cases t <;> simp [ElemTy.cls]
theorem Rel_lt (t : Rel) : t.code < 8 := by cases t <;> decide
theorem Scope_lt (t : Scope) : t.code < 8 := by cases t <;> decide
theorem Width_lt (t : Width) : t.code < 8 := by cases t <;> decide
theorem Size_lt (t : Size) : t.code < 4 := by cases t <;> decide
theorem ASize_lt (t : ASize) : t.code < 4 := by cases t <;> decide
theorem TreeTy_lt (t : TreeTy) : t.code < 4 := by cases t <;> decide
theorem TreeComb_lt (t : TreeComb) : t.code < 32 := by cases t <;> decide
theorem EwOp_lt (t : EwOp) : t.code < 8 := by cases t <;> decide
theorem RedOp_lt (t : RedOp) : t.code < 4 := by cases t <;> decide
theorem CvtMode_lt (t : CvtMode) : t.code < 8 := by cases t <;> decide
theorem bfp_lt (k : BfpW) : bfpCode k < 16 := by revert k; decide

/-! ## Fields of each format -/

/-- Format A. -/
theorem encA_fields (maj d a b f : Nat) (x y : Bool) (hm : maj < 64) (hd : d < 32) (ha : a < 32) (hb : b < 32)
    (hf : f < 512) :
    encA maj d a b f x y < 2 ^ 32 ∧ wMajor (encA maj d a b f x y) = maj ∧ wD (encA maj d a b f x y) = d ∧
      wA (encA maj d a b f x y) = a ∧ wB (encA maj d a b f x y) = b ∧ wFunc9 (encA maj d a b f x y) = f ∧
      wEa (encA maj d a b f x y) = x ∧ wEb (encA maj d a b f x y) = y := by
  have := bit_lt x; have := bit_lt y
  refine ⟨?_, ?_, ?_, ?_, ?_, ?_, eq_of_bit ?_, eq_of_bit ?_⟩ <;>
    simp only [encA, wMajor, wD, wA, wB, wFunc9] <;> omega

/-- Op in [10:6] and type in [5:2]. -/
theorem encOp_fields (maj d a b op ty : Nat) (x y : Bool) (hd : d < 32) (ha : a < 32) (hb : b < 32)
    (hm : maj < 64) (hop : op < 32) (hty : ty < 16) :
    encOp maj d a b op ty x y < 2 ^ 32 ∧ wMajor (encOp maj d a b op ty x y) = maj ∧
      wD (encOp maj d a b op ty x y) = d ∧ wA (encOp maj d a b op ty x y) = a ∧ wB (encOp maj d a b op ty x y) = b ∧
      wEa (encOp maj d a b op ty x y) = x ∧ wEb (encOp maj d a b op ty x y) = y ∧
      encOp maj d a b op ty x y / 4 % 16 = ty ∧ encOp maj d a b op ty x y / 64 % 32 = op := by
  have F := encA_fields maj d a b (op * 16 + ty) x y (by omega) hd ha hb (by omega)
  obtain ⟨h0, h1, h2, h3, h4, h5, h6, h7⟩ := F
  unfold wFunc9 at h5
  refine ⟨h0, h1, h2, h3, h4, h6, h7, ?_⟩
  unfold encOp; omega

/-- Major 0x0D: op in [10:7], size in [6:5], scope in [4:2]. -/
theorem encAt_fields (d a b op z sc : Nat) (x y : Bool) (hd : d < 32) (ha : a < 32) (hb : b < 32)
    (hop : op < 16) (hz : z < 4) (hs : sc < 8) :
    encAt d a b op z sc x y < 2 ^ 32 ∧ wMajor (encAt d a b op z sc x y) = 0x0D ∧ wD (encAt d a b op z sc x y) = d ∧
      wA (encAt d a b op z sc x y) = a ∧ wB (encAt d a b op z sc x y) = b ∧ wEa (encAt d a b op z sc x y) = x ∧
      wEb (encAt d a b op z sc x y) = y ∧ encAt d a b op z sc x y / 4 % 8 = sc ∧
      encAt d a b op z sc x y / 32 % 4 = z ∧ encAt d a b op z sc x y / 128 % 16 = op := by
  have F := encA_fields 0x0D d a b (op * 32 + z * 8 + sc) x y (by omega) hd ha hb (by omega)
  obtain ⟨h0, h1, h2, h3, h4, h5, h6, h7⟩ := F
  unfold wFunc9 at h5
  refine ⟨h0, h1, h2, h3, h4, h6, h7, ?_⟩
  unfold encAt; omega

/-- Major 0x1C: op in [10:7], class in [6], type in [5:2]. -/
theorem encX_fields (d a b op c ty : Nat) (x y : Bool) (hd : d < 32) (ha : a < 32) (hb : b < 32)
    (hop : op < 16) (hc : c < 2) (hty : ty < 16) :
    encX d a b op c ty x y < 2 ^ 32 ∧ wMajor (encX d a b op c ty x y) = 0x1C ∧ wD (encX d a b op c ty x y) = d ∧
      wA (encX d a b op c ty x y) = a ∧ wB (encX d a b op c ty x y) = b ∧ wEa (encX d a b op c ty x y) = x ∧
      wEb (encX d a b op c ty x y) = y ∧ encX d a b op c ty x y / 64 % 2 = c ∧ encX d a b op c ty x y / 4 % 16 = ty ∧
      encX d a b op c ty x y / 128 % 16 = op := by
  have F := encA_fields 0x1C d a b (op * 32 + c * 16 + ty) x y (by omega) hd ha hb (by omega)
  obtain ⟨h0, h1, h2, h3, h4, h5, h6, h7⟩ := F
  unfold wFunc9 at h5
  refine ⟨h0, h1, h2, h3, h4, h6, h7, ?_⟩
  unfold encX; omega

/-- Major 0x20: op in [10:8], scope in [7:5], bit 4 zero, width in [3:2]. -/
theorem encG_fields (d a b op sc z : Nat) (x y : Bool) (hd : d < 32) (ha : a < 32) (hb : b < 32)
    (hop : op < 8) (hs : sc < 8) (hz : z < 4) :
    encG d a b op sc z x y < 2 ^ 32 ∧ wMajor (encG d a b op sc z x y) = 0x20 ∧ wD (encG d a b op sc z x y) = d ∧
      wA (encG d a b op sc z x y) = a ∧ wB (encG d a b op sc z x y) = b ∧ wEa (encG d a b op sc z x y) = x ∧
      wEb (encG d a b op sc z x y) = y ∧ encG d a b op sc z x y / 256 % 8 = op ∧
      encG d a b op sc z x y / 32 % 8 = sc ∧ encG d a b op sc z x y / 16 % 2 = 0 ∧
      encG d a b op sc z x y / 4 % 4 = z := by
  have F := encA_fields 0x20 d a b (op * 64 + sc * 8 + z) x y (by omega) hd ha hb (by omega)
  obtain ⟨h0, h1, h2, h3, h4, h5, h6, h7⟩ := F
  unfold wFunc9 at h5
  refine ⟨h0, h1, h2, h3, h4, h6, h7, ?_⟩
  unfold encG; omega

/-- Major 0x22: mirror in [10:9], op in [8:6], type in [5:2]. -/
theorem encV_fields (d a b m op ty : Nat) (x y : Bool) (hd : d < 32) (ha : a < 32) (hb : b < 32)
    (hm : m < 4) (hop : op < 8) (hty : ty < 16) :
    encV d a b m op ty x y < 2 ^ 32 ∧ wMajor (encV d a b m op ty x y) = 0x22 ∧ wD (encV d a b m op ty x y) = d ∧
      wA (encV d a b m op ty x y) = a ∧ wB (encV d a b m op ty x y) = b ∧ wEa (encV d a b m op ty x y) = x ∧
      wEb (encV d a b m op ty x y) = y ∧ encV d a b m op ty x y / 512 % 4 = m ∧
      encV d a b m op ty x y / 64 % 8 = op ∧ encV d a b m op ty x y / 4 % 16 = ty := by
  have F := encA_fields 0x22 d a b (m * 128 + op * 16 + ty) x y (by omega) hd ha hb (by omega)
  obtain ⟨h0, h1, h2, h3, h4, h5, h6, h7⟩ := F
  unfold wFunc9 at h5
  refine ⟨h0, h1, h2, h3, h4, h6, h7, ?_⟩
  unfold encV; omega

/-- Major 0x0F: group in [10:8], relation in [7:5], a bit in [4], [3:2] zero. -/
theorem enc0F_fields (d a b g r s : Nat) (x y : Bool) (hd : d < 32) (ha : a < 32) (hb : b < 32)
    (hg : g < 8) (hr : r < 8) (hs : s < 2) :
    encA 0x0F d a b (g * 64 + r * 8 + s * 4) x y < 2 ^ 32 ∧
      wMajor (encA 0x0F d a b (g * 64 + r * 8 + s * 4) x y) = 0x0F ∧
      wD (encA 0x0F d a b (g * 64 + r * 8 + s * 4) x y) = d ∧ wA (encA 0x0F d a b (g * 64 + r * 8 + s * 4) x y) = a ∧
      wB (encA 0x0F d a b (g * 64 + r * 8 + s * 4) x y) = b ∧
      wEa (encA 0x0F d a b (g * 64 + r * 8 + s * 4) x y) = x ∧
      wEb (encA 0x0F d a b (g * 64 + r * 8 + s * 4) x y) = y ∧
      encA 0x0F d a b (g * 64 + r * 8 + s * 4) x y / 256 % 8 = g ∧
      encA 0x0F d a b (g * 64 + r * 8 + s * 4) x y / 32 % 8 = r ∧
      encA 0x0F d a b (g * 64 + r * 8 + s * 4) x y / 16 % 2 = s ∧
      encA 0x0F d a b (g * 64 + r * 8 + s * 4) x y / 4 % 4 = 0 := by
  have F := encA_fields 0x0F d a b (g * 64 + r * 8 + s * 4) x y (by omega) hd ha hb (by omega)
  obtain ⟨h0, h1, h2, h3, h4, h5, h6, h7⟩ := F
  unfold wFunc9 at h5
  refine ⟨h0, h1, h2, h3, h4, h6, h7, ?_⟩
  omega

/-- Major 0x1A: class in [10], relation in [9:7], bit 6 zero, type in [5:2]. -/
theorem enc1A_fields (d a b c r ty : Nat) (x y : Bool) (hd : d < 32) (ha : a < 32) (hb : b < 32)
    (hc : c < 2) (hr : r < 8) (hty : ty < 16) :
    encA 0x1A d a b (c * 256 + r * 32 + ty) x y < 2 ^ 32 ∧
      wMajor (encA 0x1A d a b (c * 256 + r * 32 + ty) x y) = 0x1A ∧
      wD (encA 0x1A d a b (c * 256 + r * 32 + ty) x y) = d ∧ wA (encA 0x1A d a b (c * 256 + r * 32 + ty) x y) = a ∧
      wB (encA 0x1A d a b (c * 256 + r * 32 + ty) x y) = b ∧ wEa (encA 0x1A d a b (c * 256 + r * 32 + ty) x y) = x ∧
      wEb (encA 0x1A d a b (c * 256 + r * 32 + ty) x y) = y ∧
      encA 0x1A d a b (c * 256 + r * 32 + ty) x y / 1024 % 2 = c ∧
      encA 0x1A d a b (c * 256 + r * 32 + ty) x y / 128 % 8 = r ∧
      encA 0x1A d a b (c * 256 + r * 32 + ty) x y / 64 % 2 = 0 ∧
      encA 0x1A d a b (c * 256 + r * 32 + ty) x y / 4 % 16 = ty := by
  have F := encA_fields 0x1A d a b (c * 256 + r * 32 + ty) x y (by omega) hd ha hb (by omega)
  obtain ⟨h0, h1, h2, h3, h4, h5, h6, h7⟩ := F
  unfold wFunc9 at h5
  refine ⟨h0, h1, h2, h3, h4, h6, h7, ?_⟩
  omega

/-- Format I. -/
theorem encI_fields (maj d a i : Nat) (x : Bool) (hm : maj < 64) (hd : d < 32) (ha : a < 32) (hi : i < 32768) :
    encI maj d a i x < 2 ^ 32 ∧ wMajor (encI maj d a i x) = maj ∧ wD (encI maj d a i x) = d ∧
      wA (encI maj d a i x) = a ∧ encI maj d a i x / 2 % 32768 = i ∧ wE0 (encI maj d a i x) = x := by
  have := bit_lt x
  refine ⟨?_, ?_, ?_, ?_, ?_, eq_of_bit ?_⟩ <;> simp only [encI, wMajor, wD, wA] <;> omega

/-- Formats U and X. -/
theorem encU_fields (maj d i : Nat) (hm : maj < 64) (hd : d < 32) (hi : i < 2097152) :
    encU maj d i < 2 ^ 32 ∧ wMajor (encU maj d i) = maj ∧ wD (encU maj d i) = d ∧ encU maj d i % 2097152 = i := by
  simp only [encU, wMajor, wD]; omega

/-- Formats B, J and G. -/
theorem encJ_fields (maj i : Nat) (hm : maj < 64) (hi : i < 67108864) :
    encJ maj i < 2 ^ 32 ∧ wMajor (encJ maj i) = maj ∧ encJ maj i % 67108864 = i := by
  simp only [encJ, wMajor]; omega

/-- Format M. -/
theorem encM_fields (maj d a p : Nat) (z : Size) (o x : Bool) (hm : maj < 64) (hd : d < 32) (ha : a < 32)
    (hp : p < 4096) :
    encM maj d a p z.code o x < 2 ^ 32 ∧ wMajor (encM maj d a p z.code o x) = maj ∧
      wD (encM maj d a p z.code o x) = d ∧ wA (encM maj d a p z.code o x) = a ∧
      encM maj d a p z.code o x / 16 % 4096 = p ∧ wSize (encM maj d a p z.code o x) = z ∧
      wOrd (encM maj d a p z.code o x) = o ∧ wE0 (encM maj d a p z.code o x) = x := by
  have := bit_lt x; have := bit_lt o; have := Size_lt z
  refine ⟨?_, ?_, ?_, ?_, ?_, ?_, eq_of_bit ?_, eq_of_bit ?_⟩
  case refine_6 =>
    unfold wSize
    rw [show encM maj d a p z.code o x / 4 % 4 = z.code by unfold encM; omega, Size_ofCode]
  all_goals simp only [encM, wMajor, wD, wA]; omega

/-- Format T. -/
theorem encT_fields (d a t k op ty : Nat) (x y : Bool) (hd : d < 32) (ha : a < 32) (ht : t < 8) (hk : k < 32)
    (hop : op < 16) (hty : ty < 4) :
    encT d a t k op ty x y < 2 ^ 32 ∧ wMajor (encT d a t k op ty x y) = 0x23 ∧ wD (encT d a t k op ty x y) = d ∧
      wA (encT d a t k op ty x y) = a ∧ encT d a t k op ty x y / 8192 % 8 = t ∧
      encT d a t k op ty x y / 256 % 32 = k ∧ encT d a t k op ty x y / 16 % 16 = op ∧
      encT d a t k op ty x y / 4 % 4 = ty ∧ wEa (encT d a t k op ty x y) = x ∧ wEb (encT d a t k op ty x y) = y := by
  have := bit_lt x; have := bit_lt y
  refine ⟨?_, ?_, ?_, ?_, ?_, ?_, ?_, ?_, eq_of_bit ?_, eq_of_bit ?_⟩ <;>
    simp only [encT, wMajor, wD, wA] <;> omega

/-- Format E. -/
theorem encE_fields (maj a b f i : Nat) (hm : maj < 64) (ha : a < 32) (hb : b < 32) (hf : f < 256) (hi : i < 256) :
    encE maj a b f i < 2 ^ 32 ∧ wMajor (encE maj a b f i) = maj ∧ wD (encE maj a b f i) = a ∧
      wA (encE maj a b f i) = b ∧ wFunc8 (encE maj a b f i) = f ∧ wImm8 (encE maj a b f i) = i := by
  simp only [encE, wMajor, wD, wA, wFunc8, wImm8]; omega

/-! ## Immediates -/

theorem ofNat_eq {n : Nat} (v : BitVec n) (w : Nat) (h : w % 2 ^ n = v.toNat) : BitVec.ofNat n w = v := by
  apply BitVec.eq_of_toNat_eq; rw [BitVec.toNat_ofNat, h]

/-! ## Majors -/

theorem dec_01 {w : Nat} (h : wMajor w = 0x01) : decode w = dec01 w := by unfold decode; rw [h]; rfl
theorem dec_02 {w : Nat} (h : wMajor w = 0x02) : decode w = dec02 w := by unfold decode; rw [h]; rfl
theorem dec_03 {w : Nat} (h : wMajor w = 0x03) : decode w = dec03 w := by unfold decode; rw [h]; rfl
theorem dec_04 {w : Nat} (h : wMajor w = 0x04) : decode w = dec04 w := by unfold decode; rw [h]; rfl
theorem dec_05 {w : Nat} (h : wMajor w = 0x05) : decode w = dec05 w := by unfold decode; rw [h]; rfl
theorem dec_06 {w : Nat} (h : wMajor w = 0x06) : decode w = dec06 w := by unfold decode; rw [h]; rfl
theorem dec_07 {w : Nat} (h : wMajor w = 0x07) : decode w = dec07 w := by unfold decode; rw [h]; rfl
theorem dec_08 {w : Nat} (h : wMajor w = 0x08) : decode w = dec08 w := by unfold decode; rw [h]; rfl
theorem dec_09 {w : Nat} (h : wMajor w = 0x09) : decode w = dec09 w := by unfold decode; rw [h]; rfl
theorem dec_0A {w : Nat} (h : wMajor w = 0x0A) : decode w = dec0A w := by unfold decode; rw [h]; rfl
theorem dec_0B {w : Nat} (h : wMajor w = 0x0B) : decode w = dec0B w := by unfold decode; rw [h]; rfl
theorem dec_0C {w : Nat} (h : wMajor w = 0x0C) : decode w = dec0C w := by unfold decode; rw [h]; rfl
theorem dec_0D {w : Nat} (h : wMajor w = 0x0D) : decode w = dec0D w := by unfold decode; rw [h]; rfl
theorem dec_0E {w : Nat} (h : wMajor w = 0x0E) : decode w = dec0E w := by unfold decode; rw [h]; rfl
theorem dec_0F {w : Nat} (h : wMajor w = 0x0F) : decode w = dec0F w := by unfold decode; rw [h]; rfl
theorem dec_10 {w : Nat} (h : wMajor w = 0x10) : decode w = dec10 w := by unfold decode; rw [h]; rfl
theorem dec_11 {w : Nat} (h : wMajor w = 0x11) : decode w = dec11 w := by unfold decode; rw [h]; rfl
theorem dec_12 {w : Nat} (h : wMajor w = 0x12) : decode w = dec12 w := by unfold decode; rw [h]; rfl
theorem dec_13 {w : Nat} (h : wMajor w = 0x13) : decode w = dec13 w := by unfold decode; rw [h]; rfl
theorem dec_14 {w : Nat} (h : wMajor w = 0x14) : decode w = dec14 w := by unfold decode; rw [h]; rfl
theorem dec_15 {w : Nat} (h : wMajor w = 0x15) : decode w = dec15 w := by unfold decode; rw [h]; rfl
theorem dec_16 {w : Nat} (h : wMajor w = 0x16) : decode w = dec16 w := by unfold decode; rw [h]; rfl
theorem dec_17 {w : Nat} (h : wMajor w = 0x17) : decode w = dec17 w := by unfold decode; rw [h]; rfl
theorem dec_18 {w : Nat} (h : wMajor w = 0x18) : decode w = dec18 w := by unfold decode; rw [h]; rfl
theorem dec_19 {w : Nat} (h : wMajor w = 0x19) : decode w = dec19 w := by unfold decode; rw [h]; rfl
theorem dec_1A {w : Nat} (h : wMajor w = 0x1A) : decode w = dec1A w := by unfold decode; rw [h]; rfl
theorem dec_1B {w : Nat} (h : wMajor w = 0x1B) : decode w = dec1B w := by unfold decode; rw [h]; rfl
theorem dec_1C {w : Nat} (h : wMajor w = 0x1C) : decode w = dec1C w := by unfold decode; rw [h]; rfl
theorem dec_1D {w : Nat} (h : wMajor w = 0x1D) : decode w = dec1D w := by unfold decode; rw [h]; rfl
theorem dec_1E {w : Nat} (h : wMajor w = 0x1E) : decode w = dec1E w := by unfold decode; rw [h]; rfl
theorem dec_1F {w : Nat} (h : wMajor w = 0x1F) : decode w = dec1F w := by unfold decode; rw [h]; rfl
theorem dec_20 {w : Nat} (h : wMajor w = 0x20) : decode w = dec20 w := by unfold decode; rw [h]; rfl
theorem dec_21 {w : Nat} (h : wMajor w = 0x21) : decode w = dec21 w := by unfold decode; rw [h]; rfl
theorem dec_22 {w : Nat} (h : wMajor w = 0x22) : decode w = dec22 w := by unfold decode; rw [h]; rfl
theorem dec_23 {w : Nat} (h : wMajor w = 0x23) : decode w = dec23 w := by unfold decode; rw [h]; rfl
theorem dec_24 {w : Nat} (h : wMajor w = 0x24) : decode w = dec24 w := by unfold decode; rw [h]; rfl
theorem dec_25 {w : Nat} (h : wMajor w = 0x25) : decode w = dec25 w := by unfold decode; rw [h]; rfl
theorem dec_26 {w : Nat} (h : wMajor w = 0x26) : decode w = dec26 w := by unfold decode; rw [h]; rfl
theorem dec_27 {w : Nat} (h : wMajor w = 0x27) : decode w = dec27 w := by unfold decode; rw [h]; rfl
theorem dec_28 {w : Nat} (h : wMajor w = 0x28) : decode w = dec28 w := by unfold decode; rw [h]; rfl
theorem dec_29 {w : Nat} (h : wMajor w = 0x29) : decode w = dec29 w := by unfold decode; rw [h]; rfl
theorem dec_2A {w : Nat} (h : wMajor w = 0x2A) : decode w = dec2A w := by unfold decode; rw [h]; rfl
theorem dec_2B {w : Nat} (h : wMajor w = 0x2B) : decode w = dec2B w := by unfold decode; rw [h]; rfl
theorem dec_2C {w : Nat} (h : wMajor w = 0x2C) : decode w = dec2C w := by unfold decode; rw [h]; rfl
theorem dec_2D {w : Nat} (h : wMajor w = 0x2D) : decode w = dec2D w := by unfold decode; rw [h]; rfl
theorem dec_3F {w : Nat} (h : wMajor w = 0x3F) : decode w = .ok (.brk (BitVec.ofNat 26 w)) := by
  unfold decode; rw [h]; rfl

end Sys2Proof.Laws
end

