-- ==== Sys2Proof/Laws/Effects.lean ====
section
/-!
SUPPORT. What some shared operations can change: the draining of output streams (10 R206, R212), waiting (00 R14), the
sending of flits (22 R433), auto-forces (18 R361) and the checks of a job card (11 R240).
-/
namespace Sys2Proof.Machine

/-! ## Output streams -/

/-- Two states differ at most in the current hart's handles, memory with its marks, cells and dies. -/
def OutputsOnly (s t : State) : Prop :=
  t = { s with
    hart := { s.hart with handles := t.hart.handles }
    mem := t.mem, poisoned := t.poisoned, uncorrectable := t.uncorrectable, cells := t.cells, dies := t.dies }

theorem OutputsOnly.refl (s : State) : OutputsOnly s s := rfl

theorem OutputsOnly.trans {s t u : State} (h : OutputsOnly s t) (k : OutputsOnly t u) : OutputsOnly s u := by
  unfold OutputsOnly at *
  rw [k, h]

theorem tlbFill_only (s : State) (g : Agent) (va : Word) (l : Leaf) : OutputsOnly s (tlbFill s g va l) := by
  unfold tlbFill
  split
  · rfl
  · split
    · rfl
    · simp only
      split <;> rfl

theorem tlbFillAll_only (s : State) (g : Agent) (l : List (Word × Leaf)) : OutputsOnly s (tlbFillAll s g l) := by
  induction l generalizing s with
  | nil => rfl
  | cons p r ih => exact (tlbFill_only s g p.1 p.2).trans (ih _)

theorem setHandle_only (s : State) (n : HReg) (x : Handle) : OutputsOnly s (s.setHandle n x) := rfl

theorem storeBytes_only (s : State) (l : List (Nat × Byte)) : OutputsOnly s (s.storeBytes l) := rfl

theorem writePlaces_only {s s1 : State} {x : Handle} {d : StreamDesc} {n bit : Nat} {ps : List (Word × Place)}
    (h : writePlaces s x d n = .ok (ps, bit, s1)) : OutputsOnly s s1 := by
  have entry {r : Word × State} (e : blockOf.readEntry s d n = .ok r) : OutputsOnly s r.2 := by
    unfold blockOf.readEntry at e
    dsimp only at e
    split at e
    · cases e
    · split at e
      · cases e
      · cases e; exact tlbFill_only s s.hart.agent _ _
  have block {r : Word × State} (e : blockOf s x d n = .ok r) : OutputsOnly s r.2 := by
    unfold blockOf at e
    split at e
    · cases e; rfl
    · split at e
      · split at e
        · cases e; rfl
        · exact entry e
      · exact entry e
  unfold writePlaces at h
  split at h
  · cases h
  · rename_i e
    dsimp only at h
    split at h
    · cases h
    · cases h; exact block e

theorem performElement_only (s : State) (n : HReg) (d : StreamDesc) (v : Nat) : OutputsOnly s (performElement s n d v) := by
  unfold performElement
  dsimp only
  cases h : writePlaces s s.hart.handles[n] d s.hart.handles[n].done with
  | error f => rfl
  | ok r =>
    obtain ⟨ps, bit, s1⟩ := r
    exact (writePlaces_only h).trans ((tlbFillAll_only _ _ _).trans ((storeBytes_only _ _).trans (setHandle_only _ _ _)))

theorem publish_only {s t : State} {d : DieNo} {n : Fin 64} {hw : BitVec 48} {seq : BitVec 16}
    (h : publish s d n hw seq = some t) : OutputsOnly s t := by
  unfold publish at h
  dsimp only at h
  split at h
  · cases h
  · cases h; rfl

theorem outputStep_only {s t : State} {n : HReg} (h : outputStep s n = some t) : OutputsOnly s t := by
  unfold outputStep at h
  dsimp only at h
  split at h
  · split at h
    · cases h
    · split at h
      · cases h
        unfold publishNext
        dsimp only
        split
        · exact (publish_only ‹_›).trans (setHandle_only _ _ _)
        · rfl
      · split at h
        · cases h
        · cases h; exact performElement_only _ _ _ _
  · cases h

theorem drainHandle_only (n : HReg) : ∀ (k : Nat) (s : State), OutputsOnly s (drainHandle n k s)
  | 0, _ => rfl
  | k + 1, s => by
    unfold drainHandle
    split
    · rfl
    · exact (outputStep_only ‹_›).trans (drainHandle_only n k _)

/-- Draining the output streams changes handles, memory, cells and dies alone. -/
theorem State.drainOutputs_only (s : State) : OutputsOnly s s.drainOutputs := by
  unfold State.drainOutputs
  generalize List.finRange 16 = l
  induction l generalizing s with
  | nil => rfl
  | cons n r ih => exact (drainHandle_only n _ s).trans (ih _)

/-- A stream with nothing left to do is left as it is. -/
theorem outputStep_idle {s : State} {n : HReg} (h : s.hart.handles[n].busy = false) : outputStep s n = none := by
  unfold outputStep
  unfold Handle.busy at h
  dsimp only
  generalize s.hart.handles[n] = x at h ⊢
  split
  · rename_i d l hd
    by_cases hb : x.bound = true
    · simp only [hb, Bool.true_and, Bool.or_eq_false_iff, bne_eq_false_iff_eq] at h
      simp [h.2, Handle.settled, h.1]
    · simp [hb]
  · rfl

/-- With no stream that has something to do, draining changes nothing. -/
theorem State.drainOutputs_idle {s : State} (h : ∀ n : HReg, s.hart.handles[n].busy = false) : s.drainOutputs = s := by
  have one (n : HReg) (k : Nat) : drainHandle n k s = s := by
    cases k with
    | zero => rfl
    | succ k => unfold drainHandle; rw [outputStep_idle (h n)]
  unfold State.drainOutputs
  generalize List.finRange 16 = l
  induction l with
  | nil => rfl
  | cons n r ih => rw [List.foldl_cons, one, ih]

/-! ## Time (00 R14) -/

theorem vmap_get {α β : Type} {n : Nat} (f : α → β) (v : Vector α n) (i : Nat) (h : i < n) :
    (vmap f v)[i] = f v[i] := by
  simp [vmap]

/-- A wait until some local cycles have passed leaves everything but the dies' time. -/
theorem waitUntil_keeps (s : State) (d : DieNo) (start cycles : Word) :
    s.waitUntil d start cycles = { s with dies := (s.waitUntil d start cycles).dies, fresh := s.fresh + 1 } := rfl

/-- The die's CYC has moved on by the cycles that were left, and at least one more. -/
theorem waitUntil_cyc (s : State) (d : DieNo) (start cycles : Word) :
    ((s.waitUntil d start cycles).dieOf d).cyc =
      (if (s.dieOf d).cyc - start < cycles then start + cycles else (s.dieOf d).cyc) +
        BitVec.ofNat 64 (Config.elapsed s.fresh + 1) := by
  unfold State.waitUntil State.observeTime State.dieOf
  simp only [Fin.getElem_fin, vmap_get]
  generalize s.dies[d.val].cyc = x
  split <;> bv_omega

/-! ## Flits (22 R433) -/

/-- A flit that goes on its way changes inboxes and ports alone. -/
theorem sendFlit_keeps (s : State) (d : DieNo) (f : Block) : s.sendFlit d f = { s with dies := (s.sendFlit d f).dies } := by
  unfold State.sendFlit
  split
  · rfl
  · dsimp only
    split
    · rfl
    · split
      · rfl
      · split <;> rfl

/-- So do the flits of a packet. -/
theorem sendPacket_keeps (s : State) (f : InFlight) : s.sendPacket f = { s with dies := (s.sendPacket f).dies } := by
  unfold State.sendPacket
  dsimp only
  generalize Config.spawnPayloads _ _ _ _ _ = l
  induction l generalizing s with
  | nil => rfl
  | cons x r ih =>
    rw [List.foldl_cons]
    generalize hs : s.sendFlit f.src _ = t at *
    have e := sendFlit_keeps s f.src (flitOf (flitHeader f.node (BitVec.ofFin f.packet.die) 0 (BitVec.ofNat 40 f.packet.number)) x)
    rw [hs] at e
    rw [ih t, e]

/-! ## Auto-forces (18 R361) -/

/-- An auto-force that succeeds takes the victim out of its slot, keeps its allocation for its consumers, and counts. -/
theorem autoForce_ok {s : State} {x : Forced} (h : autoForce s = .ok x) :
    ∃ n k y m, s.hart.hearth.victim = some (n, k) ∧ force s [(n.nid, n.full)] [] = .ok y ∧
      x.done.hart.hearth.autof = y.done.hart.hearth.autof + 1 ∧
      x.done.hart.hearth.ghosts = y.done.hart.hearth.ghosts ++ [(m, k)] ∧
      ∀ i : Fin 64, ∀ z, x.done.hart.hearth.slots[i] = some z → z.nid ≠ n.nid := by
  unfold autoForce at h
  split at h
  · cases h
  · rename_i n k hv
    cases hf : force s [(n.nid, n.full)] [] with
    | error e => rw [hf] at h; cases h
    | ok y =>
      rw [hf] at h
      cases h
      refine ⟨n, k, y, _, hv, hf, rfl, rfl, ?_⟩
      intro i z hz
      simp only [State.withHearth, Hart.withHearth, Fin.getElem_fin, vmap_get, Option.bind_eq_some_iff] at hz
      obtain ⟨w, _, hw⟩ := hz
      split at hw
      · cases hw
      · cases hw; assumption

/-! ## Job cards (11 R240) -/

/-- What makes any card malformed, whatever its kind (11 R240). -/
theorem cardBad_common (s : State) (h : Hart) (l : List Word) :
    let w (k : Nat) : Word := l.getD k 0
    bitsOf (w 0) 43 0 ≠ 0 ∨ 3 < cardKind (w 0) ∨ bitsOf (w 1) 47 0 = 0 ∨ bitsOf (w 1) 63 48 ≠ 0 ∨
      bitsOf (w 9) 62 40 ≠ 0 ∨ bitsOf (w 11) 62 40 ≠ 0 ∨ bitsOf (w 14) 63 25 ≠ 0 ∨ bitsOf (w 14) 7 6 ≠ 0 ∨ w 15 ≠ 0 →
    cardBad s h l = true := by
  intro w b
  have : commonBad s h.die w = true := by
    unfold commonBad
    simp only [Bool.or_eq_true, bne_iff_ne, beq_iff_eq, decide_eq_true_eq]
    simp only [or_assoc]
    exact b.imp_right fun b => b.imp_right fun b => b.imp_right fun b => b.imp_right fun b => b.imp_right fun b =>
      b.imp_right fun b => b.imp_right fun b => b.imp_right .inl
  unfold cardBad
  dsimp only
  rw [this]
  rfl

/-- A card with sound common fields is malformed as its kind says. -/
theorem cardBad_kind (s : State) (h : Hart) (l : List Word) (ok : commonBad s h.die (fun k => l.getD k 0) = false) :
    (cardKind (l.getD 0 0) = 1 → cardBad s h l = gatherBad fun k => l.getD k 0) ∧
    (cardKind (l.getD 0 0) = 2 → cardBad s h l = collectiveBad fun k => l.getD k 0) ∧
    (cardKind (l.getD 0 0) = 3 → cardBad s h l = codecBad fun k => l.getD k 0) ∧
    (cardKind (l.getD 0 0) = 0 → cardBad s h l = copyBad s h (fun k => l.getD k 0) (mcastCells l)) := by
  refine ⟨?_, ?_, ?_, ?_⟩ <;> intro k <;> unfold cardBad <;> dsimp only <;> rw [ok, k] <;> rfl

end Sys2Proof.Machine
end

