-- ==== Sys2Proof/Laws/Elements.lean ====
section
/-!
SUPPORT. Elements of a register (02 R26 to R28): reading after writing, element by element.
-/
namespace Sys2Proof.Machine

/-- The elements of a slice fit in its 256 bits. -/
theorem perSlice_mul_le (w : Nat) : w * perSlice w ≤ 256 := by
  unfold perSlice
  have h := Nat.mul_div_le 256 w
  have h2 : w * (256 / w - (if w = 6 then 2 else 0)) ≤ w * (256 / w) := Nat.mul_le_mul_left w (Nat.sub_le _ _)
  omega

/-- An element of a register of 256 lanes lies within it. -/
theorem elemBit_lt {w e : Nat} (he : e < 256 * perSlice w) : elemBit w e + w ≤ 65536 := by
  have hp : 0 < perSlice w := Nat.pos_of_ne_zero fun h => by simp [h] at he
  have h1 : e / perSlice w < 256 := Nat.div_lt_of_lt_mul (by rwa [Nat.mul_comm] at he)
  have h2 : e % perSlice w + 1 ≤ perSlice w := Nat.mod_lt e hp
  have h3 := Nat.mul_le_mul_left w h2
  have h4 := perSlice_mul_le w
  unfold elemBit
  rw [Nat.mul_add, Nat.mul_one] at h3
  omega

/-- Different elements lie apart. -/
theorem elemBit_apart {w e f : Nat} (hp : 0 < perSlice w) (h : e ≠ f) :
    elemBit w e + w ≤ elemBit w f ∨ elemBit w f + w ≤ elemBit w e := by
  have h4 := perSlice_mul_le w
  have e1 := Nat.mul_le_mul_left w (Nat.mod_lt e hp : e % perSlice w + 1 ≤ perSlice w)
  have f1 := Nat.mul_le_mul_left w (Nat.mod_lt f hp : f % perSlice w + 1 ≤ perSlice w)
  rw [Nat.mul_succ] at e1 f1
  unfold elemBit
  rcases Nat.lt_trichotomy (e / perSlice w) (f / perSlice w) with hlt | heq | hgt
  · omega
  · have hm : e % perSlice w ≠ f % perSlice w := fun hm =>
      h (by rw [← Nat.div_add_mod e (perSlice w), ← Nat.div_add_mod f (perSlice w), heq, hm])
    rcases Nat.lt_or_gt_of_ne hm with hl | hg
    · have := Nat.mul_le_mul_left w (hl : e % perSlice w + 1 ≤ f % perSlice w)
      rw [Nat.mul_succ] at this
      omega
    · have := Nat.mul_le_mul_left w (hg : f % perSlice w + 1 ≤ e % perSlice w)
      rw [Nat.mul_succ] at this
      omega
  · omega

theorem vElem_eq (v : VWord) (w e : Nat) : vElem v w e = (v.extractLsb' (elemBit w e) w).toNat := by
  unfold vElem
  rw [BitVec.extractLsb'_toNat, Nat.shiftRight_eq_div_pow]

theorem vElem_lt (v : VWord) (w e : Nat) : vElem v w e < 2 ^ w := Nat.mod_lt _ (Nat.two_pow_pos w)

/-- A bit of the contents after an element has been written. -/
theorem vSetElem_bit (v : VWord) (w e x j : Nat) (hj : j < 65536) :
    (vSetElem v w e x).getLsbD j =
      if elemBit w e ≤ j ∧ j < elemBit w e + w then x.testBit (j - elemBit w e) else v.getLsbD j := by
  unfold vSetElem
  simp only [BitVec.getLsbD_or, BitVec.getLsbD_and, BitVec.getLsbD_not, BitVec.getLsbD_shiftLeft, BitVec.getLsbD_ofNat,
    Nat.testBit_two_pow_sub_one, Nat.testBit_mod_two_pow]
  have hb : j - elemBit w e < 65536 := by omega
  by_cases h1 : j < elemBit w e
  · rw [if_neg (by omega)]; simp [hj, h1]
  · by_cases h2 : j - elemBit w e < w
    · rw [if_pos (by omega)]; simp [hj, h1, h2, hb]
    · rw [if_neg (by omega)]; simp [hj, h1, h2]

/-- Reading an element after writing one. -/
theorem vElem_vSetElem (v : VWord) (w e f x : Nat) (he : e < 256 * perSlice w) (hf : f < 256 * perSlice w) :
    vElem (vSetElem v w e x) w f = if f = e then x % 2 ^ w else vElem v w f := by
  have le := elemBit_lt he
  have lf := elemBit_lt hf
  have hp : 0 < perSlice w := Nat.pos_of_ne_zero fun h => by simp [h] at he
  rw [vElem_eq]
  by_cases h : f = e
  · subst h
    rw [if_pos rfl]
    have : (vSetElem v w f x).extractLsb' (elemBit w f) w = BitVec.ofNat w x := by
      apply BitVec.eq_of_getLsbD_eq
      intro i hi
      rw [BitVec.getLsbD_extractLsb', vSetElem_bit v w f x _ (by omega), if_pos (by omega),
        BitVec.getLsbD_ofNat, Nat.add_sub_cancel_left]
    rw [this, BitVec.toNat_ofNat]
  · rw [if_neg h, vElem_eq]
    congr 1
    apply BitVec.eq_of_getLsbD_eq
    intro i hi
    have ap := elemBit_apart hp h
    rw [BitVec.getLsbD_extractLsb', BitVec.getLsbD_extractLsb', vSetElem_bit v w e x _ (by omega),
      if_neg (by omega)]

/-- An element that is not among those written is as before. -/
theorem vElem_vWrite_other (v : VWord) (w f : Nat) (l : List (Nat × Nat)) (hl : ∀ p ∈ l, p.1 < 256 * perSlice w)
    (hf : f < 256 * perSlice w) (h : ∀ p ∈ l, p.1 ≠ f) : vElem (vWrite v w l) w f = vElem v w f := by
  induction l generalizing v with
  | nil => rfl
  | cons p r ih =>
    show vElem (vWrite (vSetElem v w p.1 p.2) w r) w f = vElem v w f
    rw [ih _ (fun q hq => hl q (List.mem_cons_of_mem _ hq)) fun q hq => h q (List.mem_cons_of_mem _ hq),
      vElem_vSetElem v w p.1 f p.2 (hl p List.mem_cons_self) hf, if_neg fun e => h p List.mem_cons_self e.symm]

/-- An element that is written once holds what was written. -/
theorem vElem_vWrite_same (v : VWord) (w : Nat) (l : List (Nat × Nat)) (hl : ∀ p ∈ l, p.1 < 256 * perSlice w)
    (hd : (l.map (·.1)).Nodup) (p : Nat × Nat) (hp : p ∈ l) : vElem (vWrite v w l) w p.1 = p.2 % 2 ^ w := by
  induction l generalizing v with
  | nil => exact absurd hp List.not_mem_nil
  | cons q r ih =>
    have hd' := List.nodup_cons.mp hd
    have hr : ∀ p ∈ r, p.1 < 256 * perSlice w := fun p h => hl p (List.mem_cons_of_mem _ h)
    show vElem (vWrite (vSetElem v w q.1 q.2) w r) w p.1 = p.2 % 2 ^ w
    rcases List.mem_cons.mp hp with rfl | hp'
    · rw [vElem_vWrite_other _ w p.1 r hr (hl p List.mem_cons_self) fun q hq e =>
          hd'.1 (List.mem_map.mpr ⟨q, hq, e⟩),
        vElem_vSetElem v w p.1 p.1 p.2 (hl p List.mem_cons_self) (hl p List.mem_cons_self), if_pos rfl]
    · exact ih _ hr hd'.2 hp'

end Sys2Proof.Machine
end

