-- ==== Sys2Proof/Laws/Numbers.lean ====
section
/-!
SUPPORT. What rounding, exact sums, roots, powers and combinations compute (00 R13; 05 R128; 06 R157; 08 R173, R178,
R186, R189; 17 R347).
-/
namespace Sys2Proof.Machine

/-! ## Rounding (08 R173) -/

theorem roundShift_exact {mode : RMode} {neg : Bool} {n sh : Nat} (h : n % 2 ^ sh = 0) :
    roundShift mode neg n sh = n / 2 ^ sh := by simp [roundShift, h]

/-- A rounding gives one of the two neighbours. -/
theorem roundShift_or (mode : RMode) (neg : Bool) (n sh : Nat) :
    roundShift mode neg n sh = n / 2 ^ sh ∨ n % 2 ^ sh ≠ 0 ∧ roundShift mode neg n sh = n / 2 ^ sh + 1 := by
  by_cases h : n % 2 ^ sh = 0
  · exact .inl (roundShift_exact h)
  · have pick (p : Prop) [Decidable p] (q : Nat) : (if p then q + 1 else q) = q ∨ (if p then q + 1 else q) = q + 1 := by
      split <;> simp
    have pick' (p : Prop) [Decidable p] (q : Nat) : (if p then q else q + 1) = q ∨ (if p then q else q + 1) = q + 1 := by
      split <;> simp
    simp only [roundShift, h, if_false, ne_eq, not_false_iff, true_and]
    cases mode <;> first | exact pick _ _ | exact pick' _ _ | exact .inl rfl

/-- RTZ rounds towards zero. -/
theorem roundShift_rtz (neg : Bool) (n sh : Nat) : roundShift .rtz neg n sh = n / 2 ^ sh := by simp [roundShift]

/-- RDN never rounds a positive value up, nor RUP a negative one: the result is not above the value. -/
theorem roundShift_down (n sh : Nat) :
    roundShift .rdn false n sh = n / 2 ^ sh ∧ roundShift .rup true n sh = n / 2 ^ sh := by simp [roundShift]

/-- RUP of a positive value and RDN of a negative one round the magnitude up. -/
theorem roundShift_up (n sh : Nat) : n ≤ roundShift .rup false n sh * 2 ^ sh ∧ n ≤ roundShift .rdn true n sh * 2 ^ sh := by
  have h := Nat.div_add_mod n (2 ^ sh)
  have l := Nat.mod_lt n (Nat.two_pow_pos sh)
  by_cases h0 : n % 2 ^ sh = 0
  · simp only [roundShift_exact h0]
    rw [Nat.mul_comm]
    omega
  · simp only [roundShift, h0, if_false, Nat.add_mul, Nat.one_mul, Bool.false_eq_true, if_true]
    rw [Nat.mul_comm]
    omega

/-- RNE is at most half a unit from the value. -/
theorem roundShift_near (neg : Bool) (n sh : Nat) :
    2 * (roundShift .rne neg n sh * 2 ^ sh) ≤ 2 * n + 2 ^ sh ∧ 2 * n ≤ 2 * (roundShift .rne neg n sh * 2 ^ sh) + 2 ^ sh := by
  have h := Nat.div_add_mod n (2 ^ sh)
  have l := Nat.mod_lt n (Nat.two_pow_pos sh)
  rw [Nat.mul_comm] at h
  unfold roundShift
  by_cases h0 : n % 2 ^ sh = 0
  · simp only [h0, if_true]
    omega
  · simp only [h0, if_false]
    split
    · rw [Nat.add_mul, Nat.one_mul]
      omega
    · rename_i h1
      omega

/-- At the half way RNE takes the even neighbour. -/
theorem roundShift_tie {neg : Bool} {n sh : Nat} (h : 2 * (n % 2 ^ sh) = 2 ^ sh) : roundShift .rne neg n sh % 2 = 0 := by
  have p := Nat.two_pow_pos sh
  have h0 : n % 2 ^ sh ≠ 0 := by omega
  simp only [roundShift, h0, if_false, h, Nat.lt_irrefl, true_and, false_or]
  split <;> omega

theorem Fmt.two_pow_bits (f : Fmt) : 2 ^ f.bits = 2 ^ (f.ebits + f.fbits) * 2 := by
  rw [← Nat.pow_succ]; congr 1; unfold Fmt.bits; omega

theorem withSign_lt (f : Fmt) (neg : Bool) (x : Nat) : withSign f neg x < 2 ^ f.bits := by
  have h := Nat.mod_lt x (Nat.two_pow_pos (f.ebits + f.fbits))
  rw [f.two_pow_bits]
  unfold withSign
  generalize 2 ^ (f.ebits + f.fbits) = p at *
  split <;> omega

/-- A pattern is its sign, exponent and fraction. -/
theorem pattern_parts (f : Fmt) {x : Nat} (h : x < 2 ^ f.bits) :
    withSign f (x / 2 ^ (f.ebits + f.fbits) % 2 == 1)
      (x / 2 ^ f.fbits % 2 ^ f.ebits * 2 ^ f.fbits + x % 2 ^ f.fbits) = x := by
  have m : x / 2 ^ f.fbits % 2 ^ f.ebits * 2 ^ f.fbits + x % 2 ^ f.fbits = x % 2 ^ (f.ebits + f.fbits) := by
    rw [Nat.add_comm f.ebits, Nat.pow_add, Nat.mod_mul, Nat.mul_comm (2 ^ f.fbits) (_ % _), Nat.add_comm]
  rw [f.two_pow_bits] at h
  have s := Nat.div_add_mod x (2 ^ (f.ebits + f.fbits))
  have d : x / 2 ^ (f.ebits + f.fbits) < 2 := Nat.div_lt_of_lt_mul h
  unfold withSign
  rw [m, Nat.mod_mod]
  generalize x / 2 ^ (f.ebits + f.fbits) = d' at *
  rcases (by omega : d' = 0 ∨ d' = 1) with z | z <;> subst z <;> simp at s ⊢ <;> omega

/-- A magnitude of full precision whose quantum the format has is rounded to itself. -/
theorem roundFin_normal (f : Fmt) (mode : RMode) (neg : Bool) {m : Nat} {e : Int} (lo : 2 ^ f.fbits ≤ m)
    (hi : m < 2 ^ (f.fbits + 1)) (he : f.emin ≤ e)
    (fits : ((e - f.emin).toNat + 1) * 2 ^ f.fbits + (m - 2 ^ f.fbits) ≤ maxPattern f) :
    roundFin f mode neg m e = (withSign f neg (((e - f.emin).toNat + 1) * 2 ^ f.fbits + (m - 2 ^ f.fbits)), 0) := by
  have p := Nat.two_pow_pos f.fbits
  have l : Nat.log2 m = f.fbits := by
    have h1 := (Nat.le_log2 (by omega)).mpr lo
    have h2 := (Nat.log2_lt (by omega)).mpr hi
    omega
  have q : max (e + (Nat.log2 m + 1 : Nat) - (f.fbits + 1 : Nat)) f.emin = e := by rw [l]; omega
  unfold roundFin
  rw [q]
  have h1 : ¬ m ≥ 2 ^ (f.fbits + 1) := by omega
  have h2 : ¬ m < 2 ^ f.fbits := by omega
  simp only [Int.le_refl, if_true, Int.sub_self, Int.toNat_zero, Nat.pow_zero, Nat.mul_one, h1, h2, decide_false,
    if_false, decide_true, Bool.true_or, Bool.not_true, Bool.false_and]
  simp [Nat.not_lt.mpr fits]

/-- A magnitude below full precision at the smallest quantum is rounded to itself. -/
theorem roundFin_subnormal (f : Fmt) (mode : RMode) (neg : Bool) {m : Nat} (lo : 0 < m) (hi : m < 2 ^ f.fbits)
    (fits : m ≤ maxPattern f) : roundFin f mode neg m f.emin = (withSign f neg m, 0) := by
  have l : Nat.log2 m < f.fbits := (Nat.log2_lt (by omega)).mpr hi
  have q : max (f.emin + (Nat.log2 m + 1 : Nat) - (f.fbits + 1 : Nat)) f.emin = f.emin := by omega
  unfold roundFin
  rw [q]
  have h1 : ¬ m ≥ 2 ^ (f.fbits + 1) := by rw [Nat.pow_succ]; omega
  simp only [Int.le_refl, if_true, Int.sub_self, Int.toNat_zero, Nat.pow_zero, Nat.mul_one, h1, hi, if_false,
    decide_true, Bool.true_or, Bool.not_true, Bool.false_and]
  simp [Nat.not_lt.mpr fits]

/-- Rounding gives back a finite value of the format, exactly and with no flag. -/
theorem roundF_unpack (f : Fmt) (mode : RMode) {x : Nat} (h : x < 2 ^ f.bits) {neg : Bool} {m : Nat} {e : Int}
    (u : unpack f x = .fin neg m e) : roundF f mode (.fin neg m e) = (x, 0) := by
  have parts := pattern_parts f h
  have pe := Nat.two_pow_pos f.ebits
  have pf := Nat.two_pow_pos f.fbits
  have lx := Nat.mod_lt (x / 2 ^ f.fbits) pe
  have lf := Nat.mod_lt x pf
  have ps : 2 ^ (f.ebits + f.fbits) = 2 ^ f.ebits * 2 ^ f.fbits := Nat.pow_add _ _ _
  have key : ∀ ex fr, ex * 2 ^ f.fbits + fr ≤ maxPattern f → fr < 2 ^ f.fbits →
      FVal.fin neg m e = (if ex = 0 then .fin (x / 2 ^ (f.ebits + f.fbits) % 2 == 1) fr f.emin
        else .fin (x / 2 ^ (f.ebits + f.fbits) % 2 == 1) (2 ^ f.fbits + fr) ((ex : Int) - f.bias - f.fbits)) →
      roundF f mode (.fin neg m e) = (withSign f (x / 2 ^ (f.ebits + f.fbits) % 2 == 1) (ex * 2 ^ f.fbits + fr), 0) := by
    intro ex fr fits lt eq
    by_cases h0 : ex = 0
    · subst h0
      simp only [if_true, Nat.zero_mul, Nat.zero_add] at eq fits ⊢
      injection eq with e1 e2 e3
      subst e1 e2 e3
      cases m with
      | zero => rfl
      | succ k => exact roundFin_subnormal f mode _ (Nat.succ_pos k) lt fits
    · simp only [h0, if_false] at eq
      injection eq with e1 e2 e3
      subst e1 e2 e3
      have hd : ((((ex : Int) - f.bias - f.fbits) - f.emin).toNat + 1) = ex := by unfold Fmt.emin; omega
      have r := roundFin_normal f mode (x / 2 ^ (f.ebits + f.fbits) % 2 == 1) (m := 2 ^ f.fbits + fr)
        (e := (ex : Int) - f.bias - f.fbits) (by omega) (by rw [Nat.pow_succ]; omega) (by unfold Fmt.emin; omega)
        (by rw [hd, Nat.add_sub_cancel_left]; exact fits)
      rw [hd, Nat.add_sub_cancel_left] at r
      obtain ⟨k, hk⟩ := Nat.exists_eq_succ_of_ne_zero (by omega : 2 ^ f.fbits + fr ≠ 0)
      rw [hk] at r ⊢
      exact r
  have bound : x / 2 ^ f.fbits % 2 ^ f.ebits * 2 ^ f.fbits + x % 2 ^ f.fbits < 2 ^ (f.ebits + f.fbits) := by
    rw [ps]
    have := Nat.mul_le_mul_right (2 ^ f.fbits) (Nat.succ_le_of_lt lx)
    rw [Nat.succ_mul] at this
    omega
  refine (key _ _ ?_ lf ?_).trans (by rw [parts])
  · unfold unpack at u
    unfold maxPattern
    cases hk : f.kind <;> simp only [hk] at u ⊢
    · split at u
      · split at u <;> cases u
      · rename_i nt
        have : x / 2 ^ f.fbits % 2 ^ f.ebits + 1 ≤ 2 ^ f.ebits - 1 := by
          simp only [beq_iff_eq] at nt
          omega
        have := Nat.mul_le_mul_right (2 ^ f.fbits) this
        rw [Nat.add_mul, Nat.one_mul] at this
        omega
    · split at u
      · cases u
      · rename_i nt
        simp only [Bool.and_eq_true, beq_iff_eq, not_and] at nt
        by_cases hx : x / 2 ^ f.fbits % 2 ^ f.ebits = 2 ^ f.ebits - 1
        · have := nt hx
          have e1 : (2 ^ f.ebits - 1) * 2 ^ f.fbits = 2 ^ f.ebits * 2 ^ f.fbits - 2 ^ f.fbits := by
            rw [Nat.sub_mul, Nat.one_mul]
          have : 2 ^ f.fbits ≤ 2 ^ f.ebits * 2 ^ f.fbits := Nat.le_mul_of_pos_left _ pe
          rw [hx, e1, ps] at *
          omega
        · have : x / 2 ^ f.fbits % 2 ^ f.ebits + 2 ≤ 2 ^ f.ebits := by omega
          have := Nat.mul_le_mul_right (2 ^ f.fbits) this
          rw [Nat.add_mul] at this
          rw [ps]
          omega
    · omega
  · rw [← u]
    unfold unpack at u ⊢
    cases hk : f.kind <;> simp only [hk] at u ⊢
    · split
      · rename_i nt
        rw [if_pos nt] at u
        split at u <;> cases u
      · rfl
    · split
      · rename_i nt
        rw [if_pos nt] at u
        cases u
      · rfl

theorem maxPattern_lt (f : Fmt) : maxPattern f < 2 ^ (f.ebits + f.fbits) := by
  have ps : 2 ^ (f.ebits + f.fbits) = 2 ^ f.ebits * 2 ^ f.fbits := Nat.pow_add _ _ _
  have pe := Nat.two_pow_pos f.ebits
  have pf := Nat.two_pow_pos f.fbits
  have p := Nat.two_pow_pos (f.ebits + f.fbits)
  unfold maxPattern
  cases f.kind <;> simp only
  · have := Nat.mul_le_mul_right (2 ^ f.fbits) (Nat.sub_le (2 ^ f.ebits) 1)
    have := Nat.mul_pos pe pf
    omega
  · omega
  · omega

/-- What a pattern not above the largest finite one stands for (08 R171). -/
theorem unpack_withSign (f : Fmt) (he0 : 0 < f.ebits) (neg : Bool) {p : Nat} (h : p ≤ maxPattern f) :
    unpack f (withSign f neg p) =
      if p / 2 ^ f.fbits = 0 then .fin neg p f.emin
      else .fin neg (2 ^ f.fbits + p % 2 ^ f.fbits) ((p / 2 ^ f.fbits : Nat) - f.bias - f.fbits) := by
  have hl := maxPattern_lt f
  have ps : 2 ^ (f.ebits + f.fbits) = 2 ^ f.fbits * 2 ^ f.ebits := by rw [Nat.add_comm, Nat.pow_add]
  have pe := Nat.two_pow_pos f.ebits
  have pf := Nat.two_pow_pos f.fbits
  have lp : p < 2 ^ (f.ebits + f.fbits) := by omega
  have dx : p / 2 ^ f.fbits < 2 ^ f.ebits := Nat.div_lt_of_lt_mul (by omega)
  have hs : withSign f neg p / 2 ^ (f.ebits + f.fbits) % 2 = (if neg then 1 else 0) := by
    unfold withSign
    rw [Nat.mod_eq_of_lt lp]
    cases neg
    · simp [Nat.div_eq_of_lt lp]
    · simp [Nat.div_eq_of_lt lp, Nat.add_div_right _ (Nat.two_pow_pos (f.ebits + f.fbits))]
  have hm : withSign f neg p % 2 ^ (f.ebits + f.fbits) = p := by
    unfold withSign
    cases neg <;> simp [Nat.mod_eq_of_lt lp]
  have he : withSign f neg p / 2 ^ f.fbits % 2 ^ f.ebits = p / 2 ^ f.fbits := by
    rw [← Nat.mod_mul_right_div_self, ← ps, hm]
  have hf : withSign f neg p % 2 ^ f.fbits = p % 2 ^ f.fbits := by
    rw [← Nat.mod_mul_right_mod _ (2 ^ f.fbits) (2 ^ f.ebits), ← ps, hm]
  have hn : (withSign f neg p / 2 ^ (f.ebits + f.fbits) % 2 == 1) = neg := by rw [hs]; cases neg <;> rfl
  have hz (z : p / 2 ^ f.fbits = 0) : p % 2 ^ f.fbits = p := by
    have := Nat.div_add_mod p (2 ^ f.fbits)
    rw [z] at this
    omega
  have split' := Nat.div_add_mod p (2 ^ f.fbits)
  have core : (if p / 2 ^ f.fbits = 0 then FVal.fin neg (p % 2 ^ f.fbits) f.emin
      else .fin neg (2 ^ f.fbits + p % 2 ^ f.fbits) ((p / 2 ^ f.fbits : Nat) - f.bias - f.fbits)) =
      if p / 2 ^ f.fbits = 0 then .fin neg p f.emin
      else .fin neg (2 ^ f.fbits + p % 2 ^ f.fbits) ((p / 2 ^ f.fbits : Nat) - f.bias - f.fbits) := by
    by_cases z : p / 2 ^ f.fbits = 0
    · simp [z, hz z]
    · simp [z]
  unfold unpack
  rw [hn, he, hf]
  unfold maxPattern at h
  cases hk : f.kind <;> simp only [hk] at h ⊢
  · rw [if_neg]
    · exact core
    · simp only [beq_iff_eq]
      intro top
      rw [top, Nat.mul_comm] at split'
      have := Nat.mod_lt p pf
      have : 0 < (2 ^ f.ebits - 1) * 2 ^ f.fbits := by
        have := Nat.pow_le_pow_right (n := 2) (by omega) he0
        exact Nat.mul_pos (by omega) pf
      have lt := Nat.le_add_right ((2 ^ f.ebits - 1) * 2 ^ f.fbits) (p % 2 ^ f.fbits)
      rw [split'] at lt
      exact Nat.not_le_of_lt (Nat.sub_lt this Nat.one_pos) (Nat.le_trans lt h)
  · rw [if_neg]
    · exact core
    · simp only [Bool.and_eq_true, beq_iff_eq, not_and]
      intro top fr
      rw [top, fr, Nat.mul_sub, Nat.mul_one, ← ps] at split'
      have : 2 ^ f.fbits ≤ 2 ^ (f.ebits + f.fbits) := Nat.pow_le_pow_right (by omega) (by omega)
      have : 2 ^ 1 ≤ 2 ^ (f.ebits + f.fbits) := Nat.pow_le_pow_right (by omega) (by omega)
      omega
  · exact core

/-- ROUND_F gives the exact magnitude rounded to a multiple of the quantum that its size asks for, or overflows. -/
theorem roundFin_value (f : Fmt) (he0 : 0 < f.ebits) (mode : RMode) (neg : Bool) {m : Nat} (hm : 0 < m) (e : Int) :
    let q := max (e + (Nat.log2 m + 1 : Nat) - (f.fbits + 1 : Nat)) f.emin
    let n := if q ≤ e then m * 2 ^ (e - q).toNat else roundShift mode neg m (q - e).toNat
    roundFin f mode neg m e = (overflowPattern f mode neg, fOF ||| fNX) ∨
      ∃ M E, unpack f (roundFin f mode neg m e).1 = .fin neg M E ∧ f.emin ≤ E ∧
        M * 2 ^ (E - f.emin).toNat = n * 2 ^ (q - f.emin).toNat := by
  intro q n
  have pf := Nat.two_pow_pos f.fbits
  have p1 : 2 ^ (f.fbits + 1) = 2 ^ f.fbits * 2 := Nat.pow_succ ..
  have lo := Nat.log2_self_le (by omega : m ≠ 0)
  have hi : m < 2 ^ (Nat.log2 m + 1) := Nat.lt_log2_self
  have hq : f.emin ≤ q := Int.le_max_right ..
  have hq1 : e + (Nat.log2 m + 1 : Nat) - (f.fbits + 1 : Nat) ≤ q := Int.le_max_left ..
  -- the rounded magnitude has at most one bit more than the precision, and all of it above the smallest quantum
  have up : n ≤ 2 ^ (f.fbits + 1) := by
    show (if q ≤ e then m * 2 ^ (e - q).toNat else roundShift mode neg m (q - e).toNat) ≤ _
    split
    · have h1 : m * 2 ^ (e - q).toNat < 2 ^ (Nat.log2 m + 1) * 2 ^ (e - q).toNat :=
        Nat.mul_lt_mul_of_pos_right hi (Nat.two_pow_pos _)
      rw [← Nat.pow_add] at h1
      exact Nat.le_of_lt (Nat.lt_of_lt_of_le h1 (Nat.pow_le_pow_right (by omega) (by omega)))
    · have h1 : m / 2 ^ (q - e).toNat < 2 ^ (f.fbits + 1) := by
        rw [Nat.div_lt_iff_lt_mul (Nat.two_pow_pos _), ← Nat.pow_add]
        exact Nat.lt_of_lt_of_le hi (Nat.pow_le_pow_right (by omega) (by omega))
      rcases roundShift_or mode neg m (q - e).toNat with r | r <;> omega
  have down (above : f.emin < q) : 2 ^ f.fbits ≤ n := by
    have hq2 : q = e + (Nat.log2 m + 1 : Nat) - (f.fbits + 1 : Nat) := by
      show max _ _ = _
      have : q = max (e + (Nat.log2 m + 1 : Nat) - (f.fbits + 1 : Nat)) f.emin := rfl
      omega
    show _ ≤ (if q ≤ e then m * 2 ^ (e - q).toNat else roundShift mode neg m (q - e).toNat)
    split
    · have h1 : 2 ^ Nat.log2 m * 2 ^ (e - q).toNat ≤ m * 2 ^ (e - q).toNat := Nat.mul_le_mul_right _ lo
      rw [← Nat.pow_add] at h1
      exact Nat.le_trans (Nat.pow_le_pow_right (by omega) (by omega)) h1
    · have h1 : 2 ^ f.fbits ≤ m / 2 ^ (q - e).toNat := by
        rw [Nat.le_div_iff_mul_le (Nat.two_pow_pos _), ← Nat.pow_add]
        exact Nat.le_trans (Nat.pow_le_pow_right (by omega) (by omega)) lo
      rcases roundShift_or mode neg m (q - e).toNat with r | r <;> omega
  have rn : roundFin f mode neg m e =
      (let big := n ≥ 2 ^ (f.fbits + 1)
       let n' := if big then n / 2 else n
       let q' := if big then q + 1 else q
       let exact := decide (q ≤ e) || m % 2 ^ (q - e).toNat == 0
       let pat := if n' < 2 ^ f.fbits then n' else ((q' - f.emin).toNat + 1) * 2 ^ f.fbits + (n' - 2 ^ f.fbits)
       if pat > maxPattern f then (overflowPattern f mode neg, fOF ||| fNX)
       else (withSign f neg pat, (if exact then 0 else fNX) ||| (if !exact && decide (n' < 2 ^ f.fbits) then fUF else 0))) :=
    rfl
  rw [rn]
  clear rn
  clear_value n q
  by_cases big : n ≥ 2 ^ (f.fbits + 1)
  · have hn : n = 2 ^ f.fbits * 2 := by omega
    have hd : n / 2 = 2 ^ f.fbits := by omega
    simp only [big, if_true, hd, Nat.lt_irrefl, if_false, Nat.sub_self, Nat.add_zero]
    split
    · exact .inl rfl
    · rename_i fits
      rw [unpack_withSign f he0 neg (Nat.not_lt.mp fits), Nat.mul_div_cancel _ pf, if_neg (Nat.succ_ne_zero _),
        Nat.mul_mod_left]
      refine .inr ⟨_, _, rfl, by unfold Fmt.emin at *; omega, ?_⟩
      have h2 : (((q + 1 - f.emin).toNat + 1 : Nat) - (f.bias : Int) - f.fbits - f.emin).toNat =
          (q - f.emin).toNat + 1 := by
        unfold Fmt.emin at *; omega
      rw [h2, hn, Nat.pow_succ, Nat.add_zero, Nat.mul_assoc, Nat.mul_comm 2]
  · simp only [big, if_false]
    by_cases sub : n < 2 ^ f.fbits
    · have hqe : q = f.emin := by
        rcases Int.lt_or_le f.emin q with h | h
        · exact absurd (down h) (by omega)
        · omega
      simp only [sub, if_true]
      split
      · exact .inl rfl
      · rename_i fits
        rw [unpack_withSign f he0 neg (Nat.not_lt.mp fits), if_pos (Nat.div_eq_of_lt sub)]
        exact .inr ⟨_, _, rfl, by omega, by rw [hqe]⟩
    · simp only [sub, if_false]
      split
      · exact .inl rfl
      · rename_i fits
        have hr : n - 2 ^ f.fbits < 2 ^ f.fbits := by omega
        have h1 : (((q - f.emin).toNat + 1) * 2 ^ f.fbits + (n - 2 ^ f.fbits)) / 2 ^ f.fbits = (q - f.emin).toNat + 1 := by
          rw [Nat.mul_comm, Nat.mul_add_div pf, Nat.div_eq_of_lt hr, Nat.add_zero]
        have h2 : (((q - f.emin).toNat + 1) * 2 ^ f.fbits + (n - 2 ^ f.fbits)) % 2 ^ f.fbits = n - 2 ^ f.fbits := by
          rw [Nat.mul_comm, Nat.mul_add_mod, Nat.mod_eq_of_lt hr]
        rw [unpack_withSign f he0 neg (Nat.not_lt.mp fits), h1, h2, if_neg (Nat.succ_ne_zero _)]
        refine .inr ⟨_, _, rfl, by unfold Fmt.emin at *; omega, ?_⟩
        have h3 : (((q - f.emin).toNat + 1 : Nat) - (f.bias : Int) - f.fbits - f.emin).toNat = (q - f.emin).toNat := by
          unfold Fmt.emin at *; omega
        rw [h3, Nat.add_sub_cancel' (by omega)]

/-- An operation's flags join those of its rounding. -/
theorem roundWith_flags (f : Fmt) (mode : RMode) (v : FVal) (g : FFlags) :
    roundWith f mode (v, g) = ((roundF f mode v).1, (roundF f mode v).2 ||| g) := rfl

/-! ## Exact sums (00 R13) -/

/-- A finite value as a multiple of 2^lo. -/
def FVal.multiple (lo : Int) : FVal → Int
  | .fin n m e => scaled n m e lo
  | _ => 0

theorem foldl_add (l : List (Bool × Nat × Int)) (lo a : Int) :
    l.foldl (fun (a : Int) p => a + scaled p.1 p.2.1 p.2.2 lo) a = a + (l.map fun p => scaled p.1 p.2.1 p.2.2 lo).sum := by
  induction l generalizing a with
  | nil => simp
  | cons p r ih => simp only [List.foldl_cons, List.map_cons, List.sum_cons, ih]; omega

theorem foldl_min_perm {l r : List (Bool × Nat × Int)} (h : l.Perm r) (a : Int) :
    l.foldl (fun a p => min a p.2.2) a = r.foldl (fun a p => min a p.2.2) a :=
  h.foldl_eq' (fun _ _ _ _ _ => by omega) a

theorem sum_perm {l r : List Int} (h : l.Perm r) : l.sum = r.sum := by
  induction h with
  | nil => rfl
  | cons _ _ ih => simp [ih]
  | swap => simp only [List.sum_cons]; omega
  | trans _ _ a b => exact a.trans b

/-- An exact sum does not depend on the order of its addends. -/
theorem exactSum_perm (mode : RMode) {l r : List FVal} (h : l.Perm r) : exactSum mode l = exactSum mode r := by
  have fins {a b : List (Bool × Nat × Int)} (hf : a.Perm b) :
      (let lo := a.foldl (fun a p => min a p.2.2) 0
       let t := a.foldl (fun (a : Int) p => a + scaled p.1 p.2.1 p.2.2 lo) 0
       if t = 0 then
         let allNegZero := !a.isEmpty && a.all fun p => p.1 && p.2.1 == 0
         let allPosZero := a.all fun p => !p.1 && p.2.1 == 0
         ((.fin (if allNegZero then true else if allPosZero then false else decide (mode = .rdn)) 0 lo, 0) : FVal × FFlags)
       else (ofScaled t lo, 0)) =
      (let lo := b.foldl (fun a p => min a p.2.2) 0
       let t := b.foldl (fun (a : Int) p => a + scaled p.1 p.2.1 p.2.2 lo) 0
       if t = 0 then
         let allNegZero := !b.isEmpty && b.all fun p => p.1 && p.2.1 == 0
         let allPosZero := b.all fun p => !p.1 && p.2.1 == 0
         (.fin (if allNegZero then true else if allPosZero then false else decide (mode = .rdn)) 0 lo, 0)
       else (ofScaled t lo, 0)) := by
    simp only [foldl_add, foldl_min_perm hf, sum_perm (hf.map _), hf.all_eq, hf.isEmpty_eq]
  unfold exactSum
  simp only [h.any_eq]
  split
  · rfl
  split
  · rfl
  split
  · rfl
  exact fins (h.filterMap _)

/-- The exact sum of finite values that is not zero is their sum, as a multiple of the smallest quantum. -/
theorem exactSum_fin (mode : RMode) (l : List (Bool × Nat × Int)) :
    let lo := l.foldl (fun a p => min a p.2.2) 0
    let t := (l.map fun p => scaled p.1 p.2.1 p.2.2 lo).sum
    t ≠ 0 → exactSum mode (l.map fun p => .fin p.1 p.2.1 p.2.2) = (ofScaled t lo, 0) := by
  intro lo t ht
  have a1 (p : FVal → Bool) (hp : ∀ n m e, p (.fin n m e) = false) :
      (l.map fun p => FVal.fin p.1 p.2.1 p.2.2).any p = false := by
    simp [List.any_eq_false, hp]
  unfold exactSum
  rw [a1 FVal.isNan (fun _ _ _ => rfl), a1 (fun v => v == .inf false) (fun _ _ _ => rfl),
    a1 (fun v => v == .inf true) (fun _ _ _ => rfl)]
  simp only [List.filterMap_map, Function.comp_def, foldl_add, Int.zero_add]
  simp [ht, t, lo]

/-! ## Roots, powers and logarithms (05 R128; 08 R178) -/

theorem isqrtFrom_spec (n : Nat) : ∀ k r, r * r ≤ n → n < (r + 2 ^ (k + 1)) * (r + 2 ^ (k + 1)) →
    isqrtFrom n k r * isqrtFrom n k r ≤ n ∧ n < (isqrtFrom n k r + 1) * (isqrtFrom n k r + 1)
  | 0, r, lo, hi => by
    unfold isqrtFrom
    split
    · exact ⟨‹_›, hi⟩
    · exact ⟨lo, Nat.not_le.mp ‹_›⟩
  | k + 1, r, lo, hi => by
    unfold isqrtFrom
    split
    · exact isqrtFrom_spec n k _ ‹_› (by rw [Nat.add_assoc, ← Nat.two_mul, ← Nat.pow_succ']; exact hi)
    · exact isqrtFrom_spec n k _ lo (Nat.not_le.mp ‹_›)

/-- The integer square root is the greatest number whose square is not above n. -/
theorem isqrt_spec (n : Nat) : isqrt n * isqrt n ≤ n ∧ n < (isqrt n + 1) * (isqrt n + 1) := by
  refine isqrtFrom_spec n _ 0 (Nat.zero_le _) ?_
  rw [Nat.zero_add, ← Nat.pow_add]
  exact Nat.lt_of_lt_of_le Nat.lt_log2_self (Nat.pow_le_pow_right (by omega) (by omega))

/-- vrsqrt of a positive number m × 2^(2k) rounds r × 2^(−60−k), where r is the greatest number with r² m not above 2^120,
and a last bit tells whether anything lies below it. -/
theorem fpRsqrt_pos {x m : Nat} {e : Int} (u : unpack fmtF32 x = .fin false m e) (hm : 0 < m) :
    ∃ m0 r k, (m0 = m ∧ 2 * k = e ∨ m0 = 2 * m ∧ 2 * k = e - 1) ∧ r * r * m0 ≤ 2 ^ 120 ∧
      2 ^ 120 < (r + 1) * (r + 1) * m0 ∧
      fpRsqrt x = roundF fmtF32 .rne (.fin false (2 * r + (if r * r * m0 = 2 ^ 120 then 0 else 1)) (-k - 61)) := by
  obtain ⟨p, rfl⟩ := Nat.exists_eq_succ_of_ne_zero (by omega : m ≠ 0)
  have go (m0 : Nat) (h0 : 0 < m0) :
      isqrt (2 ^ 120 / m0) * isqrt (2 ^ 120 / m0) * m0 ≤ 2 ^ 120 ∧
        2 ^ 120 < (isqrt (2 ^ 120 / m0) + 1) * (isqrt (2 ^ 120 / m0) + 1) * m0 := by
    obtain ⟨a, b⟩ := isqrt_spec (2 ^ 120 / m0)
    exact ⟨(Nat.le_div_iff_mul_le h0).mp a, (Nat.div_lt_iff_lt_mul h0).mp b⟩
  have eq : fpRsqrt x =
      (let odd := e % 2 != 0
       let m0 := if odd then 2 * (p + 1) else p + 1
       let e0 := if odd then e - 1 else e
       let r := isqrt (2 ^ 120 / m0)
       roundF fmtF32 .rne (.fin false (2 * r + (if r * r * m0 = 2 ^ 120 then 0 else 1)) (-(e0 / 2) - 60 - 1))) := by
    unfold fpRsqrt
    rw [u]
    simp
  rw [eq]
  by_cases odd : e % 2 = 0
  · have h := go (p + 1) (Nat.succ_pos p)
    refine ⟨p + 1, _, e / 2, .inl ⟨rfl, by omega⟩, h.1, h.2, ?_⟩
    simp only [odd, bne_self_eq_false, Bool.false_eq_true, if_false]
    congr 2
    omega
  · have h := go (2 * (p + 1)) (by omega)
    refine ⟨2 * (p + 1), _, (e - 1) / 2, .inr ⟨rfl, by omega⟩, h.1, h.2, ?_⟩
    simp only [bne_iff_ne.mpr odd, if_true]
    congr 2
    omega

/-- vexp2 of an integer is a power of two, exactly. -/
theorem exp2X_int (neg : Bool) (m : Nat) (e : Nat) (small : (e : Int) + (Nat.log2 m : Nat) < 20) :
    exp2X neg m e = .fin false 1 (if neg then -((m * 2 ^ e : Nat) : Int) else (m * 2 ^ e : Nat)) := by
  unfold exp2X
  rw [if_neg (by omega)]
  simp

/-- vlog2 of a power of two is its exponent. -/
theorem fpLog2_pow {x k : Nat} {e : Int} (u : unpack fmtF32 x = .fin false (2 ^ k) e) :
    fpLog2 x = roundF fmtF32 .rne (ofInt (e + k)) := by
  unfold fpLog2
  rw [u]
  simp [Nat.log2_two_pow]

/-- The special operands of the three (05 R128): NaNs, infinities, zeros and negative numbers. -/
theorem fp_special :
    (∀ x s, unpack fmtF32 x = .nan s → fpExp2 x = (canonicalNan fmtF32, nvIf s) ∧
      fpLog2 x = (canonicalNan fmtF32, nvIf s) ∧ fpRsqrt x = (canonicalNan fmtF32, nvIf s)) ∧
    (∀ x, unpack fmtF32 x = .inf false → fpExp2 x = (infPattern fmtF32, 0) ∧ fpLog2 x = (infPattern fmtF32, 0) ∧
      fpRsqrt x = (0, 0)) ∧
    (∀ x, unpack fmtF32 x = .inf true → fpExp2 x = (0, 0) ∧ fpLog2 x = (canonicalNan fmtF32, fNV) ∧
      fpRsqrt x = (canonicalNan fmtF32, fNV)) ∧
    (∀ x n e, unpack fmtF32 x = .fin n 0 e → fpLog2 x = (withSign fmtF32 true (infPattern fmtF32), fDZ) ∧
      fpRsqrt x = (withSign fmtF32 n (infPattern fmtF32), fDZ)) ∧
    ∀ x m e, unpack fmtF32 x = .fin true (m + 1) e →
      fpLog2 x = (canonicalNan fmtF32, fNV) ∧ fpRsqrt x = (canonicalNan fmtF32, fNV) := by
  refine ⟨?_, ?_, ?_, ?_, ?_⟩ <;> intros <;> simp_all [fpExp2, fpLog2, fpRsqrt]

/-! ## Combinations (06 R157) -/

/-- Integer sums wrap; float combinations are exact sums rounded once. -/
theorem combine32_add (mode : RMode) (l : List Nat) :
    combine32 .n32 .add mode l = (l.sum % 2 ^ 32, 0) ∧
      combine32 .f32 .add mode l = roundWith fmtF32 mode (exactSum mode (l.map (unpack fmtF32))) := by
  refine ⟨?_, rfl⟩
  have h : ∀ (r : List Nat) (a : Int), (r.map fun (x : Nat) => if (TreeTy.n32 == TreeTy.i32) = true then toSigned 32 x else (x : Int)).foldl
      (· + ·) a = a + (r.sum : Nat) := by
    intro r
    induction r with
    | nil => simp
    | cons x r ih =>
      intro a
      simp only [List.map_cons, List.foldl_cons, ih, List.sum_cons]
      simp
      omega
  have e (z : Nat) : wrapTo 32 (0 + (z : Int)) = z % 2 ^ 32 := by
    rw [wrapTo, Int.zero_add, ← Int.natCast_emod, Int.toNat_natCast]
  simp only [combine32, h, e]

/-- The combination of a set does not depend on its order: sums, saturated sums and ors. -/
theorem combine32_perm (ty : TreeTy) (mode : RMode) {l r : List Nat} (h : l.Perm r) :
    ∀ c ∈ [TreeComb.add, .addSat, .or], combine32 ty c mode l = combine32 ty c mode r := by
  have e := exactSum_perm mode (h.map (unpack fmtF32))
  have s (f : Nat → Int) (a : Int) : (l.map f).foldl (· + ·) a = (r.map f).foldl (· + ·) a :=
    (h.map f).foldl_eq' (fun _ _ _ _ _ => by omega) a
  have o : l.foldl (· ||| ·) 0 = r.foldl (· ||| ·) 0 :=
    h.foldl_eq' (fun _ _ _ _ _ => by rw [Nat.or_assoc, Nat.or_assoc]; congr 1; exact Nat.or_comm _ _) 0
  intro c hc
  simp only [List.mem_cons, List.not_mem_nil, or_false] at hc
  rcases hc with rfl | rfl | rfl <;> cases ty <;> simp only [combine32, e, s, o]

/-! ## Merge scales (08 R189) -/

theorem fpMinMax_one (q : Nat) : (fpMinMax fmtF32 false 0x3F800000 q).1 = 0x3F800000 ∨
    (fpMinMax fmtF32 false 0x3F800000 q).1 = q ∧ fpBelow fmtF32 q 0x3F800000 = true := by
  have one : (unpack fmtF32 0x3F800000).isNan = false := by decide
  simp only [fpMinMax, one]
  cases (unpack fmtF32 q).isNan <;> simp
  by_cases h : fpBelow fmtF32 q 0x3F800000 = true <;> simp [h]

/-- A contributor whose norm is zero is taken as it stands; any other is scaled by 1.0 at most. -/
theorem mergeScale_le (limit : BitVec 32) (sq : BitVec 64) :
    mergeScale limit sq = 0x3F800000 ∨
      ∃ q, mergeScale limit sq = BitVec.ofNat 32 q ∧ fpBelow fmtF32 q 0x3F800000 = true ∧
        q = (fpDiv fmtF32 .rne limit.toNat
          (roundF fmtF32 .rne (sqrtX fmtF32 (unpack fmtF64 sq.toNat)).1).1).1 := by
  unfold mergeScale
  simp only
  split
  · exact .inl rfl
  · rcases fpMinMax_one (fpDiv fmtF32 .rne limit.toNat
      (roundF fmtF32 .rne (sqrtX fmtF32 (unpack fmtF64 sq.toNat)).1).1).1 with h | ⟨h, b⟩
    · exact .inl (by rw [h]; rfl)
    · exact .inr ⟨_, by rw [h], b, rfl⟩

theorem mergeScale_zero (limit : BitVec 32) : mergeScale limit 0 = 0x3F800000 := by
  unfold mergeScale
  rw [if_pos (by decide)]

/-! ## Tile index maps and blocks (17 R347; 08 R186) -/

/-- The affine map is linear in row and column, and each coefficient is a field of its word. -/
theorem affine_linear (w : Word) (i j : Nat) :
    (affine w i j).1 = toSigned 4 (bitsOf w 19 16) * i + toSigned 4 (bitsOf w 23 20) * j + toSigned 9 (bitsOf w 40 32) ∧
      (affine w i j).2 = toSigned 4 (bitsOf w 27 24) * i + toSigned 4 (bitsOf w 31 28) * j + toSigned 9 (bitsOf w 49 41) :=
  ⟨rfl, rfl⟩

/-- A signed field of n bits lies in its range, and is the field modulo 2^n. -/
theorem toSigned_range (n x : Nat) (hn : 0 < n) :
    -(2 ^ (n - 1) : Nat) ≤ toSigned n x ∧ toSigned n x < (2 ^ (n - 1) : Nat) ∧ toSigned n x % (2 ^ n : Nat) = (x % 2 ^ n : Nat) := by
  have p : 2 ^ n = 2 * 2 ^ (n - 1) := by rw [← Nat.pow_succ']; congr 1; omega
  have l := Nat.mod_lt x (Nat.two_pow_pos n)
  unfold toSigned
  split
  · refine ⟨by omega, by omega, ?_⟩
    exact Int.emod_eq_of_lt (by omega) (by omega)
  · have e : ((2 : Int) ^ n) = ((2 ^ n : Nat) : Int) := by simp
    rw [e]
    refine ⟨by omega, by omega, ?_⟩
    rw [Int.sub_emod_right]
    exact Int.emod_eq_of_lt (by omega) (by omega)

theorem expandFrom_length {b : Block} {w : Nat} : ∀ {n i pos : Nat} {acc ms : List Nat},
    expandFrom b w n i pos acc = some ms → ms.length = acc.length + n
  | 0, _, _, _, _, h => by
    unfold expandFrom at h
    split at h
    · simp only [Option.some.injEq] at h; subst h; simp
    · cases h
  | n + 1, _, _, _, _, h => by
    unfold expandFrom at h
    split at h
    · split at h
      · cases h
      · rw [expandFrom_length h, List.length_cons]; omega
    · rw [expandFrom_length h, List.length_cons]; omega

/-- A sound block stands for itself, or, compressed, for two blocks of its width and scale with half its span each. -/
theorem expandBlock_spec (b : Block) :
    ((∀ w, classOf (blkCode b) ≠ some (.bfp w, true)) → expandBlock b = [b]) ∧
    ∀ w ms, classOf (blkCode b) = some (.bfp w, true) → expandSpan b w = some ms →
      expandBlock b = [makeBlock w (blkScale b) w (ms.take (bfpK w)), makeBlock w (blkScale b) w (ms.drop (bfpK w))] ∧
        (ms.take (bfpK w)).length = bfpK w ∧ (ms.drop (bfpK w)).length = bfpK w := by
  refine ⟨fun h => ?_, fun w ms h e => ?_⟩
  · unfold expandBlock
    split
    · rename_i hw; exact absurd hw (h _)
    · rfl
  · have l : ms.length = 2 * bfpK w := by
      unfold expandSpan at e
      split at e
      · cases e
      · simpa using expandFrom_length e
    unfold expandBlock
    rw [h]
    simp only [e]
    exact ⟨trivial, by simp; omega, by simp; omega⟩

end Sys2Proof.Machine
end

