-- ==== Sys2Proof/Laws/PerInstr.lean ====
section
/-!
SUPPORT. Instruction by instruction: the word of a well-formed instruction fits in 32 bits and decodes to the
instruction, with every operand (03 R55 to R82); an event has no word.
-/
namespace Sys2Proof.Laws.Encoding

/-- The word of i, when i is well-formed and has one, fits in 32 bits and decodes to i. -/
def Statement (i : Instr) : Prop := i.wellFormed = true → ∀ w, encode i = some w → w < 2 ^ 32 ∧ decode w = .ok i

theorem ofNat_self {n : Nat} (v : BitVec n) : BitVec.ofNat n v.toNat = v := by simp

theorem and_true_of {a b : Bool} (h : (a && b) = true) : a = true ∧ b = true := by
  cases a <;> cases b <;> first | exact ⟨rfl, rfl⟩ | exact nomatch h

theorem offGroup_of {d n : Nat} (h : (d % n == 0) = true) : offGroup d n = false := by
  unfold offGroup; rw [beq_iff_eq.mp h]; rfl

theorem odd_of {a : Nat} (h : (a % 2 == 0) = true) : (a % 2 != 0) = false := by rw [beq_iff_eq.mp h]; rfl

/-- The check of a widening group passes (03 R60, R74). -/
theorem checked_group (d n : Nat) (i : Instr) (h : (n != 0 && d % n == 0) = true) :
    (if n = 0 then Decoded.illegal else checked false (offGroup d n) i) = .ok i := by
  obtain ⟨h1, h2⟩ := and_true_of h
  have : ¬n = 0 := by simpa using h1
  rw [if_neg this, offGroup_of h2]; rfl

/-- A word with no reserved bit set and an aligned group. -/
theorem checked_of {b : Bool} (i : Instr) (h : b = false) : checked false b i = .ok i := by rw [h]; rfl

/-- The checks of a conversion pass (05 R129). -/
theorem checked_cvt {g : Nat} {b : Bool} (i : Instr) (y : Bool) (h : (decide (g ≤ 8) && b) = true) (hy : y = false) :
    (if g ≤ 8 then checked y (!b) i else Decoded.illegal) = .ok i := by
  obtain ⟨h1, h2⟩ := and_true_of h
  rw [if_pos (of_decide_eq_true h1), h2, hy]; rfl

/-- A format M word whose size is 2 bytes has size code 1. -/
theorem size_two {w : Nat} (h : wSize w = .b2) : w / 4 % 4 = 1 := by
  have h2 : w / 4 % 4 < 4 := Nat.mod_lt _ (by omega)
  unfold wSize at h
  generalize w / 4 % 4 = n at *
  match n, h2, h with
  | 0, _, h => exact nomatch h
  | 1, _, _ => rfl
  | 2, _, h => exact nomatch h
  | 3, _, h => exact nomatch h
  | n + 4, h2, _ => omega

/-- A cwr whose number has no row of its own is the general one. -/
theorem cwrOf_general (a : SReg) (n : BitVec 12) (h : (!ownCwrRow n.toNat) = true) : cwrOf a n.toNat = .cwr a n := by
  have hn := ofNat_self n
  generalize n.toNat = k at *
  unfold cwrOf
  split <;> first | exact absurd h (by decide) | rw [hn]

theorem add (d a b : SReg) (x y : Bool) : Statement (.add d a b x y) := by
  intro _ w h
  have := d.isLt; have := a.isLt; have := b.isLt
  have e : encA 0x01 d a b 0x000 x y = w := Option.some.inj h
  have F := encA_fields 0x01 d a b 0x000 x y (by omega) (by omega) (by omega) (by omega) (by omega)
  rw [e] at F; obtain ⟨h0, h1, hd, ha, hb, hf, hx, hy⟩ := F
  refine ⟨h0, ?_⟩
  rw [dec_01 h1]
  simp only [dec01, hd, ha, hb, hf, hx, hy, toS_self]

theorem sub (d a b : SReg) (x y : Bool) : Statement (.sub d a b x y) := by
  intro _ w h
  have := d.isLt; have := a.isLt; have := b.isLt
  have e : encA 0x01 d a b 0x001 x y = w := Option.some.inj h
  have F := encA_fields 0x01 d a b 0x001 x y (by omega) (by omega) (by omega) (by omega) (by omega)
  rw [e] at F; obtain ⟨h0, h1, hd, ha, hb, hf, hx, hy⟩ := F
  refine ⟨h0, ?_⟩
  rw [dec_01 h1]
  simp only [dec01, hd, ha, hb, hf, hx, hy, toS_self]

theorem and (d a b : SReg) (x y : Bool) : Statement (.and d a b x y) := by
  intro _ w h
  have := d.isLt; have := a.isLt; have := b.isLt
  have e : encA 0x01 d a b 0x002 x y = w := Option.some.inj h
  have F := encA_fields 0x01 d a b 0x002 x y (by omega) (by omega) (by omega) (by omega) (by omega)
  rw [e] at F; obtain ⟨h0, h1, hd, ha, hb, hf, hx, hy⟩ := F
  refine ⟨h0, ?_⟩
  rw [dec_01 h1]
  simp only [dec01, hd, ha, hb, hf, hx, hy, toS_self]

theorem or (d a b : SReg) (x y : Bool) : Statement (.or d a b x y) := by
  intro _ w h
  have := d.isLt; have := a.isLt; have := b.isLt
  have e : encA 0x01 d a b 0x003 x y = w := Option.some.inj h
  have F := encA_fields 0x01 d a b 0x003 x y (by omega) (by omega) (by omega) (by omega) (by omega)
  rw [e] at F; obtain ⟨h0, h1, hd, ha, hb, hf, hx, hy⟩ := F
  refine ⟨h0, ?_⟩
  rw [dec_01 h1]
  simp only [dec01, hd, ha, hb, hf, hx, hy, toS_self]

theorem xor (d a b : SReg) (x y : Bool) : Statement (.xor d a b x y) := by
  intro _ w h
  have := d.isLt; have := a.isLt; have := b.isLt
  have e : encA 0x01 d a b 0x004 x y = w := Option.some.inj h
  have F := encA_fields 0x01 d a b 0x004 x y (by omega) (by omega) (by omega) (by omega) (by omega)
  rw [e] at F; obtain ⟨h0, h1, hd, ha, hb, hf, hx, hy⟩ := F
  refine ⟨h0, ?_⟩
  rw [dec_01 h1]
  simp only [dec01, hd, ha, hb, hf, hx, hy, toS_self]

theorem sll (d a b : SReg) (x y : Bool) : Statement (.sll d a b x y) := by
  intro _ w h
  have := d.isLt; have := a.isLt; have := b.isLt
  have e : encA 0x01 d a b 0x005 x y = w := Option.some.inj h
  have F := encA_fields 0x01 d a b 0x005 x y (by omega) (by omega) (by omega) (by omega) (by omega)
  rw [e] at F; obtain ⟨h0, h1, hd, ha, hb, hf, hx, hy⟩ := F
  refine ⟨h0, ?_⟩
  rw [dec_01 h1]
  simp only [dec01, hd, ha, hb, hf, hx, hy, toS_self]

theorem srl (d a b : SReg) (x y : Bool) : Statement (.srl d a b x y) := by
  intro _ w h
  have := d.isLt; have := a.isLt; have := b.isLt
  have e : encA 0x01 d a b 0x006 x y = w := Option.some.inj h
  have F := encA_fields 0x01 d a b 0x006 x y (by omega) (by omega) (by omega) (by omega) (by omega)
  rw [e] at F; obtain ⟨h0, h1, hd, ha, hb, hf, hx, hy⟩ := F
  refine ⟨h0, ?_⟩
  rw [dec_01 h1]
  simp only [dec01, hd, ha, hb, hf, hx, hy, toS_self]

theorem sra (d a b : SReg) (x y : Bool) : Statement (.sra d a b x y) := by
  intro _ w h
  have := d.isLt; have := a.isLt; have := b.isLt
  have e : encA 0x01 d a b 0x007 x y = w := Option.some.inj h
  have F := encA_fields 0x01 d a b 0x007 x y (by omega) (by omega) (by omega) (by omega) (by omega)
  rw [e] at F; obtain ⟨h0, h1, hd, ha, hb, hf, hx, hy⟩ := F
  refine ⟨h0, ?_⟩
  rw [dec_01 h1]
  simp only [dec01, hd, ha, hb, hf, hx, hy, toS_self]

theorem mul (d a b : SReg) (x y : Bool) : Statement (.mul d a b x y) := by
  intro _ w h
  have := d.isLt; have := a.isLt; have := b.isLt
  have e : encA 0x01 d a b 0x008 x y = w := Option.some.inj h
  have F := encA_fields 0x01 d a b 0x008 x y (by omega) (by omega) (by omega) (by omega) (by omega)
  rw [e] at F; obtain ⟨h0, h1, hd, ha, hb, hf, hx, hy⟩ := F
  refine ⟨h0, ?_⟩
  rw [dec_01 h1]
  simp only [dec01, hd, ha, hb, hf, hx, hy, toS_self]

theorem mulh (d a b : SReg) (x y : Bool) : Statement (.mulh d a b x y) := by
  intro _ w h
  have := d.isLt; have := a.isLt; have := b.isLt
  have e : encA 0x01 d a b 0x009 x y = w := Option.some.inj h
  have F := encA_fields 0x01 d a b 0x009 x y (by omega) (by omega) (by omega) (by omega) (by omega)
  rw [e] at F; obtain ⟨h0, h1, hd, ha, hb, hf, hx, hy⟩ := F
  refine ⟨h0, ?_⟩
  rw [dec_01 h1]
  simp only [dec01, hd, ha, hb, hf, hx, hy, toS_self]

theorem mulhN (d a b : SReg) (x y : Bool) : Statement (.mulhN d a b x y) := by
  intro _ w h
  have := d.isLt; have := a.isLt; have := b.isLt
  have e : encA 0x01 d a b 0x00A x y = w := Option.some.inj h
  have F := encA_fields 0x01 d a b 0x00A x y (by omega) (by omega) (by omega) (by omega) (by omega)
  rw [e] at F; obtain ⟨h0, h1, hd, ha, hb, hf, hx, hy⟩ := F
  refine ⟨h0, ?_⟩
  rw [dec_01 h1]
  simp only [dec01, hd, ha, hb, hf, hx, hy, toS_self]

theorem div (d a b : SReg) (x y : Bool) : Statement (.div d a b x y) := by
  intro _ w h
  have := d.isLt; have := a.isLt; have := b.isLt
  have e : encA 0x01 d a b 0x00B x y = w := Option.some.inj h
  have F := encA_fields 0x01 d a b 0x00B x y (by omega) (by omega) (by omega) (by omega) (by omega)
  rw [e] at F; obtain ⟨h0, h1, hd, ha, hb, hf, hx, hy⟩ := F
  refine ⟨h0, ?_⟩
  rw [dec_01 h1]
  simp only [dec01, hd, ha, hb, hf, hx, hy, toS_self]

theorem divN (d a b : SReg) (x y : Bool) : Statement (.divN d a b x y) := by
  intro _ w h
  have := d.isLt; have := a.isLt; have := b.isLt
  have e : encA 0x01 d a b 0x00C x y = w := Option.some.inj h
  have F := encA_fields 0x01 d a b 0x00C x y (by omega) (by omega) (by omega) (by omega) (by omega)
  rw [e] at F; obtain ⟨h0, h1, hd, ha, hb, hf, hx, hy⟩ := F
  refine ⟨h0, ?_⟩
  rw [dec_01 h1]
  simp only [dec01, hd, ha, hb, hf, hx, hy, toS_self]

theorem rem (d a b : SReg) (x y : Bool) : Statement (.rem d a b x y) := by
  intro _ w h
  have := d.isLt; have := a.isLt; have := b.isLt
  have e : encA 0x01 d a b 0x00D x y = w := Option.some.inj h
  have F := encA_fields 0x01 d a b 0x00D x y (by omega) (by omega) (by omega) (by omega) (by omega)
  rw [e] at F; obtain ⟨h0, h1, hd, ha, hb, hf, hx, hy⟩ := F
  refine ⟨h0, ?_⟩
  rw [dec_01 h1]
  simp only [dec01, hd, ha, hb, hf, hx, hy, toS_self]

theorem remN (d a b : SReg) (x y : Bool) : Statement (.remN d a b x y) := by
  intro _ w h
  have := d.isLt; have := a.isLt; have := b.isLt
  have e : encA 0x01 d a b 0x00E x y = w := Option.some.inj h
  have F := encA_fields 0x01 d a b 0x00E x y (by omega) (by omega) (by omega) (by omega) (by omega)
  rw [e] at F; obtain ⟨h0, h1, hd, ha, hb, hf, hx, hy⟩ := F
  refine ⟨h0, ?_⟩
  rw [dec_01 h1]
  simp only [dec01, hd, ha, hb, hf, hx, hy, toS_self]

theorem min (d a b : SReg) (x y : Bool) : Statement (.min d a b x y) := by
  intro _ w h
  have := d.isLt; have := a.isLt; have := b.isLt
  have e : encA 0x01 d a b 0x00F x y = w := Option.some.inj h
  have F := encA_fields 0x01 d a b 0x00F x y (by omega) (by omega) (by omega) (by omega) (by omega)
  rw [e] at F; obtain ⟨h0, h1, hd, ha, hb, hf, hx, hy⟩ := F
  refine ⟨h0, ?_⟩
  rw [dec_01 h1]
  simp only [dec01, hd, ha, hb, hf, hx, hy, toS_self]

theorem max (d a b : SReg) (x y : Bool) : Statement (.max d a b x y) := by
  intro _ w h
  have := d.isLt; have := a.isLt; have := b.isLt
  have e : encA 0x01 d a b 0x010 x y = w := Option.some.inj h
  have F := encA_fields 0x01 d a b 0x010 x y (by omega) (by omega) (by omega) (by omega) (by omega)
  rw [e] at F; obtain ⟨h0, h1, hd, ha, hb, hf, hx, hy⟩ := F
  refine ⟨h0, ?_⟩
  rw [dec_01 h1]
  simp only [dec01, hd, ha, hb, hf, hx, hy, toS_self]

theorem minN (d a b : SReg) (x y : Bool) : Statement (.minN d a b x y) := by
  intro _ w h
  have := d.isLt; have := a.isLt; have := b.isLt
  have e : encA 0x01 d a b 0x011 x y = w := Option.some.inj h
  have F := encA_fields 0x01 d a b 0x011 x y (by omega) (by omega) (by omega) (by omega) (by omega)
  rw [e] at F; obtain ⟨h0, h1, hd, ha, hb, hf, hx, hy⟩ := F
  refine ⟨h0, ?_⟩
  rw [dec_01 h1]
  simp only [dec01, hd, ha, hb, hf, hx, hy, toS_self]

theorem maxN (d a b : SReg) (x y : Bool) : Statement (.maxN d a b x y) := by
  intro _ w h
  have := d.isLt; have := a.isLt; have := b.isLt
  have e : encA 0x01 d a b 0x012 x y = w := Option.some.inj h
  have F := encA_fields 0x01 d a b 0x012 x y (by omega) (by omega) (by omega) (by omega) (by omega)
  rw [e] at F; obtain ⟨h0, h1, hd, ha, hb, hf, hx, hy⟩ := F
  refine ⟨h0, ?_⟩
  rw [dec_01 h1]
  simp only [dec01, hd, ha, hb, hf, hx, hy, toS_self]

theorem add32 (d a b : SReg) (x y : Bool) : Statement (.add32 d a b x y) := by
  intro _ w h
  have := d.isLt; have := a.isLt; have := b.isLt
  have e : encA 0x01 d a b 0x013 x y = w := Option.some.inj h
  have F := encA_fields 0x01 d a b 0x013 x y (by omega) (by omega) (by omega) (by omega) (by omega)
  rw [e] at F; obtain ⟨h0, h1, hd, ha, hb, hf, hx, hy⟩ := F
  refine ⟨h0, ?_⟩
  rw [dec_01 h1]
  simp only [dec01, hd, ha, hb, hf, hx, hy, toS_self]

theorem sub32 (d a b : SReg) (x y : Bool) : Statement (.sub32 d a b x y) := by
  intro _ w h
  have := d.isLt; have := a.isLt; have := b.isLt
  have e : encA 0x01 d a b 0x014 x y = w := Option.some.inj h
  have F := encA_fields 0x01 d a b 0x014 x y (by omega) (by omega) (by omega) (by omega) (by omega)
  rw [e] at F; obtain ⟨h0, h1, hd, ha, hb, hf, hx, hy⟩ := F
  refine ⟨h0, ?_⟩
  rw [dec_01 h1]
  simp only [dec01, hd, ha, hb, hf, hx, hy, toS_self]

theorem addi (d a : SReg) (i : BitVec 15) (x : Bool) : Statement (.addi d a i x) := by
  intro _ w h
  have := d.isLt; have := a.isLt; have := i.isLt
  have e : encI 0x02 d a i.toNat x = w := Option.some.inj h
  have F := encI_fields 0x02 d a i.toNat x (by omega) (by omega) (by omega) (by omega)
  rw [e] at F; obtain ⟨h0, h1, hd, ha, g1, he⟩ := F
  have k1 : wImm15 w = i := ofNat_eq i _ (by omega)
  refine ⟨h0, ?_⟩
  rw [dec_02 h1]
  simp only [dec02, hd, ha, he, k1, toS_self]

theorem andi (d a : SReg) (i : BitVec 15) (x : Bool) : Statement (.andi d a i x) := by
  intro _ w h
  have := d.isLt; have := a.isLt; have := i.isLt
  have e : encI 0x03 d a i.toNat x = w := Option.some.inj h
  have F := encI_fields 0x03 d a i.toNat x (by omega) (by omega) (by omega) (by omega)
  rw [e] at F; obtain ⟨h0, h1, hd, ha, g1, he⟩ := F
  have k1 : wImm15 w = i := ofNat_eq i _ (by omega)
  refine ⟨h0, ?_⟩
  rw [dec_03 h1]
  simp only [dec03, hd, ha, he, k1, toS_self]

theorem ori (d a : SReg) (i : BitVec 15) (x : Bool) : Statement (.ori d a i x) := by
  intro _ w h
  have := d.isLt; have := a.isLt; have := i.isLt
  have e : encI 0x04 d a i.toNat x = w := Option.some.inj h
  have F := encI_fields 0x04 d a i.toNat x (by omega) (by omega) (by omega) (by omega)
  rw [e] at F; obtain ⟨h0, h1, hd, ha, g1, he⟩ := F
  have k1 : wImm15 w = i := ofNat_eq i _ (by omega)
  refine ⟨h0, ?_⟩
  rw [dec_04 h1]
  simp only [dec04, hd, ha, he, k1, toS_self]

theorem xori (d a : SReg) (i : BitVec 15) (x : Bool) : Statement (.xori d a i x) := by
  intro _ w h
  have := d.isLt; have := a.isLt; have := i.isLt
  have e : encI 0x05 d a i.toNat x = w := Option.some.inj h
  have F := encI_fields 0x05 d a i.toNat x (by omega) (by omega) (by omega) (by omega)
  rw [e] at F; obtain ⟨h0, h1, hd, ha, g1, he⟩ := F
  have k1 : wImm15 w = i := ofNat_eq i _ (by omega)
  refine ⟨h0, ?_⟩
  rw [dec_05 h1]
  simp only [dec05, hd, ha, he, k1, toS_self]

theorem slli (d a : SReg) (n : BitVec 6) (x : Bool) : Statement (.slli d a n x) := by
  intro _ w h
  have := d.isLt; have := a.isLt; have := n.isLt
  have e : encI 0x06 d a n.toNat x = w := Option.some.inj h
  have F := encI_fields 0x06 d a n.toNat x (by omega) (by omega) (by omega) (by omega)
  rw [e] at F; obtain ⟨h0, h1, hd, ha, g1, he⟩ := F
  have k1 : w / 2 % 64 = n.toNat := by omega
  have k2 : w / 8192 % 2 = 0 := by omega
  have k3 : w / 128 % 64 = 0 := by omega
  have k4 : w / 16384 % 4 = 0 := by omega
  refine ⟨h0, ?_⟩
  rw [dec_06 h1]
  simp only [dec06, hd, ha, he, k1, k2, k3, k4, toS_self, ofNat_self] <;> rfl

theorem srli (d a : SReg) (n : BitVec 6) (x : Bool) : Statement (.srli d a n x) := by
  intro _ w h
  have := d.isLt; have := a.isLt; have := n.isLt
  have e : encI 0x06 d a (8192 + n.toNat) x = w := Option.some.inj h
  have F := encI_fields 0x06 d a (8192 + n.toNat) x (by omega) (by omega) (by omega) (by omega)
  rw [e] at F; obtain ⟨h0, h1, hd, ha, g1, he⟩ := F
  have k1 : w / 2 % 64 = n.toNat := by omega
  have k2 : w / 8192 % 2 = 0 := by omega
  have k3 : w / 128 % 64 = 0 := by omega
  have k4 : w / 16384 % 4 = 1 := by omega
  refine ⟨h0, ?_⟩
  rw [dec_06 h1]
  simp only [dec06, hd, ha, he, k1, k2, k3, k4, toS_self, ofNat_self] <;> rfl

theorem srai (d a : SReg) (n : BitVec 6) (x : Bool) : Statement (.srai d a n x) := by
  intro _ w h
  have := d.isLt; have := a.isLt; have := n.isLt
  have e : encI 0x06 d a (16384 + n.toNat) x = w := Option.some.inj h
  have F := encI_fields 0x06 d a (16384 + n.toNat) x (by omega) (by omega) (by omega) (by omega)
  rw [e] at F; obtain ⟨h0, h1, hd, ha, g1, he⟩ := F
  have k1 : w / 2 % 64 = n.toNat := by omega
  have k2 : w / 8192 % 2 = 0 := by omega
  have k3 : w / 128 % 64 = 0 := by omega
  have k4 : w / 16384 % 4 = 2 := by omega
  refine ⟨h0, ?_⟩
  rw [dec_06 h1]
  simp only [dec06, hd, ha, he, k1, k2, k3, k4, toS_self, ofNat_self] <;> rfl

theorem slli32 (d a : SReg) (n : BitVec 5) (x : Bool) : Statement (.slli32 d a n x) := by
  intro _ w h
  have := d.isLt; have := a.isLt; have := n.isLt
  have e : encI 0x06 d a (4096 + n.toNat) x = w := Option.some.inj h
  have F := encI_fields 0x06 d a (4096 + n.toNat) x (by omega) (by omega) (by omega) (by omega)
  rw [e] at F; obtain ⟨h0, h1, hd, ha, g1, he⟩ := F
  have k1 : w / 2 % 64 = n.toNat := by omega
  have k2 : w / 8192 % 2 = 1 := by omega
  have k3 : w / 128 % 64 = 0 := by omega
  have k4 : w / 16384 % 4 = 0 := by omega
  have k5 : n.toNat / 32 = 0 := by omega
  refine ⟨h0, ?_⟩
  rw [dec_06 h1]
  simp only [dec06, hd, ha, he, k1, k2, k3, k4, k5, toS_self, ofNat_self] <;> rfl

theorem srli32 (d a : SReg) (n : BitVec 5) (x : Bool) : Statement (.srli32 d a n x) := by
  intro _ w h
  have := d.isLt; have := a.isLt; have := n.isLt
  have e : encI 0x06 d a (8192 + 4096 + n.toNat) x = w := Option.some.inj h
  have F := encI_fields 0x06 d a (8192 + 4096 + n.toNat) x (by omega) (by omega) (by omega) (by omega)
  rw [e] at F; obtain ⟨h0, h1, hd, ha, g1, he⟩ := F
  have k1 : w / 2 % 64 = n.toNat := by omega
  have k2 : w / 8192 % 2 = 1 := by omega
  have k3 : w / 128 % 64 = 0 := by omega
  have k4 : w / 16384 % 4 = 1 := by omega
  have k5 : n.toNat / 32 = 0 := by omega
  refine ⟨h0, ?_⟩
  rw [dec_06 h1]
  simp only [dec06, hd, ha, he, k1, k2, k3, k4, k5, toS_self, ofNat_self] <;> rfl

theorem srai32 (d a : SReg) (n : BitVec 5) (x : Bool) : Statement (.srai32 d a n x) := by
  intro _ w h
  have := d.isLt; have := a.isLt; have := n.isLt
  have e : encI 0x06 d a (16384 + 4096 + n.toNat) x = w := Option.some.inj h
  have F := encI_fields 0x06 d a (16384 + 4096 + n.toNat) x (by omega) (by omega) (by omega) (by omega)
  rw [e] at F; obtain ⟨h0, h1, hd, ha, g1, he⟩ := F
  have k1 : w / 2 % 64 = n.toNat := by omega
  have k2 : w / 8192 % 2 = 1 := by omega
  have k3 : w / 128 % 64 = 0 := by omega
  have k4 : w / 16384 % 4 = 2 := by omega
  have k5 : n.toNat / 32 = 0 := by omega
  refine ⟨h0, ?_⟩
  rw [dec_06 h1]
  simp only [dec06, hd, ha, he, k1, k2, k3, k4, k5, toS_self, ofNat_self] <;> rfl

theorem cmpi (c : CBit) (a : SReg) (rel : Rel) (i : BitVec 11) (x : Bool) : Statement (.cmpi c a rel i x) := by
  intro _ w h
  have := c.isLt; have := a.isLt; have := Rel_lt rel; have := i.isLt
  have e : encI 0x07 c a (rel.code * 4096 + i.toNat) x = w := Option.some.inj h
  have F := encI_fields 0x07 c a (rel.code * 4096 + i.toNat) x (by omega) (by omega) (by omega) (by omega)
  rw [e] at F; obtain ⟨h0, h1, hd, ha, g1, he⟩ := F
  have rd : w / 2097152 % 32 = _ := hd
  have k2 : w / 2097152 % 8 = c.val := by omega
  have k3 : w / 16777216 % 4 = 0 := by omega
  have k4 : w / 8192 % 8 = rel.code := by omega
  have k5 : w / 4096 % 2 = 0 := by omega
  have k6 : BitVec.ofNat 11 (w / 2) = i := ofNat_eq i _ (by omega)
  refine ⟨h0, ?_⟩
  rw [dec_07 h1]
  simp only [dec07, ha, he, k2, k3, k4, k5, k6, toC_self, toS_self, Rel_ofCode] <;> rfl

theorem cmpiN (c : CBit) (a : SReg) (rel : Rel) (i : BitVec 11) (x : Bool) : Statement (.cmpiN c a rel i x) := by
  intro _ w h
  have := c.isLt; have := a.isLt; have := Rel_lt rel; have := i.isLt
  have e : encI 0x07 c a (rel.code * 4096 + 2048 + i.toNat) x = w := Option.some.inj h
  have F := encI_fields 0x07 c a (rel.code * 4096 + 2048 + i.toNat) x (by omega) (by omega) (by omega) (by omega)
  rw [e] at F; obtain ⟨h0, h1, hd, ha, g1, he⟩ := F
  have rd : w / 2097152 % 32 = _ := hd
  have k2 : w / 2097152 % 8 = c.val := by omega
  have k3 : w / 16777216 % 4 = 0 := by omega
  have k4 : w / 8192 % 8 = rel.code := by omega
  have k5 : w / 4096 % 2 = 1 := by omega
  have k6 : BitVec.ofNat 11 (w / 2) = i := ofNat_eq i _ (by omega)
  refine ⟨h0, ?_⟩
  rw [dec_07 h1]
  simp only [dec07, ha, he, k2, k3, k4, k5, k6, toC_self, toS_self, Rel_ofCode] <;> rfl

theorem ldhi (d : SReg) (i : BitVec 21) : Statement (.ldhi d i) := by
  intro _ w h
  have := d.isLt; have := i.isLt
  have e : encU 0x08 d i.toNat = w := Option.some.inj h
  have F := encU_fields 0x08 d i.toNat (by omega) (by omega) (by omega)
  rw [e] at F; obtain ⟨h0, h1, hd, g1⟩ := F
  have k1 : BitVec.ofNat 21 w = i := ofNat_eq i _ (by omega)
  refine ⟨h0, ?_⟩
  rw [dec_08 h1]
  simp only [dec08, hd, k1, toS_self]

theorem addpc (d : SReg) (i : BitVec 21) : Statement (.addpc d i) := by
  intro _ w h
  have := d.isLt; have := i.isLt
  have e : encU 0x09 d i.toNat = w := Option.some.inj h
  have F := encU_fields 0x09 d i.toNat (by omega) (by omega) (by omega)
  rw [e] at F; obtain ⟨h0, h1, hd, g1⟩ := F
  have k1 : BitVec.ofNat 21 w = i := ofNat_eq i _ (by omega)
  refine ⟨h0, ?_⟩
  rw [dec_09 h1]
  simp only [dec09, hd, k1, toS_self]

theorem fadd (d a b : SReg) (t : SFltTy) (x y : Bool) : Statement (.fadd d a b t x y) := by
  intro _ w h
  have := d.isLt; have := a.isLt; have := b.isLt; have := SFltTy_lt t
  have e : encOp 0x0A d a b 0 t.code x y = w := Option.some.inj h
  have F := encOp_fields 0x0A d a b 0 t.code x y (by omega) (by omega) (by omega) (by omega) (by omega) (by omega)
  rw [e] at F; obtain ⟨h0, h1, hd, ha, hb, hx, hy, g1, g2⟩ := F
  refine ⟨h0, ?_⟩
  rw [dec_0A h1]
  simp only [dec0A, hd, ha, hb, hx, hy, g1, g2, toS_self, SFltTy_ofCode]

theorem fsub (d a b : SReg) (t : SFltTy) (x y : Bool) : Statement (.fsub d a b t x y) := by
  intro _ w h
  have := d.isLt; have := a.isLt; have := b.isLt; have := SFltTy_lt t
  have e : encOp 0x0A d a b 1 t.code x y = w := Option.some.inj h
  have F := encOp_fields 0x0A d a b 1 t.code x y (by omega) (by omega) (by omega) (by omega) (by omega) (by omega)
  rw [e] at F; obtain ⟨h0, h1, hd, ha, hb, hx, hy, g1, g2⟩ := F
  refine ⟨h0, ?_⟩
  rw [dec_0A h1]
  simp only [dec0A, hd, ha, hb, hx, hy, g1, g2, toS_self, SFltTy_ofCode]

theorem fmul (d a b : SReg) (t : SFltTy) (x y : Bool) : Statement (.fmul d a b t x y) := by
  intro _ w h
  have := d.isLt; have := a.isLt; have := b.isLt; have := SFltTy_lt t
  have e : encOp 0x0A d a b 2 t.code x y = w := Option.some.inj h
  have F := encOp_fields 0x0A d a b 2 t.code x y (by omega) (by omega) (by omega) (by omega) (by omega) (by omega)
  rw [e] at F; obtain ⟨h0, h1, hd, ha, hb, hx, hy, g1, g2⟩ := F
  refine ⟨h0, ?_⟩
  rw [dec_0A h1]
  simp only [dec0A, hd, ha, hb, hx, hy, g1, g2, toS_self, SFltTy_ofCode]

theorem fdiv (d a b : SReg) (t : SFltTy) (x y : Bool) : Statement (.fdiv d a b t x y) := by
  intro _ w h
  have := d.isLt; have := a.isLt; have := b.isLt; have := SFltTy_lt t
  have e : encOp 0x0A d a b 3 t.code x y = w := Option.some.inj h
  have F := encOp_fields 0x0A d a b 3 t.code x y (by omega) (by omega) (by omega) (by omega) (by omega) (by omega)
  rw [e] at F; obtain ⟨h0, h1, hd, ha, hb, hx, hy, g1, g2⟩ := F
  refine ⟨h0, ?_⟩
  rw [dec_0A h1]
  simp only [dec0A, hd, ha, hb, hx, hy, g1, g2, toS_self, SFltTy_ofCode]

theorem fsqrt (d a : SReg) (t : SFltTy) (x : Bool) : Statement (.fsqrt d a t x) := by
  intro _ w h
  have := d.isLt; have := a.isLt; have := SFltTy_lt t
  have e : encOp 0x0A d a 0 4 t.code x false = w := Option.some.inj h
  have F := encOp_fields 0x0A d a 0 4 t.code x false (by omega) (by omega) (by omega) (by omega) (by omega) (by omega)
  rw [e] at F; obtain ⟨h0, h1, hd, ha, hb, hx, hy, g1, g2⟩ := F
  refine ⟨h0, ?_⟩
  rw [dec_0A h1]
  simp only [dec0A, hd, ha, hb, hx, hy, g1, g2, toS_self, SFltTy_ofCode] <;> rfl

theorem fmin (d a b : SReg) (t : SFltTy) (x y : Bool) : Statement (.fmin d a b t x y) := by
  intro _ w h
  have := d.isLt; have := a.isLt; have := b.isLt; have := SFltTy_lt t
  have e : encOp 0x0A d a b 5 t.code x y = w := Option.some.inj h
  have F := encOp_fields 0x0A d a b 5 t.code x y (by omega) (by omega) (by omega) (by omega) (by omega) (by omega)
  rw [e] at F; obtain ⟨h0, h1, hd, ha, hb, hx, hy, g1, g2⟩ := F
  refine ⟨h0, ?_⟩
  rw [dec_0A h1]
  simp only [dec0A, hd, ha, hb, hx, hy, g1, g2, toS_self, SFltTy_ofCode]

theorem fmax (d a b : SReg) (t : SFltTy) (x y : Bool) : Statement (.fmax d a b t x y) := by
  intro _ w h
  have := d.isLt; have := a.isLt; have := b.isLt; have := SFltTy_lt t
  have e : encOp 0x0A d a b 6 t.code x y = w := Option.some.inj h
  have F := encOp_fields 0x0A d a b 6 t.code x y (by omega) (by omega) (by omega) (by omega) (by omega) (by omega)
  rw [e] at F; obtain ⟨h0, h1, hd, ha, hb, hx, hy, g1, g2⟩ := F
  refine ⟨h0, ?_⟩
  rw [dec_0A h1]
  simp only [dec0A, hd, ha, hb, hx, hy, g1, g2, toS_self, SFltTy_ofCode]

theorem fma (d a b : SReg) (t : SFltTy) (x y : Bool) : Statement (.fma d a b t x y) := by
  intro _ w h
  have := d.isLt; have := a.isLt; have := b.isLt; have := SFltTy_lt t
  have e : encOp 0x0A d a b 7 t.code x y = w := Option.some.inj h
  have F := encOp_fields 0x0A d a b 7 t.code x y (by omega) (by omega) (by omega) (by omega) (by omega) (by omega)
  rw [e] at F; obtain ⟨h0, h1, hd, ha, hb, hx, hy, g1, g2⟩ := F
  refine ⟨h0, ?_⟩
  rw [dec_0A h1]
  simp only [dec0A, hd, ha, hb, hx, hy, g1, g2, toS_self, SFltTy_ofCode]

theorem fcopys (d a b : SReg) (t : SFltTy) (x y : Bool) : Statement (.fcopys d a b t x y) := by
  intro _ w h
  have := d.isLt; have := a.isLt; have := b.isLt; have := SFltTy_lt t
  have e : encOp 0x0A d a b 8 t.code x y = w := Option.some.inj h
  have F := encOp_fields 0x0A d a b 8 t.code x y (by omega) (by omega) (by omega) (by omega) (by omega) (by omega)
  rw [e] at F; obtain ⟨h0, h1, hd, ha, hb, hx, hy, g1, g2⟩ := F
  refine ⟨h0, ?_⟩
  rw [dec_0A h1]
  simp only [dec0A, hd, ha, hb, hx, hy, g1, g2, toS_self, SFltTy_ofCode]

theorem fcopyn (d a b : SReg) (t : SFltTy) (x y : Bool) : Statement (.fcopyn d a b t x y) := by
  intro _ w h
  have := d.isLt; have := a.isLt; have := b.isLt; have := SFltTy_lt t
  have e : encOp 0x0A d a b 9 t.code x y = w := Option.some.inj h
  have F := encOp_fields 0x0A d a b 9 t.code x y (by omega) (by omega) (by omega) (by omega) (by omega) (by omega)
  rw [e] at F; obtain ⟨h0, h1, hd, ha, hb, hx, hy, g1, g2⟩ := F
  refine ⟨h0, ?_⟩
  rw [dec_0A h1]
  simp only [dec0A, hd, ha, hb, hx, hy, g1, g2, toS_self, SFltTy_ofCode]

theorem fxors (d a b : SReg) (t : SFltTy) (x y : Bool) : Statement (.fxors d a b t x y) := by
  intro _ w h
  have := d.isLt; have := a.isLt; have := b.isLt; have := SFltTy_lt t
  have e : encOp 0x0A d a b 10 t.code x y = w := Option.some.inj h
  have F := encOp_fields 0x0A d a b 10 t.code x y (by omega) (by omega) (by omega) (by omega) (by omega) (by omega)
  rw [e] at F; obtain ⟨h0, h1, hd, ha, hb, hx, hy, g1, g2⟩ := F
  refine ⟨h0, ?_⟩
  rw [dec_0A h1]
  simp only [dec0A, hd, ha, hb, hx, hy, g1, g2, toS_self, SFltTy_ofCode]

theorem fcvti (d a : SReg) (t : SFltTy) (x : Bool) : Statement (.fcvti d a t x) := by
  intro _ w h
  have := d.isLt; have := a.isLt; have := SFltTy_lt t
  have e : encOp 0x0A d a 0 11 t.code x false = w := Option.some.inj h
  have F := encOp_fields 0x0A d a 0 11 t.code x false (by omega) (by omega) (by omega) (by omega) (by omega) (by omega)
  rw [e] at F; obtain ⟨h0, h1, hd, ha, hb, hx, hy, g1, g2⟩ := F
  refine ⟨h0, ?_⟩
  rw [dec_0A h1]
  simp only [dec0A, hd, ha, hb, hx, hy, g1, g2, toS_self, SFltTy_ofCode] <;> rfl

theorem fcvtn (d a : SReg) (t : SFltTy) (x : Bool) : Statement (.fcvtn d a t x) := by
  intro _ w h
  have := d.isLt; have := a.isLt; have := SFltTy_lt t
  have e : encOp 0x0A d a 0 12 t.code x false = w := Option.some.inj h
  have F := encOp_fields 0x0A d a 0 12 t.code x false (by omega) (by omega) (by omega) (by omega) (by omega) (by omega)
  rw [e] at F; obtain ⟨h0, h1, hd, ha, hb, hx, hy, g1, g2⟩ := F
  refine ⟨h0, ?_⟩
  rw [dec_0A h1]
  simp only [dec0A, hd, ha, hb, hx, hy, g1, g2, toS_self, SFltTy_ofCode] <;> rfl

theorem icvtf (d a : SReg) (t : SFltTy) (x : Bool) : Statement (.icvtf d a t x) := by
  intro _ w h
  have := d.isLt; have := a.isLt; have := SFltTy_lt t
  have e : encOp 0x0A d a 0 13 t.code x false = w := Option.some.inj h
  have F := encOp_fields 0x0A d a 0 13 t.code x false (by omega) (by omega) (by omega) (by omega) (by omega) (by omega)
  rw [e] at F; obtain ⟨h0, h1, hd, ha, hb, hx, hy, g1, g2⟩ := F
  refine ⟨h0, ?_⟩
  rw [dec_0A h1]
  simp only [dec0A, hd, ha, hb, hx, hy, g1, g2, toS_self, SFltTy_ofCode] <;> rfl

theorem ncvtf (d a : SReg) (t : SFltTy) (x : Bool) : Statement (.ncvtf d a t x) := by
  intro _ w h
  have := d.isLt; have := a.isLt; have := SFltTy_lt t
  have e : encOp 0x0A d a 0 14 t.code x false = w := Option.some.inj h
  have F := encOp_fields 0x0A d a 0 14 t.code x false (by omega) (by omega) (by omega) (by omega) (by omega) (by omega)
  rw [e] at F; obtain ⟨h0, h1, hd, ha, hb, hx, hy, g1, g2⟩ := F
  refine ⟨h0, ?_⟩
  rw [dec_0A h1]
  simp only [dec0A, hd, ha, hb, hx, hy, g1, g2, toS_self, SFltTy_ofCode] <;> rfl

theorem fcvtf (d a : SReg) (t : SFltTy) (x : Bool) : Statement (.fcvtf d a t x) := by
  intro _ w h
  have := d.isLt; have := a.isLt; have := SFltTy_lt t
  have e : encOp 0x0A d a 0 15 t.code x false = w := Option.some.inj h
  have F := encOp_fields 0x0A d a 0 15 t.code x false (by omega) (by omega) (by omega) (by omega) (by omega) (by omega)
  rw [e] at F; obtain ⟨h0, h1, hd, ha, hb, hx, hy, g1, g2⟩ := F
  refine ⟨h0, ?_⟩
  rw [dec_0A h1]
  simp only [dec0A, hd, ha, hb, hx, hy, g1, g2, toS_self, SFltTy_ofCode] <;> rfl

theorem ld (d a : SReg) (disp : BitVec 12) (z : Size) (sg : Bool) (x : Bool) : Statement (.ld d a disp z sg x) := by
  intro hw w h
  have := d.isLt; have := a.isLt; have := disp.isLt; have := Size_lt z
  have e : encM 0x0B d a disp.toNat z.code sg x = w := Option.some.inj h
  have F := encM_fields 0x0B d a disp.toNat z sg x (by omega) (by omega) (by omega) (by omega)
  rw [e] at F; obtain ⟨h0, h1, hd, ha, g1, hz, ho, he⟩ := F
  have k1 : wDisp w = disp := ofNat_eq disp _ (by omega)
  refine ⟨h0, ?_⟩
  rw [dec_0B h1]
  simp only [dec0B, hd, ha, hz, ho, he, k1, toS_self] <;>
    (cases z <;> cases sg <;> first | rfl | exact Bool.noConfusion hw)

theorem st (d a : SReg) (disp : BitVec 12) (z : Size) (x : Bool) : Statement (.st d a disp z x) := by
  intro _ w h
  have := d.isLt; have := a.isLt; have := disp.isLt; have := Size_lt z
  have e : encM 0x0C d a disp.toNat z.code false x = w := Option.some.inj h
  have F := encM_fields 0x0C d a disp.toNat z false x (by omega) (by omega) (by omega) (by omega)
  rw [e] at F; obtain ⟨h0, h1, hd, ha, g1, hz, ho, he⟩ := F
  have k1 : wDisp w = disp := ofNat_eq disp _ (by omega)
  refine ⟨h0, ?_⟩
  rw [dec_0C h1]
  simp only [dec0C, hd, ha, hz, ho, he, k1, toS_self] <;> rfl

theorem ldAcq (d a : SReg) (z : Size) (sc : Scope) (x : Bool) : Statement (.ldAcq d a z sc x) := by
  intro _ w h
  have := d.isLt; have := a.isLt; have := Size_lt z; have := Scope_lt sc
  have e : encAt d a 0 0 z.code sc.code x false = w := Option.some.inj h
  have F := encAt_fields d a 0 0 z.code sc.code x false (by omega) (by omega) (by omega) (by omega) (by omega) (by
     omega)
  rw [e] at F; obtain ⟨h0, h1, hd, ha, hb, hx, hy, g1, g2, g3⟩ := F
  refine ⟨h0, ?_⟩
  rw [dec_0D h1]
  simp only [dec0D, hd, ha, hb, hx, hy, g1, g2, g3, toS_self, Size_ofCode, Scope_ofCode] <;> rfl

theorem stRel (a b : SReg) (z : Size) (sc : Scope) (x y : Bool) : Statement (.stRel a b z sc x y) := by
  intro _ w h
  have := a.isLt; have := b.isLt; have := Size_lt z; have := Scope_lt sc
  have e : encAt 0 a b 1 z.code sc.code x y = w := Option.some.inj h
  have F := encAt_fields 0 a b 1 z.code sc.code x y (by omega) (by omega) (by omega) (by omega) (by omega) (by omega)
  rw [e] at F; obtain ⟨h0, h1, hd, ha, hb, hx, hy, g1, g2, g3⟩ := F
  refine ⟨h0, ?_⟩
  rw [dec_0D h1]
  simp only [dec0D, hd, ha, hb, hx, hy, g1, g2, g3, toS_self, Size_ofCode, Scope_ofCode] <;> rfl

theorem amoSwap (d a b : SReg) (z : ASize) (sc : Scope) (x y : Bool) : Statement (.amoSwap d a b z sc x y) := by
  intro _ w h
  have := d.isLt; have := a.isLt; have := b.isLt; have := ASize_lt z; have := Scope_lt sc
  have e : encAt d a b 2 z.code sc.code x y = w := Option.some.inj h
  have F := encAt_fields d a b 2 z.code sc.code x y (by omega) (by omega) (by omega) (by omega) (by omega) (by omega)
  rw [e] at F; obtain ⟨h0, h1, hd, ha, hb, hx, hy, g1, g2, g3⟩ := F
  refine ⟨h0, ?_⟩
  rw [dec_0D h1]
  simp only [dec0D, hd, ha, hb, hx, hy, g1, g2, g3, toS_self, ASize_ofCode, Scope_ofCode]

theorem amoAdd (d a b : SReg) (z : ASize) (sc : Scope) (x y : Bool) : Statement (.amoAdd d a b z sc x y) := by
  intro _ w h
  have := d.isLt; have := a.isLt; have := b.isLt; have := ASize_lt z; have := Scope_lt sc
  have e : encAt d a b 3 z.code sc.code x y = w := Option.some.inj h
  have F := encAt_fields d a b 3 z.code sc.code x y (by omega) (by omega) (by omega) (by omega) (by omega) (by omega)
  rw [e] at F; obtain ⟨h0, h1, hd, ha, hb, hx, hy, g1, g2, g3⟩ := F
  refine ⟨h0, ?_⟩
  rw [dec_0D h1]
  simp only [dec0D, hd, ha, hb, hx, hy, g1, g2, g3, toS_self, ASize_ofCode, Scope_ofCode]

theorem amoAnd (d a b : SReg) (z : ASize) (sc : Scope) (x y : Bool) : Statement (.amoAnd d a b z sc x y) := by
  intro _ w h
  have := d.isLt; have := a.isLt; have := b.isLt; have := ASize_lt z; have := Scope_lt sc
  have e : encAt d a b 4 z.code sc.code x y = w := Option.some.inj h
  have F := encAt_fields d a b 4 z.code sc.code x y (by omega) (by omega) (by omega) (by omega) (by omega) (by omega)
  rw [e] at F; obtain ⟨h0, h1, hd, ha, hb, hx, hy, g1, g2, g3⟩ := F
  refine ⟨h0, ?_⟩
  rw [dec_0D h1]
  simp only [dec0D, hd, ha, hb, hx, hy, g1, g2, g3, toS_self, ASize_ofCode, Scope_ofCode]

theorem amoOr (d a b : SReg) (z : ASize) (sc : Scope) (x y : Bool) : Statement (.amoOr d a b z sc x y) := by
  intro _ w h
  have := d.isLt; have := a.isLt; have := b.isLt; have := ASize_lt z; have := Scope_lt sc
  have e : encAt d a b 5 z.code sc.code x y = w := Option.some.inj h
  have F := encAt_fields d a b 5 z.code sc.code x y (by omega) (by omega) (by omega) (by omega) (by omega) (by omega)
  rw [e] at F; obtain ⟨h0, h1, hd, ha, hb, hx, hy, g1, g2, g3⟩ := F
  refine ⟨h0, ?_⟩
  rw [dec_0D h1]
  simp only [dec0D, hd, ha, hb, hx, hy, g1, g2, g3, toS_self, ASize_ofCode, Scope_ofCode]

theorem amoXor (d a b : SReg) (z : ASize) (sc : Scope) (x y : Bool) : Statement (.amoXor d a b z sc x y) := by
  intro _ w h
  have := d.isLt; have := a.isLt; have := b.isLt; have := ASize_lt z; have := Scope_lt sc
  have e : encAt d a b 6 z.code sc.code x y = w := Option.some.inj h
  have F := encAt_fields d a b 6 z.code sc.code x y (by omega) (by omega) (by omega) (by omega) (by omega) (by omega)
  rw [e] at F; obtain ⟨h0, h1, hd, ha, hb, hx, hy, g1, g2, g3⟩ := F
  refine ⟨h0, ?_⟩
  rw [dec_0D h1]
  simp only [dec0D, hd, ha, hb, hx, hy, g1, g2, g3, toS_self, ASize_ofCode, Scope_ofCode]

theorem amoMin (d a b : SReg) (z : ASize) (sc : Scope) (x y : Bool) : Statement (.amoMin d a b z sc x y) := by
  intro _ w h
  have := d.isLt; have := a.isLt; have := b.isLt; have := ASize_lt z; have := Scope_lt sc
  have e : encAt d a b 7 z.code sc.code x y = w := Option.some.inj h
  have F := encAt_fields d a b 7 z.code sc.code x y (by omega) (by omega) (by omega) (by omega) (by omega) (by omega)
  rw [e] at F; obtain ⟨h0, h1, hd, ha, hb, hx, hy, g1, g2, g3⟩ := F
  refine ⟨h0, ?_⟩
  rw [dec_0D h1]
  simp only [dec0D, hd, ha, hb, hx, hy, g1, g2, g3, toS_self, ASize_ofCode, Scope_ofCode]

theorem amoMax (d a b : SReg) (z : ASize) (sc : Scope) (x y : Bool) : Statement (.amoMax d a b z sc x y) := by
  intro _ w h
  have := d.isLt; have := a.isLt; have := b.isLt; have := ASize_lt z; have := Scope_lt sc
  have e : encAt d a b 8 z.code sc.code x y = w := Option.some.inj h
  have F := encAt_fields d a b 8 z.code sc.code x y (by omega) (by omega) (by omega) (by omega) (by omega) (by omega)
  rw [e] at F; obtain ⟨h0, h1, hd, ha, hb, hx, hy, g1, g2, g3⟩ := F
  refine ⟨h0, ?_⟩
  rw [dec_0D h1]
  simp only [dec0D, hd, ha, hb, hx, hy, g1, g2, g3, toS_self, ASize_ofCode, Scope_ofCode]

theorem amoMinN (d a b : SReg) (z : ASize) (sc : Scope) (x y : Bool) : Statement (.amoMinN d a b z sc x y) := by
  intro _ w h
  have := d.isLt; have := a.isLt; have := b.isLt; have := ASize_lt z; have := Scope_lt sc
  have e : encAt d a b 9 z.code sc.code x y = w := Option.some.inj h
  have F := encAt_fields d a b 9 z.code sc.code x y (by omega) (by omega) (by omega) (by omega) (by omega) (by omega)
  rw [e] at F; obtain ⟨h0, h1, hd, ha, hb, hx, hy, g1, g2, g3⟩ := F
  refine ⟨h0, ?_⟩
  rw [dec_0D h1]
  simp only [dec0D, hd, ha, hb, hx, hy, g1, g2, g3, toS_self, ASize_ofCode, Scope_ofCode]

theorem amoMaxN (d a b : SReg) (z : ASize) (sc : Scope) (x y : Bool) : Statement (.amoMaxN d a b z sc x y) := by
  intro _ w h
  have := d.isLt; have := a.isLt; have := b.isLt; have := ASize_lt z; have := Scope_lt sc
  have e : encAt d a b 10 z.code sc.code x y = w := Option.some.inj h
  have F := encAt_fields d a b 10 z.code sc.code x y (by omega) (by omega) (by omega) (by omega) (by omega) (by omega)
  rw [e] at F; obtain ⟨h0, h1, hd, ha, hb, hx, hy, g1, g2, g3⟩ := F
  refine ⟨h0, ?_⟩
  rw [dec_0D h1]
  simp only [dec0D, hd, ha, hb, hx, hy, g1, g2, g3, toS_self, ASize_ofCode, Scope_ofCode]

theorem cas (d a b : SReg) (z : ASize) (sc : Scope) (x y : Bool) : Statement (.cas d a b z sc x y) := by
  intro _ w h
  have := d.isLt; have := a.isLt; have := b.isLt; have := ASize_lt z; have := Scope_lt sc
  have e : encAt d a b 11 z.code sc.code x y = w := Option.some.inj h
  have F := encAt_fields d a b 11 z.code sc.code x y (by omega) (by omega) (by omega) (by omega) (by omega) (by omega)
  rw [e] at F; obtain ⟨h0, h1, hd, ha, hb, hx, hy, g1, g2, g3⟩ := F
  refine ⟨h0, ?_⟩
  rw [dec_0D h1]
  simp only [dec0D, hd, ha, hb, hx, hy, g1, g2, g3, toS_self, ASize_ofCode, Scope_ofCode]

theorem fence (sc : Scope) : Statement (.fence sc) := by
  intro _ w h
  have := Scope_lt sc
  have e : encE 0x0E 0 0 0 sc.code = w := Option.some.inj h
  have F := encE_fields 0x0E 0 0 0 sc.code (by omega) (by omega) (by omega) (by omega) (by omega)
  rw [e] at F; obtain ⟨h0, h1, hd, ha, hf, hi⟩ := F
  have rf : w / 256 % 256 = _ := hf
  have k2 : sc.code % 8 = sc.code := by omega
  have k3 : sc.code / 8 = 0 := by omega
  refine ⟨h0, ?_⟩
  rw [dec_0E h1]
  simp only [dec0E, hd, ha, hi, rf, k2, k3, Scope_ofCode] <;> rfl

theorem fenceLd (sc : Scope) : Statement (.fenceLd sc) := by
  intro _ w h
  have := Scope_lt sc
  have e : encE 0x0E 0 0 1 sc.code = w := Option.some.inj h
  have F := encE_fields 0x0E 0 0 1 sc.code (by omega) (by omega) (by omega) (by omega) (by omega)
  rw [e] at F; obtain ⟨h0, h1, hd, ha, hf, hi⟩ := F
  have rf : w / 256 % 256 = _ := hf
  have k2 : sc.code % 8 = sc.code := by omega
  have k3 : sc.code / 8 = 0 := by omega
  refine ⟨h0, ?_⟩
  rw [dec_0E h1]
  simp only [dec0E, hd, ha, hi, rf, k2, k3, Scope_ofCode] <;> rfl

theorem fenceSt (sc : Scope) : Statement (.fenceSt sc) := by
  intro _ w h
  have := Scope_lt sc
  have e : encE 0x0E 0 0 2 sc.code = w := Option.some.inj h
  have F := encE_fields 0x0E 0 0 2 sc.code (by omega) (by omega) (by omega) (by omega) (by omega)
  rw [e] at F; obtain ⟨h0, h1, hd, ha, hf, hi⟩ := F
  have rf : w / 256 % 256 = _ := hf
  have k2 : sc.code % 8 = sc.code := by omega
  have k3 : sc.code / 8 = 0 := by omega
  refine ⟨h0, ?_⟩
  rw [dec_0E h1]
  simp only [dec0E, hd, ha, hi, rf, k2, k3, Scope_ofCode] <;> rfl

theorem fenceEng (sc : Scope) : Statement (.fenceEng sc) := by
  intro _ w h
  have := Scope_lt sc
  have e : encE 0x0E 0 0 3 sc.code = w := Option.some.inj h
  have F := encE_fields 0x0E 0 0 3 sc.code (by omega) (by omega) (by omega) (by omega) (by omega)
  rw [e] at F; obtain ⟨h0, h1, hd, ha, hf, hi⟩ := F
  have rf : w / 256 % 256 = _ := hf
  have k2 : sc.code % 8 = sc.code := by omega
  have k3 : sc.code / 8 = 0 := by omega
  refine ⟨h0, ?_⟩
  rw [dec_0E h1]
  simp only [dec0E, hd, ha, hi, rf, k2, k3, Scope_ofCode] <;> rfl

theorem cmp (c : CBit) (a b : SReg) (rel : Rel) (x y : Bool) : Statement (.cmp c a b rel x y) := by
  intro _ w h
  have := c.isLt; have := a.isLt; have := b.isLt; have := Rel_lt rel
  have e0 : encA 0x0F c a b (rel.code * 8) x y = w := Option.some.inj h
  have e : encA 0x0F c a b (0 * 64 + rel.code * 8 + 0 * 4) x y = w := by
    rw [show 0 * 64 + rel.code * 8 + 0 * 4 = rel.code * 8 by omega]; exact e0
  have F := enc0F_fields c a b 0 rel.code 0 x y (by omega) (by omega) (by omega) (by omega) (by omega) (by omega)
  rw [e] at F; obtain ⟨h0, h1, hd, ha, hb, hx, hy, g1, g2, g3, g4⟩ := F
  refine ⟨h0, ?_⟩
  rw [dec_0F h1]
  simp only [dec0F, hd, ha, hb, hx, hy, g1, g2, g3, g4, toC_self, high_lt c.isLt, toS_self, Rel_ofCode] <;> rfl

theorem cmpN (c : CBit) (a b : SReg) (rel : Rel) (x y : Bool) : Statement (.cmpN c a b rel x y) := by
  intro _ w h
  have := c.isLt; have := a.isLt; have := b.isLt; have := Rel_lt rel
  have e0 : encA 0x0F c a b (rel.code * 8 + 4) x y = w := Option.some.inj h
  have e : encA 0x0F c a b (0 * 64 + rel.code * 8 + 1 * 4) x y = w := by
    rw [show 0 * 64 + rel.code * 8 + 1 * 4 = rel.code * 8 + 4 by omega]; exact e0
  have F := enc0F_fields c a b 0 rel.code 1 x y (by omega) (by omega) (by omega) (by omega) (by omega) (by omega)
  rw [e] at F; obtain ⟨h0, h1, hd, ha, hb, hx, hy, g1, g2, g3, g4⟩ := F
  refine ⟨h0, ?_⟩
  rw [dec_0F h1]
  simp only [dec0F, hd, ha, hb, hx, hy, g1, g2, g3, g4, toC_self, high_lt c.isLt, toS_self, Rel_ofCode] <;> rfl

theorem fcmp (c : CBit) (a b : SReg) (rel : Rel) (t : SFltTy) (x y : Bool) : Statement (.fcmp c a b rel t x y) := by
  intro _ w h
  have := c.isLt; have := a.isLt; have := b.isLt; have := Rel_lt rel; have : t.code - 2 < 2 := by cases t <;> decide
  have e0 : encA 0x0F c a b (64 + rel.code * 8 + (t.code - 2) * 4) x y = w := Option.some.inj h
  have e : encA 0x0F c a b (1 * 64 + rel.code * 8 + (t.code - 2) * 4) x y = w := e0
  have F := enc0F_fields c a b 1 rel.code (t.code - 2) x y (by omega) (by omega) (by omega) (by omega) (by omega)
     (by omega)
  rw [e] at F; obtain ⟨h0, h1, hd, ha, hb, hx, hy, g1, g2, g3, g4⟩ := F
  refine ⟨h0, ?_⟩
  rw [dec_0F h1]
  simp only [dec0F, hd, ha, hb, hx, hy, g1, g2, g3, g4, toC_self, high_lt c.isLt, toS_self, Rel_ofCode] <;>
    (cases t <;> rfl)

theorem cand (d a b : CBit) : Statement (.cand d a b) := by
  intro _ w h
  have := d.isLt; have := a.isLt; have := b.isLt
  have e : encA 0x0F d a b (128 + 0) false false = w := Option.some.inj h
  have F := encA_fields 0x0F d a b (128 + 0) false false (by omega) (by omega) (by omega) (by omega) (by omega)
  rw [e] at F; obtain ⟨h0, h1, hd, ha, hb, hf, hx, hy⟩ := F
  have rf : w / 4 % 512 = _ := hf
  have k2 : w / 256 % 8 = 2 := by omega
  have k3 : w / 4 % 64 = 0 := by omega
  refine ⟨h0, ?_⟩
  rw [dec_0F h1]
  simp only [dec0F, hd, ha, hb, hx, hy, k2, k3, toC_self, high_lt d.isLt, high_lt a.isLt, high_lt b.isLt] <;> rfl

theorem cor (d a b : CBit) : Statement (.cor d a b) := by
  intro _ w h
  have := d.isLt; have := a.isLt; have := b.isLt
  have e : encA 0x0F d a b (128 + 1) false false = w := Option.some.inj h
  have F := encA_fields 0x0F d a b (128 + 1) false false (by omega) (by omega) (by omega) (by omega) (by omega)
  rw [e] at F; obtain ⟨h0, h1, hd, ha, hb, hf, hx, hy⟩ := F
  have rf : w / 4 % 512 = _ := hf
  have k2 : w / 256 % 8 = 2 := by omega
  have k3 : w / 4 % 64 = 1 := by omega
  refine ⟨h0, ?_⟩
  rw [dec_0F h1]
  simp only [dec0F, hd, ha, hb, hx, hy, k2, k3, toC_self, high_lt d.isLt, high_lt a.isLt, high_lt b.isLt] <;> rfl

theorem cxor (d a b : CBit) : Statement (.cxor d a b) := by
  intro _ w h
  have := d.isLt; have := a.isLt; have := b.isLt
  have e : encA 0x0F d a b (128 + 2) false false = w := Option.some.inj h
  have F := encA_fields 0x0F d a b (128 + 2) false false (by omega) (by omega) (by omega) (by omega) (by omega)
  rw [e] at F; obtain ⟨h0, h1, hd, ha, hb, hf, hx, hy⟩ := F
  have rf : w / 4 % 512 = _ := hf
  have k2 : w / 256 % 8 = 2 := by omega
  have k3 : w / 4 % 64 = 2 := by omega
  refine ⟨h0, ?_⟩
  rw [dec_0F h1]
  simp only [dec0F, hd, ha, hb, hx, hy, k2, k3, toC_self, high_lt d.isLt, high_lt a.isLt, high_lt b.isLt] <;> rfl

theorem candn (d a b : CBit) : Statement (.candn d a b) := by
  intro _ w h
  have := d.isLt; have := a.isLt; have := b.isLt
  have e : encA 0x0F d a b (128 + 3) false false = w := Option.some.inj h
  have F := encA_fields 0x0F d a b (128 + 3) false false (by omega) (by omega) (by omega) (by omega) (by omega)
  rw [e] at F; obtain ⟨h0, h1, hd, ha, hb, hf, hx, hy⟩ := F
  have rf : w / 4 % 512 = _ := hf
  have k2 : w / 256 % 8 = 2 := by omega
  have k3 : w / 4 % 64 = 3 := by omega
  refine ⟨h0, ?_⟩
  rw [dec_0F h1]
  simp only [dec0F, hd, ha, hb, hx, hy, k2, k3, toC_self, high_lt d.isLt, high_lt a.isLt, high_lt b.isLt] <;> rfl

theorem cnot (d a : CBit) : Statement (.cnot d a) := by
  intro _ w h
  have := d.isLt; have := a.isLt
  have e : encA 0x0F d a 0 (128 + 4) false false = w := Option.some.inj h
  have F := encA_fields 0x0F d a 0 (128 + 4) false false (by omega) (by omega) (by omega) (by omega) (by omega)
  rw [e] at F; obtain ⟨h0, h1, hd, ha, hb, hf, hx, hy⟩ := F
  have rf : w / 4 % 512 = _ := hf
  have k2 : w / 256 % 8 = 2 := by omega
  have k3 : w / 4 % 64 = 4 := by omega
  refine ⟨h0, ?_⟩
  rw [dec_0F h1]
  simp only [dec0F, hd, ha, hb, hx, hy, k2, k3, toC_self, high_lt d.isLt, high_lt a.isLt] <;> rfl

theorem cget (d : SReg) (a : CBit) : Statement (.cget d a) := by
  intro _ w h
  have := d.isLt; have := a.isLt
  have e : encA 0x0F d a 0 (128 + 5) false false = w := Option.some.inj h
  have F := encA_fields 0x0F d a 0 (128 + 5) false false (by omega) (by omega) (by omega) (by omega) (by omega)
  rw [e] at F; obtain ⟨h0, h1, hd, ha, hb, hf, hx, hy⟩ := F
  have rf : w / 4 % 512 = _ := hf
  have k2 : w / 256 % 8 = 2 := by omega
  have k3 : w / 4 % 64 = 5 := by omega
  refine ⟨h0, ?_⟩
  rw [dec_0F h1]
  simp only [dec0F, hd, ha, hb, hx, hy, k2, k3, toS_self, toC_self, high_lt a.isLt] <;> rfl

theorem cput (d : CBit) (a : SReg) (x : Bool) : Statement (.cput d a x) := by
  intro _ w h
  have := d.isLt; have := a.isLt
  have e : encA 0x0F d a 0 (128 + 6) x false = w := Option.some.inj h
  have F := encA_fields 0x0F d a 0 (128 + 6) x false (by omega) (by omega) (by omega) (by omega) (by omega)
  rw [e] at F; obtain ⟨h0, h1, hd, ha, hb, hf, hx, hy⟩ := F
  have rf : w / 4 % 512 = _ := hf
  have k2 : w / 256 % 8 = 2 := by omega
  have k3 : w / 4 % 64 = 6 := by omega
  refine ⟨h0, ?_⟩
  rw [dec_0F h1]
  simp only [dec0F, hd, ha, hb, hx, hy, k2, k3, toC_self, high_lt d.isLt, toS_self] <;> rfl

theorem br (c : CBit) (disp : BitVec 22) : Statement (.br c disp) := by
  intro _ w h
  have := c.isLt; have := disp.isLt
  have e : encJ 0x10 (c.val * 8388608 + 4194304 + disp.toNat) = w := Option.some.inj h
  have F := encJ_fields 0x10 (c.val * 8388608 + 4194304 + disp.toNat) (by omega) (by omega)
  rw [e] at F; obtain ⟨h0, h1, g1⟩ := F
  have k1 : w / 8388608 % 8 = c.val := by omega
  have k2 : w / 4194304 % 2 = 1 := by omega
  have k3 : BitVec.ofNat 22 w = disp := ofNat_eq disp _ (by omega)
  refine ⟨h0, ?_⟩
  rw [dec_10 h1]
  simp only [dec10, k1, k2, k3, toC_self] <;> rfl

theorem brn (c : CBit) (disp : BitVec 22) : Statement (.brn c disp) := by
  intro _ w h
  have := c.isLt; have := disp.isLt
  have e : encJ 0x10 (c.val * 8388608 + disp.toNat) = w := Option.some.inj h
  have F := encJ_fields 0x10 (c.val * 8388608 + disp.toNat) (by omega) (by omega)
  rw [e] at F; obtain ⟨h0, h1, g1⟩ := F
  have k1 : w / 8388608 % 8 = c.val := by omega
  have k2 : w / 4194304 % 2 = 0 := by omega
  have k3 : BitVec.ofNat 22 w = disp := ofNat_eq disp _ (by omega)
  refine ⟨h0, ?_⟩
  rw [dec_10 h1]
  simp only [dec10, k1, k2, k3, toC_self] <;> rfl

theorem jmp (disp : BitVec 26) : Statement (.jmp disp) := by
  intro _ w h
  have := disp.isLt
  have e : encJ 0x11 disp.toNat = w := Option.some.inj h
  have F := encJ_fields 0x11 disp.toNat (by omega) (by omega)
  rw [e] at F; obtain ⟨h0, h1, g1⟩ := F
  have k1 : BitVec.ofNat 26 w = disp := ofNat_eq disp _ (by omega)
  refine ⟨h0, ?_⟩
  rw [dec_11 h1]
  simp only [dec11, k1]

theorem call (disp : BitVec 26) : Statement (.call disp) := by
  intro _ w h
  have := disp.isLt
  have e : encJ 0x12 disp.toNat = w := Option.some.inj h
  have F := encJ_fields 0x12 disp.toNat (by omega) (by omega)
  rw [e] at F; obtain ⟨h0, h1, g1⟩ := F
  have k1 : BitVec.ofNat 26 w = disp := ofNat_eq disp _ (by omega)
  refine ⟨h0, ?_⟩
  rw [dec_12 h1]
  simp only [dec12, k1]

theorem jmpr (a : SReg) : Statement (.jmpr a) := by
  intro _ w h
  have := a.isLt
  have e : encE 0x13 a 0 0 0 = w := Option.some.inj h
  have F := encE_fields 0x13 a 0 0 0 (by omega) (by omega) (by omega) (by omega) (by omega)
  rw [e] at F; obtain ⟨h0, h1, hd, ha, hf, hi⟩ := F
  refine ⟨h0, ?_⟩
  rw [dec_13 h1]
  simp only [dec13, hd, ha, hf, hi, toS_self] <;> rfl

theorem callr (a : SReg) : Statement (.callr a) := by
  intro _ w h
  have := a.isLt
  have e : encE 0x13 a 0 1 0 = w := Option.some.inj h
  have F := encE_fields 0x13 a 0 1 0 (by omega) (by omega) (by omega) (by omega) (by omega)
  rw [e] at F; obtain ⟨h0, h1, hd, ha, hf, hi⟩ := F
  refine ⟨h0, ?_⟩
  rw [dec_13 h1]
  simp only [dec13, hd, ha, hf, hi, toS_self] <;> rfl

theorem ret : Statement (.ret) := by
  intro _ w h
  have e : encE 0x13 0 0 2 0 = w := Option.some.inj h
  have F := encE_fields 0x13 0 0 2 0 (by omega) (by omega) (by omega) (by omega) (by omega)
  rw [e] at F; obtain ⟨h0, h1, hd, ha, hf, hi⟩ := F
  refine ⟨h0, ?_⟩
  rw [dec_13 h1]
  simp only [dec13, hd, ha, hf, hi] <;> rfl

theorem gret : Statement (.gret) := by
  intro _ w h
  have e : encE 0x13 0 0 3 0 = w := Option.some.inj h
  have F := encE_fields 0x13 0 0 3 0 (by omega) (by omega) (by omega) (by omega) (by omega)
  rw [e] at F; obtain ⟨h0, h1, hd, ha, hf, hi⟩ := F
  refine ⟨h0, ?_⟩
  rw [dec_13 h1]
  simp only [dec13, hd, ha, hf, hi] <;> rfl

theorem gate (n : Fin 1024) : Statement (.gate n) := by
  intro _ w h
  have := n.isLt
  have e : encJ 0x14 (n.val * 65536) = w := Option.some.inj h
  have F := encJ_fields 0x14 (n.val * 65536) (by omega) (by omega)
  rw [e] at F; obtain ⟨h0, h1, g1⟩ := F
  have k1 : w % 65536 = 0 := by omega
  have k2 : Fin.ofNat 1024 (w / 65536) = n := Fin.ext (by simp only [Fin.ofNat]; omega)
  refine ⟨h0, ?_⟩
  rw [dec_14 h1]
  simp only [dec14, k1, k2] <;> rfl

theorem trap (n : BitVec 8) : Statement (.trap n) := by
  intro _ w h
  have := n.isLt
  have e : encE 0x15 0 0 0x00 n.toNat = w := Option.some.inj h
  have F := encE_fields 0x15 0 0 0x00 n.toNat (by omega) (by omega) (by omega) (by omega) (by omega)
  rw [e] at F; obtain ⟨h0, h1, hd, ha, hf, hi⟩ := F
  refine ⟨h0, ?_⟩
  rw [dec_15 h1]
  simp only [dec15, hd, ha, hf, hi, ofNat_self] <;> rfl

theorem tret : Statement (.tret) := by
  intro _ w h
  have e : encE 0x15 0 0 0x01 0 = w := Option.some.inj h
  have F := encE_fields 0x15 0 0 0x01 0 (by omega) (by omega) (by omega) (by omega) (by omega)
  rw [e] at F; obtain ⟨h0, h1, hd, ha, hf, hi⟩ := F
  refine ⟨h0, ?_⟩
  rw [dec_15 h1]
  simp only [dec15, hd, ha, hf, hi] <;> rfl

theorem crd (d : SReg) (n : BitVec 12) : Statement (.crd d n) := by
  intro _ w h
  have := d.isLt; have := n.isLt
  have e : encE 0x15 d (n.toNat / 256) 0x02 (n.toNat % 256) = w := Option.some.inj h
  have F := encE_fields 0x15 d (n.toNat / 256) 0x02 (n.toNat % 256) (by omega) (by omega) (by omega) (by omega) (by
     omega)
  rw [e] at F; obtain ⟨h0, h1, hd, ha, hf, hi⟩ := F
  have k1 : n.toNat / 256 % 16 * 256 + n.toNat % 256 = n.toNat := by omega
  have k2 : n.toNat / 256 / 16 = 0 := by omega
  refine ⟨h0, ?_⟩
  rw [dec_15 h1]
  simp only [dec15, hd, ha, hf, hi, k1, k2, toS_self, ofNat_self] <;> rfl

theorem cwr (a : SReg) (n : BitVec 12) : Statement (.cwr a n) := by
  intro hw w h
  have := a.isLt; have := n.isLt
  have e : encE 0x15 a (n.toNat / 256) 0x03 (n.toNat % 256) = w := Option.some.inj h
  have F := encE_fields 0x15 a (n.toNat / 256) 0x03 (n.toNat % 256) (by omega) (by omega) (by omega) (by omega) (by
     omega)
  rw [e] at F; obtain ⟨h0, h1, hd, ha, hf, hi⟩ := F
  have k1 : n.toNat / 256 % 16 * 256 + n.toNat % 256 = n.toNat := by omega
  have k2 : n.toNat / 256 / 16 = 0 := by omega
  refine ⟨h0, ?_⟩
  rw [dec_15 h1]
  simp only [dec15, hd, ha, hf, hi, k1, k2, toS_self, cwrOf_general a n hw] <;> rfl

theorem cwrVl (a : SReg) : Statement (.cwrVl a) := by
  intro _ w h
  have := a.isLt
  have e : encE 0x15 a (0x000 / 256) 0x03 (0x000 % 256) = w := Option.some.inj h
  have F := encE_fields 0x15 a (0x000 / 256) 0x03 (0x000 % 256) (by omega) (by omega) (by omega) (by omega) (by omega)
  rw [e] at F; obtain ⟨h0, h1, hd, ha, hf, hi⟩ := F
  refine ⟨h0, ?_⟩
  rw [dec_15 h1]
  simp only [dec15, hd, ha, hf, hi, toS_self] <;> rfl

theorem cwrLpart (a : SReg) : Statement (.cwrLpart a) := by
  intro _ w h
  have := a.isLt
  have e : encE 0x15 a (0x006 / 256) 0x03 (0x006 % 256) = w := Option.some.inj h
  have F := encE_fields 0x15 a (0x006 / 256) 0x03 (0x006 % 256) (by omega) (by omega) (by omega) (by omega) (by omega)
  rw [e] at F; obtain ⟨h0, h1, hd, ha, hf, hi⟩ := F
  refine ⟨h0, ?_⟩
  rw [dec_15 h1]
  simp only [dec15, hd, ha, hf, hi, toS_self] <;> rfl

theorem cwrPrio (a : SReg) : Statement (.cwrPrio a) := by
  intro _ w h
  have := a.isLt
  have e : encE 0x15 a (0x040 / 256) 0x03 (0x040 % 256) = w := Option.some.inj h
  have F := encE_fields 0x15 a (0x040 / 256) 0x03 (0x040 % 256) (by omega) (by omega) (by omega) (by omega) (by omega)
  rw [e] at F; obtain ⟨h0, h1, hd, ha, hf, hi⟩ := F
  refine ⟨h0, ?_⟩
  rw [dec_15 h1]
  simp only [dec15, hd, ha, hf, hi, toS_self] <;> rfl

theorem cwrStripmax (a : SReg) : Statement (.cwrStripmax a) := by
  intro _ w h
  have := a.isLt
  have e : encE 0x15 a (0x047 / 256) 0x03 (0x047 % 256) = w := Option.some.inj h
  have F := encE_fields 0x15 a (0x047 / 256) 0x03 (0x047 % 256) (by omega) (by omega) (by omega) (by omega) (by omega)
  rw [e] at F; obtain ⟨h0, h1, hd, ha, hf, hi⟩ := F
  refine ⟨h0, ?_⟩
  rw [dec_15 h1]
  simp only [dec15, hd, ha, hf, hi, toS_self] <;> rfl

theorem cwrPriv (a : SReg) : Statement (.cwrPriv a) := by
  intro _ w h
  have := a.isLt
  have e : encE 0x15 a (0x180 / 256) 0x03 (0x180 % 256) = w := Option.some.inj h
  have F := encE_fields 0x15 a (0x180 / 256) 0x03 (0x180 % 256) (by omega) (by omega) (by omega) (by omega) (by omega)
  rw [e] at F; obtain ⟨h0, h1, hd, ha, hf, hi⟩ := F
  refine ⟨h0, ?_⟩
  rw [dec_15 h1]
  simp only [dec15, hd, ha, hf, hi, toS_self] <;> rfl

theorem cwrAsid (a : SReg) : Statement (.cwrAsid a) := by
  intro _ w h
  have := a.isLt
  have e : encE 0x15 a (0x182 / 256) 0x03 (0x182 % 256) = w := Option.some.inj h
  have F := encE_fields 0x15 a (0x182 / 256) 0x03 (0x182 % 256) (by omega) (by omega) (by omega) (by omega) (by omega)
  rw [e] at F; obtain ⟨h0, h1, hd, ha, hf, hi⟩ := F
  refine ⟨h0, ?_⟩
  rw [dec_15 h1]
  simp only [dec15, hd, ha, hf, hi, toS_self] <;> rfl

theorem cwrTcause (a : SReg) : Statement (.cwrTcause a) := by
  intro _ w h
  have := a.isLt
  have e : encE 0x15 a (0x101 / 256) 0x03 (0x101 % 256) = w := Option.some.inj h
  have F := encE_fields 0x15 a (0x101 / 256) 0x03 (0x101 % 256) (by omega) (by omega) (by omega) (by omega) (by omega)
  rw [e] at F; obtain ⟨h0, h1, hd, ha, hf, hi⟩ := F
  refine ⟨h0, ?_⟩
  rw [dec_15 h1]
  simp only [dec15, hd, ha, hf, hi, toS_self] <;> rfl

theorem cwrHctl (a : SReg) : Statement (.cwrHctl a) := by
  intro _ w h
  have := a.isLt
  have e : encE 0x15 a (0x020 / 256) 0x03 (0x020 % 256) = w := Option.some.inj h
  have F := encE_fields 0x15 a (0x020 / 256) 0x03 (0x020 % 256) (by omega) (by omega) (by omega) (by omega) (by omega)
  rw [e] at F; obtain ⟨h0, h1, hd, ha, hf, hi⟩ := F
  refine ⟨h0, ?_⟩
  rw [dec_15 h1]
  simp only [dec15, hd, ha, hf, hi, toS_self] <;> rfl

theorem tlbInv (a b : SReg) (sc : Scope) : Statement (.tlbInv a b sc) := by
  intro _ w h
  have := a.isLt; have := b.isLt; have := Scope_lt sc
  have e : encE 0x15 a b 0x04 sc.code = w := Option.some.inj h
  have F := encE_fields 0x15 a b 0x04 sc.code (by omega) (by omega) (by omega) (by omega) (by omega)
  rw [e] at F; obtain ⟨h0, h1, hd, ha, hf, hi⟩ := F
  have k1 : sc.code % 8 = sc.code := by omega
  have k2 : sc.code / 8 = 0 := by omega
  refine ⟨h0, ?_⟩
  rw [dec_15 h1]
  simp only [dec15, hd, ha, hf, hi, k1, k2, toS_self, Scope_ofCode] <;> rfl

theorem tlbPrb (d b : SReg) : Statement (.tlbPrb d b) := by
  intro _ w h
  have := d.isLt; have := b.isLt
  have e : encE 0x15 d b 0x05 0 = w := Option.some.inj h
  have F := encE_fields 0x15 d b 0x05 0 (by omega) (by omega) (by omega) (by omega) (by omega)
  rw [e] at F; obtain ⟨h0, h1, hd, ha, hf, hi⟩ := F
  refine ⟨h0, ?_⟩
  rw [dec_15 h1]
  simp only [dec15, hd, ha, hf, hi, toS_self] <;> rfl

theorem cacheWb (a b : SReg) (sc : Scope) : Statement (.cacheWb a b sc) := by
  intro _ w h
  have := a.isLt; have := b.isLt; have := Scope_lt sc
  have e : encE 0x15 a b 0x06 sc.code = w := Option.some.inj h
  have F := encE_fields 0x15 a b 0x06 sc.code (by omega) (by omega) (by omega) (by omega) (by omega)
  rw [e] at F; obtain ⟨h0, h1, hd, ha, hf, hi⟩ := F
  have k1 : sc.code % 8 = sc.code := by omega
  have k2 : sc.code / 8 = 0 := by omega
  refine ⟨h0, ?_⟩
  rw [dec_15 h1]
  simp only [dec15, hd, ha, hf, hi, k1, k2, toS_self, Scope_ofCode] <;> rfl

theorem cacheInv (a b : SReg) (sc : Scope) : Statement (.cacheInv a b sc) := by
  intro _ w h
  have := a.isLt; have := b.isLt; have := Scope_lt sc
  have e : encE 0x15 a b 0x07 sc.code = w := Option.some.inj h
  have F := encE_fields 0x15 a b 0x07 sc.code (by omega) (by omega) (by omega) (by omega) (by omega)
  rw [e] at F; obtain ⟨h0, h1, hd, ha, hf, hi⟩ := F
  have k1 : sc.code % 8 = sc.code := by omega
  have k2 : sc.code / 8 = 0 := by omega
  refine ⟨h0, ?_⟩
  rw [dec_15 h1]
  simp only [dec15, hd, ha, hf, hi, k1, k2, toS_self, Scope_ofCode] <;> rfl

theorem halt : Statement (.halt) := by
  intro _ w h
  have e : encE 0x15 0 0 0x08 0 = w := Option.some.inj h
  have F := encE_fields 0x15 0 0 0x08 0 (by omega) (by omega) (by omega) (by omega) (by omega)
  rw [e] at F; obtain ⟨h0, h1, hd, ha, hf, hi⟩ := F
  refine ⟨h0, ?_⟩
  rw [dec_15 h1]
  simp only [dec15, hd, ha, hf, hi] <;> rfl

theorem wfe (a : SReg) : Statement (.wfe a) := by
  intro _ w h
  have := a.isLt
  have e : encE 0x15 a 0 0x09 0 = w := Option.some.inj h
  have F := encE_fields 0x15 a 0 0x09 0 (by omega) (by omega) (by omega) (by omega) (by omega)
  rw [e] at F; obtain ⟨h0, h1, hd, ha, hf, hi⟩ := F
  refine ⟨h0, ?_⟩
  rw [dec_15 h1]
  simp only [dec15, hd, ha, hf, hi, toS_self] <;> rfl

theorem evt (a : SReg) : Statement (.evt a) := by
  intro _ w h
  have := a.isLt
  have e : encE 0x15 a 0 0x0A 0 = w := Option.some.inj h
  have F := encE_fields 0x15 a 0 0x0A 0 (by omega) (by omega) (by omega) (by omega) (by omega)
  rw [e] at F; obtain ⟨h0, h1, hd, ha, hf, hi⟩ := F
  refine ⟨h0, ?_⟩
  rw [dec_15 h1]
  simp only [dec15, hd, ha, hf, hi, toS_self] <;> rfl

theorem setvl (d a : SReg) (z : Width) (x : Bool) : Statement (.setvl d a z x) := by
  intro _ w h
  have := d.isLt; have := a.isLt; have := Width_lt z
  have e : encI 0x16 d a (z.code * 256) x = w := Option.some.inj h
  have F := encI_fields 0x16 d a (z.code * 256) x (by omega) (by omega) (by omega) (by omega)
  rw [e] at F; obtain ⟨h0, h1, hd, ha, g1, he⟩ := F
  have k1 : w / 512 % 8 = z.code := by omega
  have k2 : w / 4096 % 16 = 0 := by omega
  have k3 : w / 2 % 4 = 0 := by omega
  have k4 : w / 8 % 64 = 0 := by omega
  refine ⟨h0, ?_⟩
  rw [dec_16 h1]
  simp only [dec16, hd, ha, he, k1, k2, k3, k4, toS_self, Width_ofCode] <;> rfl

theorem setvlDb (d a : SReg) (z : Width) (n : Fin 64) (x : Bool) : Statement (.setvlDb d a z n x) := by
  intro _ w h
  have := d.isLt; have := a.isLt; have := Width_lt z; have := n.isLt
  have e : encI 0x16 d a (2048 + z.code * 256 + n.val * 4) x = w := Option.some.inj h
  have F := encI_fields 0x16 d a (2048 + z.code * 256 + n.val * 4) x (by omega) (by omega) (by omega) (by omega)
  rw [e] at F; obtain ⟨h0, h1, hd, ha, g1, he⟩ := F
  have k1 : w / 512 % 8 = z.code := by omega
  have k2 : w / 4096 % 16 = 1 := by omega
  have k3 : w / 2 % 4 = 0 := by omega
  have k4 : Fin.ofNat 64 (w / 8) = n := Fin.ext (by simp only [Fin.ofNat]; omega)
  refine ⟨h0, ?_⟩
  rw [dec_16 h1]
  simp only [dec16, hd, ha, he, k1, k2, k3, k4, toS_self, Width_ofCode] <;> rfl

theorem setvlDbNb (d a : SReg) (z : Width) (n : Fin 64) (x : Bool) : Statement (.setvlDbNb d a z n x) := by
  intro _ w h
  have := d.isLt; have := a.isLt; have := Width_lt z; have := n.isLt
  have e : encI 0x16 d a (4096 + z.code * 256 + n.val * 4) x = w := Option.some.inj h
  have F := encI_fields 0x16 d a (4096 + z.code * 256 + n.val * 4) x (by omega) (by omega) (by omega) (by omega)
  rw [e] at F; obtain ⟨h0, h1, hd, ha, g1, he⟩ := F
  have k1 : w / 512 % 8 = z.code := by omega
  have k2 : w / 4096 % 16 = 2 := by omega
  have k3 : w / 2 % 4 = 0 := by omega
  have k4 : Fin.ofNat 64 (w / 8) = n := Fin.ext (by simp only [Fin.ofNat]; omega)
  refine ⟨h0, ?_⟩
  rw [dec_16 h1]
  simp only [dec16, hd, ha, he, k1, k2, k3, k4, toS_self, Width_ofCode] <;> rfl

theorem vadd (d a b : VReg) (t : IntTy) (x y : Bool) : Statement (.vadd d a b t x y) := by
  intro _ w h
  have := d.isLt; have := a.isLt; have := b.isLt; have := IntTy_lt t
  have e : encOp 0x17 d a b 0 t.code x y = w := Option.some.inj h
  have F := encOp_fields 0x17 d a b 0 t.code x y (by omega) (by omega) (by omega) (by omega) (by omega) (by omega)
  rw [e] at F; obtain ⟨h0, h1, hd, ha, hb, hx, hy, g1, g2⟩ := F
  refine ⟨h0, ?_⟩
  rw [dec_17 h1]
  simp only [dec17, hd, ha, hb, hx, hy, g1, g2, toV_self, IntTy_ofCode]

theorem vsub (d a b : VReg) (t : IntTy) (x y : Bool) : Statement (.vsub d a b t x y) := by
  intro _ w h
  have := d.isLt; have := a.isLt; have := b.isLt; have := IntTy_lt t
  have e : encOp 0x17 d a b 1 t.code x y = w := Option.some.inj h
  have F := encOp_fields 0x17 d a b 1 t.code x y (by omega) (by omega) (by omega) (by omega) (by omega) (by omega)
  rw [e] at F; obtain ⟨h0, h1, hd, ha, hb, hx, hy, g1, g2⟩ := F
  refine ⟨h0, ?_⟩
  rw [dec_17 h1]
  simp only [dec17, hd, ha, hb, hx, hy, g1, g2, toV_self, IntTy_ofCode]

theorem vmul (d a b : VReg) (t : IntTy) (x y : Bool) : Statement (.vmul d a b t x y) := by
  intro _ w h
  have := d.isLt; have := a.isLt; have := b.isLt; have := IntTy_lt t
  have e : encOp 0x17 d a b 2 t.code x y = w := Option.some.inj h
  have F := encOp_fields 0x17 d a b 2 t.code x y (by omega) (by omega) (by omega) (by omega) (by omega) (by omega)
  rw [e] at F; obtain ⟨h0, h1, hd, ha, hb, hx, hy, g1, g2⟩ := F
  refine ⟨h0, ?_⟩
  rw [dec_17 h1]
  simp only [dec17, hd, ha, hb, hx, hy, g1, g2, toV_self, IntTy_ofCode]

theorem vmin (d a b : VReg) (t : IntTy) (x y : Bool) : Statement (.vmin d a b t x y) := by
  intro _ w h
  have := d.isLt; have := a.isLt; have := b.isLt; have := IntTy_lt t
  have e : encOp 0x17 d a b 3 t.code x y = w := Option.some.inj h
  have F := encOp_fields 0x17 d a b 3 t.code x y (by omega) (by omega) (by omega) (by omega) (by omega) (by omega)
  rw [e] at F; obtain ⟨h0, h1, hd, ha, hb, hx, hy, g1, g2⟩ := F
  refine ⟨h0, ?_⟩
  rw [dec_17 h1]
  simp only [dec17, hd, ha, hb, hx, hy, g1, g2, toV_self, IntTy_ofCode]

theorem vmax (d a b : VReg) (t : IntTy) (x y : Bool) : Statement (.vmax d a b t x y) := by
  intro _ w h
  have := d.isLt; have := a.isLt; have := b.isLt; have := IntTy_lt t
  have e : encOp 0x17 d a b 4 t.code x y = w := Option.some.inj h
  have F := encOp_fields 0x17 d a b 4 t.code x y (by omega) (by omega) (by omega) (by omega) (by omega) (by omega)
  rw [e] at F; obtain ⟨h0, h1, hd, ha, hb, hx, hy, g1, g2⟩ := F
  refine ⟨h0, ?_⟩
  rw [dec_17 h1]
  simp only [dec17, hd, ha, hb, hx, hy, g1, g2, toV_self, IntTy_ofCode]

theorem vand (d a b : VReg) (t : IntTy) (x y : Bool) : Statement (.vand d a b t x y) := by
  intro _ w h
  have := d.isLt; have := a.isLt; have := b.isLt; have := IntTy_lt t
  have e : encOp 0x17 d a b 5 t.code x y = w := Option.some.inj h
  have F := encOp_fields 0x17 d a b 5 t.code x y (by omega) (by omega) (by omega) (by omega) (by omega) (by omega)
  rw [e] at F; obtain ⟨h0, h1, hd, ha, hb, hx, hy, g1, g2⟩ := F
  refine ⟨h0, ?_⟩
  rw [dec_17 h1]
  simp only [dec17, hd, ha, hb, hx, hy, g1, g2, toV_self, IntTy_ofCode]

theorem vor (d a b : VReg) (t : IntTy) (x y : Bool) : Statement (.vor d a b t x y) := by
  intro _ w h
  have := d.isLt; have := a.isLt; have := b.isLt; have := IntTy_lt t
  have e : encOp 0x17 d a b 6 t.code x y = w := Option.some.inj h
  have F := encOp_fields 0x17 d a b 6 t.code x y (by omega) (by omega) (by omega) (by omega) (by omega) (by omega)
  rw [e] at F; obtain ⟨h0, h1, hd, ha, hb, hx, hy, g1, g2⟩ := F
  refine ⟨h0, ?_⟩
  rw [dec_17 h1]
  simp only [dec17, hd, ha, hb, hx, hy, g1, g2, toV_self, IntTy_ofCode]

theorem vxor (d a b : VReg) (t : IntTy) (x y : Bool) : Statement (.vxor d a b t x y) := by
  intro _ w h
  have := d.isLt; have := a.isLt; have := b.isLt; have := IntTy_lt t
  have e : encOp 0x17 d a b 7 t.code x y = w := Option.some.inj h
  have F := encOp_fields 0x17 d a b 7 t.code x y (by omega) (by omega) (by omega) (by omega) (by omega) (by omega)
  rw [e] at F; obtain ⟨h0, h1, hd, ha, hb, hx, hy, g1, g2⟩ := F
  refine ⟨h0, ?_⟩
  rw [dec_17 h1]
  simp only [dec17, hd, ha, hb, hx, hy, g1, g2, toV_self, IntTy_ofCode]

theorem vmulh (d a b : VReg) (t : IntTy) (x y : Bool) : Statement (.vmulh d a b t x y) := by
  intro _ w h
  have := d.isLt; have := a.isLt; have := b.isLt; have := IntTy_lt t
  have e : encOp 0x17 d a b 8 t.code x y = w := Option.some.inj h
  have F := encOp_fields 0x17 d a b 8 t.code x y (by omega) (by omega) (by omega) (by omega) (by omega) (by omega)
  rw [e] at F; obtain ⟨h0, h1, hd, ha, hb, hx, hy, g1, g2⟩ := F
  refine ⟨h0, ?_⟩
  rw [dec_17 h1]
  simp only [dec17, hd, ha, hb, hx, hy, g1, g2, toV_self, IntTy_ofCode]

theorem vdiv (d a b : VReg) (t : IntTy) (x y : Bool) : Statement (.vdiv d a b t x y) := by
  intro _ w h
  have := d.isLt; have := a.isLt; have := b.isLt; have := IntTy_lt t
  have e : encOp 0x17 d a b 9 t.code x y = w := Option.some.inj h
  have F := encOp_fields 0x17 d a b 9 t.code x y (by omega) (by omega) (by omega) (by omega) (by omega) (by omega)
  rw [e] at F; obtain ⟨h0, h1, hd, ha, hb, hx, hy, g1, g2⟩ := F
  refine ⟨h0, ?_⟩
  rw [dec_17 h1]
  simp only [dec17, hd, ha, hb, hx, hy, g1, g2, toV_self, IntTy_ofCode]

theorem vrem (d a b : VReg) (t : IntTy) (x y : Bool) : Statement (.vrem d a b t x y) := by
  intro _ w h
  have := d.isLt; have := a.isLt; have := b.isLt; have := IntTy_lt t
  have e : encOp 0x17 d a b 10 t.code x y = w := Option.some.inj h
  have F := encOp_fields 0x17 d a b 10 t.code x y (by omega) (by omega) (by omega) (by omega) (by omega) (by omega)
  rw [e] at F; obtain ⟨h0, h1, hd, ha, hb, hx, hy, g1, g2⟩ := F
  refine ⟨h0, ?_⟩
  rw [dec_17 h1]
  simp only [dec17, hd, ha, hb, hx, hy, g1, g2, toV_self, IntTy_ofCode]

theorem vsll (d a b : VReg) (t : IntTy) (x y : Bool) : Statement (.vsll d a b t x y) := by
  intro _ w h
  have := d.isLt; have := a.isLt; have := b.isLt; have := IntTy_lt t
  have e : encOp 0x17 d a b 11 t.code x y = w := Option.some.inj h
  have F := encOp_fields 0x17 d a b 11 t.code x y (by omega) (by omega) (by omega) (by omega) (by omega) (by omega)
  rw [e] at F; obtain ⟨h0, h1, hd, ha, hb, hx, hy, g1, g2⟩ := F
  refine ⟨h0, ?_⟩
  rw [dec_17 h1]
  simp only [dec17, hd, ha, hb, hx, hy, g1, g2, toV_self, IntTy_ofCode]

theorem vsrl (d a b : VReg) (t : IntTy) (x y : Bool) : Statement (.vsrl d a b t x y) := by
  intro _ w h
  have := d.isLt; have := a.isLt; have := b.isLt; have := IntTy_lt t
  have e : encOp 0x17 d a b 12 t.code x y = w := Option.some.inj h
  have F := encOp_fields 0x17 d a b 12 t.code x y (by omega) (by omega) (by omega) (by omega) (by omega) (by omega)
  rw [e] at F; obtain ⟨h0, h1, hd, ha, hb, hx, hy, g1, g2⟩ := F
  refine ⟨h0, ?_⟩
  rw [dec_17 h1]
  simp only [dec17, hd, ha, hb, hx, hy, g1, g2, toV_self, IntTy_ofCode]

theorem vsra (d a b : VReg) (t : IntTy) (x y : Bool) : Statement (.vsra d a b t x y) := by
  intro _ w h
  have := d.isLt; have := a.isLt; have := b.isLt; have := IntTy_lt t
  have e : encOp 0x17 d a b 13 t.code x y = w := Option.some.inj h
  have F := encOp_fields 0x17 d a b 13 t.code x y (by omega) (by omega) (by omega) (by omega) (by omega) (by omega)
  rw [e] at F; obtain ⟨h0, h1, hd, ha, hb, hx, hy, g1, g2⟩ := F
  refine ⟨h0, ?_⟩
  rw [dec_17 h1]
  simp only [dec17, hd, ha, hb, hx, hy, g1, g2, toV_self, IntTy_ofCode]

theorem vaddSat (d a b : VReg) (t : IntTy) (x y : Bool) : Statement (.vaddSat d a b t x y) := by
  intro _ w h
  have := d.isLt; have := a.isLt; have := b.isLt; have := IntTy_lt t
  have e : encOp 0x17 d a b 14 t.code x y = w := Option.some.inj h
  have F := encOp_fields 0x17 d a b 14 t.code x y (by omega) (by omega) (by omega) (by omega) (by omega) (by omega)
  rw [e] at F; obtain ⟨h0, h1, hd, ha, hb, hx, hy, g1, g2⟩ := F
  refine ⟨h0, ?_⟩
  rw [dec_17 h1]
  simp only [dec17, hd, ha, hb, hx, hy, g1, g2, toV_self, IntTy_ofCode]

theorem vsubSat (d a b : VReg) (t : IntTy) (x y : Bool) : Statement (.vsubSat d a b t x y) := by
  intro _ w h
  have := d.isLt; have := a.isLt; have := b.isLt; have := IntTy_lt t
  have e : encOp 0x17 d a b 15 t.code x y = w := Option.some.inj h
  have F := encOp_fields 0x17 d a b 15 t.code x y (by omega) (by omega) (by omega) (by omega) (by omega) (by omega)
  rw [e] at F; obtain ⟨h0, h1, hd, ha, hb, hx, hy, g1, g2⟩ := F
  refine ⟨h0, ?_⟩
  rw [dec_17 h1]
  simp only [dec17, hd, ha, hb, hx, hy, g1, g2, toV_self, IntTy_ofCode]

theorem vabs (d a : VReg) (t : IntTy) (x : Bool) : Statement (.vabs d a t x) := by
  intro _ w h
  have := d.isLt; have := a.isLt; have := IntTy_lt t
  have e : encOp 0x17 d a 0 16 t.code x false = w := Option.some.inj h
  have F := encOp_fields 0x17 d a 0 16 t.code x false (by omega) (by omega) (by omega) (by omega) (by omega) (by omega)
  rw [e] at F; obtain ⟨h0, h1, hd, ha, hb, hx, hy, g1, g2⟩ := F
  refine ⟨h0, ?_⟩
  rw [dec_17 h1]
  simp only [dec17, hd, ha, hb, hx, hy, g1, g2, toV_self, IntTy_ofCode] <;> rfl

theorem vneg (d a : VReg) (t : IntTy) (x : Bool) : Statement (.vneg d a t x) := by
  intro _ w h
  have := d.isLt; have := a.isLt; have := IntTy_lt t
  have e : encOp 0x17 d a 0 17 t.code x false = w := Option.some.inj h
  have F := encOp_fields 0x17 d a 0 17 t.code x false (by omega) (by omega) (by omega) (by omega) (by omega) (by omega)
  rw [e] at F; obtain ⟨h0, h1, hd, ha, hb, hx, hy, g1, g2⟩ := F
  refine ⟨h0, ?_⟩
  rw [dec_17 h1]
  simp only [dec17, hd, ha, hb, hx, hy, g1, g2, toV_self, IntTy_ofCode] <;> rfl

theorem vmadd (d a b : VReg) (t : IntTy) (x y : Bool) : Statement (.vmadd d a b t x y) := by
  intro _ w h
  have := d.isLt; have := a.isLt; have := b.isLt; have := IntTy_lt t
  have e : encOp 0x17 d a b 18 t.code x y = w := Option.some.inj h
  have F := encOp_fields 0x17 d a b 18 t.code x y (by omega) (by omega) (by omega) (by omega) (by omega) (by omega)
  rw [e] at F; obtain ⟨h0, h1, hd, ha, hb, hx, hy, g1, g2⟩ := F
  refine ⟨h0, ?_⟩
  rw [dec_17 h1]
  simp only [dec17, hd, ha, hb, hx, hy, g1, g2, toV_self, IntTy_ofCode]

theorem vmv (d a : VReg) (t : IntTy) (x : Bool) : Statement (.vmv d a t x) := by
  intro _ w h
  have := d.isLt; have := a.isLt; have := IntTy_lt t
  have e : encOp 0x17 d a 0 19 t.code x false = w := Option.some.inj h
  have F := encOp_fields 0x17 d a 0 19 t.code x false (by omega) (by omega) (by omega) (by omega) (by omega) (by omega)
  rw [e] at F; obtain ⟨h0, h1, hd, ha, hb, hx, hy, g1, g2⟩ := F
  refine ⟨h0, ?_⟩
  rw [dec_17 h1]
  simp only [dec17, hd, ha, hb, hx, hy, g1, g2, toV_self, IntTy_ofCode] <;> rfl

theorem vfadd (d a b : VReg) (t : VFltTy) (x y : Bool) : Statement (.vfadd d a b t x y) := by
  intro _ w h
  have := d.isLt; have := a.isLt; have := b.isLt; have := VFltTy_lt t
  have e : encOp 0x18 d a b 0 t.code x y = w := Option.some.inj h
  have F := encOp_fields 0x18 d a b 0 t.code x y (by omega) (by omega) (by omega) (by omega) (by omega) (by omega)
  rw [e] at F; obtain ⟨h0, h1, hd, ha, hb, hx, hy, g1, g2⟩ := F
  refine ⟨h0, ?_⟩
  rw [dec_18 h1]
  simp only [dec18, hd, ha, hb, hx, hy, g1, g2, toV_self, VFltTy_ofCode]

theorem vfsub (d a b : VReg) (t : VFltTy) (x y : Bool) : Statement (.vfsub d a b t x y) := by
  intro _ w h
  have := d.isLt; have := a.isLt; have := b.isLt; have := VFltTy_lt t
  have e : encOp 0x18 d a b 1 t.code x y = w := Option.some.inj h
  have F := encOp_fields 0x18 d a b 1 t.code x y (by omega) (by omega) (by omega) (by omega) (by omega) (by omega)
  rw [e] at F; obtain ⟨h0, h1, hd, ha, hb, hx, hy, g1, g2⟩ := F
  refine ⟨h0, ?_⟩
  rw [dec_18 h1]
  simp only [dec18, hd, ha, hb, hx, hy, g1, g2, toV_self, VFltTy_ofCode]

theorem vfmul (d a b : VReg) (t : VFltTy) (x y : Bool) : Statement (.vfmul d a b t x y) := by
  intro _ w h
  have := d.isLt; have := a.isLt; have := b.isLt; have := VFltTy_lt t
  have e : encOp 0x18 d a b 2 t.code x y = w := Option.some.inj h
  have F := encOp_fields 0x18 d a b 2 t.code x y (by omega) (by omega) (by omega) (by omega) (by omega) (by omega)
  rw [e] at F; obtain ⟨h0, h1, hd, ha, hb, hx, hy, g1, g2⟩ := F
  refine ⟨h0, ?_⟩
  rw [dec_18 h1]
  simp only [dec18, hd, ha, hb, hx, hy, g1, g2, toV_self, VFltTy_ofCode]

theorem vfdiv (d a b : VReg) (t : VFltTy) (x y : Bool) : Statement (.vfdiv d a b t x y) := by
  intro _ w h
  have := d.isLt; have := a.isLt; have := b.isLt; have := VFltTy_lt t
  have e : encOp 0x18 d a b 3 t.code x y = w := Option.some.inj h
  have F := encOp_fields 0x18 d a b 3 t.code x y (by omega) (by omega) (by omega) (by omega) (by omega) (by omega)
  rw [e] at F; obtain ⟨h0, h1, hd, ha, hb, hx, hy, g1, g2⟩ := F
  refine ⟨h0, ?_⟩
  rw [dec_18 h1]
  simp only [dec18, hd, ha, hb, hx, hy, g1, g2, toV_self, VFltTy_ofCode]

theorem vfmin (d a b : VReg) (t : VFltTy) (x y : Bool) : Statement (.vfmin d a b t x y) := by
  intro _ w h
  have := d.isLt; have := a.isLt; have := b.isLt; have := VFltTy_lt t
  have e : encOp 0x18 d a b 4 t.code x y = w := Option.some.inj h
  have F := encOp_fields 0x18 d a b 4 t.code x y (by omega) (by omega) (by omega) (by omega) (by omega) (by omega)
  rw [e] at F; obtain ⟨h0, h1, hd, ha, hb, hx, hy, g1, g2⟩ := F
  refine ⟨h0, ?_⟩
  rw [dec_18 h1]
  simp only [dec18, hd, ha, hb, hx, hy, g1, g2, toV_self, VFltTy_ofCode]

theorem vfmax (d a b : VReg) (t : VFltTy) (x y : Bool) : Statement (.vfmax d a b t x y) := by
  intro _ w h
  have := d.isLt; have := a.isLt; have := b.isLt; have := VFltTy_lt t
  have e : encOp 0x18 d a b 5 t.code x y = w := Option.some.inj h
  have F := encOp_fields 0x18 d a b 5 t.code x y (by omega) (by omega) (by omega) (by omega) (by omega) (by omega)
  rw [e] at F; obtain ⟨h0, h1, hd, ha, hb, hx, hy, g1, g2⟩ := F
  refine ⟨h0, ?_⟩
  rw [dec_18 h1]
  simp only [dec18, hd, ha, hb, hx, hy, g1, g2, toV_self, VFltTy_ofCode]

theorem vfma (d a b : VReg) (t : VFltTy) (x y : Bool) : Statement (.vfma d a b t x y) := by
  intro _ w h
  have := d.isLt; have := a.isLt; have := b.isLt; have := VFltTy_lt t
  have e : encOp 0x18 d a b 6 t.code x y = w := Option.some.inj h
  have F := encOp_fields 0x18 d a b 6 t.code x y (by omega) (by omega) (by omega) (by omega) (by omega) (by omega)
  rw [e] at F; obtain ⟨h0, h1, hd, ha, hb, hx, hy, g1, g2⟩ := F
  refine ⟨h0, ?_⟩
  rw [dec_18 h1]
  simp only [dec18, hd, ha, hb, hx, hy, g1, g2, toV_self, VFltTy_ofCode]

theorem vfnma (d a b : VReg) (t : VFltTy) (x y : Bool) : Statement (.vfnma d a b t x y) := by
  intro _ w h
  have := d.isLt; have := a.isLt; have := b.isLt; have := VFltTy_lt t
  have e : encOp 0x18 d a b 7 t.code x y = w := Option.some.inj h
  have F := encOp_fields 0x18 d a b 7 t.code x y (by omega) (by omega) (by omega) (by omega) (by omega) (by omega)
  rw [e] at F; obtain ⟨h0, h1, hd, ha, hb, hx, hy, g1, g2⟩ := F
  refine ⟨h0, ?_⟩
  rw [dec_18 h1]
  simp only [dec18, hd, ha, hb, hx, hy, g1, g2, toV_self, VFltTy_ofCode]

theorem vfms (d a b : VReg) (t : VFltTy) (x y : Bool) : Statement (.vfms d a b t x y) := by
  intro _ w h
  have := d.isLt; have := a.isLt; have := b.isLt; have := VFltTy_lt t
  have e : encOp 0x18 d a b 8 t.code x y = w := Option.some.inj h
  have F := encOp_fields 0x18 d a b 8 t.code x y (by omega) (by omega) (by omega) (by omega) (by omega) (by omega)
  rw [e] at F; obtain ⟨h0, h1, hd, ha, hb, hx, hy, g1, g2⟩ := F
  refine ⟨h0, ?_⟩
  rw [dec_18 h1]
  simp only [dec18, hd, ha, hb, hx, hy, g1, g2, toV_self, VFltTy_ofCode]

theorem vfnms (d a b : VReg) (t : VFltTy) (x y : Bool) : Statement (.vfnms d a b t x y) := by
  intro _ w h
  have := d.isLt; have := a.isLt; have := b.isLt; have := VFltTy_lt t
  have e : encOp 0x18 d a b 9 t.code x y = w := Option.some.inj h
  have F := encOp_fields 0x18 d a b 9 t.code x y (by omega) (by omega) (by omega) (by omega) (by omega) (by omega)
  rw [e] at F; obtain ⟨h0, h1, hd, ha, hb, hx, hy, g1, g2⟩ := F
  refine ⟨h0, ?_⟩
  rw [dec_18 h1]
  simp only [dec18, hd, ha, hb, hx, hy, g1, g2, toV_self, VFltTy_ofCode]

theorem vfcopys (d a b : VReg) (t : VFltTy) (x y : Bool) : Statement (.vfcopys d a b t x y) := by
  intro _ w h
  have := d.isLt; have := a.isLt; have := b.isLt; have := VFltTy_lt t
  have e : encOp 0x18 d a b 10 t.code x y = w := Option.some.inj h
  have F := encOp_fields 0x18 d a b 10 t.code x y (by omega) (by omega) (by omega) (by omega) (by omega) (by omega)
  rw [e] at F; obtain ⟨h0, h1, hd, ha, hb, hx, hy, g1, g2⟩ := F
  refine ⟨h0, ?_⟩
  rw [dec_18 h1]
  simp only [dec18, hd, ha, hb, hx, hy, g1, g2, toV_self, VFltTy_ofCode]

theorem vfcopyn (d a b : VReg) (t : VFltTy) (x y : Bool) : Statement (.vfcopyn d a b t x y) := by
  intro _ w h
  have := d.isLt; have := a.isLt; have := b.isLt; have := VFltTy_lt t
  have e : encOp 0x18 d a b 11 t.code x y = w := Option.some.inj h
  have F := encOp_fields 0x18 d a b 11 t.code x y (by omega) (by omega) (by omega) (by omega) (by omega) (by omega)
  rw [e] at F; obtain ⟨h0, h1, hd, ha, hb, hx, hy, g1, g2⟩ := F
  refine ⟨h0, ?_⟩
  rw [dec_18 h1]
  simp only [dec18, hd, ha, hb, hx, hy, g1, g2, toV_self, VFltTy_ofCode]

theorem vfxors (d a b : VReg) (t : VFltTy) (x y : Bool) : Statement (.vfxors d a b t x y) := by
  intro _ w h
  have := d.isLt; have := a.isLt; have := b.isLt; have := VFltTy_lt t
  have e : encOp 0x18 d a b 12 t.code x y = w := Option.some.inj h
  have F := encOp_fields 0x18 d a b 12 t.code x y (by omega) (by omega) (by omega) (by omega) (by omega) (by omega)
  rw [e] at F; obtain ⟨h0, h1, hd, ha, hb, hx, hy, g1, g2⟩ := F
  refine ⟨h0, ?_⟩
  rw [dec_18 h1]
  simp only [dec18, hd, ha, hb, hx, hy, g1, g2, toV_self, VFltTy_ofCode]

theorem vfabs (d a : VReg) (t : VFltTy) (x : Bool) : Statement (.vfabs d a t x) := by
  intro _ w h
  have := d.isLt; have := a.isLt; have := VFltTy_lt t
  have e : encOp 0x18 d a 0 13 t.code x false = w := Option.some.inj h
  have F := encOp_fields 0x18 d a 0 13 t.code x false (by omega) (by omega) (by omega) (by omega) (by omega) (by omega)
  rw [e] at F; obtain ⟨h0, h1, hd, ha, hb, hx, hy, g1, g2⟩ := F
  refine ⟨h0, ?_⟩
  rw [dec_18 h1]
  simp only [dec18, hd, ha, hb, hx, hy, g1, g2, toV_self, VFltTy_ofCode] <;> rfl

theorem vfneg (d a : VReg) (t : VFltTy) (x : Bool) : Statement (.vfneg d a t x) := by
  intro _ w h
  have := d.isLt; have := a.isLt; have := VFltTy_lt t
  have e : encOp 0x18 d a 0 14 t.code x false = w := Option.some.inj h
  have F := encOp_fields 0x18 d a 0 14 t.code x false (by omega) (by omega) (by omega) (by omega) (by omega) (by omega)
  rw [e] at F; obtain ⟨h0, h1, hd, ha, hb, hx, hy, g1, g2⟩ := F
  refine ⟨h0, ?_⟩
  rw [dec_18 h1]
  simp only [dec18, hd, ha, hb, hx, hy, g1, g2, toV_self, VFltTy_ofCode] <;> rfl

theorem vfmv (d a : VReg) (t : VFltTy) (x : Bool) : Statement (.vfmv d a t x) := by
  intro _ w h
  have := d.isLt; have := a.isLt; have := VFltTy_lt t
  have e : encOp 0x18 d a 0 15 t.code x false = w := Option.some.inj h
  have F := encOp_fields 0x18 d a 0 15 t.code x false (by omega) (by omega) (by omega) (by omega) (by omega) (by omega)
  rw [e] at F; obtain ⟨h0, h1, hd, ha, hb, hx, hy, g1, g2⟩ := F
  refine ⟨h0, ?_⟩
  rw [dec_18 h1]
  simp only [dec18, hd, ha, hb, hx, hy, g1, g2, toV_self, VFltTy_ofCode] <;> rfl

theorem vwfma (d a b : VReg) (t : FltTy) (x y : Bool) : Statement (.vwfma d a b t x y) := by
  intro hw w h
  have := d.isLt; have := a.isLt; have := b.isLt; have := FltTy_lt t
  have e : encOp 0x19 d a b 0 t.code x y = w := Option.some.inj h
  have F := encOp_fields 0x19 d a b 0 t.code x y (by omega) (by omega) (by omega) (by omega) (by omega) (by omega)
  rw [e] at F; obtain ⟨h0, h1, hd, ha, hb, hx, hy, g1, g2⟩ := F
  refine ⟨h0, ?_⟩
  rw [dec_19 h1]
  simp only [dec19, hd, ha, hb, hx, hy, g1, g2, toV_self, FltTy_ofCode] <;>
    (exact checked_group _ _ _ hw)

theorem vwfms (d a b : VReg) (t : FltTy) (x y : Bool) : Statement (.vwfms d a b t x y) := by
  intro hw w h
  have := d.isLt; have := a.isLt; have := b.isLt; have := FltTy_lt t
  have e : encOp 0x19 d a b 1 t.code x y = w := Option.some.inj h
  have F := encOp_fields 0x19 d a b 1 t.code x y (by omega) (by omega) (by omega) (by omega) (by omega) (by omega)
  rw [e] at F; obtain ⟨h0, h1, hd, ha, hb, hx, hy, g1, g2⟩ := F
  refine ⟨h0, ?_⟩
  rw [dec_19 h1]
  simp only [dec19, hd, ha, hb, hx, hy, g1, g2, toV_self, FltTy_ofCode] <;>
    (exact checked_group _ _ _ hw)

theorem vwmul (d a b : VReg) (t : FltTy) (x y : Bool) : Statement (.vwmul d a b t x y) := by
  intro hw w h
  have := d.isLt; have := a.isLt; have := b.isLt; have := FltTy_lt t
  have e : encOp 0x19 d a b 2 t.code x y = w := Option.some.inj h
  have F := encOp_fields 0x19 d a b 2 t.code x y (by omega) (by omega) (by omega) (by omega) (by omega) (by omega)
  rw [e] at F; obtain ⟨h0, h1, hd, ha, hb, hx, hy, g1, g2⟩ := F
  refine ⟨h0, ?_⟩
  rw [dec_19 h1]
  simp only [dec19, hd, ha, hb, hx, hy, g1, g2, toV_self, FltTy_ofCode] <;>
    (exact checked_group _ _ _ hw)

theorem vwmadd (d a b : VReg) (t : IntTy) (x y : Bool) : Statement (.vwmadd d a b t x y) := by
  intro hw w h
  have := d.isLt; have := a.isLt; have := b.isLt; have := IntTy_lt t
  have e : encOp 0x19 d a b 16 t.code x y = w := Option.some.inj h
  have F := encOp_fields 0x19 d a b 16 t.code x y (by omega) (by omega) (by omega) (by omega) (by omega) (by omega)
  rw [e] at F; obtain ⟨h0, h1, hd, ha, hb, hx, hy, g1, g2⟩ := F
  refine ⟨h0, ?_⟩
  rw [dec_19 h1]
  simp only [dec19, hd, ha, hb, hx, hy, g1, g2, toV_self, IntTy_ofCode] <;>
    (exact checked_group _ _ _ hw)

theorem vwimul (d a b : VReg) (t : IntTy) (x y : Bool) : Statement (.vwimul d a b t x y) := by
  intro hw w h
  have := d.isLt; have := a.isLt; have := b.isLt; have := IntTy_lt t
  have e : encOp 0x19 d a b 17 t.code x y = w := Option.some.inj h
  have F := encOp_fields 0x19 d a b 17 t.code x y (by omega) (by omega) (by omega) (by omega) (by omega) (by omega)
  rw [e] at F; obtain ⟨h0, h1, hd, ha, hb, hx, hy, g1, g2⟩ := F
  refine ⟨h0, ?_⟩
  rw [dec_19 h1]
  simp only [dec19, hd, ha, hb, hx, hy, g1, g2, toV_self, IntTy_ofCode] <;>
    (exact checked_group _ _ _ hw)

theorem vcmp (d : MReg) (a b : VReg) (rel : Rel) (t : ElemTy) (x y : Bool) : Statement (.vcmp d a b rel t x y) := by
  intro _ w h
  have := d.isLt; have := a.isLt; have := b.isLt; have := Rel_lt rel; have := ElemTy_lt t; have := ElemTy_cls_lt t
  have e : encA 0x1A d a b (t.cls * 256 + rel.code * 32 + t.code) x y = w := Option.some.inj h
  have F := enc1A_fields d a b t.cls rel.code t.code x y (by omega) (by omega) (by omega) (by omega) (by omega) (by
     omega)
  rw [e] at F; obtain ⟨h0, h1, hd, ha, hb, hx, hy, g1, g2, g3, g4⟩ := F
  refine ⟨h0, ?_⟩
  rw [dec_1A h1]
  simp only [dec1A, hd, ha, hb, hx, hy, g1, g2, g3, g4, toM_self, high_lt d.isLt, toV_self, Rel_ofCode,
     ElemTy_ofCode] <;> rfl

theorem mand (d a b : MReg) : Statement (.mand d a b) := by
  intro _ w h
  have := d.isLt; have := a.isLt; have := b.isLt
  have e : encA 0x1B d a b 0 false false = w := Option.some.inj h
  have F := encA_fields 0x1B d a b 0 false false (by omega) (by omega) (by omega) (by omega) (by omega)
  rw [e] at F; obtain ⟨h0, h1, hd, ha, hb, hf, hx, hy⟩ := F
  refine ⟨h0, ?_⟩
  rw [dec_1B h1]
  simp only [dec1B, hd, ha, hb, hf, hx, hy, toM_self, high_lt d.isLt, high_lt a.isLt, high_lt b.isLt] <;> rfl

theorem mor (d a b : MReg) : Statement (.mor d a b) := by
  intro _ w h
  have := d.isLt; have := a.isLt; have := b.isLt
  have e : encA 0x1B d a b 1 false false = w := Option.some.inj h
  have F := encA_fields 0x1B d a b 1 false false (by omega) (by omega) (by omega) (by omega) (by omega)
  rw [e] at F; obtain ⟨h0, h1, hd, ha, hb, hf, hx, hy⟩ := F
  refine ⟨h0, ?_⟩
  rw [dec_1B h1]
  simp only [dec1B, hd, ha, hb, hf, hx, hy, toM_self, high_lt d.isLt, high_lt a.isLt, high_lt b.isLt] <;> rfl

theorem mxor (d a b : MReg) : Statement (.mxor d a b) := by
  intro _ w h
  have := d.isLt; have := a.isLt; have := b.isLt
  have e : encA 0x1B d a b 2 false false = w := Option.some.inj h
  have F := encA_fields 0x1B d a b 2 false false (by omega) (by omega) (by omega) (by omega) (by omega)
  rw [e] at F; obtain ⟨h0, h1, hd, ha, hb, hf, hx, hy⟩ := F
  refine ⟨h0, ?_⟩
  rw [dec_1B h1]
  simp only [dec1B, hd, ha, hb, hf, hx, hy, toM_self, high_lt d.isLt, high_lt a.isLt, high_lt b.isLt] <;> rfl

theorem mandn (d a b : MReg) : Statement (.mandn d a b) := by
  intro _ w h
  have := d.isLt; have := a.isLt; have := b.isLt
  have e : encA 0x1B d a b 3 false false = w := Option.some.inj h
  have F := encA_fields 0x1B d a b 3 false false (by omega) (by omega) (by omega) (by omega) (by omega)
  rw [e] at F; obtain ⟨h0, h1, hd, ha, hb, hf, hx, hy⟩ := F
  refine ⟨h0, ?_⟩
  rw [dec_1B h1]
  simp only [dec1B, hd, ha, hb, hf, hx, hy, toM_self, high_lt d.isLt, high_lt a.isLt, high_lt b.isLt] <;> rfl

theorem mnot (d a : MReg) : Statement (.mnot d a) := by
  intro _ w h
  have := d.isLt; have := a.isLt
  have e : encA 0x1B d a 0 4 false false = w := Option.some.inj h
  have F := encA_fields 0x1B d a 0 4 false false (by omega) (by omega) (by omega) (by omega) (by omega)
  rw [e] at F; obtain ⟨h0, h1, hd, ha, hb, hf, hx, hy⟩ := F
  refine ⟨h0, ?_⟩
  rw [dec_1B h1]
  simp only [dec1B, hd, ha, hb, hf, hx, hy, toM_self, high_lt d.isLt, high_lt a.isLt] <;> rfl

theorem mmov (d : MReg) (a : MaskSrc) : Statement (.mmov d a) := by
  intro _ w h
  have := d.isLt
  cases a with
  | msm =>
    have e : encA 0x1B d 8 0 5 false false = w := Option.some.inj h
    have F := encA_fields 0x1B d 8 0 5 false false (by omega) (by omega) (by omega) (by omega) (by omega)
    rw [e] at F; obtain ⟨h0, h1, hd, ha, hb, hf, hx, hy⟩ := F
    refine ⟨h0, ?_⟩
    rw [dec_1B h1]
    simp only [dec1B, hd, ha, hb, hf, hx, hy, toM_self, high_lt d.isLt] <;> rfl
  | m r =>
    have := r.isLt
    have e : encA 0x1B d r 0 5 false false = w := Option.some.inj h
    have F := encA_fields 0x1B d r 0 5 false false (by omega) (by omega) (by omega) (by omega) (by omega)
    rw [e] at F; obtain ⟨h0, h1, hd, ha, hb, hf, hx, hy⟩ := F
    have k : ¬(r.val = 8) := by omega
    refine ⟨h0, ?_⟩
    rw [dec_1B h1]
    simp only [dec1B, hd, ha, hb, hf, hx, hy, toM_self, high_lt d.isLt, high_lt r.isLt, if_neg k] <;> rfl

theorem mcpop (d : SReg) (a : MReg) : Statement (.mcpop d a) := by
  intro _ w h
  have := d.isLt; have := a.isLt
  have e : encA 0x1B d a 0 6 false false = w := Option.some.inj h
  have F := encA_fields 0x1B d a 0 6 false false (by omega) (by omega) (by omega) (by omega) (by omega)
  rw [e] at F; obtain ⟨h0, h1, hd, ha, hb, hf, hx, hy⟩ := F
  refine ⟨h0, ?_⟩
  rw [dec_1B h1]
  simp only [dec1B, hd, ha, hb, hf, hx, hy, toS_self, toM_self, high_lt a.isLt] <;> rfl

theorem mfirst (d : SReg) (a : MReg) : Statement (.mfirst d a) := by
  intro _ w h
  have := d.isLt; have := a.isLt
  have e : encA 0x1B d a 0 7 false false = w := Option.some.inj h
  have F := encA_fields 0x1B d a 0 7 false false (by omega) (by omega) (by omega) (by omega) (by omega)
  rw [e] at F; obtain ⟨h0, h1, hd, ha, hb, hf, hx, hy⟩ := F
  refine ⟨h0, ?_⟩
  rw [dec_1B h1]
  simp only [dec1B, hd, ha, hb, hf, hx, hy, toS_self, toM_self, high_lt a.isLt] <;> rfl

theorem vpush (d a b : VReg) (t : ElemTy) (x y : Bool) : Statement (.vpush d a b t x y) := by
  intro _ w h
  have := d.isLt; have := a.isLt; have := b.isLt; have := ElemTy_lt t; have := ElemTy_cls_lt t
  have e : encX d a b 0 t.cls t.code x y = w := Option.some.inj h
  have F := encX_fields d a b 0 t.cls t.code x y (by omega) (by omega) (by omega) (by omega) (by omega) (by omega)
  rw [e] at F; obtain ⟨h0, h1, hd, ha, hb, hx, hy, g1, g2, g3⟩ := F
  refine ⟨h0, ?_⟩
  rw [dec_1C h1]
  simp only [dec1C, hd, ha, hb, hx, hy, g1, g2, g3, toV_self, ElemTy_ofCode]

theorem vpushAdd (d a b : VReg) (t : ElemTy) (x y : Bool) : Statement (.vpushAdd d a b t x y) := by
  intro hw w h
  have := d.isLt; have := a.isLt; have := b.isLt; have := ElemTy_lt t; have := ElemTy_cls_lt t
  have e : encX d a b 1 t.cls t.code x y = w := Option.some.inj h
  have F := encX_fields d a b 1 t.cls t.code x y (by omega) (by omega) (by omega) (by omega) (by omega) (by omega)
  rw [e] at F; obtain ⟨h0, h1, hd, ha, hb, hx, hy, g1, g2, g3⟩ := F
  have k : t.summable = true := hw
  refine ⟨h0, ?_⟩
  rw [dec_1C h1]
  simp only [dec1C, hd, ha, hb, hx, hy, g1, g2, g3, k, toV_self, ElemTy_ofCode] <;> rfl

theorem vpull (d a b : VReg) (t : ElemTy) (x y : Bool) : Statement (.vpull d a b t x y) := by
  intro _ w h
  have := d.isLt; have := a.isLt; have := b.isLt; have := ElemTy_lt t; have := ElemTy_cls_lt t
  have e : encX d a b 2 t.cls t.code x y = w := Option.some.inj h
  have F := encX_fields d a b 2 t.cls t.code x y (by omega) (by omega) (by omega) (by omega) (by omega) (by omega)
  rw [e] at F; obtain ⟨h0, h1, hd, ha, hb, hx, hy, g1, g2, g3⟩ := F
  refine ⟨h0, ?_⟩
  rw [dec_1C h1]
  simp only [dec1C, hd, ha, hb, hx, hy, g1, g2, g3, toV_self, ElemTy_ofCode]

theorem vcmpr (d a : VReg) (t : ElemTy) (x : Bool) : Statement (.vcmpr d a t x) := by
  intro _ w h
  have := d.isLt; have := a.isLt; have := ElemTy_lt t; have := ElemTy_cls_lt t
  have e : encX d a 0 3 t.cls t.code x false = w := Option.some.inj h
  have F := encX_fields d a 0 3 t.cls t.code x false (by omega) (by omega) (by omega) (by omega) (by omega) (by omega)
  rw [e] at F; obtain ⟨h0, h1, hd, ha, hb, hx, hy, g1, g2, g3⟩ := F
  refine ⟨h0, ?_⟩
  rw [dec_1C h1]
  simp only [dec1C, hd, ha, hb, hx, hy, g1, g2, g3, toV_self, ElemTy_ofCode] <;> rfl

theorem vcmprTh (d a : VReg) (b : SReg) (t : ElemTy) (x y : Bool) : Statement (.vcmprTh d a b t x y) := by
  intro hw w h
  have := d.isLt; have := a.isLt; have := b.isLt; have := ElemTy_lt t; have := ElemTy_cls_lt t
  have e : encX d a b 4 t.cls t.code x y = w := Option.some.inj h
  have F := encX_fields d a b 4 t.cls t.code x y (by omega) (by omega) (by omega) (by omega) (by omega) (by omega)
  rw [e] at F; obtain ⟨h0, h1, hd, ha, hb, hx, hy, g1, g2, g3⟩ := F
  obtain ⟨k, k0⟩ := and_true_of hw
  refine ⟨h0, ?_⟩
  rw [dec_1C h1]
  simp only [dec1C, hd, ha, hb, hx, hy, g1, g2, g3, k, toV_self, toS_self, ElemTy_ofCode] <;>
    (exact checked_of _ (offGroup_of k0))

theorem vexpand (d a : VReg) (t : ElemTy) (x : Bool) : Statement (.vexpand d a t x) := by
  intro _ w h
  have := d.isLt; have := a.isLt; have := ElemTy_lt t; have := ElemTy_cls_lt t
  have e : encX d a 0 5 t.cls t.code x false = w := Option.some.inj h
  have F := encX_fields d a 0 5 t.cls t.code x false (by omega) (by omega) (by omega) (by omega) (by omega) (by omega)
  rw [e] at F; obtain ⟨h0, h1, hd, ha, hb, hx, hy, g1, g2, g3⟩ := F
  refine ⟨h0, ?_⟩
  rw [dec_1C h1]
  simp only [dec1C, hd, ha, hb, hx, hy, g1, g2, g3, toV_self, ElemTy_ofCode] <;> rfl

theorem vslideUp (d a : VReg) (b : SReg) (t : ElemTy) (x y : Bool) : Statement (.vslideUp d a b t x y) := by
  intro _ w h
  have := d.isLt; have := a.isLt; have := b.isLt; have := ElemTy_lt t; have := ElemTy_cls_lt t
  have e : encX d a b 6 t.cls t.code x y = w := Option.some.inj h
  have F := encX_fields d a b 6 t.cls t.code x y (by omega) (by omega) (by omega) (by omega) (by omega) (by omega)
  rw [e] at F; obtain ⟨h0, h1, hd, ha, hb, hx, hy, g1, g2, g3⟩ := F
  refine ⟨h0, ?_⟩
  rw [dec_1C h1]
  simp only [dec1C, hd, ha, hb, hx, hy, g1, g2, g3, toV_self, toS_self, ElemTy_ofCode]

theorem vslideDn (d a : VReg) (b : SReg) (t : ElemTy) (x y : Bool) : Statement (.vslideDn d a b t x y) := by
  intro _ w h
  have := d.isLt; have := a.isLt; have := b.isLt; have := ElemTy_lt t; have := ElemTy_cls_lt t
  have e : encX d a b 7 t.cls t.code x y = w := Option.some.inj h
  have F := encX_fields d a b 7 t.cls t.code x y (by omega) (by omega) (by omega) (by omega) (by omega) (by omega)
  rw [e] at F; obtain ⟨h0, h1, hd, ha, hb, hx, hy, g1, g2, g3⟩ := F
  refine ⟨h0, ?_⟩
  rw [dec_1C h1]
  simp only [dec1C, hd, ha, hb, hx, hy, g1, g2, g3, toV_self, toS_self, ElemTy_ofCode]

theorem vbcast (d a : VReg) (b : SReg) (t : ElemTy) (x y : Bool) : Statement (.vbcast d a b t x y) := by
  intro _ w h
  have := d.isLt; have := a.isLt; have := b.isLt; have := ElemTy_lt t; have := ElemTy_cls_lt t
  have e : encX d a b 8 t.cls t.code x y = w := Option.some.inj h
  have F := encX_fields d a b 8 t.cls t.code x y (by omega) (by omega) (by omega) (by omega) (by omega) (by omega)
  rw [e] at F; obtain ⟨h0, h1, hd, ha, hb, hx, hy, g1, g2, g3⟩ := F
  refine ⟨h0, ?_⟩
  rw [dec_1C h1]
  simp only [dec1C, hd, ha, hb, hx, hy, g1, g2, g3, toV_self, toS_self, ElemTy_ofCode]

theorem vext (d : SReg) (a : VReg) (b : SReg) (t : ElemTy) (x y : Bool) : Statement (.vext d a b t x y) := by
  intro _ w h
  have := d.isLt; have := a.isLt; have := b.isLt; have := ElemTy_lt t; have := ElemTy_cls_lt t
  have e : encX d a b 9 t.cls t.code x y = w := Option.some.inj h
  have F := encX_fields d a b 9 t.cls t.code x y (by omega) (by omega) (by omega) (by omega) (by omega) (by omega)
  rw [e] at F; obtain ⟨h0, h1, hd, ha, hb, hx, hy, g1, g2, g3⟩ := F
  refine ⟨h0, ?_⟩
  rw [dec_1C h1]
  simp only [dec1C, hd, ha, hb, hx, hy, g1, g2, g3, toS_self, toV_self, ElemTy_ofCode]

theorem vrsum (d : SReg) (a : VReg) (b : SReg) (t : ElemTy) (x y : Bool) : Statement (.vrsum d a b t x y) := by
  intro hw w h
  have := d.isLt; have := a.isLt; have := b.isLt; have := ElemTy_lt t; have := ElemTy_cls_lt t
  have e : encX d a b 10 t.cls t.code x y = w := Option.some.inj h
  have F := encX_fields d a b 10 t.cls t.code x y (by omega) (by omega) (by omega) (by omega) (by omega) (by omega)
  rw [e] at F; obtain ⟨h0, h1, hd, ha, hb, hx, hy, g1, g2, g3⟩ := F
  have k : t.summable = true := hw
  refine ⟨h0, ?_⟩
  rw [dec_1C h1]
  simp only [dec1C, hd, ha, hb, hx, hy, g1, g2, g3, k, toS_self, toV_self, ElemTy_ofCode] <;> rfl

theorem vrmax (d : SReg) (a : VReg) (b : SReg) (t : ElemTy) (x y : Bool) : Statement (.vrmax d a b t x y) := by
  intro hw w h
  have := d.isLt; have := a.isLt; have := b.isLt; have := ElemTy_lt t; have := ElemTy_cls_lt t
  have e : encX d a b 11 t.cls t.code x y = w := Option.some.inj h
  have F := encX_fields d a b 11 t.cls t.code x y (by omega) (by omega) (by omega) (by omega) (by omega) (by omega)
  rw [e] at F; obtain ⟨h0, h1, hd, ha, hb, hx, hy, g1, g2, g3⟩ := F
  have k : t.summable = true := hw
  refine ⟨h0, ?_⟩
  rw [dec_1C h1]
  simp only [dec1C, hd, ha, hb, hx, hy, g1, g2, g3, k, toS_self, toV_self, ElemTy_ofCode] <;> rfl

theorem vrmin (d : SReg) (a : VReg) (b : SReg) (t : ElemTy) (x y : Bool) : Statement (.vrmin d a b t x y) := by
  intro hw w h
  have := d.isLt; have := a.isLt; have := b.isLt; have := ElemTy_lt t; have := ElemTy_cls_lt t
  have e : encX d a b 12 t.cls t.code x y = w := Option.some.inj h
  have F := encX_fields d a b 12 t.cls t.code x y (by omega) (by omega) (by omega) (by omega) (by omega) (by omega)
  rw [e] at F; obtain ⟨h0, h1, hd, ha, hb, hx, hy, g1, g2, g3⟩ := F
  have k : t.summable = true := hw
  refine ⟨h0, ?_⟩
  rw [dec_1C h1]
  simp only [dec1C, hd, ha, hb, hx, hy, g1, g2, g3, k, toS_self, toV_self, ElemTy_ofCode] <;> rfl

theorem vidx (d : VReg) (st : BitVec 11) (sp : BitVec 10) : Statement (.vidx d st sp) := by
  intro _ w h
  have := d.isLt; have := st.isLt; have := sp.isLt
  have e : encU 0x1D d (st.toNat * 1024 + sp.toNat) = w := Option.some.inj h
  have F := encU_fields 0x1D d (st.toNat * 1024 + sp.toNat) (by omega) (by omega) (by omega)
  rw [e] at F; obtain ⟨h0, h1, hd, g1⟩ := F
  have k1 : BitVec.ofNat 11 (w / 1024) = st := ofNat_eq st _ (by omega)
  have k2 : BitVec.ofNat 10 w = sp := ofNat_eq sp _ (by omega)
  refine ⟨h0, ?_⟩
  rw [dec_1D h1]
  simp only [dec1D, hd, k1, k2, toV_self]

theorem vld (d : VReg) (a : SReg) (disp : BitVec 12) (z : Size) (x : Bool) : Statement (.vld d a disp z x) := by
  intro _ w h
  have := d.isLt; have := a.isLt; have := disp.isLt; have := Size_lt z
  have e : encM 0x1E d a disp.toNat z.code false x = w := Option.some.inj h
  have F := encM_fields 0x1E d a disp.toNat z false x (by omega) (by omega) (by omega) (by omega)
  rw [e] at F; obtain ⟨h0, h1, hd, ha, g1, hz, ho, he⟩ := F
  have k1 : wDisp w = disp := ofNat_eq disp _ (by omega)
  refine ⟨h0, ?_⟩
  rw [dec_1E h1]
  simp only [dec1E, hd, ha, hz, ho, he, k1, toV_self, toS_self] <;> rfl

theorem vlds (d : VReg) (a : SReg) (disp : BitVec 12) (z : Size) (x : Bool) : Statement (.vlds d a disp z x) := by
  intro _ w h
  have := d.isLt; have := a.isLt; have := disp.isLt; have := Size_lt z
  have e : encM 0x1E d a disp.toNat z.code true x = w := Option.some.inj h
  have F := encM_fields 0x1E d a disp.toNat z true x (by omega) (by omega) (by omega) (by omega)
  rw [e] at F; obtain ⟨h0, h1, hd, ha, g1, hz, ho, he⟩ := F
  have k1 : wDisp w = disp := ofNat_eq disp _ (by omega)
  refine ⟨h0, ?_⟩
  rw [dec_1E h1]
  simp only [dec1E, hd, ha, hz, ho, he, k1, toV_self, toS_self] <;> rfl

theorem vst (d : VReg) (a : SReg) (disp : BitVec 12) (z : Size) (x : Bool) : Statement (.vst d a disp z x) := by
  intro _ w h
  have := d.isLt; have := a.isLt; have := disp.isLt; have := Size_lt z
  have e : encM 0x1F d a disp.toNat z.code false x = w := Option.some.inj h
  have F := encM_fields 0x1F d a disp.toNat z false x (by omega) (by omega) (by omega) (by omega)
  rw [e] at F; obtain ⟨h0, h1, hd, ha, g1, hz, ho, he⟩ := F
  have k1 : wDisp w = disp := ofNat_eq disp _ (by omega)
  refine ⟨h0, ?_⟩
  rw [dec_1F h1]
  simp only [dec1F, hd, ha, hz, ho, he, k1, toV_self, toS_self] <;> rfl

theorem vsts (d : VReg) (a : SReg) (disp : BitVec 12) (z : Size) (x : Bool) : Statement (.vsts d a disp z x) := by
  intro _ w h
  have := d.isLt; have := a.isLt; have := disp.isLt; have := Size_lt z
  have e : encM 0x1F d a disp.toNat z.code true x = w := Option.some.inj h
  have F := encM_fields 0x1F d a disp.toNat z true x (by omega) (by omega) (by omega) (by omega)
  rw [e] at F; obtain ⟨h0, h1, hd, ha, g1, hz, ho, he⟩ := F
  have k1 : wDisp w = disp := ofNat_eq disp _ (by omega)
  refine ⟨h0, ?_⟩
  rw [dec_1F h1]
  simp only [dec1F, hd, ha, hz, ho, he, k1, toV_self, toS_self] <;> rfl

theorem vldx (d : VReg) (a : SReg) (b : VReg) (z : Size) (x y : Bool) : Statement (.vldx d a b z x y) := by
  intro hw w h
  have := d.isLt; have := a.isLt; have := b.isLt; have := Size_lt z
  have e : encG d a b 0 0 z.code x y = w := Option.some.inj h
  have F := encG_fields d a b 0 0 z.code x y (by omega) (by omega) (by omega) (by omega) (by omega) (by omega)
  rw [e] at F; obtain ⟨h0, h1, hd, ha, hb, hx, hy, g1, g2, g3, g4⟩ := F
  have hs : wSize w = _ := congrArg Size.ofCode g4
  refine ⟨h0, ?_⟩
  rw [dec_20 h1]
  simp only [dec20, hd, ha, hb, hx, hy, g1, g2, g3, hs, toV_self, toS_self, Size_ofCode] <;>
    (exact checked_of _ (odd_of hw))

theorem vstx (d : VReg) (a : SReg) (b : VReg) (z : Size) (x y : Bool) : Statement (.vstx d a b z x y) := by
  intro hw w h
  have := d.isLt; have := a.isLt; have := b.isLt; have := Size_lt z
  have e : encG d a b 1 0 z.code x y = w := Option.some.inj h
  have F := encG_fields d a b 1 0 z.code x y (by omega) (by omega) (by omega) (by omega) (by omega) (by omega)
  rw [e] at F; obtain ⟨h0, h1, hd, ha, hb, hx, hy, g1, g2, g3, g4⟩ := F
  have hs : wSize w = _ := congrArg Size.ofCode g4
  refine ⟨h0, ?_⟩
  rw [dec_20 h1]
  simp only [dec20, hd, ha, hb, hx, hy, g1, g2, g3, hs, toV_self, toS_self, Size_ofCode] <;>
    (exact checked_of _ (odd_of hw))

theorem vsaddInt (d : VReg) (a : SReg) (b : VReg) (z : Size) (x y : Bool) : Statement (.vsaddInt d a b z x y) := by
  intro hw w h
  have := d.isLt; have := a.isLt; have := b.isLt; have := Size_lt z
  have e : encG d a b 2 0 z.code x y = w := Option.some.inj h
  have F := encG_fields d a b 2 0 z.code x y (by omega) (by omega) (by omega) (by omega) (by omega) (by omega)
  rw [e] at F; obtain ⟨h0, h1, hd, ha, hb, hx, hy, g1, g2, g3, g4⟩ := F
  have hs : wSize w = _ := congrArg Size.ofCode g4
  refine ⟨h0, ?_⟩
  rw [dec_20 h1]
  simp only [dec20, hd, ha, hb, hx, hy, g1, g2, g3, hs, toV_self, toS_self, Size_ofCode] <;>
    (exact checked_of _ (odd_of hw))

theorem vsaddFloat (d : VReg) (a : SReg) (b : VReg) (t : VFltTy) (x y : Bool) : Statement (.vsaddFloat d a b t x y)
     := by
  intro hw w h
  have := d.isLt; have := a.isLt; have := b.isLt; have := VFltTy_lt t
  have e : encG d a b 3 0 t.code x y = w := Option.some.inj h
  have F := encG_fields d a b 3 0 t.code x y (by omega) (by omega) (by omega) (by omega) (by omega) (by omega)
  rw [e] at F; obtain ⟨h0, h1, hd, ha, hb, hx, hy, g1, g2, g3, g4⟩ := F
  have hs : wSize w = _ := congrArg Size.ofCode g4
  refine ⟨h0, ?_⟩
  rw [dec_20 h1]
  simp only [dec20, hd, ha, hb, hx, hy, g1, g2, g3, g4, toV_self, toS_self, VFltTy_ofCode] <;>
    (exact checked_of _ (odd_of hw))

theorem vconf (d a : VReg) (b : MReg) (z : Size) (x : Bool) : Statement (.vconf d a b z x) := by
  intro _ w h
  have := d.isLt; have := a.isLt; have := b.isLt; have := Size_lt z
  have e : encG d a b 4 0 z.code x false = w := Option.some.inj h
  have F := encG_fields d a b 4 0 z.code x false (by omega) (by omega) (by omega) (by omega) (by omega) (by omega)
  rw [e] at F; obtain ⟨h0, h1, hd, ha, hb, hx, hy, g1, g2, g3, g4⟩ := F
  have hs : wSize w = _ := congrArg Size.ofCode g4
  refine ⟨h0, ?_⟩
  rw [dec_20 h1]
  simp only [dec20, hd, ha, hb, hx, hy, g1, g2, g3, hs, toV_self, toM_self, high_lt b.isLt, Size_ofCode] <;> rfl

theorem vgth (d : VReg) (a : SReg) (b : VReg) (sc : Scope) (z : Size) (x y : Bool) : Statement (.vgth d a b sc z x
     y) := by
  intro hw w h
  have := d.isLt; have := a.isLt; have := b.isLt; have := Scope_lt sc; have := Size_lt z
  have e : encG d a b 5 sc.code z.code x y = w := Option.some.inj h
  have F := encG_fields d a b 5 sc.code z.code x y (by omega) (by omega) (by omega) (by omega) (by omega) (by omega)
  rw [e] at F; obtain ⟨h0, h1, hd, ha, hb, hx, hy, g1, g2, g3, g4⟩ := F
  have hs : wSize w = _ := congrArg Size.ofCode g4
  refine ⟨h0, ?_⟩
  rw [dec_20 h1]
  simp only [dec20, hd, ha, hb, hx, hy, g1, g2, g3, hs, toV_self, toS_self, Scope_ofCode, Size_ofCode] <;>
    (exact checked_of _ (odd_of hw))

theorem vexp2 (d a : VReg) (x : Bool) : Statement (.vexp2 d a x) := by
  intro _ w h
  have := d.isLt; have := a.isLt
  have e : encOp 0x21 d a 0 0 2 x false = w := Option.some.inj h
  have F := encOp_fields 0x21 d a 0 0 2 x false (by omega) (by omega) (by omega) (by omega) (by omega) (by omega)
  rw [e] at F; obtain ⟨h0, h1, hd, ha, hb, hx, hy, g1, g2⟩ := F
  refine ⟨h0, ?_⟩
  rw [dec_21 h1]
  simp only [dec21, hd, ha, hb, hx, hy, g1, g2, toV_self] <;> rfl

theorem vlog2 (d a : VReg) (x : Bool) : Statement (.vlog2 d a x) := by
  intro _ w h
  have := d.isLt; have := a.isLt
  have e : encOp 0x21 d a 0 1 2 x false = w := Option.some.inj h
  have F := encOp_fields 0x21 d a 0 1 2 x false (by omega) (by omega) (by omega) (by omega) (by omega) (by omega)
  rw [e] at F; obtain ⟨h0, h1, hd, ha, hb, hx, hy, g1, g2⟩ := F
  refine ⟨h0, ?_⟩
  rw [dec_21 h1]
  simp only [dec21, hd, ha, hb, hx, hy, g1, g2, toV_self] <;> rfl

theorem vrcp (d a : VReg) (x : Bool) : Statement (.vrcp d a x) := by
  intro _ w h
  have := d.isLt; have := a.isLt
  have e : encOp 0x21 d a 0 2 2 x false = w := Option.some.inj h
  have F := encOp_fields 0x21 d a 0 2 2 x false (by omega) (by omega) (by omega) (by omega) (by omega) (by omega)
  rw [e] at F; obtain ⟨h0, h1, hd, ha, hb, hx, hy, g1, g2⟩ := F
  refine ⟨h0, ?_⟩
  rw [dec_21 h1]
  simp only [dec21, hd, ha, hb, hx, hy, g1, g2, toV_self] <;> rfl

theorem vrsqrt (d a : VReg) (x : Bool) : Statement (.vrsqrt d a x) := by
  intro _ w h
  have := d.isLt; have := a.isLt
  have e : encOp 0x21 d a 0 3 2 x false = w := Option.some.inj h
  have F := encOp_fields 0x21 d a 0 3 2 x false (by omega) (by omega) (by omega) (by omega) (by omega) (by omega)
  rw [e] at F; obtain ⟨h0, h1, hd, ha, hb, hx, hy, g1, g2⟩ := F
  refine ⟨h0, ?_⟩
  rw [dec_21 h1]
  simp only [dec21, hd, ha, hb, hx, hy, g1, g2, toV_self] <;> rfl

theorem vfsqrt (d a : VReg) (x : Bool) : Statement (.vfsqrt d a x) := by
  intro _ w h
  have := d.isLt; have := a.isLt
  have e : encOp 0x21 d a 0 4 2 x false = w := Option.some.inj h
  have F := encOp_fields 0x21 d a 0 4 2 x false (by omega) (by omega) (by omega) (by omega) (by omega) (by omega)
  rw [e] at F; obtain ⟨h0, h1, hd, ha, hb, hx, hy, g1, g2⟩ := F
  refine ⟨h0, ?_⟩
  rw [dec_21 h1]
  simp only [dec21, hd, ha, hb, hx, hy, g1, g2, toV_self] <;> rfl

theorem vcvtToFloat (d a : VReg) (s : ElemTy) (m : CvtMode) (t : FltTy) (x : Bool) : Statement (.vcvtToFloat d a s m
     t x) := by
  intro hw w h
  have := d.isLt; have := a.isLt; have := ElemTy_lt s; have := ElemTy_cls_lt s; have := CvtMode_lt m; have :=
     FltTy_lt t
  have e : encOp 0x21 d a (s.cls * 16 + s.code) (8 + m.code) t.code x false = w := Option.some.inj h
  have F := encOp_fields 0x21 d a (s.cls * 16 + s.code) (8 + m.code) t.code x false (by omega) (by omega) (by omega)
     (by omega) (by omega) (by omega)
  rw [e] at F; obtain ⟨h0, h1, hd, ha, hb, hx, hy, g1, g2⟩ := F
  have k1 : (s.cls * 16 + s.code) / 16 = s.cls := by omega
  have k2 : (s.cls * 16 + s.code) % 16 = s.code := by omega
  refine ⟨h0, ?_⟩
  rw [dec_21 h1]
  simp only [dec21, hd, ha, hb, hx, hy, g1, g2, k1, k2, toV_self, ElemTy_ofCode, FltTy_ofCode] <;>
    (cases m <;> exact checked_cvt _ _ hw rfl)

theorem vcvtToInt (d a : VReg) (s : ElemTy) (m : CvtMode) (t : IntTy) (x : Bool) : Statement (.vcvtToInt d a s m t
     x) := by
  intro hw w h
  have := d.isLt; have := a.isLt; have := ElemTy_lt s; have := ElemTy_cls_lt s; have := CvtMode_lt m; have :=
     IntTy_lt t
  have e : encOp 0x21 d a (s.cls * 16 + s.code) (16 + m.code) t.code x false = w := Option.some.inj h
  have F := encOp_fields 0x21 d a (s.cls * 16 + s.code) (16 + m.code) t.code x false (by omega) (by omega) (by
     omega) (by omega) (by omega) (by omega)
  rw [e] at F; obtain ⟨h0, h1, hd, ha, hb, hx, hy, g1, g2⟩ := F
  have k1 : (s.cls * 16 + s.code) / 16 = s.cls := by omega
  have k2 : (s.cls * 16 + s.code) % 16 = s.code := by omega
  refine ⟨h0, ?_⟩
  rw [dec_21 h1]
  simp only [dec21, hd, ha, hb, hx, hy, g1, g2, k1, k2, toV_self, ElemTy_ofCode, IntTy_ofCode] <;>
    (cases m <;> exact checked_cvt _ _ hw rfl)

theorem vpackBfp (d a : VReg) (k : BfpW) (x : Bool) : Statement (.vpackBfp d a k x) := by
  intro _ w h
  have := d.isLt; have := a.isLt; have := bfp_lt k
  have e : encOp 0x21 d a 18 24 (bfpCode k) x false = w := Option.some.inj h
  have F := encOp_fields 0x21 d a 18 24 (bfpCode k) x false (by omega) (by omega) (by omega) (by omega) (by omega)
     (by omega)
  rw [e] at F; obtain ⟨h0, h1, hd, ha, hb, hx, hy, g1, g2⟩ := F
  refine ⟨h0, ?_⟩
  rw [dec_21 h1]
  simp only [dec21, hd, ha, hb, hx, hy, g1, g2, toV_self, bfp_ofCode] <;> rfl

theorem vunpackBfp (d a : VReg) (k : BfpW) (x : Bool) : Statement (.vunpackBfp d a k x) := by
  intro _ w h
  have := d.isLt; have := a.isLt; have := bfp_lt k
  have e : encOp 0x21 d a (16 + bfpCode k) 25 2 x false = w := Option.some.inj h
  have F := encOp_fields 0x21 d a (16 + bfpCode k) 25 2 x false (by omega) (by omega) (by omega) (by omega) (by
     omega) (by omega)
  rw [e] at F; obtain ⟨h0, h1, hd, ha, hb, hx, hy, g1, g2⟩ := F
  have k1 : (16 + bfpCode k) / 16 = 1 := by omega
  have k2 : (16 + bfpCode k) % 16 = bfpCode k := by omega
  refine ⟨h0, ?_⟩
  rw [dec_21 h1]
  simp only [dec21, hd, ha, hb, hx, hy, g1, g2, k1, k2, toV_self, bfp_ofCode] <;> rfl

theorem vaddVs (d a : VReg) (b : SReg) (t : IntTy) (x y : Bool) : Statement (.vaddVs d a b t x y) := by
  intro _ w h
  have := d.isLt; have := a.isLt; have := b.isLt; have := IntTy_lt t
  have e : encV d a b 0 0 t.code x y = w := Option.some.inj h
  have F := encV_fields d a b 0 0 t.code x y (by omega) (by omega) (by omega) (by omega) (by omega) (by omega)
  rw [e] at F; obtain ⟨h0, h1, hd, ha, hb, hx, hy, g1, g2, g3⟩ := F
  refine ⟨h0, ?_⟩
  rw [dec_22 h1]
  simp only [dec22, hd, ha, hb, hx, hy, g1, g2, g3, toV_self, toS_self, IntTy_ofCode]

theorem vsubVs (d a : VReg) (b : SReg) (t : IntTy) (x y : Bool) : Statement (.vsubVs d a b t x y) := by
  intro _ w h
  have := d.isLt; have := a.isLt; have := b.isLt; have := IntTy_lt t
  have e : encV d a b 0 1 t.code x y = w := Option.some.inj h
  have F := encV_fields d a b 0 1 t.code x y (by omega) (by omega) (by omega) (by omega) (by omega) (by omega)
  rw [e] at F; obtain ⟨h0, h1, hd, ha, hb, hx, hy, g1, g2, g3⟩ := F
  refine ⟨h0, ?_⟩
  rw [dec_22 h1]
  simp only [dec22, hd, ha, hb, hx, hy, g1, g2, g3, toV_self, toS_self, IntTy_ofCode]

theorem vmulVs (d a : VReg) (b : SReg) (t : IntTy) (x y : Bool) : Statement (.vmulVs d a b t x y) := by
  intro _ w h
  have := d.isLt; have := a.isLt; have := b.isLt; have := IntTy_lt t
  have e : encV d a b 0 2 t.code x y = w := Option.some.inj h
  have F := encV_fields d a b 0 2 t.code x y (by omega) (by omega) (by omega) (by omega) (by omega) (by omega)
  rw [e] at F; obtain ⟨h0, h1, hd, ha, hb, hx, hy, g1, g2, g3⟩ := F
  refine ⟨h0, ?_⟩
  rw [dec_22 h1]
  simp only [dec22, hd, ha, hb, hx, hy, g1, g2, g3, toV_self, toS_self, IntTy_ofCode]

theorem vminVs (d a : VReg) (b : SReg) (t : IntTy) (x y : Bool) : Statement (.vminVs d a b t x y) := by
  intro _ w h
  have := d.isLt; have := a.isLt; have := b.isLt; have := IntTy_lt t
  have e : encV d a b 0 3 t.code x y = w := Option.some.inj h
  have F := encV_fields d a b 0 3 t.code x y (by omega) (by omega) (by omega) (by omega) (by omega) (by omega)
  rw [e] at F; obtain ⟨h0, h1, hd, ha, hb, hx, hy, g1, g2, g3⟩ := F
  refine ⟨h0, ?_⟩
  rw [dec_22 h1]
  simp only [dec22, hd, ha, hb, hx, hy, g1, g2, g3, toV_self, toS_self, IntTy_ofCode]

theorem vmaxVs (d a : VReg) (b : SReg) (t : IntTy) (x y : Bool) : Statement (.vmaxVs d a b t x y) := by
  intro _ w h
  have := d.isLt; have := a.isLt; have := b.isLt; have := IntTy_lt t
  have e : encV d a b 0 4 t.code x y = w := Option.some.inj h
  have F := encV_fields d a b 0 4 t.code x y (by omega) (by omega) (by omega) (by omega) (by omega) (by omega)
  rw [e] at F; obtain ⟨h0, h1, hd, ha, hb, hx, hy, g1, g2, g3⟩ := F
  refine ⟨h0, ?_⟩
  rw [dec_22 h1]
  simp only [dec22, hd, ha, hb, hx, hy, g1, g2, g3, toV_self, toS_self, IntTy_ofCode]

theorem vandVs (d a : VReg) (b : SReg) (t : IntTy) (x y : Bool) : Statement (.vandVs d a b t x y) := by
  intro _ w h
  have := d.isLt; have := a.isLt; have := b.isLt; have := IntTy_lt t
  have e : encV d a b 0 5 t.code x y = w := Option.some.inj h
  have F := encV_fields d a b 0 5 t.code x y (by omega) (by omega) (by omega) (by omega) (by omega) (by omega)
  rw [e] at F; obtain ⟨h0, h1, hd, ha, hb, hx, hy, g1, g2, g3⟩ := F
  refine ⟨h0, ?_⟩
  rw [dec_22 h1]
  simp only [dec22, hd, ha, hb, hx, hy, g1, g2, g3, toV_self, toS_self, IntTy_ofCode]

theorem vorVs (d a : VReg) (b : SReg) (t : IntTy) (x y : Bool) : Statement (.vorVs d a b t x y) := by
  intro _ w h
  have := d.isLt; have := a.isLt; have := b.isLt; have := IntTy_lt t
  have e : encV d a b 0 6 t.code x y = w := Option.some.inj h
  have F := encV_fields d a b 0 6 t.code x y (by omega) (by omega) (by omega) (by omega) (by omega) (by omega)
  rw [e] at F; obtain ⟨h0, h1, hd, ha, hb, hx, hy, g1, g2, g3⟩ := F
  refine ⟨h0, ?_⟩
  rw [dec_22 h1]
  simp only [dec22, hd, ha, hb, hx, hy, g1, g2, g3, toV_self, toS_self, IntTy_ofCode]

theorem vxorVs (d a : VReg) (b : SReg) (t : IntTy) (x y : Bool) : Statement (.vxorVs d a b t x y) := by
  intro _ w h
  have := d.isLt; have := a.isLt; have := b.isLt; have := IntTy_lt t
  have e : encV d a b 0 7 t.code x y = w := Option.some.inj h
  have F := encV_fields d a b 0 7 t.code x y (by omega) (by omega) (by omega) (by omega) (by omega) (by omega)
  rw [e] at F; obtain ⟨h0, h1, hd, ha, hb, hx, hy, g1, g2, g3⟩ := F
  refine ⟨h0, ?_⟩
  rw [dec_22 h1]
  simp only [dec22, hd, ha, hb, hx, hy, g1, g2, g3, toV_self, toS_self, IntTy_ofCode]

theorem vfaddVs (d a : VReg) (b : SReg) (t : VFltTy) (x y : Bool) : Statement (.vfaddVs d a b t x y) := by
  intro _ w h
  have := d.isLt; have := a.isLt; have := b.isLt; have := VFltTy_lt t
  have e : encV d a b 1 0 t.code x y = w := Option.some.inj h
  have F := encV_fields d a b 1 0 t.code x y (by omega) (by omega) (by omega) (by omega) (by omega) (by omega)
  rw [e] at F; obtain ⟨h0, h1, hd, ha, hb, hx, hy, g1, g2, g3⟩ := F
  refine ⟨h0, ?_⟩
  rw [dec_22 h1]
  simp only [dec22, hd, ha, hb, hx, hy, g1, g2, g3, toV_self, toS_self, VFltTy_ofCode]

theorem vfsubVs (d a : VReg) (b : SReg) (t : VFltTy) (x y : Bool) : Statement (.vfsubVs d a b t x y) := by
  intro _ w h
  have := d.isLt; have := a.isLt; have := b.isLt; have := VFltTy_lt t
  have e : encV d a b 1 1 t.code x y = w := Option.some.inj h
  have F := encV_fields d a b 1 1 t.code x y (by omega) (by omega) (by omega) (by omega) (by omega) (by omega)
  rw [e] at F; obtain ⟨h0, h1, hd, ha, hb, hx, hy, g1, g2, g3⟩ := F
  refine ⟨h0, ?_⟩
  rw [dec_22 h1]
  simp only [dec22, hd, ha, hb, hx, hy, g1, g2, g3, toV_self, toS_self, VFltTy_ofCode]

theorem vfmulVs (d a : VReg) (b : SReg) (t : VFltTy) (x y : Bool) : Statement (.vfmulVs d a b t x y) := by
  intro _ w h
  have := d.isLt; have := a.isLt; have := b.isLt; have := VFltTy_lt t
  have e : encV d a b 1 2 t.code x y = w := Option.some.inj h
  have F := encV_fields d a b 1 2 t.code x y (by omega) (by omega) (by omega) (by omega) (by omega) (by omega)
  rw [e] at F; obtain ⟨h0, h1, hd, ha, hb, hx, hy, g1, g2, g3⟩ := F
  refine ⟨h0, ?_⟩
  rw [dec_22 h1]
  simp only [dec22, hd, ha, hb, hx, hy, g1, g2, g3, toV_self, toS_self, VFltTy_ofCode]

theorem vfdivVs (d a : VReg) (b : SReg) (t : VFltTy) (x y : Bool) : Statement (.vfdivVs d a b t x y) := by
  intro _ w h
  have := d.isLt; have := a.isLt; have := b.isLt; have := VFltTy_lt t
  have e : encV d a b 1 3 t.code x y = w := Option.some.inj h
  have F := encV_fields d a b 1 3 t.code x y (by omega) (by omega) (by omega) (by omega) (by omega) (by omega)
  rw [e] at F; obtain ⟨h0, h1, hd, ha, hb, hx, hy, g1, g2, g3⟩ := F
  refine ⟨h0, ?_⟩
  rw [dec_22 h1]
  simp only [dec22, hd, ha, hb, hx, hy, g1, g2, g3, toV_self, toS_self, VFltTy_ofCode]

theorem vfminVs (d a : VReg) (b : SReg) (t : VFltTy) (x y : Bool) : Statement (.vfminVs d a b t x y) := by
  intro _ w h
  have := d.isLt; have := a.isLt; have := b.isLt; have := VFltTy_lt t
  have e : encV d a b 1 4 t.code x y = w := Option.some.inj h
  have F := encV_fields d a b 1 4 t.code x y (by omega) (by omega) (by omega) (by omega) (by omega) (by omega)
  rw [e] at F; obtain ⟨h0, h1, hd, ha, hb, hx, hy, g1, g2, g3⟩ := F
  refine ⟨h0, ?_⟩
  rw [dec_22 h1]
  simp only [dec22, hd, ha, hb, hx, hy, g1, g2, g3, toV_self, toS_self, VFltTy_ofCode]

theorem vfmaxVs (d a : VReg) (b : SReg) (t : VFltTy) (x y : Bool) : Statement (.vfmaxVs d a b t x y) := by
  intro _ w h
  have := d.isLt; have := a.isLt; have := b.isLt; have := VFltTy_lt t
  have e : encV d a b 1 5 t.code x y = w := Option.some.inj h
  have F := encV_fields d a b 1 5 t.code x y (by omega) (by omega) (by omega) (by omega) (by omega) (by omega)
  rw [e] at F; obtain ⟨h0, h1, hd, ha, hb, hx, hy, g1, g2, g3⟩ := F
  refine ⟨h0, ?_⟩
  rw [dec_22 h1]
  simp only [dec22, hd, ha, hb, hx, hy, g1, g2, g3, toV_self, toS_self, VFltTy_ofCode]

theorem vfmaVs (d a : VReg) (b : SReg) (t : VFltTy) (x y : Bool) : Statement (.vfmaVs d a b t x y) := by
  intro _ w h
  have := d.isLt; have := a.isLt; have := b.isLt; have := VFltTy_lt t
  have e : encV d a b 1 6 t.code x y = w := Option.some.inj h
  have F := encV_fields d a b 1 6 t.code x y (by omega) (by omega) (by omega) (by omega) (by omega) (by omega)
  rw [e] at F; obtain ⟨h0, h1, hd, ha, hb, hx, hy, g1, g2, g3⟩ := F
  refine ⟨h0, ?_⟩
  rw [dec_22 h1]
  simp only [dec22, hd, ha, hb, hx, hy, g1, g2, g3, toV_self, toS_self, VFltTy_ofCode]

theorem vfnmaVs (d a : VReg) (b : SReg) (t : VFltTy) (x y : Bool) : Statement (.vfnmaVs d a b t x y) := by
  intro _ w h
  have := d.isLt; have := a.isLt; have := b.isLt; have := VFltTy_lt t
  have e : encV d a b 1 7 t.code x y = w := Option.some.inj h
  have F := encV_fields d a b 1 7 t.code x y (by omega) (by omega) (by omega) (by omega) (by omega) (by omega)
  rw [e] at F; obtain ⟨h0, h1, hd, ha, hb, hx, hy, g1, g2, g3⟩ := F
  refine ⟨h0, ?_⟩
  rw [dec_22 h1]
  simp only [dec22, hd, ha, hb, hx, hy, g1, g2, g3, toV_self, toS_self, VFltTy_ofCode]

theorem vcmpVs (d : MReg) (a : VReg) (b : SReg) (rel : Rel) (t : ElemTy) (x y : Bool) :
    Statement (.vcmpVs d a b rel t x y) := by
  intro _ w h
  have := d.isLt; have := a.isLt; have := b.isLt; have := Rel_lt rel; have := ElemTy_lt t
  have := ElemTy_cls_lt t
  have e : encV d a b (2 + t.cls) rel.code t.code x y = w := Option.some.inj h
  have F := encV_fields d a b (2 + t.cls) rel.code t.code x y (by omega) (by omega) (by omega) (by omega) (by omega)
    (by omega)
  rw [e] at F; obtain ⟨h0, h1, hd, ha, hb, hx, hy, g1, g2, g3⟩ := F
  refine ⟨h0, ?_⟩
  rw [dec_22 h1]
  cases t with
  | int t =>
    have g1 : w / 512 % 4 = 2 := g1
    have g3 : w / 4 % 16 = t.code := g3
    simp only [dec22, hd, ha, hb, hx, hy, g1, g2, g3, toM_self, toV_self, toS_self, IntTy_ofCode, Rel_ofCode,
      high_lt d.isLt] <;> rfl
  | flt t =>
    have g1 : w / 512 % 4 = 3 := g1
    have g3 : w / 4 % 16 = t.code := g3
    simp only [dec22, hd, ha, hb, hx, hy, g1, g2, g3, toM_self, toV_self, toS_self, FltTy_ofCode, Rel_ofCode,
      high_lt d.isLt] <;> rfl

theorem tmov (d : VReg) (t : TReg) (z : TreeTy) : Statement (.tmov d t z) := by
  intro _ w h
  have := d.isLt; have := t.isLt; have := TreeTy_lt z
  have e : encT d 0 t 0 0 z.code false false = w := Option.some.inj h
  have F := encT_fields d 0 t 0 0 z.code false false (by omega) (by omega) (by omega) (by omega) (by omega) (by omega)
  rw [e] at F; obtain ⟨h0, h1, hd, ha, g1, g2, g3, g4, hx, hy⟩ := F
  refine ⟨h0, ?_⟩
  rw [dec_23 h1]
  simp only [dec23, hd, ha, g1, g2, g3, g4, hx, hy, toV_self, toT_self, TreeTy_ofCode] <;> rfl

theorem tmovToTopo (a : VReg) (t : TReg) (z : TreeTy) (x : Bool) : Statement (.tmovToTopo a t z x) := by
  intro _ w h
  have := a.isLt; have := t.isLt; have := TreeTy_lt z
  have e : encT 0 a t 1 0 z.code x false = w := Option.some.inj h
  have F := encT_fields 0 a t 1 0 z.code x false (by omega) (by omega) (by omega) (by omega) (by omega) (by omega)
  rw [e] at F; obtain ⟨h0, h1, hd, ha, g1, g2, g3, g4, hx, hy⟩ := F
  refine ⟨h0, ?_⟩
  rw [dec_23 h1]
  simp only [dec23, hd, ha, g1, g2, g3, g4, hx, hy, toV_self, toT_self, TreeTy_ofCode] <;> rfl

theorem tup (d a : VReg) (t : TReg) (c : TreeComb) (z : TreeTy) (x : Bool) : Statement (.tup d a t c z x) := by
  intro hw w h
  have := d.isLt; have := a.isLt; have := t.isLt; have := TreeComb_lt c; have := TreeTy_lt z
  have e : encT d a t c.code 1 z.code x false = w := Option.some.inj h
  have F := encT_fields d a t c.code 1 z.code x false (by omega) (by omega) (by omega) (by omega) (by omega) (by omega)
  rw [e] at F; obtain ⟨h0, h1, hd, ha, g1, g2, g3, g4, hx, hy⟩ := F
  refine ⟨h0, ?_⟩
  rw [dec_23 h1]
  simp only [dec23, hd, ha, g1, g2, g3, g4, hx, hy, toV_self, toT_self, TreeTy_ofCode, TreeComb_ofCode] <;>
    (cases z <;> cases c <;> first | rfl | exact Bool.noConfusion hw)

theorem tdn (d a : VReg) (t : TReg) (c : TreeComb) (z : TreeTy) (x : Bool) : Statement (.tdn d a t c z x) := by
  intro hw w h
  have := d.isLt; have := a.isLt; have := t.isLt; have := TreeComb_lt c; have := TreeTy_lt z
  have e : encT d a t c.code 2 z.code x false = w := Option.some.inj h
  have F := encT_fields d a t c.code 2 z.code x false (by omega) (by omega) (by omega) (by omega) (by omega) (by omega)
  rw [e] at F; obtain ⟨h0, h1, hd, ha, g1, g2, g3, g4, hx, hy⟩ := F
  refine ⟨h0, ?_⟩
  rw [dec_23 h1]
  simp only [dec23, hd, ha, g1, g2, g3, g4, hx, hy, toV_self, toT_self, TreeTy_ofCode, TreeComb_ofCode] <;>
    (cases z <;> cases c <;> first | rfl | exact Bool.noConfusion hw)

theorem tbc (d a : VReg) (t : TReg) (m : MReg) (z : TreeTy) (x : Bool) : Statement (.tbc d a t m z x) := by
  intro _ w h
  have := d.isLt; have := a.isLt; have := t.isLt; have := m.isLt; have := TreeTy_lt z
  have e : encT d a t m 3 z.code x false = w := Option.some.inj h
  have F := encT_fields d a t m 3 z.code x false (by omega) (by omega) (by omega) (by omega) (by omega) (by omega)
  rw [e] at F; obtain ⟨h0, h1, hd, ha, g1, g2, g3, g4, hx, hy⟩ := F
  refine ⟨h0, ?_⟩
  rw [dec_23 h1]
  simp only [dec23, hd, ha, g1, g2, g3, g4, hx, hy, toV_self, toT_self, toM_self, high_lt m.isLt, TreeTy_ofCode] <;>
     rfl

theorem tdep (d : VReg) (t : TReg) : Statement (.tdep d t) := by
  intro _ w h
  have := d.isLt; have := t.isLt
  have e : encT d 0 t 0 4 2 false false = w := Option.some.inj h
  have F := encT_fields d 0 t 0 4 2 false false (by omega) (by omega) (by omega) (by omega) (by omega) (by omega)
  rw [e] at F; obtain ⟨h0, h1, hd, ha, g1, g2, g3, g4, hx, hy⟩ := F
  refine ⟨h0, ?_⟩
  rw [dec_23 h1]
  simp only [dec23, hd, ha, g1, g2, g3, g4, hx, hy, toV_self, toT_self] <;> rfl

theorem tancK (d : VReg) (t : TReg) (k : Fin 32) : Statement (.tancK d t k) := by
  intro _ w h
  have := d.isLt; have := t.isLt; have := k.isLt
  have e : encT d 0 t k 5 2 false false = w := Option.some.inj h
  have F := encT_fields d 0 t k 5 2 false false (by omega) (by omega) (by omega) (by omega) (by omega) (by omega)
  rw [e] at F; obtain ⟨h0, h1, hd, ha, g1, g2, g3, g4, hx, hy⟩ := F
  refine ⟨h0, ?_⟩
  rw [dec_23 h1]
  simp only [dec23, hd, ha, g1, g2, g3, g4, hx, hy, toV_self, toT_self, Fin.ofNat_val_eq_self] <;> rfl

theorem tancM (d : VReg) (t : TReg) (m : MReg) (z : TreeTy) : Statement (.tancM d t m z) := by
  intro _ w h
  have := d.isLt; have := t.isLt; have := m.isLt; have := TreeTy_lt z
  have e : encT d 0 t m 6 z.code false false = w := Option.some.inj h
  have F := encT_fields d 0 t m 6 z.code false false (by omega) (by omega) (by omega) (by omega) (by omega) (by omega)
  rw [e] at F; obtain ⟨h0, h1, hd, ha, g1, g2, g3, g4, hx, hy⟩ := F
  refine ⟨h0, ?_⟩
  rw [dec_23 h1]
  simp only [dec23, hd, ha, g1, g2, g3, g4, hx, hy, toV_self, toT_self, toM_self, high_lt m.isLt, TreeTy_ofCode] <;>
     rfl

theorem tisanc (d : MReg) (t : TReg) (b : VReg) (y : Bool) : Statement (.tisanc d t b y) := by
  intro _ w h
  have := d.isLt; have := t.isLt; have := b.isLt
  have e : encT d 0 t b 7 2 false y = w := Option.some.inj h
  have F := encT_fields d 0 t b 7 2 false y (by omega) (by omega) (by omega) (by omega) (by omega) (by omega)
  rw [e] at F; obtain ⟨h0, h1, hd, ha, g1, g2, g3, g4, hx, hy⟩ := F
  refine ⟨h0, ?_⟩
  rw [dec_23 h1]
  simp only [dec23, hd, ha, g1, g2, g3, g4, hx, hy, toM_self, high_lt d.isLt, toT_self, toV_self] <;> rfl

theorem troot (d : VReg) (t : TReg) : Statement (.troot d t) := by
  intro _ w h
  have := d.isLt; have := t.isLt
  have e : encT d 0 t 0 8 2 false false = w := Option.some.inj h
  have F := encT_fields d 0 t 0 8 2 false false (by omega) (by omega) (by omega) (by omega) (by omega) (by omega)
  rw [e] at F; obtain ⟨h0, h1, hd, ha, g1, g2, g3, g4, hx, hy⟩ := F
  refine ⟨h0, ?_⟩
  rw [dec_23 h1]
  simp only [dec23, hd, ha, g1, g2, g3, g4, hx, hy, toV_self, toT_self] <;> rfl

theorem tdeg (d : VReg) (t : TReg) : Statement (.tdeg d t) := by
  intro _ w h
  have := d.isLt; have := t.isLt
  have e : encT d 0 t 0 9 2 false false = w := Option.some.inj h
  have F := encT_fields d 0 t 0 9 2 false false (by omega) (by omega) (by omega) (by omega) (by omega) (by omega)
  rw [e] at F; obtain ⟨h0, h1, hd, ha, g1, g2, g3, g4, hx, hy⟩ := F
  refine ⟨h0, ?_⟩
  rw [dec_23 h1]
  simp only [dec23, hd, ha, g1, g2, g3, g4, hx, hy, toV_self, toT_self] <;> rfl

theorem tchk (d : VReg) (t : TReg) (z : TreeTy) : Statement (.tchk d t z) := by
  intro _ w h
  have := d.isLt; have := t.isLt; have := TreeTy_lt z
  have e : encT d 0 t 0 10 z.code false false = w := Option.some.inj h
  have F := encT_fields d 0 t 0 10 z.code false false (by omega) (by omega) (by omega) (by omega) (by omega) (by omega)
  rw [e] at F; obtain ⟨h0, h1, hd, ha, g1, g2, g3, g4, hx, hy⟩ := F
  refine ⟨h0, ?_⟩
  rw [dec_23 h1]
  simp only [dec23, hd, ha, g1, g2, g3, g4, hx, hy, toV_self, toT_self, TreeTy_ofCode] <;> rfl

theorem tctr (d a : VReg) (t : TReg) (z : TreeTy) (x : Bool) : Statement (.tctr d a t z x) := by
  intro _ w h
  have := d.isLt; have := a.isLt; have := t.isLt; have := TreeTy_lt z
  have e : encT d a t 0 11 z.code x false = w := Option.some.inj h
  have F := encT_fields d a t 0 11 z.code x false (by omega) (by omega) (by omega) (by omega) (by omega) (by omega)
  rw [e] at F; obtain ⟨h0, h1, hd, ha, g1, g2, g3, g4, hx, hy⟩ := F
  refine ⟨h0, ?_⟩
  rw [dec_23 h1]
  simp only [dec23, hd, ha, g1, g2, g3, g4, hx, hy, toV_self, toT_self, TreeTy_ofCode] <;> rfl

theorem tld (t : TReg) (a : SReg) (disp : BitVec 12) (x : Bool) : Statement (.tld t a disp x) := by
  intro _ w h
  have := t.isLt; have := a.isLt; have := disp.isLt
  have e : encM 0x24 t a disp.toNat (Size.code .b2) false x = w := Option.some.inj h
  have F := encM_fields 0x24 t a disp.toNat .b2 false x (by omega) (by omega) (by omega) (by omega)
  rw [e] at F; obtain ⟨h0, h1, hd, ha, g1, hz, ho, he⟩ := F
  have k1 : wDisp w = disp := ofNat_eq disp _ (by omega)
  have rd : w / 2097152 % 32 = _ := hd
  have k3 : w / 2097152 % 8 = t.val := by omega
  have k4 : w / 16777216 % 4 = 0 := by omega
  have k9 : w / 4 % 4 = 1 := size_two hz
  refine ⟨h0, ?_⟩
  rw [dec_24 h1]
  simp only [dec24, ha, ho, he, k1, k3, k4, k9, toT_self, toS_self, ne_eq, not_true_eq_false, if_false] <;> rfl

theorem tst (t : TReg) (a : SReg) (disp : BitVec 12) (x : Bool) : Statement (.tst t a disp x) := by
  intro _ w h
  have := t.isLt; have := a.isLt; have := disp.isLt
  have e : encM 0x24 t a disp.toNat (Size.code .b2) true x = w := Option.some.inj h
  have F := encM_fields 0x24 t a disp.toNat .b2 true x (by omega) (by omega) (by omega) (by omega)
  rw [e] at F; obtain ⟨h0, h1, hd, ha, g1, hz, ho, he⟩ := F
  have k1 : wDisp w = disp := ofNat_eq disp _ (by omega)
  have rd : w / 2097152 % 32 = _ := hd
  have k3 : w / 2097152 % 8 = t.val := by omega
  have k4 : w / 16777216 % 4 = 0 := by omega
  have k9 : w / 4 % 4 = 1 := size_two hz
  refine ⟨h0, ?_⟩
  rw [dec_24 h1]
  simp only [dec24, ha, ho, he, k1, k3, k4, k9, toT_self, toS_self, ne_eq, not_true_eq_false, if_false] <;> rfl

theorem anvOp (a b : SReg) : Statement (.anvOp a b) := by
  intro _ w h
  have := a.isLt; have := b.isLt
  have e : encE 0x27 a b 0 0 = w := Option.some.inj h
  have F := encE_fields 0x27 a b 0 0 (by omega) (by omega) (by omega) (by omega) (by omega)
  rw [e] at F; obtain ⟨h0, h1, hd, ha, hf, hi⟩ := F
  refine ⟨h0, ?_⟩
  rw [dec_27 h1]
  simp only [dec27, hd, ha, hf, hi, toS_self] <;> rfl

theorem anvZero (a : SReg) : Statement (.anvZero a) := by
  intro _ w h
  have := a.isLt
  have e : encE 0x27 a 0 1 0 = w := Option.some.inj h
  have F := encE_fields 0x27 a 0 1 0 (by omega) (by omega) (by omega) (by omega) (by omega)
  rw [e] at F; obtain ⟨h0, h1, hd, ha, hf, hi⟩ := F
  refine ⟨h0, ?_⟩
  rw [dec_27 h1]
  simp only [dec27, hd, ha, hf, hi, toS_self] <;> rfl

theorem vrsumBfp (d : SReg) (v : VReg) (s : SReg) : Statement (.vrsumBfp d v s) := by
  intro _ w h
  have := d.isLt; have := v.isLt; have := s.isLt
  have e : encE 0x27 d v 2 s = w := Option.some.inj h
  have F := encE_fields 0x27 d v 2 s (by omega) (by omega) (by omega) (by omega) (by omega)
  rw [e] at F; obtain ⟨h0, h1, hd, ha, hf, hi⟩ := F
  have k1 : s.val / 32 = 0 := by omega
  have k2 : s.val % 32 = s.val := by omega
  refine ⟨h0, ?_⟩
  rw [dec_27 h1]
  simp only [dec27, hd, ha, hf, hi, k1, k2, toS_self, toV_self] <;> rfl

theorem accLd (v : VReg) (b : SReg) : Statement (.accLd v b) := by
  intro _ w h
  have := v.isLt; have := b.isLt
  have e : encE 0x28 v b 0 0 = w := Option.some.inj h
  have F := encE_fields 0x28 v b 0 0 (by omega) (by omega) (by omega) (by omega) (by omega)
  rw [e] at F; obtain ⟨h0, h1, hd, ha, hf, hi⟩ := F
  refine ⟨h0, ?_⟩
  rw [dec_28 h1]
  simp only [dec28, hd, ha, hf, hi, toV_self, toS_self] <;> rfl

theorem accSt (v : VReg) (b : SReg) : Statement (.accSt v b) := by
  intro _ w h
  have := v.isLt; have := b.isLt
  have e : encE 0x28 v b 1 0 = w := Option.some.inj h
  have F := encE_fields 0x28 v b 1 0 (by omega) (by omega) (by omega) (by omega) (by omega)
  rw [e] at F; obtain ⟨h0, h1, hd, ha, hf, hi⟩ := F
  refine ⟨h0, ?_⟩
  rw [dec_28 h1]
  simp only [dec28, hd, ha, hf, hi, toV_self, toS_self] <;> rfl

theorem accMem (a b : SReg) (l : Bool) : Statement (.accMem a b l) := by
  intro _ w h
  have := a.isLt; have := b.isLt; have := bit_lt l
  have e : encE 0x28 a b 2 (bit l) = w := Option.some.inj h
  have F := encE_fields 0x28 a b 2 (bit l) (by omega) (by omega) (by omega) (by omega) (by omega)
  rw [e] at F; obtain ⟨h0, h1, hd, ha, hf, hi⟩ := F
  refine ⟨h0, ?_⟩
  rw [dec_28 h1]
  simp only [dec28, hd, ha, hf, hi, toS_self] <;>
    (cases l <;> rfl)

theorem wbLoad (a b : SReg) : Statement (.wbLoad a b) := by
  intro _ w h
  have := a.isLt; have := b.isLt
  have e : encE 0x28 a b 3 0 = w := Option.some.inj h
  have F := encE_fields 0x28 a b 3 0 (by omega) (by omega) (by omega) (by omega) (by omega)
  rw [e] at F; obtain ⟨h0, h1, hd, ha, hf, hi⟩ := F
  refine ⟨h0, ?_⟩
  rw [dec_28 h1]
  simp only [dec28, hd, ha, hf, hi, toS_self] <;> rfl

theorem bwDef (a : SReg) (n : HReg) : Statement (.bwDef a n) := by
  intro _ w h
  have := a.isLt; have := n.isLt
  have e : encE 0x25 a 0 0 n = w := Option.some.inj h
  have F := encE_fields 0x25 a 0 0 n (by omega) (by omega) (by omega) (by omega) (by omega)
  rw [e] at F; obtain ⟨h0, h1, hd, ha, hf, hi⟩ := F
  have ri : w % 256 = _ := hi
  have k1 : Fin.ofNat 16 (w % 16) = n := Fin.ext (by simp only [Fin.ofNat]; omega)
  have k2 : w / 16 % 16 = 0 := by omega
  refine ⟨h0, ?_⟩
  rw [dec_25 h1]
  simp only [dec25, hd, ha, hf, k1, k2, toS_self] <;> rfl

theorem bwBind (v : Option VReg) (n : HReg) : Statement (.bwBind v n) := by
  intro _ w h
  have := n.isLt
  cases v with
  | none =>
    have e : encE 0x25 0 0 1 n = w := Option.some.inj h
    have F := encE_fields 0x25 0 0 1 n (by omega) (by omega) (by omega) (by omega) (by omega)
    rw [e] at F; obtain ⟨h0, h1, hd, ha, hf, hi⟩ := F
    have ri : w % 256 = _ := hi
    have k1 : Fin.ofNat 16 (w % 16) = n := Fin.ext (by simp only [Fin.ofNat]; omega)
    have k2 : w / 16 % 8 = 0 := by omega
    have k3 : w / 128 % 2 = 0 := by omega
    refine ⟨h0, ?_⟩
    rw [dec_25 h1]
    simp only [dec25, hd, ha, hf, k1, k2, k3] <;> rfl
  | some r =>
    have := r.isLt
    have e : encE 0x25 r 0 1 (128 + n.val) = w := Option.some.inj h
    have F := encE_fields 0x25 r 0 1 (128 + n.val) (by omega) (by omega) (by omega) (by omega) (by omega)
    rw [e] at F; obtain ⟨h0, h1, hd, ha, hf, hi⟩ := F
    have ri : w % 256 = _ := hi
    have k1 : Fin.ofNat 16 (w % 16) = n := Fin.ext (by simp only [Fin.ofNat]; omega)
    have k2 : w / 16 % 8 = 0 := by omega
    have k3 : w / 128 % 2 = 1 := by omega
    refine ⟨h0, ?_⟩
    rw [dec_25 h1]
    simp only [dec25, hd, ha, hf, k1, k2, k3, toV_self] <;> rfl

theorem bwFree (n : HReg) : Statement (.bwFree n) := by
  intro _ w h
  have := n.isLt
  have e : encE 0x25 0 0 2 n = w := Option.some.inj h
  have F := encE_fields 0x25 0 0 2 n (by omega) (by omega) (by omega) (by omega) (by omega)
  rw [e] at F; obtain ⟨h0, h1, hd, ha, hf, hi⟩ := F
  have ri : w % 256 = _ := hi
  have k1 : Fin.ofNat 16 (w % 16) = n := Fin.ext (by simp only [Fin.ofNat]; omega)
  have k2 : w / 16 % 16 = 0 := by omega
  refine ⟨h0, ?_⟩
  rw [dec_25 h1]
  simp only [dec25, hd, ha, hf, k1, k2] <;> rfl

theorem bwPop (d : SReg) (n : HReg) : Statement (.bwPop d n) := by
  intro _ w h
  have := d.isLt; have := n.isLt
  have e : encE 0x25 d 0 3 n = w := Option.some.inj h
  have F := encE_fields 0x25 d 0 3 n (by omega) (by omega) (by omega) (by omega) (by omega)
  rw [e] at F; obtain ⟨h0, h1, hd, ha, hf, hi⟩ := F
  have ri : w % 256 = _ := hi
  have k1 : Fin.ofNat 16 (w % 16) = n := Fin.ext (by simp only [Fin.ofNat]; omega)
  have k2 : w / 16 % 16 = 0 := by omega
  refine ⟨h0, ?_⟩
  rw [dec_25 h1]
  simp only [dec25, hd, ha, hf, k1, k2, toS_self] <;> rfl

theorem bwPopNb (d : SReg) (n : HReg) : Statement (.bwPopNb d n) := by
  intro _ w h
  have := d.isLt; have := n.isLt
  have e : encE 0x25 d 0 4 n = w := Option.some.inj h
  have F := encE_fields 0x25 d 0 4 n (by omega) (by omega) (by omega) (by omega) (by omega)
  rw [e] at F; obtain ⟨h0, h1, hd, ha, hf, hi⟩ := F
  have ri : w % 256 = _ := hi
  have k1 : Fin.ofNat 16 (w % 16) = n := Fin.ext (by simp only [Fin.ofNat]; omega)
  have k2 : w / 16 % 16 = 0 := by omega
  refine ⟨h0, ?_⟩
  rw [dec_25 h1]
  simp only [dec25, hd, ha, hf, k1, k2, toS_self] <;> rfl

theorem bwPush (a : SReg) (n : HReg) : Statement (.bwPush a n) := by
  intro _ w h
  have := a.isLt; have := n.isLt
  have e : encE 0x25 a 0 5 n = w := Option.some.inj h
  have F := encE_fields 0x25 a 0 5 n (by omega) (by omega) (by omega) (by omega) (by omega)
  rw [e] at F; obtain ⟨h0, h1, hd, ha, hf, hi⟩ := F
  have ri : w % 256 = _ := hi
  have k1 : Fin.ofNat 16 (w % 16) = n := Fin.ext (by simp only [Fin.ofNat]; omega)
  have k2 : w / 16 % 16 = 0 := by omega
  refine ⟨h0, ?_⟩
  rw [dec_25 h1]
  simp only [dec25, hd, ha, hf, k1, k2, toS_self] <;> rfl

theorem bwWait (n : HReg) : Statement (.bwWait n) := by
  intro _ w h
  have := n.isLt
  have e : encE 0x25 0 0 6 n = w := Option.some.inj h
  have F := encE_fields 0x25 0 0 6 n (by omega) (by omega) (by omega) (by omega) (by omega)
  rw [e] at F; obtain ⟨h0, h1, hd, ha, hf, hi⟩ := F
  have ri : w % 256 = _ := hi
  have k1 : Fin.ofNat 16 (w % 16) = n := Fin.ext (by simp only [Fin.ofNat]; omega)
  have k2 : w / 16 % 16 = 0 := by omega
  refine ⟨h0, ?_⟩
  rw [dec_25 h1]
  simp only [dec25, hd, ha, hf, k1, k2] <;> rfl

theorem bwStat (d : SReg) (n : HReg) : Statement (.bwStat d n) := by
  intro _ w h
  have := d.isLt; have := n.isLt
  have e : encE 0x25 d 0 7 n = w := Option.some.inj h
  have F := encE_fields 0x25 d 0 7 n (by omega) (by omega) (by omega) (by omega) (by omega)
  rw [e] at F; obtain ⟨h0, h1, hd, ha, hf, hi⟩ := F
  have ri : w % 256 = _ := hi
  have k1 : Fin.ofNat 16 (w % 16) = n := Fin.ext (by simp only [Fin.ofNat]; omega)
  have k2 : w / 16 % 16 = 0 := by omega
  refine ⟨h0, ?_⟩
  rw [dec_25 h1]
  simp only [dec25, hd, ha, hf, k1, k2, toS_self] <;> rfl

theorem dbPub (a b : SReg) (n : Fin 64) : Statement (.dbPub a b n) := by
  intro _ w h
  have := a.isLt; have := b.isLt; have := n.isLt
  have e : encE 0x26 a b 0 n = w := Option.some.inj h
  have F := encE_fields 0x26 a b 0 n (by omega) (by omega) (by omega) (by omega) (by omega)
  rw [e] at F; obtain ⟨h0, h1, hd, ha, hf, hi⟩ := F
  have ri : w % 256 = _ := hi
  have k1 : Fin.ofNat 64 (w % 64) = n := Fin.ext (by simp only [Fin.ofNat]; omega)
  have k2 : w / 64 % 4 = 0 := by omega
  refine ⟨h0, ?_⟩
  rw [dec_26 h1]
  simp only [dec26, hd, ha, hf, k1, k2, toS_self] <;> rfl

theorem dbRd (d : SReg) (n : Fin 64) : Statement (.dbRd d n) := by
  intro _ w h
  have := d.isLt; have := n.isLt
  have e : encE 0x26 d 0 1 n = w := Option.some.inj h
  have F := encE_fields 0x26 d 0 1 n (by omega) (by omega) (by omega) (by omega) (by omega)
  rw [e] at F; obtain ⟨h0, h1, hd, ha, hf, hi⟩ := F
  have ri : w % 256 = _ := hi
  have k1 : Fin.ofNat 64 (w % 64) = n := Fin.ext (by simp only [Fin.ofNat]; omega)
  have k2 : w / 64 % 4 = 0 := by omega
  refine ⟨h0, ?_⟩
  rw [dec_26 h1]
  simp only [dec26, hd, ha, hf, k1, k2, toS_self] <;> rfl

theorem abInit (a b : SReg) (n : Fin 64) : Statement (.abInit a b n) := by
  intro _ w h
  have := a.isLt; have := b.isLt; have := n.isLt
  have e : encE 0x26 a b 2 n = w := Option.some.inj h
  have F := encE_fields 0x26 a b 2 n (by omega) (by omega) (by omega) (by omega) (by omega)
  rw [e] at F; obtain ⟨h0, h1, hd, ha, hf, hi⟩ := F
  have ri : w % 256 = _ := hi
  have k1 : Fin.ofNat 64 (w % 64) = n := Fin.ext (by simp only [Fin.ofNat]; omega)
  have k2 : w / 64 % 4 = 0 := by omega
  refine ⟨h0, ?_⟩
  rw [dec_26 h1]
  simp only [dec26, hd, ha, hf, k1, k2, toS_self] <;> rfl

theorem abArrive (a : SReg) (n : Fin 64) : Statement (.abArrive a n) := by
  intro _ w h
  have := a.isLt; have := n.isLt
  have e : encE 0x26 a 0 3 n = w := Option.some.inj h
  have F := encE_fields 0x26 a 0 3 n (by omega) (by omega) (by omega) (by omega) (by omega)
  rw [e] at F; obtain ⟨h0, h1, hd, ha, hf, hi⟩ := F
  have ri : w % 256 = _ := hi
  have k1 : Fin.ofNat 64 (w % 64) = n := Fin.ext (by simp only [Fin.ofNat]; omega)
  have k2 : w / 64 % 4 = 0 := by omega
  refine ⟨h0, ?_⟩
  rw [dec_26 h1]
  simp only [dec26, hd, ha, hf, k1, k2, toS_self] <;> rfl

theorem abWait (n : Fin 64) : Statement (.abWait n) := by
  intro _ w h
  have := n.isLt
  have e : encE 0x26 0 0 4 n = w := Option.some.inj h
  have F := encE_fields 0x26 0 0 4 n (by omega) (by omega) (by omega) (by omega) (by omega)
  rw [e] at F; obtain ⟨h0, h1, hd, ha, hf, hi⟩ := F
  have ri : w % 256 = _ := hi
  have k1 : Fin.ofNat 64 (w % 64) = n := Fin.ext (by simp only [Fin.ofNat]; omega)
  have k2 : w / 64 % 4 = 0 := by omega
  refine ⟨h0, ?_⟩
  rw [dec_26 h1]
  simp only [dec26, hd, ha, hf, k1, k2] <;> rfl

theorem abWaitNb (n : Fin 64) : Statement (.abWaitNb n) := by
  intro _ w h
  have := n.isLt
  have e : encE 0x26 0 0 5 n = w := Option.some.inj h
  have F := encE_fields 0x26 0 0 5 n (by omega) (by omega) (by omega) (by omega) (by omega)
  rw [e] at F; obtain ⟨h0, h1, hd, ha, hf, hi⟩ := F
  have ri : w % 256 = _ := hi
  have k1 : Fin.ofNat 64 (w % 64) = n := Fin.ext (by simp only [Fin.ofNat]; omega)
  have k2 : w / 64 % 4 = 0 := by omega
  refine ⟨h0, ?_⟩
  rw [dec_26 h1]
  simp only [dec26, hd, ha, hf, k1, k2] <;> rfl

theorem bar : Statement (.bar) := by
  intro _ w h
  have e : encE 0x26 0 0 6 0 = w := Option.some.inj h
  have F := encE_fields 0x26 0 0 6 0 (by omega) (by omega) (by omega) (by omega) (by omega)
  rw [e] at F; obtain ⟨h0, h1, hd, ha, hf, hi⟩ := F
  have ri : w % 256 = _ := hi
  refine ⟨h0, ?_⟩
  rw [dec_26 h1]
  simp only [dec26, hd, ha, hf, hi] <;> rfl

theorem tlLd (d a b : SReg) : Statement (.tlLd d a b) := by
  intro _ w h
  have := d.isLt; have := a.isLt; have := b.isLt
  have e : encE 0x29 a b 0 d = w := Option.some.inj h
  have F := encE_fields 0x29 a b 0 d (by omega) (by omega) (by omega) (by omega) (by omega)
  rw [e] at F; obtain ⟨h0, h1, hd, ha, hf, hi⟩ := F
  have k1 : d.val / 32 = 0 := by omega
  have k2 : d.val % 32 = d.val := by omega
  refine ⟨h0, ?_⟩
  rw [dec_29 h1]
  simp only [dec29, hd, ha, hf, hi, k1, k2, toS_self] <;> rfl

theorem tlMm (d a b : SReg) : Statement (.tlMm d a b) := by
  intro _ w h
  have := d.isLt; have := a.isLt; have := b.isLt
  have e : encE 0x29 a b 1 d = w := Option.some.inj h
  have F := encE_fields 0x29 a b 1 d (by omega) (by omega) (by omega) (by omega) (by omega)
  rw [e] at F; obtain ⟨h0, h1, hd, ha, hf, hi⟩ := F
  have k1 : d.val / 32 = 0 := by omega
  have k2 : d.val % 32 = d.val := by omega
  refine ⟨h0, ?_⟩
  rw [dec_29 h1]
  simp only [dec29, hd, ha, hf, hi, k1, k2, toS_self] <;> rfl

theorem tlEw (d a b : SReg) (o : EwOp) : Statement (.tlEw d a b o) := by
  intro _ w h
  have := d.isLt; have := a.isLt; have := b.isLt; have := EwOp_lt o
  have e : encE 0x29 a b 2 (o.code * 32 + d.val) = w := Option.some.inj h
  have F := encE_fields 0x29 a b 2 (o.code * 32 + d.val) (by omega) (by omega) (by omega) (by omega) (by omega)
  rw [e] at F; obtain ⟨h0, h1, hd, ha, hf, hi⟩ := F
  have k1 : (o.code * 32 + d.val) / 32 = o.code := by omega
  have k2 : (o.code * 32 + d.val) % 32 = d.val := by omega
  refine ⟨h0, ?_⟩
  rw [dec_29 h1]
  simp only [dec29, hd, ha, hf, hi, k1, k2, toS_self, EwOp_ofCode]

theorem tlMap (d a b : SReg) : Statement (.tlMap d a b) := by
  intro _ w h
  have := d.isLt; have := a.isLt; have := b.isLt
  have e : encE 0x29 a b 3 d = w := Option.some.inj h
  have F := encE_fields 0x29 a b 3 d (by omega) (by omega) (by omega) (by omega) (by omega)
  rw [e] at F; obtain ⟨h0, h1, hd, ha, hf, hi⟩ := F
  have k1 : d.val / 32 = 0 := by omega
  have k2 : d.val % 32 = d.val := by omega
  refine ⟨h0, ?_⟩
  rw [dec_29 h1]
  simp only [dec29, hd, ha, hf, hi, k1, k2, toS_self] <;> rfl

theorem tlRed (d a : SReg) (o : RedOp) (c : Bool) : Statement (.tlRed d a o c) := by
  intro _ w h
  have := d.isLt; have := a.isLt; have := RedOp_lt o; have := bit_lt c
  have e : encE 0x29 a 0 4 (bit c * 128 + o.code * 32 + d.val) = w := Option.some.inj h
  have F := encE_fields 0x29 a 0 4 (bit c * 128 + o.code * 32 + d.val) (by omega) (by omega) (by omega) (by omega)
     (by omega)
  rw [e] at F; obtain ⟨h0, h1, hd, ha, hf, hi⟩ := F
  have k1 : (bit c * 128 + o.code * 32 + d.val) / 32 = bit c * 4 + o.code := by omega
  have k2 : (bit c * 128 + o.code * 32 + d.val) % 32 = d.val := by omega
  have k3 : (bit c * 4 + o.code) % 4 = o.code := by omega
  have k4 : (bit c * 4 + o.code) / 4 = bit c := by omega
  refine ⟨h0, ?_⟩
  rw [dec_29 h1]
  simp only [dec29, hd, ha, hf, hi, k1, k2, k3, k4, toS_self, RedOp_ofCode, bit_eq] <;> rfl

theorem tlCvt (d a b : SReg) : Statement (.tlCvt d a b) := by
  intro _ w h
  have := d.isLt; have := a.isLt; have := b.isLt
  have e : encE 0x29 a b 5 d = w := Option.some.inj h
  have F := encE_fields 0x29 a b 5 d (by omega) (by omega) (by omega) (by omega) (by omega)
  rw [e] at F; obtain ⟨h0, h1, hd, ha, hf, hi⟩ := F
  have k1 : d.val / 32 = 0 := by omega
  have k2 : d.val % 32 = d.val := by omega
  refine ⟨h0, ?_⟩
  rw [dec_29 h1]
  simp only [dec29, hd, ha, hf, hi, k1, k2, toS_self] <;> rfl

theorem tlForce (a b : SReg) : Statement (.tlForce a b) := by
  intro _ w h
  have := a.isLt; have := b.isLt
  have e : encE 0x29 a b 6 0 = w := Option.some.inj h
  have F := encE_fields 0x29 a b 6 0 (by omega) (by omega) (by omega) (by omega) (by omega)
  rw [e] at F; obtain ⟨h0, h1, hd, ha, hf, hi⟩ := F
  refine ⟨h0, ?_⟩
  rw [dec_29 h1]
  simp only [dec29, hd, ha, hf, hi, toS_self] <;> rfl

theorem tlSt (a b r : SReg) : Statement (.tlSt a b r) := by
  intro _ w h
  have := a.isLt; have := b.isLt; have := r.isLt
  have e : encE 0x29 a b 7 r = w := Option.some.inj h
  have F := encE_fields 0x29 a b 7 r (by omega) (by omega) (by omega) (by omega) (by omega)
  rw [e] at F; obtain ⟨h0, h1, hd, ha, hf, hi⟩ := F
  have k1 : r.val / 32 = 0 := by omega
  have k2 : r.val % 32 = r.val := by omega
  refine ⟨h0, ?_⟩
  rw [dec_29 h1]
  simp only [dec29, hd, ha, hf, hi, k1, k2, toS_self] <;> rfl

theorem tlPin (a : SReg) : Statement (.tlPin a) := by
  intro _ w h
  have := a.isLt
  have e : encE 0x29 a 0 8 0 = w := Option.some.inj h
  have F := encE_fields 0x29 a 0 8 0 (by omega) (by omega) (by omega) (by omega) (by omega)
  rw [e] at F; obtain ⟨h0, h1, hd, ha, hf, hi⟩ := F
  refine ⟨h0, ?_⟩
  rw [dec_29 h1]
  simp only [dec29, hd, ha, hf, hi, toS_self] <;> rfl

theorem tlDrop (a : SReg) : Statement (.tlDrop a) := by
  intro _ w h
  have := a.isLt
  have e : encE 0x29 a 0 9 0 = w := Option.some.inj h
  have F := encE_fields 0x29 a 0 9 0 (by omega) (by omega) (by omega) (by omega) (by omega)
  rw [e] at F; obtain ⟨h0, h1, hd, ha, hf, hi⟩ := F
  refine ⟨h0, ?_⟩
  rw [dec_29 h1]
  simp only [dec29, hd, ha, hf, hi, toS_self] <;> rfl

theorem tlStat (d a b : SReg) : Statement (.tlStat d a b) := by
  intro _ w h
  have := d.isLt; have := a.isLt; have := b.isLt
  have e : encE 0x29 a b 10 d = w := Option.some.inj h
  have F := encE_fields 0x29 a b 10 d (by omega) (by omega) (by omega) (by omega) (by omega)
  rw [e] at F; obtain ⟨h0, h1, hd, ha, hf, hi⟩ := F
  have k1 : d.val / 32 = 0 := by omega
  have k2 : d.val % 32 = d.val := by omega
  refine ⟨h0, ?_⟩
  rw [dec_29 h1]
  simp only [dec29, hd, ha, hf, hi, k1, k2, toS_self] <;> rfl

theorem tlSync (p c : Bool) : Statement (.tlSync p c) := by
  intro _ w h
  have := bit_lt p; have := bit_lt c
  have e : encE 0x29 0 0 11 (bit c * 2 + bit p) = w := Option.some.inj h
  have F := encE_fields 0x29 0 0 11 (bit c * 2 + bit p) (by omega) (by omega) (by omega) (by omega) (by omega)
  rw [e] at F; obtain ⟨h0, h1, hd, ha, hf, hi⟩ := F
  refine ⟨h0, ?_⟩
  rw [dec_29 h1]
  simp only [dec29, hd, ha, hf, hi] <;>
    (cases p <;> cases c <;> rfl)

theorem jobSub (a b : SReg) : Statement (.jobSub a b) := by
  intro _ w h
  have := a.isLt; have := b.isLt
  have e : encE 0x2A a b 0 0 = w := Option.some.inj h
  have F := encE_fields 0x2A a b 0 0 (by omega) (by omega) (by omega) (by omega) (by omega)
  rw [e] at F; obtain ⟨h0, h1, hd, ha, hf, hi⟩ := F
  refine ⟨h0, ?_⟩
  rw [dec_2A h1]
  simp only [dec2A, hd, ha, hf, hi, toS_self] <;> rfl

theorem jobWait (a : SReg) : Statement (.jobWait a) := by
  intro _ w h
  have := a.isLt
  have e : encE 0x2A a 0 1 0 = w := Option.some.inj h
  have F := encE_fields 0x2A a 0 1 0 (by omega) (by omega) (by omega) (by omega) (by omega)
  rw [e] at F; obtain ⟨h0, h1, hd, ha, hf, hi⟩ := F
  refine ⟨h0, ?_⟩
  rw [dec_2A h1]
  simp only [dec2A, hd, ha, hf, hi, toS_self] <;> rfl

theorem jobPoll (a b : SReg) : Statement (.jobPoll a b) := by
  intro _ w h
  have := a.isLt; have := b.isLt
  have e : encE 0x2A a b 2 0 = w := Option.some.inj h
  have F := encE_fields 0x2A a b 2 0 (by omega) (by omega) (by omega) (by omega) (by omega)
  rw [e] at F; obtain ⟨h0, h1, hd, ha, hf, hi⟩ := F
  refine ⟨h0, ?_⟩
  rw [dec_2A h1]
  simp only [dec2A, hd, ha, hf, hi, toS_self] <;> rfl

theorem jobCancel (a : SReg) : Statement (.jobCancel a) := by
  intro _ w h
  have := a.isLt
  have e : encE 0x2A a 0 3 0 = w := Option.some.inj h
  have F := encE_fields 0x2A a 0 3 0 (by omega) (by omega) (by omega) (by omega) (by omega)
  rw [e] at F; obtain ⟨h0, h1, hd, ha, hf, hi⟩ := F
  refine ⟨h0, ?_⟩
  rw [dec_2A h1]
  simp only [dec2A, hd, ha, hf, hi, toS_self] <;> rfl

theorem tmOpen (a : SReg) (n : Fin 16) : Statement (.tmOpen a n) := by
  intro _ w h
  have := a.isLt; have := n.isLt
  have e : encE 0x2B a 0 0 n = w := Option.some.inj h
  have F := encE_fields 0x2B a 0 0 n (by omega) (by omega) (by omega) (by omega) (by omega)
  rw [e] at F; obtain ⟨h0, h1, hd, ha, hf, hi⟩ := F
  have ri : w % 256 = _ := hi
  have k1 : Fin.ofNat 16 (w % 16) = n := Fin.ext (by simp only [Fin.ofNat]; omega)
  have k2 : w / 16 % 16 = 0 := by omega
  refine ⟨h0, ?_⟩
  rw [dec_2B h1]
  simp only [dec2B, hd, ha, hf, k1, k2, toS_self] <;> rfl

theorem tmPut (a b : SReg) (n : Fin 16) : Statement (.tmPut a b n) := by
  intro _ w h
  have := a.isLt; have := b.isLt; have := n.isLt
  have e : encE 0x2B a b 1 n = w := Option.some.inj h
  have F := encE_fields 0x2B a b 1 n (by omega) (by omega) (by omega) (by omega) (by omega)
  rw [e] at F; obtain ⟨h0, h1, hd, ha, hf, hi⟩ := F
  have ri : w % 256 = _ := hi
  have k1 : Fin.ofNat 16 (w % 16) = n := Fin.ext (by simp only [Fin.ofNat]; omega)
  have k2 : w / 16 % 16 = 0 := by omega
  refine ⟨h0, ?_⟩
  rw [dec_2B h1]
  simp only [dec2B, hd, ha, hf, k1, k2, toS_self] <;> rfl

theorem tmMark (a : SReg) (n : Fin 16) : Statement (.tmMark a n) := by
  intro _ w h
  have := a.isLt; have := n.isLt
  have e : encE 0x2B a 0 2 n = w := Option.some.inj h
  have F := encE_fields 0x2B a 0 2 n (by omega) (by omega) (by omega) (by omega) (by omega)
  rw [e] at F; obtain ⟨h0, h1, hd, ha, hf, hi⟩ := F
  have ri : w % 256 = _ := hi
  have k1 : Fin.ofNat 16 (w % 16) = n := Fin.ext (by simp only [Fin.ofNat]; omega)
  have k2 : w / 16 % 16 = 0 := by omega
  refine ⟨h0, ?_⟩
  rw [dec_2B h1]
  simp only [dec2B, hd, ha, hf, k1, k2, toS_self] <;> rfl

theorem tmCommit (n : Fin 16) : Statement (.tmCommit n) := by
  intro _ w h
  have := n.isLt
  have e : encE 0x2B 0 0 3 n = w := Option.some.inj h
  have F := encE_fields 0x2B 0 0 3 n (by omega) (by omega) (by omega) (by omega) (by omega)
  rw [e] at F; obtain ⟨h0, h1, hd, ha, hf, hi⟩ := F
  have ri : w % 256 = _ := hi
  have k1 : Fin.ofNat 16 (w % 16) = n := Fin.ext (by simp only [Fin.ofNat]; omega)
  have k2 : w / 16 % 16 = 0 := by omega
  refine ⟨h0, ?_⟩
  rw [dec_2B h1]
  simp only [dec2B, hd, ha, hf, k1, k2] <;> rfl

theorem tmPoll (d b : SReg) (n : Fin 16) : Statement (.tmPoll d b n) := by
  intro _ w h
  have := d.isLt; have := b.isLt; have := n.isLt
  have e : encE 0x2B d b 4 n = w := Option.some.inj h
  have F := encE_fields 0x2B d b 4 n (by omega) (by omega) (by omega) (by omega) (by omega)
  rw [e] at F; obtain ⟨h0, h1, hd, ha, hf, hi⟩ := F
  have ri : w % 256 = _ := hi
  have k1 : Fin.ofNat 16 (w % 16) = n := Fin.ext (by simp only [Fin.ofNat]; omega)
  have k2 : w / 16 % 16 = 0 := by omega
  refine ⟨h0, ?_⟩
  rw [dec_2B h1]
  simp only [dec2B, hd, ha, hf, k1, k2, toS_self] <;> rfl

theorem tmAbort (n : Fin 16) : Statement (.tmAbort n) := by
  intro _ w h
  have := n.isLt
  have e : encE 0x2B 0 0 5 n = w := Option.some.inj h
  have F := encE_fields 0x2B 0 0 5 n (by omega) (by omega) (by omega) (by omega) (by omega)
  rw [e] at F; obtain ⟨h0, h1, hd, ha, hf, hi⟩ := F
  have ri : w % 256 = _ := hi
  have k1 : Fin.ofNat 16 (w % 16) = n := Fin.ext (by simp only [Fin.ofNat]; omega)
  have k2 : w / 16 % 16 = 0 := by omega
  refine ⟨h0, ?_⟩
  rw [dec_2B h1]
  simp only [dec2B, hd, ha, hf, k1, k2] <;> rfl

theorem spawn (a b : SReg) : Statement (.spawn a b) := by
  intro _ w h
  have := a.isLt; have := b.isLt
  have e : encE 0x2C a b 0 0 = w := Option.some.inj h
  have F := encE_fields 0x2C a b 0 0 (by omega) (by omega) (by omega) (by omega) (by omega)
  rw [e] at F; obtain ⟨h0, h1, hd, ha, hf, hi⟩ := F
  refine ⟨h0, ?_⟩
  rw [dec_2C h1]
  simp only [dec2C, hd, ha, hf, hi, toS_self] <;> rfl

theorem spawnX (a b : SReg) : Statement (.spawnX a b) := by
  intro _ w h
  have := a.isLt; have := b.isLt
  have e : encE 0x2C a b 1 0 = w := Option.some.inj h
  have F := encE_fields 0x2C a b 1 0 (by omega) (by omega) (by omega) (by omega) (by omega)
  rw [e] at F; obtain ⟨h0, h1, hd, ha, hf, hi⟩ := F
  refine ⟨h0, ?_⟩
  rw [dec_2C h1]
  simp only [dec2C, hd, ha, hf, hi, toS_self] <;> rfl

theorem join (a : SReg) : Statement (.join a) := by
  intro _ w h
  have := a.isLt
  have e : encE 0x2C a 0 2 0 = w := Option.some.inj h
  have F := encE_fields 0x2C a 0 2 0 (by omega) (by omega) (by omega) (by omega) (by omega)
  rw [e] at F; obtain ⟨h0, h1, hd, ha, hf, hi⟩ := F
  refine ⟨h0, ?_⟩
  rw [dec_2C h1]
  simp only [dec2C, hd, ha, hf, hi, toS_self] <;> rfl

theorem waitJ (a : SReg) : Statement (.waitJ a) := by
  intro _ w h
  have := a.isLt
  have e : encE 0x2C a 0 3 0 = w := Option.some.inj h
  have F := encE_fields 0x2C a 0 3 0 (by omega) (by omega) (by omega) (by omega) (by omega)
  rw [e] at F; obtain ⟨h0, h1, hd, ha, hf, hi⟩ := F
  refine ⟨h0, ?_⟩
  rw [dec_2C h1]
  simp only [dec2C, hd, ha, hf, hi, toS_self] <;> rfl

theorem forkL (a d : SReg) : Statement (.forkL a d) := by
  intro _ w h
  have := a.isLt; have := d.isLt
  have e : encE 0x2C a d 4 0 = w := Option.some.inj h
  have F := encE_fields 0x2C a d 4 0 (by omega) (by omega) (by omega) (by omega) (by omega)
  rw [e] at F; obtain ⟨h0, h1, hd, ha, hf, hi⟩ := F
  refine ⟨h0, ?_⟩
  rw [dec_2C h1]
  simp only [dec2C, hd, ha, hf, hi, toS_self] <;> rfl

theorem joinL : Statement (.joinL) := by
  intro _ w h
  have e : encE 0x2C 0 0 5 0 = w := Option.some.inj h
  have F := encE_fields 0x2C 0 0 5 0 (by omega) (by omega) (by omega) (by omega) (by omega)
  rw [e] at F; obtain ⟨h0, h1, hd, ha, hf, hi⟩ := F
  refine ⟨h0, ?_⟩
  rw [dec_2C h1]
  simp only [dec2C, hd, ha, hf, hi] <;> rfl

theorem yield : Statement (.yield) := by
  intro _ w h
  have e : encE 0x2C 0 0 6 0 = w := Option.some.inj h
  have F := encE_fields 0x2C 0 0 6 0 (by omega) (by omega) (by omega) (by omega) (by omega)
  rw [e] at F; obtain ⟨h0, h1, hd, ha, hf, hi⟩ := F
  refine ⟨h0, ?_⟩
  rw [dec_2C h1]
  simp only [dec2C, hd, ha, hf, hi] <;> rfl

theorem exit : Statement (.exit) := by
  intro _ w h
  have e : encE 0x2C 0 0 7 0 = w := Option.some.inj h
  have F := encE_fields 0x2C 0 0 7 0 (by omega) (by omega) (by omega) (by omega) (by omega)
  rw [e] at F; obtain ⟨h0, h1, hd, ha, hf, hi⟩ := F
  refine ⟨h0, ?_⟩
  rw [dec_2C h1]
  simp only [dec2C, hd, ha, hf, hi] <;> rfl

theorem prio (a : SReg) : Statement (.prio a) := by
  intro _ w h
  have := a.isLt
  have e : encE 0x2C a 0 8 0 = w := Option.some.inj h
  have F := encE_fields 0x2C a 0 8 0 (by omega) (by omega) (by omega) (by omega) (by omega)
  rw [e] at F; obtain ⟨h0, h1, hd, ha, hf, hi⟩ := F
  refine ⟨h0, ?_⟩
  rw [dec_2C h1]
  simp only [dec2C, hd, ha, hf, hi, toS_self] <;> rfl

theorem coach (d : SReg) : Statement (.coach d) := by
  intro _ w h
  have := d.isLt
  have e : encE 0x2C d 0 9 0 = w := Option.some.inj h
  have F := encE_fields 0x2C d 0 9 0 (by omega) (by omega) (by omega) (by omega) (by omega)
  rw [e] at F; obtain ⟨h0, h1, hd, ha, hf, hi⟩ := F
  refine ⟨h0, ?_⟩
  rw [dec_2C h1]
  simp only [dec2C, hd, ha, hf, hi, toS_self] <;> rfl

theorem quench : Statement (.quench) := by
  intro _ w h
  have e : encE 0x2D 0 0 0 0 = w := Option.some.inj h
  have F := encE_fields 0x2D 0 0 0 0 (by omega) (by omega) (by omega) (by omega) (by omega)
  rw [e] at F; obtain ⟨h0, h1, hd, ha, hf, hi⟩ := F
  refine ⟨h0, ?_⟩
  rw [dec_2D h1]
  simp only [dec2D, hd, ha, hf, hi] <;> rfl

theorem sabort : Statement (.sabort) := by
  intro _ w h
  have e : encE 0x2D 0 0 1 0 = w := Option.some.inj h
  have F := encE_fields 0x2D 0 0 1 0 (by omega) (by omega) (by omega) (by omega) (by omega)
  rw [e] at F; obtain ⟨h0, h1, hd, ha, hf, hi⟩ := F
  refine ⟨h0, ?_⟩
  rw [dec_2D h1]
  simp only [dec2D, hd, ha, hf, hi] <;> rfl

theorem brk (b : BitVec 26) : Statement (.brk b) := by
  intro _ w h
  have := b.isLt
  have e : encJ 0x3F b.toNat = w := Option.some.inj h
  have F := encJ_fields 0x3F b.toNat (by omega) (by omega)
  rw [e] at F; obtain ⟨h0, h1, g1⟩ := F
  have k1 : BitVec.ofNat 26 w = b := ofNat_eq b _ (by omega)
  refine ⟨h0, ?_⟩
  rw [dec_3F h1]
  rw [k1]

theorem producerWriteback : Statement (.producerWriteback) := fun _ _ h => nomatch h
theorem vectorEntryExecute : Statement (.vectorEntryExecute) := fun _ _ h => nomatch h
theorem anvilQueueExecute (die : DieNo) (cell : CellNo) : Statement (.anvilQueueExecute die cell) := fun _ _ h =>
     nomatch h
theorem registerSoftError (place : SoftErrorPlace) (kind : SoftErrorKind) : Statement (.registerSoftError place kind) :=
  fun _ _ h => nomatch h
theorem streamFetch (n : HReg) : Statement (.streamFetch n) := fun _ _ h => nomatch h
theorem taskDispatch (die : DieNo) (cell : CellNo) : Statement (.taskDispatch die cell) := fun _ _ h => nomatch h
theorem stripBudgetExpiry : Statement (.stripBudgetExpiry) := fun _ _ h => nomatch h
theorem cancelBudgetExpiry : Statement (.cancelBudgetExpiry) := fun _ _ h => nomatch h
theorem wfeTimeout : Statement (.wfeTimeout) := fun _ _ h => nomatch h
theorem engineJobStart (die : DieNo) (card : Nat) : Statement (.engineJobStart die card) := fun _ _ h => nomatch h
theorem deliveryArrival (die : DieNo) (card : Nat) : Statement (.deliveryArrival die card) := fun _ _ h => nomatch h
theorem engineJobComplete (die : DieNo) (card : Nat) : Statement (.engineJobComplete die card) := fun _ _ h =>
     nomatch h
theorem watchdogExpiry (die : DieNo) (card : Nat) : Statement (.watchdogExpiry die card) := fun _ _ h => nomatch h
theorem codecRowPublish (die : DieNo) (card : Nat) (rows : Nat) : Statement (.codecRowPublish die card rows) := fun
     _ _ h => nomatch h
theorem temperPhaseTwo (die : DieNo) (slot : Fin 16) : Statement (.temperPhaseTwo die slot) := fun _ _ h => nomatch h
theorem collectiveHop (die : DieNo) (card : Nat) (hop : Hop) : Statement (.collectiveHop die card hop) := fun _ _ h
     => nomatch h
theorem collectiveCommit (die : DieNo) (card : Nat) (tag : HopTag) : Statement (.collectiveCommit die card tag) :=
     fun _ _ h => nomatch h
theorem collectiveAbort (die : DieNo) (card : Nat) (tag : HopTag) : Statement (.collectiveAbort die card tag) := fun
     _ _ h => nomatch h
theorem spawnXReceive (die : DieNo) (packet : SpawnPacket) : Statement (.spawnXReceive die packet) := fun _ _ h =>
     nomatch h
theorem spawnXAck (number : Nat) (node : BitVec 19) (refusal : Option (BitVec 8)) : Statement (.spawnXAck number
     node refusal) := fun _ _ h => nomatch h
theorem spawnXAckTimeout (number : Nat) : Statement (.spawnXAckTimeout number) := fun _ _ h => nomatch h
theorem flitReceive (die : DieNo) (port : Fin 8) (flit : Block) (trailer : Word) : Statement (.flitReceive die port
     flit trailer) := fun _ _ h => nomatch h
theorem portFail (die : DieNo) (port : Fin 8) : Statement (.portFail die port) := fun _ _ h => nomatch h
theorem linkUp (die : DieNo) (hostMax : BitVec 8) : Statement (.linkUp die hostMax) := fun _ _ h => nomatch h
theorem launch (link : DieNo) (hdr : MsgHdr) (body : LaunchBody) : Statement (.launch link hdr body) := fun _ _ h =>
     nomatch h
theorem cancel (link : DieNo) (hdr : MsgHdr) : Statement (.cancel link hdr) := fun _ _ h => nomatch h
theorem windowOpen (link : DieNo) (hdr : MsgHdr) (window : BitVec 6) (base len : Word) : Statement (.windowOpen link
     hdr window base len) := fun _ _ h => nomatch h
theorem windowClose (link : DieNo) (hdr : MsgHdr) (window : BitVec 6) : Statement (.windowClose link hdr window) :=
     fun _ _ h => nomatch h
theorem slotRelease (link : DieNo) (hdr : MsgHdr) (die : DieNo) (cell : BitVec 6) (slot : SlotNo) : Statement
     (.slotRelease link hdr die cell slot) := fun _ _ h => nomatch h
theorem quote (link : DieNo) (hdr : MsgHdr) (nonce : BitVec 256) : Statement (.quote link hdr nonce) := fun _ _ h =>
     nomatch h
theorem island (link : DieNo) (hdr : MsgHdr) (number : BitVec 9) (voltage frequency : BitVec 8) : Statement (.island
     link hdr number voltage frequency) := fun _ _ h => nomatch h
theorem islandChangeComplete (number : Fin 512) : Statement (.islandChangeComplete number) := fun _ _ h => nomatch h
theorem qgo (die : DieNo) (nonce : BitVec 256) : Statement (.qgo die nonce) := fun _ _ h => nomatch h
theorem thermalThrottle (die : DieNo) (why : Throttle) : Statement (.thermalThrottle die why) := fun _ _ h => nomatch h
theorem thermalTrip (die : DieNo) (temp : BitVec 8) : Statement (.thermalTrip die temp) := fun _ _ h => nomatch h
theorem dieReset (die : DieNo) : Statement (.dieReset die) := fun _ _ h => nomatch h
theorem startUp (die : DieNo) (plan : BootPlan) : Statement (.startUp die plan) := fun _ _ h => nomatch h
theorem notAnInstruction (word : BitVec 32) (cause : BitVec 8) : Statement (.notAnInstruction word cause) := fun _ _
     h => nomatch h
theorem instructionFetchFault (cause : BitVec 8) : Statement (.instructionFetchFault cause) := fun _ _ h => nomatch h
theorem outputStreamPerform (n : HReg) : Statement (.outputStreamPerform n) := fun _ _ h => nomatch h
theorem ewetricLinkUp (die : DieNo) (port : Fin 8) (generation : Fin 4) : Statement (.ewetricLinkUp die port
     generation) := fun _ _ h => nomatch h

end Sys2Proof.Laws.Encoding
end

