-- ==== Sys2Proof/Tests/Witnesses.lean ====
section
/-!
SUPPORT. Concrete states and operands that meet the hypotheses of the statements, clause by clause.
-/
set_option Elab.async false

namespace Sys2Proof.Machine

/-! ## A module at work -/

/-- Hart 1 of task 1 and job 7 runs at level 3 on two carriages of cell 0 of die 0, with s1 = 0x2000, s2 = 5 and
s3 = 0x3000. -/
def wHart : Hart := { Hart.vacant with
  hid := 1, task := 1, status := .running, pc := 0x1000, grant := 3, priv := { cur := 3 }, job := 7, ceil := 9
  trap := { tvec := 0x1000 }, vl := 3, gatebase := 0x2002
  sreg := ((Hart.vacant.sreg.set 1 0x2000).set 2 5).set 3 0x3000 }

/-- Page 1 can be executed, page 2 read and written, page 3 holds blocks, page 4 is shared
by a die; each lies where its number says. -/
def wTlb : List TlbEntry := [⟨0, 1, 0, 0x1009⟩, ⟨0, 2, 0, 0x2007⟩, ⟨0, 3, 0, 0x3047⟩, ⟨0, 4, 0, 0x4687⟩]

def wTask : Task := { tid := 1, job := 7, level := 0, join := 0, die := 0, cell := 0, part := 0, size := 1, live := 1 }
def wJob : Job :=
  { job := 7, asid := 0, gatebase := 0, ceil := 9, cont := 0, die := 0, cell := 0, link := 0, trusted := true, count := 2 }

def wState : State := { State.reset with
  hart := wHart, cells := State.reset.cells.set 0 { tlb := wTlb, saveArea := 0x100000 }, mem := [(0x1003, 0x10), (0x2011, 0x10), (0x2018, 0x0B)]
  tasks := [wTask], jobs := [wJob], nextHid := 2, nextTid := 2, mode := .normal }

/-- The machine with its hart changed. -/
def wOf (f : Hart → Hart) : State := wState.onlyHart f

/-- The machine with s4 = v. -/
def wVal (v : Word) : State := wOf fun h => { h with sreg := h.sreg.set 4 v }

/-- The machine with s4 empty: a producer has its result on the way. -/
def wEmpty : State := wOf fun h => { h with producers := [{ dest := .scalar 4 9 }] }

/-- The machine with a word at its pc. -/
def wWord (w : Nat) : State := wState.storeLe 0x1000 4 w

theorem okOf {α β : Type} {x : Except α β} (h : x.toBool = true) : ∃ y, x = .ok y := by
  cases x with
  | ok y => exact ⟨y, rfl⟩
  | error e => cases h

theorem wGives0 (h : Hart) : h.Gives 0 0 := .inl ⟨rfl, rfl⟩
theorem wGives1 : wState.hart.Gives 1 0x2000 := .inr (by decide)
theorem wGives2 : wState.hart.Gives 2 5 := .inr (by decide)
theorem wGives3 : wState.hart.Gives 3 0x3000 := .inr (by decide)
theorem wGives4 (v : Word) : (wVal v).hart.Gives 4 v := .inr ⟨by decide, rfl, rfl, rfl⟩
theorem errOf {α β : Type} [DecidableEq α] {x : Except α β} {c : α}
    (h : (match x with | .ok _ => false | .error e => decide (e = c)) = true) : x = .error c := by
  cases x with
  | ok y => cases h
  | error e => exact congrArg _ (of_decide_eq_true h)

theorem okIs {α β : Type} [DecidableEq β] {x : Except α β} {y : β}
    (h : (match x with | .ok z => decide (z = y) | .error _ => false) = true) : x = .ok y := by
  cases x with
  | ok z => exact congrArg _ (of_decide_eq_true h)
  | error e => cases h

/-- The hart as far as a fetch at its handler looks. -/
def entering (s : State) : Hart :=
  { s.hart with pc := handlerOf s s.hart, priv := { s.hart.priv with cur := if s.hart.priv.cur < 2 then 2 else s.hart.priv.cur } }

theorem readyOf {s : State} (h : s.hart.status = .running) (p : (fetchPlace s (entering s)).toBool = true) (t : Trap) :
    HandlerReady s t := by
  have e : fetchPlace s (s.hart.enterTrap t s.hart.pc 0 false (handlerOf s s.hart)) = fetchPlace s (entering s) := by
    unfold fetchPlace; rfl
  exact ⟨h, e ▸ okOf p⟩

/-- With no handle bound, nothing released is still to be performed; with no vector instruction either, no vector memory
access is outstanding. -/
theorem wDone {h : Hart} (b : ∀ n : HReg, h.handles[n].bound = false := by decide +kernel) : h.OutputsDone :=
  fun n e => nomatch (b n).symm.trans e

theorem wQuiet (s : State) (v : s.hart.vq = []) (b : ∀ n : HReg, s.hart.handles[n].bound = false := by decide +kernel) :
    s.hart.NoVectorMemory :=
  ⟨fun e m => (nomatch (v ▸ m : e ∈ ([] : List VEntry))), wDone b⟩

theorem wReady (t : Trap) : HandlerReady wState t := readyOf rfl (by decide +kernel) t

/-! ## Encodings and steps -/

theorem witness_DecodeInvertsEncode :
    (Instr.addi 31 31 0x7FFF true).wellFormed = true ∧ encode (.addi 31 31 0x7FFF true) = some 0x0BFFFFFF ∧
      (Instr.vwfma 24 31 31 .e4m3 true true).wellFormed = true ∧
      encode (.vwfma 24 31 31 .e4m3 true true) = some 0x671FF813 := ⟨rfl, rfl, rfl, rfl⟩

theorem witness_StepRunsDecodedInstruction :
    mayIssue wState = true ∧ wState.hart.status = .running ∧
      (∃ p, fetchPlace wState wState.hart = .ok p ∧ decode (wState.mem.readLe p.pa 4) = .ok (.ori 0 0 0 false)) ∧
      (∃ p, fetchPlace (wWord 0) (wWord 0).hart = .ok p ∧ decode ((wWord 0).mem.readLe p.pa 4) = .illegal) ∧
      (∃ p, fetchPlace (wWord 0x50000001) (wWord 0x50000001).hart = .ok p ∧
        decode ((wWord 0x50000001).mem.readLe p.pa 4) = .reserved) ∧
      (∃ p, fetchPlace (wWord 0x64C11010) (wWord 0x64C11010).hart = .ok p ∧
        decode ((wWord 0x64C11010).mem.readLe p.pa 4) = .misaligned) ∧
      (let s := wOf fun h => { h with pc := 0x9000 }
       mayIssue s = true ∧ s.hart.status = .running ∧ fetchPlace s s.hart = .error 0x10) :=
  ⟨by decide +kernel, rfl, ⟨_, rfl, rfl⟩, ⟨_, rfl, by decide +kernel⟩, ⟨_, rfl, by decide +kernel⟩,
    ⟨_, rfl, by decide +kernel⟩, by decide +kernel, rfl, errOf (by decide +kernel)⟩

/-- An append of a tile while the lanes of its cell change, and while nothing does. -/
theorem witness_StepRunsDecodedInstruction_waits :
    (let s := { wWord 0xA58D0209 with changing := [{ number := 0, step := 0 }] }
     mayIssue s = true ∧ s.hart.status = .running ∧
       ∃ p, fetchPlace s s.hart = .ok p ∧ decode (s.mem.readLe p.pa 4) = .ok (.tlEw 9 12 13 .add) ∧
         instrWaits (tlbFill s s.hart.agent s.hart.pc p.leaf) (.tlEw 9 12 13 .add) = true) ∧
    wState.changing = [] ∧ instrWaits wState (.ori 0 0 0 false) = false :=
  ⟨⟨by decide +kernel, rfl, _, rfl, by decide +kernel, by decide +kernel⟩, rfl, rfl⟩

theorem witness_StepRunsDecodedInstruction_turn : wState.agenda = [] ∧ background wState = none :=
  ⟨rfl, by decide +kernel⟩

theorem witness_StepRunsDecodedInstruction_next : ∃ t, issue wState = .next t := ⟨_, rfl⟩

theorem witness_StepKeepsCanonicalData :
    (wState.onlyHart id).canonical = true ∧ ∃ t, step { wState with agenda := [.issue] } = .next t :=
  ⟨by decide +kernel, _, rfl⟩

/-! ## Scalar registers, control transfer, traps -/

def wBusy : Hart := { wHart with producers := [{ dest := .scalar 4 9 }], spoison := wHart.spoison.set 5 true }

theorem witness_ScalarRegisterFile :
    wBusy.Gives 1 0x2000 ∧ wBusy.emptyS 4 = true ∧ (5 : SReg) ≠ 0 ∧ wBusy.emptyS 5 = false ∧ wBusy.spoison[(5 : SReg)] = true :=
  ⟨.inr (by decide), by decide, by decide, by decide, by decide⟩

theorem witness_ScalarIntegerResult :
    (wState.hart.Gives 1 0x2000 ∧ wState.hart.Gives 2 5 ∧ wState.hart.Full 31) ∧
      (wState.hart.Gives 0 0 ∧ wState.hart.Full 0) ∧
      (wEmpty.hart.emptyS 4 = true ∧ wEmpty.hart.Gives 1 0x2000 ∧ wEmpty.hart.Full 31 ∧
        HandlerReady wEmpty { cause := 0x04, addr := BitVec.ofNat 64 4 }) :=
  ⟨⟨wGives1, wGives2, rfl⟩, ⟨wGives0 _, rfl⟩, by decide +kernel, .inr (by decide), rfl, readyOf rfl (by decide +kernel) _⟩

theorem witness_ScalarConstantResult : wState.hart.Full 31 ∧ wState.hart.Full 0 := ⟨rfl, rfl⟩

theorem witness_CompareAndConditionResult : wState.hart.Gives 1 0x2000 ∧ wState.hart.Gives 0 0 ∧ wState.hart.Full 1 :=
  ⟨wGives1, wGives0 _, rfl⟩

theorem witness_ScalarFloatResult :
    wState.hart.Gives 1 0x2000 ∧ wState.hart.Gives 2 5 ∧ wState.hart.Full 3 ∧ wState.hart.Gives 3 0x3000 :=
  ⟨wGives1, wGives2, rfl, wGives3⟩

theorem witness_ControlTransfer :
    (wState.hart.Gives 1 0x2000 ∧ wState.hart.Gives 31 0 ∧ wState.hart.Full 31 ∧ (0x2000 : Word).toNat % 4 = 0 ∧
      bitsOf 0x2000 63 56 = 0 ∧ (0 : Word).toNat % 4 = 0 ∧ bitsOf 0 63 56 = 0) ∧
    ((wVal 1).hart.Gives 4 1 ∧ (1 : Word).toNat % 4 ≠ 0 ∧ HandlerReady (wVal 1) { cause := 0x05, addr := 1 }) ∧
    ((wVal 0x8000000000000000).hart.Gives 4 0x8000000000000000 ∧ bitsOf 0x8000000000000000 63 56 = 128 ∧
      HandlerReady (wVal 0x8000000000000000) { cause := 0x11, addr := 0x8000000000000000 }) ∧
    let s := wOf fun h => { h with sreg := h.sreg.set 31 3 }
    s.hart.Gives 31 3 ∧ HandlerReady s { cause := 0x05, addr := 3 } :=
  ⟨⟨wGives1, .inr (by decide), rfl, by decide, by decide, by decide, by decide⟩,
    ⟨wGives4 1, by decide, readyOf rfl (by decide +kernel) _⟩,
    ⟨wGives4 _, by decide, readyOf rfl (by decide +kernel) _⟩, .inr (by decide),
    readyOf rfl (by decide +kernel) _⟩

theorem witness_GateAndReturn_gate : ∃ (s1 : State) (x : Nat),
    1 < bitsOf wState.hart.gatebase 10 0 ∧ wState.hart.NoVectorMemory ∧ wState.hart.Full 31 ∧
      loadValue wState ((wState.hart.gatebase &&& ~~~0xFFF) + BitVec.ofNat 64 (16 * 1)) 16 = .ok (x, s1) ∧
      x / 2 ^ 64 / 8 % 2 = 1 ∧ x / 2 ^ 64 < 16 ∧ wState.hart.priv.cur.toNat ≤ x / 2 ^ 64 % 4 ∧ x % 4 = 0 :=
  ⟨_, 0xB0000000000001000, by decide, wQuiet _ rfl, rfl, rfl, by decide⟩

/-- The machine with gate 1 going to a target, with the fields of its second word. -/
def wGate (target fields : Nat) : State := (wState.storeLe 0x2010 8 target).storeLe 0x2018 8 fields

theorem witness_GateAndReturn_refused :
    (wGate 0 0).hart.NoVectorMemory ∧ (1 : Fin 1024).val < bitsOf (wGate 0 0).hart.gatebase 10 0 ∧
    (∀ f ∈ [0x03, 0x1B, 0x0A],
      (f / 8 % 2 = 0 ∨ 16 ≤ f ∨ f % 4 < (wGate 0x1000 f).hart.priv.cur.toNat) ∧
      ∃ s1, loadValue (wGate 0x1000 f) ((wState.hart.gatebase &&& ~~~0xFFF) + BitVec.ofNat 64 (16 * 1)) 16 =
        .ok (f * 2 ^ 64 + 0x1000, s1) ∧ HandlerReady s1 { cause := 0x03, addr := 1 }) ∧
    0x1002 % 4 ≠ 0 ∧
      ∃ s1, loadValue (wGate 0x1002 0x0B) ((wState.hart.gatebase &&& ~~~0xFFF) + BitVec.ofNat 64 (16 * 1)) 16 =
        .ok (0x0B * 2 ^ 64 + 0x1002, s1) ∧ HandlerReady s1 { cause := 0x05, addr := 0x1002 } := by
  refine ⟨wQuiet _ rfl, by decide, ?_, by decide, _, rfl, readyOf rfl (by decide +kernel) _⟩
  intro f m
  simp only [List.mem_cons, List.not_mem_nil, or_false] at m
  obtain rfl | rfl | rfl := m <;> exact ⟨by decide, _, rfl, readyOf rfl (by decide +kernel) _⟩

theorem witness_GateAndReturn :
    (bitsOf wState.hart.gatebase 10 0 ≤ (2 : Fin 1024).val ∧ HandlerReady wState { cause := 0x03, addr := 2 }) ∧
    (let s := wOf fun h => { h with priv := { h.priv with ga := true }, sreg := h.sreg.set 31 0x2000 }
     s.hart.priv.ga = true ∧ s.hart.Gives 31 0x2000 ∧ (0x2000 : Word).toNat % 4 = 0 ∧ canonical 0x2000 = true) ∧
    (∀ l ∈ [(0x2001 : Word), 0x8000000000000000],
      let s := wOf fun h => { h with priv := { h.priv with ga := true }, sreg := h.sreg.set 31 l }
      s.hart.priv.ga = true ∧ s.hart.Gives 31 l ∧ (l.toNat % 4 ≠ 0 ∨ canonical l = false) ∧ ∀ t, HandlerReady s t) ∧
    wState.hart.priv.ga = false ∧ HandlerReady wState { cause := 0x03, addr := 0x4C000300 } := by
  refine ⟨⟨by decide, wReady _⟩, ⟨rfl, .inr (by decide), by decide, by decide⟩, ?_, rfl, wReady _⟩
  rintro l (_ | ⟨_, _ | ⟨_, h⟩⟩)
  · exact ⟨rfl, .inr (by decide), .inl (by decide), fun t => readyOf rfl (by decide +kernel) t⟩
  · exact ⟨rfl, .inr (by decide), .inr (by decide), fun t => readyOf rfl (by decide +kernel) t⟩
  · cases h

def wEntry (i : Instr) : VEntry where
  instr := i
  pc := 0x1000
  vl := 3
  vew := .w32
  msel := 0x0F
  vstr := 8
  frm := 0
  actl := 0
  tgrp := 1
  tctl := 0
  asid := 0
  level := 3

/-- The machine with an instruction at the head of the vector queue, which captured xa and xb. -/
def wQueue (i : Instr) (xa xb : Word) : State := wOf fun h => { h with vq := [{ wEntry i with xa := xa, xb := xb }] }

theorem witness_TrapsEnterAndReturn :
    (∀ n : BitVec 8, HandlerReady wState { cause := 0x08, sub := n, done := true }) ∧
    (∀ b : BitVec 26, HandlerReady wState { cause := 0x09, addr := BitVec.ofNat 64 (0xFC000000 + b.toNat) }) ∧
    (∀ (w : BitVec 32) (c : BitVec 8), HandlerReady wState { cause := c, addr := w.zeroExtend 64 }) ∧
    (∀ c : BitVec 8, HandlerReady wState { cause := c, addr := wState.hart.pc }) ∧
    (2 ≤ wState.hart.priv.cur.toNat ∧ wState.hart.trap.tcause.plv.toNat ≤ wState.hart.priv.cur.toNat ∧
      wState.hart.trap.tcause.rh = false) ∧
    (let r : Replay := { entries := [wEntry (.vadd 1 2 3 .i32 false false)], rpc := 0x1004 }
     let s := wOf fun h => { h with replay := some r, trap := { h.trap with tcause := { rh := true } } }
     s.hart.trap.tcause.rh = true ∧ s.hart.replay = some r) ∧
    (let s := wOf fun h => { h with priv := { cur := 1 } }
     s.hart.priv.cur.toNat < 2 ∧ HandlerReady s { cause := 0x03, addr := 0x54000100 }) ∧
    let s := wOf fun h => { h with priv := { cur := 2 }, trap := { h.trap with tcause := { plv := 3 } } }
    s.hart.priv.cur.toNat < s.hart.trap.tcause.plv.toNat ∧ HandlerReady s { cause := 0x03, addr := 0x54000100 } :=
  ⟨fun _ => wReady _, fun _ => wReady _, fun _ _ => wReady _, fun _ => wReady _, ⟨by decide, by decide, rfl⟩, ⟨rfl, rfl⟩,
    ⟨by decide, readyOf rfl (by decide +kernel) _⟩, by decide, readyOf rfl (by decide +kernel) _⟩

theorem witness_VectorTrapAndDoubleFault :
    (let s := wQueue (.vdiv 1 2 3 .i32 true true) 0 0
     s.hart.vq = wEntry (.vdiv 1 2 3 .i32 true true) :: [] ∧ s.hart.replay = none ∧
       HandlerReady s { cause := 0x04, addr := 34 } ∧ ∀ p ∈ s.hart.producers, p.behind = 0) ∧
    (let s := wOf fun h => { h with replay := some { entries := [], rpc := 0 } }
     s.hart.status = .running ∧ s.hart.replay.isSome = true) ∧
    (let s := wOf fun h => { h with pc := 0x9002 }
     fetchPlace s s.hart = .error 0x05) ∧
    (∃ p, fetchPlace wState wState.hart = .ok p) ∧ ∀ t ∈ wState.tasks, t.tid ≠ 0 :=
  ⟨⟨rfl, rfl, readyOf rfl (by decide +kernel) _, by decide⟩, ⟨rfl, rfl⟩, errOf (by decide +kernel), okOf (by decide +kernel),
    by decide⟩

/-! ## Control registers -/

/-- The machine at the lowest level. -/
def wUser : State := wOf fun h => { h with priv := { cur := 0 } }

theorem witness_ControlRegisterReads :
    (∀ p ∈ scalarSideReads, p.2.1 ≤ wState.hart.priv.cur.toNat) ∧ wState.hart.Full 31 ∧ wState.hart.reads < 8 ∧
      wState.hart.vq = [] ∧ 2 ≤ wState.hart.priv.cur.toNat ∧
      (∀ p ∈ vectorSideReads, p.2.1 = 0) ∧
      let s := wQueue (.vadd 1 2 3 .i32 false false) 0 0
      s.hart.reads < 8 ∧ (∀ e ∈ s.hart.vq, scalarResult e.instr = none) ∧ s.hart.vq ≠ [] :=
  ⟨by decide, rfl, by decide, rfl, by decide, by decide, by decide, by decide, by decide⟩

theorem witness_ControlRegisterWrites :
    (∀ v, (wVal v).hart.Gives 4 v) ∧ (∀ v, (wVal v).hart.priv.cur = 3) ∧
      (∀ p ∈ plainWrites, p.2.1 ≤ wState.hart.priv.cur.toNat) ∧
      (∀ p ∈ plainWrites, p.1 = 0x011 ∨ p.2.2.1 0) ∧ (∃ p ∈ plainWrites, p.1 = 0x011 ∧ p.2.2.1 8) ∧
      (∀ p ∈ waitingWrites, p.2.2.1 0) ∧ (5 : Word) = BitVec.ofNat 64 (Width.code .w6) ∧
      ((2 ^ 37 - 1 : Word).toNat / 2 ^ 37 = 0 ∧ partitionExists ((0 : Word).truncate 32) ((0 : Word).toNat / 2 ^ 32) = true) ∧
      (∀ h ∈ cellHarts (wVal 0) 0 0, ∀ i ∈ carriages (heldCarriages h),
        partitionOf ((wVal 0).cellOf 0 0).start i = partitionOf 0 i) ∧
      ((0xE003 : Word).toNat / 2 ^ 16 = 0 ∧ (0xE003 : Word).toNat / 4 % 64 = 0 ∧ (0xE003 : Word).toNat % 4 ≤ 3 ∧
        (0xE003 : Word).toNat / 2 ^ 13 % 4 ≤ 3) ∧
      ((17 : Word).toNat / 2 % 8 = 0 ∧ wState.hart.hearth.inSlots = []) ∧
      (0x3FE00FFFFF : Word).toNat / 2 ^ 38 = 0 ∧ (0x3FE00FFFFF : Word).toNat / 2 ^ 20 % 2 ^ 9 = 0 := by
  refine ⟨wGives4, fun _ => rfl, by decide, ?_, ?_, ?_, by decide, ⟨by decide, by decide +kernel⟩, ?_,
    ⟨by decide, by decide, by decide, by decide⟩, ⟨by decide, by decide⟩, by decide, by decide⟩
  · simp [plainWrites]
  · simp [plainWrites]
  · simp [waitingWrites]
  · decide +kernel

theorem witness_ControlRegisterRefused :
    (encode (.crd 1 0x00A) = some 0x5420020A ∧ (∀ p ∈ readableRegisters, p.1 ≠ (0x00A : BitVec 12).toNat) ∧
      HandlerReady wState { cause := 0x01, addr := 0x5420020A }) ∧
    ((∃ p ∈ readableRegisters, p.1 = (0x100 : BitVec 12).toNat ∧ wUser.hart.priv.cur.toNat < p.2) ∧
      HandlerReady wUser { cause := 0x03, addr := 0x54210200 }) ∧
    (∀ p ∈ writableRegisters, p.1 ≠ (0x041 : BitVec 12).toNat) ∧
    ((∃ p ∈ writableRegisters, wUser.hart.priv.cur.toNat < p.2.1 ∧ encode (p.2.2 0) = some 0x54010300) ∧
      HandlerReady wUser { cause := 0x03, addr := 0x54010300 }) ∧
    ((∃ p ∈ plainWrites, p.2.1 ≤ wState.hart.priv.cur.toNat ∧ ¬p.2.2.1 1) ∧ (wVal 1).hart.Gives 4 1 ∧
      HandlerReady (wVal 1) { cause := 0x02, addr := 1 }) ∧
    ((∃ p ∈ waitingWrites, ¬p.2.2.1 32) ∧ (wVal 32).hart.vq = [] ∧ HandlerReady (wVal 32) { cause := 0x02, addr := 32 }) ∧
    let s := wOf fun h => { h with priv := { cur := 1 }, sreg := h.sreg.set 4 2 }
    s.hart.Gives 4 2 ∧ 1 ≤ s.hart.priv.cur.toNat ∧ s.hart.priv.cur.toNat < (2 : Word).toNat % 4 ∧
      encode (.cwrPriv 4) = some 0x54810380 ∧ HandlerReady s { cause := 0x03, addr := 0x54810380 } := by
  refine ⟨⟨rfl, by decide +kernel, wReady _⟩, ⟨by decide +kernel, readyOf rfl (by decide +kernel) _⟩, ?_, ⟨?_, readyOf rfl (by decide +kernel) _⟩,
    ⟨?_, wGives4 _, readyOf rfl (by decide +kernel) _⟩, ⟨?_, rfl, readyOf rfl (by decide +kernel) _⟩,
    .inr (by decide), by decide, by decide, rfl, readyOf rfl (by decide +kernel) _⟩
  · decide +kernel
  · exact ⟨(0x100, 2, fun a => .cwr a 0x100), by simp [writableRegisters, plainWrites], by decide, rfl⟩
  · exact ⟨_, by simp only [plainWrites]; exact .tail _ (.tail _ (.tail _ (.tail _ (.tail _ (.tail _ (.tail _ (.head _))))))), by decide, by decide⟩
  · exact ⟨_, by simp only [waitingWrites]; exact .head _, by decide⟩

/-- The machine with a suspended node in its hearth and s4 = v. -/
def wRooted (v : Word) : State := wOf fun h => { h with
  sreg := h.sreg.set 4 v
  hearth := { slots := h.hearth.slots.set 0 (some (freshNode .cvt 2 2 2 0 0 0 none none h)), nextNid := 1 } }

theorem witness_ControlRegisterRefused_values :
    (let v : Word := BitVec.allOnes 64
     (wVal v).hart.Gives 4 v ∧ HandlerReady (wVal v) { cause := 0x02, addr := v } ∧ 2 ≤ (wVal v).hart.priv.cur.toNat ∧
       (∀ w : Width, v ≠ BitVec.ofNat 64 w.code) ∧ 2 ^ 32 ≤ v.toNat ∧ v.toNat / 2 ^ 38 ≠ 0 ∧ v.toNat / 2 ^ 37 ≠ 0 ∧
       v.toNat / 2 % 8 ≠ 0 ∧ v.toNat / 2 ^ 16 ≠ 0) ∧
    (let v : Word := 0x100000000
     v.toNat / 2 ^ 37 = 0 ∧ partitionExists (v.truncate 32) (v.toNat / 2 ^ 32) = false ∧
       (wVal v).hart.Gives 4 v ∧ HandlerReady (wVal v) { cause := 0x02, addr := v }) ∧
    (let v : Word := 2
     (wVal v).hart.Gives 4 v ∧ HandlerReady (wVal v) { cause := 0x11, addr := v } ∧
       partitionExists (v.truncate 32) (v.toNat / 2 ^ 32) = true ∧
       ∃ h ∈ cellHarts (wVal v) 0 0, ∃ i ∈ carriages (heldCarriages h),
         partitionOf ((wVal v).cellOf 0 0).start i ≠ partitionOf (v.truncate 32) i) ∧
    let v : Word := 16
    (wRooted v).hart.Gives 4 v ∧ HandlerReady (wRooted v) { cause := 0x11, addr := v } ∧ v.toNat / 2 % 8 = 0 ∧
      v.toNat / 16 ≠ (wRooted v).hart.hctl.toNat / 16 ∧ (wRooted v).hart.hearth.inSlots ≠ [] := by
  refine ⟨⟨wGives4 _, readyOf rfl (by decide +kernel) _, by decide, fun w => ?_, by decide⟩,
    ⟨by decide, by decide +kernel, wGives4 _, readyOf rfl (by decide +kernel) _⟩,
    ⟨wGives4 _, readyOf rfl (by decide +kernel) _, by decide +kernel⟩,
    .inr ⟨by decide, rfl, rfl, rfl⟩, readyOf rfl (by decide +kernel) _, by decide +kernel⟩
  cases w <;> decide

/-! ## Memory -/

/-- The place of an address in page 2. -/
def wPlace (a : Nat) : Place := { pa := a, leaf := { entry := 0x2007, log := 0, cached := true } }

/-- The machine with a store of two bytes, and with a scatter-add, in the strip store buffer. -/
def wStores : State := wOf fun h => { h with buffer := [{ entry := .store [(0x2000, 1), (0x2001, 2)] }] }
def wAdds : State := wOf fun h => { h with buffer := [{ entry := .adds (.int 32) [(0x2000, 0x2000, 5)] }] }

theorem witness_LoadResult :
    (wState.hart.Gives 1 0x2000 ∧ wState.hart.NoVectorMemory ∧ wState.hart.Full 31 ∧
      ownPlace wState wState.hart.agent .read 0x2000 8 = .ok (wPlace 0x2000) ∧
      meetsAdds wState.hart.buffer 0x2000 8 = false ∧
      ∀ k < 8, bufferedByte wState.hart.buffer (0x2000 + k) = none → readFault wState (0x2000 + k) 1 = none) ∧
    (ownPlace wStores wStores.hart.agent .read 0x2000 8 = .ok (wPlace 0x2000) ∧
      ∀ k < 8, bufferedByte wStores.hart.buffer (0x2000 + k) = none → readFault wStores (0x2000 + k) 1 = none) ∧
    (ownPlace wAdds wAdds.hart.agent .read 0x2000 1 = .ok (wPlace 0x2000) ∧
      meetsAdds wAdds.hart.buffer 0x2000 1 = true ∧ ∃ s1, quenchBefore wAdds = .ok s1 ∧
        ∀ k < 1, bufferedByte s1.hart.buffer (0x2000 + k) = none → readFault s1 (0x2000 + k) 1 = none) ∧
    -- an empty destination; a vector instruction behind buffered updates
    (wOf fun h => { h with producers := [{ dest := .scalar 4 9 }] }).hart.emptyS 4 = true ∧
    let s := wAdds.onlyHart fun h => { h with vq := [wEntry (.vadd 1 2 3 .i32 false false)] }
    s.hart.Gives 1 0x2000 ∧ s.hart.NoVectorMemory ∧ s.hart.Full 31 ∧ s.hart.vq ≠ [] ∧
      ownPlace s s.hart.agent .read 0x2000 1 = .ok (wPlace 0x2000) ∧ meetsAdds s.hart.buffer 0x2000 1 = true :=
  ⟨⟨wGives1, wQuiet _ rfl, rfl, rfl, by decide, by decide +kernel⟩, ⟨rfl, by decide +kernel⟩, ⟨rfl, by decide +kernel, _, rfl,
    by decide +kernel⟩, by decide +kernel, .inr (by decide),
    ⟨fun e m => (List.mem_singleton.mp m).symm ▸ rfl, wDone⟩, rfl, by decide, rfl, by decide +kernel⟩

theorem witness_StoreResult :
    (wState.hart.Gives 1 0x2000 ∧ wState.hart.Gives 2 5 ∧ wState.hart.Gives 3 0x3000 ∧ wState.hart.NoVectorMemory ∧
      ownPlace wState wState.hart.agent .write 0x2000 8 = .ok (wPlace 0x2000) ∧
      storePrelude wState [(0x2000, 8)] = .ok wState) ∧
    (ownPlace wStores wStores.hart.agent .write 0x2000 1 = .ok (wPlace 0x2000) ∧
      ∃ s1, storePrelude wStores [(0x2000, 1)] = .ok s1) ∧
    wStores.hart.NoLiveLeaf ∧ meetsBuffer wStores.hart.buffer 0x2000 1 = true ∧
      meetsBuffer wStores.hart.buffer 0x2002 1 = false :=
  ⟨⟨wGives1, wGives2, wGives3, wQuiet _ rfl, rfl, rfl⟩, ⟨rfl, _, rfl⟩, by unfold Hart.NoLiveLeaf; decide +kernel,
    by decide +kernel, by decide +kernel⟩

theorem witness_AtomicResult :
    (wState.hart.Gives 1 0x2000 ∧ wState.hart.Gives 2 5 ∧ wState.hart.Gives 3 0x3000 ∧ wState.hart.NoVectorMemory ∧
      wState.hart.Full 3) ∧
      (ownPlace wState wState.hart.agent .both 0x2000 4 = .ok (wPlace 0x2000) ∧ readFault wState 0x2000 4 = none ∧
        storePrelude wState [(0x2000, 4)] = .ok wState) ∧
      (ownPlace wState wState.hart.agent .both 0x2000 8 = .ok (wPlace 0x2000) ∧ readFault wState 0x2000 8 = none ∧
        storePrelude wState [(0x2000, 8)] = .ok wState) ∧
      ownPlace wStores wStores.hart.agent .both 0x2000 4 = .ok (wPlace 0x2000) ∧
        ∃ s1, storePrelude wStores [(0x2000, 4)] = .ok s1 ∧ readFault s1 0x2000 4 = none :=
  ⟨⟨wGives1, wGives2, wGives3, wQuiet _ rfl, rfl⟩, ⟨rfl, by decide +kernel, rfl⟩, ⟨rfl, by decide +kernel, rfl⟩, rfl, _, rfl,
    by decide +kernel⟩

theorem witness_AccessTraps :
    ((wVal 0x2001).hart.Gives 4 0x2001 ∧ (wVal 0x2001).hart.Gives 0 0 ∧ (wVal 0x2001).hart.NoVectorMemory ∧
      ownPlace (wVal 0x2001) (wVal 0x2001).hart.agent .both 0x2001 4 = .error 0x05 ∧
      HandlerReady (wVal 0x2001) { cause := 0x05, addr := 0x2001 }) ∧
    ((wVal 0x9000).hart.Gives 4 0x9000 ∧ ownPlace (wVal 0x9000) (wVal 0x9000).hart.agent .read 0x9000 1 = .error 0x10 ∧
      HandlerReady (wVal 0x9000) { cause := 0x10, addr := 0x9000 }) ∧
    ((wVal 0x1000).hart.Gives 4 0x1000 ∧ ownPlace (wVal 0x1000) (wVal 0x1000).hart.agent .write 0x1000 8 = .error 0x11 ∧
      HandlerReady (wVal 0x1000) { cause := 0x11, addr := 0x1000 }) :=
  ⟨⟨wGives4 _, wGives0 _, wQuiet _ rfl, errOf (by decide +kernel), readyOf rfl (by decide +kernel) _⟩,
    ⟨wGives4 _, errOf (by decide +kernel), readyOf rfl (by decide +kernel) _⟩, wGives4 _, errOf (by decide +kernel),
    readyOf rfl (by decide +kernel) _⟩

set_option maxRecDepth 40000 in
/-- A poisoned byte, and one with an uncorrectable error, in memory where s1 points, and in a buffered store's place; and
the same of an atomic. -/
theorem witness_AccessTraps_marked :
    (∀ p ∈ [([0x2003], [], 0x14), ([], [0x2003], 0x61)],
      let s := { wStores with poisoned := p.1, uncorrectable := p.2.1 }
      s.hart.Gives 1 0x2000 ∧ s.hart.Gives 2 5 ∧ s.hart.Gives 3 0x3000 ∧ s.hart.NoVectorMemory ∧
        ownPlace s s.hart.agent .read 0x2000 4 = .ok (wPlace 0x2000) ∧ meetsAdds s.hart.buffer 0x2000 4 = false ∧
        bufferedByte s.hart.buffer 0x2003 = none ∧ (bufferedByte s.hart.buffer 0x2000).isSome = true ∧
        HandlerReady s { cause := p.2.2, addr := 0x2000 } ∧
        ownPlace s s.hart.agent .both 0x2000 4 = .ok (wPlace 0x2000) ∧
        ∃ s1, storePrelude s [(0x2000, 4)] = .ok s1 ∧ s1.poisoned = p.1 ∧ s1.uncorrectable = p.2.1 ∧
          HandlerReady s1 { cause := p.2.2, addr := 0x2000 }) ∧
    (∃ s1, quenchBefore { wAdds with poisoned := [0x2007] } = .ok s1 ∧ 0x2007 ∈ s1.poisoned ∧
      bufferedByte s1.hart.buffer 0x2007 = none ∧ HandlerReady s1 { cause := 0x14, addr := 0x2000 }) := by
  refine ⟨fun p m => ?_, _, rfl, by decide +kernel, rfl, readyOf rfl (by decide +kernel) _⟩
  simp only [List.mem_cons, List.not_mem_nil, or_false] at m
  obtain rfl | rfl := m <;>
    exact ⟨.inr (by decide), .inr (by decide), .inr (by decide), wQuiet _ rfl, rfl, by decide +kernel, by decide +kernel,
      by decide +kernel, readyOf rfl (by decide +kernel) _, rfl, _, rfl, by decide +kernel, by decide +kernel,
      readyOf rfl (by decide +kernel) _⟩

/-- Below S, a selector with reserved bits, a leaf of another placement, and bad words of evt. -/
theorem witness_FencesAndCaches_refused :
    (wUser.hart.priv.cur.toNat < 2 ∧ encode (.tlbInv 4 5 .d) = some 0x54850403 ∧ encode (.tlbPrb 6 4) = some 0x54C40500 ∧
      ∀ t, HandlerReady wUser t) ∧
    ((wVal 0x10000).hart.Gives 4 0x10000 ∧ (0x10000 : Word).toNat / 2 ^ 16 % 2 ^ 46 ≠ 0 ∧
      HandlerReady (wVal 0x10000) { cause := 0x02, addr := 0x10000 }) ∧
    (let s := wVal 0x5000
     let t : State := s.setCell 0 0 { s.cellOf 0 0 with tlb := ⟨0, 5, 0, 0x5107⟩ :: wTlb }
     ∃ l, findLeaf t t.hart.agent 0x5000 = .ok l ∧ resolve t t.hart.agent l.entry (leafAddr l 0x5000) = .error 0x11) ∧
    ¬(wQueue (.vld 1 4 0 .b4 false) 0 0).hart.NoVectorMemory ∧
    (∀ v ∈ [(0x10000 : Word), 0x4000, 0x20], (wVal v).hart.Gives 4 v ∧ HandlerReady (wVal v) { cause := 0x02, addr := v } ∧
      (v.toNat / 2 ^ 16 ≠ 0 ∨ v.getLsbD 14 = true ∨ v.toNat / 32 % 8 ≠ 0)) ∧
    (wVal 0x3000).hart.Gives 4 0x3000 ∧ HandlerReady (wVal 0x3000) { cause := 0x12, addr := 0x3000 } ∧
      47 < (0x3000 : Word).toNat / 2 ^ 8 % 64 := by
  refine ⟨⟨by decide, rfl, rfl, fun t => readyOf rfl (by decide +kernel) t⟩,
    ⟨wGives4 _, by decide, readyOf rfl (by decide +kernel) _⟩, ⟨_, rfl, errOf (by decide +kernel)⟩, ?_, fun v m => ?_,
    wGives4 _, readyOf rfl (by decide +kernel) _, by decide⟩
  · exact fun h => absurd (h.1 _ (.head _)) (by decide)
  · simp only [List.mem_cons, List.not_mem_nil, or_false] at m
    obtain rfl | rfl | rfl := m <;> exact ⟨wGives4 _, readyOf rfl (by decide +kernel) _, by decide⟩

theorem witness_FencesAndCaches :
    (wState.hart.NoVectorMemory ∧ wState.hart.Gives 1 0x2000 ∧ wState.hart.Gives 2 5 ∧ (5 : Word).toNat ≤ 2 ^ 20 ∧
      ∀ k < (0x2000 : Word).toNat % 64 + (5 : Word).toNat,
        ∃ p, translate wState wState.hart.agent .read ((0x2000 &&& ~~~63) + BitVec.ofNat 64 k) = .ok p) ∧
    ((wVal 0x100001).hart.Gives 4 0x100001 ∧ 2 ^ 20 < (0x100001 : Word).toNat ∧
      HandlerReady (wVal 0x100001) { cause := 0x12, addr := 0x100001 }) ∧
    2 ≤ wState.hart.priv.cur.toNat ∧
    ((wVal 0xC00000000000FFFF).hart.Gives 4 0xC00000000000FFFF ∧ (0xC00000000000FFFF : Word).toNat / 2 ^ 16 % 2 ^ 46 = 0) ∧
    ((wVal 0x9000).hart.Gives 4 0x9000 ∧ (wVal 0x9000).hart.Full 3 ∧
      findLeaf (wVal 0x9000) (wVal 0x9000).hart.agent 0x9000 = .error 0x10) ∧
    ∃ l, findLeaf wState wState.hart.agent 0x2000 = .ok l ∧
      resolve wState wState.hart.agent l.entry (leafAddr l 0x2000) = .ok 0x2000 ∧ l.log ∈ [0, 4, 9, 18] :=
  ⟨⟨wQuiet _ rfl, wGives1, wGives2, by decide, fun k hk => okOf (by
      have : ∀ k < 5, (translate wState wState.hart.agent .read ((0x2000 &&& ~~~63) + BitVec.ofNat 64 k)).toBool = true := by
        decide +kernel
      exact this k hk)⟩,
    ⟨wGives4 _, by decide, readyOf rfl (by decide +kernel) _⟩, by decide, ⟨wGives4 _, by decide +kernel⟩,
    ⟨wGives4 _, rfl, errOf (by decide +kernel)⟩, _, rfl, okIs (by decide +kernel), by decide +kernel⟩

/-! ## Waits and ends -/

theorem witness_WaitsAndEvents :
    (wState.hart.Gives 2 5 ∧ wState.hart.status = .running ∧ wState.hart.cancel = false ∧ wState.hart.evf = false ∧
      wState.hart.mark ≠ .timedOut ∧ ∀ start n, wState.hart.mark ≠ .limit start n) ∧
    (let s := wOf fun h => { h with evf := true }
     s.hart.status = .running ∧ s.hart.cancel = false ∧ s.hart.evf = true) ∧
    (let s := wOf fun h => { h with mark := .timedOut }
     s.hart.status = .running ∧ s.hart.cancel = false ∧ s.hart.mark = .timedOut) ∧
    (let s := wOf fun h => { h with status := .waiting, mark := .limit 3 5 }
     s.hart.status = .waiting ∧ s.hart.mark = .limit 3 5) ∧
    let v : Word := 0xAF1F
    (wVal v).hart.Gives 4 v ∧ (wVal v).hart.NoVectorMemory ∧ v.toNat / 2 ^ 16 = 0 ∧ v.getLsbD 14 = false ∧
      v.toNat / 32 % 8 = 0 ∧ v.toNat / 2 ^ 8 % 64 ≤ 47 :=
  ⟨⟨wGives2, rfl, rfl, rfl, by decide, fun _ _ e => nomatch e⟩, ⟨rfl, rfl, rfl⟩, ⟨rfl, rfl, rfl⟩, ⟨rfl, rfl⟩, wGives4 _, wQuiet _ rfl, by decide, by decide, by decide,
    by decide⟩

/-- Another hart of the task, in slot 1. -/
def wMate : Hart := { wHart with hid := 2, slot := 1, grant := 4 }

theorem witness_EndsOfHarts_halt :
    (wQueue (.vadd 1 2 3 .i32 false false) 0 0).hart.vq ≠ [] ∧ wState.hart.vq = [] ∧ (∀ k ∈ wState.tasks, k.tid ≠ 0) ∧
      wState.findTask wState.hart.task = some wTask ∧
      (wTask.join = 0 ∧ ∃ j, wState.findJob wTask.job = some j ∧ 1 < j.count) ∧
      let q := (wState.cellOf wState.hart.die wState.hart.cell).sqbase.toNat
      saveAreaOf wState wState.hart + 256 ≤ q ∨ q + 64 + 64 * Config.supervisorRing ≤ saveAreaOf wState wState.hart :=
  ⟨by decide, rfl, by decide +kernel, rfl, ⟨rfl, _, rfl, by decide +kernel⟩, by decide +kernel⟩

/-- The machine with its task of two members, and with a child's parent. -/
def wCoach : State := { wState with harts := [wMate], tasks := [{ wTask with size := 2, live := 2 }] }
def wFamily : State :=
  { wState with
    hart := { wHart with parent := some 2 }
    harts := [{ wMate with children := [{ hid := 1 }] }], tasks := [{ wTask with size := 2, live := 2 }] }
/-- The machine with two children, the later of which has ended with carriage 3 if at all. -/
def wParent (left : Option (BitVec 32)) : State :=
  { wState with
    hart := { wHart with children := [{ hid := 2 }] ++ [{ hid := 3, ended := left }] }
    harts := [{ wMate with parent := some 1 }], tasks := [{ wTask with size := 2, live := 2 }] }

theorem witness_EndsOfHarts_parent :
    ((wParent none).hart.status = .running ∧ (wParent none).hart.children = [{ hid := 2 }] ++ [{ hid := 3, ended := none }] ∧
      (wParent none).hart.cancel = false) ∧
    (wParent (some 8)).hart.children = [{ hid := 2 }] ++ [{ hid := 3, ended := some 8 }] ∧
      (wParent (some 8)).hart.vq = [] ∧ (wParent (some 8)).hart.OutputsDone ∧ (wParent (some 8)).hart.nextPend = false ∧
      quenchFault ((wParent (some 8)).onlyHart fun h => { h with mark := .none, nextPend := false, budget := none }) = .ok () :=
  ⟨⟨rfl, rfl, rfl⟩, rfl, rfl, wDone, rfl, rfl⟩

theorem witness_EndsOfHarts_member :
    wCoach.hart.vq = [] ∧ (∀ k ∈ wCoach.tasks, k.tid ≠ 0) ∧
      ∃ k, wCoach.findTask wCoach.hart.task = some k ∧ (∃ h ∈ wCoach.harts, h.task = k.tid ∧ h.resident = true) ∧
        let q := (wCoach.cellOf wCoach.hart.die wCoach.hart.cell).sqbase.toNat
        saveAreaOf wCoach wCoach.hart + 256 ≤ q ∨ q + 64 + 64 * Config.supervisorRing ≤ saveAreaOf wCoach wCoach.hart :=
  ⟨rfl, by decide +kernel, _, rfl, by decide +kernel⟩

/-- The machine with its task's join block at 0x2000, whose count is 2. -/
def wJoined : State := { wState.storeLe 0x2000 8 2 with tasks := [{ wTask with join := 0x2000 }] }

theorem witness_EndsOfHarts_exit :
    (wCoach.hart.vq = [] ∧ wCoach.hart.children = [] ∧ quenchFault wCoach = .ok () ∧
      (∀ n : HReg, wCoach.hart.handles[n].bound = false) ∧
      (∃ t, wCoach.findTask wCoach.hart.task = some t ∧ ∃ h ∈ wCoach.harts, h.task = t.tid ∧ h.resident = true)) ∧
    (wFamily.hart.cancel = false ∧ wFamily.hart.children = [] ∧ wFamily.hart.parent.isSome = true ∧ quenchFault wFamily = .ok () ∧
      ∃ t, wFamily.findTask wFamily.hart.task = some t ∧ ∃ h ∈ wFamily.harts, h.task = t.tid ∧ h.resident = true) ∧
    (quenchFault wState = .ok () ∧ ∃ t j, wState.findTask wState.hart.task = some t ∧ LastOfTask wState t.tid ∧
      wState.hart.parent.isSome = false ∧ wState.findJob t.job = some j ∧ t.join = 0 ∧ 1 < j.count) ∧
    (let s := { wState with jobs := [{ wJob with count := 1 }] }
     quenchFault s = .ok () ∧ ∃ t j, s.findTask s.hart.task = some t ∧ LastOfTask s t.tid ∧ s.findJob t.job = some j ∧
      t.join = 0 ∧ j.count = 1 ∧ j.cont = 0 ∧ s.engineWork j.job = false) ∧
    (quenchFault wJoined = .ok () ∧ ∃ t j p, wJoined.findTask wJoined.hart.task = some t ∧ LastOfTask wJoined t.tid ∧
      wJoined.findJob t.job = some j ∧ t.join ≠ 0 ∧ 1 < j.count ∧
      decPlace (wJoined.commit false) { die := 0, cell := some 0, asid := 0, level := t.level } t.join = .ok p ∧
      1 < bitsOf (BitVec.ofNat 64 ((wJoined.commit false).mem.readLe p.pa 8)) 47 0) := by
  refine ⟨⟨rfl, rfl, rfl, by decide +kernel, _, rfl, by decide +kernel⟩,
    ⟨rfl, rfl, rfl, rfl, _, rfl, by decide +kernel⟩, ⟨rfl, _, _, rfl, ⟨by decide +kernel, by decide +kernel⟩, rfl, rfl, rfl, by decide +kernel⟩,
    ⟨rfl, _, _, rfl, ⟨by decide +kernel, by decide +kernel⟩, rfl, rfl, rfl, rfl, by decide +kernel⟩,
    rfl, _, _, wPlace 0x2000, rfl, ⟨by decide +kernel, by decide +kernel⟩, rfl, by decide, by decide,
    okIs (by decide +kernel), by decide +kernel⟩

/-! ## Lengths and the lanes -/

theorem witness_SetLength :
    (wState.hart.Gives 2 5 ∧ wState.hart.Full 3 ∧ wState.hart.vq = [] ∧ wState.hart.OutputsDone ∧
      wState.hart.status = .running ∧ wState.hart.nextPend = false ∧ wState.hart.cancel = false ∧ wState.hart.mark ≠ .drawbar true ∧
      ((wState.dieOf 0).db[(0 : Fin 64)].hw.toNat - (5 : Word).toNat) / 1 * 1 = 0) ∧
    (let s := wState.setDie 0 { wState.dieOf 0 with db := (wState.dieOf 0).db.set 0 { hw := 9 } }
     s.hart.Gives 2 5 ∧ s.hart.vq = [] ∧ s.hart.OutputsDone ∧ 0 < ((s.dieOf 0).db[(0 : Fin 64)].hw.toNat - (5 : Word).toNat) / 4 * 4) ∧
    let s := wOf fun h => { h with nextPend := true, nextCarr := 1 }
    s.hart.Gives 2 5 ∧ s.hart.Full 3 ∧ s.hart.vq = [] ∧ s.hart.OutputsDone ∧ s.hart.status = .running ∧ s.hart.nextPend = true ∧
      s.hart.nextCarr ≠ s.hart.grant ∧ ∃ s1, quenchNow s true = .ok s1 :=
  ⟨⟨wGives2, rfl, rfl, wDone, rfl, rfl, rfl, by decide +kernel⟩,
    ⟨.inr (by decide), rfl, wDone, by decide +kernel⟩,
    .inr (by decide), rfl, rfl, wDone, rfl, rfl, by decide, _, rfl⟩

theorem wCalm (i : Instr) (xa xb : Word) :
    Undisturbed (wQueue i xa xb) { wEntry i with xa := xa, xb := xb } [] where
  head := rfl
  settled := rfl
  unbound := by change ∀ n : HReg, wHart.handles[n].bound = false; decide
  soundV := by change ∀ r : VReg, wHart.vpoison[r] = 0; decide
  soundT := by change ∀ r : TReg, wHart.tpoison[r] = 0; decide
  soundM := by change ∀ r : MReg, wHart.mpoison[r] = 0; decide

/-- The same with active elements 0 to 2. -/
theorem wActives (i : Instr) (xa xb : Word) :
    actives (wQueue i xa xb) { wEntry i with xa := xa, xb := xb } 32 = [0, 1, 2] := by
  have : lengthAt (wQueue i xa xb) { wEntry i with xa := xa, xb := xb } 32 = 3 := by
    change min 3 (perSlice 32 * wHart.lanes) = 3
    decide
  have all : ∀ h : Hart, maskOf h 0x0F = BitVec.allOnes 16384 := fun _ => rfl
  rw [actives, this]
  change (List.range 3).filter (fun k => (maskOf _ 0x0F).getLsbD k) = [0, 1, 2]
  rw [all]
  decide +kernel

theorem witness_VectorIssueAndOperands_issue :
    (capturedSources (.vldx 1 30 2 .b8 false false) = some [(30, false), (31, false)] ∧ [0, 0].length = 2 ∧
      wState.hart.Gives 30 0 ∧ wState.hart.Gives 31 0 ∧ wState.hart.vq.length < 32) ∧
    (capturedSources (.vext 31 2 1 (.int .i32) false false) = some [(1, false)] ∧ wState.hart.Gives 1 0x2000 ∧
      scalarResult (.vext 31 2 1 (.int .i32) false false) = some 31 ∧ wState.hart.reads < 8 ∧ wState.hart.Full 31) ∧
    (let s := wOf fun h => { h with vq := List.replicate 32 (wEntry (.vadd 1 2 3 .i32 false false)) }
     capturedSources (.vadd 1 2 3 .i32 false false) = some [] ∧ 32 ≤ s.hart.vq.length) ∧
    (let s := wOf fun _ => wBusy
     capturedSources (.vld 1 4 0 .b4 false) = some [(4, false)] ∧ capturedSources (.vld 1 4 0 .b4 true) = some [(4, true)] ∧
      s.hart.emptyS 4 = true ∧ HandlerReady s { cause := 0x04, addr := 4 }) ∧
    (wBusy.producers = { dest := .scalar 4 9 } :: [] ∧ ({ dest := .scalar 4 9 } : Producer).behind = 0) ∧
    let s := wOf fun h => { h with producers := [{ dest := .scalar 4 9, queued := true, behind := 1 }] }
    ∀ p ∈ s.hart.producers, p.behind ≠ 0 :=
  ⟨⟨rfl, rfl, .inr (by decide), .inr (by decide), by decide⟩, ⟨rfl, wGives1, rfl, by decide, rfl⟩, ⟨rfl, by decide⟩,
    ⟨rfl, rfl, by decide, readyOf rfl (by decide +kernel) _⟩, ⟨rfl, rfl⟩, by decide +kernel⟩

theorem witness_VectorIssueAndOperands_lanes :
    (∃ p ∈ vectorIntTwo, (wEntry (.vadd 1 2 3 .i32 true false)).instr = p.1 1 2 3 .i32 true false) ∧
    (let s := (wQueue (.vadd 1 2 3 .i32 true false) 0 0).onlyHart fun h => { h with producers := [{ dest := .vector [(2, 0)] }] }
     s.hart.emptyV 2 = true ∧ (∀ n : HReg, s.hart.handles[n].bound = false) ∧ ∀ r : MReg, s.hart.mpoison[r] = 0) ∧
    (let s := (wQueue (.vadd 1 2 3 .i32 true false) 0 0).onlyHart fun h => { h with vpoison := h.vpoison.set 2 1 }
     s.hart.producers = [] ∧ ∃ i ∈ actives s (wEntry (.vadd 1 2 3 .i32 true false)) 32,
       s.hart.vpoison[(2 : VReg)].getLsbD (i / perSlice 32) = true) ∧
    let s := (wQueue (.vadd 1 2 3 .i32 true false) 0 0).onlyHart fun h => { h with vpoison := h.vpoison.set 2 2 }
    s.hart.producers = [] ∧ ∀ i ∈ actives s (wEntry (.vadd 1 2 3 .i32 true false)) 32,
      s.hart.vpoison[(2 : VReg)].getLsbD (i / perSlice 32) = false ∧ s.hart.vpoison[(3 : VReg)].getLsbD (i / perSlice 32) = false :=
  ⟨⟨_, .head _, rfl⟩, ⟨by decide +kernel, by decide +kernel, by decide +kernel⟩, ⟨rfl, by decide +kernel⟩, rfl, by decide +kernel⟩

/-- The lanes' instructions: calm states with one of them at the head of the vector queue. -/
theorem witness_lanes : ∀ i ∈ [Instr.vadd 1 2 3 .i32 false false, .vabs 1 2 .i32 false, .vmadd 1 2 3 .n8 false false,
      .vaddVs 1 2 3 .i4 false false, .vfadd 1 2 3 .bf16 false false, .vfneg 1 2 .f64 false, .vfnms 1 1 1 .f16 false false,
      .vfminVs 1 2 3 .f32 false false, .vfnmaVs 1 2 3 .f32 false false, .vwfma 8 1 2 .e4m3 false false,
      .vwimul 8 1 2 .i4 false false, .vexp2 1 2 false, .vcvtToFloat 4 1 (.int .i8) .rtz .f32 false,
      .vcvtToInt 1 4 (.flt .f32) .dyn .n8 false, .vpackBfp 1 2 6 false, .vunpackBfp 1 2 0 false,
      .vcmp 1 2 3 .lt (.flt .f32) false false, .vcmpVs 1 2 3 .ge (.int .i6) false false, .mand 1 2 3, .mmov 1 .msm, .mcpop 1 2,
      .vidx 1 0x7FF 0x3FF, .vcmprTh 2 4 1 (.int .i32) false false, .vpush 1 2 3 (.int .i32) false false,
      .vbcast 1 2 0 (.int .i32) false false, .vext 1 2 3 (.flt .f32) false false, .vrsum 1 2 3 (.flt .f32) false false],
    ∃ s e, Undisturbed s e [] ∧ e.instr = i ∧ e.instr.wellFormed = true ∧ actives s e 32 = [0, 1, 2] := by
  intro i hi
  have ok : i.wellFormed = true := by revert i; decide +kernel
  exact ⟨_, _, wCalm i 0 0, rfl, ok, wActives i 0 0⟩

/-! ## Vector memory -/

/-- The machine with an instruction at the head of the vector queue and v2 holding 0, 1, 2. -/
def wLane (i : Instr) (xa xb : Word) : State :=
  (wQueue i xa xb).onlyHart fun h => { h with vreg := h.vreg.set 2 0x20000000100000000 }

theorem wLaneCalm (i : Instr) (xa xb : Word) : Undisturbed (wLane i xa xb) { wEntry i with xa := xa, xb := xb } [] where
  head := rfl
  settled := rfl
  unbound := by change ∀ n : HReg, wHart.handles[n].bound = false; decide
  soundV := by change ∀ r : VReg, wHart.vpoison[r] = 0; decide
  soundT := by change ∀ r : TReg, wHart.tpoison[r] = 0; decide
  soundM := by change ∀ r : MReg, wHart.mpoison[r] = 0; decide

theorem mem3 {p : Nat → Prop} (h0 : p 0) (h1 : p 1) (h2 : p 2) : ∀ i ∈ [0, 1, 2], p i := by
  intro i h
  simp only [List.mem_cons, List.not_mem_nil, or_false] at h
  rcases h with rfl | rfl | rfl <;> assumption

theorem mem2 {p : Nat → Prop} (h0 : p 0) (h1 : p 1) : ∀ i ∈ [0, 1], p i := by
  intro i h
  simp only [List.mem_cons, List.not_mem_nil, or_false] at h
  rcases h with rfl | rfl <;> assumption

theorem witness_VectorLoadResult_unit :
    let i := Instr.vld 1 1 0 .b4 false
    let s := wLane i 0x2010 0
    let e := { wEntry i with xa := 0x2010 }
    Undisturbed s e [] ∧ actives s e 32 = [0, 1, 2] ∧ (∀ k ∈ actives s e 32, s.mem.readLe (0x2010 + k * 4) 4 < 2 ^ 32) ∧
      ReadsElements s e 4 [0, 1, 2] (fun k => 0x2010 + BitVec.ofNat 64 (k * 4)) (fun _ => false) (fun _ => false)
        (fun k => s.mem.readLe (0x2010 + k * 4) 4) := by
  refine ⟨wLaneCalm _ _ _, by decide +kernel, by decide +kernel, fun g h => (nomatch h), mem3 ?_ ?_ ?_⟩ <;>
    exact fun _ => ⟨_, rfl, rfl, fun _ => by unfold Merged; decide +kernel⟩

theorem witness_VectorLoadResult_strided :
    let i := Instr.vlds 1 1 0 .b1 false
    let s := wLane i 0x2010 0
    let e := { wEntry i with xa := 0x2010 }
    Undisturbed s e [] ∧
      ReadsElements s e 1 [0, 1, 2] (fun k => 0x2010 + BitVec.ofNat 64 k * e.vstr) (fun _ => false) (fun _ => false)
        (fun k => s.mem.readLe (0x2010 + k * 8) 1) := by
  refine ⟨wLaneCalm _ _ _, fun g h => (nomatch h), mem3 ?_ ?_ ?_⟩ <;>
    exact fun _ => ⟨_, rfl, rfl, fun _ => by unfold Merged; decide +kernel⟩

/-- Elements 0 and 1 of v2 lie below the limit 2, element 2 does not. -/
theorem witness_VectorLoadResult_indexed :
    let i := Instr.vldx 1 30 2 .b4 false false
    let s := wLane i 0x2010 2
    let e := { wEntry i with xa := 0x2010, xb := 2 }
    Undisturbed s e [] ∧ ((actives s e 32).filter fun k => vElem s.hart.vreg[(2 : VReg)] 32 k < e.xb.toNat) = [0, 1] ∧
      ((actives s e 32).filter fun k => e.xb.toNat ≤ vElem s.hart.vreg[(2 : VReg)] 32 k) = [2] ∧
      ReadsElements s e 4 [0, 1] (fun k => 0x2010 + BitVec.ofNat 64 (vElem s.hart.vreg[(2 : VReg)] 32 k * 4)) (fun _ => false)
        (fun _ => false) (fun k => s.mem.readLe (0x2010 + k * 4) 4) := by
  refine ⟨wLaneCalm _ _ _, by decide +kernel, by decide +kernel, fun g h => (nomatch h), mem2 ?_ ?_⟩
  · exact fun _ => ⟨wPlace 0x2010, okIs (by decide +kernel), rfl, fun _ => by unfold Merged; decide +kernel⟩
  · exact fun _ => ⟨wPlace 0x2014, okIs (by decide +kernel), rfl, fun _ => by unfold Merged; decide +kernel⟩

/-- A gather at hart scope misses the elements of a page shared by a die, one at die scope does not. -/
theorem witness_VectorLoadResult_gather :
    let e (c : Scope) : VEntry := { wEntry (.vgth 1 30 2 c .b4 false false) with xa := 0x4000, xb := 3 }
    let s (c : Scope) : State := wLane (.vgth 1 30 2 c .b4 false false) 0x4000 3
    let reads (c : Scope) (missed : Bool) : Prop :=
      Undisturbed (s c) (e c) [] ∧
        ReadsElements (s c) (e c) 4 [0, 1, 2] (fun k => 0x4000 + BitVec.ofNat 64 (vElem (s c).hart.vreg[(2 : VReg)] 32 k * 4))
          (fun t => teSync t && homeMissed c.code (teHome t)) (fun _ => missed) (fun _ => 0)
    reads .h true ∧ reads .d false := by
  let q (a : Nat) : Place := { pa := a, leaf := { entry := 0x4687, log := 0, cached := true } }
  refine ⟨⟨wLaneCalm _ _ _, fun g h => (nomatch h), mem3 ?_ ?_ ?_⟩, wLaneCalm _ _ _, fun g h => (nomatch h), mem3 ?_ ?_ ?_⟩
  · exact fun _ => ⟨q 0x4000, okIs (by decide +kernel), by decide +kernel, fun h => (nomatch h)⟩
  · exact fun _ => ⟨q 0x4004, okIs (by decide +kernel), by decide +kernel, fun h => (nomatch h)⟩
  · exact fun _ => ⟨q 0x4008, okIs (by decide +kernel), by decide +kernel, fun h => (nomatch h)⟩
  · exact fun _ => ⟨q 0x4000, okIs (by decide +kernel), by decide +kernel, fun _ => by unfold Merged; decide +kernel⟩
  · exact fun _ => ⟨q 0x4004, okIs (by decide +kernel), by decide +kernel, fun _ => by unfold Merged; decide +kernel⟩
  · exact fun _ => ⟨q 0x4008, okIs (by decide +kernel), by decide +kernel, fun _ => by unfold Merged; decide +kernel⟩

theorem witness_VectorStoreAndScatterAdd_store :
    let reaches (i : Instr) (va xb : Word) (size : Nat) (l : List Nat) (addr : Nat → Word) (pa : Nat → Nat) : Prop :=
      Undisturbed (wLane i va xb) { wEntry i with xa := va, xb := xb } [] ∧ (wLane i va xb).hart.NoLiveLeaf ∧
        (wLane i va xb).hart.buffer.length < 8 ∧
        WritesElements (wLane i va xb) { wEntry i with xa := va, xb := xb } .write size l addr pa
    reaches (.vst 1 1 0 .b4 false) 0x2000 0 4 [0, 1, 2] (fun k => 0x2000 + BitVec.ofNat 64 (k * 4)) (fun k => 0x2000 + 4 * k) ∧
      reaches (.vsts 1 1 0 .b4 false) 0x2000 0 4 [0, 1, 2] (fun k => 0x2000 + BitVec.ofNat 64 k * 8) (fun k => 0x2000 + 8 * k) ∧
      reaches (.vstx 1 30 2 .b4 false false) 0x2000 2 4 [0, 1]
        (fun k => 0x2000 + BitVec.ofNat 64 (vElem (0x20000000100000000 : VWord) 32 k * 4)) (fun k => 0x2000 + 4 * k) := by
  refine ⟨⟨wLaneCalm _ _ _, by unfold Hart.NoLiveLeaf; decide +kernel, by decide +kernel, mem3 ?_ ?_ ?_⟩,
    ⟨wLaneCalm _ _ _, by unfold Hart.NoLiveLeaf; decide +kernel, by decide +kernel, mem3 ?_ ?_ ?_⟩,
    wLaneCalm _ _ _, by unfold Hart.NoLiveLeaf; decide +kernel, by decide +kernel, mem2 ?_ ?_⟩
  iterate 6 exact ⟨_, rfl, by decide +kernel⟩
  · exact ⟨wPlace 0x2000, okIs (by decide +kernel), by decide +kernel⟩
  · exact ⟨wPlace 0x2004, okIs (by decide +kernel), by decide +kernel⟩

theorem witness_VectorStoreAndScatterAdd_full :
    let i := Instr.vst 1 1 0 .b4 false
    let s := (wLane i 0x2000 0).onlyHart fun h => { h with buffer := List.replicate 8 { entry := .store [] } }
    8 ≤ s.hart.buffer.length ∧ actives s { wEntry i with xa := 0x2000 } 32 ≠ [] ∧ s.hart.cancel = false ∧
      quenchFault s = .ok () :=
  ⟨by decide +kernel, by decide +kernel, rfl, rfl⟩

theorem witness_VectorStoreAndScatterAdd_adds :
    let i := Instr.vsaddInt 1 30 2 .b4 false false
    let e := { wEntry i with xa := 0x2000, xb := 2 }
    let s := wLane i 0x2000 2
    (Undisturbed s e [] ∧ s.hart.NoLiveLeaf ∧ s.hart.buffer.length < 8 ∧
      WritesElements s e .both 4 [0, 1] (fun k => 0x2000 + BitVec.ofNat 64 (vElem s.hart.vreg[(2 : VReg)] 32 k * 4))
        (fun k => 0x2000 + 4 * k)) ∧
    Undisturbed (wLane (.vsaddFloat 1 30 2 .f64 false false) 0x2000 1)
      { wEntry (.vsaddFloat 1 30 2 .f64 false false) with xa := 0x2000, xb := 1 } [] ∧
    Undisturbed (wLane (.vconf 1 2 3 .b4 false) 0 0) (wEntry (.vconf 1 2 3 .b4 false)) [] := by
  refine ⟨⟨wLaneCalm _ _ _, by unfold Hart.NoLiveLeaf; decide +kernel, by decide +kernel, mem2 ?_ ?_⟩, wLaneCalm _ _ _,
    wLaneCalm _ _ _⟩
  · exact ⟨wPlace 0x2000, okIs (by decide +kernel), by decide +kernel⟩
  · exact ⟨wPlace 0x2004, okIs (by decide +kernel), by decide +kernel⟩

/-- Element 1 of a load that runs out of page 2 does not translate; element 0 does. -/
theorem witness_VectorMemoryFault :
    let i := Instr.vld 1 1 0 .b8 false
    let e := { wEntry i with xa := 0x2FF8 }
    let s := wLane i 0x2FF8 0
    Undisturbed s e [] ∧ e.got = [] ∧ s.hart.buffer = [] ∧ 1 ∈ actives s e 64 ∧
      ownPlace s (entryAgent s.hart e) .read (0x2FF8 + BitVec.ofNat 64 (0 * 8)) 8 = .ok (wPlace 0x2FF8) ∧
      readFault s 0x2FF8 8 = none ∧
      let e1 := { wEntry (.vst 1 1 0 .b8 false) with xa := 0x2001 }
      let s1 := wLane (.vst 1 1 0 .b8 false) 0x2001 0
      Undisturbed s1 e1 [] ∧ 0 ∈ actives s1 e1 64 ∧
        ownPlace s1 (entryAgent s1.hart e1) .write (0x2001 + BitVec.ofNat 64 (0 * 8)) 8 = .error 0x05 :=
  ⟨wLaneCalm _ _ _, rfl, rfl, by decide +kernel, rfl, by decide +kernel, wLaneCalm _ _ _, by decide +kernel,
    errOf (by decide +kernel)⟩

/-! ## Trees -/

/-- The machine with t0 = p and a tree instruction at the head of the vector queue under TCTL c and TGRP g. -/
def wTreeEntry (i : Instr) (c : BitVec 32) (g : BitVec 4) : VEntry := { wEntry i with tctl := c, tgrp := g }
def wTree (i : Instr) (p : VWord) (c : BitVec 32) (g : BitVec 4) : State :=
  wOf fun h => { h with vq := [wTreeEntry i c g], treg := h.treg.set 0 p }

theorem wTreeCalm (i : Instr) (p : VWord) (c : BitVec 32) (g : BitVec 4) :
    Undisturbed (wTree i p c g) (wTreeEntry i c g) [] where
  head := rfl
  settled := rfl
  unbound := by change ∀ n : HReg, wHart.handles[n].bound = false; decide
  soundV := by change ∀ r : VReg, wHart.vpoison[r] = 0; decide
  soundT := by change ∀ r : TReg, wHart.tpoison[r] = 0; decide
  soundM := by change ∀ r : MReg, wHart.mpoison[r] = 0; decide

theorem wTreeGroups1 (i : Instr) (c : BitVec 32) (l : List VReg) (t : TReg) : TreeGroups (wTreeEntry i c 1) l t :=
  ⟨by change 1 ≤ 1; decide, by change 1 ≤ 8; decide, fun r _ => Nat.mod_one r.val, by
    change t.val % pow2Up ((BitVec.toNat (1 : BitVec 4) + 1) / 2) = 0
    rw [show pow2Up ((BitVec.toNat (1 : BitVec 4) + 1) / 2) = 1 by decide, Nat.mod_one]⟩
theorem wTreeGroups8 (i : Instr) (c : BitVec 32) : TreeGroups (wTreeEntry i c 8) [8, 24] 4 :=
  ⟨by change 1 ≤ 8; decide, by change 8 ≤ 8; decide, by change ∀ r ∈ [(8 : VReg), 24], r.val % 8 = 0; decide,
    by change (4 : TReg).val % pow2Up ((BitVec.toNat (8 : BitVec 4) + 1) / 2) = 0; decide⟩

/-- TCTL enables nothing. -/
theorem wPasses (s : State) (e : VEntry) (t : TReg) (P : Nat → Option Nat) (l : List Nat) (h : e.tctl = 0) :
    TreePasses s e t P l := by
  refine ⟨fun c => ?_, fun c => ?_, fun c => ?_⟩ <;> rw [h] at c <;> cases c

/-- TCTL enables every trap, with DLIM 1, over three roots. -/
theorem wPassesAll (l : List Nat) (h : l = [0, 1, 2]) :
    let i := Instr.tdn 1 2 0 .add .f32 false
    TreePasses (wTree i 0xFFFFFFFFFFFF 0x10007 1) (wTreeEntry i 0x10007 1) 0
      (cleanParent (wTree i 0xFFFFFFFFFFFF 0x10007 1) (wTreeEntry i 0x10007 1) 0 false) l := by
  subst h
  unfold TreePasses EntriesPass
  exact ⟨fun _ => by decide +kernel, fun _ => by decide +kernel, fun _ _ => by decide +kernel⟩

theorem witness_TreeNodeResult :
    (∀ i ∈ [Instr.tdn 1 2 7 .add .f32 false, .tup 1 2 7 .or .n32 false, .tbc 1 2 7 3 .i32 false, .tdep 1 7, .tancK 1 7 31,
        .tancM 1 7 3 .n32, .troot 1 7, .tchk 1 7 .n32, .tdeg 1 7],
      ∃ s e, Undisturbed s e [] ∧ e.instr = i ∧ TreeGroups e [1, 2] 7 ∧
        TreePasses s e 7 (cleanParent s e 7 false) (forestNodes s e) ∧ EntriesPass s e 7 (forestNodes s e) ∧ i.wellFormed = true) ∧
    (∃ s e, Undisturbed s e [] ∧ e.instr = .tdn 8 24 4 .max .i32 false ∧ TreeGroups e [8, 24] 4 ∧
      TreePasses s e 4 (cleanParent s e 4 false) (forestNodes s e)) ∧
    (∃ s e, Undisturbed s e [] ∧ e.instr = .tdn 1 2 0 .add .f32 false ∧ e.tctl = 0x10007 ∧
      TreePasses s e 0 (cleanParent s e 0 false) (forestNodes s e)) ∧
    ∃ s e, Undisturbed s e [] ∧ e.instr = .tisanc 1 7 2 false ∧ TreeGroups e [2] 7 ∧
      TreePasses s e 7 (cleanParent s e 7 false) (forestNodes s e) := by
  refine ⟨fun i hi => ?_, ⟨_, _, wTreeCalm _ 0 0 8, rfl, wTreeGroups8 _ 0, wPasses _ _ _ _ _ rfl⟩,
    ⟨wTree (.tdn 1 2 0 .add .f32 false) 0xFFFFFFFFFFFF 0x10007 1, wTreeEntry (.tdn 1 2 0 .add .f32 false) 0x10007 1, wTreeCalm _ _ _ _,
      rfl, rfl, wPassesAll _ (by decide +kernel)⟩,
    ⟨_, _, wTreeCalm _ 0 0 1, rfl, wTreeGroups1 _ 0 _ _, wPasses _ _ _ _ _ rfl⟩⟩
  have ok : i.wellFormed = true := by revert i; decide +kernel
  exact ⟨_, _, wTreeCalm i 0 0 1, rfl, wTreeGroups1 i 0 _ _, wPasses _ _ _ _ _ rfl, (wPasses _ _ _ (fun _ => none) _ rfl).2.1, ok⟩

theorem witness_TreeTraps_forms : ∀ i ∈ [Instr.tup 1 2 7 .or .n32 false, .tdn 1 2 7 .add .f32 false, .tbc 1 2 7 3 .i32 false, .tdep 1 7,
      .tancK 1 7 31, .tancM 1 7 3 .n32, .troot 1 7, .tdeg 1 7, .tctr 1 2 7 .n32 false, .tisanc 1 7 2 false],
    ∃ s e vals, Undisturbed s e [] ∧ e.instr = i ∧ treeOperands i = some (vals, 7) ∧ TreeGroups e vals 7 ∧
      (treeEnables i).isSome = true := by
  intro i hi
  have ok : (treeOperands i).map (·.2) = some 7 ∧ (treeEnables i).isSome = true := by revert i; decide +kernel
  obtain ⟨⟨vals, t⟩, h, rfl⟩ := Option.map_eq_some_iff.mp ok.1
  exact ⟨_, _, vals, wTreeCalm i 0 0 1, rfl, h, wTreeGroups1 i 0 _ _, ok.2⟩

/-- A misaligned group of values and of topology; a node that is its own parent; a parent beyond the forest; a chain deeper
than DLIM; and the checks of tdeg and tctr. -/
theorem witness_TreeTraps :
    ((1 : TReg).val % pow2Up (((wTreeEntry (.tdep 0 1) 0 3).tgrp.toNat + 1) / 2) ≠ 0 ∧ encode (.tdep 0 1) = some 0x8C002048) ∧
    ((3 : VReg).val % pow2Up ((wTreeEntry (.tdn 3 0 0 .add .f32 false) 0 2).tgrp.toNat) ≠ 0 ∧
      encode (.tdn 3 0 0 .add .f32 false) = some 0x8C600020) ∧
    (let i := Instr.tdn 1 2 0 .add .f32 false
     let e := wTreeEntry i 1 1
     let s := wTree i 0 1 1
     Undisturbed s e [] ∧ e.tctl.getLsbD 0 = true ∧
      (forestNodes s e).find? (isCyclic (cleanParent s e 0 false) (treeLength s e)) = some 0) ∧
    (let i := Instr.tdn 1 2 0 .add .f32 false
     let e := wTreeEntry i 2 1
     let s := wTree i 0xFFFFFFFF0003 2 1
     Undisturbed s e [] ∧ e.tctl.getLsbD 0 = false ∧
      (forestNodes s e).find? (fun n =>
        e.tctl.getLsbD 1 && decide (rawParent s 0 n < 0xFFFE) && decide (treeLength s e ≤ rawParent s 0 n)) = some 0) ∧
    (let i := Instr.tdeg 1 0
     let e := wTreeEntry i 2 1
     let s := wTree i 0xFFFFFFFF0003 2 1
     (forestNodes s e).find? (fun n => e.tctl.getLsbD 1 && decide (rawParent s 0 n < 0xFFFE) &&
       decide (treeLength s e ≤ rawParent s 0 n)) = some 0) ∧
    (let i := Instr.tctr 1 2 0 .f32 false
     let e := wTreeEntry i 1 1
     let s := wTree i 0 1 1
     (List.range (treeLength s e)).find? (isCyclic (cleanParent s e 0 true) (treeLength s e)) = some 0) ∧
    let i := Instr.tdn 1 2 0 .add .f32 false
    let e := wTreeEntry i 0x10004 1
    let s := wTree i 0x00010000FFFF 0x10004 1
    Undisturbed s e [] ∧ e.tctl.getLsbD 0 = false ∧
      (forestNodes s e).find? (fun n => e.tctl.getLsbD 2 && (e.tctl.extractLsb' 16 16).toNat != 0 &&
        !isCyclic (cleanParent s e 0 false) (treeLength s e) n &&
        decide ((e.tctl.extractLsb' 16 16).toNat < depthOf (cleanParent s e 0 false) (treeLength s e) n)) = some 2 :=
  ⟨⟨by decide +kernel, rfl⟩, ⟨by decide +kernel, rfl⟩, ⟨wTreeCalm _ _ _ _, by decide +kernel, by decide +kernel⟩,
    ⟨wTreeCalm _ _ _ _, by decide +kernel, by decide +kernel⟩, by decide +kernel, by decide +kernel, wTreeCalm _ _ _ _,
    by decide +kernel, by decide +kernel⟩

theorem witness_TopologyMoveAndContraction :
    (∀ i ∈ [Instr.tmov 1 7 .n32, .tmovToTopo 2 7 .n32 false, .tctr 1 2 7 .n32 false],
      ∃ s e, Undisturbed s e [] ∧ e.instr = i ∧ TreeGroups e [1, 2] 7 ∧
        TreePasses s e 7 (cleanParent s e 7 true) (List.range (treeLength s e)) ∧ 0 < s.hart.lanes) ∧
    (let i := Instr.tld 7 1 0 false
     let s := wLane i 0x2010 0
     let e := { wEntry i with xa := 0x2010 }
     Undisturbed s e [] ∧ forestNodes s e = [0, 1, 2] ∧
      ReadsElements s e 2 [0, 1, 2] (fun n => 0x2010 + BitVec.ofNat 64 (2 * n)) (fun _ => false) (fun _ => false)
        (fun n => s.mem.readLe (0x2010 + 2 * n) 2)) ∧
    let i := Instr.tst 7 1 0 false
    let s := wLane i 0x2010 0
    let e := { wEntry i with xa := 0x2010 }
    Undisturbed s e [] ∧ s.hart.NoLiveLeaf ∧ s.hart.buffer.length + 4 ≤ 8 ∧
      WritesElements s e .write 2 [0, 1, 2] (fun n => 0x2010 + BitVec.ofNat 64 (2 * n)) (fun n => 0x2010 + 2 * n) := by
  refine ⟨fun i hi => ⟨_, _, wTreeCalm i 0 0 1, rfl, wTreeGroups1 i 0 _ _, wPasses _ _ _ _ _ rfl, ?_⟩,
    ⟨wLaneCalm _ _ _, by decide +kernel, fun g h => (nomatch h), mem3 ?_ ?_ ?_⟩,
    wLaneCalm _ _ _, by unfold Hart.NoLiveLeaf; decide +kernel, by decide +kernel, mem3 ?_ ?_ ?_⟩
  · change 0 < wHart.lanes
    decide
  · exact fun _ => ⟨wPlace 0x2010, okIs (by decide +kernel), rfl, fun _ => by unfold Merged; decide +kernel⟩
  · exact fun _ => ⟨wPlace 0x2012, okIs (by decide +kernel), rfl, fun _ => by unfold Merged; decide +kernel⟩
  · exact fun _ => ⟨wPlace 0x2014, okIs (by decide +kernel), rfl, fun _ => by unfold Merged; decide +kernel⟩
  · exact ⟨wPlace 0x2010, okIs (by decide +kernel), by decide +kernel⟩
  · exact ⟨wPlace 0x2012, okIs (by decide +kernel), by decide +kernel⟩
  · exact ⟨wPlace 0x2014, okIs (by decide +kernel), by decide +kernel⟩

/-! ## The anvil -/

/-- The machine whose cell's anvil comes to an instruction, which captured xa and xb; a bfp8 block of zeros lies at
0x3000 and is the first of the weight buffer. -/
def wAnvilEntry (i : Instr) (xa xb : Word) : VEntry := { wEntry i with xa := xa, xb := xb, inAnvil := true }
def wAnvil (i : Instr) (xa xb : Word) : State :=
  { wState with
    mem := wState.mem ++ [(0x3000, 8)]
    cells := wState.cells.set 0 { tlb := wTlb, wb := [(0, 8)], anvil := [.hart 1] }
    hart := { wHart with vq := [wAnvilEntry i xa xb] } }

theorem wAtAnvil (i : Instr) (xa xb : Word) : AtAnvil (wAnvil i xa xb) (wAnvilEntry i xa xb) [] [] where
  calm := {
    head := rfl
    settled := rfl
    unbound := by change ∀ n : HReg, wHart.handles[n].bound = false; decide
    soundV := by change ∀ r : VReg, wHart.vpoison[r] = 0; decide
    soundT := by change ∀ r : TReg, wHart.tpoison[r] = 0; decide
    soundM := by change ∀ r : MReg, wHart.mpoison[r] = 0; decide }
  here := by change HStatus.running ≠ .free; decide
  turn := rfl

theorem witness_AnvilQueueAndAccumulators :
    (let s := wQueue (.anvZero 1) 0 0
     s.hart.vq = wEntry (.anvZero 1) :: [] ∧ usesAnvil (.anvZero 1) = true ∧ (wEntry (.anvZero 1)).inAnvil = false ∧
      s.hart.OutputsDone ∧ (s.cellOf 0 0).anvil.length < 16) ∧
    (16 ≤ ((wState.setCell 0 0 { anvil := List.replicate 16 (.followOn 0) }).cellOf 0 0).anvil.length) ∧
    (AtAnvil (wAnvil (.anvZero 1) 0xFFFF0000 0) (wAnvilEntry (.anvZero 1) 0xFFFF0000 0) [] [] ∧
      bitsOf 0xFFFF0000 63 32 = 0 ∧ bitsOf 0xFFFF0000 3 0 = 0 ∧ rectOf 0xFFFF0000 0 = (255, 255, 1, 1)) ∧
    (∀ i ∈ [Instr.accLd 3 2, .accSt 3 2], AtAnvil (wAnvil i 0x1FFFC 0) (wAnvilEntry i 0x1FFFC 0) [] [] ∧
      AccPlaces (wAnvil (.accLd 3 2) 0x1FFFC 0) (wAnvilEntry (.accLd 3 2) 0x1FFFC 0) ∧
      ((wAnvil (.accLd 3 2) 0x1FFFC 0).cellOf 0 0).accError = []) ∧
    ∀ load : Bool,
      let s := wAnvil (.accMem 1 0 load) 0x2000 0
      let e := wAnvilEntry (.accMem 1 0 load) 0x2000 0
      AtAnvil s e [] [] ∧ s.hart.NoLiveLeaf ∧ bitsOf e.xb 3 0 = 0 ∧ rectOf e.xb e.actl = (0, 0, 1, 1) ∧ e.xa.toNat % 4 = 0 ∧
        ((s.cellOf 0 0).accError = []) ∧ meetsBuffer s.hart.buffer 0x2000 4 = false ∧ readFault s 0x2000 4 = none ∧
        ownPlace s (entryAgent s.hart e) .read (0x2000 + BitVec.ofNat 64 (0 * 4 + 4 * 0)) 4 = .ok (wPlace 0x2000) ∧
        ownPlace s (entryAgent s.hart e) .write (0x2000 + BitVec.ofNat 64 (0 * 4 + 4 * 0)) 4 = .ok (wPlace 0x2000) := by
  refine ⟨⟨rfl, rfl, rfl, wDone, by decide +kernel⟩, by decide +kernel, ⟨wAtAnvil _ _ _, by decide, by decide, by decide +kernel⟩,
    fun i _ => ⟨wAtAnvil i _ _, ⟨by decide, by decide, by decide, by decide +kernel⟩, by decide +kernel⟩, fun load => ?_⟩
  refine ⟨wAtAnvil _ _ _, ?_⟩
  cases load <;>
    exact ⟨by unfold Hart.NoLiveLeaf; decide +kernel, by decide +kernel, by decide +kernel, by decide +kernel,
      by decide +kernel, by decide +kernel, by decide +kernel, okIs (by decide +kernel), okIs (by decide +kernel)⟩

theorem wBlockAt (i : Instr) (xa xb va : Word) (h : va = 0x3000) :
    BlockAt (wAnvil i xa xb) (wAnvilEntry i xa xb) va 8 := by
  subst h
  exact ⟨{ pa := 0x3000, leaf := { entry := 0x3047, log := 0, cached := true } }, rfl, rfl, rfl, rfl, by
    change readBlock (wState.mem ++ [(0x3000, 8)]) 0x3000 = 8
    decide +kernel⟩

theorem witness_AnvilArithmetic :
    (let s := wAnvil (.anvOp 1 2) 0 0x3000
     let e := wAnvilEntry (.anvOp 1 2) 0 0x3000
     AtAnvil s e [] [] ∧ bitsOf e.xa 63 62 = 0 ∧ e.xa.getLsbD 60 = false ∧ bitsOf e.xa 3 0 = 0 ∧
      rectOf e.xa e.actl = (0, 0, 1, 1) ∧ bitsOf e.xa 59 48 + 1 = 1 ∧ bitsOf e.xa 47 32 = 0 ∧ e.xb.toNat % 64 = 0 ∧
      BlockAt s e (e.xb + BitVec.ofNat 64 0 * 64 + BitVec.ofNat 64 (64 * 0)) 8 ∧ OfClass (.bfp 8) 8 ∧
      checkBlock 8 (fun _ => true) = none ∧ OfClass (.bfp 8) ((s.cellOf 0 0).wbAt 0) ∧ (s.cellOf 0 0).accError = []) ∧
    (let s := wAnvil (.wbLoad 1 2) 0x3000 0xFFFF00000001
     let e := wAnvilEntry (.wbLoad 1 2) 0x3000 0xFFFF00000001
     AtAnvil s e [] [] ∧ bitsOf e.xb 63 48 = 0 ∧ bitsOf e.xb 31 17 = 0 ∧ bitsOf e.xb 16 0 = 1 ∧ e.xa.toNat % 64 = 0 ∧
      BlockAt s e (e.xa + BitVec.ofNat 64 (64 * 0)) 8 ∧ checkBlock 8 (fun _ => true) = none ∧
      bitsOf e.xb 47 32 + (expandBlock 8).length ≤ 65536) ∧
    AtAnvil (wAnvil (.vrsumBfp 1 2 3) 0 0) (wAnvilEntry (.vrsumBfp 1 2 3) 0 0) [] [] :=
  ⟨⟨wAtAnvil _ _ _, by decide, by decide, by decide, by decide, by decide, by decide, by decide,
      wBlockAt _ _ _ _ (by decide), .inr (by decide +kernel), by decide +kernel, .inr (by decide +kernel), by decide +kernel⟩,
    ⟨wAtAnvil _ _ _, by decide, by decide, by decide, by decide, wBlockAt _ _ _ _ (by decide), by decide +kernel,
      by decide +kernel⟩, wAtAnvil _ _ _⟩

/-! ## The strip store buffer -/

/-- A stream of ten 32-bit elements from 0x2000 on, described at 0x2040; and the machine with a handle of it. -/
def wDesc (output : Bool) : StreamDesc where
  addr := 0x2040
  paged := false
  output := output
  dbv := false
  db := 0
  width := 32
  signed := true
  block := none
  ndim := 1
  seq := 0
  base := 0x2000
  words := [0xA00000000, 0, 0, 0]
  total := 10
def wInput (x : Handle) : Handle := { x with desc := some (wDesc false), bound := true }
def wOutput (x : Handle) : Handle := { x with desc := some (wDesc true), bound := true }
def wStream (x : Handle) : State := wOf fun h => { h with handles := h.handles.set 5 x }

theorem wStreamBound (x : Handle) (d : StreamDesc) (h1 : x.desc = some d) (h2 : x.bound = true)
    (o : (wStream x).hart.OutputsDone := by unfold Hart.OutputsDone; decide +kernel) :
    StreamBound (wStream x) 5 x d := ⟨rfl, h1, h2, rfl, o⟩

/-- The machine with some updates of a scatter-add at 0x2000. -/
def wUpdates (k : AddKind) (us : List (Word × Nat × Nat)) : State := wOf fun h => { h with buffer := [{ entry := .adds k us }] }

theorem witness_QuenchAndSabort :
    (wStores.hart.vq = [] ∧ wStores.hart.OutputsDone ∧ (∀ n : HReg, wStores.hart.handles[n].busy = false) ∧
      quenchFault wStores = .ok () ∧ wStores.hart.cancel = false ∧
      ∀ slot ∈ wStores.hart.buffer, ∃ bytes, slot.entry = .store bytes) ∧
    (let s := wUpdates (.flt .f32 0) [(0x2000, 0x2000, 5), (0x2004, 0x2004, 6)]
     quenchFault s = .ok () ∧ s.hart.OutputsDone ∧ (∀ slot ∈ s.hart.buffer, ∃ k us, slot.entry = .adds k us) ∧
      (updatesOf s.hart.buffer).Pairwise fun p q => p.2.2.1 + p.1.bytes ≤ q.2.2.1 ∨ q.2.2.1 + q.1.bytes ≤ p.2.2.1) ∧
    (let s := wUpdates (.flt .f32 0) [(0x2000, 0x2000, 0x3F800000), (0x2000, 0x2000, 0x7F7FFFFF)]
     quenchFault s = .ok () ∧ s.hart.OutputsDone ∧ updatesOf s.hart.buffer =
       [(.flt .f32 0, 0x2000, 0x2000, 0x3F800000), (.flt .f32 0, 0x2000, 0x2000, 0x7F7FFFFF)]) ∧
    (let s := wOf fun h => { h with cancel := true }
     s.hart.vq = [] ∧ s.hart.OutputsDone ∧ quenchFault s = .ok () ∧ s.hart.cancel = true) ∧
    (let s := wOf fun h => { h with buffer := [{ entry := .store [], bad := true }] }
     s.hart.vq = [] ∧ s.hart.OutputsDone ∧ (∃ slot ∈ s.hart.buffer, slot.bad = true) ∧
      HandlerReady s { cause := 0x60, sub := 0x01 }) ∧
    let s := wStream { desc := some (wDesc true), bound := true, pos := 4, ckpt := 2, done := 2, pub := 2, held := [7, 8] }
    s.hart.vq = [] ∧ s.hart.OutputsDone ∧ quenchFault s = .ok () ∧ s.hart.handles[(5 : HReg)].bound = true := by
  refine ⟨⟨rfl, wDone, by decide +kernel, rfl, rfl, fun slot h => ?_⟩, ⟨rfl, wDone, fun slot h => ?_, by decide⟩,
    ⟨rfl, wDone, rfl⟩, ⟨rfl, wDone, rfl, rfl⟩, ⟨rfl, wDone, by decide +kernel, readyOf rfl (by decide +kernel) _⟩, rfl,
    by unfold Hart.OutputsDone; decide +kernel, okIs (by decide +kernel), rfl⟩
  · cases h with
    | head => exact ⟨_, rfl⟩
    | tail _ h => cases h
  · cases h with
    | head => exact ⟨_, _, rfl⟩
    | tail _ h => cases h

/-- An update whose place is poisoned; an output stream of which an element does not translate, and one with a fault it
holds. -/
theorem witness_QuenchAndSabort_faults :
    (let s := { wUpdates (.int 32) [(0x2000, 0x2000, 5)] with poisoned := [0x2003] }
     s.hart.vq = [] ∧ s.hart.OutputsDone ∧ (∀ slot ∈ s.hart.buffer, slot.bad = false) ∧
      updatesOf s.hart.buffer = [] ++ (.int 32, 0x2000, 0x2000, 5) :: [] ∧
      readFault s 0x2000 (AddKind.bytes (.int 32)) = some 0x14 ∧ HandlerReady s { cause := 0x14, addr := 0x2000 }) ∧
    (let d := { wDesc true with base := 0x4FFC }
     let x : Handle := { desc := some d, bound := true, held := [7, 8] }
     let s := wStream x
     s.hart.vq = [] ∧ s.hart.OutputsDone ∧ (∀ slot ∈ s.hart.buffer, slot.bad = false) ∧
      (∀ p ∈ updatesOf s.hart.buffer, readFault s p.2.2.1 p.1.bytes = none) ∧
      outputFault s s.hart.handles[(5 : HReg)] = some (0x40, 0x10, 0x5000) ∧
      (∀ m : HReg, m < 5 → outputFault s s.hart.handles[m] = none) ∧
      HandlerReady s (trapOfStream 5 0x40 0x10 0x5000) ∧
      writePlaces s { x with blk := none } d (x.done + 1) = .error (0x40, 0x10, 0x5000) ∧
      ∃ r, writePlaces s { x with blk := none } d (x.done + 0) = .ok r) ∧
    (wOutput { fault := some (0x40, 0x10, 0) }).desc = some (wDesc true) ∧ (wDesc true).output = true ∧
      (wOutput { fault := some (0x40, 0x10, 0) }).fault = some (0x40, 0x10, 0) :=
  ⟨⟨rfl, wDone, by decide +kernel, rfl, by decide +kernel, readyOf rfl (by decide +kernel) _⟩,
    ⟨rfl, by unfold Hart.OutputsDone; decide +kernel, by decide +kernel, by decide +kernel, by decide +kernel, by decide +kernel,
      readyOf rfl (by decide +kernel) _, errOf (by decide +kernel), okOf (by decide +kernel)⟩, rfl, rfl, rfl⟩

/-! ## Streams -/

/-- The descriptor of `wDesc false` in memory. -/
def wDescribed : State :=
  { wState with mem := wState.mem ++ [(0x2046, 4), (0x2049, 0x20), (0x2054, 10)] }

theorem witness_StreamDescriptorsAndChannels_def :
    wDescribed.hart.Gives 1 0x2000 ∧ wDescribed.hart.vq = [] ∧ wDescribed.hart.OutputsDone ∧ wDescribed.hart.handles[(5 : HReg)].bound = false ∧
      (∃ x s1 d pos, loadValue wDescribed 0x2040 64 = .ok (x, s1) ∧ readDesc 0x2040 (BitVec.ofNat 512 x) = .ok (d, pos)) ∧
      (wDesc false).paged = false ∧ 1 ≤ (wDesc false).ndim ∧ (wDesc false).ndim ≤ 4 ∧ (wDesc false).words.length = 4 := by
  refine ⟨.inr (by decide), rfl, wDone, rfl, ?_, rfl, by decide, by decide, rfl⟩
  have h : (match loadValue wDescribed 0x2040 64 with
      | .ok p => (readDesc 0x2040 (BitVec.ofNat 512 p.1)).toBool
      | .error _ => false) = true := by decide +kernel
  revert h
  cases loadValue wDescribed 0x2040 64 with
  | error e => exact fun h => nomatch h
  | ok p => exact fun h => (okOf h).elim fun q hq => ⟨p.1, p.2, q.1, q.2, rfl, hq⟩

/-- A descriptor with word 7 not zero, in memory; one with a stride that is no multiple of 8; and a block stream whose
base is not aligned. -/
theorem witness_StreamDescriptorsAndChannels_refused :
    (let s := (wVal 0x2040).storeLe 0x2078 1 1
     s.hart.Gives 4 0x2040 ∧ s.hart.vq = [] ∧ s.hart.OutputsDone ∧ s.hart.handles[(5 : HReg)].bound = false ∧
      HandlerReady s { cause := 0x40, sub := 0x02, addr := 0x2040 } ∧
      ∃ x s1, loadValue s 0x2040 64 = .ok (x, s1) ∧ readDesc 0x2040 (BitVec.ofNat 512 x) = .error (0x40, 0x02)) ∧
    (let b : Block := 1#512 <<< 448
     b.extractLsb' 448 64 ≠ 0) ∧
    (let b : Block := 4#512 <<< 128
     (streamTypes.find? fun r => r.1 == bitsOf (b.extractLsb' 0 64) 53 53 && r.2.1 == bitsOf (b.extractLsb' 0 64) 52 49).isSome ∧
      bitsOf (b.extractLsb' 0 64) 63 62 = 0 ∧ bitsOf (b.extractLsb' 128 64) 31 0 % 8 ≠ 0) ∧
    let b : Block := (1#512 <<< 64) ||| (0x30000000000000 : BitVec 512)
    (streamTypes.find? fun r => r.1 == bitsOf (b.extractLsb' 0 64) 53 53 && r.2.1 == bitsOf (b.extractLsb' 0 64) 52 49).isSome ∧
      bitsOf (b.extractLsb' 0 64) 53 53 = 1 ∧ 8 ≤ bitsOf (b.extractLsb' 0 64) 52 49 ∧ bitsOf (b.extractLsb' 64 64) 5 0 ≠ 0 := by
  refine ⟨⟨.inr (by decide), rfl, wDone, rfl, readyOf rfl (by decide +kernel) _, ?_⟩, by decide +kernel⟩
  have h : (match loadValue ((wVal 0x2040).storeLe 0x2078 1 1) 0x2040 64 with
      | .ok p => decide (p.1 = (1#512 <<< 448).toNat)
      | .error _ => false) = true := by decide +kernel
  revert h
  cases loadValue ((wVal 0x2040).storeLe 0x2078 1 1) 0x2040 64 with
  | error e => exact fun h => nomatch h
  | ok p => exact fun h => ⟨p.1, p.2, rfl, of_decide_eq_true h ▸ errOf (by decide +kernel)⟩

theorem witness_StreamDescriptorsAndChannels_bind :
    (let s := wStream { desc := some (wDesc false) }
     s.hart.vq = [] ∧ s.hart.OutputsDone ∧ s.hart.handles[(5 : HReg)].desc.isSome = true ∧ s.hart.handles[(5 : HReg)].bound = false ∧
      channelsUsed s s.hart.die s.hart.cell < 16) ∧
    (let s := wStream (wInput {})
     s.hart.vq = [] ∧ s.hart.OutputsDone ∧ s.hart.handles[(5 : HReg)].desc.isSome = true ∧
      s.hart.handles[(5 : HReg)].bound = true) ∧
    (let s := wStream (wOutput { released := [7] })
     s.hart.vq = [] ∧ ¬s.hart.OutputsDone) ∧
    let s := { wStream { desc := some (wDesc false) } with
      harts := [{ wMate with handles := Vector.replicate 16 (wInput {}) }] }
    s.hart.handles[(5 : HReg)].bound = false ∧ (5 : HReg) ∉ s.hart.heldChannels ∧ 16 ≤ channelsUsed s s.hart.die s.hart.cell :=
  ⟨⟨rfl, wDone, rfl, rfl, by decide +kernel⟩, ⟨rfl, by unfold Hart.OutputsDone; decide +kernel, rfl, rfl⟩,
    ⟨rfl, fun o => (o 5 rfl).elim (fun e => nomatch e) fun ⟨_, e, _⟩ => nomatch e⟩, rfl, by decide +kernel⟩

theorem witness_StreamDescriptorsAndChannels_free :
    (let x := wInput { held := [3], pos := 9 }
     StreamBound (wStream x) 5 x (wDesc false) ∧ x.held ≠ [] ∧ (wStream x).hart.NoLiveLeaf ∧
      ownPlace (wStream x) (wStream x).hart.agent .write ((wDesc false).addr + 48) 8 = .ok (wPlace 0x2070) ∧
      meetsBuffer (wStream x).hart.buffer 0x2070 8 = false) ∧
    (let x := wInput {}
     StreamBound (wStream x) 5 x (wDesc false) ∧ x.fault = none ∧ ¬(x.held ≠ [] ∨ x.fault.isSome ∨ (wDesc false).total ≤ x.pos)) ∧
    (let x := wOutput {}
     StreamBound (wStream x) 5 x (wDesc true) ∧ x.fault = none ∧ x.released = [] ∧ (wDesc true).dbv = false) ∧
    (let x := wOutput { released := [7], fault := some (0x40, 0x10, 0) }
     StreamBound (wStream x) 5 x (wDesc true) ∧ (wDesc true).output = true ∧ x.fault = some (0x40, 0x10, 0) ∧
      HandlerReady (wStream x) (trapOfStream 5 0x40 0x10 0)) ∧
    let d : StreamDesc := { wDesc true with dbv := true }
    let x : Handle := { desc := some d, bound := true, done := 1 }
    StreamBound (wStream x) 5 x d ∧ x.fault = none ∧ ¬(d.dbv = true → x.done ≤ x.pub) :=
  ⟨⟨wStreamBound _ _ rfl rfl, by decide, by unfold Hart.NoLiveLeaf; decide +kernel, rfl, by decide +kernel⟩,
    ⟨wStreamBound _ _ rfl rfl, rfl, by decide⟩, ⟨wStreamBound _ _ rfl rfl, rfl, rfl, rfl⟩,
    ⟨wStreamBound _ _ rfl rfl, rfl, rfl, readyOf rfl (by decide +kernel) _⟩, wStreamBound _ _ rfl rfl, rfl, by decide⟩

theorem witness_StreamDescriptorsAndChannels_perform :
    (let x := wInput { held := [3], pos := 8 }
     let s := wStream x
     s.hart.handles[(5 : HReg)] = x ∧ x.fault = none ∧ x.pos + x.held.length < (wDesc false).total ∧
      (wDesc false).width ∈ [8, 16, 32, 64] ∧ elementAt (wDesc false) 0 9 = (0x2024, 0) ∧
      ownPlace s s.hart.agent .read 0x2024 4 = .ok (wPlace 0x2024) ∧ readFault s 0x2024 4 = none ∧
      readFault { s with poisoned := [0x2027] } 0x2024 4 = some 0x14) ∧
    (let x := wOutput { released := [7], done := 2 }
     let s := wStream x
     x.fault = none ∧ x.released = 7 :: [] ∧ elementAt (wDesc true) 0 2 = (0x2008, 0) ∧
      ownPlace s s.hart.agent .write 0x2008 4 = .ok (wPlace 0x2008)) ∧
    (let d := { wDesc true with base := 0x4FFC }
     let x : Handle := { desc := some d, bound := true, released := [7], done := 1 }
     elementAt d 0 1 = (0x5000, 0) ∧ ownPlace (wStream x) (wStream x).hart.agent .write 0x5000 4 = .error 0x10) ∧
    -- publishing the position after an element, forward and behind the drawbar
    let d : StreamDesc := { wDesc true with dbv := true }
    let x : Handle := { desc := some d, bound := true, released := [7], done := 3, pub := 2 }
    let s := wStream x
    let behind := s.setDie 0 { s.dieOf 0 with db := (s.dieOf 0).db.set 0 { hw := 9 } }
    x.pub < x.done ∧ (¬((s.dieOf 0).db[(0 : Fin 64)].seq = d.seq ∧ BitVec.ofNat 48 3 < (s.dieOf 0).db[(0 : Fin 64)].hw)) ∧
      (behind.dieOf 0).db[(0 : Fin 64)].seq = d.seq ∧ BitVec.ofNat 48 3 < (behind.dieOf 0).db[(0 : Fin 64)].hw :=
  ⟨⟨rfl, rfl, by decide, by decide, by decide +kernel, rfl, by decide +kernel, by decide +kernel⟩,
    ⟨rfl, rfl, by decide +kernel, rfl⟩, ⟨by decide +kernel, errOf (by decide +kernel)⟩, by decide +kernel⟩

theorem witness_StreamElementsAndOperands_scalar :
    (∀ x ∈ [wInput { held := [3] }, wInput {}, wInput { pos := 10 }, wInput { fault := some (0x40, 0x10, 0) }, wOutput { pos := 9 }],
      (wStream x).hart.Full 31 ∧ (wStream x).hart.reads < 8 ∧ (wStream x).hart.Gives 2 5) ∧
    StreamBound (wStream (wInput { held := [3] })) 5 (wInput { held := [3] }) (wDesc false) ∧
    (StreamBound (wStream (wInput {})) 5 (wInput {}) (wDesc false) ∧ (wInput {}).pos < (wDesc false).total) ∧
    (StreamBound (wStream (wInput { pos := 10 })) 5 (wInput { pos := 10 }) (wDesc false) ∧
      (wDesc false).total ≤ (wInput { pos := 10 }).pos ∧
      HandlerReady (wStream (wInput { pos := 10 })) (trapOfStream 5 0x40 0x12 0)) ∧
    (StreamBound (wStream (wInput { fault := some (0x40, 0x10, 0) })) 5 (wInput { fault := some (0x40, 0x10, 0) }) (wDesc false) ∧
      HandlerReady (wStream (wInput { fault := some (0x40, 0x10, 0) })) (trapOfStream 5 0x40 0x10 0)) ∧
    StreamBound (wStream (wOutput { pos := 9 })) 5 (wOutput { pos := 9 }) (wDesc true) ∧
    (StreamBound (wStream (wOutput { pos := 10 })) 5 (wOutput { pos := 10 }) (wDesc true) ∧
      (wDesc true).total ≤ (wOutput { pos := 10 }).pos ∧
      HandlerReady (wStream (wOutput { pos := 10 })) (trapOfStream 5 0x40 0x12 0)) := by
  refine ⟨?_, wStreamBound _ _ rfl rfl, ⟨wStreamBound _ _ rfl rfl, by decide⟩,
    ⟨wStreamBound _ _ rfl rfl, by decide, readyOf rfl (by decide +kernel) _⟩,
    ⟨wStreamBound _ _ rfl rfl, readyOf rfl (by decide +kernel) _⟩, wStreamBound _ _ rfl rfl, wStreamBound _ _ rfl rfl, by decide,
    readyOf rfl (by decide +kernel) _⟩
  intro x _
  exact ⟨rfl, by change wHart.reads < 8; decide, .inr ⟨by decide, rfl, rfl, rfl⟩⟩

/-- A full channel of a hart with one carriage, over a stream long enough. -/
theorem witness_StreamElementsAndOperands_full :
    let d := { wDesc true with words := [0x20000000000, 0, 0, 0], total := 512 }
    let x : Handle := { desc := some d, bound := true, held := List.replicate 128 7, pos := 128 }
    let s := (wStream x).onlyHart fun h => { h with grant := 1 }
    s.hart.handles[(5 : HReg)] = x ∧ s.hart.vq = [] ∧ s.hart.OutputsDone ∧ d.output = true ∧ s.hart.Gives 2 5 ∧ x.pos < d.total ∧
      2 * (8 * s.hart.lanes) ≤ x.held.length ∧ ∃ s1, quenchNow s true = .ok s1 :=
  ⟨rfl, rfl, by unfold Hart.OutputsDone; decide +kernel, rfl, .inr ⟨by decide, rfl, rfl, rfl⟩, by decide +kernel, by decide +kernel,
    okOf (by decide +kernel)⟩

/-- The machine with vmv.i32 v1, v2 at the head of the queue and handle 5. -/
def wMoves (x : Handle) : State :=
  (wStream x).onlyHart fun h => { h with vq := [wEntry (.vmv 1 2 .i32 false)] }

theorem wMovesCalm (x : Handle) : (wMoves x).hart.vq = wEntry (.vmv 1 2 .i32 false) :: [] ∧ (wMoves x).hart.producers = [] ∧
    (∀ r : VReg, (wMoves x).hart.vpoison[r] = 0) ∧ (∀ r : MReg, (wMoves x).hart.mpoison[r] = 0) ∧
    (wMoves x).hart.handles[(5 : HReg)] = x := by
  refine ⟨rfl, rfl, ?_, ?_, rfl⟩
  · change ∀ r : VReg, wHart.vpoison[r] = 0
    decide
  · change ∀ r : MReg, wHart.mpoison[r] = 0
    decide

theorem witness_StreamElementsAndOperands_lanes :
    (let x := wInput { held := [3, 4, 5], reg := some 2 }
     lengthAt (wMoves x) (wEntry (.vmv 1 2 .i32 false)) 32 ≤ x.held.length ∧
      actives (wMoves x) (wEntry (.vmv 1 2 .i32 false)) 32 ≠ [] ∧ (wDesc false).width = IntTy.i32.bits ∧
      ∀ m : HReg, m ≠ 5 → (wMoves x).hart.handles[m].bound = false) ∧
    (let x := wInput { held := [3], reg := some 2 }
     0 < lengthAt (wMoves x) (wEntry (.vmv 1 2 .i32 false)) 32 ∧
      x.held.length < lengthAt (wMoves x) (wEntry (.vmv 1 2 .i32 false)) 32 ∧ x.pos + x.held.length < (wDesc false).total ∧
      x.fault = none ∧ ∀ m : HReg, m ≠ 5 → (wMoves x).hart.handles[m].bound = false) ∧
    let x := wOutput { pos := 7, reg := some 1 }
    x.pos + lengthAt (wMoves x) (wEntry (.vmv 1 2 .i32 false)) 32 ≤ (wDesc true).total ∧
      x.held.length + lengthAt (wMoves x) (wEntry (.vmv 1 2 .i32 false)) 32 ≤ 2 * (8 * (wMoves x).hart.lanes) ∧
      ∀ m : HReg, m ≠ 5 → (wMoves x).hart.handles[m].bound = false :=
  ⟨⟨by decide +kernel, by decide +kernel, rfl, by decide +kernel⟩,
    ⟨by decide +kernel, by decide +kernel, by decide +kernel, rfl, by decide +kernel⟩, by decide +kernel, by decide +kernel,
    by decide +kernel⟩

/-! ## Drawbars and barriers -/

theorem witness_DrawbarsAndBarriers :
    (wState.hart.Gives 2 5 ∧ wState.hart.Gives 0 0 ∧ wState.hart.NoVectorMemory ∧ wState.hart.Full 31 ∧
      wState.hart.reads < 8 ∧ wState.hart.status = .running ∧
      ¬((0 : Word).truncate 16 = ((wState.dieOf 0).db[(0 : Fin 64)]).seq ∧
        (5 : Word).toNat % 2 ^ 48 < ((wState.dieOf 0).db[(0 : Fin 64)]).hw.toNat)) ∧
    (let s := wState.setDie 0 { wState.dieOf 0 with db := (wState.dieOf 0).db.set 0 { hw := 6 } }
     ((0 : Word).truncate 16 = ((s.dieOf 0).db[(0 : Fin 64)]).seq ∧
        (5 : Word).toNat % 2 ^ 48 < ((s.dieOf 0).db[(0 : Fin 64)]).hw.toNat) ∧ HandlerReady s { cause := 0x41, addr := 5 }) ∧
    (let bar : Arrival := { armed := true, xb := 4, cb := 4 }
     let s := wState.setDie 0 { wState.dieOf 0 with ab := (wState.dieOf 0).ab.set 63 bar }
     (s.dieOf 0).ab[(63 : Fin 64)] = bar ∧ bar.armed = true ∧ bar.xb ≤ bar.cb ∧ bar.xa ≤ bar.ca) ∧
    (¬((wState.dieOf 0).ab[(63 : Fin 64)].armed = true) ∧ wState.hart.cancel = false) ∧
    (let s := wOf fun h => { h with status := .waiting, cancel := true }
     s.hart.status = .waiting ∧ s.hart.cancel = true) ∧
    (wState.findTask wState.hart.task = some wTask ∧ wState.hart.mark = .none ∧ wTask.arrivals.Nodup ∧ wTask.size = 1) ∧
    (let t : Task := { wTask with size := 2, live := 2, arrivals := [2] }
     let s := { wState with tasks := [t] }
     s.findTask s.hart.task = some t ∧ t.arrivals.Nodup ∧ t.size ≠ 1 ∧ s.hart.parent = none ∧ t.live ≠ 0 ∧
      t.live ≤ (t.arrivals.filter fun x => x != s.hart.hid).length + 1) ∧
    (wFamily.hart.parent.isSome = true ∧ wFamily.hart.NoVectorMemory ∧ wFamily.hart.status = .running ∧
      wFamily.hart.cancel = false ∧ wFamily.hart.mark = .none ∧
      ∃ t, wFamily.findTask wFamily.hart.task = some t ∧ t.size ≠ 1 ∧ t.arrivals.Nodup) ∧
    (let t : Task := { wTask with size := 3, live := 3, arrivals := [2] }
     let s := { wState with tasks := [t] }
     s.findTask s.hart.task = some t ∧ t.arrivals.Nodup ∧ t.size ≠ 1 ∧ s.hart.parent = none ∧ (t.arrivals.filter fun x => x != s.hart.hid).length + 1 < t.live) ∧
    9 ≠ wTask.generation :=
  ⟨⟨wGives2, wGives0 _, wQuiet _ rfl, rfl, by decide, rfl, by decide +kernel⟩,
    ⟨by decide +kernel, readyOf rfl (by decide +kernel) _⟩, ⟨rfl, by decide, by decide, by decide⟩, ⟨by decide +kernel, rfl⟩,
    ⟨rfl, rfl⟩, ⟨rfl, rfl, by decide⟩, ⟨rfl, by decide⟩, ⟨rfl, wQuiet _ rfl, rfl, rfl, rfl, _, rfl, by decide⟩, ⟨rfl, by decide⟩,
    by decide⟩

/-! ## The hearth -/

/-- A leaf of 1 × 2 f32 elements at 0x4000, a leaf of 1 × 120 bfp4 elements, and the sum of the first with itself. -/
def wLeaf : Node where
  nid := 0
  state := .suspended
  op := .leaf
  ty := 0x80
  rows := 1
  cols := 2
  in0 := 0x4000
  in1 := 0x8000000
  param := 0
  i0 := none
  i1 := none
  cpc := 0x1000
  frm := 0
  rm := false
  alloc := some 0
def wBlocks : Node := { wLeaf with ty := 4, rows := 120, cols := 120, nid := 1, in0 := 0x3000, alloc := none }
def wSum : Node :=
  { wLeaf with nid := 2, op := .ew .add, in0 := 64, in1 := 64, i0 := some 0, i1 := some 0, alloc := some 1 }

/-- The machine with an area in page 2, three nodes in slots 0 to 2 and s4 = v. -/
def wTile (a b c : Node) (v : Word) : State :=
  wOf fun h => { h with
    sreg := h.sreg.set 4 v
    hctl := 0x2010
    hearth := { slots := (((Vector.replicate 64 none).set 0 (some a)).set 1 (some b)).set 2 (some c), nextNid := 3 } }

theorem namesOf {h : Hart} {v : Word} {k : Fin 64} {n : Node} (hv : v = BitVec.ofNat 64 k.val) (h1 : h.hearth.slots[k] = some n) (h2 : n.state ≠ .dropped)
    (h3 : h.hearth.ghosts = [])
    (h4 : ∀ j : Fin 64, (h.hearth.slots[j].all fun m => m.nid != n.nid || decide (j = k)) = true) :
    Names h v k n := by
  refine ⟨hv, h1, h2, fun j m hm e => ?_, fun g hg => ?_⟩
  · have hj := h4 j
    rw [hm] at hj
    simp only [Option.all_some, Bool.or_eq_true, bne_iff_ne, ne_eq, decide_eq_true_eq] at hj
    exact hj.resolve_left fun f => f e
  · rw [h3] at hg
    cases hg

theorem wApart : ∀ k j : Fin 64, k.val < 3 →
    ((wTile wLeaf wBlocks wSum 0).hart.hearth.slots[j].all fun m =>
      m.nid != ([wLeaf, wBlocks, wSum].getD k.val wLeaf).nid || decide (j = k)) = true := by decide +kernel

theorem wNames (v : Word) (k : Fin 64) (h : k.val < 3) :
    Names (wTile wLeaf wBlocks wSum v).hart (BitVec.ofNat 64 k.val) k ([wLeaf, wBlocks, wSum].getD k.val wLeaf) := by
  refine namesOf rfl ?_ ?_ rfl fun j => wApart k j h
  · change (wTile wLeaf wBlocks wSum 0).hart.hearth.slots[k] = _
    revert k; decide +kernel
  · revert k; decide +kernel

theorem witness_TileAppends :
    (let s := wTile wLeaf wBlocks wSum 0x40800F03
     s.hart.Gives 0 0 ∧ s.hart.Gives 4 0x40800F03 ∧ s.hart.Full 31 ∧ s.hart.vq = [] ∧ s.hart.OutputsDone ∧ bitsOf 0x40800F03 63 48 = 0 ∧
      tileType (bitsOf 0x40800F03 23 16) = true ∧ bitsOf 0x40800F03 47 24 % tileUnit (BitVec.ofNat 8 (bitsOf 0x40800F03 23 16)) = 0) ∧
    (∀ v, Names (wTile wLeaf wBlocks wSum v).hart 0 0 wLeaf ∧ Names (wTile wLeaf wBlocks wSum v).hart 1 1 wBlocks) ∧
    (wBlocks.ty = wBlocks.ty ∧ (tileFmt wBlocks.ty).isNone = true ∧ wBlocks.cols = wBlocks.rows) ∧
    (wLeaf.rows = wSum.rows ∧ wLeaf.cols = wSum.cols ∧ ∀ v, Names (wTile wLeaf wBlocks wSum v).hart 2 2 wSum) ∧
    (-- a direct map of one element, an indirect one of one row through slot 1, a conversion to bf16
     let y : Word := 0x0
     y.getLsbD 63 = false ∧ bitsOf y 62 50 = 0 ∧ ∀ i ∈ [0, 0], ∀ j ∈ [0, 0],
      0 ≤ (affine y i j).1 ∧ (affine y i j).1 < wLeaf.rows ∧ 0 ≤ (affine y i j).2 ∧ (affine y i j).2 < wLeaf.cols) ∧
    (let y : Word := 0x8000000100000100
     y.getLsbD 63 = true ∧ bitsOf y 62 38 = 0 ∧ bitsOf y 31 16 = 0 ∧ bitsOf y 37 32 = 1 ∧ bitsOf y 15 8 + 1 ≤ wLeaf.cols ∧
      bitsOf y 7 0 + 1 ≤ wBlocks.rows) ∧
    (bitsOf 0x81 63 8 = 0 ∧ tileType (0x81 : Word).toNat = true) := by
  refine ⟨⟨wGives0 _, .inr ⟨by decide, rfl, rfl, rfl⟩, rfl, rfl, wDone, by decide, by decide, by decide⟩,
    fun v => ⟨wNames v 0 (by decide), wNames v 1 (by decide)⟩, ⟨rfl, by decide, rfl⟩,
    ⟨rfl, rfl, fun v => wNames v 2 (by decide)⟩, ⟨by decide, by decide, by decide +kernel⟩,
    ⟨by decide, by decide, by decide, by decide, by decide, by decide⟩, by decide, by decide⟩

/-- A free slot; the leaf's footprint in the strip store buffer; no free slot, with and without AUTO. -/
def wFullHearth (auto : Word) : State :=
  wOf fun h => { h with
    hctl := 0x2010 + auto
    hearth := { slots := Vector.ofFn fun k : Fin 64 => some { wLeaf with nid := k.val, made := 3, state := .materialised, alloc := some k.val },
                nextNid := 64 } }

theorem witness_TileAppends_slots :
    (let s := wTile wLeaf wBlocks wSum 0
     (∃ j : Fin 64, s.hart.hearth.slots[j] = none) ∧ s.hart.hearth.slots[(3 : Fin 64)] = none ∧
      ∀ j < (3 : Fin 64), s.hart.hearth.slots[j] ≠ none) ∧
    (let s := wOf fun h => { h with buffer := [{ entry := .store [(0x4007, 1)] }] }
     (∃ r ∈ wLeaf.footprint s, meetsBuffer s.hart.buffer r.1 r.2 = true) ∧ (quenchNow s true).toBool = true) ∧
    (let s := wFullHearth 1
     (∀ j : Fin 64, s.hart.hearth.slots[j] ≠ none) ∧ s.hart.hctl.getLsbD 0 = true ∧
      ∃ f, autoForce s = .ok f ∧ f.done.hart.hearth.slots[(0 : Fin 64)] = none) ∧
    let s := wFullHearth 0
    (∀ j : Fin 64, s.hart.hearth.slots[j] ≠ none) ∧ s.hart.hctl.getLsbD 0 = false ∧ HandlerReady s { cause := 0x30 } := by
  refine ⟨⟨⟨3, by decide +kernel⟩, by decide +kernel, by decide +kernel⟩, ⟨by decide +kernel, by decide +kernel⟩,
    ⟨by decide +kernel, by decide +kernel, ?_⟩, by decide +kernel, by decide +kernel, readyOf rfl (by decide +kernel) _⟩
  have h : (match autoForce (wFullHearth 1) with
      | .ok f => decide (f.done.hart.hearth.slots[(0 : Fin 64)] = none)
      | .error _ => false) = true := by decide +kernel
  revert h
  cases autoForce (wFullHearth 1) with
  | error e => exact fun h => nomatch h
  | ok f => exact fun h => ⟨f, rfl, of_decide_eq_true h⟩

/-- The leaf with both elements read, and one at an address that does not translate. -/
def wRead : Node := { wLeaf with made := 3, state := .materialised }
def wLost : Node := { wLeaf with in0 := 0x9000 }

theorem witness_TileForce_forms :
    (let s := wTile wLeaf wBlocks wSum 0x200
     s.hart.Gives 0 0 ∧ s.hart.Gives 4 0x200 ∧ s.hart.vq = [] ∧ s.hart.OutputsDone ∧ Names s.hart 0 0 wLeaf ∧ bitsOf 0x200 63 32 = 0 ∧
      wLeaf.cols ≤ bitsOf 0x200 15 8 + bitsOf 0x200 31 24 ∧ HandlerReady s { cause := 0x12, addr := 0x200 }) ∧
    (let s := wTile wLeaf wBlocks wSum 0x100
     Names s.hart 0 0 wLeaf ∧ bitsOf 0x100 7 0 + bitsOf 0x100 23 16 < wLeaf.rows ∧
      bitsOf 0x100 15 8 + bitsOf 0x100 31 24 < wLeaf.cols ∧
      (forceCells s wLeaf.nid (rectCells { r0 := 0, c0 := 1, r1 := 0, c1 := 1 })).toBool = true) ∧
    (let s := wTile wLost wBlocks wSum 0
     Names s.hart 0 0 wLost ∧ (forceCells s wLost.nid (rectCells { r0 := 0, c0 := 0, r1 := 0, c1 := 0 })).toBool = false) ∧
    (let s := wTile wRead wBlocks wSum 0
     Names s.hart 0 0 wRead ∧ widen wRead (rectCells { r0 := 0, c0 := 0, r1 := 0, c1 := 1 }) &&& ~~~wRead.made = 0) :=
  ⟨⟨wGives0 _, .inr ⟨by decide, rfl, rfl, rfl⟩, rfl, wDone, wNames _ 0 (by decide), by decide, by decide,
      readyOf rfl (by decide +kernel) _⟩,
    ⟨wNames _ 0 (by decide), by decide, by decide, by decide +kernel⟩,
    ⟨namesOf rfl rfl (by decide) rfl (by decide +kernel), by decide +kernel⟩,
    namesOf rfl rfl (by decide) rfl (by decide +kernel), by decide +kernel⟩

theorem witness_TileForce_leaf :
    let s := wTile wLeaf wBlocks wSum 0
    let p : Place := { pa := 0x4000, leaf := { entry := 0x4687, log := 0, cached := true } }
    Names s.hart 0 0 wLeaf ∧ wLeaf.made.getLsbD 0 = false ∧ wLeaf.alloc.isSome = true ∧ (tileFmt wLeaf.ty).isSome = true ∧
      wLeaf.op = .leaf ∧ translate s s.hart.agent .read (wLeaf.in0 + BitVec.ofNat 64 (0 * wLeaf.stride + 4 * 0)) = .ok p ∧
      readFault s p.pa 4 = none ∧
      translate (tlbFill s s.hart.agent (wLeaf.in0 + BitVec.ofNat 64 (0 * wLeaf.stride + 4 * 0)) p.leaf) s.hart.agent .write
        (areaAddr s.hart wLeaf 0 0) = .ok (wPlace 0x2000) :=
  ⟨wNames _ 0 (by decide), by decide +kernel, rfl, by decide, rfl, okIs (by decide +kernel), by decide +kernel,
    okIs (by decide +kernel)⟩

/-- The leaf whose first element has been read early. -/
def wEarly : Node := { wLeaf with early := [(0, 7)] }

theorem witness_TileForce_early :
    let s := wTile wEarly wBlocks wSum 0
    Names s.hart 0 0 wEarly ∧ wEarly.made.getLsbD 0 = false ∧ wEarly.alloc.isSome = true ∧ (tileFmt wEarly.ty).isSome = true ∧
      wEarly.op = .leaf ∧ wEarly.early = [] ++ (256 * 0 + 0, 7) :: [] ∧
      translate s s.hart.agent .write (areaAddr s.hart wEarly 0 0) = .ok (wPlace 0x2000) :=
  ⟨namesOf rfl rfl (by decide) rfl (by decide +kernel), by decide +kernel, rfl, by decide, rfl, rfl, okIs (by decide +kernel)⟩

theorem wHolds : HoldsValue (wTile wRead wBlocks wSum 2) wRead 0 0 (.fin false 0 (-149)) := by
  refine ⟨by decide +kernel, 0, ?_, rfl⟩
  have h : (match areaRead (wTile wRead wBlocks wSum 2) wRead 0 0 with | .ok x => x == 0 | .error _ => false) = true := by
    decide +kernel
  revert h
  cases areaRead (wTile wRead wBlocks wSum 2) wRead 0 0 with
  | error e => exact fun h => nomatch h
  | ok x => exact fun h => congrArg _ (beq_iff_eq.mp h)

theorem witness_TileForce_computed :
    let s := wTile wRead wBlocks wSum 2
    s.hart.Gives 4 2 ∧ Names s.hart 2 2 wSum ∧ wSum.made.getLsbD 0 = false ∧ wSum.alloc.isSome = true ∧
      (∃ v g, ElementIs s wSum 0 0 v g) ∧
      (∀ r ∈ passOn s.hart.hearth wSum { r0 := 0, c0 := 0, r1 := 0, c1 := 0 }, r.1 < wSum.nid ∧
        ∃ m l, s.hart.hearth.find r.1 = some (m, l) ∧ widen m r.2 &&& ~~~m.made = 0) ∧
      translate s s.hart.agent .write (areaAddr s.hart wSum 0 0) = .ok (wPlace 0x2040) := by
  refine ⟨.inr ⟨by decide, rfl, rfl, rfl⟩, namesOf rfl rfl (by decide) rfl (by decide +kernel), by decide +kernel, rfl,
    ⟨_, _, wRead, wRead, _, _, ⟨0, 0, rfl, rfl⟩, ⟨0, 0, rfl, rfl⟩, wHolds, wHolds, rfl⟩, ?_,
    okIs (by decide +kernel)⟩
  intro r hr
  have h : passOn (wTile wRead wBlocks wSum 2).hart.hearth wSum { r0 := 0, c0 := 0, r1 := 0, c1 := 0 } =
    [(0, rectCells { r0 := 0, c0 := 0, r1 := 0, c1 := 0 }), (0, rectCells { r0 := 0, c0 := 0, r1 := 0, c1 := 0 })] := by
    decide +kernel
  rw [h] at hr
  simp only [List.mem_cons, List.not_mem_nil, or_false, or_self] at hr
  subst hr
  exact ⟨by decide, wRead, 0, rfl, by decide +kernel⟩

theorem witness_TileStoreDropSync_store :
    let s := wTile wRead wRead wSum 0x2400
    let t := wTile wRead wBlocks wSum 0x2400
    s.hart.vq = [] ∧ s.hart.OutputsDone ∧ t.hart.Gives 0 0 ∧ (wTile wRead wBlocks wSum 0x4400).hart.Gives 4 0x4400 ∧ Names t.hart 0 0 wRead ∧
      bitsOf 0 63 32 = 0 ∧ (tileFmt wRead.ty).isSome = true ∧
      let u := wTile wRead { wRead with nid := 1 } { wRead with nid := 2 } 0x4400
      u.hart.NoLiveLeaf ∧ u.hart.hearth.tidy = u.hart.hearth ∧ u.hart.buffer.length < 8 ∧ Names u.hart 0 0 wRead ∧
        wRead.made.getLsbD 0 = true ∧ areaRead u wRead 0 0 = .ok 0 ∧
        ownPlace u u.hart.agent .write (0x4400 + BitVec.ofNat 64 ((0 * 1 + 0) * 4)) 4 =
          .ok { pa := 0x4400, leaf := { entry := 0x4687, log := 0, cached := true } } := by
  refine ⟨rfl, wDone, wGives0 _, .inr ⟨by decide, rfl, rfl, rfl⟩, namesOf rfl rfl (by decide) rfl (by decide +kernel), by decide, by decide,
    by unfold Hart.NoLiveLeaf; decide +kernel, by decide +kernel, by decide +kernel,
    namesOf rfl rfl (by decide) rfl (by decide +kernel), by decide +kernel, ?_, okIs (by decide +kernel)⟩
  have h : (match areaRead (wTile wRead { wRead with nid := 1 } { wRead with nid := 2 } 0x4400) wRead 0 0 with
      | .ok x => x == 0 | .error _ => false) = true := by decide +kernel
  revert h
  cases areaRead (wTile wRead { wRead with nid := 1 } { wRead with nid := 2 } 0x4400) wRead 0 0 with
  | error e => exact fun h => nomatch h
  | ok x => exact fun h => congrArg _ (beq_iff_eq.mp h)

/-- A block leaf of 1 × 2 elements, both in the area. -/
def wBlk : Node := { wRead with ty := 4, in0 := 0x3000 }

theorem witness_TileStoreDropSync_blocks :
    let v : Word := 0x1000000
    let u := (wTile wBlk { wRead with nid := 1 } { wRead with nid := 2 } v).onlyHart fun h => { h with sreg := h.sreg.set 5 0x4400 }
    u.hart.Gives 4 v ∧ u.hart.Gives 5 0x4400 ∧ Names u.hart 0 0 wBlk ∧ bitsOf v 63 32 = 0 ∧ (tileFmt wBlk.ty).isNone = true ∧
      tileType wBlk.ty.toNat = true ∧ u.hart.NoLiveLeaf ∧ u.hart.hearth.tidy = u.hart.hearth ∧ u.hart.buffer.length < 8 ∧
      (bitsOf v 15 8 + (bitsOf v 31 24 + 1) = wBlk.cols ∧ bitsOf v 7 0 + (bitsOf v 23 16 + 1) ≤ wBlk.rows) ∧
      (∀ j < 2, wBlk.made.getLsbD j = true) ∧ areaRead u wBlk 0 0 = .ok 0 ∧ areaRead u wBlk 0 1 = .ok 0 ∧
      ownPlace u u.hart.agent .write (0x4400 + BitVec.ofNat 64 ((0 * 1 + 0) * 64)) 64 =
        .ok { pa := 0x4400, leaf := { entry := 0x4687, log := 0, cached := true } } :=
  ⟨.inr ⟨by decide, rfl, rfl, rfl⟩, .inr ⟨by decide, rfl, rfl, rfl⟩, namesOf rfl rfl (by decide) rfl (by decide +kernel), by decide,
    rfl, by decide, by unfold Hart.NoLiveLeaf; decide +kernel, by decide +kernel, by decide +kernel, by decide,
    by decide +kernel, okIs (by decide +kernel), okIs (by decide +kernel), okIs (by decide +kernel)⟩

/-- Of the three nodes, the sum reaches itself and the leaf it reads. -/
theorem wReach (a b c : Node) (i0 : a.i0 = none) (i1 : a.i1 = none) (v : Word)
    (h : (wTile a b c v).hart.hearth.find 0 = some (a, 0)) (h2 : (wTile a b c v).hart.hearth.find 2 = some (c, 2))
    (l0 : c.i0 = some 0) (l1 : c.i1 = some 0) (x : Nat) : Reaches (wTile a b c v).hart.hearth 2 x ↔ x = 2 ∨ x = 0 := by
  constructor
  · intro r
    induction r with
    | self => exact .inl rfl
    | input y z n k _ f e ih =>
      rcases ih with rfl | rfl
      · rw [h2] at f
        cases f
        rw [l0, l1] at e
        rcases e with e | e <;> cases e <;> exact .inr rfl
      · rw [h] at f
        cases f
        rw [i0, i1] at e
        rcases e with e | e <;> cases e
  · rintro (rfl | rfl)
    · exact .self
    · exact .input 2 0 c 2 .self h2 (.inl l0)

theorem witness_TileStoreDropSync_pin :
    (let s := wTile wLeaf wBlocks wSum 0
     let l := [(wLeaf, 0)]
     Names s.hart 2 2 wSum ∧ l.Sublist s.hart.hearth.inSlots ∧
      (∀ p ∈ s.hart.hearth.inSlots, p ∈ l ↔ p.1.live = true ∧ Reaches s.hart.hearth wSum.nid p.1.nid) ∧
      (force s [] (l.map fun p => p.1.nid)).toBool = true) ∧
    (let s := wTile wLost wBlocks wSum 0
     let l := [(wLost, 0)]
     Names s.hart 2 2 wSum ∧ l.Sublist s.hart.hearth.inSlots ∧
      (∀ p ∈ s.hart.hearth.inSlots, p ∈ l ↔ p.1.live = true ∧ Reaches s.hart.hearth wSum.nid p.1.nid) ∧
      (force s [] (l.map fun p => p.1.nid)).toBool = false) ∧
    let s := wTile wRead wBlocks wSum 0
    Names s.hart 2 2 wSum ∧ ∀ p ∈ s.hart.hearth.inSlots, ¬(p.1.live = true ∧ Reaches s.hart.hearth wSum.nid p.1.nid) := by
  have slots (a b c : Node) : (wTile a b c 0).hart.hearth.inSlots = [(a, 0), (b, 1), (c, 2)] := rfl
  refine ⟨⟨wNames _ 2 (by decide), ?_, ?_, by decide +kernel⟩,
    ⟨namesOf rfl rfl (by decide) rfl (by decide +kernel), ?_, ?_, by decide +kernel⟩,
    namesOf rfl rfl (by decide) rfl (by decide +kernel), ?_⟩
  · rw [slots]; exact .cons_cons _ (List.nil_sublist _)
  · rw [slots]
    simp only [show wSum.nid = 2 from rfl, wReach wLeaf wBlocks wSum rfl rfl 0 rfl rfl rfl rfl]
    decide +kernel
  · rw [slots]; exact .cons_cons _ (List.nil_sublist _)
  · rw [slots]
    simp only [show wSum.nid = 2 from rfl, wReach wLost wBlocks wSum rfl rfl 0 rfl rfl rfl rfl]
    decide +kernel
  · rw [slots]
    simp only [show wSum.nid = 2 from rfl, wReach wRead wBlocks wSum rfl rfl 0 rfl rfl rfl rfl]
    decide +kernel

theorem witness_TileStoreDropSync_sync :
    let other : Node := { wRead with nid := 1 }
    (let s := wTile wLeaf other wSum 0
     Names s.hart 0 0 wLeaf ∧ (s.hart.hearth.slots[(2 : Fin 64)] = some wSum ∧ wSum.waits = true ∧ wSum.reads wLeaf.nid = true ∧
       s.hart.hearth.ghosts = []) ∧ ∀ j : Fin 64, (s.hart.hearth.slots[j].all fun m => m.state != .dropped) = true) ∧
    (let leaves := ((wTile wLeaf other wSum 0).hart.hearth.inSlots.filter fun p => p.1.live).map fun p => p.1.nid
     leaves ≠ [] ∧ (force (wTile wLeaf other wSum 0) [] leaves).toBool = true) ∧
    let leaves := ((wTile wLost other wSum 0).hart.hearth.inSlots.filter fun p => p.1.live).map fun p => p.1.nid
    leaves ≠ [] ∧ (force (wTile wLost other wSum 0) [] leaves).toBool = false :=
  ⟨⟨namesOf rfl rfl (by decide) rfl (by decide +kernel), ⟨rfl, by decide, by decide, rfl⟩, by decide +kernel⟩, by decide +kernel⟩

theorem witness_TileStoreDropSync_others :
    (let s := wTile wLeaf wBlocks wSum 7
     Names s.hart 0 0 wLeaf ∧ wLeaf.op = .leaf ∧ wLeaf.live = true ∧ wLeaf.i0 = none ∧ wLeaf.i1 = none ∧
      (forceCells s wLeaf.nid wLeaf.full).toBool = true ∧ s.hart.Gives 4 7 ∧ (7 : Word).toNat < 8 ∧ s.hart.Full 31 ∧
      s.hart.hearth.slots[(0 : Word).toNat]! = some wLeaf ∧ wLeaf.rows ≤ 256 ∧ wLeaf.cols ≤ 256 ∧ wLeaf.alloc.getD 0 < 2 ^ 16) ∧
    (let s := wTile wLeaf wBlocks wSum 63
     s.hart.Gives 4 63 ∧ (63 : Word).toNat < 64 ∧ s.hart.hearth.slots[(63 : Word).toNat]! = none) ∧
    (let s := wTile wLeaf wBlocks wRead 0
     s.hart.hearth.ghosts = [] ∧ wLeaf.reads wLeaf.nid = false ∧ ∀ j : Fin 64,
      (s.hart.hearth.slots[j].all fun m => m.state != .dropped && !(m.waits && m.reads wLeaf.nid)) = true) ∧
    (wTile wRead { wRead with nid := 1 } { wRead with nid := 2 } 0).hart.NoLiveLeaf :=
  ⟨⟨wNames _ 0 (by decide), rfl, by decide +kernel, rfl, rfl, by decide +kernel, .inr ⟨by decide, rfl, rfl, rfl⟩, by decide, rfl,
      by decide +kernel, by decide, by decide, by decide⟩,
    ⟨.inr ⟨by decide, rfl, rfl, rfl⟩, by decide, by decide +kernel⟩, ⟨rfl, by decide, by decide +kernel⟩,
    by unfold Hart.NoLiveLeaf; decide +kernel⟩

/-! ## Jobs and engines -/

/-- The die's tables map the first GiB to itself, readable and writable, for address space 0. -/
def wMapped : State := { wState with
  mem := Memory.writeAll wState.mem (placeBytes 0 (leBytes 8 0x8000000000010000) ++ placeBytes 0x10000 (leBytes 8 0x11001) ++
    placeBytes 0x11000 (leBytes 8 0x12001) ++ placeBytes 0x12000 (leBytes 8 0x7)) }
def wGib (a : Nat) : Place := { pa := a, leaf := { entry := 7, log := 18, cached := false } }

/-- A card of the hart that copies 64 bytes from 0x2000 to `dst`, with its footprints. -/
def wWords (w0 dst rd : Word) : List Word := [w0, 1, 0x2000, dst, 64, 0, 0, 0, rd, 64, dst, 64, 0, 0, 0, 0]
def wCard : Card where
  no := 0
  owner := 1
  ticket := 9
  job := 7
  asid := 0
  level := 3
  cell := 0
  addr := 0x6000
  words := wWords 0 0x2100 0x2000
  rd := [(0x2000, 64)]
  wr := [(0x2100, 64)]
  follow := []
  cmpl := none
  state := .queued

/-- The machine with a die's cards, and with a card's words at 0x6000. -/
def wCards (l : List Card) : State := wMapped.setDie 0 { wMapped.dieOf 0 with cards := l, nextCard := l.length }
def wSubmits (l : List Word) : State :=
  { wMapped with mem := Memory.writeAll wMapped.mem (placeBytes 0x6000 (l.flatMap fun w => leBytes 8 w.toNat))
                 hart := { wHart with sreg := wHart.sreg.set 4 0x6000 } }

theorem witness_JobInstructions_sub :
    (let s := wSubmits (wWords 0 0x2100 0x2000)
     s.hart.Gives 4 0x6000 ∧ s.hart.Full 31 ∧ s.hart.status = .running ∧ s.hart.NoVectorMemory ∧ (0x6000 : Word).toNat % 64 = 0 ∧
      translate s { s.hart.agent with cell := none } .read 0x6000 = .ok (wGib 0x6000) ∧
      translate s { s.hart.agent with cell := none } .read (0x6000 + 64) = .ok (wGib 0x6040) ∧
      HandlerReady s { cause := 0x50, sub := 0x01, addr := 0x6000 } ∧
      ∃ words, readCard s 0x6000 0x6040 = .ok words ∧ words = wWords 0 0x2100 0x2000 ∧ cardBad s s.hart words = false) ∧
    (256 ≤ (((wCards (List.replicate 256 wCard)).dieOf 0).cards.filter fun c => c.state != .done).length) ∧
    (64 ≤ (((wCards (List.replicate 64 { wCard with state := .done })).dieOf 0).cards.filter fun c =>
        c.owner == 1 && !c.retired).length ∧
      (((wCards (List.replicate 64 { wCard with state := .done })).dieOf 0).cards.filter fun c => c.state != .done).length < 256) ∧
    -- malformed; a footprint that does not translate; a replayable card whose regions meet; an accepted one
    cardBad wMapped wHart (List.replicate 16 0) = true ∧
    footprint wMapped { wHart.agent with cell := none } .read [] 0x40000000 64 = none ∧
    (footprint wMapped { wHart.agent with cell := none } .read [] 0x2000 64 = some [(0x2000, 64)] ∧
      footprint wMapped { wHart.agent with cell := none } .write [] 0x2020 64 = some [(0x2020, 64)] ∧
      cardBad wMapped wHart (wWords 0x0800000000000000 0x2020 0x2000) = false ∧ (0x0800000000000000 : Word).getLsbD 59 = true) ∧
    (footprint wMapped { wHart.agent with cell := none } .write [] 0x2100 64 = some [(0x2100, 64)] ∧
      followPlaces wMapped { wHart.agent with cell := none } wCard = some [] ∧ (∀ p ∈ wHart.hearth.inSlots, p.1.live = false) ∧ bitsOf 0 63 60 ≠ 2) := by
  have h : (match readCard (wSubmits (wWords 0 0x2100 0x2000)) 0x6000 0x6040 with
      | .ok words => decide (words = wWords 0 0x2100 0x2000)
      | .error _ => false) = true := by decide +kernel
  refine ⟨⟨.inr ⟨by decide, rfl, rfl, rfl⟩, rfl, rfl, wQuiet _ rfl, by decide, okIs (by decide +kernel), okIs (by decide +kernel),
    readyOf rfl (by decide +kernel) _, ?_⟩, by decide +kernel⟩
  refine ⟨wWords 0 0x2100 0x2000, ?_, rfl, by decide +kernel⟩
  revert h
  cases readCard (wSubmits (wWords 0 0x2100 0x2000)) 0x6000 0x6040 with
  | error e => exact fun h => nomatch h
  | ok l => exact fun h => congrArg _ (of_decide_eq_true h)

/-- Tickets of done, failed and waiting cards, and of none. -/
theorem witness_JobInstructions_wait :
    (wState.hart.Gives 0 0 ∧ wState.hart.status = .running ∧ wState.hart.cancel = false ∧ wState.hart.mark = .none ∧
      wState.hart.reads < 8 ∧ (wState.dieOf 0).cards = []) ∧
    (let c := { wCard with state := .done, cause := 0x51 }
     let s := wCards [c]
     (∀ y ∈ (s.dieOf 0).cards, ¬(y.retired = true ∧ y.state = .done)) ∧ c ∈ (s.dieOf 0).cards ∧ c.owner = s.hart.hid ∧
      c.retired = false ∧ c.cause ≠ 0 ∧ c.cause ≠ 0x70 ∧
      let r := changedCards s s.hart.die fun y => { y with retired := true }
      HandlerReady r { cause := c.cause, sub := c.sub, addr := c.addr }) ∧
    (let s := wCards [wCard]
     wCard ∈ (s.dieOf 0).cards ∧ wCard.owner = s.hart.hid ∧ wCard.state ≠ .done ∧
      ((s.dieOf 0).cards.map (·.no)).Nodup ∧ ∀ y ∈ (s.dieOf 0).cards, ¬(y.retired = true ∧ y.state = .done)) :=
  ⟨⟨wGives0 _, rfl, rfl, rfl, by decide, by decide +kernel⟩,
    ⟨by decide +kernel, by decide +kernel, by decide +kernel, rfl, by decide, by decide, readyOf rfl (by decide +kernel) _⟩,
    by decide +kernel⟩

theorem witness_EngineCards_access :
    (let g := wCard.agent 0
     (0x2FC0 : Word).toNat % 4096 + 64 ≤ 4096 ∧ (List.replicate 64 (1 : Byte)).length = 64 ∧
      translate wMapped g .read 0x2FC0 = .ok (wGib 0x2FC0) ∧ translate wMapped g .write 0x2FC0 = .ok (wGib 0x2FC0) ∧
      inside [(0x2F00, 256)] 0x2FC0 64 = true ∧ inside [(0x2F00, 255)] 0x2FC0 64 = false ∧
      readFault wMapped 0x2FC0 64 = none ∧ readFault { wMapped with uncorrectable := [0x2FFF] } 0x2FC0 64 = some 0x61 ∧
      translate wMapped g .read 0x40000000 = .error 0x10 ∧ translate wMapped g .write 0x40000000 = .error 0x10) :=
  ⟨by decide, by decide, okIs (by decide +kernel), okIs (by decide +kernel), by decide +kernel, by decide +kernel,
    by decide +kernel, by decide +kernel, errOf (by decide +kernel), errOf (by decide +kernel)⟩

/-- A card found on its die in a state. -/
theorem wCardOn (c : Card) (hc : c.cancelled = false) : CardOn (wCards [c]) 0 c c.state := by
  refine ⟨?_, rfl, hc⟩
  change ([c].find? fun y => y.no == c.no) = some c
  simp only [List.find?, BEq.rfl]

theorem witness_EngineCards_start :
    -- a copy, one with TMV, a codec, a gather of one row; one broken, one whose source is outside its footprints
    (CardOn (wCards [wCard]) 0 wCard .queued ∧ wCard.deps = [] ∧ wCard.broken = false ∧ bitsOf (wCard.w 0) 63 60 = 0 ∧
      (wCard.w 4).getLsbD 54 = false ∧
      (engineRead (wCards [wCard]) (wCard.agent 0) (wCard.rd ++ wCard.wr) (wCard.w 2) (bitsOf (wCard.w 4) 39 0)).toBool = true) ∧
    (let c := { wCard with rd := [] }
     CardOn (wCards [c]) 0 c .queued ∧
      (engineRead (wCards [c]) (c.agent 0) (c.rd ++ c.wr) (c.w 2) (bitsOf (c.w 4) 39 0)).toBool = false) ∧
    (let c := { wCard with broken := true }
     CardOn (wCards [c]) 0 c .queued ∧ c.deps = [] ∧ c.broken = true) ∧
    (let c := { wCard with words := [0, 1, 0, 0, 0x40000000000004] }
     CardOn (wCards [c]) 0 c .queued ∧ bitsOf (c.w 0) 63 60 = 0 ∧ (c.w 4).getLsbD 54 = true) ∧
    (let c := { wCard with words := [0x3000000000000000] }
     CardOn (wCards [c]) 0 c .queued ∧ bitsOf (c.w 0) 63 60 = 3) ∧
    let c := { wCard with words := [0x1000000000000000, 1, 0x2000, 0x2100, 0x40000000000001, 0x2020] }
    CardOn (wCards [c]) 0 c .queued ∧ bitsOf (c.w 0) 63 60 = 1 ∧ bitsOf (c.w 4) 39 0 = 1 ∧ bitsOf (c.w 4) 63 52 = 4 ∧
      ∃ ix, engineRead (wCards [c]) (c.agent 0) (c.rd ++ c.wr) (c.w 2) 4 = .ok ix ∧ ix = [0, 0, 0, 0] ∧
        (engineRead (wCards [c]) (c.agent 0) c.rd (c.w 5 + BitVec.ofNat 64 (leNat ix * 4)) 4).toBool = true := by
  refine ⟨⟨wCardOn _ rfl, rfl, rfl, by decide, by decide, by decide +kernel⟩, ⟨wCardOn _ rfl, by decide +kernel⟩,
    ⟨wCardOn _ rfl, rfl, rfl⟩, ⟨wCardOn _ rfl, by decide, by decide⟩, ⟨wCardOn _ rfl, by decide⟩,
    wCardOn _ rfl, by decide, by decide, by decide, [0, 0, 0, 0], ?_, rfl, by decide +kernel⟩
  let c := { wCard with words := [0x1000000000000000, 1, 0x2000, 0x2100, 0x40000000000001, 0x2020] }
  have h : (match engineRead (wCards [c]) (c.agent 0) (c.rd ++ c.wr) (c.w 2) 4 with
      | .ok l => decide (l = [0, 0, 0, 0])
      | .error _ => false) = true := by decide +kernel
  revert h
  change (match engineRead (wCards [c]) (c.agent 0) (c.rd ++ c.wr) (c.w 2) 4 with
      | .ok l => decide (l = [0, 0, 0, 0])
      | .error _ => false) = true → engineRead (wCards [c]) (c.agent 0) (c.rd ++ c.wr) (c.w 2) 4 = .ok [0, 0, 0, 0]
  cases engineRead (wCards [c]) (c.agent 0) (c.rd ++ c.wr) (c.w 2) 4 with
  | error e => exact fun h => nomatch h
  | ok l => exact fun h => congrArg _ (of_decide_eq_true h)

theorem witness_EngineCards_deliver :
    (let c := { wCard with state := .running, data := List.replicate 64 1 }
     CardOn (wCards [c]) 0 c .running ∧ mcastCells c.words = [] ∧ (c.w 4).getLsbD 54 = false ∧ c.delivered = [] ∧
      (engineWrite (wCards [c]) (c.agent 0) c.wr (c.w 3) c.data).toBool = true) ∧
    (let c := { wCard with state := .running, data := List.replicate 64 1, wr := [] }
     CardOn (wCards [c]) 0 c .running ∧ (engineWrite (wCards [c]) (c.agent 0) c.wr (c.w 3) c.data).toBool = false) ∧
    (let c := { wCard with state := .running, data := [1, 2], words := [0, 1, 0x2000, 0x80, 2, 3], delivered := [0], wr := [(0x40000400080, 2)] }
     CardOn (wCards [c]) 0 c .running ∧ mcastCells c.words = [0, 1] ∧ 1 ∈ mcastCells c.words ∧ 1 ∉ c.delivered ∧
      (∀ j ∈ mcastCells c.words, j < 1 → j ∈ c.delivered) ∧
      inside c.wr (0x40000000000 + (0 : DieNo).val * 0x10000000 + 1 % 48 * 0x400000 + (c.w 3).toNat) c.data.length = true) ∧
    let c := { wCard with state := .running, words := [0x3000000000000000] }
    CardOn (wCards [c]) 0 c .running ∧ bitsOf (c.w 0) 63 60 = 3 ∧ c.delivered = [] :=
  ⟨⟨wCardOn _ rfl, by decide +kernel, by decide, rfl, by decide +kernel⟩, ⟨wCardOn _ rfl, by decide +kernel⟩,
    ⟨wCardOn _ rfl, by decide +kernel, by decide +kernel, by decide, by decide +kernel, by decide +kernel⟩,
    wCardOn _ rfl, by decide, rfl⟩

theorem witness_EngineCards_end :
    let done : Card := { wCard with state := .worked }
    let on (c : Card) : Prop := (wCards [c]).card 0 c.no = some c
    (on { done with cause := 0x51 } ∧ on { done with cancelled := true } ∧ on done ∧ on { wCard with state := .running }) ∧
    (∃ j, (wCards [done]).findJob done.job = some j ∧ j.draining = false) ∧
    -- a publish forward, one that goes back, a follow-on, a watchdog expiry of a card that may be replayed
    (let c := { done with words := [0x0200000000000000, 1, 0, 0, 0, 0, 5] }
     on c ∧ c.publishes = true ∧ c.replayed = false ∧ c.follows = false ∧
      ¬(((wCards [c]).dieOf 0).db[c.drawbar].seq = (c.w 6).extractLsb' 48 16 ∧
        (c.w 6).truncate 48 < ((wCards [c]).dieOf 0).db[c.drawbar].hw) ∧
      let s := (wCards [c]).setDie 0 { (wCards [c]).dieOf 0 with db := ((wCards [c]).dieOf 0).db.set 0 { hw := 6 } }
      s.card 0 c.no = some c ∧ (s.dieOf 0).db[c.drawbar].seq = (c.w 6).extractLsb' 48 16 ∧
        (c.w 6).truncate 48 < (s.dieOf 0).db[c.drawbar].hw) ∧
    (let c := { done with words := [0x0400000000000000] }
     on c ∧ c.follows = true ∧ c.publishes = false ∧ ((wCards [c]).cellOf 0 c.followCell).anvil.length < 16) ∧
    (let c := { wCard with state := .running, words := [0x0800000000000000] }
     on c ∧ (c.w 0).getLsbD 59 = true ∧ c.replayed = false ∧ bitsOf (c.w 0) 63 60 ≠ 2 ∧ c.group = none) :=
  ⟨⟨by decide +kernel, by decide +kernel, by decide +kernel, by decide +kernel⟩, ⟨wJob, rfl, rfl⟩,
    ⟨by decide +kernel, by decide, rfl, by decide, by decide +kernel, by decide +kernel, by decide +kernel, by decide +kernel⟩,
    ⟨by decide +kernel, by decide, by decide, by decide +kernel⟩, by decide +kernel, by decide, rfl, by decide, rfl⟩

/-- A picture descriptor of 16 × 16 n8 samples with its context at 0x2400, of 64 MiB; the head of the context is zero. -/
def wPicture (first : Word) : List Byte := [0x0000000800100010, 0x10000, 0x20000, 0x1000000010, 0x2400, 0x4000000, first, 0].flatMap
  fun w : Word => leBytes 8 w.toNat
/-- A card of a codec over such a descriptor at 0x3000. -/
def wCodec (rd : List (Nat × Nat)) (w4 : Word) : Card :=
  { wCard with words := [0x3000000000000000, 1, 0x2000, 0x3000, w4], rd := rd, wr := [] }
def wDecodes (c : Card) (desc : List Byte) : State :=
  { wCards [c] with mem := Memory.writeAll wMapped.mem (placeBytes 0x3000 desc) }

def wBlank : List Byte := List.replicate 64 0
def gives (x : Except Refused (List Byte)) (l : List Byte) : Bool := match x with
  | .ok y => decide (y = l)
  | .error _ => false

/-- A descriptor that cannot be read; one beyond R397, with a context that can be spoilt and one that cannot. -/
theorem witness_EngineCards_refusedCodec :
    (let c := wCodec [] 8
     CardOn (wCards [c]) 0 c .queued ∧ c.deps = [] ∧ c.broken = false ∧ c.group = none ∧ bitsOf (c.w 0) 63 60 = 3 ∧
      (engineRead (wCards [c]) (c.agent 0) (c.rd ++ c.wr) (c.w 3) 64).toBool = false) ∧
    let c := wCodec [(0x3000, 64)] 8
    gives (engineRead (wCards [c]) (c.agent 0) (c.rd ++ c.wr) (c.w 3) 64) wBlank = true ∧ pictureBad wBlank = true ∧
      (engineWrite (wCards [c]) (c.agent 0) c.wr (pictureW wBlank 4) (List.replicate 8 0)).toBool = false ∧
      (engineWrite (wCards [c]) (c.agent 0) [(0, 8)] (pictureW wBlank 4) (List.replicate 8 0)).toBool = true :=
  ⟨⟨wCardOn _ rfl, rfl, rfl, rfl, by decide, by decide +kernel⟩, by decide +kernel⟩

/-- A context that is not valid, and one that is to be taken as it is. -/
theorem witness_EngineCards_codec :
    let c := wCodec [(0x3000, 64), (0x2400, 8)] 8
    (pictureBad (wPicture 0) = false ∧ pictureBad (wPicture 1) = false) ∧
    (gives (engineRead (wDecodes c (wPicture 0)) (c.agent 0) (c.rd ++ c.wr) (c.w 3) 64) (wPicture 0) = true ∧
      gives (engineRead (wDecodes c (wPicture 1)) (c.agent 0) (c.rd ++ c.wr) (c.w 3) 64) (wPicture 1) = true) ∧
    gives (engineRead (wDecodes c (wPicture 0)) (c.agent 0) (c.rd ++ c.wr) 0x2400 8) (List.replicate 8 0) = true ∧
    pictureW (wPicture 0) 4 = 0x2400 ∧ pictureW (wPicture 0) 6 = 0 ∧ pictureW (wPicture 1) 6 = 1 := by decide +kernel

/-- A decoding or an encoding card at work. -/
theorem witness_EngineCards_coding (w4 : Word) :
    let c := { wCodec [] w4 with state := .running, data := wPicture 1 }
    CardOn (wCards [c]) 0 c .running ∧ bitsOf (c.w 0) 63 60 = 3 ∧ c.delivered = [] :=
  ⟨wCardOn _ rfl, (by decide : bitsOf 0x3000000000000000 63 60 = 3), rfl⟩

/-- A deposit of one value of contributor 0 into an open slot of the card's job; its source aligned and not, readable and
not; and one into a slot that is idle. -/
theorem witness_EngineCards_deposit :
    let c (src : Word) (rd : List (Nat × Nat)) : Card :=
      { wCard with state := .running, words := [0, 1, src, 1, 0x40000000000004], rd := rd }
    let s (c : Card) : State :=
      (wCards [c]).setDie 0 { (wCards [c]).dieOf 0 with
        slots := ((wCards [c]).dieOf 0).slots.set 0 { state := .opened, job := 7, ncon := 2, nelem := 2 } }
    (∀ y ∈ [c 0x2001 [], c 0x2000 [(0x2000, 4)], c 0x2000 []],
      (s y).card 0 0 = some y ∧ y.no = 0 ∧ y.state = .running ∧ y.cancelled = false ∧ mcastCells y.words = [] ∧
      (y.w 4).getLsbD 54 = true ∧ y.delivered = [] ∧ ((s y).dieOf 0).slots[(0 : Fin 16)].checkPut y.job (y.w 3) = none ∧
      ((wCards [y]).dieOf 0).slots[(0 : Fin 16)].checkPut y.job (y.w 3) ≠ none) ∧
    (0x2001 : Word).toNat % 4 ≠ 0 ∧
    (engineRead (s (c 0x2000 [(0x2000, 4)])) ((c 0x2000 [(0x2000, 4)]).agent 0) [(0x2000, 4)] 0x2000 4).toBool = true ∧
    (engineRead (s (c 0x2000 [])) ((c 0x2000 []).agent 0) [] 0x2000 4).toBool = false := by decide +kernel

/-- A member of a collective with a staging at 0x2200 and a descriptor at 0x2300. -/
def wGroup : Group where
  tag := { gtag := 3, rev := 1, att := 2 }
  rank := 0
  nmem := 2
  staging := 0x2200
  putw := 0
  members := []
def wMember : Card := { wCard with
  state := .running, group := some wGroup, words := [0x2000000000000000, 1, 0x2000, 0x2100, 64, 0x2300]
  rd := [(0x2000, 64)], wr := [(0x2000, 4096)] }

/-- Its descriptor in memory: two members, of which this is the first. -/
def wDescriptor : List Byte := [0x30000000002, 0x200000001, 0x2200, 0, 0, 0x100000].flatMap fun w : Word => leBytes 8 w.toNat

theorem witness_JobInstructions_group :
    let s := { wCards [] with mem := Memory.writeAll wMapped.mem (placeBytes 0x2300 wDescriptor) }
    let words := wMember.words ++ [0, 0, 0x2000, 64, 0x2000, 4096, 0, 0, 0, 0]
    cardBad s wHart words = false ∧ bitsOf (words.getD 0 0) 63 60 = 2 ∧
      (readGroup s 0 wMember).toBool = true ∧ (readGroup { s with mem := wMapped.mem } 0 wMember).toBool = false := by
  decide +kernel

theorem witness_EngineCards_member :
    (let c := { wMember with state := .queued }
     CardOn (wCards [c]) 0 c .queued ∧ c.deps = [] ∧ c.broken = false ∧ c.group = some wGroup ∧
      (startCollective (wCards [c]) 0 c wGroup).toBool = true ∧ bitsOf (c.w 4) 63 60 = 0 ∧ (c.w 4).getLsbD 55 = false ∧
      (engineRead (wCards [c]) (c.agent 0) (c.rd ++ c.wr) (c.w 2 + BitVec.ofNat 64 (wGroup.chunkStart c wGroup.before))
        (wGroup.chunkBytes c wGroup.before)).toBool = true) ∧
    (let c := { wMember with state := .queued, rd := [], wr := [] }
     CardOn (wCards [c]) 0 c .queued ∧ (startCollective (wCards [c]) 0 c wGroup).toBool = false) ∧
    (wCards [wMember]).card 0 wMember.no = some wMember ∧ wMember.state = .running ∧ (wMember.w 0).getLsbD 59 = false ∧
      wMember.group.isSome = true :=
  ⟨⟨wCardOn _ rfl, rfl, rfl, rfl, by decide +kernel⟩, ⟨wCardOn _ rfl, by decide +kernel⟩, by decide +kernel⟩

/-! ## Members of a collective -/

/-- The machine with a card and a message on its way to a member of die 0. -/
def wSent (c : Card) (rank : Nat) (m : MemberMsg) : State :=
  { wCards [c] with transit := [{ die := 0, rank := rank, msg := m }] }

theorem wReceives (c : Card) (q : Group) (m : MemberMsg) (h : m.tag.gtag = q.tag.gtag) :
    Receives (wSent c q.rank m) 0 q m (wCards [c]) := by
  refine .inl ⟨{ die := 0, rank := q.rank, msg := m }, ?_, rfl, ?_⟩
  · simp [State.nextFor, wSent, h]
  · simp [wSent]
    rfl

def wOther : HopTag := { wGroup.tag with rev := 7 }

/-- Rows written and not; no member; a member with its data phase behind it. -/
theorem witness_CodecRowsAndCollectives_cards :
    (let c := { wCard with state := .running, words := [0x3200000000000000], rows := 4, published := 2 }
     (wCards [c]).card 0 c.no = some c ∧ c.cancelled = false ∧ c.kind = 3 ∧ (c.w 4).getLsbD 61 = false ∧ c.publishes = true ∧
      c.cause = 0 ∧ c.published < c.rows ∧ c.replayed = false ∧ ¬{ c with published := 4 }.published < c.rows) ∧
    (let c := { wMember with state := .worked }
     (wCards [c]).card 0 c.no = some c ∧ c.cancelled = false ∧ c.group = some wGroup ∧ c.state ≠ .running) ∧
    (let word := leBytes 4 wGroup.tag.rev.toNat ++ leBytes 4 (wGroup.tag.att + 1).toNat
     let aborts (c : Card) := (wCards [c]).sendAll 0 wGroup ((wGroup.neighbours c).map fun n => (n, .abort wGroup.tag))
     (engineWrite (aborts wMember) (wMember.agent 0) wMember.wr (wMember.w 5 + 8) word).toBool = true ∧
      (engineWrite (aborts { wMember with wr := [] }) (wMember.agent 0) [] (wMember.w 5 + 8) word).toBool = false) := by
  decide +kernel

/-- Hops that come from this module and from another, of the member's tag and of another; and none. -/
theorem witness_CodecRowsAndCollectives_hops :
    (∀ (hop : Hop) (s1 : State), ¬Receives (wCards [wMember]) 0 wGroup (.hop hop) s1) ∧
    (∀ hop : Hop, hop.tag.gtag = wGroup.tag.gtag → Receives (wSent wMember 0 (.hop hop)) 0 wGroup (.hop hop) (wCards [wMember])) ∧
    (let hop : Hop := { tag := wGroup.tag, kind := .piece, offset := 60, bytes := [1, 2, 3, 4] }
     let f := memberFlit 0 0 1 wGroup.tag 0x04030201
     let s := (wCards [wMember]).setDie 0 { (wCards [wMember]).dieOf 0 with inbox := [] ++ f :: [] }
     ∃ s1, Receives s 0 wGroup (.hop hop) s1) ∧
    wOther.gtag = wGroup.tag.gtag ∧ wOther ≠ wGroup.tag := by
  refine ⟨?_, fun hop h => wReceives wMember wGroup (.hop hop) h, ⟨_, .inr ⟨?_, rfl, [], _, [], rfl, ?_, by decide +kernel, rfl⟩⟩,
    by decide⟩
  · rintro hop s1 (⟨t, h, -⟩ | ⟨-, -, l, f, r, h, -⟩)
    · cases h
    · have : ((wCards [wMember]).dieOf 0).inbox = [] := rfl
      rw [this] at h
      cases l <;> cases h
  · intro t h
    cases h
  · exact fun _ h => nomatch h

/-- A piece that is kept and one that its card cannot write; a partial sum of the ring; the sums of two children. -/
theorem witness_CodecRowsAndCollectives_data :
    (let hop : Hop := { tag := wGroup.tag, kind := .piece, offset := 60, bytes := [1, 2, 3, 4] }
     wMember.op ≠ 1 ∧ hop.bytes.length ≤ 48 ∧ hop.offset + hop.bytes.length ≤ wMember.bytes ∧
      (engineWrite (wCards [wMember]) (wMember.agent 0) wMember.wr (wGroup.staging + 60) hop.bytes).toBool = true ∧
      (engineWrite (wCards [wMember]) (wMember.agent 0) [] (wGroup.staging + 60) hop.bytes).toBool = false) ∧
    (let hop : Hop := { tag := wGroup.tag, kind := .ringSum, offset := 4, bytes := [0, 0, 0x80, 0x3F] }
     wMember.op = 0 ∧ bitsOf (wMember.w 4) 59 56 = 0 ∧ wMember.tree = false ∧ hop.offset % 4 = 0 ∧ hop.bytes.length % 4 = 0 ∧
      (match engineRead (wCards [wMember]) (wMember.agent 0) (wMember.rd ++ wMember.wr) (wMember.w 2 + 4) 4 with
        | .error _ => false
        | .ok own => (engineWrite (wCards [wMember]) (wMember.agent 0) wMember.wr (wGroup.staging + 4)
            (sums32 hop.bytes own)).toBool) = true) ∧
    (let c := { wMember with words := [0x2000000000000000, 1, 0x2000, 0x2100, 0x80000000000040, 0x2300] }
     let q : Group := { wGroup with rank := 1, nmem := 5, sums := [(false, 4, [0, 0, 0, 0x40])] }
     c.op = 0 ∧ c.tree = true ∧ q.left = true ∧ q.right = true ∧ q.rank ≠ 0 ∧ ({ q with sums := [] } : Group).sums = [] ∧
      (match engineRead (wCards [c]) (c.agent 0) (c.rd ++ c.wr) (c.w 2 + 4) 4 with
        | .error _ => false
        | .ok own => (engineWrite (wCards [c]) (c.agent 0) c.wr (q.staging + 4)
            (sums32 (sums32 own [0, 0, 0x80, 0x3F]) [0, 0, 0, 0x40])).toBool) = true) := by decide +kernel

/-- A run of a broadcast comes up the tree to a member with one child and to one with two. -/
theorem witness_CodecRowsAndCollectives_echo :
    let hop : Hop := { tag := wGroup.tag, kind := .leftSum, offset := 4, bytes := [1, 2, 3, 4] }
    ∀ n ∈ [2, 3],
      let q := { wGroup with nmem := n }
      let c := { wMember with group := some q, words := [0x2000000000000000, 1, 0x2000, 0x2100, 0x3080000000000040, 0x2300] }
      c.op = 3 ∧ c.tree = true ∧ hop.offset % c.elemBytes = 0 ∧ hop.bytes.length % c.elemBytes = 0 ∧
        hop.offset + hop.bytes.length ≤ c.bytes ∧ q.left = true ∧ q.sums = [] ∧ q.right = decide (n = 3) := by decide +kernel

/-- The commit: made by rank 0 with every hop received and not before, received by rank 1; an abort. -/
theorem witness_CodecRowsAndCollectives_commit :
    (let q := { wGroup with received := 64 }
     q.rank = 0 ∧ q.received = q.expected wMember ∧ wGroup.received ≠ wGroup.expected wMember ∧ (wMember.w 4).getLsbD 54 = false ∧
      (match engineRead (wCards [wMember]) (wMember.agent 0) (wMember.rd ++ wMember.wr) q.staging (wMember.outputBytes q.nmem) with
        | .error _ => false
        | .ok l => match engineWrite (wCards [wMember]) (wMember.agent 0) wMember.wr (wMember.w 3) l with
          | .error _ => false
          | .ok s2 => (engineWrite s2 (wMember.agent 0) wMember.wr (wMember.w 5 + 8)
              (leBytes 4 (q.tag.rev + 1).toNat ++ leBytes 4 q.tag.att.toNat)).toBool) = true) ∧
    (let q := { wGroup with rank := 1 }
     let c := { wMember with group := some q }
     q.rank ≠ 0 ∧ ∀ tag ∈ [wGroup.tag, wOther], Receives (wSent c 1 (.commit tag)) 0 q (.commit tag) (wCards [c])) ∧
    ∀ tag ∈ [wGroup.tag, wOther], Receives (wSent wMember 0 (.abort tag)) 0 wGroup (.abort tag) (wCards [wMember]) := by
  have same : ∀ tag ∈ [wGroup.tag, wOther], tag.gtag = wGroup.tag.gtag := by decide
  exact ⟨by decide +kernel, ⟨by decide, fun tag h => wReceives { wMember with group := some { wGroup with rank := 1 } } { wGroup with rank := 1 } (.commit tag) (same tag h)⟩,
    fun tag h => wReceives wMember wGroup (.abort tag) (same tag h)⟩

/-- A message to a member of this node; an element of the second chunk. -/
theorem witness_CodecRowsAndCollectives_parts :
    ((wGroup.members.getD 1 0 : Word).truncate 19 = (wCards []).record.nodeid) ∧ 0 < wGroup.nmem ∧
      wMember.bytes % wMember.elemBytes = 0 ∧ 8 < wMember.bytes / wMember.elemBytes ∧
      8 * wGroup.nmem / (wMember.bytes / wMember.elemBytes) = 1 := by decide +kernel

/-! ## The temper unit -/

/-- A descriptor of three elements and two contributors at 0x2040, TOTAL at 0x2100 and STAGE at 0x2200. -/
def wMerge : State :=
  { wState with mem := wState.mem ++ [(0x2042, 2), (0x2044, 7), (0x204A, 0x80), (0x204B, 0x3F), (0x2050, 3), (0x2059, 0x21), (0x2061, 0x22)] }

theorem witness_MergeSlots_open :
    (match loadValue wMerge 0x2040 64 with
      | .error _ => false
      | .ok p =>
        let w := blockWord (BitVec.ofNat 512 p.1)
        let found (v : Word) : Bool := match translate p.2 wMerge.hart.agent .both v with
          | .ok q => q.pa == v.toNat && regionOf p.2 (leafAddr q.leaf v) == .near 0 && !regionFar (.near 0)
          | .error _ => false
        bitsOf (w 0) 31 24 == 0 && bitsOf (w 0) 15 1 == 0 && bitsOf (w 1) 63 32 == 0 && bitsOf (w 2) 63 21 == 0 &&
          w 5 == 0 && w 6 == 0 && w 7 == 0 && bitsOf (w 0) 23 16 == 2 && bitsOf (w 2) 20 0 == 3 &&
          unpack fmtF32 (bitsOf (w 1) 31 0) == .fin false 0x800000 (-23) && w 3 == 0x2100 && w 4 == 0x2200 &&
          found 0x2100 && found 0x2200 && p.2.mergeSlot 0 0 == {} && p.2.hart == wMerge.hart) = true ∧
      pagesOf 0x2100 12 = [(0x2100, 12)] ∧ pagesOf 0x2200 128 = [(0x2200, 128)] :=
  ⟨by decide +kernel, by decide +kernel, by decide +kernel⟩

/-- An open slot of the hart's job: two contributors of three elements, staged at 0x2200 and 0x2240. -/
def wSlot : MergeSlot where
  state := .opened
  round := 7
  ncon := 2
  nelem := 3
  limit := 0x3F800000
  total := 0x2100
  stage := 0x2200
  totalMap := [(2, 0x2000)]
  stageMap := [(2, 0x2000)]
  job := 7
def wSlots (m : MergeSlot) : State := wState.setDie 0 { wState.dieOf 0 with slots := (wState.dieOf 0).slots.set 0 m }
def wFull (c : Contributor) : MergeSlot := { wSlot with contributors := wSlot.contributors.set 0 c }

theorem witness_MergeSlots_put :
    let y : Word := 0x0000000100000002
    let m := ((wSlots wSlot).dieOf (wSlots wSlot).hart.die).slots[(0 : Fin 16)]
    m.state = .opened ∧ m.closing = false ∧ m.job = (wSlots wSlot).hart.job ∧ (wSlots wSlot).hart.NoVectorMemory ∧
      bitsOf y 63 62 = 0 ∧ bitsOf y 55 53 = 0 ∧ bitsOf y 31 21 = 0 ∧ bitsOf y 61 56 < m.ncon ∧ 0 < bitsOf y 20 0 ∧
      bitsOf y 52 32 + bitsOf y 20 0 ≤ m.nelem ∧ (m.con 0).marked = false ∧ (m.con 0).dcnt + bitsOf y 20 0 ≤ m.nelem ∧
      (0x2010 : Word).toNat % 4 = 0 ∧ ∀ i < 2,
        (match ownPlace (wSlots wSlot) (wSlots wSlot).hart.agent .read (0x2010 + BitVec.ofNat 64 (4 * i)) 4 with
          | .ok p => p.pa == 0x2010 + 4 * i
          | .error _ => false) = true ∧
        meetsBuffer (wSlots wSlot).hart.buffer (0x2010 + 4 * i) 4 = false ∧ readFault (wSlots wSlot) (0x2010 + 4 * i) 4 = none :=
  ⟨by decide +kernel, by decide +kernel, by decide +kernel, wQuiet _ rfl, by decide, by decide, by decide, by decide +kernel, by decide,
    by decide +kernel, by decide +kernel, by decide +kernel, by decide, by decide +kernel⟩

/-- Contributor 0 has staged all, one with a NaN; then the slot awaits contributor 1, or is closing. -/
theorem witness_MergeSlots_mark :
    (∀ b : Bool, let m := wFull { dcnt := 3, bad := b }
      let x : Word := 7
      bitsOf x 63 62 = 0 ∧ bitsOf x 55 32 = 0 ∧ bitsOf x 61 56 < m.ncon ∧ m.ncon ≤ 64 ∧ bitsOf x 31 0 = m.round.toNat ∧
        (m.con 0).marked = false ∧ m.nelem ≤ (m.con 0).dcnt ∧ m.next ≤ m.ncon ∧ m.arrival = false ∧
        { m with arrival := true }.arrival = true) ∧
    (∃ m2, HandedOver (wFull { dcnt := 3, marked := true }) m2 ∧ m2.pending = [0] ∧ m2.next = 1) ∧
    (∃ m2, HandedOver { wFull { dcnt := 3, marked := true } with closing := true } m2 ∧ m2.pending = [0] ∧ m2.next = 2) ∧
    (∃ m2, HandedOver { wSlot with closing := true } m2 ∧ m2.pending = []) ∧
    (wSlots wSlot).hart.status = .running ∧ (wSlots wSlot).hart.cancel = false ∧ (wSlots wSlot).hart.mark = .none := by
  refine ⟨by decide +kernel,
    ⟨{ wFull { dcnt := 3, marked := true } with next := 1, pending := [0] }, ⟨by decide, by decide, ?_, by decide +kernel, by decide +kernel⟩, rfl, rfl⟩,
    ⟨{ wFull { dcnt := 3, marked := true } with closing := true, next := 2, pending := [0] },
      ⟨by decide, by decide, fun _ _ _ => .inr rfl, fun h => absurd h (by decide), by decide +kernel⟩, rfl, rfl⟩,
    ⟨{ wSlot with closing := true, next := 2 }, ⟨by decide, by decide, fun _ _ _ => .inr rfl, fun h => absurd h (by decide), by decide +kernel⟩, rfl⟩,
    rfl, rfl, rfl⟩
  intro i _ h
  have e : i = 0 := Nat.lt_one_iff.mp h
  subst e
  exact .inl (by decide +kernel)

theorem witness_MergeSlots_turned :
    (let s := (wSlots { wSlot with state := .committed, opens := 1, commits := 1 }).onlyHart fun h => { h with mark := .committed 0 1 }
     let m := (s.dieOf s.hart.die).slots[(0 : Fin 16)]
     s.hart.mark = .committed 0 1 ∧ s.hart.status = .running ∧ 1 ≤ m.commits ∧ ¬(m.state = .opened ∧ m.opens = 1)) ∧
    (let s := (wSlots { wSlot with opens := 1 }).onlyHart fun h => { h with mark := .committed 0 1, status := .waiting }
     s.hart.mark = .committed 0 1 ∧ s.hart.status = .waiting ∧ s.hart.cancel = false ∧
       ¬1 ≤ ((s.dieOf s.hart.die).slots[(0 : Fin 16)]).commits) ∧
    (∀ y : Word, y = 0 ∨ y = 1 ∨ y = 2 ∨ y = 3 → y.toNat < 4) ∧ (wSlots wSlot).hart.Full 31 ∧
    (∀ t, HandlerReady (wSlots {}) t) ∧ ((wSlots {}).dieOf 0).slots[(0 : Fin 16)].state ≠ .opened ∧
    (∀ t, HandlerReady (wSlots { wSlot with closing := true }) t) ∧
    (∀ t, HandlerReady (wSlots { wSlot with job := 8 }) t) ∧
      ((wSlots { wSlot with job := 8 }).dieOf 0).slots[(0 : Fin 16)].job ≠ (wSlots { wSlot with job := 8 }).hart.job := by
  refine ⟨⟨rfl, rfl, by decide +kernel⟩, ⟨rfl, rfl, by decide +kernel⟩, ?_, rfl, fun t => readyOf rfl (by decide +kernel) t, by decide +kernel,
    fun t => readyOf rfl (by decide +kernel) t, fun t => readyOf rfl (by decide +kernel) t, by decide +kernel⟩
  rintro y (rfl | rfl | rfl | rfl) <;> decide

theorem witness_MergeSlots_phaseTwo :
    (let m := { wSlot with pending := [0, 1], next := 2 }
     ((wSlots m).dieOf 0).slots[(0 : Fin 16)] = m ∧ m.state = .opened ∧ m.pending = 0 :: [1] ∧ m.closing = false ∧
       m.job = (wSlots m).hart.job ∧ ∀ h ∈ (wSlots m).allHarts ++ savedHarts (wSlots m), (m.con 0).marker ≠ some (h.hid, h.pc)) ∧
    -- the marker's hart stands behind its tm.mark, or waits at a barrier there
    (∀ st ∈ [(HStatus.running, WaitMark.none), (.waiting, .arrived 2)],
      let m := { wFull { dcnt := 3, marked := true, marker := some (1, 0x1000) } with pending := [0], next := 1 }
      let s := (wSlots m).onlyHart fun h => { h with status := st.1, mark := st.2 }
      (s.dieOf 0).slots[(0 : Fin 16)] = m ∧ m.state = .opened ∧ m.pending = 0 :: [] ∧ m.closing = false ∧
        (m.con 0).marker = some (s.hart.hid, s.hart.pc) ∧ s.hart ∈ s.allHarts) ∧
    (let m := { wSlot with pending := [1], next := 2, closing := true }
     ((wSlots m).dieOf 0).slots[(0 : Fin 16)] = m ∧ m.state = .opened ∧ m.pending = 1 :: [] ∧ m.closing = true) ∧
    wSlot.ncon ≤ 64 ∧ wSlot.nmark ≤ 64 := by decide +kernel

/-! ## Tasks -/

/-- A record of one member that enters at 0x1000. -/
def wRecord : Block := (0x100 <<< 192) ||| 0x1000

/-- The machine with a queue of 4104 entries at priority 0 of its cell. -/
def wCrowd : State := wState.setCell 0 0 { wState.cellOf 0 0 with
  queues := (wState.cellOf 0 0).queues.set 0 (List.replicate 4104 (.task { qid := 0, block := 0, job := 7, prio := 0, part := none })) }

theorem wCrowd_full : ¬HasRoom wCrowd 0 0 7 wRecord := by
  have e : ((wCrowd.cellOf 0 0).queues[0]).length = 4104 := List.length_replicate
  have p : (if wCrowd.ceilOf 7 < BitVec.ofNat 4 (bitsOf (blockWord wRecord 3) 3 0) then wCrowd.ceilOf 7
      else BitVec.ofNat 4 (bitsOf (blockWord wRecord 3) 3 0)) = 0 := by decide +kernel
  unfold HasRoom
  have f : ∀ b : BitVec 4, b = 0 → ∀ hb, ¬((wCrowd.cellOf 0 0).queues[b.toNat]'hb).length < 8 + 4096 := by
    rintro b rfl hb h
    exact absurd (Nat.lt_of_le_of_lt (Nat.le_of_eq e.symm) h) (by decide)
  exact f _ p _

def wSpawn : State := { wState with mem := wState.mem ++ [(0x2041, 0x10), (0x2059, 1)] }

theorem wSpawn_reads : (match loadValue wSpawn 0x2040 64 with
      | .ok p => decide (p.2.hart = wSpawn.hart ∧ p.2.record.nodeid = wSpawn.record.nodeid ∧ BitVec.ofNat 512 p.1 = wRecord ∧ p.2.findJob wSpawn.hart.job = some wJob ∧
          (p.2.cellOf 0 0).queues[0].length = 0 ∧ p.2.ceilOf 7 = 9)
      | .error _ => false) = true := by decide +kernel

/-- An empty queue 0 has room for the record of a job whose ceiling is 9. -/
theorem wRoom (s : State) (h6 : (s.cellOf 0 0).queues[0].length = 0) (h7 : s.ceilOf 7 = 9) : HasRoom s 0 0 7 wRecord := by
  have e : (if s.ceilOf 7 < BitVec.ofNat 4 (bitsOf (blockWord wRecord 3) 3 0) then s.ceilOf 7
    else BitVec.ofNat 4 (bitsOf (blockWord wRecord 3) 3 0)) = 0 := by rw [h7]; decide +kernel
  unfold HasRoom
  have f : ∀ b : BitVec 4, b = 0 → ∀ hb, ((s.cellOf 0 0).queues[b.toNat]'hb).length < 8 + 4096 := by
    rintro b rfl hb
    exact Nat.lt_of_le_of_lt (Nat.le_of_eq h6) (by decide)
  exact f _ e _

theorem witness_SpawnAndJoin_spawn :
    wSpawn.hart.NoVectorMemory ∧ wSpawn.hart.status = .running ∧ wSpawn.hart.mark = .none ∧ wSpawn.hart.cancel = false ∧
    (∃ x s1, loadValue wSpawn 0x2040 64 = .ok (x, s1) ∧ s1.hart = wSpawn.hart ∧ s1.record.nodeid = wSpawn.record.nodeid ∧
      BitVec.ofNat 512 x = wRecord ∧ s1.findJob wSpawn.hart.job = some wJob ∧
      HasRoom s1 0 0 7 (BitVec.ofNat 512 x)) ∧
    recCheck wRecord wSpawn.hart.priv.cur = none ∧ ¬HasRoom wCrowd 0 0 7 wRecord := by
  refine ⟨wQuiet _ rfl, rfl, rfl, rfl, ?_, by decide +kernel, wCrowd_full⟩
  have h := wSpawn_reads
  revert h
  cases loadValue wSpawn 0x2040 64 with
  | error e => exact fun h => nomatch h
  | ok p =>
    intro h
    obtain ⟨h1, h2, h3, h5, h6, h7⟩ := of_decide_eq_true h
    exact ⟨p.1, p.2, rfl, h1, h2, h3, h5, h3 ▸ wRoom p.2 h6 h7⟩

/-- A spawn that waits goes on with its record where there is room, and waits on where there is none. -/
theorem witness_SpawnAndJoin_held :
    let held (h : Hart) : Hart := { h with status := .waiting, mark := .spawning wRecord 0 0 none }
    HasRoom (wState.onlyHart held) 0 0 7 wRecord ∧ ¬HasRoom (wCrowd.onlyHart held) 0 0 7 wRecord ∧
    (wCrowd.onlyHart held).hart = held wHart ∧ (wState.onlyHart held).hart = held wHart ∧ (held wHart).cancel = false :=
  ⟨wRoom _ rfl (by decide +kernel), wCrowd_full, rfl, rfl, rfl⟩

/-- A queue one longer than its cache. -/
theorem witness_SpawnAndJoin_ring :
    8 + 0 < (List.replicate 9 (QEntry.task { qid := 0, block := wRecord, job := 7, prio := 0, part := none })).length := by decide

/-- A target in the own node, cell 9 of die 1; ANY of the own node; cell 9 of die 1 of the own node; another node. -/
theorem witness_SpawnAndJoin_target :
    (let w : Word := 0x8109
     bitsOf w 63 16 = 0 ∧ w.getLsbD 15 = true ∧ bitsOf w 14 10 = 0 ∧ bitsOf w 7 6 = 0 ∧ bitsOf w 5 0 < 48) ∧
    (let w : Word := 0x80000000
     bitsOf w 63 32 = 0 ∧ w.getLsbD 30 = false ∧ bitsOf w 23 22 = 0 ∧ w.getLsbD 19 = false ∧ w.truncate 19 = wSpawn.record.nodeid ∧
       w.getLsbD 31 = true) ∧
    (let w : Word := 0x09100000
     bitsOf w 63 32 = 0 ∧ w.getLsbD 30 = false ∧ bitsOf w 23 22 = 0 ∧ w.getLsbD 19 = false ∧ w.truncate 19 = wSpawn.record.nodeid ∧
       w.getLsbD 31 = false ∧ bitsOf w 29 24 < 48) ∧
    (let w : Word := 5
     bitsOf w 63 32 = 0 ∧ w.getLsbD 30 = false ∧ bitsOf w 23 22 = 0 ∧ w.getLsbD 19 = false ∧ w.truncate 19 ≠ wSpawn.record.nodeid) ∧
    recCheck (wRecord ||| 1) 3 = some 0x05 ∧ HandlerReady wSpawn { cause := 0x05, addr := 0x2040 } :=
  ⟨by decide +kernel, by decide +kernel, by decide +kernel, by decide +kernel, by decide +kernel, readyOf rfl (by decide +kernel) _⟩

/-- A join counter at 0x2080, with COUNT, flags and CONT in memory. -/
def wCounter (old cont : Nat) : State := (wSpawn.storeLe 0x2080 8 old).storeLe 0x2088 8 cont

theorem witness_SpawnAndJoin_join :
    (∀ s ∈ [wCounter 0 0, wCounter 2 0x2040, wCounter 1 0, wCounter (2 ^ 63 + 1) 0x2040, wCounter 1 0x2040, wCounter 1 0x2041],
      s.hart.Gives 1 0x2000 ∧ (match ownPlace s s.hart.agent .both 0x2080 8 with | .ok p => p.pa == 0x2080 | .error _ => false) = true ∧
        readFault s 0x2080 8 = none ∧ s.hart.NoVectorMemory) ∧
    (let old (s : State) : Word := BitVec.ofNat 64 (s.mem.readLe 0x2080 8)
     let cont (s : State) : Word := BitVec.ofNat 64 (s.mem.readLe 0x2088 8)
     bitsOf (old (wCounter 0 0)) 47 0 = 0 ∧ 1 < bitsOf (old (wCounter 2 0x2040)) 47 0 ∧
       (0 < bitsOf (old (wCounter 1 0)) 47 0 ∧ cont (wCounter 1 0) = 0) ∧
       (0 < bitsOf (old (wCounter (2 ^ 63 + 1) 0x2040)) 47 0 ∧ bitsOf (old (wCounter (2 ^ 63 + 1) 0x2040)) 63 62 ≠ 0) ∧
       ∀ a ∈ [0x2040, 0x2041], bitsOf (old (wCounter 1 a)) 47 0 = 1 ∧ bitsOf (old (wCounter 1 a)) 63 62 = 0 ∧
         cont (wCounter 1 a) ≠ 0 ∧
         (readRecord (wCounter 0 a) (wCounter 0 a).hart.agent (cont (wCounter 1 a)) (wCounter 1 a).hart.priv.cur).toBool =
           decide (a = 0x2040)) ∧
    (∀ c ∈ [0, 1], (match loadValue (wCounter c 0) 0x2080 8 with
        | .ok p => p.1 % 2 ^ 48 == c && decide (p.2.hart = (wCounter c 0).hart)
        | .error _ => false) = true) ∧
    wState.hart.status = .running ∧ wState.hart.mark = .none ∧ wState.hart.cancel = false := by
  refine ⟨?_, by decide +kernel, by decide +kernel, rfl, rfl, rfl⟩
  intro s hs
  have g : s.hart = wState.hart := by
    simp only [List.mem_cons, List.not_mem_nil, or_false] at hs
    rcases hs with rfl | rfl | rfl | rfl | rfl | rfl <;> rfl
  refine ⟨g ▸ wGives1, ?_, ?_, wQuiet _ (g ▸ rfl) (fun n => g ▸ (by decide +kernel : ∀ n : HReg, wState.hart.handles[n].bound = false) n)⟩ <;>
    (simp only [List.mem_cons, List.not_mem_nil, or_false] at hs; rcases hs with rfl | rfl | rfl | rfl | rfl | rfl <;> decide +kernel)

/-- The machine with a record of one member in the queue of priority 9. -/
def wRival : State := wState.setCell 0 0 { wState.cellOf 0 0 with
  queues := (wState.cellOf 0 0).queues.set 9 [.task { qid := 0, block := (0x10100 <<< 192) ||| 0x1000, job := 7, prio := 9, part := none }] }

theorem witness_ForkJoinYield :
    wState.hart.Gives 1 0x2000 ∧ wState.hart.Full 31 ∧ wState.hart.vq = [] ∧ wState.hart.OutputsDone ∧ (0x2000 : Word).toNat % 4 = 0 ∧
    wState.hart.nextPend = false ∧ 2 ≤ (carriages wState.hart.grant).length ∧ wState.coreFree wState.hart.die wState.hart.cell = true ∧
    (let slots := (wState.allHarts.filter fun h => h.status != .free && h.die == wState.hart.die && h.cell == wState.hart.cell).map (·.slot)
     (1 : SlotNo) ∉ slots ∧ ∀ j < (1 : SlotNo), j ∈ slots) ∧
    (quenchNow (wState.onlyHart fun h => { h with nextPend := false, budget := none }) true).toBool = true ∧
    (carriages (wOf fun h => { h with grant := 1 }).hart.grant).length < 2 ∧
    -- join.l: no child, one that runs, one that has ended
    wState.hart.parent = none ∧ wState.hart.children = [] ∧
    (let s := wOf fun h => { h with children := [{ hid := 5 }] }
     s.hart.children = [] ++ [{ hid := 5 }] ∧ s.hart.status = .running ∧ s.hart.mark = .none ∧ s.hart.cancel = false) ∧
    (let s := wOf fun h => { h with children := [{ hid := 5, ended := some 4 }] }
     s.hart.children = [] ++ [{ hid := 5, ended := some 4 }] ∧
       (quenchNow (s.onlyHart fun h => { h with nextPend := false, budget := none }) true).toBool = true) ∧
    yieldWanted wState = false ∧ yieldWanted wRival = true ∧ wRival.hart.resident = true ∧ wRival.hart.cancel = false ∧
    (LastOfTask wRival wRival.hart.task ∧ SaveReady wRival) ∧
    wState.hart.Gives 2 5 ∧ wState.findTask wState.hart.task = some wTask ∧ wTask.size ≤ 64 ∧ wTask.live ≤ 64 :=
  ⟨wGives1, rfl, rfl, wDone, by decide, rfl, by decide +kernel, by decide +kernel, by decide +kernel, by decide +kernel,
    by decide +kernel, rfl, rfl, ⟨rfl, rfl, rfl, rfl⟩, ⟨rfl, by decide +kernel⟩, by decide +kernel, by decide +kernel, rfl, rfl,
    ⟨⟨fun _ h => (nomatch h), by decide +kernel⟩, by decide +kernel, by decide +kernel⟩, wGives2, by decide +kernel, by decide, by decide⟩

/-- A hart that waits for a core; a cell with a record of one member at priority 2, in the own partition or any. -/
def wRunnable : State := wOf fun h => { h with status := .runnable }
def wIdle (part : Option (BitVec 5)) : State := { State.reset with
  mode := .normal
  jobs := [wJob]
  cells := State.reset.cells.set 0 { queues := (Vector.replicate 16 []).set 2 [.task { qid := 0, block := (0x20102 <<< 192) ||| 0x1000, job := 7, prio := 2, part := part }] } }

theorem witness_SchedulerSteps :
    (wRunnable.mode ≠ .starting ∧ (wRunnable.dieOf 0).stopped = false ∧ cellOn wRunnable 0 0 = true ∧ wRunnable.hart.status = .runnable ∧
      wRunnable.coreFree 0 0 = true ∧ wRunnable.harts = []) ∧
    (∀ part ∈ [none, some 0], let s := wIdle part
      ∃ r : TaskRec, s.mode ≠ .starting ∧ (s.dieOf 0).stopped = false ∧ cellOn s 0 0 = true ∧ CellEmpty s 0 0 ∧ s.findJob r.job = some wJob ∧
        (∀ q : Fin 16, (s.cellOf 0 0).queues[q] = if q.val = (2 : BitVec 4).toNat then [.task r] else []) ∧
        bitsOf (blockWord r.block 3) 14 8 = 1 ∧ bitsOf (blockWord r.block 3) 26 24 = 0 ∧ bitsOf (blockWord r.block 3) 23 22 = 0 ∧
        partitionExists (s.cellOf 0 0).start 0 = true) ∧
    (let s := wOf fun h => { h with budget := some 0 }
     s.hart.resident = true ∧ s.hart.budget = some 0 ∧ s.hart.cancel = false ∧ LastOfTask s s.hart.task ∧ SaveReady s) ∧
    (wOf fun h => { h with cancel := true }).hart.resident = true := by
  have idle (part : Option (BitVec 5)) (r : TaskRec) (hr : r = { qid := 0, block := (0x20102 <<< 192) ||| 0x1000, job := 7, prio := 2, part := part })
      (h : let s := wIdle part
        s.mode ≠ .starting ∧ (s.dieOf 0).stopped = false ∧ cellOn s 0 0 = true ∧ (s.cellOf 0 0).claims = [] ∧ (s.cellOf 0 0).anvil = [] ∧
        s.findJob r.job = some wJob ∧
        (∀ q : Fin 16, (s.cellOf 0 0).queues[q] = if q.val = (2 : BitVec 4).toNat then [.task r] else []) ∧
        bitsOf (blockWord r.block 3) 14 8 = 1 ∧ bitsOf (blockWord r.block 3) 26 24 = 0 ∧ bitsOf (blockWord r.block 3) 23 22 = 0 ∧
        partitionExists (s.cellOf 0 0).start 0 = true) :
      let s := wIdle part
      ∃ r : TaskRec, s.mode ≠ .starting ∧ (s.dieOf 0).stopped = false ∧ cellOn s 0 0 = true ∧ CellEmpty s 0 0 ∧ s.findJob r.job = some wJob ∧
        (∀ q : Fin 16, (s.cellOf 0 0).queues[q] = if q.val = (2 : BitVec 4).toNat then [.task r] else []) ∧
        bitsOf (blockWord r.block 3) 14 8 = 1 ∧ bitsOf (blockWord r.block 3) 26 24 = 0 ∧ bitsOf (blockWord r.block 3) 23 22 = 0 ∧
        partitionExists (s.cellOf 0 0).start 0 = true := by
    refine ⟨r, h.1, h.2.1, h.2.2.1, ⟨?_, h.2.2.2.1, h.2.2.2.2.1⟩, h.2.2.2.2.2⟩
    intro x hx hf
    cases hx with
    | head => exact absurd rfl hf
    | tail _ hx => nomatch hx
  refine ⟨⟨by decide, by decide +kernel, by decide +kernel, rfl, by decide +kernel, rfl⟩, fun part hp => ?_,
    ⟨rfl, rfl, rfl, ⟨fun h hh => (nomatch hh), by decide +kernel⟩, by decide +kernel, by decide +kernel⟩, rfl⟩
  cases hp with
  | head => exact idle none _ rfl (by decide +kernel)
  | tail _ hp => cases hp with
    | head => exact idle (some 0) _ rfl (by decide +kernel)
    | tail _ hp => nomatch hp

theorem witness_SoftErrors :
    wState.hart.resident = true ∧ (1 : SReg) ≠ 0 ∧ SoftErrorKind.met ≠ .corrected ∧ (0 : Fin 256).val < wState.hart.lanes ∧
      (wOf fun h => { h with buffer := [{ entry := .store [(0x2010, 1)] }] }).hart.buffer[(0 : Fin 8).val]? =
        some { entry := .store [(0x2010, 1)] } := ⟨rfl, by decide, by decide, by decide +kernel, rfl⟩

/-! ## The host -/

/-- The link of die 0 is up at version 3, and nothing has come over it. -/
def wLinked : State := wState.setDie 0 { wState.dieOf 0 with link := { up := true, hostMax := 3, version := 3 } }
def wNormal : State := { wLinked with mode := .normal }
def wHdr (units : BitVec 10) (job : BitVec 32) : MsgHdr := { ver := 3, unitsM1 := units, mseq := 0, jobid := job, zeroOk := true }
def wLaunch (count : BitVec 16) (l : List Block) : LaunchBody where
  asid := 0
  ceil := 9
  gatebase := 0
  cont := 0
  die := 0
  cell := 0
  zeroOk := true
  count := count
  records := l

theorem goodOf {s : State} {hdr : MsgHdr} {since units : Nat}
    (h : (let l := (s.dieOf 0).link
      l.up && decide (s.mode ≠ .starting) && hdr.zeroOk && decide (hdr.mseq = l.rxSeq) && decide (hdr.ver = l.version) && decide (since ≤ l.version.toNat) &&
        decide (hdr.unitsM1.toNat + 1 = units)) = true) : GoodMessage s 0 hdr since units := by
  simpa [GoodMessage, and_assoc] using h

def wOne : LaunchBody := wLaunch 1 [wRecord]
def wTwo : LaunchBody := wLaunch 2 [wRecord, wRecord ||| 1]
def wCellsOff : State := { wNormal with record := { wNormal.record with cells := Vector.replicate 4 0 } }

/-- LAUNCH with a record, with none and with too many, with bad fields, for a job that runs, into a cell that is not
there or is disabled, and with a bad record behind a good one. -/
theorem witness_HostMessages_launch :
    GoodMessage wNormal 0 (wHdr 1 8) 1 (wOne.records.length + 1) ∧ GoodMessage wNormal 0 (wHdr 1 7) 1 (wOne.records.length + 1) ∧
    GoodMessage wNormal 0 (wHdr 0 8) 1 1 ∧ GoodMessage wCellsOff 0 (wHdr 1 8) 1 (wOne.records.length + 1) ∧
    GoodMessage wNormal 0 (wHdr 2 8) 1 (wTwo.records.length + 1) :=
  ⟨goodOf (by decide +kernel), goodOf (by decide +kernel), goodOf (by decide +kernel), goodOf (by decide +kernel), goodOf (by decide +kernel)⟩

theorem witness_HostMessages_bodies :
    (wOne.zeroOk = true ∧ wNormal.findJob 8 = none ∧ wNormal.findJob 7 ≠ none ∧ wCellsOff.findJob 8 = none) ∧
    (∀ b ∈ [wOne, wTwo, { wOne with cell := 48 }], 0 < b.count.toNat ∧ b.count.toNat ≤ 1023 ∧ b.records.length = b.count.toNat) ∧
    (∀ b ∈ [wOne, wTwo], b.cell.toNat < 48 ∧ cellOn wNormal b.die (Fin.ofNat 48 b.cell.toNat) = true) ∧
    (¬{ wOne with cell := 48 }.cell.toNat < 48 ∧ cellOn wCellsOff wOne.die (Fin.ofNat 48 wOne.cell.toNat) = false) ∧
    ((wLaunch 0 []).count = 0 ∧ 1023 < (wLaunch 1024 []).count.toNat) := by decide +kernel

theorem witness_HostMessages_records :
    (wNormal.mode ≠ .minimal ∧ recCheck wRecord (if wNormal.record.trust.getLsbD 0 then 2 else 0) = none) ∧
    (wTwo.records = [wRecord] ++ (wRecord ||| 1) :: [] ∧
      recCheck (wRecord ||| 1) (if wNormal.record.trust.getLsbD 0 then 2 else 0) = some 0x05) ∧
    ∀ q : Fin 16, ((wNormal.cellOf 0 0).queues[q]).length + 1 ≤ 8 + 4096 := by decide +kernel

/-- A launch that waits: the queue of its record is full. -/
def wFilled : State := { wCrowd.setDie 0 { wCrowd.dieOf 0 with link := (wNormal.dieOf 0).link } with mode := .normal }
theorem witness_HostMessages_noRoom :
    GoodMessage wFilled 0 (wHdr 1 8) 1 (wOne.records.length + 1) ∧
    (wFilled.findJob 8 = none ∧ cellOn wFilled 0 0 = true ∧ wFilled.mode ≠ .minimal ∧
      recCheck wRecord (if wFilled.record.trust.getLsbD 0 then 2 else 0) = none) ∧
    (if wOne.ceil.toNat < bitsOf (blockWord wRecord 3) 3 0 then wOne.ceil else BitVec.ofNat 4 (bitsOf (blockWord wRecord 3) 3 0)) = 0 ∧
    ¬((wFilled.cellOf 0 0).queues[0]).length + 1 ≤ 8 + 4096 :=
  ⟨goodOf (by decide +kernel), by decide +kernel, by decide +kernel, fun h => by
    have e : ((wFilled.cellOf 0 0).queues[0]).length = 4104 := List.length_replicate
    exact absurd (e ▸ h) (by decide)⟩

/-- A store that a window maps is in flight; a hart that a double fault halted; a link of version 1. -/
def wThrough : State := { wNormal with
  windows := wNormal.windows.set 0 { opened := true, base := 0x200000, len := 0x200000 }
  hart := { wNormal.hart with buffer := [{ entry := .store [(2 ^ 52 + 0x200000, 1)] }] } }
def wHalted : State := { wNormal with harts := [{ wHart with hid := 2, status := .haltedDouble, slot := 1 }] }
def wFirst : State := wNormal.setDie 0 { wNormal.dieOf 0 with link := { up := true, hostMax := 1, version := 1 } }

theorem witness_HostMessages_good :
    GoodMessage wNormal 0 (wHdr 0 7) 1 1 ∧ GoodMessage wThrough 0 (wHdr 0 7) 1 1 ∧ GoodMessage wHalted 0 (wHdr 0 7) 1 1 ∧
    GoodMessage wFirst 0 { wHdr 0 7 with ver := 1 } 1 1 ∧ GoodMessage wNormal 0 (wHdr 0 7) 3 1 :=
  ⟨goodOf (by decide +kernel), goodOf (by decide +kernel), goodOf (by decide +kernel), goodOf (by decide +kernel), goodOf (by decide +kernel)⟩

theorem witness_HostMessages_windows :
    ((wFirst.dieOf 0).link.version.toNat < 2 ∧ 16 ≤ (16 : BitVec 6).toNat ∧ (15 : BitVec 6).toNat < 16 ∧
      2 ≤ (wNormal.dieOf 0).link.version.toNat) ∧
    ((0x200000 : Word).toNat % 2 ^ 21 = 0 ∧ (1 : Word).toNat % 2 ^ 21 ≠ 0 ∧
      (let len : Word := 0x2000000000
       0 < len.toNat ∧ len.toNat % 2 ^ 21 = 0 ∧ len.toNat ≤ 2 ^ 37) ∧
      2 ^ 37 < (0x2000200000 : Word).toNat) ∧
    (wNormal.inFlightPlaces = [] ∧ wThrough.windows[0].opened = true ∧ (2 ^ 52 + 0x200000, 1) ∈ wThrough.inFlightPlaces ∧
      rangesMeet (2 ^ 52 + 0x200000, 1) (2 ^ 52 + wThrough.windows[0].base, wThrough.windows[0].len) = true) := by decide +kernel

theorem witness_HostMessages_rest :
    (∀ h ∈ wNormal.allHarts, ¬(h.status = .haltedDouble ∧ h.die = 0 ∧ h.cell.val = (0 : BitVec 6).toNat ∧ h.slot = 0)) ∧
    (∃ h ∈ wHalted.allHarts, h.status = .haltedDouble ∧ h.die = 0 ∧ h.cell.val = (0 : BitVec 6).toNat ∧ h.slot = 1) ∧
    ((wNormal.dieOf 0).link.up = true ∧ wNormal.mode ≠ .starting ∧ { wHdr 0 7 with zeroOk := false }.zeroOk = false ∧ (5 : BitVec 32) ≠ (wNormal.dieOf 0).link.rxSeq) ∧
    (wNormal.findJob 9 = none ∧ wNormal.findJob 7 = some wJob ∧ (wNormal.dieOf 0).stopped = false) := by decide +kernel

theorem witness_LinksQuotesIslands :
    (let s (host stage : BitVec 8) : State := wState.setDie 0 { wState.dieOf 0 with stage := stage, link := { hostMax := host } }
     ∀ host ∈ [(0 : BitVec 8), 2], ((s host 7).dieOf 0).link.up = false ∧ 7 ≤ ((s host 7).dieOf 0).stage.toNat ∧
       ((s host 7).dieOf 0).link.hostMax = host ∧ ((s host 6).dieOf 0).stage.toNat < 7) ∧
    (wNormal.dieOf 0).link.up = true ∧ (some 3 : Option (BitVec 8)).getD 0 = 3 ∧
    (∀ q ∈ wNormal.changing, q.number ≠ 5) ∧
    (let s := { wNormal with changing := [{ number := 5, step := 1 }], waitingIslands := [{ number := 6, step := 2 }, { number := 5, step := 2 }] }
     (∃ q ∈ s.changing, q.number = 5) ∧ s.changing = { number := 5, step := 1 } :: [] ∧
       s.waitingIslands = [{ number := 6, step := 2 }] ++ { number := 5, step := 2 } :: []) ∧
    (∀ r ∈ wNormal.waitingIslands, r.number ≠ 5) ∧
    -- the anvil of die 0's cell 0, then the lanes of its cell 0, each to the lowest step
    (let s := { wNormal with islands := Vector.replicate 512 0x0202 }
     (104 : BitVec 8).toNat < 105 ∧ 105 ≤ (105 : BitVec 8).toNat ∧ lowersInOrder s [(192, 0x0101), (0, 0x0101)] = true ∧
       lowersInOrder s [(0, 0x0101), (192, 0x0101)] = false) ∧
    115 ≤ (115 : BitVec 8).toNat := by decide +kernel

/-! ## The fabric -/

/-- Ports 0 and 1 of die 0 are up with credits, and port 1 leads to node 5. -/
def wPort : Port := { up := true, credits := Vector.replicate 4 64 }
def wPorts (p : Port) : State := wState.setDie 0 { wState.dieOf 0 with
  ports := ((wState.dieOf 0).ports.set 0 p).set 1 wPort, routes := [(5, 1)] }
def wFlit : Block := 5 <<< 45

theorem witness_EwetricFabric_receive :
    let s := wPorts wPort
    let t := trailer wFlit 0 0 0 0 0
    let good (t : Word) : Prop := crc32c (leBytes 64 wFlit.toNat ++ leBytes 4 (bitsOf t 31 0)) = bitsOf t 63 32 ∧ bitsOf t 1 0 ≠ 3
    (s.dieOf 0).ports[(0 : Fin 8)] = wPort ∧ wPort.up = true ∧ wPort.waiting = [] ∧ good t ∧ ¬good 0 ∧
    bitsOf t 1 0 = 0 ∧ bitsOf t 31 20 = wPort.rxSeq.toNat ∧
    (good (trailer wFlit 0 0 0 0 1) ∧ bitsOf (trailer wFlit 0 0 0 0 1) 1 0 = 1) ∧
    (good (trailer wFlit 0 0 0 0 2) ∧ bitsOf (trailer wFlit 0 0 0 0 2) 1 0 = 2) ∧
    (good (trailer wFlit 9 0 0 0 0) ∧ bitsOf (trailer wFlit 9 0 0 0 0) 1 0 = 0 ∧ bitsOf (trailer wFlit 9 0 0 0 0) 31 20 ≠ wPort.rxSeq.toNat) ∧
    -- an empty flit is for this module, whose node is 0, and wFlit for node 5
    ((blockWord 0 0).extractLsb' 45 19 = s.record.nodeid ∧ bitsOf (blockWord 0 0) 42 40 < 4) ∧
    (blockWord wFlit 0).extractLsb' 45 19 ≠ s.record.nodeid ∧
    (((s.dieOf 0).routes.find? fun r => r.1 == (blockWord wFlit 0).extractLsb' 45 19).map (·.2) = some 1) := by decide +kernel

theorem witness_EwetricFabric_onward (q : Port) :
    let o := (withPort (wPorts wPort) 0 0 q).dieOf 0
    o.ports[(1 : Fin 8)].up = true ∧ o.ports[(1 : Fin 8)].waiting = [] ∧ o.ports[(1 : Fin 8)].kept.length < 2048 ∧
      0 < o.ports[(1 : Fin 8)].credits.toList.getD 0 0 := by
  change wPort.up = true ∧ wPort.waiting = [] ∧ wPort.kept.length < 2048 ∧ 0 < wPort.credits.toList.getD 0 0
  exact ⟨rfl, rfl, by decide, by decide⟩

theorem witness_EwetricFabric_fail :
    (let p : Port := { wPort with kept := [{ fseq := 0, flit := wFlit, tries := 16 }] }
     p.up = true ∧ ∃ k ∈ p.kept, 16 ≤ k.tries) ∧
    (({} : Port).up = false ∧ (1 : Fin 4) ≠ 0 ∧ wState.mode ≠ .minimal) := by decide +kernel

def wPacket (r : Block) : SpawnPacket :=
  { srcNode := 5, number := 3, job := 7, any := false, die := 0, cell := 1, record := r }

/-- Die 0 has received a flit with packet number 3 behind one of another number. -/
def wArrived (s : State) : State := s.setDie 0 { s.dieOf 0 with inbox := [2, 3] }

/-- Packet 3 of the flits received: accepted before, with a bad record, a bad cell or an unknown job, and good. -/
theorem witness_EwetricFabric_spawn :
    let ofPacket (f : Block) : Bool := (blockWord f 0).toNat % 2 ^ 43 == (wPacket wRecord).number % 2 ^ 40
    ((wState.dieOf 0).inbox.all fun f => !ofPacket f) = true ∧
    (((wArrived wState).dieOf 0).inbox = [2] ++ 3 :: [] ∧ ([(2 : Block)].all fun f => !ofPacket f) = true ∧ ofPacket 3 = true) ∧
    (5, 3) ∈ { wArrived wState with accepted := [(5, 3)] }.accepted ∧ (5, 3) ∉ (wArrived wState).accepted ∧
    (recCheck (wPacket 0).record 3).isSome = true ∧ 47 < { wPacket wRecord with cell := 48 }.cell.toNat ∧
    (wArrived wState).findJob { wPacket wRecord with job := 9 }.job = none ∧
    (recCheck (wPacket wRecord).record 3 = none ∧ (wPacket wRecord).cell.toNat < 48 ∧ (wArrived wState).findJob (wPacket wRecord).job ≠ none) := by
  decide +kernel

theorem witness_EwetricFabric_room :
    HasRoom (wArrived wState) 0 (Fin.ofNat 48 { wPacket wRecord with cell := 0 }.cell.toNat) 7 wRecord ∧
      ¬HasRoom (wArrived wCrowd) 0 (Fin.ofNat 48 { wPacket wRecord with cell := 0 }.cell.toNat) 7 wRecord :=
  ⟨wRoom _ rfl (by decide +kernel), wCrowd_full⟩

theorem witness_EwetricFabric_flying :
    let f : InFlight := { number := 3, src := 0, start := 0, job := 7, node := 5, packet := wPacket wRecord }
    let s := { wState with inFlight := [f, { f with number := 4 }] }
    s.inFlight = f :: [{ f with number := 4 }] ∧ (∀ g ∈ [{ f with number := 4 }], g.number ≠ f.number) ∧
      s.findJob f.job = some wJob ∧ 1 < wJob.count := by decide +kernel

/-! ## Reset and start-up -/

/-- A plan whose record is too short, and which the later stages get through or not. -/
def wPlan (later : Bool) (cause : BitVec 8) : BootPlan where
  selfTest := true
  firmware := true
  identity := later
  training := true
  dieLinks := true
  hostLink := later
  memory := true
  cause := cause
  record := []
  directory := 0x10000
  defaultVector := 0x1000
  saveAreas := 0x100000
  supervisorQueues := 0x200000
  taskRings := 0x300000

/-- Stages 1 to 3 fail on what the plan says; whether a record is signed is the configuration's, and for every answer
the rest of a plan fixes the stage. -/
theorem witness_ResetAndStart :
    (State.reset.dieOf 0).stage = 0 ∧ ({ wPlan true 1 with selfTest := false }).selfTest = false ∧
    (let p : BootPlan := { wPlan true 1 with firmware := false }
     p.selfTest = true ∧ p.firmware = false ∧ p.cause ≠ 0) ∧
    (let p := wPlan true 1
     p.selfTest = true ∧ p.firmware = true ∧ ¬1152 ≤ p.record.length) ∧
    (let p : BootPlan := { wPlan true 0 with record := List.replicate 56 0 ++ [0x40, 4] ++ List.replicate 1094 0 }
     1152 ≤ p.record.length ∧ 1088 ≤ leNat ((p.record.drop 56).take 8) ∧ leNat ((p.record.drop 56).take 8) ≤ p.record.length - 64 ∧
       p.identity = true ∧ p.training = true ∧ p.dieLinks = true ∧ p.hostLink = true ∧ p.memory = true ∧
       { p with identity := false }.identity = false ∧ { p with training := false }.training = false ∧
       { p with hostLink := false }.hostLink = false ∧ { p with memory := false }.memory = false) ∧
    (let s : State := { State.reset with dies := (Vector.replicate 4 { stage := 8 }).set 0 {}, fails := 3 }
     (s.dieOf 0).stage = 0 ∧ (∀ e : DieNo, e ≠ 0 → (s.dieOf e).stage = 8) ∧ 3 ≤ s.fails.toNat) ∧
    (∀ e : DieNo, e ≠ 0 → (State.reset.dieOf e).stage = 0) := by decide +kernel

end Sys2Proof.Machine
end

