-- ==== Sys2Proof/Tests/Slice0.lean ====
section
/-!
SUPPORT. Tests: each check of WellFormed refuses an ill-formed term, words written out from the encoding tables decode
to the instructions they stand for, and single steps give what the spec's rules and examples say.
-/
namespace Sys2Proof

/-! ## Well-formedness: one ill-formed term for each check -/

theorem test_wf_ld : (Instr.ld 1 2 0 .b8 true false).wellFormed = false := rfl
theorem test_wf_cwr : [0x000, 0x006, 0x020, 0x040, 0x047, 0x101, 0x180, 0x182].map (fun n => (Instr.cwr 1 n).wellFormed) =
    List.replicate 8 false := rfl
theorem test_wf_widening_type : [Instr.vwfma 0 1 2 .f32 false false, .vwfms 0 1 2 .f64 false false, .vwmul 0 1 2 .f32 false false,
    .vwmadd 0 1 2 .i32 false false, .vwimul 0 1 2 .i64 false false].map Instr.wellFormed = List.replicate 5 false := rfl
theorem test_wf_widening_group : [Instr.vwfma 1 1 2 .f16 false false, .vwfms 2 1 2 .e5m2 false false, .vwmul 4 1 2 .e2m1 false false,
    .vwmadd 1 1 2 .n16 false false, .vwimul 2 1 2 .i8 false false].map Instr.wellFormed = List.replicate 5 false := rfl
theorem test_wf_summable : [Instr.vpushAdd 0 1 2 (.flt .e4m3) false false, .vrsum 0 1 2 (.flt .e5m2) false false,
    .vrmax 0 1 2 (.flt .e2m1) false false, .vrmin 0 1 2 (.flt .e4m3) false false].map Instr.wellFormed = List.replicate 4 false := rfl
theorem test_wf_thresholds : [Instr.vcmprTh 0 1 2 (.int .i4) false false, .vcmprTh 0 1 2 (.flt .e4m3) false false,
    .vcmprTh 1 1 2 (.int .i8) false false].map Instr.wellFormed = List.replicate 3 false := rfl
theorem test_wf_pairs : [Instr.vldx 0 1 2 .b4 false false, .vstx 0 3 2 .b4 false false, .vsaddInt 0 5 2 .b4 false false,
    .vsaddFloat 0 7 2 .f32 false false, .vgth 0 9 2 .d .b4 false false].map Instr.wellFormed = List.replicate 5 false := rfl
theorem test_wf_conversion_group : [Instr.vcvtToFloat 1 2 (.flt .f16) .rne .f32 false, .vcvtToInt 1 2 (.int .i8) .rne .i16 false,
    .vcvtToInt 2 1 (.flt .f64) .rtz .i32 false].map Instr.wellFormed = List.replicate 3 false := rfl
theorem test_wf_tree : [Instr.tup 0 1 0 .addSat .f32 false, .tup 0 1 0 .or .f32 false, .tdn 0 1 0 .addSat .f32 false,
    .tdn 0 1 0 .or .f32 false].map Instr.wellFormed = List.replicate 4 false := rfl

/-! ## Words the decoder refuses, by the first step of 03 R82 that applies -/

/-- Majors 0x00 and 0x2E, op 21 of major 0x17 (03 R82's table). -/
theorem test_decode_illegal : [0x00000000, 0xB8000000, 0x5C000540].map decode = List.replicate 3 .illegal := rfl
/-- gate #0 with bit 0 set (03 R82's table), ret with sa = 1. -/
theorem test_decode_reserved : [0x50000001, 0x4C010200].map decode = List.replicate 2 .reserved := rfl
/-- vldx with an odd base register. -/
theorem test_decode_misaligned : (match decode 0x64C11010 with | .misaligned => true | _ => false) = true := rfl

/-! ## Words written out from the tables of 03, major by major -/

theorem test_decode_major_01 : [0x06254002, 0x06A96005, 0x07E1480A, 0x048CC00D, 0x04CD7012, 0x04F4B015, 0x05E2D018, 0x044BD01E,
    0x0465C822, 0x05695026, 0x06413828, 0x0747782F, 0x05DB0833, 0x05639036, 0x07F37838, 0x0489903E,
    0x05EB5042, 0x052E1047, 0x05ABE048, 0x04B3504D, 0x047E7051].map decode =
    [.ok (.add 17 5 8 true false),
     .ok (.sub 21 9 12 false true),
     .ok (.and 31 1 9 true false),
     .ok (.or 4 12 24 false true),
     .ok (.xor 6 13 14 true false),
     .ok (.sll 7 20 22 false true),
     .ok (.srl 15 2 26 false false),
     .ok (.sra 2 11 26 true false),
     .ok (.mul 3 5 25 true false),
     .ok (.mulh 11 9 10 true false),
     .ok (.mulhN 18 1 7 false false),
     .ok (.div 26 7 15 true true),
     .ok (.divN 14 27 1 true true),
     .ok (.rem 11 3 18 true false),
     .ok (.remN 31 19 15 false false),
     .ok (.min 4 9 18 true false),
     .ok (.max 15 11 10 true false),
     .ok (.minN 9 14 2 true true),
     .ok (.maxN 13 11 28 false false),
     .ok (.add32 5 19 10 false true),
     .ok (.sub32 3 30 14 false true)] := rfl
theorem test_decode_major_02 : [0x099FFEBA].map decode =
    [.ok (.addi 12 31 0x7f5d false)] := rfl
theorem test_decode_major_03 : [0x0C4BF834].map decode =
    [.ok (.andi 2 11 0x7c1a false)] := rfl
theorem test_decode_major_04 : [0x1098BB92].map decode =
    [.ok (.ori 4 24 0x5dc9 false)] := rfl
theorem test_decode_major_05 : [0x163CC38A].map decode =
    [.ok (.xori 17 28 0x61c5 false)] := rfl
theorem test_decode_major_06 : [0x182F0056, 0x1879406E, 0x1BC1804A, 0x1A2F2020, 0x1BE5602B, 0x1A09A020].map decode =
    [.ok (.slli 1 15 0x2b false),
     .ok (.srli 3 25 0x37 false),
     .ok (.srai 30 1 0x25 false),
     .ok (.slli32 17 15 0x10 false),
     .ok (.srli32 31 5 0x15 true),
     .ok (.srai32 16 9 0x10 false)] := rfl
theorem test_decode_major_07 : [0x1C562E37, 0x1CAD1D33].map decode =
    [.ok (.cmpi 2 22 .ne 0x71b true),
     .ok (.cmpiN 5 13 .eq 0x699 true)] := rfl
theorem test_decode_major_08 : [0x21B22B04].map decode =
    [.ok (.ldhi 13 0x122b04)] := rfl
theorem test_decode_major_09 : [0x2451F775].map decode =
    [.ok (.addpc 2 0x11f775)] := rfl
theorem test_decode_major_0a : [0x2B16E80E, 0x28A2984B, 0x29F5108D, 0x2AC130CD, 0x2841010C, 0x2950414B, 0x2A17718A, 0x283A69CB,
    0x2AD5CA0E, 0x2B05824F, 0x28C1CA8D, 0x287702CC, 0x2998030A, 0x2B64034E, 0x2A8E038C, 0x2AAC03CC].map decode =
    [.ok (.fadd 24 22 29 .f64 true false),
     .ok (.fsub 5 2 19 .f32 true true),
     .ok (.fmul 15 21 2 .f64 false true),
     .ok (.fdiv 22 1 6 .f64 false true),
     .ok (.fsqrt 2 1 .f64 false),
     .ok (.fmin 10 16 8 .f32 true true),
     .ok (.fmax 16 23 14 .f32 true false),
     .ok (.fma 1 26 13 .f32 true true),
     .ok (.fcopys 22 21 25 .f64 true false),
     .ok (.fcopyn 24 5 16 .f64 true true),
     .ok (.fxors 6 1 25 .f64 false true),
     .ok (.fcvti 3 23 .f64 false),
     .ok (.fcvtn 12 24 .f32 true),
     .ok (.icvtf 27 4 .f64 true),
     .ok (.ncvtf 20 14 .f64 false),
     .ok (.fcvtf 21 12 .f64 false)] := rfl
theorem test_decode_major_0b : [0x2E78B853].map decode =
    [.ok (.ld 19 24 0xb85 .b1 true true)] := rfl
theorem test_decode_major_0c : [0x3027A8BD].map decode =
    [.ok (.st 1 7 0xa8b .b8 true)] := rfl
theorem test_decode_major_0d : [0x37950002, 0x340A10EF, 0x3723B943, 0x365609C1, 0x34E3324E, 0x359CC2E4, 0x3532AB48, 0x362C8BEA,
    0x36941C69, 0x35A5E4C0, 0x35F5AD4F, 0x349125D4].map decode =
    [.ok (.ldAcq 28 21 .b1 .h true),
     .ok (.stRel 10 2 .b8 .d true true),
     .ok (.amoSwap 25 3 23 .w32 .h true true),
     .ok (.amoAdd 18 22 1 .w32 .h false true),
     .ok (.amoAnd 7 3 6 .w32 .d true false),
     .ok (.amoOr 12 28 24 .w64 .co false false),
     .ok (.amoXor 9 18 21 .w32 .ce false false),
     .ok (.amoMin 17 12 17 .w64 .ce true false),
     .ok (.amoMax 20 20 3 .w64 .ce false true),
     .ok (.amoMinN 13 5 28 .w32 .h false false),
     .ok (.amoMaxN 15 21 21 .w32 .d true true),
     .ok (.cas 4 17 4 .w32 .sy false false)] := rfl
theorem test_decode_major_0e : [0x38000003, 0x38000103, 0x38000200, 0x38000304].map decode =
    [.ok (.fence .d),
     .ok (.fenceLd .d),
     .ok (.fenceSt .h),
     .ok (.fenceEng .p)] := rfl
theorem test_decode_major_0f : [0x3C6F7800, 0x3CD0E813, 0x3CA521A1, 0x3C662A00, 0x3CA61204, 0x3CC32A08, 0x3C87320C, 0x3C810210,
    0x3C870214, 0x3C4F021A].map decode =
    [.ok (.cmp 3 15 15 .eq false false),
     .ok (.cmpN 6 16 29 .eq true true),
     .ok (.fcmp 5 5 4 .le .f32 false true),
     .ok (.cand 3 6 5),
     .ok (.cor 5 6 2),
     .ok (.cxor 6 3 5),
     .ok (.candn 4 7 6),
     .ok (.cnot 4 1),
     .ok (.cget 4 7),
     .ok (.cput 2 15 true)] := rfl
theorem test_decode_major_10 : [0x42FDBE34, 0x422CF235].map decode =
    [.ok (.br 5 0x3dbe34),
     .ok (.brn 4 0x2cf235)] := rfl
theorem test_decode_major_11 : [0x467B7934].map decode =
    [.ok (.jmp 0x27b7934)] := rfl
theorem test_decode_major_12 : [0x4A162AA6].map decode =
    [.ok (.call 0x2162aa6)] := rfl
theorem test_decode_major_13 : [0x4C400000, 0x4F200100, 0x4C000200, 0x4C000300].map decode =
    [.ok (.jmpr 2),
     .ok (.callr 25),
     .ok (.ret),
     .ok (.gret)] := rfl
theorem test_decode_major_14 : [0x50900000].map decode =
    [.ok (.gate 144)] := rfl
theorem test_decode_major_15 : [0x540000E9, 0x54000100, 0x57E30284, 0x55A00341, 0x55C00300, 0x56E00306, 0x56200340, 0x54A00347,
    0x57010380, 0x54A10382, 0x54810301, 0x57E00320, 0x569C0405, 0x54E20500, 0x55160602, 0x54230700,
    0x54000800, 0x54E00900, 0x55A00A00].map decode =
    [.ok (.trap 0xe9),
     .ok (.tret),
     .ok (.crd 31 0x384),
     .ok (.cwr 13 0x41),
     .ok (.cwrVl 14),
     .ok (.cwrLpart 23),
     .ok (.cwrPrio 17),
     .ok (.cwrStripmax 5),
     .ok (.cwrPriv 24),
     .ok (.cwrAsid 5),
     .ok (.cwrTcause 4),
     .ok (.cwrHctl 31),
     .ok (.tlbInv 20 28 .sy),
     .ok (.tlbPrb 7 2),
     .ok (.cacheWb 8 22 .ce),
     .ok (.cacheInv 1 3 .h),
     .ok (.halt),
     .ok (.wfe 7),
     .ok (.evt 13)] := rfl
theorem test_decode_major_16 : [0x5BE70601, 0x5B901890, 0x59292379].map decode =
    [.ok (.setvl 31 7 .w64 true),
     .ok (.setvlDb 28 16 .w4 18 false),
     .ok (.setvlDbNb 9 9 .w16 47 true)] := rfl
theorem test_decode_major_17 : [0x5C41E818, 0x5D4F984D, 0x5EBB8892, 0x5F6730E2, 0x5E098116, 0x5EDB6146, 0x5DCCF984, 0x5D71A1C8,
    0x5F29D209, 0x5DA12243, 0x5D7C4A9C, 0x5EA4EAE3, 0x5E0ADB06, 0x5EC6DB60, 0x5F75F3A3, 0x5F2BB3C8,
    0x5D060420, 0x5EB00458, 0x5E6DDCA7, 0x5C3504CA].map decode =
    [.ok (.vadd 2 1 29 .n32 false false),
     .ok (.vsub 10 15 19 .i64 false true),
     .ok (.vmul 21 27 17 .n8 true false),
     .ok (.vmin 27 7 6 .i4 true false),
     .ok (.vmax 16 9 16 .n16 true false),
     .ok (.vand 22 27 12 .i16 true false),
     .ok (.vor 14 12 31 .i16 false false),
     .ok (.vxor 11 17 20 .i32 false false),
     .ok (.vmulh 25 9 26 .i32 false true),
     .ok (.vdiv 13 1 4 .i8 true true),
     .ok (.vrem 11 28 9 .n64 false false),
     .ok (.vsll 21 4 29 .i4 true true),
     .ok (.vsrl 16 10 27 .i16 true false),
     .ok (.vsra 22 6 27 .i4 false false),
     .ok (.vaddSat 27 21 30 .i4 true true),
     .ok (.vsubSat 25 11 22 .i32 false false),
     .ok (.vabs 8 6 .i4 false),
     .ok (.vneg 21 16 .n32 false),
     .ok (.vmadd 19 13 27 .i6 true true),
     .ok (.vmv 1 21 .i32 true)] := rfl
theorem test_decode_major_18 : [0x61BDB80F, 0x619F684F, 0x6130488F, 0x608BA0C2, 0x638FB909, 0x61638947, 0x607D198F, 0x62D441CA,
    0x62E88A06, 0x60A20A4D, 0x618A6A85, 0x61964ACD, 0x62C10B08, 0x60370342, 0x6217038C, 0x63AF03CA].map decode =
    [.ok (.vfadd 13 29 23 .f64 true true),
     .ok (.vfsub 12 31 13 .f64 true true),
     .ok (.vfmul 9 16 9 .f64 true true),
     .ok (.vfdiv 4 11 20 .f16 true false),
     .ok (.vfmin 28 15 23 .f32 false true),
     .ok (.vfmax 11 3 17 .bf16 true true),
     .ok (.vfma 3 29 3 .f64 true true),
     .ok (.vfnma 22 20 8 .f32 true false),
     .ok (.vfms 23 8 17 .bf16 true false),
     .ok (.vfnms 5 2 1 .f64 false true),
     .ok (.vfcopys 12 10 13 .bf16 false true),
     .ok (.vfcopyn 12 22 9 .f64 false true),
     .ok (.vfxors 22 1 1 .f32 false false),
     .ok (.vfabs 1 23 .f16 true),
     .ok (.vfneg 16 23 .f64 false),
     .ok (.vfmv 29 15 .f32 true)] := rfl
theorem test_decode_major_19 : [0x65106806, 0x65050851, 0x65188098, 0x67102416, 0x67163C63].map decode =
    [.ok (.vwfma 8 16 13 .bf16 true false),
     .ok (.vwfms 8 5 1 .e4m3 false true),
     .ok (.vwmul 8 24 16 .e2m1 false false),
     .ok (.vwmadd 24 16 4 .n16 true false),
     .ok (.vwimul 24 22 7 .i4 true true)] := rfl
theorem test_decode_major_1a : [0x684D0823].map decode =
    [.ok (.vcmp 2 13 1 .eq (.int .i4) true true)] := rfl
theorem test_decode_major_1b : [0x6C661000, 0x6CA40804, 0x6C671008, 0x6C62200C, 0x6CA20010, 0x6C680014, 0x6F620018, 0x6CC2001C].map decode =
    [.ok (.mand 3 6 2),
     .ok (.mor 5 4 1),
     .ok (.mxor 3 7 2),
     .ok (.mandn 3 2 4),
     .ok (.mnot 5 2),
     .ok (.mmov 3 .msm),
     .ok (.mcpop 27 2),
     .ok (.mfirst 6 2)] := rfl
theorem test_decode_major_1c : [0x709B580F, 0x7148B0C9, 0x70F5614D, 0x728A01DA, 0x70CE0A19, 0x73270298, 0x73A38323, 0x73879B97,
    0x71997C0B, 0x72817CD5, 0x73417D4A, 0x72244DA5, 0x72EF1649].map decode =
    [.ok (.vpush 4 27 11 (.int .i64) true true),
     .ok (.vpushAdd 10 8 22 (.flt .f32) false true),
     .ok (.vpull 7 21 12 (.flt .f64) false true),
     .ok (.vcmpr 20 10 (.flt .e2m1) true),
     .ok (.vcmprTh 6 14 1 (.int .n32) false true),
     .ok (.vexpand 25 7 (.int .n32) false),
     .ok (.vslideUp 29 3 16 (.int .i4) true true),
     .ok (.vslideDn 28 7 19 (.int .n16) true true),
     .ok (.vbcast 12 25 15 (.int .i32) true true),
     .ok (.vext 20 1 15 (.flt .e5m2) false true),
     .ok (.vrsum 26 1 15 (.flt .f32) true false),
     .ok (.vrmax 17 4 9 (.int .i6) false true),
     .ok (.vrmin 23 15 2 (.flt .f32) false true)] := rfl
theorem test_decode_major_1d : [0x773596BD].map decode =
    [.ok (.vidx 25 0x565 0x2bd)] := rfl
theorem test_decode_major_1e : [0x799FFB7D, 0x795BB81B].map decode =
    [.ok (.vld 12 31 0xfb7 .b8 true),
     .ok (.vlds 10 27 0xb81 .b4 true)] := rfl
theorem test_decode_major_1f : [0x7D4ED95C, 0x7C47E0CB].map decode =
    [.ok (.vst 10 14 0xd95 .b8 false),
     .ok (.vsts 2 7 0xe0c .b4 true)] := rfl
theorem test_decode_major_20 : [0x815ED80C, 0x811E410C, 0x81DE8A00, 0x80DEDB00, 0x82E31C00, 0x821E6D62].map decode =
    [.ok (.vldx 10 30 27 .b8 false false),
     .ok (.vstx 8 30 8 .b8 false false),
     .ok (.vsaddInt 14 30 17 .b1 false false),
     .ok (.vsaddFloat 6 30 27 .f16 false false),
     .ok (.vconf 23 3 3 .b1 false),
     .ok (.vgth 16 30 13 .d .b1 true false)] := rfl
theorem test_decode_major_21 : [0x842B000A, 0x84ED0048, 0x86030088, 0x864B00C8, 0x879D0108, 0x859B030A, 0x84B29504, 0x8635962E,
    0x87BDD648].map decode =
    [.ok (.vexp2 1 11 true),
     .ok (.vlog2 7 13 false),
     .ok (.vrcp 16 3 false),
     .ok (.vrsqrt 18 11 false),
     .ok (.vfsqrt 28 29 false),
     .ok (.vcvtToFloat 12 27 (.int .i8) .rup .f32 true),
     .ok (.vcvtToInt 5 18 (.flt .f32) .rup .i16 false),
     .ok (.vpackBfp 17 21 3 true),
     .ok (.vunpackBfp 29 29 2 false)] := rfl
theorem test_decode_major_22 : [0x89C46018, 0x89218046, 0x8B4C98A1, 0x8942A8D2, 0x8B414107, 0x8AF4594E, 0x897B1982, 0x8ABF39D6,
    0x89625207, 0x88C25A4B, 0x8B142A88, 0x884EAAC8, 0x89534308, 0x8954334F, 0x8951D388, 0x887853CD,
    0x88824C0A].map decode =
    [.ok (.vaddVs 14 4 12 .n32 false false),
     .ok (.vsubVs 9 1 16 .i16 true false),
     .ok (.vmulVs 26 12 19 .i4 false true),
     .ok (.vminVs 10 2 21 .n8 true false),
     .ok (.vmaxVs 26 1 8 .i16 true true),
     .ok (.vandVs 23 20 11 .i64 true false),
     .ok (.vorVs 11 27 3 .i8 true false),
     .ok (.vxorVs 21 31 7 .n16 true false),
     .ok (.vfaddVs 11 2 10 .bf16 true true),
     .ok (.vfsubVs 6 2 11 .f32 true true),
     .ok (.vfmulVs 24 20 5 .f32 false false),
     .ok (.vfdivVs 2 14 21 .f32 false false),
     .ok (.vfminVs 10 19 8 .f32 false false),
     .ok (.vfmaxVs 10 20 6 .f64 true true),
     .ok (.vfmaVs 10 17 26 .f32 false false),
     .ok (.vfnmaVs 3 24 10 .f64 false true),
     .ok (.vcmpVs 4 2 9 .eq (.int .i32) true false)] := rfl
theorem test_decode_major_23 : [0x8EC0C008, 0x8C1A4108, 0x8CB7241A, 0x8E314228, 0x8C43E43A, 0x8E002048, 0x8F603B58, 0x8CA06360,
    0x8C202878, 0x8C806088, 0x8DC08098, 0x8D8040A4, 0x8D0A60B4].map decode =
    [.ok (.tmov 22 6 .n32),
     .ok (.tmovToTopo 26 2 .n32 false),
     .ok (.tup 5 23 1 .or .n32 true),
     .ok (.tdn 17 17 2 .max .n32 false),
     .ok (.tbc 2 3 7 4 .n32 true),
     .ok (.tdep 16 1),
     .ok (.tancK 27 1 27),
     .ok (.tancM 5 3 3 .f32),
     .ok (.tisanc 1 1 8 false),
     .ok (.troot 4 3),
     .ok (.tdeg 14 4),
     .ok (.tchk 12 2 .i32),
     .ok (.tctr 8 10 3 .i32 false)] := rfl
theorem test_decode_major_24 : [0x90E1DC75, 0x90ADEC77].map decode =
    [.ok (.tld 7 1 0xdc7 true),
     .ok (.tst 5 13 0xec7 true)] := rfl
theorem test_decode_major_27 : [0x9E330000, 0x9CC00100, 0x9CDD0207].map decode =
    [.ok (.anvOp 17 19),
     .ok (.anvZero 6),
     .ok (.vrsumBfp 6 29 7)] := rfl
theorem test_decode_major_28 : [0xA3C20000, 0xA21F0100, 0xA3D90201, 0xA3020300].map decode =
    [.ok (.accLd 30 2),
     .ok (.accSt 16 31),
     .ok (.accMem 30 25 true),
     .ok (.wbLoad 24 2)] := rfl
theorem test_decode_major_25 : [0x94E00002, 0x95A00189, 0x94000201, 0x94600308, 0x96E0040F, 0x97A0050D, 0x94000601, 0x9620070A].map decode =
    [.ok (.bwDef 7 2),
     .ok (.bwBind (some 13) 9),
     .ok (.bwFree 1),
     .ok (.bwPop 3 8),
     .ok (.bwPopNb 23 15),
     .ok (.bwPush 29 13),
     .ok (.bwWait 1),
     .ok (.bwStat 17 10)] := rfl
theorem test_decode_major_26 : [0x9821001A, 0x98400139, 0x98360227, 0x9B800307, 0x9800043A, 0x98000507, 0x98000600].map decode =
    [.ok (.dbPub 1 1 26),
     .ok (.dbRd 2 57),
     .ok (.abInit 1 22 39),
     .ok (.abArrive 28 7),
     .ok (.abWait 58),
     .ok (.abWaitNb 7),
     .ok (.bar)] := rfl
theorem test_decode_major_29 : [0xA64A001E, 0xA42E0103, 0xA59C024F, 0xA73A030F, 0xA6400422, 0xA5FD0517, 0xA5170600, 0xA6BF0712,
    0xA7000800, 0xA4A00900, 0xA7F10A1D, 0xA4000B01].map decode =
    [.ok (.tlLd 30 18 10),
     .ok (.tlMm 3 1 14),
     .ok (.tlEw 15 12 28 .mul),
     .ok (.tlMap 15 25 26),
     .ok (.tlRed 2 18 .max false),
     .ok (.tlCvt 23 15 29),
     .ok (.tlForce 8 23),
     .ok (.tlSt 21 31 18),
     .ok (.tlPin 24),
     .ok (.tlDrop 5),
     .ok (.tlStat 29 31 17),
     .ok (.tlSync true false)] := rfl
theorem test_decode_major_2a : [0xA9BA0000, 0xAAE00100, 0xAABB0200, 0xAA600300].map decode =
    [.ok (.jobSub 13 26),
     .ok (.jobWait 23),
     .ok (.jobPoll 21 27),
     .ok (.jobCancel 19)] := rfl
theorem test_decode_major_2b : [0xAFC0000C, 0xAEA50109, 0xAFE0020C, 0xAC000305, 0xAC8F0401, 0xAC00050B].map decode =
    [.ok (.tmOpen 30 12),
     .ok (.tmPut 21 5 9),
     .ok (.tmMark 31 12),
     .ok (.tmCommit 5),
     .ok (.tmPoll 4 15 1),
     .ok (.tmAbort 11)] := rfl
theorem test_decode_major_2c : [0xB1740000, 0xB0230100, 0xB0800200, 0xB0C00300, 0xB3780400, 0xB0000500, 0xB0000600, 0xB0000700,
    0xB1C00800, 0xB2000900].map decode =
    [.ok (.spawn 11 20),
     .ok (.spawnX 1 3),
     .ok (.join 4),
     .ok (.waitJ 6),
     .ok (.forkL 27 24),
     .ok (.joinL),
     .ok (.yield),
     .ok (.exit),
     .ok (.prio 14),
     .ok (.coach 16)] := rfl
theorem test_decode_major_2d : [0xB4000000, 0xB4000100].map decode =
    [.ok (.quench),
     .ok (.sabort)] := rfl
theorem test_decode_major_3f : [0xFE115E2B].map decode =
    [.ok (.brk 0x2115e2b)] := rfl

namespace Machine

/-! ## Single steps -/

/-- The state that exec answers. -/
def after (i : Instr) (s : State) : Option State :=
  match exec i s with
  | .next t => some t
  | _ => none

/-- The machine with s1 = a and s2 = b; s5 after an instruction on it; the trap it takes. -/
def wPair (a b : Word) : State := wOf fun h => { h with sreg := (h.sreg.set 1 a).set 2 b }
def s5After (i : Instr) (s : State) : Option Word := (after i s).map fun t => t.hart.writebackAll.sreg[(5 : SReg)]
def trapAfter (i : Instr) (s : State) : Option (BitVec 8 × BitVec 8 × Word × Word × Word) :=
  (after i s).map fun t => (t.hart.trap.tcause.cause, t.hart.trap.tcause.sub, t.hart.trap.tpc, t.hart.trap.taddr, t.hart.pc)

/-- 04 R86: the sum of 32 bits, sign-extended. -/
theorem test_add32_wraps : s5After (.add32 5 1 2 false false) (wPair 0x7FFFFFFF 1) = some 0xFFFFFFFF80000000 := by decide +kernel
/-- 04 R87: the corners of its table and its four ordinary cases. -/
theorem test_div_corners : [(5, 0), (-5, 0), (0x8000000000000000, -1), (7, -2), (-7, 2)].map (fun p : Word × Word =>
    s5After (.div 5 1 2 false false) (wPair p.1 p.2)) =
    [some 0x7FFFFFFFFFFFFFFF, some 0x8000000000000000, some 0x7FFFFFFFFFFFFFFF, some (-3), some (-3)] := by decide +kernel
theorem test_rem_corners : [(5, 0), (0x8000000000000000, -1), (7, -2), (-7, 2)].map (fun p : Word × Word =>
    s5After (.rem 5 1 2 false false) (wPair p.1 p.2)) = [some 5, some 0, some 1, some (-1)] := by decide +kernel
/-- 04 R90: its example, and a constant below 0. -/
theorem test_ldhi_example : s5After (.ldhi 5 0x2468A) wState = some 0x123450000 ∧
    s5After (.ldhi 5 0x1FFFFF) wState = some 0xFFFFFFFFFFFF8000 := by decide +kernel
theorem test_ori_example : s5After (.ori 5 1 0x6789 false) (wPair 0x123450000 0) = some 0x123456789 := by decide +kernel
theorem test_addpc : s5After (.addpc 5 0x1FFFFF) wState = some 0xFFC := by decide +kernel
/-- 04 R89: bit 31 is filled downward, then extended. -/
theorem test_srai32 : s5After (.srai32 5 1 4 false) (wPair 0x80000000 0) = some 0xFFFFFFFFF8000000 ∧
    s5After (.srli32 5 1 4 false) (wPair 0x80000000 0) = some 0x08000000 := by decide +kernel
/-- 04 R93: the target is counted from the instruction. -/
theorem test_br : (after (.br 1 (-5)) (wOf fun h => { h with cbit := h.cbit.set 1 true })).map (·.hart.pc) = some 0xFEC ∧
    (after (.br 1 (-5)) wState).map (·.hart.pc) = some 0x1004 := by decide +kernel
theorem test_call : (after (.call 8) wState).map (fun t => (t.hart.pc, t.hart.sreg[(31 : SReg)])) = some (0x1020, 0x1004) := by
  decide +kernel
/-- 04 R94: a misaligned target traps at the jump. -/
theorem test_jmpr_misaligned : trapAfter (.jmpr 1) (wPair 0x1002 0) = some (0x05, 0, 0x1000, 0x1002, 0x1000) := by decide +kernel
/-- 00 R9, 04 R101: the displacement counts units of the size, and bytes lie least significant first. -/
theorem test_st_bytes : (after (.st 1 2 2 .b4 false) (wPair 0x11223344 0x2100)).map (fun t =>
    [0x2108, 0x2109, 0x210A, 0x210B, 0x210C].map (Memory.read t.mem)) = some [0x44, 0x33, 0x22, 0x11, 0] := by decide +kernel
theorem test_ld_sign : s5After (.ld 5 2 8 .b1 true false) ((wPair 0 0x2100).storeLe 0x2108 1 0x80) = some 0xFFFFFFFFFFFFFF80 ∧
    s5After (.ld 5 2 8 .b1 false false) ((wPair 0 0x2100).storeLe 0x2108 1 0x80) = some 0x80 := by decide +kernel
/-- 04 R86: -1 times -1 and its upper half. -/
theorem test_mulh : s5After (.mulh 5 1 2 false false) (wPair (-1) (-1)) = some 0 ∧
    s5After (.mulhN 5 1 2 false false) (wPair (-1) (-1)) = some 0xFFFFFFFFFFFFFFFE := by decide +kernel
/-- 04 R98: 1 + 2 = 3 in f32. -/
theorem test_fadd : (s5After (.fadd 5 1 2 .f32 false false) (wPair 0x3F800000 0x40000000)).map (·.truncate 32) =
    some (0x40400000 : BitVec 32) := by decide +kernel
/-- 02 R22: s0 reads as 0 and discards what is written. -/
theorem test_s0 : (after (.addi 0 0 7 false) wState).map (fun t => (t.hart.sreg[(0 : SReg)], t.hart.pc)) = some (0, 0x1004) := by
  decide +kernel

/-- 16 R339; 10 R194: a leaf whose PLACE is not that of its frame is malformed. -/
theorem test_tlbPrb_placement :
    s5After (.tlbPrb 5 1) ((wPair 0x5000 0).setCell 0 0 { wState.cellOf 0 0 with tlb := ⟨0, 5, 0, 0x5107⟩ :: wTlb }) =
      some 0x8000000000000011 := by decide +kernel
/-- 22 R431: the version is the lower of 3 and what the host wrote to HPHOST. -/
theorem test_linkUp_hphost : ((after (.linkUp 0 none) (wState.setDie 0 { wState.dieOf 0 with
    stage := 8, link := { hostMax := 2 } })).map fun t => ((t.dieOf 0).link.up, (t.dieOf 0).link.version)) = some (true, 2) := by
  decide +kernel
set_option maxRecDepth 40000 in
/-- FIPS 180-4's example: the digest of "abc" begins dd af 35 a1. -/
theorem test_sha512_abc : (sha512 [0x61, 0x62, 0x63]).extractLsb' 0 32 = 0xa135afdd#32 := by decide +kernel

end Machine
end Sys2Proof
end

section
/-!
Words the spec writes out, read by the decoder (O2). A word that is no instruction is refused by a rule about its major,
which says which step of 03 R82 it fails; a word that is one is evaluated, list by list.
-/
namespace Sys2Proof.Machine

/-! ## Refusals of 03 R82 -/

/-- Step 1: op 21 of major 0x17 is unallocated, whatever the other fields hold. -/
theorem decode_illegal_of_op21 {w : Nat} (hmaj : wMajor w = 0x17) (hop : w / 64 % 32 = 21) : decode w = .illegal := by
  rw [Laws.dec_17 hmaj]
  unfold dec17
  rw [hop]
  cases IntTy.ofCode (w / 4 % 16) with
  | none => rfl
  | some t => rfl

/-- Step 2: a gate with a bit set in [15:0]. -/
theorem decode_reserved_of_gate {w : Nat} (hmaj : wMajor w = 0x14) (hlow : w % 65536 ≠ 0) : decode w = .reserved := by
  rw [Laws.dec_14 hmaj]
  simp [dec14, checked, hlow]

/-- Step 3: the destination of vwfma.e4m3 is a group of four (03 R60). -/
theorem decode_misaligned_of_vwfma_e4m3 {w : Nat} (hmaj : wMajor w = 0x19) (hop : w / 64 % 32 = 0)
    (hty : w / 4 % 16 = FltTy.e4m3.code) (hd : wD w % 4 ≠ 0) : decode w = .misaligned := by
  have hgroup : offGroup (wD w) 4 = true := bne_iff_ne.mpr hd
  rw [Laws.dec_19 hmaj]
  unfold dec19
  rw [hop, hty, Laws.FltTy_ofCode]
  simp [checked, hgroup, FltTy.widening]

/-! ## Lists of words -/

/-- A list of words decodes to the instructions beside them. -/
def DecodesTo (l : List (Nat × Instr)) : Prop := ∀ p ∈ l, decode p.1 = .ok p.2

/-- One evaluation of the decoder over a list settles each word of it. -/
theorem decodesTo_of_map {l : List (Nat × Instr)} (h : l.map (decode ·.1) = l.map (.ok ·.2)) : DecodesTo l :=
  List.map_inj_left.mp h

theorem specWordsScalar_decode : DecodesTo specWordsScalar := decodesTo_of_map rfl
theorem specWordsVector_decode : DecodesTo specWordsVector := decodesTo_of_map rfl
theorem specWordsMemory_decode : DecodesTo specWordsMemory := decodesTo_of_map rfl
theorem specWordsSystem_decode : DecodesTo specWordsSystem := decodesTo_of_map rfl

/-- Settles O2: the four lists by evaluation, the four refused words by the rule each of them breaks. -/
theorem specWordsDecode : Obligations.SpecWordsDecode := by
  unfold Obligations.SpecWordsDecode
  refine ⟨?words, decode_illegal_of_op21 rfl rfl, decode_reserved_of_gate rfl (by decide),
    decode_misaligned_of_vwfma_e4m3 rfl rfl rfl (by decide), decode_illegal_of_op21 rfl rfl⟩
  simp only [List.forall_mem_append]
  exact ⟨⟨⟨specWordsScalar_decode, specWordsVector_decode⟩, specWordsMemory_decode⟩, specWordsSystem_decode⟩

end Sys2Proof.Machine
end

section
/-!
The decoder inverts the encoder (O1): the laws of the single instructions, put together along the constructors of
`Instr`.
-/
namespace Sys2Proof.Laws.Encoding

/-- `linkUp` with or without a limit of the host: an event, which no word names. -/
theorem linkUp_any (die : DieNo) (hostMax : Option (BitVec 8)) : Statement (.linkUp die hostMax) :=
  fun _ _ h => nomatch h

/-- One law per constructor, in the order of `Instr`: an encoded instruction's reads its fields back from the word, an
event has no word. -/
theorem decode_encode : ∀ i : Instr, Statement i :=
  Instr.rec (motive := Statement)
    -- Major 0x01
    add sub and or xor sll srl sra mul mulh mulhN div divN rem remN min max minN maxN add32 sub32
    -- Majors 0x02 to 0x09
    addi andi ori xori slli srli srai slli32 srli32 srai32 cmpi cmpiN ldhi addpc
    -- Major 0x0A
    fadd fsub fmul fdiv fsqrt fmin fmax fma fcopys fcopyn fxors fcvti fcvtn icvtf ncvtf fcvtf
    -- Majors 0x0B and 0x0C
    ld st
    -- Majors 0x0D and 0x0E
    ldAcq stRel amoSwap amoAdd amoAnd amoOr amoXor amoMin amoMax amoMinN amoMaxN cas fence fenceLd fenceSt fenceEng
    -- Major 0x0F
    cmp cmpN fcmp cand cor cxor candn cnot cget cput
    -- Majors 0x10 to 0x14
    br brn jmp call jmpr callr ret gret gate
    -- Major 0x15
    trap tret crd cwr cwrVl cwrLpart cwrPrio cwrStripmax cwrPriv cwrAsid cwrTcause cwrHctl tlbInv tlbPrb cacheWb
    cacheInv halt wfe evt
    -- Major 0x16
    setvl setvlDb setvlDbNb
    -- Major 0x17
    vadd vsub vmul vmin vmax vand vor vxor vmulh vdiv vrem vsll vsrl vsra vaddSat vsubSat vabs vneg vmadd vmv
    -- Major 0x18
    vfadd vfsub vfmul vfdiv vfmin vfmax vfma vfnma vfms vfnms vfcopys vfcopyn vfxors vfabs vfneg vfmv
    -- Major 0x19
    vwfma vwfms vwmul vwmadd vwimul
    -- Majors 0x1A and 0x1B
    vcmp mand mor mxor mandn mnot mmov mcpop mfirst
    -- Major 0x1C
    vpush vpushAdd vpull vcmpr vcmprTh vexpand vslideUp vslideDn vbcast vext vrsum vrmax vrmin
    -- Major 0x1D
    vidx
    -- Majors 0x1E to 0x20
    vld vlds vst vsts vldx vstx vsaddInt vsaddFloat vconf vgth
    -- Major 0x21
    vexp2 vlog2 vrcp vrsqrt vfsqrt vcvtToFloat vcvtToInt vpackBfp vunpackBfp
    -- Major 0x22
    vaddVs vsubVs vmulVs vminVs vmaxVs vandVs vorVs vxorVs vfaddVs vfsubVs vfmulVs vfdivVs vfminVs vfmaxVs vfmaVs
    vfnmaVs vcmpVs
    -- Majors 0x23 and 0x24
    tmov tmovToTopo tup tdn tbc tdep tancK tancM tisanc troot tdeg tchk tctr tld tst
    -- Majors 0x27 and 0x28
    anvOp anvZero vrsumBfp accLd accSt accMem wbLoad
    -- Majors 0x25 and 0x26
    bwDef bwBind bwFree bwPop bwPopNb bwPush bwWait bwStat dbPub dbRd abInit abArrive abWait abWaitNb bar
    -- Major 0x29
    tlLd tlMm tlEw tlMap tlRed tlCvt tlForce tlSt tlPin tlDrop tlStat tlSync
    -- Majors 0x2A to 0x2D
    jobSub jobWait jobPoll jobCancel tmOpen tmPut tmMark tmCommit tmPoll tmAbort spawn spawnX join waitJ forkL joinL
    yield exit prio coach quench sabort
    -- Major 0x3F
    brk
    -- Events
    producerWriteback vectorEntryExecute anvilQueueExecute registerSoftError streamFetch taskDispatch
    stripBudgetExpiry cancelBudgetExpiry wfeTimeout engineJobStart deliveryArrival engineJobComplete watchdogExpiry
    codecRowPublish temperPhaseTwo collectiveHop collectiveCommit collectiveAbort spawnXReceive spawnXAck
    spawnXAckTimeout flitReceive portFail linkUp_any launch cancel windowOpen windowClose
    slotRelease quote island islandChangeComplete qgo thermalThrottle thermalTrip dieReset startUp notAnInstruction
    instructionFetchFault outputStreamPerform ewetricLinkUp

/-- Settles O1, by cases on the instruction. -/
theorem decodeInvertsEncode : Obligations.DecodeInvertsEncode := by
  unfold Obligations.DecodeInvertsEncode
  exact fun i w hwf henc => decode_encode i hwf w henc

end Sys2Proof.Laws.Encoding
end

section
/-!
The turn of a running hart (O3): what `issue` does with what the fetch and the decoder answer, and when `step` comes
to it.
-/
namespace Sys2Proof.Machine

/-! ## The word at the pc -/

theorem runWord_instruction {w : Nat} {i : Instr} (hdec : decode w = .ok i) (s : State) :
    runWord w s = if instrWaits s i then .next s else exec i s := by
  unfold runWord; rw [hdec]

/-- A word that is no instruction comes to the event that bears the cause of 03 R82. -/
theorem runWord_refused {w : Nat} {d : Decoded} {c : BitVec 8} (hdec : decode w = d) (hbad : ∀ i, d ≠ .ok i)
    (hcause : badWord d = c) (s : State) :
    runWord w s = exec (.notAnInstruction (BitVec.ofNat 32 w) c) s := by
  unfold runWord
  rw [hdec, ← hcause]
  cases d with
  | ok i => exact absurd rfl (hbad i)
  | illegal => rfl
  | reserved => rfl
  | misaligned => rfl

theorem issue_fetched {s : State} {p : Place} (hfetch : fetchPlace s s.hart = .ok p) :
    issue s = runWord (s.mem.readLe p.pa 4) (tlbFill s s.hart.agent s.hart.pc p.leaf) := by
  unfold issue; rw [hfetch]

theorem issue_fetchFault {s : State} {c : BitVec 8} (hfetch : fetchPlace s s.hart = .error c) :
    issue s = exec (.instructionFetchFault c) s := by
  unfold issue; rw [hfetch]

theorem issue_instruction {s : State} {p : Place} {i : Instr} (hfetch : fetchPlace s s.hart = .ok p)
    (hdec : decode (s.mem.readLe p.pa 4) = .ok i) :
    issue s = if instrWaits (tlbFill s s.hart.agent s.hart.pc p.leaf) i
      then .next (tlbFill s s.hart.agent s.hart.pc p.leaf)
      else exec i (tlbFill s s.hart.agent s.hart.pc p.leaf) := by
  rw [issue_fetched hfetch, runWord_instruction hdec]

theorem issue_refused {s : State} {p : Place} {d : Decoded} {c : BitVec 8} (hfetch : fetchPlace s s.hart = .ok p)
    (hdec : decode (s.mem.readLe p.pa 4) = d) (hbad : ∀ i, d ≠ .ok i) (hcause : badWord d = c) :
    issue s = exec (.notAnInstruction (BitVec.ofNat 32 (s.mem.readLe p.pa 4)) c)
      (tlbFill s s.hart.agent s.hart.pc p.leaf) := by
  rw [issue_fetched hfetch, runWord_refused hdec hbad hcause]

/-! ## No island changing -/

theorem islandChanging_settled {s : State} (h : s.changing = []) (p : Island → Bool) :
    islandChanging s p = false := by
  unfold islandChanging; rw [h]; rfl

theorem instrWaits_settled {s : State} (h : s.changing = []) (i : Instr) : instrWaits s i = false := by
  unfold instrWaits
  split <;> simp only [unitChanging, islandChanging_settled h]

/-! ## When the turn comes -/

theorem issueNow_running {s : State} (hmay : mayIssue s = true) (hrun : s.hart.status = .running) :
    issueNow s = issue s := by
  simp [issueNow, hmay, hrun]

/-- The agenda is none of what an instruction's turn looks at. -/
theorem mayIssue_agenda (s : State) (l : List Act) : mayIssue { s with agenda := l } = mayIssue s := rfl

/-- The die of a cell that runs has not stopped, so the module has not. -/
theorem not_allStopped_of_mayIssue {s : State} (hmay : mayIssue s = true) :
    s.dies.toList.all (fun d => d.stopped) = false := by
  have hrun : (s.dieOf s.hart.die).stopped = false := by
    simp only [mayIssue, cellRuns, Bool.and_eq_true, Bool.not_eq_true'] at hmay
    obtain ⟨⟨⟨-, hdie⟩, -⟩, -⟩ := hmay
    exact hdie
  exact List.all_eq_false.mpr ⟨s.dieOf s.hart.die, by simp [State.dieOf], by simp [hrun]⟩

theorem step_issue (s : State) (rest : List Act) :
    step { s with agenda := .issue :: rest } = issueNow { s with agenda := rest } := by
  simp only [step, act]

/-- Without an agenda, and with no work beside the instructions that goes on, it is the current context's turn. -/
theorem step_turn {s : State} (hmay : mayIssue s = true) (hagenda : s.agenda = []) (hback : background s = none) :
    step s = turn s := by
  unfold step
  rw [hagenda, not_allStopped_of_mayIssue hmay, hback]
  rfl

/-- Settles O3: the fetch and the decoder decide what `issue` does; the turn is named by the agenda or comes by
itself. -/
theorem stepRunsDecodedInstruction : Obligations.StepRunsDecodedInstruction := by
  unfold Obligations.StepRunsDecodedInstruction
  intro s hmay hrun
  refine ⟨?instruction, fun i hsettled => instrWaits_settled hsettled i, ?illegal, ?reserved, ?misaligned,
    fun c => issue_fetchFault, ?agenda, ?own⟩
  case instruction =>
    intro p i hfetch hdec
    rw [issue_instruction hfetch hdec]
    exact ⟨fun hgoes => if_neg (Bool.eq_false_iff.mp hgoes), fun hwaits => if_pos hwaits⟩
  case illegal => exact fun p hfetch hdec => issue_refused hfetch hdec (by simp) rfl
  case reserved => exact fun p hfetch hdec => issue_refused hfetch hdec (by simp) rfl
  case misaligned => exact fun p hfetch hdec => issue_refused hfetch hdec (by simp) rfl
  case agenda =>
    intro rest
    rw [step_issue, issueNow_running ((mayIssue_agenda s rest).trans hmay) hrun]
  case own =>
    intro hagenda hback t hissue
    rw [step_turn hmay hagenda hback, turn, issueNow_running hmay hrun, hissue]
    rfl

end Sys2Proof.Machine
end
